-- ==== Sys2Proof/Word.lean ====
section
/-! DEFINITION. The word types of the Caselo N9 (R4) and the sparse map that holds every indexed piece of state. -/

namespace Sys2Proof

/-- One byte (R4). -/
abbrev Byte := BitVec 8

/-- A 32-bit register or word (R62). -/
abbrev Word := BitVec 32

/-- A 64-bit pair (R66). -/
abbrev DWord := BitVec 64

/-- The data of an access of up to 16 bytes (R141). -/
abbrev QWord := BitVec 128

/-- A sparse map from numbers to values: its pairs in rising order of the key, no pair holding the value
that an unlisted key reads as. -/
abbrev SMap (α : Type) := List (Nat × α)

/-- The number of lanes of a warp, WARPW (R182). -/
abbrev lanesPerWarp : Nat := 64

end Sys2Proof
end

