-- ==== Sys2Proof/Machine/Map.lean ====
section
/-! DEFINITION. Sparse maps, memory and bit fields: the containers that State is built from. -/

namespace Sys2Proof

/-- The value at a key; `d` where nothing is listed. -/
def SMap.get {α : Type} (d : α) : SMap α → Nat → α
  | [], _ => d
  | (k, v) :: m, i => if k = i then v else SMap.get d m i

/-- Inserts a pair before the first greater key. -/
def SMap.insert {α : Type} (k : Nat) (v : α) : SMap α → SMap α
  | [] => [(k, v)]
  | (j, u) :: m => if k < j then (k, v) :: (j, u) :: m else (j, u) :: SMap.insert k v m

/-- Removes a key. -/
def SMap.erase {α : Type} (k : Nat) (m : SMap α) : SMap α := m.filter (fun p => p.1 != k)

/-- Writes a key; the value that an unlisted key reads as is not listed, so equal maps are equal data. -/
def SMap.set {α : Type} [DecidableEq α] (d : α) (m : SMap α) (k : Nat) (v : α) : SMap α :=
  if v = d then m.erase k else (m.erase k).insert k v

/-- Applies a function to the value at a key. -/
def SMap.upd {α : Type} [DecidableEq α] (d : α) (m : SMap α) (k : Nat) (g : α → α) : SMap α :=
  m.set d k (g (m.get d k))

/-- The keys that are listed. -/
def SMap.keys {α : Type} (m : SMap α) : List Nat := m.map Prod.fst

/-- Keys strictly rising and no listed value equal to the default. -/
def SMap.wf {α : Type} [DecidableEq α] (d : α) : SMap α → Bool
  | [] => true
  | [(_, v)] => v ≠ d
  | (k, v) :: (j, u) :: m => v ≠ d && k < j && SMap.wf d ((j, u) :: m)

namespace Machine

/-- Memory (R14, R19): bytes by pod-global physical address, an unlisted byte reading as 0 (log 2). -/
abbrev Memory := List Host.Cell

/-- What an unlisted byte of memory reads as (log 2, DESIGN CHOICE, unsafe). -/
def memUnlisted : Byte := 0

/-- The byte at an address. -/
def Memory.byte (m : Memory) (a : Nat) : Byte := SMap.get memUnlisted m a

/-- Writes one byte. -/
def Memory.setByte (m : Memory) (a : Nat) (v : Byte) : Memory := SMap.set memUnlisted m a v

/-- The `n` bytes at an address as one little-endian number (R4). -/
def Memory.read (m : Memory) (a n : Nat) : Nat :=
  (List.range n).foldr (fun i acc => acc * 256 + (m.byte (a + i)).toNat) 0

/-- Writes the low `n` bytes of a number, little-endian (R4). -/
def Memory.write (m : Memory) (a : Nat) : Nat → Nat → Memory
  | 0, _ => m
  | n + 1, v => Memory.write (m.setByte a (BitVec.ofNat 8 v)) (a + 1) n (v / 256)

/-- The canonical form of memory. -/
def Memory.wf (m : Memory) : Bool := SMap.wf memUnlisted m

end Machine

/-- Bits hi:lo of a number (R4). -/
def bits (v hi lo : Nat) : Nat := v / 2 ^ lo % 2 ^ (hi - lo + 1)

/-- Bit n of a number. -/
def bit (v n : Nat) : Bool := v / 2 ^ n % 2 == 1

/-- A number with bits hi:lo replaced. -/
def setBits (v hi lo x : Nat) : Nat :=
  v - bits v hi lo * 2 ^ lo + x % 2 ^ (hi - lo + 1) * 2 ^ lo

/-- 1 for true. -/
def b2n (b : Bool) : Nat := if b then 1 else 0

/-- The set bits of a lane mask, ascending. -/
def lanesOf (m : BitVec 64) : List Nat := (List.range 64).filter fun i => m.getLsbD i

/-- The mask of a list of lanes. -/
def maskOf (ls : List Nat) : BitVec 64 := ls.foldl (fun m i => m ||| BitVec.ofNat 64 (2 ^ i)) 0

/-- Inserts before the first element that is not less. -/
def insertBy {α : Type} (lt : α → α → Bool) (x : α) : List α → List α
  | [] => [x]
  | y :: l => if lt y x then y :: insertBy lt x l else x :: y :: l

/-- Insertion sort: stable, structural. -/
def sortBy {α : Type} (lt : α → α → Bool) (l : List α) : List α := l.foldr (insertBy lt) []

/-- The sum of a function over a list. -/
def sumOf {α : Type} (g : α → Nat) (l : List α) : Nat := l.foldl (fun n x => n + g x) 0

/-- Removes repeats, keeping first occurrences. -/
def dedup (l : List Nat) : List Nat := l.foldl (fun acc x => if acc.contains x then acc else acc ++ [x]) []

end Sys2Proof
end

