-- ==== Sys2Proof/Machine/Float.lean ====
section
/-! DEFINITION. Floating-point values, formats, rounding and narrowing (R200 to R218), exact sums and products, and the
correctly rounded functions of R222. -/

namespace Sys2Proof

/-! ### Flags (R219) -/

/-- Flags are a number in the bit order of FSTAT. -/
abbrev Flags := Nat
/-- NV, DZ, OF, UF, NX, FMTV, SATF (R219). -/
def flNV : Flags := 1
/-- R219. -/
def flDZ : Flags := 2
/-- R219. -/
def flOF : Flags := 4
/-- R219. -/
def flUF : Flags := 8
/-- R219. -/
def flNX : Flags := 16
/-- R219. -/
def flFMTV : Flags := 32
/-- R219. -/
def flSATF : Flags := 64
/-- A flag where a condition holds. -/
def flagIf (c : Bool) (f : Flags) : Flags := if c then f else 0

/-! ### Formats (R200) -/

/-- What the top exponent of a format holds. -/
inductive Top where
  | ieee | e4m3 | finite
deriving DecidableEq, Repr

/-- A floating-point format: exponent bits, mantissa bits, bias, and its top codes (R200). -/
structure Fmt where
  e : Nat
  m : Nat
  bias : Nat
  top : Top
deriving DecidableEq, Repr

/-- R200. -/
def fp64 : Fmt := ⟨11, 52, 1023, .ieee⟩
/-- R200. -/
def fp32 : Fmt := ⟨8, 23, 127, .ieee⟩
/-- R200. -/
def fp16 : Fmt := ⟨5, 10, 15, .ieee⟩
/-- R200. -/
def bf16 : Fmt := ⟨8, 7, 127, .ieee⟩
/-- R200. -/
def e5m2 : Fmt := ⟨5, 2, 15, .ieee⟩
/-- R200. -/
def e4m3 : Fmt := ⟨4, 3, 7, .e4m3⟩
/-- R200. -/
def e3m2 : Fmt := ⟨3, 2, 3, .finite⟩
/-- R200. -/
def e2m3 : Fmt := ⟨2, 3, 1, .finite⟩

/-- An exact value: NaN (signalling or quiet), infinity, or a signed dyadic number `mant x 2^exp`; a zero has a sign. -/
inductive Val where
  | nan (sig : Bool)
  | inf (neg : Bool)
  | fin (neg : Bool) (mant : Nat) (exp : Int)
deriving DecidableEq, Repr

/-- The exponent of the smallest normal (R200). -/
def Fmt.emin (f : Fmt) : Int := 1 - f.bias
/-- The largest exponent of a finite value. -/
def Fmt.emax (f : Fmt) : Int :=
  match f.top with
  | .ieee => 2 ^ f.e - 2 - f.bias
  | _ => 2 ^ f.e - 1 - f.bias
/-- The largest finite magnitude without its sign bit, as a code (R200). -/
def Fmt.maxCode (f : Fmt) : Nat :=
  match f.top with
  | .ieee => (2 ^ f.e - 1) * 2 ^ f.m - 1
  | .e4m3 => 2 ^ (f.e + f.m) - 2
  | .finite => 2 ^ (f.e + f.m) - 1
/-- The sign bit as a number. -/
def Fmt.sign (f : Fmt) (neg : Bool) : Nat := if neg then 2 ^ (f.e + f.m) else 0
/-- The canonical NaN (R203); a format without NaN has none, and R214 gives +0.0. -/
def Fmt.nan (f : Fmt) : Nat :=
  match f.top with
  | .ieee => (2 ^ f.e - 1) * 2 ^ f.m + 2 ^ (f.m - 1)
  | .e4m3 => 2 ^ (f.e + f.m) - 1
  | .finite => 0
/-- The code of an infinity of an IEEE format. -/
def Fmt.inf (f : Fmt) (neg : Bool) : Nat := f.sign neg + (2 ^ f.e - 1) * 2 ^ f.m

/-- The value of a code (R200, R201, R203). -/
def Fmt.decode (f : Fmt) (c : Nat) : Val :=
  let neg := bit c (f.e + f.m)
  let x := c / 2 ^ f.m % 2 ^ f.e
  let m := c % 2 ^ f.m
  let finite := if x = 0 then Val.fin neg m (f.emin - f.m) else Val.fin neg (2 ^ f.m + m) ((x : Int) - f.bias - f.m)
  match f.top with
  | .ieee => if x = 2 ^ f.e - 1 then (if m = 0 then .inf neg else .nan (!bit m (f.m - 1))) else finite
  | .e4m3 => if x = 2 ^ f.e - 1 && m == 2 ^ f.m - 1 then .nan false else finite
  | .finite => finite

/-! ### Rounding (R212 to R218) -/

/-- Rounding modes (R212); SR carries the 16-bit number r of R218. -/
inductive Rm where
  | rne | rz | ru | rd | sr (r : Nat)
deriving DecidableEq, Repr

/-- Whether the discarded part `rem / 2^shift` of a number with quotient `n` rounds the magnitude up. -/
def roundsUp (rm : Rm) (neg : Bool) (n rem shift : Nat) : Bool :=
  match rm with
  | .rne => 2 ^ shift < 2 * rem || (2 * rem == 2 ^ shift && n % 2 == 1)
  | .rz => false
  | .ru => !neg && rem != 0
  | .rd => neg && rem != 0
  | .sr r => 65536 ≤ rem * 65536 / 2 ^ shift + r

/-- A rounded finite magnitude: its code without sign on the unbounded grid of R213 step 1, whether it is exact, and
whether the value lay below the smallest normal. -/
structure Rounded where
  code : Nat
  exact : Bool
  tiny : Bool

/-- R213 step 1 for a non-zero magnitude. -/
def roundGrid (f : Fmt) (rm : Rm) (neg : Bool) (mant : Nat) (exp : Int) : Rounded :=
  let top : Int := (Nat.log2 mant : Int) + exp
  let q : Int := max top f.emin - f.m
  let base := (q - (f.emin - f.m)).toNat * 2 ^ f.m
  if q ≤ exp then { code := base + mant * 2 ^ (exp - q).toNat, exact := true, tiny := top < f.emin }
  else
    let shift := (q - exp).toNat
    let n := mant / 2 ^ shift
    let rem := mant % 2 ^ shift
    { code := base + n + (if roundsUp rm neg n rem shift then 1 else 0), exact := rem == 0, tiny := top < f.emin }

/-- A mode that rounds an overflow away from zero (R214). -/
def awayOnOverflow (rm : Rm) (neg : Bool) : Bool :=
  match rm with
  | .rne => true
  | .sr _ => true
  | .rz => false
  | .ru => !neg
  | .rd => neg

/-- An overflowing result (R214): its code and flags. -/
def overflowed (f : Fmt) (rm : Rm) (sat neg : Bool) : Nat × Flags :=
  let largest := f.sign neg + f.maxCode
  if sat then (largest, flOF + flNX + flSATF)
  else if !awayOnOverflow rm neg then (largest, flOF + flNX)
  else match f.top with
    | .ieee => (f.inf neg, flOF + flNX)
    | .e4m3 => (f.sign neg + f.nan, flOF + flNX)
    | .finite => (largest, flOF + flNX + flSATF)

/-- An infinite input of a narrowing (R214). -/
def narrowInf (f : Fmt) (sat neg : Bool) : Nat × Flags :=
  let largest := f.sign neg + f.maxCode
  match f.top with
  | .finite => (largest, flSATF)
  | .ieee => if sat then (largest, flSATF) else (f.inf neg, 0)
  | .e4m3 => if sat then (largest, flSATF) else (f.sign neg + f.nan, flNV)

/-- A value narrowed to a format (R213, R214). A signalling NaN raises invalid, and so does any NaN where the format has
none. -/
def narrow (f : Fmt) (rm : Rm) (sat : Bool) (v : Val) : Nat × Flags :=
  match v with
  | .nan sig => (f.nan, flagIf (sig || f.top == .finite) flNV)
  | .inf neg => narrowInf f sat neg
  | .fin neg mant exp =>
    if mant = 0 then (f.sign neg, 0)
    else
      let r := roundGrid f rm neg mant exp
      if f.maxCode < r.code then overflowed f rm sat neg
      else (f.sign neg + r.code, flagIf (!r.exact) flNX ||| flagIf (!r.exact && r.tiny) flUF)

/-- A result of arithmetic, which does not narrow (R214, R278): a NaN is canonical, infinities stay. -/
def roundArith (f : Fmt) (rm : Rm) (v : Val) : Nat × Flags :=
  match v with
  | .nan _ => (f.nan, 0)
  | .inf neg => (f.inf neg, 0)
  | .fin .. => narrow f rm false v

/-! ### Exact arithmetic -/

/-- A NaN operand. -/
def Val.isNan : Val → Bool
  | .nan _ => true
  | _ => false
/-- A signalling NaN operand (R203). -/
def Val.isSig : Val → Bool
  | .nan s => s
  | _ => false
/-- A zero. -/
def Val.isZero : Val → Bool
  | .fin _ 0 _ => true
  | _ => false
/-- The sign changed. -/
def Val.neg : Val → Val
  | .nan s => .nan s
  | .inf n => .inf !n
  | .fin n m e => .fin (!n) m e
/-- A finite value as an integer multiple of `2^e`, `e` at most its exponent. -/
def scaled (neg : Bool) (m : Nat) (exp e : Int) : Int :=
  let x : Int := m * 2 ^ (exp - e).toNat
  if neg then -x else x

/-- The exact product; 0 x inf is invalid (R278). -/
def Val.mul (a b : Val) : Val × Bool :=
  match a, b with
  | .nan _, _ => (.nan false, false)
  | _, .nan _ => (.nan false, false)
  | .inf n, .inf k => (.inf (n ^^ k), false)
  | .inf n, .fin k m _ => if m = 0 then (.nan false, true) else (.inf (n ^^ k), false)
  | .fin k m _, .inf n => if m = 0 then (.nan false, true) else (.inf (n ^^ k), false)
  | .fin n m e, .fin k p g => (.fin (n ^^ k) (m * p) (e + g), false)

/-- The exact sum; inf - inf is invalid; an exact zero of unlike signs is +0.0 except in RD (R278). -/
def Val.add (rm : Rm) (a b : Val) : Val × Bool :=
  match a, b with
  | .nan _, _ => (.nan false, false)
  | _, .nan _ => (.nan false, false)
  | .inf n, .inf k => if n = k then (.inf n, false) else (.nan false, true)
  | .inf n, .fin .. => (.inf n, false)
  | .fin .., .inf n => (.inf n, false)
  | .fin n m e, .fin k p g =>
    let x := min e g
    let s := scaled n m e x + scaled k p g x
    if s = 0 then (.fin (if n = k then n else rm == .rd) 0 0, false)
    else (.fin (s < 0) s.natAbs x, false)

/-- A x B + C with one rounding (R221, R278): code and flags. -/
def fmaVal (f : Fmt) (rm : Rm) (a b c : Val) : Nat × Flags :=
  let (p, nv1) := a.mul b
  let (s, nv2) := p.add rm c
  let (r, fl) := roundArith f rm s
  (r, fl ||| flagIf (nv1 || nv2 || a.isSig || b.isSig || c.isSig) flNV)

/-- A + B (R278). -/
def addVal (f : Fmt) (rm : Rm) (a b : Val) : Nat × Flags :=
  let (s, nv) := a.add rm b
  let (r, fl) := roundArith f rm s
  (r, fl ||| flagIf (nv || a.isSig || b.isSig) flNV)

/-- A x B (R278). -/
def mulVal (f : Fmt) (rm : Rm) (a b : Val) : Nat × Flags :=
  let (s, nv) := a.mul b
  let (r, fl) := roundArith f rm s
  (r, fl ||| flagIf (nv || a.isSig || b.isSig) flNV)

/-- A / B correctly rounded (R355, R369): the quotient to 200 extra bits with a sticky bit below. -/
def divVal (f : Fmt) (rm : Rm) (a b : Val) : Nat × Flags :=
  let sig := flagIf (a.isSig || b.isSig) flNV
  match a, b with
  | .nan _, _ => (f.nan, sig)
  | _, .nan _ => (f.nan, sig)
  | .inf _, .inf _ => (f.nan, flNV)
  | .inf n, .fin k _ _ => (f.inf (n ^^ k), 0)
  | .fin n _ _, .inf k => (f.sign (n ^^ k), 0)
  | .fin n m e, .fin k p g =>
    if p = 0 then (if m = 0 then (f.nan, flNV) else (f.inf (n ^^ k), flDZ))
    else
      let x := m * 2 ^ (200 + Nat.log2 p) 
      let q := x / p * 2 + (if x % p = 0 then 0 else 1)
      roundArith f rm (.fin (n ^^ k) q (e - g - (200 + Nat.log2 p : Nat) - 1))

/-- The exact order of two non-NaN values, -0 and +0 equal: less, equal or greater. -/
def Val.cmp (a b : Val) : Ordering :=
  match a, b with
  | .inf n, .inf k => if n = k then .eq else if n then .lt else .gt
  | .inf n, _ => if n then .lt else .gt
  | _, .inf k => if k then .gt else .lt
  | .fin n m e, .fin k p g =>
    let x := min e g
    compare (scaled n m e x) (scaled k p g x)
  | _, _ => .eq

/-- The sign of a value. -/
def Val.isNeg : Val → Bool
  | .inf n => n
  | .fin n _ _ => n
  | .nan _ => false

/-- `fmin` (R279) on codes: -0.0 below +0.0, a NaN gives way. -/
def fminCode (f : Fmt) (max : Bool) (x y : Nat) : Nat × Flags :=
  let a := f.decode x
  let b := f.decode y
  let fl := flagIf (a.isSig || b.isSig) flNV
  if a.isNan && b.isNan then (f.nan, fl)
  else if a.isNan then (y, fl)
  else if b.isNan then (x, fl)
  else
    let less := match a.cmp b with
      | .lt => true
      | .gt => false
      | .eq => a.isNeg && !b.isNeg
    let greater := match a.cmp b with
      | .lt => false
      | .gt => true
      | .eq => !a.isNeg && b.isNeg
    if max then (if less then (y, fl) else (x, fl)) else (if greater then (y, fl) else (x, fl))

/-- A value rounded to an integer in a mode (R213, R282): the integer and whether it is exact. -/
def roundInt (rm : Rm) (neg : Bool) (mant : Nat) (exp : Int) : Int × Bool :=
  if 0 ≤ exp then (scaled neg mant exp 0, true)
  else
    let shift := (-exp).toNat
    let n := mant / 2 ^ shift
    let rem := mant % 2 ^ shift
    let r : Int := n + (if roundsUp rm neg n rem shift then 1 else 0)
    (if neg then -r else r, rem == 0)

/-- A value narrowed to an integer range (R207, R214, R287): a clamp is an overflow. -/
def narrowInt (rm : Rm) (lo hi : Int) (v : Val) : Int × Flags :=
  match v with
  | .nan _ => (0, flNV)
  | .inf neg => (if neg then lo else hi, flSATF)
  | .fin neg mant exp =>
    let (r, exact) := roundInt rm neg mant exp
    if r < lo then (lo, flOF + flNX + flSATF)
    else if hi < r then (hi, flOF + flNX + flSATF)
    else (r, flagIf (!exact) flNX)

/-- An integer as a value. -/
def Val.ofInt (i : Int) : Val := .fin (i < 0) i.natAbs 0

/-! ### Stochastic rounding (R216 to R218) -/

/-- One LFSR step (R217). -/
def lfsrStep (x : Word) : Word := if x.getLsbD 0 then (x >>> 1) ^^^ 0x80200003 else x >>> 1

/-- One advance of SEED: 32 steps (R217). -/
def seedAdvance (x : Word) : Word := (List.range 32).foldl (fun y _ => lfsrStep y) x

/-- The 16-bit number of element i (R218). -/
def srNumber (seed : Word) (i : Nat) : Nat := (seed.rotateLeft (5 * i % 32)).toNat % 65536

/-- The rounding mode of an RM code for element i of a lane with a SEED (R212, R218). -/
def rmOf (code : Nat) (seed : Word) (i : Nat) : Rm :=
  match code with
  | 0 => .rne | 1 => .rz | 2 => .ru | 3 => .rd | _ => .sr (srNumber seed i)

/-! ### The functions of R222

Fixed-point numbers with 640 fraction bits. An inexact result is given as a number of twice that precision whose last
bit is 1, strictly between two neighbours, so that rounding sees it as inexact. That 640 bits decide the rounding of
every FP32 argument is a fact about the functions (log 9). -/

/-- Fraction bits. -/
def fxBits : Nat := 640
/-- 1.0. -/
def fxOne : Nat := 2 ^ fxBits
/-- The natural logarithm of 2. -/
def fxLn2 : Nat := 0xb17217f7d1cf79abc9e3b39803f2f6af40f343267298b62d8a0d175b8baafa2be7b876206debac98559552fb4afa1b10ed2eae35c138214427573b291169b8253e96ca16224ae8c51acbda11317c387e
/-- Pi. -/
def fxPi : Nat := 0x3243f6a8885a308d313198a2e03707344a4093822299f31d0082efa98ec4e6c89452821e638d01377be5466cf34e90c6cc0ac29b7c97c50dd3f84d5b5b54709179216d5d98979fb1bd1310ba698dfb5ac

/-- A product of fixed-point numbers. -/
def fxMul (a b : Nat) : Nat := a * b / fxOne

/-- The exponential series of r below 1: sum of r^n / n!. -/
def fxExpSeries (r : Nat) : Nat → Nat → Nat → Nat → Nat
  | 0, _, _, acc => acc
  | fuel + 1, n, term, acc =>
    let t := fxMul term r / n
    if t = 0 then acc else fxExpSeries r fuel (n + 1) t (acc + t)

/-- e^r for a fixed-point r below 1. -/
def fxExp (r : Nat) : Nat := fxExpSeries r 200 1 fxOne fxOne

/-- The alternating series of sin and cos: from term number n, steps of two. -/
def fxTrig (x2 : Nat) : Nat → Nat → Nat → Bool → Int → Int
  | 0, _, _, _, acc => acc
  | fuel + 1, n, term, plus, acc =>
    let t := fxMul term x2 / (n * (n + 1))
    if t = 0 then acc
    else fxTrig x2 fuel (n + 2) t (!plus) (if plus then acc + t else acc - t)

/-- sin of a fixed-point angle up to pi/2. -/
def fxSin (x : Nat) : Nat := (fxTrig (fxMul x x) 200 2 x false x).toNat
/-- cos of a fixed-point angle up to pi/2. -/
def fxCos (x : Nat) : Nat := (fxTrig (fxMul x x) 200 1 fxOne false fxOne).toNat

/-- The series of atanh: z + z^3/3 + ... -/
def fxAtanhSeries (z2 : Nat) : Nat → Nat → Nat → Nat → Nat
  | 0, _, _, acc => acc
  | fuel + 1, n, power, acc =>
    let p := fxMul power z2
    if p = 0 then acc else fxAtanhSeries z2 fuel (n + 2) p (acc + p / n)

/-- ln of a fixed-point number from 1 to 2. -/
def fxLn (m : Nat) : Nat :=
  let z := (m - fxOne) * fxOne / (m + fxOne)
  2 * fxAtanhSeries (fxMul z z) 500 3 z z

/-- An inexact fixed-point magnitude as a value, scaled by `2^k`. -/
def fxVal (neg : Bool) (x : Nat) (k : Int) : Val := .fin neg (2 * x + 1) (k - fxBits - 1)

/-- A fixed-point number of a non-negative dyadic magnitude, below 2^400. -/
def fxOf (mant : Nat) (exp : Int) : Nat :=
  if 0 ≤ exp + fxBits then mant * 2 ^ (exp + fxBits).toNat else mant / 2 ^ (-(exp + fxBits)).toNat

/-- e^x for x = (-1)^neg * r, r below 2^9 as fixed-point: k and e^(x - k ln 2) with x = k ln 2 + rest. -/
def fxExpParts (neg : Bool) (r : Nat) : Int × Nat :=
  let k := r / fxLn2
  let rest := r % fxLn2
  if neg then (-(k : Int) - 1, fxExp (fxLn2 - rest)) else (k, fxExp rest)

/-- The magnitude of a value reaches `2^k`. -/
def bigMag (mant : Nat) (exp : Int) (k : Int) : Bool := mant != 0 && k ≤ (Nat.log2 mant : Int) + exp

/-- `exp` of a finite non-zero value (R222). -/
def expFin (neg : Bool) (mant : Nat) (exp : Int) : Val :=
  if bigMag mant exp 9 then (if neg then .fin false 1 (-2000) else .fin false 1 2000)
  else
    let (k, v) := fxExpParts neg (fxOf mant exp)
    fxVal false v k

/-- `ex2` of a finite value (R222): exact for an integer. -/
def ex2Fin (neg : Bool) (mant : Nat) (exp : Int) : Val :=
  if bigMag mant exp 9 then (if neg then .fin false 1 (-2000) else .fin false 1 2000)
  else
    let x := scaled neg mant exp (min exp 0)
    let one : Int := 2 ^ (-(min exp 0)).toNat
    let k := x / one
    let rest := (x % one).toNat
    if rest = 0 then .fin false 1 k
    else fxVal false (fxExp (fxMul (fxOf rest (min exp 0)) fxLn2)) k

/-- `lg2` of a positive finite value (R222): exact for a power of two. -/
def lg2Fin (mant : Nat) (exp : Int) : Val :=
  let l := Nat.log2 mant
  let k : Int := (l : Int) + exp
  if mant = 2 ^ l then .fin (k < 0) k.natAbs 0
  else
    let frac := fxLn (mant * fxOne / 2 ^ l) * fxOne / fxLn2
    let t : Int := k * (fxOne : Int) + frac
    if 0 ≤ t then fxVal false t.toNat 0 else .fin true (2 * t.natAbs - 1) (-(fxBits : Int) - 1)

/-- sin(pi x) or cos(pi x) of a finite value (R222). The argument is reduced modulo 2 to quarter turns. -/
def piTrig (cosine neg : Bool) (mant : Nat) (exp : Int) : Val :=
  let e := min exp (-2)
  let m := mant * 2 ^ (exp - e).toNat
  let turn := 2 ^ (1 - e).toNat
  let half := 2 ^ (-1 - e).toNat
  let x := m % turn
  let x := if cosine then (x + half) % turn else x
  let quarter := x / half
  let t := x % half
  -- sin(pi x): quarters 0 and 1 positive, 2 and 3 negative
  let s := (quarter ≥ 2) ^^ (neg && !cosine)
  if t = 0 then
    if quarter % 2 = 0 then .fin (neg && !cosine) 0 0 else .fin s 1 0
  else
    let ang := fxMul (fxOf t e) fxPi
    fxVal s (if quarter % 2 = 0 then fxSin ang else fxCos ang) 0

/-- `tanh` of a finite non-zero value (R222). -/
def tanhFin (neg : Bool) (mant : Nat) (exp : Int) : Val :=
  if bigMag mant exp 7 then .fin neg (2 ^ 600 - 1) (-600)
  else
    let (k, v) := fxExpParts false (2 * fxOf mant exp)
    let e2 := v * 2 ^ k.toNat
    fxVal neg ((e2 - fxOne) * fxOne / (e2 + fxOne)) 0

/-- The integer square root by bits, high to low. -/
def isqrtBits (n : Nat) : Nat → Nat → Nat
  | 0, r => r
  | i + 1, r => if (r + 2 ^ i) * (r + 2 ^ i) ≤ n then isqrtBits n i (r + 2 ^ i) else isqrtBits n i r

/-- The integer square root. -/
def isqrt (n : Nat) : Nat := isqrtBits n (Nat.log2 n / 2 + 1) 0

/-- The square root of a positive finite value, with a sticky bit. -/
def sqrtFin (mant : Nat) (exp : Int) : Val :=
  let even := exp % 2 = 0
  let m := (if even then mant else mant * 2) * 2 ^ 200
  let e := (if even then exp else exp - 1) - 200
  let r := isqrt m
  .fin false (2 * r + (if r * r = m then 0 else 1)) (e / 2 - 1)

/-- The reciprocal square root of a positive finite value, with a sticky bit. -/
def rsqFin (mant : Nat) (exp : Int) : Val :=
  let even := exp % 2 = 0
  let m := if even then mant else mant * 2
  let e := if even then exp else exp - 1
  let k := 2 * (Nat.log2 m + 100)
  let q := 2 ^ k / m
  let r := isqrt q
  .fin false (2 * r + (if r * r * m = 2 ^ k then 0 else 1)) (-(e / 2) - (k / 2 : Nat) - 1)

/-- The special functions by name (R222, R295). -/
inductive Fn where
  | rcp | rsq | sqrt | ex2 | lg2 | exp | sinpi | cospi | tanh
deriving DecidableEq, Repr

/-- The correctly rounded function of an FP32 code, with flags (R222). -/
def applyFn (fn : Fn) (x : Nat) : Nat × Flags :=
  let ok (v : Val) : Nat × Flags := roundArith fp32 .rne v
  let invalid : Nat × Flags := (fp32.nan, flNV)
  match fp32.decode x with
  | .nan sig => (fp32.nan, flagIf sig flNV)
  | .inf neg =>
    match fn with
    | .rcp => (fp32.sign neg, 0)
    | .rsq | .sqrt | .lg2 => if neg then invalid else if fn = .rsq then (0, 0) else (fp32.inf false, 0)
    | .ex2 | .exp => if neg then (0, 0) else (fp32.inf false, 0)
    | .sinpi | .cospi => invalid
    | .tanh => ok (.fin neg 1 0)
  | .fin neg mant exp =>
    if mant = 0 then
      match fn with
      | .rcp | .rsq => (fp32.inf neg, flDZ)
      | .lg2 => (fp32.inf true, flDZ)
      | .ex2 | .exp | .cospi => ok (.fin false 1 0)
      | .sqrt | .sinpi | .tanh => (x, 0)
    else
      match fn with
      | .rcp => divVal fp32 .rne (.fin false 1 0) (.fin neg mant exp)
      | .rsq => if neg then invalid else ok (rsqFin mant exp)
      | .sqrt => if neg then invalid else ok (sqrtFin mant exp)
      | .ex2 => ok (ex2Fin neg mant exp)
      | .lg2 => if neg then invalid else ok (lg2Fin mant exp)
      | .exp => ok (expFin neg mant exp)
      | .sinpi => ok (piTrig false neg mant exp)
      | .cospi => ok (piTrig true neg mant exp)
      | .tanh => ok (tanhFin neg mant exp)

end Sys2Proof
end

