-- ==== Sys2Proof/Config.lean ====
section
/-! DEFINITION. What the spec leaves to the implementation or names without fixing: opaque constants that no
proof can see into. -/

namespace Sys2Proof.Config

/-- SHA-384 of a byte string (R422, R427): the spec names the standard function; uninterpreted here (log 12). -/
opaque sha384 : List Byte → BitVec 384

/-- The signature of the audit head under the identity key (R427), uninterpreted (log 12). -/
opaque signHead : BitVec 384 → BitVec 768

/-- The pseudo-channel that holds a line of DRAM, by its number stack x 160 + channel: the spec gives no address map of
pseudo-channels (R429), so it is uninterpreted (log 44). -/
opaque channelOf : Nat → Nat

/-- A value the spec leaves open, fresh for each number (log 5). -/
opaque freeWord : Nat → Word

end Sys2Proof.Config
end

