-- ==== Sys2Proof/Syntax.lean ====
section
/-! DEFINITION. The instructions and events of spec/opcode_table.json: an instruction carries the fields of its
encoding (R227, R233, R234), an event carries what names the thing it happens to. -/

namespace Sys2Proof

/-- A guard: predicate index (7 is `pt`) and negation (R227, R228). -/
structure Guard where
  idx : BitVec 3
  neg : Bool
deriving DecidableEq, Repr

/-- The extension of an instruction (R225, R233, R234): none, the immediate form, the K form, the 128-bit form.
Kind bits stand as the form orders them: A, B, C, E from bit 0 in K; D, A, B, C in the 128-bit form. -/
inductive Ext where
  | none
  | imm (v : Word)
  | k (e : BitVec 8) (kinds scope : BitVec 4) (off : BitVec 16)
  | wide (imm : Word) (escBase : BitVec 8) (escCount kinds scope : BitVec 4) (seg : BitVec 3)
deriving DecidableEq, Repr

/-- The fields of an encoded instruction other than its length and opcode (R227). -/
structure Fields where
  ga : Guard
  gb : Guard
  d : BitVec 8
  a : BitVec 8
  b : BitVec 8
  c : BitVec 8
  stall : BitVec 3
  swap : Bool
  ch : BitVec 3
  mod : BitVec 5
  ext : Ext
deriving DecidableEq, Repr

/-- One constructor per row of spec/opcode_table.json. Rows of an instruction carry its fields; rows of an event
(spec/95_what_each_step_holds.md) carry the numbers of what they act on and, for a write, the requester and the value. -/
inductive Instr where
  /-- R250. Adds two 32-bit integers, either wrapping or saturating. -/
  | add (f : Fields)
  /-- R250. Subtracts two 32-bit integers, either wrapping or saturating. -/
  | sub (f : Fields)
  /-- R250. Writes the low 32 bits of a product. -/
  | mul (f : Fields)
  /-- R250. Writes the high 32 bits of a signed or unsigned product. -/
  | mulhi (f : Fields)
  /-- R250. Writes the low 32 bits of A times B plus C. -/
  | mad (f : Fields)
  /-- R250. Multiply-add that widens to a 64-bit pair result. -/
  | madw (f : Fields)
  /-- R251. Integer division with defined results for division by zero and for overflow. -/
  | div (f : Fields)
  /-- R251. Integer remainder with defined results for division by zero and for overflow. -/
  | rem (f : Fields)
  /-- R250. Writes the lesser of two integers under the type. -/
  | min (f : Fields)
  /-- R250. Writes the greater of two integers under the type. -/
  | max (f : Fields)
  /-- R250. Signed absolute value, optionally saturating. -/
  | abs (f : Fields)
  /-- R250. Signed negation, optionally saturating. -/
  | neg (f : Fields)
  /-- R250. Bitwise and. -/
  | and (f : Fields)
  /-- R250. Bitwise or. -/
  | or (f : Fields)
  /-- R250. Bitwise exclusive or. -/
  | xor (f : Fields)
  /-- R250. Writes A and not B. -/
  | andn (f : Fields)
  /-- R250. Bitwise complement. -/
  | not (f : Fields)
  /-- R250. Counts the set bits. -/
  | popc (f : Fields)
  /-- R250. Counts the leading zeros. -/
  | clz (f : Fields)
  /-- R250. Reverses the bit order. -/
  | brev (f : Fields)
  /-- R252. Logical shift left by the count modulo 32. -/
  | shl (f : Fields)
  /-- R252. Logical shift right by the count modulo 32. -/
  | shr (f : Fields)
  /-- R252. Arithmetic shift right by the count modulo 32. -/
  | sar (f : Fields)
  /-- R252. Rotates left by the count modulo 32. -/
  | rot (f : Fields)
  /-- R252. Funnel shift left or right of a 64-bit concatenation. -/
  | fsh (f : Fields)
  /-- R252. Extracts a bit field with sign or zero extension. -/
  | bfx (f : Fields)
  /-- R252. Inserts a bit field into C. -/
  | bfi (f : Fields)
  /-- R252. Builds each destination byte by selecting a source byte or filling it. -/
  | bsel (f : Fields)
  /-- R253. Adds a shifted, extended index to a 64-bit base. -/
  | lea (f : Fields)
  /-- R254. Selects A or B by a predicate. -/
  | sel (f : Fields)
  /-- R254. Compares two integers or pairs and writes the result to a predicate. -/
  | icmp (f : Fields)
  /-- R255. Copies a register or pair. -/
  | mov (f : Fields)
  /-- R255. Writes a 32-bit immediate. -/
  | movi (f : Fields)
  /-- R253. 64-bit addition on pairs. -/
  | add64 (f : Fields)
  /-- R253. 64-bit subtraction on pairs. -/
  | sub64 (f : Fields)
  /-- R253. 64-bit shift left. -/
  | shl64 (f : Fields)
  /-- R253. 64-bit shift right, logical or arithmetic. -/
  | shr64 (f : Fields)
  /-- R256. Predicate and. -/
  | pand (f : Fields)
  /-- R256. Predicate or. -/
  | por (f : Fields)
  /-- R256. Predicate exclusive or. -/
  | pxor (f : Fields)
  /-- R256. Predicate not. -/
  | pnot (f : Fields)
  /-- R256. Predicate move. -/
  | pmov (f : Fields)
  /-- R256. Packs p0 to p6 into a general register. -/
  | pmovPack (f : Fields)
  /-- R256. Sets p0 to p6 from bits 6:0 of a general register. -/
  | pmovUnpack (f : Fields)
  /-- R278. FP32 addition in mode RM. -/
  | fadd (f : Fields)
  /-- R278. FP32 subtraction in mode RM. -/
  | fsub (f : Fields)
  /-- R278. FP32 multiplication in mode RM. -/
  | fmul (f : Fields)
  /-- R278. FP32 fused multiply-add with one rounding. -/
  | ffma (f : Fields)
  /-- R279. FP32 minimum with the NaN rules of the rule. -/
  | fmin (f : Fields)
  /-- R279. FP32 maximum with the NaN rules of the rule. -/
  | fmax (f : Fields)
  /-- R280. FP32 comparison written to a predicate. -/
  | fcmp (f : Fields)
  /-- R281. Tests the class of A against a class mask. -/
  | fcls (f : Fields)
  /-- R282. Rounds FP32 to an integral value. -/
  | frnd (f : Fields)
  /-- R283. Packed FP16 or BF16 addition. -/
  | hadd2 (f : Fields)
  /-- R283. Packed FP16 or BF16 multiplication. -/
  | hmul2 (f : Fields)
  /-- R283. Packed FP16 or BF16 fused multiply-add. -/
  | hfma2 (f : Fields)
  /-- R283. Packed minimum, element by element. -/
  | hmin2 (f : Fields)
  /-- R283. Packed maximum, element by element. -/
  | hmax2 (f : Fields)
  /-- R284. Two FP32 fused multiply-adds from BF16 multiplicands. -/
  | bfma2 (f : Fields)
  /-- R285. FP64 addition. -/
  | dadd (f : Fields)
  /-- R285. FP64 multiplication. -/
  | dmul (f : Fields)
  /-- R285. FP64 fused multiply-add. -/
  | dfma (f : Fields)
  /-- R285. FP64 comparison written to a predicate. -/
  | dcmp (f : Fields)
  /-- R287. Converts one element between formats. -/
  | cvt (f : Fields)
  /-- R289. Narrows several FP32 values into one packed register. -/
  | pack (f : Fields)
  /-- R290. Decodes every element of a packed register into consecutive FP32 registers. -/
  | unpk (f : Fields)
  /-- R291. Narrow-format dot product accumulated in FP32. -/
  | ndot (f : Fields)
  /-- R292. Writes entries of a warp codebook from lanes 0 to 7. -/
  | cbld (f : Fields)
  /-- R293. Encodes an FP32 value as a C4 index. -/
  | cbenc (f : Fields)
  /-- R294. Decodes a C4 nibble through a codebook. -/
  | cbdec (f : Fields)
  /-- R295. Correctly rounded reciprocal. -/
  | rcp (f : Fields)
  /-- R295. Correctly rounded reciprocal square root. -/
  | rsq (f : Fields)
  /-- R295. Correctly rounded square root. -/
  | sqrt (f : Fields)
  /-- R295. Correctly rounded base-2 exponential. -/
  | ex2 (f : Fields)
  /-- R295. Correctly rounded base-2 logarithm. -/
  | lg2 (f : Fields)
  /-- R295. Correctly rounded natural exponential. -/
  | exp (f : Fields)
  /-- R295. Correctly rounded sin(pi x). -/
  | sinpi (f : Fields)
  /-- R295. Correctly rounded cos(pi x). -/
  | cospi (f : Fields)
  /-- R295. Correctly rounded hyperbolic tangent. -/
  | tanh (f : Fields)
  /-- R296. A special-function result is written and SFC falls. -/
  | sfuResult (k : Nat)
  /-- R298. Each participant reads A from a source lane. -/
  | shfl (f : Fields)
  /-- R299. Tests a predicate over the participants. -/
  | vote (f : Fields)
  /-- R300. Reduction across the participants. -/
  | redl (f : Fields)
  /-- R300. Prefix scan across the participants. -/
  | scanl (f : Fields)
  /-- R301. Gives each participant the mask of participants holding an equal value. -/
  | matchL (f : Fields)
  /-- R257. Relative branch. -/
  | bra (f : Fields)
  /-- R257. Branch to the address in a pair. -/
  | brx (f : Fields)
  /-- R257. Relative branch that writes the return address to a pair. -/
  | call (f : Fields)
  /-- R257. Branch to the return address in a pair. -/
  | ret (f : Fields)
  /-- R258. Ends each guard-true thread. -/
  | exit (f : Fields)
  /-- R259. Resets the yield distance and records the deadline class; a pre-emption point. -/
  | yield (f : Fields)
  /-- R260. Waits for a number of CYC cycles. -/
  | sleep (f : Fields)
  /-- R260. Waits until CYC reaches a time. -/
  | sleept (f : Fields)
  /-- R260. A sleep ends on its time, on a queue message with wake, or on restore. -/
  | sleepExpiry (wg warp lane : Nat)
  /-- R261. Waits until the class counters are within their limits. -/
  | waitc (f : Fields)
  /-- R262. Warp-scope synchronisation of every unexited thread. -/
  | wsync (f : Fields)
  /-- R185. Reconvergence hint that may hold the thread out of the vote. -/
  | join (f : Fields)
  /-- R263. Does nothing. -/
  | nop (f : Fields)
  /-- R264. Software trap with an immediate. -/
  | trap (f : Fields)
  /-- R264. Breakpoint trap. -/
  | bkpt (f : Fields)
  /-- R265. Ends the handler and resumes the threads at their frozen PCs. -/
  | eret (f : Fields)
  /-- R268. Reads a special register. -/
  | movs (f : Fields)
  /-- R269. Writes a special register. -/
  | movsw (f : Fields)
  /-- R271. Reads a performance counter of the warp. -/
  | perf (f : Fields)
  /-- R272. Privileged invalidation of a range of the partition's translations. -/
  | tlbinv (f : Fields)
  /-- R273. Reads and clears the dirty bits of up to 32 pages per lane. -/
  | harvest (f : Fields)
  /-- R274. Privileged replay-all of the partition's parked requests. -/
  | replay (f : Fields)
  /-- R274. Privileged cancel-all of the partition's parked requests. -/
  | replayCancel (f : Fields)
  /-- R274. Privileged cancel-page of parked requests. -/
  | replayPage (f : Fields)
  /-- R309. Load, optionally an acquire, optionally escorted. -/
  | ld (f : Fields)
  /-- R310. Store, relaxed, release or ordered flag. -/
  | st (f : Fields)
  /-- R313. Chained gather: reads an index, then the element it selects. -/
  | ldi (f : Fields)
  /-- R314. Loads a full scratch word and sets it empty, or waits. -/
  | ldfe (f : Fields)
  /-- R314. Stores to an empty scratch word and sets it full, or waits. -/
  | stfe (f : Fields)
  /-- R317. Atomic read-modify-write that returns the old value. -/
  | atom (f : Fields)
  /-- R317. Atomic reduction without a return. -/
  | red (f : Fields)
  /-- R317. Compare-and-swap that returns the old value. -/
  | cas (f : Fields)
  /-- R152. Release and acquire point at a scope. -/
  | fence (f : Fields)
  /-- R154. Waits for the acknowledgements of the thread's own stores. -/
  | fenceAck (f : Fields)
  /-- R163. Makes the thread's register writes visible to the matrix engine. -/
  | fenceOpr (f : Fields)
  /-- R320. Demotes a protected LLC line to normal. -/
  | cctlDem (f : Fields)
  /-- R320. Discards one line from the core's L1. -/
  | cctlInv1 (f : Fields)
  /-- R320. Discards every line of the core's L1. -/
  | cctlInvall (f : Fields)
  /-- R321. Prefetches a line into L1 and the LLC, or into the LLC only. -/
  | pref (f : Fields)
  /-- R324. Per-lane copy accepted by the copy unit, which returns a promise. -/
  | cpy (f : Fields)
  /-- R325. Multicast copy to the landing buffers of quad-group members. -/
  | cpym (f : Fields)
  /-- R326. Copy into a weight-buffer slot. -/
  | cpyw (f : Fields)
  /-- R125. Sleeps until a promise is reached, then checks the barrier phase. -/
  | waitp (f : Fields)
  /-- R125. A waitp's promise is reached: it continues or raises PROMISE_MISS. -/
  | promiseReached (wg warp : Nat)
  /-- R328. Writes a landing entry and makes it valid. -/
  | land (f : Fields)
  /-- R328. Makes a landing entry invalid. -/
  | unland (f : Fields)
  /-- R129. Warp arrival on a core barrier. -/
  | barArr (f : Fields)
  /-- R329. Arrival, then waits for that phase to complete. -/
  | barSync (f : Fields)
  /-- R329. Waits until the phase bit differs from N. -/
  | barWait (f : Fields)
  /-- R131. Adds expected bytes to the barrier's byte balance. -/
  | barExp (f : Fields)
  /-- R330. Sets the barrier's membership and resets its phase state. -/
  | barInit (f : Fields)
  /-- R329. Reads the barrier status word. -/
  | barRd (f : Fields)
  /-- R329. Reads the barrier status word and clears REFUSED. -/
  | barRdClr (f : Fields)
  /-- R132. Per-cycle evaluation completes a phase when PEND and BYTES are zero and applies the queued arrivals. -/
  | barrierPhaseAdvance (wg b : Nat)
  /-- R130. A copy and every earlier copy naming the barrier have been performed, so the copy unit arrives. -/
  | copyUnitArrival (wg b : Nat)
  /-- R332. Arrival on a network barrier. -/
  | bargArr (f : Fields)
  /-- R332. Network barrier arrival, then a wait for the phase to complete. -/
  | bargSync (f : Fields)
  /-- R332. Waits for a network barrier phase. -/
  | bargWait (f : Fields)
  /-- R139. Gives the current ring stage and waits for the next one to be free. -/
  | rgive (f : Fields)
  /-- R139. Waits for the current ring stage to be full. -/
  | rtake (f : Fields)
  /-- R139. Frees the current ring stage and advances the cursor. -/
  | rfree (f : Fields)
  /-- R334. Tests whether an incoming queue holds a message. -/
  | qpoll (f : Fields)
  /-- R335. Sends a message to an incoming queue of a target workgroup. -/
  | qpollSend (f : Fields)
  /-- R336. Waits for and removes the oldest message of an incoming queue. -/
  | qpollRecv (f : Fields)
  /-- R112. A message reaches its target queue or image, or is dropped. -/
  | queueMessageArrival (id : Nat)
  /-- R338. Starts this member's part in a collective instance. -/
  | coll (f : Fields)
  /-- R340. Waits for a collective instance and writes its status. -/
  | collw (f : Fields)
  /-- R339. Once every member has issued, the instance reduces, broadcasts or gathers and completes. -/
  | collectiveInstance (ctx group occ : Nat)
  /-- R352. Matrix product accumulated into a tile. -/
  | mxi (f : Fields)
  /-- R353. Score product followed by the online-softmax row steps. -/
  | mxs (f : Fields)
  /-- R354. Rescale by c, then matrix product. -/
  | mxv (f : Fields)
  /-- R355. Divides tile rows by the row sums. -/
  | mxn (f : Fields)
  /-- R356. Applies row and column scales to a partial tile. -/
  | mxsa (f : Fields)
  /-- R357. Zeroes a tile, its side registers, or both. -/
  | mxz (f : Fields)
  /-- R360. Reads a tile or side-register element per thread. -/
  | mxrd (f : Fields)
  /-- R360. Writes a tile or side-register element per thread. -/
  | mxwr (f : Fields)
  /-- R358. Stores a tile to scratch. -/
  | mxmvSt (f : Fields)
  /-- R358. Loads a tile from scratch. -/
  | mxmvLd (f : Fields)
  /-- R358. Copies one tile to another. -/
  | mxmvTt (f : Fields)
  /-- R359. Zeroes a weight-buffer slot. -/
  | wbinv (f : Fields)
  /-- R344. An accepted operation has written its results; TLC falls and its flags are ORed in. -/
  | matrixOperationComplete (id : Nat)
  /-- R367. Warp arrival that opens a solve region. -/
  | solve (f : Fields)
  /-- R367. All warps have arrived, TLC is zero and the engine is free, so the region opens. -/
  | solveRegionOpen (wg : Nat)
  /-- R368. Warp arrival at the end of the solve body. -/
  | svend (f : Fields)
  /-- R368. The engine computes the residual norm, then converges, raises SOLVE_NC or mixes and restarts the body. -/
  | svendEvaluation (wg : Nat)
  /-- R372. Reads an element of a history slot. -/
  | svrd (f : Fields)
  /-- R372. Reads an element of the ZP buffer. -/
  | svrdZp (f : Fields)
  /-- R372. Reads an element of the RP buffer. -/
  | svrdRp (f : Fields)
  /-- R372. Clears the history count and position. -/
  | svhsClr (f : Fields)
  /-- R372. Writes an element of a history slot. -/
  | svhsWr (f : Fields)
  /-- R371. Ends the open solve region early. -/
  | svabort (f : Fields)
  /-- R389. Once SFC is zero, the warp freezes its PCs and enters the handler or takes the default action. -/
  | trapEntry (wg warp : Nat)
  /-- R196. A thread's yield distance is exhausted and its launch ends. -/
  | watchdog (wg warp lane : Nat)
  /-- R49. An access is translated and checked, and parks if not present. -/
  | translatedAccess (id : Nat)
  /-- R50. A request waiting in a miss queue enters the replay pool as room frees. -/
  | missQueueToPool (id : Nat)
  /-- R56. FLTCMD op 1 re-issues every parked request of the partition. -/
  | replayAll (agent part : Nat)
  /-- R57. FLTCMD op 2 removes every parked request and raises PAGE traps. -/
  | cancelAll (agent part : Nat)
  /-- R57. FLTCMD op 3 removes the parked requests for one page. -/
  | cancelPage (agent part : Nat)
  /-- R60. FLTCMD op 4 invalidates the partition's translations over a range. -/
  | invalidateRange (agent part : Nat)
  /-- R56. A fault command finishes, BUSY falls and DONECNT increases. -/
  | faultCommandComplete (part : Nat)
  /-- R54. Any write to FBOVF clears OVFCNT. -/
  | fbovfWrite (agent quad : Nat) (v : Word)
  /-- R54. Write-one-to-clear of DROPPED and POOLFULL. -/
  | fbstatWrite (agent quad : Nat) (v : Word)
  /-- R55. Write-one-to-clear of CMDERR. -/
  | fltstatWrite (agent part : Nat) (v : Word)
  /-- R94. A reply writes the destination and the escort registers of its lanes in one step. -/
  | loadReply (id : Nat)
  /-- R109. A request reaches its home slice, where atomics, reductions and ldi hops are performed. -/
  | homeSliceRequest (id : Nat)
  /-- R190. A store's acknowledgement from its home reaches the core and STC falls. -/
  | storeAck (id : Nat)
  /-- R99. An uncorrectable error in a hamper zeroes its registers and raises DATA_ERR. -/
  | hamperEccError (id : Nat)
  /-- R74. When a waiter-table entry frees, the oldest overflow lane is stepped afresh. -/
  | waiterOverflowStep (id : Nat)
  /-- R27. A window access arrives at its target's core or image and is performed, waits or is refused. -/
  | windowAccess (id : Nat)
  /-- R134. A copy transfer operation reaches its source or destination and is performed or refused. -/
  | transferOperation (id : Nat)
  /-- R136. A multicast delivery is resolved at a receiving core. -/
  | multicastDelivery (id member : Nat)
  /-- R114. A remote store is performed at its home and DONE increases. -/
  | remoteStorePerformed (id : Nat)
  /-- R115. An ordered flag reaches the destination interface and is held or refused. -/
  | orderedFlagArrival (id : Nat)
  /-- R115. The held flag is performed once DONE is at least SENT on every path. -/
  | orderedFlagPerform (id : Nat)
  /-- R406. A scale-up path fails; unacknowledged stores are re-sent, or end as failures if no path remains. -/
  | pathFailure (pkg path : Nat)
  /-- R104. A recall message reaches a station, which records the context's requests. -/
  | recall (id : Nat)
  /-- R108. An end message reaches a station, which drops the context's hampers and transfers. -/
  | contextEnd (id : Nat)
  /-- R377. A VQTAIL write makes the dispatcher read new packets, or asks Zorner to bind the queue. -/
  | doorbellWrite (agent vq : Nat) (v : Word)
  /-- R382. VQCMD op 1 discards unstarted packets and ends the queue's launches. -/
  | launchCancel (agent vq : Nat)
  /-- R380. VQCMD op 2 skips or rereads a refused packet and resumes. -/
  | resumeAfterRefusal (agent vq : Nat)
  /-- R380. The dispatcher reads and checks a packet and starts it or halts the queue. -/
  | packetStart (vq : Nat)
  /-- R384. A workgroup is placed on a die and admitted by a quad and a core. -/
  | workgroupDispatch (launch : Nat)
  /-- R193. A workgroup's threads, copies and tags have all finished, so it ends. -/
  | workgroupEnd (wg : Nat)
  /-- R386. A ready pending warp is exchanged with a stalled active warp. -/
  | warpExchange (core part : Nat)
  /-- R386. After 2048 CYC the oldest ready pending warp is forced into the active set. -/
  | forcedExchange (core part : Nat)
  /-- R387. Every 10 us the quad parks warps against its cap, charges ballast debit and updates slack control. -/
  | controlInterval (quad parked ballast energy pace : Nat) (announced : Bool)
  /-- R395. A PRECTX write with GO computes the estimates and chooses drain, save or discard. -/
  | preemptGo (agent quad ctx : Nat)
  /-- R394. A PRECTX write with LIFT ends the quad's admission refusal for the context. -/
  | preemptLift (agent quad ctx : Nat)
  /-- R395. An unfinished drain at its deadline is re-decided. -/
  | drainDeadline (quad : Nat)
  /-- R396. The chosen drain, save or discard has been carried out and BUSY falls. -/
  | preemptComplete (quad : Nat)
  /-- R401. An RSTCMD write with GO checks and restores a section. -/
  | restoreGo (agent quad : Nat) (cmd : Word)
  /-- R402. Write-one-to-clear of RCAP. -/
  | rststatWrite (agent quad : Nat) (v : Word)
  /-- R414. Every 100 us, measured bands update and the state-machine exits are tested. -/
  | sensorSample (temps : List (Nat × BitVec 16))
  /-- R414. CDCTL op 1 moves WARM_RUN to COOLDOWN. -/
  | beginCooldown (agent : Nat)
  /-- R414. CDCTL op 2 moves the package to WARMUP. -/
  | beginWarmup (agent : Nat)
  /-- R415. A refused or reserved CDCTL op sets CMDERR. -/
  | cdctlRefusedOp (agent : Nat) (op : BitVec 4)
  /-- R414. Cold timing calibration completes and the package enters COLD_RUN. -/
  | calibrationComplete
  /-- R415. Write-one-to-clear of SLEWERR and CMDERR. -/
  | cdstatWrite (agent : Nat) (v : Word)
  /-- R416. The patrol scrub reads, corrects and rewrites DRAM rows. -/
  | patrolScrub (pa : Nat)
  /-- R422. The boot ROM measures and verifies firmware and authenticates the stacks. -/
  | packageReset (image : Option (List Byte)) (signed : Bool) (authOk : BitVec 9) (started : Bool)
  /-- R425. Re-stitches a region's mesh, or is ignored and sets CFGERR. -/
  | meshcfgWrite (agent region : Nat) (v : Word)
  /-- R428. Write-one-to-clear of CFGERR. -/
  | healthWrite (agent : Nat) (v : Word)
  /-- R426. A context release zeroes all its storage and logs completion. -/
  | scrubOnRelease (ctx : Nat)
  /-- R427. A write of byte 63 of the audit window commits an entry and extends the head. -/
  | auditEntryCommit (agent : Nat) (byte63 : Byte)
  /-- R427. Every 65,536 entries, and at least once a second, a signed-head entry is appended. -/
  | auditHeadSign
  /-- R430. Write-one-to-clear of LOST. -/
  | evstatWrite (agent part : Nat) (v : Word)
  /-- R429. A core fails in service and is replaced by a spare or disabled. -/
  | coreFailure (core : Nat)
  /-- R429. A failing pseudo-channel is copied to spare rows and retired. -/
  | pseudoChannelRetire (stack channel : Nat)
  /-- R404. A host read or write through BAR0 or BAR2 is checked and performed or refused. -/
  | hostRequest (bar addr size : Nat) (write : Option QWord)
  /-- R5. A write to a control register that has no row of its own. -/
  | registerWrite (agent off : Nat) (v : Word)
  /-- R18. A management-cluster request reaches a listed region or a reserved address; reserved reads return zero, writes are discarded, and the bus-error bit and address are recorded. -/
  | managementClusterAccess (pa size : Nat) (write : Option QWord)
  /-- R422. The management cluster's hardware watchdog resets the cluster after 1 s without service. -/
  | clusterWatchdogReset
  /-- R408. An IEEE 1588 timing exchange disciplines PTIME by slewing, and PTSTAT.LOCK is set or cleared as the time base comes within 50 ns of the pod reference or leaves it. -/
  | timeBaseDiscipline (ns : DWord) (frac : BitVec 16) (lock : Bool)
deriving DecidableEq, Repr

end Sys2Proof
end

