-- ==== Sys2Proof/Machine/Shapes.lean ====
section
/-! DEFINITION. What each field of each instruction may hold (R230 to R235 and the encoding rules of the chapters
11 to 16), as data: the operand classes of R232, the permitted MOD values, kind bits, scopes and escorts. -/

namespace Sys2Proof

/-- The class of an operand field (R232); `code` is a field read by the instruction's own rule and checked by `extraOk`,
`span n` is n consecutive general registers. -/
inductive Cls where
  | unused | gen | pair | quad | span (n : Nat) | pred | bar | ring | tile | wslot | hslot | book | queue | special | code
deriving DecidableEq, Repr

/-- How an instruction uses the 32-bit immediate or offset of its extension (R233, R234). -/
inductive ImmUse where
  | unused   -- must be zero
  | srcB     -- the I form's immediate stands for source B
  | wideB    -- the 128-bit form's immediate stands for source B (R285)
  | disp     -- an address displacement
  | own      -- read by the instruction's own rule
deriving DecidableEq, Repr

/-- What the fields of one instruction may hold. -/
structure Shape where
  d : Cls := .unused
  a : Cls := .unused
  b : Cls := .unused
  c : Cls := .unused
  mods : Bool := true
  imm : ImmUse := .unused
  /-- permitted kind bits of D, A, B, C (R234) -/
  kinds : BitVec 4 := 0
  hint : Bool := false
  /-- the permitted scope codes, bit n for code n (R144); no scope unless the row says so (R247, R275) -/
  scopes : BitVec 16 := 1
  escort : Bool := false
  seg : Bool := false
deriving DecidableEq, Repr

namespace Fields

/-- The scope field (R233, R234); 0 where the form has none (R235). -/
def scope (f : Fields) : BitVec 4 :=
  match f.ext with
  | .k _ _ s _ => s
  | .wide _ _ _ _ s _ => s
  | _ => 0

/-- The segment selector (R234); 0 where the form has none. -/
def seg (f : Fields) : BitVec 3 :=
  match f.ext with
  | .wide _ _ _ _ _ g => g
  | _ => 0

/-- The escort base (R90). -/
def escBase (f : Fields) : Nat :=
  match f.ext with
  | .wide _ b _ _ _ _ => b.toNat
  | _ => 0

/-- The escort count (R90). -/
def escCount (f : Fields) : Nat :=
  match f.ext with
  | .wide _ _ n _ _ _ => n.toNat
  | _ => 0

/-- The kind bits in the order D, A, B, C from bit 0; the K form has none for D (R233, R234). -/
def kinds (f : Fields) : BitVec 4 :=
  match f.ext with
  | .k _ ks _ _ => ks <<< 1
  | .wide _ _ _ ks _ _ => ks
  | _ => 0

/-- Whether the instruction is in its I form. -/
def isImm (f : Fields) : Bool :=
  match f.ext with
  | .imm _ => true
  | _ => false

/-- Whether the instruction is in its 128-bit form. -/
def isWide (f : Fields) : Bool :=
  match f.ext with
  | .wide .. => true
  | _ => false

/-- The immediate of the I form or bits 95:64 of the 128-bit form. -/
def immWord (f : Fields) : Word :=
  match f.ext with
  | .imm v => v
  | .wide v _ _ _ _ _ => v
  | _ => 0

/-- Field E of a K form (R233). -/
def e (f : Fields) : BitVec 8 :=
  match f.ext with
  | .k e _ _ _ => e
  | _ => 0

/-- The signed displacement of an address, to 64 bits (R12, R303). -/
def disp (f : Fields) : DWord :=
  match f.ext with
  | .k _ _ _ o => o.signExtend 64
  | .wide v _ _ _ _ _ => v.signExtend 64
  | _ => 0

/-- The length in bytes (R225). -/
def len (f : Fields) : Nat :=
  match f.ext with
  | .none => 8
  | .imm _ => 12
  | .k .. => 12
  | .wide .. => 16

/-- Both guards are `pt`, not negated. -/
def unguarded (f : Fields) : Bool := f.ga == ⟨7, false⟩ && f.gb == ⟨7, false⟩

/-- MOD bit 59 + n. -/
def mbit (f : Fields) (n : Nat) : Bool := f.mod.getLsbD n

/-- The MOD field as a number. -/
def modN (f : Fields) : Nat := f.mod.toNat

/-- MOD bits 61:59 as a number (RM, cc of `icmp`, and others). -/
def mod3 (f : Fields) : Nat := f.mod.toNat % 8

/-- MOD bits 62:59 as a number. -/
def mod4 (f : Fields) : Nat := f.mod.toNat % 16

/-- MOD bits 60:59 as a number. -/
def mod2 (f : Fields) : Nat := f.mod.toNat % 4

/-- MOD bits 63:61 as a number (the width field of `ld` and `st`, the scope of `qpoll.send`). -/
def modHi (f : Fields) : Nat := f.mod.toNat / 4

end Fields

/-- No MOD bit outside the mask is set. -/
def modMask (f : Fields) (mask : BitVec 5) : Bool := f.mod &&& ~~~mask == 0

/-- General or pair, by a width bit. -/
def Cls.wideIf (w : Bool) : Cls := if w then .pair else .gen

/-- The class of the data of `ld` and `st` by its width field (R308). -/
def Cls.ofWidth (w : Nat) : Cls := if w = 1 then .pair else if w = 2 then .quad else .gen

/-- The kind bits that a register-only instruction permits: those of its single general registers (R248, R276). -/
def genKinds (d a b c : Cls) : BitVec 4 :=
  BitVec.ofNat 4 ((if d = .gen then 1 else 0) + (if a = .gen then 2 else 0) + (if b = .gen then 4 else 0)
    + (if c = .gen then 8 else 0))

/-- The shape of an arithmetic instruction whose I-form immediate stands for B. -/
def aluShape (d a b c : Cls) (mods : Bool) : Shape :=
  { d, a, b, c, mods, imm := .srcB, kinds := genKinds d a b c }

/-- The shape of an instruction of registers without an immediate. -/
def regShape (d a b c : Cls) (mods : Bool) : Shape :=
  { d, a, b, c, mods, kinds := genKinds d a b c }

/-- The shape of an instruction that exists without kind bits (64-bit forms and others). -/
def plainShape (d a b c : Cls) (mods : Bool) : Shape := { d, a, b, c, mods }

/-- Whether a format code of R286 names a 64-bit pair. -/
def codeIsPair (n : Nat) : Bool := n == 1 || n == 19 || n == 23

/-- Elements per register of a format code of R286; 0 for a code not listed. -/
def codeElems (n : Nat) : Nat :=
  match n with
  | 0 => 1 | 1 => 1 | 2 => 2 | 3 => 2 | 4 => 4 | 5 => 4 | 6 => 5 | 7 => 5 | 8 => 4 | 9 => 8
  | 16 => 4 | 17 => 2 | 18 => 1 | 19 => 1 | 20 => 4 | 21 => 2 | 22 => 1 | 23 => 1
  | _ => 0

/-- Whether a format code is packed, so that `cvt` takes an element index (R287). -/
def codePacked (n : Nat) : Bool := codeElems n > 1

/-- The scope codes of an access that may be an acquire or a release: none in `.s` (R144). -/
def accessScopes (scratch : Bool) : BitVec 16 := if scratch then 1 else 0x7F

/-- The scope codes of `atom`, `cas`, `red` (R144, R315): an order needs a scope, a scratch atomic takes 0 or 1. -/
def atomScopes (f : Fields) : BitVec 16 := (if f.mbit 3 then 3 else 0x7F) &&& (if f.mod2 == 0 then 0x7F else 0x7E)

/-- The operation codes of R316 at a width; `red` refuses `exch`. -/
def atomCodeOk (c : Nat) (w64 red : Bool) : Bool :=
  if c ≤ 7 then true
  else if c = 8 then !red
  else if c = 9 ∨ c = 10 ∨ c = 16 ∨ c = 17 ∨ c = 18 then !w64
  else if c = 19 then w64
  else false

/-- The space of a memory instruction is `.g` or `.c`, so a segment may be named (R13). -/
def segSpace (n : Nat) : Bool := n == 0 || n == 2

/-- The special registers that exist, and those that `movsw` may write (R267). -/
def specialOk (n : Nat) (write : Bool) : Bool :=
  if write then n = 8 ∨ n = 9 ∨ n = 20 ∨ (24 ≤ n ∧ n ≤ 31) else n ≤ 20 ∨ (24 ≤ n ∧ n ≤ 31)

/-- The parts of a special register that `movs` may read (R268). -/
def specialPartOk (n part : Nat) : Bool :=
  let wide := n = 0 ∨ n = 1 ∨ n = 11 ∨ n = 12 ∨ n = 13
  match part with
  | 0 => true
  | 1 => wide
  | 2 => n = 1 ∨ n = 12
  | 4 => wide
  | _ => false

/-- The shape of the copy instructions (R323). -/
def copyShape (f : Fields) (cOk : Bool) (dstSpace : Nat) : Shape :=
  { d := .gen, a := .pair, b := .pair, c := .code, mods := cOk && f.modN / 4 % 4 != 3, imm := .disp, kinds := 1,
    hint := true, seg := segSpace f.mod2 || dstSpace == 0 }

/-- The shape of `bar` with its operation code (R329). -/
def barShape (f : Fields) (op : Nat) (d b : Cls) : Shape :=
  { d, a := .bar, b, mods := f.modN == op || (op == 2 && f.modN == 10), kinds := if b = .gen then 4 else 0 }

/-- The shape of `barg` (R331); field E is checked by `extraOk`. -/
def bargShape (f : Fields) (op : Nat) : Shape :=
  { mods := f.mod2 == op && (op == 2 || !f.mbit 2),
    scopes := match f.ext with
    | .k .. => 0x3C
    | _ => 1 }

/-- The shape of every instruction row; an event has the empty shape. -/
def Instr.shape : Instr → Shape
  -- 11: integer, address, predicate (R249 to R256)
  | .add f | .sub f => aluShape .gen .gen .gen .unused (modMask f 3)
  | .mul f | .mulhi f | .div f | .rem f | .min f | .max f => aluShape .gen .gen .gen .unused (modMask f 1)
  | .mad f => aluShape .gen .gen .gen .gen (modMask f 1)
  | .madw f => aluShape .pair .gen .gen .pair (modMask f 1)
  | .abs f | .neg f => regShape .gen .gen .unused .unused (modMask f 2)
  | .and f | .or f | .xor f | .andn f | .shl f | .shr f | .sar f | .rot f =>
    aluShape .gen .gen .gen .unused (modMask f 0)
  | .not f | .popc f | .clz f | .brev f => regShape .gen .gen .unused .unused (modMask f 0)
  | .fsh f => aluShape .gen .gen .gen .gen (modMask f 1)
  | .bfx f => aluShape .gen .gen .gen .unused (modMask f 1)
  | .bfi f | .bsel f => aluShape .gen .gen .gen .gen (modMask f 0)
  | .lea f => aluShape .pair .pair .gen .unused (modMask f 15)
  | .sel f => aluShape .gen .gen .gen .pred (modMask f 1)
  | .icmp f => aluShape .pred (.wideIf (f.mbit 4)) (.wideIf (f.mbit 4)) .unused (f.mod3 ≤ 5)
  | .mov f => regShape (.wideIf (f.mbit 0)) (.wideIf (f.mbit 0)) .unused .unused (modMask f 1)
  | .movi f => { d := .gen, mods := modMask f 0, imm := .own }
  | .add64 f | .sub64 f => aluShape .pair .pair .pair .unused (modMask f 0)
  | .shl64 f => aluShape .pair .pair .gen .unused (modMask f 0)
  | .shr64 f => aluShape .pair .pair .gen .unused (modMask f 1)
  | .pand f | .por f | .pxor f => plainShape .pred .pred .pred .unused (modMask f 3)
  | .pnot f | .pmov f => plainShape .pred .pred .unused .unused (modMask f 1)
  | .pmovPack f => plainShape .gen .unused .unused .unused (f.mod == 4)
  | .pmovUnpack f => plainShape .unused .gen .unused .unused (f.mod == 8)
  -- 12: floating point, narrow, special function, cross-lane (R275 to R301)
  | .fadd f | .fsub f | .fmul f => aluShape .gen .gen .gen .unused (f.modN ≤ 3)
  | .ffma f => aluShape .gen .gen .gen .gen (f.modN ≤ 3)
  | .fmin f | .fmax f => aluShape .gen .gen .gen .unused (modMask f 0)
  | .fcmp f => aluShape .pred .gen .gen .unused (f.modN ≤ 13)
  | .fcls f => aluShape .pred .gen .gen .unused (modMask f 0)
  | .frnd f => regShape .gen .gen .unused .unused (f.modN ≤ 3)
  | .hadd2 f | .hmul2 f => aluShape .gen .gen .gen .unused (f.mod3 ≤ 4 && !f.mbit 4)
  | .hfma2 f => aluShape .gen .gen .gen .gen (f.mod3 ≤ 4 && !f.mbit 4)
  | .hmin2 f | .hmax2 f => aluShape .gen .gen .gen .unused (modMask f 8)
  | .bfma2 f => aluShape .pair .gen .gen .pair (f.modN ≤ 3)
  | .dadd f | .dmul f => { d := .pair, a := .pair, b := .pair, mods := f.modN ≤ 3, imm := .wideB }
  | .dfma f => { d := .pair, a := .pair, b := .pair, c := .pair, mods := f.modN ≤ 3, imm := .wideB }
  | .dcmp f => { d := .pred, a := .pair, b := .pair, mods := f.modN ≤ 13, imm := .wideB }
  | .cvt f => regShape (.wideIf (codeIsPair (f.c.toNat % 32))) (.wideIf (codeIsPair (f.b.toNat % 32))) .code .code
      (f.mod3 ≤ 4 && !f.mbit 4)
  | .pack f =>
    let t := f.c.toNat % 128
    let (a, b) : Cls × Cls :=
      if t = 2 ∨ t = 3 then (.gen, .gen) else if t = 6 ∨ t = 7 then (.pair, .span 3) else (.pair, .pair)
    regShape .gen a b .code (f.mod3 ≤ 4 && !f.mbit 4)
  | .unpk f => regShape (.span (codeElems f.b.toNat)) .gen .code .unused (modMask f 0)
  | .ndot f => regShape .gen .gen .gen .gen (f.modN ≤ 11)
  | .cbld f => regShape .book .gen .unused .unused (modMask f 0)
  | .cbenc f => regShape .gen .gen .unused .book (modMask f 0)
  | .cbdec f => regShape .gen .gen .unused .book (modMask f 7)
  | .rcp f | .rsq f | .sqrt f | .ex2 f | .lg2 f | .exp f | .sinpi f | .cospi f | .tanh f =>
    plainShape .gen .gen .unused .unused (modMask f 0)
  | .shfl f => { d := .gen, a := .gen, b := .gen, mods := modMask f 7 && !(f.mbit 2 && f.mod2 == 0), imm := .srcB, kinds := 6 }
  | .vote f => plainShape (if f.mod2 = 3 then .pair else .pred) .pred .unused .unused (modMask f 7)
  | .redl f => regShape .gen .gen .unused .unused (f.modN ≤ 10)
  | .scanl f => { d := .gen, a := .gen, mods := f.mod4 ≤ 10, kinds := 2 }
  | .matchL f => { d := .pair, a := .wideIf (f.mbit 0), mods := modMask f 1, kinds := if f.mbit 0 then 0 else 2 }
  -- 11: control and system (R257 to R274)
  | .bra f => { mods := modMask f 0, imm := .own }
  | .call f => { d := .pair, mods := modMask f 0, imm := .own }
  | .brx f | .ret f => plainShape .unused .pair .unused .unused (modMask f 0)
  | .exit f | .wsync f | .join f | .nop f | .bkpt f | .eret f => { mods := modMask f 0 }
  | .yield f => { mods := modMask f 15 }
  | .sleep f => { a := if f.isImm then .unused else .gen, mods := modMask f 1, imm := .own }
  | .sleept f => plainShape .unused .gen .unused .unused (modMask f 1)
  | .waitc f => { mods := modMask f 0 && f.immWord.toNat < 2 ^ 30, imm := .own }
  | .trap f => { mods := modMask f 0, imm := .own }
  | .movs f => plainShape (if f.modN = 4 then .pair else .gen) .special .unused .unused (specialPartOk f.a.toNat f.modN)
  | .movsw f => plainShape .special .gen .unused .unused (modMask f 0)
  | .perf f => { d := .gen, b := .gen, mods := modMask f 1 && !(f.isImm && 16 ≤ f.immWord.toNat), imm := .srcB }
  | .tlbinv f => plainShape .unused .pair .gen .unused (modMask f 0)
  | .harvest f => plainShape .gen .pair .gen .unused (modMask f 0)
  | .replay f => { mods := f.mod == 0 }
  | .replayCancel f => { mods := f.mod == 1 }
  | .replayPage f => plainShape .unused .pair .unused .unused (f.mod == 2)
  -- 13: memory (R303 to R321)
  | .ld f => { d := .ofWidth f.modHi, a := .pair, mods := f.modHi ≤ 6 && !(f.mod2 == 3 && 3 ≤ f.modHi), imm := .disp,
               hint := true, scopes := accessScopes (f.mod2 == 1), escort := f.mod2 != 1, seg := segSpace f.mod2 }
  | .st f => { d := .code, a := .pair, b := .ofWidth f.modHi,
               mods := f.mod2 != 2 && (f.modHi ≤ 3 || f.modHi == 5) && !(f.mod2 == 3 && 3 ≤ f.modHi), imm := .disp,
               kinds := if f.modHi = 0 then 4 else 0, hint := true,
               scopes := if f.d == 1 then (if f.mod2 == 0 then 0x30 else 0) else accessScopes (f.mod2 == 1),
               seg := segSpace f.mod2 }
  | .ldi f => { d := .wideIf (f.mbit 2), a := .pair, c := .pair, mods := segSpace f.mod2 && !f.mbit 4, imm := .disp,
                hint := true, escort := true, seg := true }
  | .ldfe f => { d := .gen, a := .pair, mods := f.mod == 1, imm := .disp, hint := true, escort := true }
  | .stfe f => { a := .pair, b := .gen, mods := f.mod == 1, imm := .disp, hint := true }
  | .atom f => { d := .wideIf (f.mbit 2), a := .pair, b := .wideIf (f.mbit 2), c := .code, mods := !f.mbit 4, imm := .disp,
                 kinds := if f.mbit 2 then 0 else 4, hint := true, scopes := atomScopes f, escort := !f.mbit 3, seg := !f.mbit 3 }
  | .red f => { a := .pair, b := .wideIf (f.mbit 2), c := .code, mods := !f.mbit 4 && (f.mod2 == 0 || f.mod2 == 2), imm := .disp,
                kinds := if f.mbit 2 then 0 else 4, hint := true, scopes := atomScopes f, seg := !f.mbit 3 }
  | .cas f => { d := .wideIf (f.mbit 2), a := .pair, b := .wideIf (f.mbit 2), c := .wideIf (f.mbit 2), mods := !f.mbit 4, imm := .disp,
                kinds := if f.mbit 2 then 0 else 12, hint := true, scopes := atomScopes f, escort := !f.mbit 3, seg := !f.mbit 3 }
  | .fence f => { mods := f.mod == 0, hint := true, scopes := 0x7E }
  | .fenceAck f => { mods := f.mod == 1, hint := true, scopes := 0x30 }
  | .fenceOpr f => { mods := f.mod == 2, hint := true }
  | .cctlDem f => { a := .pair, mods := modMask f 4, imm := .disp, hint := true, seg := true }
  | .cctlInv1 f => { a := .pair, mods := f.mod2 == 1 && modMask f 5, imm := .disp, hint := true, seg := true }
  | .cctlInvall f => { mods := f.mod2 == 2 && modMask f 6, hint := true, seg := true }
  | .pref f => { a := .pair, mods := segSpace f.mod2 && modMask f 6, imm := .disp, hint := true, seg := true }
  -- 14: copies and synchronisation (R322 to R340)
  | .cpy f => copyShape f (f.c.toNat / 32 != 2 && f.c.toNat < 128) (f.c.toNat / 32 % 4)
  | .cpym f => copyShape f (f.c.toNat < 16) 1
  | .cpyw f => copyShape f true 1
  | .waitp f => plainShape .unused .gen .bar .unused (modMask f 1)
  | .land f => plainShape .code .gen .gen .bar (modMask f 0)
  | .unland f => plainShape .code .unused .unused .unused (modMask f 0)
  | .barArr f => barShape f 0 .unused .unused
  | .barSync f => barShape f 1 .unused .unused
  | .barWait f => barShape f 2 .unused .unused
  | .barExp f => barShape f 3 .unused .gen
  | .barInit f => barShape f 4 .unused .gen
  | .barRd f => barShape f 5 .pair .unused
  | .barRdClr f => barShape f 6 .pair .unused
  | .bargArr f => bargShape f 0
  | .bargSync f => bargShape f 1
  | .bargWait f => bargShape f 2
  | .rgive f | .rtake f => plainShape .gen .ring .unused .unused (modMask f 0)
  | .rfree f => plainShape .unused .ring .unused .unused (modMask f 0)
  | .qpoll f => plainShape .pred .queue .unused .unused (f.mod == 0)
  | .qpollSend f => plainShape .queue .gen .gen .unused (f.mod2 == 1 && f.modHi != 7)
  | .qpollRecv f => plainShape .gen .queue .unused .unused (f.mod == 2)
  | .coll f => { d := .gen, a := .pair, b := .pair, c := .gen, mods := f.mod2 != 3 && (f.mod2 == 0 || !f.mbit 4), imm := .disp,
                 scopes := 0x20, seg := true }
  | .collw f => { d := .gen, a := .gen, mods := modMask f 0, scopes := 0x20 }
  -- 15: matrix (R351)
  | .mxi f | .mxs f | .mxv f => plainShape .unused .gen .unused .unused (f.modN ≤ 9)
  | .mxn f => plainShape .tile .tile .unused .unused (modMask f 0)
  | .mxsa f => plainShape .tile .tile .gen .gen (modMask f 1)
  | .mxz f => plainShape .tile .unused .unused .unused (f.modN ≤ 2)
  | .mxrd f => plainShape .gen .tile .gen .unused (modMask f 3)
  | .mxwr f => plainShape .tile .gen .gen .unused (modMask f 3)
  | .mxmvSt f => plainShape .unused .tile .gen .unused (f.mod3 == 0 && f.modN / 8 != 3)
  | .mxmvLd f => plainShape .tile .unused .gen .unused (f.mod3 == 1 && f.modN / 8 != 3)
  | .mxmvTt f => plainShape .tile .tile .unused .unused (f.mod2 == 2 && modMask f 6)
  | .wbinv f => plainShape .wslot .unused .unused .unused (modMask f 0)
  -- 16: solve (R365 to R372)
  | .solve f => { d := .tile, a := .gen, b := .gen, c := .tile, mods := f.mod3 ≤ 4, imm := .own }
  | .svend f | .svabort f => { mods := modMask f 0 }
  | .svrd f => plainShape .gen .hslot .gen .unused (f.mod == 0)
  | .svrdZp f => plainShape .gen .unused .gen .unused (f.mod == 1)
  | .svrdRp f => plainShape .gen .unused .gen .unused (f.mod == 2)
  | .svhsClr f => { mods := f.mod == 0 }
  | .svhsWr f => plainShape .hslot .gen .gen .unused (f.mod == 1)
  | _ => {}

/-- The checks that a class of R232 makes on a field by itself; `kind` is the field's kind bit (R234, R248). -/
def Cls.fieldOk (c : Cls) (kind : Bool) (v : BitVec 8) : Bool :=
  if kind then v.toNat ≤ 63
  else match c with
    | .unused => v == 0
    | .gen => true
    | .pair => v.toNat % 2 == 0
    | .quad => v.toNat % 4 == 0 && v.toNat + 3 ≤ 254
    | .span n => v.toNat + n ≤ 255 && 0 < n && (n != 3 || v.toNat % 2 == 0)
    | .pred => v.toNat ≤ 7
    | .bar => v.toNat ≤ 15
    | .ring => v.toNat ≤ 3
    | .tile => v.toNat ≤ 15
    | .wslot => v.toNat ≤ 7
    | .hslot => v.toNat ≤ 7
    | .book => v.toNat ≤ 3
    | .queue => v.toNat ≤ 3
    | .special => v.toNat ≤ 31
    | .code => true

/-- The registers that a field of a class covers (R62, R66, R308); `gz` covers none of its own. -/
def Cls.regs (c : Cls) (kind : Bool) (v : BitVec 8) : List Nat :=
  if kind then []
  else match c with
    | .gen => [v.toNat]
    | .pair => [v.toNat, v.toNat + 1]
    | .quad => [v.toNat, v.toNat + 1, v.toNat + 2, v.toNat + 3]
    | .span n => (List.range n).map (v.toNat + ·)
    | _ => []

/-- The fields of an instruction; none for an event. -/
def Instr.fields? : Instr → Option Fields
  | .add f | .sub f | .mul f | .mulhi f | .mad f | .madw f | .div f | .rem f | .min f | .max f | .abs f | .neg f | .and f
  | .or f | .xor f | .andn f | .not f | .popc f | .clz f | .brev f | .shl f | .shr f | .sar f | .rot f | .fsh f | .bfx f
  | .bfi f | .bsel f | .lea f | .sel f | .icmp f | .mov f | .movi f | .add64 f | .sub64 f | .shl64 f | .shr64 f | .pand f
  | .por f | .pxor f | .pnot f | .pmov f | .pmovPack f | .pmovUnpack f | .fadd f | .fsub f | .fmul f | .ffma f | .fmin f
  | .fmax f | .fcmp f | .fcls f | .frnd f | .hadd2 f | .hmul2 f | .hfma2 f | .hmin2 f | .hmax2 f | .bfma2 f | .dadd f
  | .dmul f | .dfma f | .dcmp f | .cvt f | .pack f | .unpk f | .ndot f | .cbld f | .cbenc f | .cbdec f | .rcp f | .rsq f
  | .sqrt f | .ex2 f | .lg2 f | .exp f | .sinpi f | .cospi f | .tanh f | .shfl f | .vote f | .redl f | .scanl f | .matchL f
  | .bra f | .brx f | .call f | .ret f | .exit f | .yield f | .sleep f | .sleept f | .waitc f | .wsync f | .join f | .nop f
  | .trap f | .bkpt f | .eret f | .movs f | .movsw f | .perf f | .tlbinv f | .harvest f | .replay f | .replayCancel f
  | .replayPage f | .ld f | .st f | .ldi f | .ldfe f | .stfe f | .atom f | .red f | .cas f | .fence f | .fenceAck f
  | .fenceOpr f | .cctlDem f | .cctlInv1 f | .cctlInvall f | .pref f | .cpy f | .cpym f | .cpyw f | .waitp f | .land f
  | .unland f | .barArr f | .barSync f | .barWait f | .barExp f | .barInit f | .barRd f | .barRdClr f | .bargArr f
  | .bargSync f | .bargWait f | .rgive f | .rtake f | .rfree f | .qpoll f | .qpollSend f | .qpollRecv f | .coll f | .collw f
  | .mxi f | .mxs f | .mxv f | .mxn f | .mxsa f | .mxz f | .mxrd f | .mxwr f | .mxmvSt f | .mxmvLd f | .mxmvTt f | .wbinv f
  | .solve f | .svend f | .svrd f | .svrdZp f | .svrdRp f | .svhsClr f | .svhsWr f | .svabort f => some f
  | _ => none

/-- The registers of an instruction's operand fields, by class. -/
def operandRegs (sh : Shape) (f : Fields) : List Nat :=
  let k := f.kinds
  let b := if f.isImm && sh.imm == .srcB || f.isWide && sh.imm == .wideB then [] else sh.b.regs (k.getLsbD 2) f.b
  sh.d.regs (k.getLsbD 0) f.d ++ sh.a.regs (k.getLsbD 1) f.a ++ b ++ sh.c.regs (k.getLsbD 3) f.c

/-- Every register an instruction names, its escort among them (R62, R90), `gz` left out; field E of a `pod` `barg`
names one too (R331). -/
def Instr.regs (i : Instr) : List Nat :=
  match i.fields? with
  | none => []
  | some f =>
    let e := match i with
      | .bargArr _ | .bargSync _ | .bargWait _ => if f.scope == 5 then [f.e.toNat] else []
      | _ => []
    (operandRegs i.shape f ++ e ++ (List.range f.escCount).map (f.escBase + ·)).filter (· < 255)

/-- The checks of an instruction's own rule on its code fields. -/
def Instr.extraOk : Instr → Bool
  | .cvt f =>
    let s := f.b.toNat % 32
    let t := f.c.toNat
    codeElems s != 0 && codeElems t != 0 && t < 32 &&
      (if codePacked s then f.b.toNat / 32 < codeElems s else f.b.toNat < 32) && !(t == 8 && f.mod3 == 4)
  | .pack f => (2 ≤ f.c.toNat && f.c.toNat ≤ 7) || f.c.toNat == 9 || f.c.toNat == 0x89
  | .unpk f => (2 ≤ f.b.toNat && f.b.toNat ≤ 9) || f.b.toNat == 16 || f.b.toNat == 17 || f.b.toNat == 20 || f.b.toNat == 21
  | .movs f => specialOk f.a.toNat false
  | .movsw f => specialOk f.d.toNat true
  | .st f => f.d.toNat ≤ 1
  | .atom f => atomCodeOk f.c.toNat (f.mbit 2) false
  | .red f => atomCodeOk f.c.toNat (f.mbit 2) true
  | .cpy f => f.mbit 4 || f.c.getLsbD 4 || f.c.toNat % 16 == 0
  | .cpyw f => f.mbit 4 || f.c.getLsbD 4 || f.c.toNat % 16 == 0
  | .land f | .unland f => f.d.toNat ≤ 7
  | .bargArr f | .bargSync f | .bargWait f => f.scope == 5 || f.e == 0
  | .solve f =>
    let n := if f.mbit 3 then 2 else 1
    f.unguarded && f.d.toNat + n ≤ 16 && f.c.toNat + n ≤ 16 &&
      (f.d.toNat + n ≤ f.c.toNat || f.c.toNat + n ≤ f.d.toNat)
  | .svend f => f.unguarded
  | _ => true

/-- The escort fields (R91): none where the instruction carries none, a zero count has a zero base, the range ends at 254
or below and holds no destination register. -/
def escortOk (sh : Shape) (f : Fields) : Bool :=
  if f.escCount = 0 then f.escBase == 0
  else sh.escort && f.escBase + f.escCount ≤ 255 &&
    (sh.d.regs false f.d).all fun r => !(f.escBase ≤ r && r < f.escBase + f.escCount)

/-- The extension words hold only what the instruction uses (R230, R233, R234, R247). -/
def extOk (i : Instr) (sh : Shape) (f : Fields) : Bool :=
  match f.ext with
  | .none => true
  | .imm v => sh.imm == .srcB || sh.imm == .own || v == 0
  | .k e ks _ o =>
    let barg := match i with
      | .bargArr _ | .bargSync _ | .bargWait _ => true
      | _ => false
    (barg || e == 0) && !ks.getLsbD 3 && (sh.imm == .disp || o == 0)
  | .wide v _ _ _ _ g => (sh.imm == .disp || sh.imm == .wideB || v == 0) && (sh.seg || g == 0)

/-- The cache hint: reserved codes are never legal, and only memory, atomic, prefetch and copy instructions have one (R230). -/
def hintOk (sh : Shape) (f : Fields) : Bool := if sh.hint then f.ch.toNat ≤ 4 else f.ch == 0

/-- The encoding checks of R236 step 6 that the encoding alone decides. -/
def Instr.shapeOk (i : Instr) : Bool :=
  match i.fields? with
  | none => false
  | some f =>
    let sh := i.shape
    let k := f.kinds
    let immB := f.isImm && sh.imm == .srcB || f.isWide && sh.imm == .wideB
    sh.mods && sh.scopes.getLsbD f.scope.toNat && hintOk sh f && k &&& ~~~sh.kinds == 0 && extOk i sh f && escortOk sh f
      && sh.d.fieldOk (k.getLsbD 0) f.d && sh.a.fieldOk (k.getLsbD 1) f.a
      && (if immB then f.b == 0 else sh.b.fieldOk (k.getLsbD 2) f.b) && sh.c.fieldOk (k.getLsbD 3) f.c && i.extraOk

/-- The declared objects that an instruction names: barriers, rings, tiles, weight slots, history slots. -/
structure Named where
  bars : List Nat := []
  rings : List Nat := []
  tiles : List Nat := []
  wbs : List Nat := []
  hists : List Nat := []

/-- The objects named by an operand of a class. -/
def Cls.names (c : Cls) (v : BitVec 8) (n : Named) : Named :=
  match c with
  | .bar => { n with bars := v.toNat :: n.bars }
  | .ring => { n with rings := v.toNat :: n.rings }
  | .tile => { n with tiles := v.toNat :: n.tiles }
  | .wslot => { n with wbs := v.toNat :: n.wbs }
  | .hslot => { n with hists := v.toNat :: n.hists }
  | _ => n

/-- The objects that an instruction names and that must be declared (R76, R127, R138, R232, R323, R366). A `land`'s barrier is not among
them: R135 gives an undeclared one a PROT (log 34). -/
def Instr.named (i : Instr) (f : Fields) : Named :=
  let sh := i.shape
  match i with
  | .cpy _ => { bars := if f.mbit 4 || f.c.getLsbD 4 then [f.c.toNat % 16] else [] }
  | .cpym _ => { bars := [f.c.toNat % 16] }
  | .land _ => {}
  | .cpyw _ =>
    { bars := if f.mbit 4 || f.c.getLsbD 4 then [f.c.toNat % 16] else [], wbs := [f.c.toNat / 32] }
  | .solve _ =>
    let two := if f.mbit 3 then 1 else 0
    { tiles := [f.d.toNat + two, f.c.toNat + two],
      hists := if f.mod3 = 0 then [] else [2 * f.mod3 - 1] }
  | _ => sh.d.names f.d (sh.a.names f.a (sh.b.names f.b (sh.c.names f.c {})))

/-- The roles that may issue an instruction (R188): copy, matrix, vector. -/
def Instr.roleOk (i : Instr) (role : Nat) : Bool :=
  match i with
  | .cpy _ | .cpym _ | .cpyw _ => role == 0
  | .fadd _ | .fsub _ | .fmul _ | .ffma _ | .fmin _ | .fmax _ | .fcmp _ | .fcls _ | .frnd _ | .hadd2 _ | .hmul2 _
  | .hfma2 _ | .hmin2 _ | .hmax2 _ | .bfma2 _ | .dadd _ | .dmul _ | .dfma _ | .dcmp _ | .cvt _ | .pack _ | .unpk _
  | .ndot _ | .cbld _ | .cbenc _ | .cbdec _ | .rcp _ | .rsq _ | .sqrt _ | .ex2 _ | .lg2 _ | .exp _ | .sinpi _
  | .cospi _ | .tanh _ => role == 2
  | .mxi _ | .mxs _ | .mxv _ | .mxn _ | .mxsa _ | .mxz _ | .mxmvSt _ | .mxmvLd _ | .mxmvTt _ | .wbinv _
  | .svrd _ | .svrdZp _ | .svrdRp _ | .svhsClr _ | .svhsWr _ => role == 1
  | .mxrd _ | .mxwr _ => role == 1 || role == 2
  | _ => true

/-- Instructions of a privileged context only (R266). -/
def Instr.privileged (i : Instr) : Bool :=
  match i with
  | .tlbinv _ | .harvest _ | .replay _ | .replayCancel _ | .replayPage _ => true
  | _ => false

/-- The fields of an instruction; those of an event are never used. -/
def Instr.fields (i : Instr) : Fields :=
  i.fields?.getD ⟨⟨7, false⟩, ⟨7, false⟩, 0, 0, 0, 0, 0, false, 0, 0, .none⟩

end Sys2Proof
end

