-- ==== Sys2Proof/Machine/State.lean ====
section
/-! DEFINITION. The state of one Caselo N9 package (and the memory of its pod), as plain data; the faults and refusals
of a step; the state after reset. -/

namespace Sys2Proof.Machine

/-- What a part-way instruction of a thread waits for (R183, R386). Times and counts are absolute, so that waiting
changes nothing in the record. -/
inductive WaitFor where
  /-- R128: the thread has executed an instruction that acts once per warp; `act`: its guards were true -/
  | gather (i : Instr) (act : Bool)
  /-- R260: CYC reaches a time; `wake`: or a message arrives -/
  | sleep (until_ : Nat) (wake : Bool)
  /-- R152, R154, R163, R151: every request of the thread with a smaller number is done -/
  | tags (bound : Nat) (kind : Nat)
  /-- R190, R122, R342, R112: the instruction waits at issue and is then issued -/
  | atIssue (i : Instr)
  /-- R261: the class counters are within the limits -/
  | counters (limits : Word)
  /-- R329: the phase count of a barrier exceeds `n` -/
  | phase (b n : Nat)
  /-- R332: the phase count of a network barrier exceeds `n` -/
  | netPhase (key n : Nat)
  /-- R139: the cursor's stage is free (`give`) or full; D receives the stage -/
  | ring (give : Bool) (ring d : Nat) (act : Bool)
  /-- R125: the promises of the active lanes are reached at a time -/
  | promise (b n until_ : Nat)
  /-- R336: a queue holds a message; the group's threads read it together -/
  | message (q d : Nat) (group : BitVec 64)
  /-- R340: an occurrence of a collective has completed -/
  | collective (handle : Word) (d : Nat)
  /-- R368: the solve region's evaluation -/
  | svend
  /-- R367: the solve region opens; the thread's `solve` -/
  | solve (i : Instr)
  /-- R55: the translation command of a partition with this number has completed -/
  | command (part num : Nat)
  /-- R273: the earlier writes of a partition are performed -/
  | writes (part bound : Nat)
  /-- R50: an instruction fetch is parked -/
  | fetch
  /-- R75: an `ldfe` or `stfe` lane in the waiter table or the overflow queue -/
  | word
  /-- R151: an acquire's reply -/
  | reply (group : Nat)
  /-- R126: the default action of PROMISE_MISS waits for the phase -/
  | miss (b n : Nat)
deriving DecidableEq, Repr

/-- A thread part-way through an instruction of `len` bytes. -/
structure Wait where
  what : WaitFor
  len : Nat
deriving DecidableEq, Repr

/-- A thread (R183, R195, R216, R389). -/
structure Lane where
  pc : DWord := 0
  exited : Bool := true
  wait : Option Wait := none
  /-- held out of the vote by `join` (R185) -/
  held : Bool := false
  ydist : Nat := 0
  age : Nat := 0
  seed : Word := 0
  preds : BitVec 7 := 0
  frozenPc : DWord := 0
  frozenWait : Option Wait := none
deriving DecidableEq, Repr

/-- A trap to be taken (R391, R392); `cancel`: the number of the cancel that raised it (R57), or 0; `lost`: the DATA_ERR of lost stores
of its threads (R406). -/
structure Trap where
  cause : Nat
  detail : Nat := 0
  pc : DWord := 0
  va : BitVec 80 := 0
  mask : BitVec 64 := 0
  cancel : Nat := 0
  lost : Bool := false
deriving DecidableEq, Repr

/-- A warp's cursor of one ring (R138). -/
structure Cursor where
  cur : Nat := 0
  lap : Bool := false
deriving DecidableEq, Repr

/-- A warp (R62, R65, R190, R209, R219, R271, R386, R391). -/
structure Warp where
  lanes : SMap Lane := []
  regs : SMap (SMap Word) := []
  hrows : SMap (SMap Word) := []
  uni : SMap Word := []
  segs : SMap Word := []
  fstat : Word := 0
  ldc : Nat := 0
  stc : Nat := 0
  cpc : Nat := 0
  tlc : Nat := 0
  sfc : Nat := 0
  books : SMap (BitVec 16) := []
  trapc : Word := 0
  trappc : DWord := 0
  trapva : BitVec 80 := 0
  fltmask : BitVec 64 := 0
  handler : Bool := false
  perf : SMap DWord := []
  dl : Option Nat := none
  cursors : SMap Cursor := []
  slot : Nat := 0
  part : Nat := 0
  active : Bool := false
  activeSince : Nat := 0
  lastIssue : Nat := 0
  stalledSince : Option Nat := none
  readySince : Option Nat := none
  /-- issued with SWAP = 1 and not since -/
  swapped : Bool := false
  parked : Bool := false
  /-- since when it has not been parked (R387) -/
  unparked : Nat := 0
  /-- stopped at a pre-emption point for a save (R197, R396) -/
  stopped : Bool := false
  second : BitVec 64 := 0
  pendTraps : List Trap := []
  /-- operations that read an uncorrectable error (R345): TRAPVA, and operations issued since -/
  tileErrs : List (Nat × Nat) := []
  /-- stores that failed paths have lost and that no thread has been told of yet: lane and VA (R406) -/
  lost : List (Nat × Nat) := []
deriving DecidableEq, Repr

/-- The state of a workgroup (R27, R193, R396). -/
inductive WgStatus where
  | waiting | resident | ending | saved | discarded | exited
deriving DecidableEq, Repr

/-- A core barrier (R127, R129): `phases` counts completions, so PH is its parity. -/
structure Barrier where
  memb : Nat := 0
  pend : Nat := 0
  phases : Nat := 0
  cu : Bool := false
  refused : Bool := false
  qarr : Nat := 0
  qcu : Bool := false
  bytes : Word := 0
  arrived : BitVec 64 := 0
  queued : BitVec 64 := 0
  /-- copy-unit arrivals waiting in the copy unit -/
  cuWait : Nat := 0
  /-- a copy-unit arrival was applied in this phase -/
  cuHere : Bool := false
deriving DecidableEq, Repr

/-- A ring stage (R138). -/
structure Stage where
  full : Bool := false
  ph : Bool := false
  gleft : Nat := 0
  fleft : Nat := 0
deriving DecidableEq, Repr

/-- A landing entry (R135). -/
structure Landing where
  base : Nat := 0
  bar : Nat := 0
  valid : Bool := false
  size : Nat := 0
deriving DecidableEq, Repr

/-- A queue message (R111): lane mask and words; the scope of a releasing send, or 0, and its sender's core. -/
structure Message where
  mask : BitVec 64
  words : SMap Word
  scope : Nat := 0
  core : Nat := 0
deriving DecidableEq, Repr

/-- The parameters of a solve region (R365, R367). -/
structure Region where
  m : Nat := 0
  two : Bool := false
  l2 : Bool := false
  beta : BitVec 16 := 0
  lambda : BitVec 16 := 0
  carried : Nat := 0
  image : Nat := 0
  tolReg : Nat := 0
  ceilReg : Nat := 0
  body : DWord := 0
deriving DecidableEq, Repr

/-- What the operands of an operation held at its issue (R163, R164): scratch, weight-buffer slots, and the registers of the warps that
supply A, of which those abroad then (warp, register, lane) count as they are when they have come home. -/
structure Operands where
  scratch : SMap Byte := []
  wb : SMap (SMap Byte) := []
  regs : SMap (SMap (SMap Word)) := []
  away : List (Nat × Nat × Nat) := []
deriving DecidableEq, Repr

/-- The state of a matrix operation (R342, R350). -/
structure MatOp where
  id : Nat
  insn : Instr
  /-- the elected thread's warp, the warps that count the operation, and those still to contribute -/
  warp : Nat
  counted : List Nat
  missing : List Nat := []
  pc : DWord
  /-- register values of the elected thread: A, B, C, and the parameter block -/
  va : Word
  vb : Word
  vc : Word
  block : List Word := []
  /-- elements written by threads while the operation is outstanding, that end with the written value (R164) -/
  overlay : List (Nat × Nat × Word) := []
  /-- its operands at issue, and the first of the free values that choose between them and what they have become since (R164) -/
  was : Operands := {}
  free : Nat := 0
  /-- what its operands have been meanwhile, at moments that the model's inputs choose, oldest first (R164, log 17) -/
  since : List Operands := []
deriving DecidableEq, Repr

/-- A workgroup's part in a collective occurrence (R337, R338, R340), and which workgroup's; of a member in another package `given` holds
the elements that it contributes. -/
structure CollPart where
  kind : Nat
  type : Nat
  max : Bool
  n : Nat
  src : Nat
  dst : Nat
  given : Option (List Nat) := none
  wg : Option Nat := none
deriving DecidableEq, Repr

/-- A performed write that not every thread sees, or whose thread has earlier accesses still to perform, or which comes after writes
that not every thread sees: place, first byte and size; the thread, by workgroup, warp and lane; its own number as such a write, or 0;
the bound of its thread's earlier accesses, and the numbers of those writes, its own among them; the threads that have read it or a
later write of its bytes, whose releases wait for all these; and the threads whose further accesses come after it, for they have read
it before a release point, or passed an acquire point that it had come to (R149, edges 1 to 4; log 85). -/
structure Chain where
  place : Option Nat
  at_ : Nat
  size : Nat
  owner : Nat × Nat
  lane : Nat
  own : Nat := 0
  bound : Nat
  lates : List Nat
  readers : List (Nat × Nat × Nat) := []
  firm : List (Nat × Nat × Nat) := []
deriving DecidableEq, Repr

/-- A copy instruction accepted by the copy unit (R118 to R130). -/
structure Copy where
  id : Nat
  wg : Nat
  warp : Nat
  core : Nat
  insn : Instr
  pc : DWord
  arr : Bool
  cnt : Bool
  bar : Nat
  left : Nat
  /-- the copy-unit arrival is still owed -/
  owed : Bool
  entry : Nat := 0
  /-- the noted writes after which its threads' accesses came when it was accepted: its own follow them on its core (R121) -/
  after : List Chain := []
  /-- what its lanes have written: multicast member (or 0), destination and lane, for the higher lane's value stays (R120) -/
  wrote : List (Nat × Nat × Nat) := []
deriving DecidableEq, Repr

/-- One lane of a transfer operation: source and destination addresses. -/
structure Move where
  lane : Nat
  src : Nat
  dst : Nat
deriving DecidableEq, Repr

/-- Where a transfer operation stands. -/
inductive XferPhase where
  | ready | miss | parked | waiting
deriving DecidableEq, Repr

/-- A transfer operation (R120), or one multicast delivery to a member. -/
structure Xfer where
  id : Nat
  copy : Nat
  moves : List Move
  size : Nat
  srcSpace : Nat
  dstSpace : Nat
  srcSeg : Nat
  phase : XferPhase
  order : Nat := 0
  page : Nat := 0
  level : Nat := 0
  /-- multicast: the members still to receive, and the data once read -/
  members : List Nat := []
  data : List (List Byte) := []
  isRead : Bool := false
  /-- a `wbinv` has cleared its slot since it was accepted (R359) -/
  zeroed : Bool := false
deriving DecidableEq, Repr

/-- Where a request stands (R50, R74, R105, R115). -/
inductive Phase where
  | translate | miss | parked | home | held | performed | waiter | overflow | window
  /-- a scratch access spread over several slots (R69, R71) -/
  | scratch
deriving DecidableEq, Repr

/-- Where a hamper is held (R96). -/
inductive HamperAt where
  | packet | rest (die bank : Nat) | base | table
deriving DecidableEq, Repr

/-- One lane of a request: its address, operands, reply and escort values; `bad`: it read an uncorrectable error; `did`: the
single-copy-atomic pieces of its access that have been performed (R141). -/
structure Slot where
  lane : Nat
  addr : Nat
  x : Nat := 0
  y : Nat := 0
  addr2 : Nat := 0
  reply : Nat := 0
  bad : Bool := false
  did : List Nat := []
  esc : List Word := []
deriving DecidableEq, Repr

/-- A line request in flight (R95, R106): its number, its instruction's group, issuer, instruction, segment, lanes,
where it stands, and the physical address of its line. -/
structure Req where
  id : Nat
  group : Nat
  wg : Nat
  warp : Nat
  core : Nat
  insn : Instr
  pc : DWord
  space : Nat
  seg : Nat := 0
  slots : List Slot
  phase : Phase
  pa : Nat := 0
  cpol : Nat := 0
  /-- the leaf entry used, for the checks at a remote home (R20), and the level of the TLB entry that gave it (R60) -/
  leaf : Nat := 0
  via : Nat := 4
  /-- where its hampers are: one for the request, one for each lane of an `ldi`'s first hop (R95) -/
  hampers : List HamperAt := []
  escBase : Nat := 0
  escCount : Nat := 0
  noEsc : Bool := false
  /-- place in the parking order (R51) -/
  order : Nat := 0
  /-- parked page and level (R52) -/
  page : Nat := 0
  level : Nat := 0
  /-- an ordered flag: the SENT values at its issue (R115), and the later-issued stores that were injected before it (R158) -/
  sentAt : List Word := []
  behind : List Nat := []
  path : Nat := 0
  hop2 : Bool := false
  fetch : Bool := false
  /-- the failed paths end a request as DATA_ERR (R406) -/
  lost : Bool := false
  /-- issued in handler mode: its registers 248 to 254 are the handler rows (R390) -/
  handler : Bool := false
  /-- its path was chosen at issue (R114, R304) -/
  routed : Bool := false
  /-- it has arrived, and passed the checks made there, with its instruction's other requests (R20, R27, R304) -/
  arrived : Bool := false
  /-- it has passed the scope checker, with its instruction's other requests (R160, R304) -/
  checked : Bool := false
  /-- its core's L1 answers it (R82): it was not performed at its home -/
  fromL1 : Bool := false
deriving DecidableEq, Repr

/-- A step of the mixing engine that has read its operands and still writes (R166, R373): the tiles and history slots that it writes,
what tiles and history held before, and where the threads go on (`none`: past their `svend`). -/
structure Mixing where
  tiles : List Nat := []
  slots : List Nat := []
  acc : SMap (SMap Word) := []
  hs : SMap (SMap Word) := []
  next : Option DWord := none
deriving DecidableEq, Repr

/-- A workgroup (R67, R76, R81, R127, R135, R138, R362). -/
structure Workgroup where
  launch : Nat := 0
  wgid : Nat := 0
  status : WgStatus := .waiting
  core : Nat := 0
  warps : SMap Warp := []
  scratch : SMap Byte := []
  fe : SMap Bool := []
  acc : SMap (SMap Word) := []
  mx : SMap (SMap Word) := []
  sm : SMap (SMap Word) := []
  wb : SMap (SMap Byte) := []
  hs : SMap (SMap Word) := []
  scratchBase : Nat := 0
  tileNos : List Nat := []
  wbNos : List Nat := []
  hsNos : List Nat := []
  bars : SMap Barrier := []
  stages : SMap Stage := []
  landing : SMap Landing := []
  queues : SMap (List Message) := []
  svstat : Word := 0
  sviter : Word := 0
  svnorm : Word := 0
  region : Region := {}
  svArrived : BitVec 64 := 0
  mixing : Option Mixing := none
  zp : SMap Word := []
  rp : SMap Word := []
  held : List MatOp := []
  /-- the number of the next `coll` on each group, and the last 64 occurrences that it takes part in, newest first (R337, R340) -/
  collNext : SMap Nat := []
  collLog : List Nat := []
  startedAt : Nat := 0
  /-- saved: the package physical address of its section (R398) -/
  image : Nat := 0
  /-- requests and transfers that the recall has recorded, in the order of their records (R104 to R107), and the copies of a
  saved workgroup -/
  recs : List (Req ⊕ Xfer) := []
  recCopies : List Copy := []
  /-- saved: its restore was refused, and it waits for a core that meets its restore capacity (R378, R402) -/
  refused : Bool := false
deriving DecidableEq, Repr

/-- The launch packet (R379). -/
structure Packet where
  entry : DWord := 0
  codeseg : Nat := 0
  flags : Nat := 0
  nx : Nat := 0
  ny : Nat := 0
  nz : Nat := 0
  warps : Nat := 0
  ncopy : Nat := 0
  nmat : Nat := 0
  nvec : Nat := 0
  home : Nat := 0
  travel : Nat := 0
  nbar : Nat := 0
  nring : Nat := 0
  cumask : Nat := 0
  nacc : Nat := 0
  nwb : Nat := 0
  nhist : Nat := 0
  qgroup : Nat := 0
  part : Nat := 0
  scratch : Nat := 0
  tag : Word := 0
  ringcfg : List Nat := []
  argptr : DWord := 0
  stride : DWord := 0
  start : Nat := 0
  energy : Nat := 0
  current : Nat := 0
deriving DecidableEq, Repr

/-- A launch (R181, R381, R384): its packet, queue and context, the next WGID to dispatch, the WGIDs returned by a
discard, the workgroups ended, and whether it is ending under R108. -/
structure Launch where
  packet : Packet := {}
  vq : Nat := 0
  ctx : Nat := 0
  nextWg : Nat := 0
  returned : List Nat := []
  ended : Nat := 0
  ending : Bool := false
  finished : Bool := false
  /-- the dies chosen for quad groups that still wait (R384) -/
  dies : SMap (Option Nat) := []
deriving DecidableEq, Repr

/-- A write that is performed and that not every thread of the package sees yet (R147, R162): in memory, or in a workgroup's scratch;
the bytes that lay there before, which a thread that does not see it reads; the warp whose threads see it, the units (scope and
core) that see it, and the barriers whose phase advance makes it visible on the barrier's core (R133). -/
structure Late where
  place : Option Nat
  was : List (Nat × Byte)
  owner : Nat × Nat
  seen : List (Nat × Nat)
  bars : List (Nat × Nat) := []
  /-- its number, and the core that made it -/
  id : Nat := 0
  core : Nat := 0
  /-- the access that made it: lane, its instruction's group and its request; none: an engine's (R154, R158) -/
  access : Option (Nat × Nat × Nat) := none
  /-- that access is a store or a reduction -/
  stored : Bool := false
  /-- a copy's write to registers, tiles, side registers or slots of a resident workgroup, `place`, which lie as before for the threads
  there: window address, size and value (R442) -/
  owed : Option (Nat × Nat × Nat) := none
deriving DecidableEq, Repr

/-- A row of storage that is retired after an uncorrectable error (R99, R306, R429): of a rest-stop bank, of a core's base camp, or
of a core's storage by the offset in its window. -/
inductive Row where
  | restStop (die bank : Nat) | baseCamp (core : Nat) | store (core off : Nat)
deriving DecidableEq, Repr

/-- A context (R161, R393): the physical address of its root block and its SCOPECHK. -/
structure Ctx where
  root : Nat := 0
  scopechk : Word := 0
deriving DecidableEq, Repr

/-- A cached translation of an L1 or quad TLB or of a walk cache (R48): the VA's part for the level and the entry as read. Level 5
is a CONTIG group held as one entry of 16 MiB (R37): the entry of the member that translates it. -/
structure TlbEntry where
  ctx : Nat
  part : Nat
  page : Nat
  level : Nat
  leaf : BitVec 128
  /-- the physical address of the entry, and whether D was set through it -/
  at_ : Nat
  dirty : Bool
deriving DecidableEq, Repr

/-- A core (R48, R82, R123, R362): L1 lines, most recent first; L1 TLB; the copy unit's last promise; the mixing
engine's owner; the partition it last ran; uncorrectable errors of its storage; the time of each partition's last exchange;
and, by offset in the core's window (R21), the scratch, tiles, side registers and slots that no workgroup holds. -/
structure Core where
  l1 : List Nat := []
  tlb : List TlbEntry := []
  lastPromise : Option Nat := none
  engine : Option Nat := none
  part : Option Nat := none
  disabled : Bool := false
  /-- it has failed in service and admits no workgroup (R429) -/
  failing : Bool := false
  /-- the uncorrectable 8-byte granules of its storage, by their offset in its window (R306, R345) -/
  storeBad : List Nat := []
  errorTimes : List Nat := []
  lastExch : SMap Nat := []
  loose : SMap Byte := []
  /-- by offset, the context whose workgroup left the byte, plus 1 (R426) -/
  looseOf : SMap Nat := []
deriving DecidableEq, Repr

/-- A pre-emption request in progress on a quad (R394 to R396). -/
structure Preempt where
  ctx : Nat
  deadline : Nat
  started : Nat
  choice : Nat
  forcedSave : Bool := false
deriving DecidableEq, Repr

/-- A path of the route table to another package (R405): its number, the egress port and the neighbour that it names, and the
virtual die of the home package where its requests arrive (R32; log 67). -/
structure Route where
  path : Nat
  port : Nat
  neighbour : Nat
  lands : Nat
deriving DecidableEq, Repr

/-- A quad (R48, R52, R385, R387, R388, R394, R395, R421): quad TLB, walk cache, overflow pages, contexts refused admission,
request in progress, completed workgroups of each launch with the sum of their run times, the band whose cap its budget uses,
and the energy measured in each of the last four control intervals, newest first. -/
structure Quad where
  tlb : List TlbEntry := []
  walks : List TlbEntry := []
  overflow : List (Nat × Nat) := []
  refusing : List Nat := []
  preempt : Option Preempt := none
  runs : SMap (Nat × Nat) := []
  capBand : Nat := 2
  energies : List Nat := []
deriving DecidableEq, Repr

/-- A special-function result outstanding (R296). -/
structure Sfu where
  id : Nat
  wg : Nat
  warp : Nat
  d : Nat
  values : SMap Word
  lanes : List Nat
  flags : Nat
  handler : Bool := false
deriving DecidableEq, Repr

/-- A queue message in flight (R112). -/
structure Flight where
  id : Nat
  wg : Nat
  warp : Nat
  target : Nat
  queue : Nat
  msg : Message
  /-- the releasing sender's request bound (R113) -/
  bound : Nat
deriving DecidableEq, Repr

/-- A network barrier (R331, R332). -/
structure NetBar where
  phases : Nat := 0
  arrived : List (Nat × Nat) := []
  queued : List (Nat × Nat) := []
deriving DecidableEq, Repr

/-- A collective group (R337): member launches and WGIDs of this package, and members of other packages by their
package, launch and WGID. -/
structure Group where
  members : List (Nat × Nat × Nat) := []
  /-- how often it has been created or changed: its instances count afresh from then (log 86) -/
  gen : Nat := 0
deriving DecidableEq, Repr

/-- A collective occurrence (R339): the members' parts by rank, and the statuses and flags by rank once complete. -/
structure Occ where
  parts : List (Nat × CollPart) := []
  done : List (Nat × Nat × Nat) := []
  /-- parked on a page that is not present, in the pool or in the miss queue (R50, R339): its number and place in the parking order,
  the page and level, and the core whose quad translates it -/
  parked : Option XferPhase := none
  id : Nat := 0
  order : Nat := 0
  page : Nat := 0
  level : Nat := 0
  core : Nat := 0
deriving DecidableEq, Repr

/-- One LLC line (R83 to R85, R159): address, state (0 normal, 1 evict-first, 2 protected), scope record (scope and the
pod-wide number of the core). Lines of a set stand oldest first. -/
structure Line where
  addr : Nat
  state : Nat := 0
  record : Option (Nat × Nat) := none
deriving DecidableEq, Repr

/-- The thermal state machine's memory (R411, R414, R415): entry time of the state, samples of each sensor (time,
temperature, newest first), since when conditions have held, times of excursions, calibration. -/
structure Thermal where
  entered : Nat := 0
  samples : SMap (List (Nat × Nat)) := []
  lowSince : Option Nat := none
  warmSince : Option Nat := none
  excursions : List Nat := []
  calibrated : Bool := false
  order : Nat := 0
  /-- the compute dies have stopped issuing, until every stack is at or below 325 K (R417) -/
  stopped : Bool := false
deriving DecidableEq, Repr

/-- The slack controller's memory (R410): consecutive intervals above 10 %, the interval of the last change, the
intervals counted, pace-setter announcements (interval, step), when the interval began, and for how many of its cycles a
`collw` waited only for other packages. -/
structure Slack where
  high : Nat := 0
  lastChange : Option Nat := none
  interval : Nat := 0
  paces : List (Nat × Nat) := []
  began : Nat := 0
  waited : Nat := 0
deriving DecidableEq, Repr

/-- A signal to an agent outside the datapath (R53, R378, R402, R428, R430). -/
inductive Signal where
  | msix (vec : Nat) | faultIrq | eventIrq | restoreRefused | queueUnbound (vq : Nat) | launchEnded (ctx : Nat)
  | replyToHost (value : Nat) | replyToCluster (value : Nat) | replyToScaleOut (value : Nat) | trip
  /-- an AtomicOp of the host is completed as Unsupported Request (R404) -/
  | unsupportedRequest
  /-- this package's cap binds: its collective packets announce its step (R410) -/
  | paceSetter (step : Nat)
deriving DecidableEq, Repr

/-- The translation commands of a partition (R55): the running command's code and the number of the first request issued
after its start, and how many have been issued and completed. -/
structure Command where
  op : Nat := 0
  bound : Nat := 0
  first : Nat := 0
  pages : Nat := 0
  issued : Nat := 0
  completed : Nat := 0
deriving DecidableEq, Repr

/-- Which agent moves next: the issue of a warp of a workgroup, or an event (log 4). -/
inductive Act where
  | issue (wg warp : Nat)
  | event (e : Instr)
  /-- a performed write, by its place in `late`, becomes visible to the unit of a core at a scope (R147) -/
  | visible (n scope core : Nat)
  /-- a fetch reads a former content of a word from now on, or, at 0, the present one (R170) -/
  | oldCode (word n : Nat)
  /-- the next slot of a scratch access (R69, R71) -/
  | slot (id : Nat)
  /-- a matrix operation notes what its operands hold now, for uses that fall between two writes of them (R164) -/
  | sample (id : Nat)
  /-- a member of another package issues its `coll` of an occurrence, or is lost (R337, R340) -/
  | remotePart (key rank : Nat) (part : Option CollPart)
  /-- a request waits at its LLC slice, or at the memory controller (R96) -/
  | waits (id : Nat) (controller : Bool)
  /-- Zorner writes the paths of a package into the route table (R405) -/
  | route (pkg : Nat) (paths : List Route)
  /-- Zorner creates or changes a collective group, or deletes it (R409) -/
  | group (ctx n : Nat) (members : Option (List (Nat × Nat × Nat)))
  /-- a virtual die is mapped to another stack, and the stack's former die takes its place (R61) -/
  | remap (vd stack : Nat)
  /-- ECC corrects soft errors (R428) -/
  | softErrors (n : Nat)
  /-- the host sends an AtomicOp request (R404) -/
  | hostAtomic
  /-- the scale-out ports access a package physical address (R407) -/
  | scaleOut (pa size : Nat) (write : Option QWord)
deriving DecidableEq, Repr

/-- The machine. -/
structure State where
  /-- own package number (R19, log 10) -/
  pkg : Nat
  cyc : DWord
  ptimeNs : DWord
  ptimeFrac : BitVec 16
  /-- what PTIME is behind its reference, in 2^-16 ns: it is made up by slewing (R408) -/
  ptimeBehind : Int
  mem : Memory
  /-- uncorrectable 8-byte granules and retired rows (R306, R416) -/
  badMem : List Nat
  retired : List Nat
  rows : List Row
  /-- performed writes that not every thread sees yet, oldest first -/
  late : List Late
  /-- performed writes that a thread's earlier accesses must precede at a release (R149) -/
  chains : List Chain
  /-- what words of memory held before they were written while launches ran, by word number, each with the number from which launches
  began after that, and which of these a fetch of an earlier launch reads in place of the present word, by place in that list from 1
  (R170) -/
  former : SMap (List (Nat × Nat))
  stale : SMap Nat
  /-- control registers of each package of the pod, by offset (R14) -/
  cregs : SMap (SMap Word)
  /-- the bus-error register of R18: set or clear, and its address -/
  busError : Bool
  busAddr : Nat
  /-- paths that are up to each other package (R405) -/
  routes : SMap (List Route)
  sent : SMap Word
  done : SMap Word
  dieMap : SMap Nat
  ctxs : SMap Ctx
  launches : SMap Launch
  wgs : SMap Workgroup
  cores : SMap Core
  quads : SMap Quad
  llc : SMap (List Line)
  reqs : List Req
  copies : List Copy
  xfers : List Xfer
  matOps : List MatOp
  matWg : SMap Nat
  sfus : List Sfu
  flights : List Flight
  netBars : SMap NetBar
  groups : SMap Group
  occs : SMap Occ
  thermal : Thermal
  slack : Slack
  audit : List (List Byte)
  auditPart : List Byte
  /-- CYC when the log engine last appended the signed head (R427) -/
  auditSigned : Nat
  signals : List Signal
  retiredChannels : List Nat
  /-- soft errors that ECC has corrected (R428) -/
  softErrors : Nat
  /-- the translation commands of each partition (R55) -/
  cmds : SMap Command
  /-- the next numbers of requests and of parked requests -/
  tag : Nat
  seq : Nat
  /-- the model's own inputs (log 4, log 5) -/
  sched : List Act
  ticks : List Nat
  paths : List Nat
  /-- what the device may do where the spec lets it choose; with none left it takes the first choice (log 4) -/
  choices : List Nat
  free : Nat
  /-- the warp and the lanes being issued (log 4) -/
  curWg : Nat
  curWarp : Nat
  curMask : BitVec 64
deriving DecidableEq, Repr

/-- A machine fault: an access to an address that does not exist is a fault of the machine itself. No step of this
machine raises one: the spec gives reserved addresses their effects (R14, R18, R21). -/
inductive Fault where
  /-- raised by nothing; safe -/
  | none_
deriving DecidableEq, Repr

/-- Why a step has no next state. -/
inductive Refusal where
  /-- an instruction without a meaning yet; safe -/
  | notModelled (mnemonic : String)
  /-- an event that the state does not enable (it names nothing that is outstanding); raised by the events; safe -/
  | notEnabled (name : String)
  /-- an instruction executed without a resident warp and a lane to execute it; raised by `issue`; safe -/
  | noThread
deriving DecidableEq, Repr

/-- The machine right after package reset (R270, R422, R193): no context, no workgroup, memory with nothing listed, every
control register at its Reset column (an unlisted register reads as its reset value). The boot ROM's work is the event
PACKAGE_RESET (R422). -/
def State.reset : State where
  pkg := 0
  cyc := 0
  ptimeNs := 0
  ptimeFrac := 0
  ptimeBehind := 0
  mem := []
  badMem := []
  retired := []
  rows := []
  late := []
  chains := []
  former := []
  stale := []
  cregs := []
  busError := false
  busAddr := 0
  routes := []
  sent := []
  done := []
  dieMap := []
  ctxs := []
  launches := []
  wgs := []
  cores := []
  quads := []
  llc := []
  reqs := []
  copies := []
  xfers := []
  matOps := []
  matWg := []
  sfus := []
  flights := []
  netBars := []
  groups := []
  occs := []
  thermal := {}
  slack := {}
  audit := []
  auditPart := []
  auditSigned := 0
  signals := []
  retiredChannels := []
  softErrors := 0
  cmds := []
  tag := 0
  seq := 0
  sched := []
  ticks := []
  paths := []
  choices := []
  free := 0
  curWg := 0
  curWarp := 0
  curMask := 0

end Sys2Proof.Machine
end

