-- ==== Sys2Proof/Machine/Creg.lean ====
section
/-! DEFINITION. The control-register space of a package (R14): which offsets hold a register, its Reset column, the
bits a plain write changes, who may write it, and the named fields the other modules read. -/

namespace Sys2Proof.Machine

/-- A quad; an unlisted one is as after reset. -/
def State.quad (s : State) (q : Nat) : Quad := SMap.get {} s.quads q
/-- A core, by its number virtual die x 128 + index (R21); an unlisted one is as after reset. -/
def State.coreAt (s : State) (c : Nat) : Core := SMap.get {} s.cores c
/-- A context. -/
def State.ctx (s : State) (c : Nat) : Ctx := SMap.get {} s.ctxs c
/-- A launch. -/
def State.launch (s : State) (l : Nat) : Launch := SMap.get {} s.launches l
/-- A workgroup, by its key; an unlisted one is not yet admitted. -/
def State.wg (s : State) (k : Nat) : Workgroup := SMap.get {} s.wgs k

/-- Changes a quad. -/
def State.updQuad (s : State) (q : Nat) (g : Quad → Quad) : State := { s with quads := SMap.upd {} s.quads q g }
/-- Changes a core. -/
def State.updCore (s : State) (c : Nat) (g : Core → Core) : State := { s with cores := SMap.upd {} s.cores c g }
/-- Changes a context. -/
def State.updCtx (s : State) (c : Nat) (g : Ctx → Ctx) : State := { s with ctxs := SMap.upd {} s.ctxs c g }
/-- Changes a launch. -/
def State.updLaunch (s : State) (l : Nat) (g : Launch → Launch) : State :=
  { s with launches := SMap.upd {} s.launches l g }
/-- Changes a workgroup. -/
def State.updWg (s : State) (k : Nat) (g : Workgroup → Workgroup) : State := { s with wgs := SMap.upd {} s.wgs k g }

/-- The host port, the scale-out ports and the management cluster as requesters (R29). -/
def hostPort : Nat := 297
/-- R29. -/
def scaleOutPort : Nat := 298
/-- R29. -/
def clusterPort : Nat := 299

/-- CONNROW[n][w] (R30). -/
def connRow (n w : Nat) : Nat := 0x800000 + n * 0x80 + w * 4
/-- The fault block of a quad (R54). -/
def faultBlock (q : Nat) : Nat := 0x1000000 + q * 0x1000
/-- The fault command block of a partition (R55). -/
def cmdBlock (p : Nat) : Nat := 0x2000000 + p * 0x100
/-- RSQUOTA (R97). -/
def rsQuota (vd p : Nat) : Nat := 0x3000000 + vd * 0x1000 + p * 4
/-- A hardware queue slot (R377). -/
def queueSlot (q : Nat) : Nat := 0x4000000 + q * 0x40
/-- The doorbell page of a virtual queue (R376). -/
def doorbell (v : Nat) : Nat := 0x5000000 + v * 0x1000
/-- The energy registers of a quad (R385). -/
def energyBlock (q : Nat) : Nat := 0x6000000 + q * 0x20
/-- The pre-emption block of a quad (R394). -/
def preemptBlock (q : Nat) : Nat := 0x7000000 + q * 0x40
/-- QPART of a quad (R448). -/
def qpart (q : Nat) : Nat := 0x2000 + q * 4
/-- The event log registers of a partition (R430). -/
def eventBlock (p : Nat) : Nat := 0xC00 + p * 0x20
/-- TSENS[i] (R413). -/
def tsens (i : Nat) : Nat := 0x440 + 4 * i
/-- CORESTAT of a virtual die (R429). -/
def coreStat (d : Nat) : Nat := 0xA40 + 4 * d
/-- MESHCFG of a region (R425). -/
def meshCfg (r : Nat) : Nat := 0xA00 + 4 * r
/-- STRIPECFG (R42). -/
def stripeCfg : Nat := 0x100
/-- LLCPCFG (R83). -/
def llcPCfg : Nat := 0x104
/-- HAPBASE (R404). -/
def hapBase : Nat := 0x200
/-- PTSTAT (R408). -/
def ptStat : Nat := 0x208
/-- SLKCTL (R410). -/
def slkCtl : Nat := 0x300
/-- CDCTL (R415). -/
def cdCtl : Nat := 0x400
/-- CDSTAT (R415). -/
def cdStat : Nat := 0x404
/-- PKGCAP (R420). -/
def pkgCap : Nat := 0x408
/-- SOAKT (R415). -/
def soakT : Nat := 0x40C
/-- BOOTSTAT (R422). -/
def bootStat : Nat := 0x800
/-- MEAS0 (R422). -/
def meas0 : Nat := 0x810
/-- AUDHEAD (R427). -/
def audHead : Nat := 0x840
/-- The audit window (R427). -/
def auditWindow : Nat := 0x880
/-- HEALTH (R428). -/
def health : Nat := 0x900

/-- The index of an offset in an array of `n` blocks of `size` bytes from `base`, with the offset inside its block. -/
def inArray (off base n size : Nat) : Option (Nat × Nat) :=
  if base ≤ off && off < base + n * size then some ((off - base) / size, (off - base) % size) else none

/-- The Reset column of every control register; 0 for the others. TSENS resets to "Measured" with VALID 0: its
temperature and band before the first sample read as 0 (log 6). -/
def cregReset (off : Nat) : Word :=
  match inArray off 0x800000 320 0x80 with
  | some (n, o) =>
    if o ≥ 19 * 4 then 0
    else if n = 299 then (if o = 72 then 3 else 0xFFFFFFFF)
    else if n = 297 && o == 72 then 1 else 0
  | none =>
  match inArray off 0x6000000 288 0x20 with
  | some (_, o) => if o = 0 then 125000 else if o = 4 then 18000 else if o = 8 then 2000 else 0
  | none =>
  match inArray off 0x3000000 9 0x1000 with
  | some (_, o) => if o < 64 then 16 else 0
  | none =>
  match inArray off 0x1000000 288 0x1000 with
  | some (_, o) => if o = 8 then 0x04000000 else 0
  | none =>
  match inArray off 0xA40 9 4 with
  | some _ => 4
  | none =>
    if off = stripeCfg then 0x918
    else if off = llcPCfg then 4
    else if off = cdStat then 0x20
    else if off = pkgCap then 0x2580E10
    else if off = soakT then 600
    else 0

/-- The control register at an offset of a package; own and other packages of the pod alike (R20, R43). -/
def State.cregOf (s : State) (pkg off : Nat) : Nat :=
  (SMap.get (cregReset off) (SMap.get [] s.cregs pkg) off).toNat

/-- The control register at an offset. -/
def State.creg (s : State) (off : Nat) : Nat := s.cregOf s.pkg off

/-- Writes a control register of a package. -/
def State.setCregOf (s : State) (pkg off : Nat) (v : Nat) : State :=
  { s with cregs := SMap.upd [] s.cregs pkg fun m => SMap.set (cregReset off) m off (BitVec.ofNat 32 v) }

/-- Writes a control register. -/
def State.setCreg (s : State) (off : Nat) (v : Nat) : State := s.setCregOf s.pkg off v

/-- Replaces bits hi:lo of a control register. -/
def State.setField (s : State) (off hi lo v : Nat) : State := s.setCreg off (setBits (s.creg off) hi lo v)

/-- A field of a control register. -/
def State.field (s : State) (off hi lo : Nat) : Nat := bits (s.creg off) hi lo

/-- STRIPEBASE of a package in 4 GiB units (R42). -/
def State.stripeBase (s : State) (pkg : Nat) : Nat := Nat.min 24 (bits (s.cregOf pkg stripeCfg) 4 0)

/-- NACT of a package (R42). -/
def State.nact (s : State) (pkg : Nat) : Nat := bits (s.cregOf pkg stripeCfg) 11 8

/-- The connection matrix of a package permits requester `n` to reach a memory-side port (R30, R32). -/
def State.connected (s : State) (pkg n port : Nat) : Bool :=
  n < 300 && bit (s.cregOf pkg (connRow n (port / 32))) (port % 32)

/-- The operating band (R411, R415). -/
def State.band (s : State) : Nat := s.field cdStat 5 4

/-- The state of the thermal machine (R414). -/
def State.thermalState (s : State) : Nat := s.field cdStat 2 0

/-- The clock step n (R410). -/
def State.clockStep (s : State) : Nat :=
  if bit (s.creg slkCtl) 0 then s.field slkCtl 6 4 else Nat.min 6 (s.field slkCtl 3 1)

/-- A quad belongs to a partition (R448). -/
def State.quadIn (s : State) (q part : Nat) : Bool :=
  bit (s.creg (qpart q)) 31 && s.field (qpart q) 3 0 == part

/-- Arithmetic-clock cycles as CYC cycles, rounded up (R70, R411). -/
def State.arithToCyc (s : State) (n : Nat) : Nat :=
  let f10 := match s.band with
    | 0 => (2000 - 100 * s.clockStep) * 10
    | 1 => (2000 - 100 * s.clockStep) * 7
    | _ => 5000
  (n * 20000 + f10 - 1) / f10

/-- Who may write a register through a plain write: the management cluster, also the host, or only where it is the fault agent of a
partition (R55, R430), or nobody. -/
inductive Writer where
  | cluster | hostToo | faultAgent (part : Nat) | nobody
deriving DecidableEq, Repr

/-- The bits of a register that a plain write sets, and who may write it. `none`: no register at the offset. Registers
whose write is a command or clears bits have their own events, and are listed with the mask 0. FBSTAT and FBOVF may be written by the
host too, whatever FLTCFG.AGENT holds (DESIGN CHOICE, log 39: R54 names no writer). -/
def cregAccess (off : Nat) : Option (Writer × Word) :=
  match inArray off 0x800000 320 0x80 with
  | some (n, o) =>
    if n < 300 && o < 76 then some (.cluster, if o = 72 then 3 else 0xFFFFFFFF)
    else if n < 320 && o < 76 then some (.cluster, 0) else none
  | none =>
  match inArray off 0x1000000 288 0x1000 with
  | some (_, o) =>
    if o < 8 then some (.hostToo, 0) else if o < 12 then some (.nobody, 0)
    else if 0x100 ≤ o && o < 0x200 && o % 0x20 < 0x10 then some (.nobody, 0) else none
  | none =>
  match inArray off 0x2000000 16 0x100 with
  | some (_, o) =>
    if o < 4 then some (.hostToo, 0)
    else if o < 8 then some (.cluster, 0x07FF0003)
    else if o < 12 then some (.hostToo, 0xFFFFFFFF)
    else if o < 16 then some (.hostToo, 0x3FFFFFFF)
    else if o < 20 then some (.hostToo, 0xFFFFFFFF)
    else if o < 24 then some (.hostToo, 0) else none
  | none =>
  match inArray off 0x3000000 9 0x1000 with
  | some (_, o) => if o < 64 then some (.cluster, 0x1FF) else none
  | none =>
  match inArray off 0x4000000 48 0x40 with
  | some (_, o) =>
    if o < 4 then some (.cluster, 0xFFFFFF80) else if o < 0xC then some (.cluster, 0xFFFFFFFF)
    else if o < 0x10 then some (.cluster, 0x8000FFFF) else if o < 0x18 then some (.cluster, 0xFFFFFFFF) else none
  | none =>
  match inArray off 0x5000000 4096 0x1000 with
  | some (_, o) => if o < 4 then some (.hostToo, 0xFFFFFFFF) else if o < 0xC then some (.nobody, 0) else some (.hostToo, 0)
  | none =>
  match inArray off 0x6000000 288 0x20 with
  | some (_, o) =>
    if o < 8 then some (.cluster, 0xFFFFFFFF) else if o < 12 then some (.cluster, 0xFFFF)
    else if o < 20 then some (.nobody, 0) else none
  | none =>
  match inArray off 0x7000000 288 0x40 with
  | some (_, o) =>
    if o < 4 then some (.cluster, 0x0000FFFF) else if o < 8 then some (.cluster, 0xFFFFFFFF)
    else if o < 12 then some (.cluster, 3) else if o < 0x1C then some (.nobody, 0)
    else if 0x20 ≤ o && o < 0x24 then some (.cluster, 0xFFFFFF00) else if 0x24 ≤ o && o < 0x28 then some (.cluster, 0xFFFFF)
    else if 0x28 ≤ o && o < 0x2C then some (.cluster, 0) else if 0x2C ≤ o && o < 0x30 then some (.cluster, 0xFFFFFF00)
    else if 0x30 ≤ o && o < 0x34 then some (.cluster, 0xFFFFF) else if 0x34 ≤ o && o < 0x38 then some (.cluster, 0) else none
  | none =>
  match inArray off 0x2000 288 4 with
  | some _ => some (.cluster, 0x8000000F)
  | none =>
  match inArray off 0xC00 16 0x20 with
  | some (p, o) =>
    if o < 4 then some (.cluster, 0xFFFFF000) else if o < 8 then some (.cluster, 0xFFFFF)
    else if o < 12 then some (.cluster, 0x07FF003F) else if o < 16 then some (.nobody, 0)
    else if o < 20 then some (.faultAgent p, 0xFFFFFFFF) else if o < 24 then some (.faultAgent p, 0) else none
  | none =>
    if off = stripeCfg then some (.cluster, 0x1F)
    else if off = llcPCfg then some (.cluster, 7)
    else if off = hapBase then some (.cluster, 0)
    else if off = hapBase + 4 then some (.cluster, 0xFFFF0)
    else if off = ptStat then some (.nobody, 0)
    else if off = slkCtl then some (.cluster, 0xF)
    else if off = cdCtl then some (.cluster, 0)
    else if off = cdStat then some (.cluster, 0)
    else if off = pkgCap then some (.cluster, 0xFFFF)
    else if off = soakT then some (.cluster, 0xFFFF)
    else if 0x440 ≤ off && off < 0x440 + 27 * 4 then some (.nobody, 0)
    else if off = bootStat then some (.nobody, 0)
    else if meas0 ≤ off && off < meas0 + 48 then some (.nobody, 0)
    else if audHead ≤ off && off < audHead + 48 then some (.nobody, 0)
    else if auditWindow ≤ off && off < auditWindow + 64 then some (.cluster, 0)
    else if off = health then some (.cluster, 0)
    else if 0xA00 ≤ off && off < 0xA24 then some (.cluster, 0)
    else if 0xA40 ≤ off && off < 0xA64 then some (.nobody, 0)
    else none

/-- The boot sequence has halted the cluster: only the host port and BOOTSTAT are active (R422). -/
def State.halted (s : State) : Bool := s.field bootStat 3 0 != 0

/-- Whether a requester may write a register (R31): its row permits port 576 and its Access column permits it. -/
def State.mayWrite (s : State) (agent off : Nat) : Bool :=
  s.connected s.pkg agent 576 && !s.halted &&
    match cregAccess off with
    | some (.cluster, _) => agent == clusterPort
    | some (.hostToo, _) => agent == clusterPort || agent == hostPort
    | some (.faultAgent p, _) => agent == clusterPort || (agent == hostPort && !bit (s.creg (cmdBlock p + 4)) 1)
    | _ => false

/-- A CONNROW register of a requester of a stack that is not active: it reads as zero (R423). -/
def State.rowGone (s : State) (off : Nat) : Bool :=
  match inArray off 0x800000 320 0x80 with
  | some (n, _) => n < 297 && (if n < 288 then s.nact s.pkg ≤ n / 32 else s.nact s.pkg ≤ n - 288)
  | none => false

/-- A plain write: the masked bits change, the others keep what they hold (R5). -/
def State.plainWrite (s : State) (off : Nat) (v : Word) : State :=
  match cregAccess off with
  | some (_, m) => if s.rowGone off then s else s.setCreg off ((v &&& m) ||| (BitVec.ofNat 32 (s.creg off) &&& ~~~m)).toNat
  | none => s

end Sys2Proof.Machine
end

