-- ==== Sys2Proof/Machine/Translate.lean ====
section
/-! DEFINITION. Physical addresses, page tables, TLBs and the checks of a translated access (R14 to R20, R34 to R49). -/

namespace Sys2Proof.Machine

/-! ### Physical addresses -/

/-- Bytes of a package's physical map. -/
def pkgSpan : Nat := 2 ^ 52
/-- Start of the striped DRAM view (R14). -/
def stripedBase : Nat := 0x0100000000000
/-- Start of the on-chip map (R14). -/
def chipBase : Nat := 0x0200000000000
/-- Start of the control-register space (R14). -/
def cregBase : Nat := 0x0300000000000
/-- Start of the host window (R14). -/
def hostBase : Nat := 0x8000000000000

/-- A region of the package physical map (R14, R15). -/
inductive Region14 where
  | dieWindow (vd off : Nat) | striped (off : Nat) | chip (off : Nat) | creg (off : Nat) | host (off : Nat) | reserved
deriving DecidableEq, Repr

/-- The region of a package physical address (R14, R15). -/
def regionOf (pa : Nat) : Region14 :=
  if pa < 9 * 2 ^ 37 then (if pa % 2 ^ 37 < 0x1800000000 then .dieWindow (pa / 2 ^ 37) (pa % 2 ^ 37) else .reserved)
  else if stripedBase ≤ pa && pa < stripedBase + 2 ^ 40 then .striped (pa - stripedBase)
  else if chipBase ≤ pa && pa < chipBase + 9 * 2 ^ 32 then .chip (pa - chipBase)
  else if cregBase ≤ pa && pa < cregBase + 2 ^ 32 then .creg (pa - cregBase)
  else if hostBase ≤ pa && pa < pkgSpan then .host (pa - hostBase)
  else .reserved

/-- The bytes of the striped view that lie on DRAM of active dies (R15, R43). -/
def State.stripedSize (s : State) (pkg : Nat) : Nat := s.nact pkg * (24 - s.stripeBase pkg) * 2 ^ 32

/-- The die and die-window offset of a striped-view offset (R44). -/
def State.unstripe (s : State) (pkg off : Nat) : Nat × Nat :=
  let b := off / 4096
  let n := Nat.max 1 (s.nact pkg)
  (b % n, s.stripeBase pkg * 2 ^ 32 + b / n * 4096 + off % 4096)

/-- The die window address under which a pod-global address is stored: the striped view names the same DRAM (R44). -/
def State.canon (s : State) (g : Nat) : Nat :=
  match regionOf (g % pkgSpan) with
  | .striped off =>
    let (d, o) := s.unstripe (g / pkgSpan) off
    g / pkgSpan * pkgSpan + d * 2 ^ 37 + o
  | _ => g

/-- The home die of a pod-global address: none for the host window and everything that is not DRAM (R43, R44). -/
def State.homeDie (s : State) (g : Nat) : Option Nat :=
  match regionOf (g % pkgSpan) with
  | .dieWindow d _ => some d
  | .striped off => some (s.unstripe (g / pkgSpan) off).1
  | _ => none

/-- The home slice of a die-window offset (R46). -/
def sliceOf (off : Nat) : Nat :=
  bits off 16 12 ^^^ bits off 21 17 ^^^ bits off 26 22 ^^^ bits off 31 27 ^^^ bits off 36 32

/-- The memory-side port of a physical address (R29): its LLC slice, its window's quad, the register space, the host
window. -/
def State.portOf (s : State) (g : Nat) : Option Nat :=
  match regionOf (s.canon g % pkgSpan) with
  | .dieWindow d off => some (d * 32 + sliceOf off)
  | .chip off => some (288 + off / 2 ^ 32 * 32 + off % 2 ^ 32 / 2 ^ 27)
  | .creg _ => some 576
  | .host _ => some 577
  | _ => none

/-- Reads bytes of memory at a pod-global address. -/
def State.memRead (s : State) (g n : Nat) : Nat := s.mem.read (s.canon g) n

/-! ### Writes that not every thread sees yet (R147, R162; log 69) -/

/-- Two scopes' units agree (R143): cores `a` and `b`, by their pod-wide numbers or, within a package, by their own. -/
def sameUnit (scope a b : Nat) : Bool :=
  match scope with
  | 1 => a == b
  | 2 => a / 4 == b / 4
  | 3 => a / 128 == b / 128
  | 4 => a / 4096 == b / 4096
  | _ => true

/-- The threads of a warp on a core see the write. -/
def Late.sees (t : Late) (core : Nat) (who : Nat × Nat) : Bool := t.owner == who || t.seen.any fun u => sameUnit u.1 u.2 core

/-- What lay at an address before the write. -/
def Late.old (t : Late) (place : Option Nat) (a : Nat) : Option Byte :=
  if t.place = place then (t.was.find? fun c => c.1 == a).map Prod.snd else none

/-- A byte as a thread reads it, of which the newest value is `v`: the writes that it does not see are taken back, newest first, up
to one that it sees. The list is newest first. -/
def viewByte (place : Option Nat) (sees : Late → Bool) (a : Nat) : List Late → Byte → Byte
  | [], v => v
  | t :: ts, v =>
    match t.old place a with
    | none => viewByte place sees a ts v
    | some b => if sees t then v else viewByte place sees a ts b

/-- The bytes of a range as a thread reads them, of which `now` are the newest values. -/
def State.viewOf (s : State) (place : Option Nat) (core : Nat) (who : Nat × Nat) (a : Nat) (now : List Byte) : List Byte :=
  let newest := s.late.reverse
  (List.range now.length).map fun i => viewByte place (·.sees core who) (a + i) newest (now.getD i 0)

/-- The writes without the bytes of a range: every thread sees those now. -/
def dropLate (l : List Late) (place : Option Nat) (a n : Nat) : List Late :=
  (l.map fun (t : Late) => if t.place = place then { t with was := t.was.filter fun c => !(a ≤ c.1 && c.1 < a + n) } else t).filter
    fun t => !t.was.isEmpty || t.owed.isSome

/-- A write that every thread sees hides what earlier writes had left at its bytes. -/
def State.settled (s : State) (place : Option Nat) (a n : Nat) : State := { s with late := dropLate s.late place a n }

/-- The threads of a core have read the newest value of a range, and see every write of it (R146). -/
def State.sawAll (s : State) (place : Option Nat) (core a n : Nat) : State :=
  { s with late := s.late.map fun (t : Late) =>
      if (List.range n).any fun i => (t.old place (a + i)).isSome then { t with seen := (1, core) :: t.seen } else t }

/-- A performed write becomes visible to the unit of a core at a scope; from the package's on, to all, and what earlier writes left
at its bytes with it. -/
def State.showLate (s : State) (n scope core : Nat) : State :=
  match s.late[n]? with
  | none => s
  | some t =>
    if 4 ≤ scope then
      let older := t.was.foldl (fun l c => dropLate l t.place c.1 1) (s.late.take n)
      { s with late := older ++ s.late.drop (n + 1) }
    else { s with late := s.late.take n ++ { t with seen := (scope, core) :: t.seen } :: s.late.drop (n + 1) }

/-- A write is visible in the unit of a core at a scope. -/
def Late.shownIn (t : Late) (core scope : Nat) : Bool := t.seen.any fun u => scope ≤ u.1 && sameUnit u.1 u.2 core

/-- A lane of a warp made the write by an instruction numbered below a bound. -/
def Late.madeBy (t : Late) (who : Nat × Nat) (lane bound : Nat) : Bool :=
  t.owner == who && t.access.any fun x => x.1 == lane && x.2.1 < bound

/-- Two ranges of bytes meet. -/
def overlap (a n b m : Nat) : Bool := a < b + m && b < a + n

/-! ### Memory -/

/-- The words of a range, as they stand, are kept while a launch runs: a fetch of a launch that has begun may still read them (R170).
Launches are numbered by `tag`. -/
def State.keepWords (s : State) (a n : Nat) : State :=
  { s with former :=
      if s.launches.all fun l => l.2.finished then s.former
      else (List.range ((a + n - 1) / 4 - a / 4 + 1)).foldl (fun m i =>
        SMap.upd [] m (a / 4 + i) fun vs =>
          let v := s.mem.read ((a / 4 + i) * 4) 4
          if vs.any fun p => p.1 == v then vs.map fun p => if p.1 = v then (v, s.tag) else p else vs ++ [(v, s.tag)]) s.former }

/-- Writes bytes of memory at a pod-global address, as the newest value. -/
def State.putBytes (s : State) (g n v : Nat) : State :=
  { s.keepWords (s.canon g) n with mem := s.mem.write (s.canon g) n v }

/-- Writes bytes of memory at a pod-global address; every thread sees them. -/
def State.memWrite (s : State) (g n v : Nat) : State := (s.putBytes g n v).settled none (s.canon g) n

/-- An own-package physical address as a pod-global one (R19). -/
def State.own (s : State) (pa : Nat) : Nat := s.pkg * pkgSpan + pa

/-! ### Page table entries (R34 to R37) -/

/-- A field of a 16-byte entry. -/
def pteV (e : Nat) : Bool := bit e 0
/-- R34. -/
def pteLeaf (e : Nat) : Bool := bit e 1
/-- R34. -/
def pteRd (e : Nat) : Bool := bit e 2
/-- R34. -/
def pteWr (e : Nat) : Bool := bit e 3
/-- R34. -/
def pteEx (e : Nat) : Bool := bit e 4
/-- R34. -/
def pteD (e : Nat) : Bool := bit e 6
/-- R34. -/
def pteContig (e : Nat) : Bool := bit e 7
/-- R34. -/
def pteCpol (e : Nat) : Nat := bits e 10 8
/-- R34. -/
def ptePart (e : Nat) : Nat := bits e 15 12
/-- R34. -/
def pteHome (e : Nat) : Nat := bits e 19 16
/-- R34. -/
def pteMode (e : Nat) : Nat := bits e 21 20
/-- R34. -/
def ptePkg (e : Nat) : Nat := bits e 29 22
/-- R34, R35: physical address bits 51:18. -/
def pteFrame (e : Nat) : Nat := bits e 97 64

/-- The index of a VA at a level (R9). -/
def vaIndex (va level : Nat) : Nat :=
  match level with
  | 0 => bits va 79 74 | 1 => bits va 73 60 | 2 => bits va 59 46 | 3 => bits va 45 32 | _ => bits va 31 18

/-- The part of a VA that the entry at a level stands for; level 5 is a CONTIG group (R37). -/
def vaPrefix (va level : Nat) : Nat :=
  match level with
  | 0 => va / 2 ^ 74 | 1 => va / 2 ^ 60 | 2 => va / 2 ^ 46 | 3 => va / 2 ^ 32 | 5 => va / 2 ^ 24 | _ => va / 2 ^ 18

/-- The outcome of a walk (R36): not present at a level, malformed, or a leaf with its level and address; with the
non-leaf entries it read. -/
inductive Walk where
  | absent (level : Nat)
  | malformed
  | leaf (entry level at_ : Nat)
deriving DecidableEq, Repr

/-- The walk below a table at `base` (R36); `fuel` counts the levels left. `cached` looks a non-leaf entry up in a walk
cache before memory is read. -/
def State.walkFrom (s : State) (cached : Nat → Option Nat) (va : Nat) : Nat → Nat → Nat → Walk
  | 0, _, _ => .malformed
  | fuel + 1, level, base =>
    let at_ := s.own (base + vaIndex va level * 16)
    let e := match cached level with
      | some e => e
      | none => s.memRead at_ 16
    if !pteV e then .absent level
    else if pteLeaf e then
      if level = 4 then .leaf e level at_
      else if level = 3 && pteFrame e % 2 ^ 14 == 0 then .leaf e level at_
      else .malformed
    else if level = 4 then .malformed
    else s.walkFrom cached va fuel (level + 1) (pteFrame e * 2 ^ 18)

/-- The walk of a VA in a context's tables, from its root block (R36, R393). -/
def State.walk (s : State) (ctx va : Nat) : Walk :=
  s.walkFrom (fun _ => none) va 5 0 (s.ctx ctx).root

/-- The partition of a context, from its root block (R393). -/
def State.ctxPart (s : State) (ctx : Nat) : Nat :=
  bits (s.memRead (s.own ((s.ctx ctx).root + 0x410)) 4) 7 4

/-- The walk of a VA that uses a quad's walk cache for non-leaf entries (R48). -/
def State.walkVia (s : State) (quad ctx va : Nat) : Walk :=
  let ws := (s.quad quad).walks
  let part := s.ctxPart ctx
  s.walkFrom (fun l => (ws.find? fun w => w.ctx == ctx && w.part == part && w.level == l && w.page == vaPrefix va l).map
    fun w => w.leaf.toNat) va 5 0 (s.ctx ctx).root

/-- The non-leaf entries that a walk reads, as walk-cache entries (R48). -/
def State.walkNodes (s : State) (ctx part va : Nat) : Nat → Nat → Nat → List TlbEntry
  | 0, _, _ => []
  | fuel + 1, level, base =>
    let at_ := s.own (base + vaIndex va level * 16)
    let e := s.memRead at_ 16
    if pteV e && !pteLeaf e && level < 4 then
      { ctx, part, page := vaPrefix va level, level, leaf := BitVec.ofNat 128 e, at_, dirty := false } ::
        s.walkNodes ctx part va fuel (level + 1) (pteFrame e * 2 ^ 18)
    else []

/-! ### Checks of a translated access (R49) -/

/-- What an access does to its page (R40, R49). -/
inductive Access where
  | read | write | update | fetch
deriving DecidableEq, Repr

/-- Whether an access counts as a write for R40. -/
def Access.writes : Access → Bool
  | .write | .update => true
  | _ => false

/-- The outcome of a translated access: its pod-global address and cache policy, the level at which the page is not
present, or a precise PROT with its DETAIL (R391). -/
inductive Tr where
  | ok (pa cpol : Nat)
  | absent (level : Nat)
  | prot (detail : Nat)
deriving DecidableEq, Repr

/-- The context is privileged (R266, R393). -/
def State.ctxPriv (s : State) (ctx : Nat) : Bool :=
  bit (s.memRead (s.own ((s.ctx ctx).root + 0x410)) 4) 0

/-- The package physical address that a leaf gives a VA, after the redirection of R45. -/
def leafPa (e level va : Nat) : Nat :=
  let off := if level = 3 then va % 2 ^ 32 else va % 2 ^ 18
  let pa := pteFrame e * 2 ^ 18 + off
  if pteMode e = 2 && off / 4096 % 2 == 1 then
    if pteFrame e * 2 ^ 18 % 2 ^ 37 < 0xC00000000 then pa + 0xC00000000 else pa - 0xC00000000
  else pa

/-- The placement check of a package for an address of a leaf (R15, R17, R43). -/
def State.placed (s : State) (pkg e pa : Nat) : Bool :=
  let below (d off : Nat) : Bool := d == pteHome e && d < s.nact pkg && off < s.stripeBase pkg * 2 ^ 32
  match pteMode e, regionOf pa with
  | 0, .dieWindow d off => below d off
  | 0, .host _ => pteHome e == 15 && pkg == s.pkg
  | 1, .striped off => pteHome e == 15 && off < s.stripedSize pkg
  | 2, .dieWindow d off => below d off
  | _, _ => false

/-- A physical address lies in the host window (R14). -/
def inHost (pa : Nat) : Bool :=
  match regionOf pa with
  | .host _ => true
  | _ => false

/-- Checks 2 to 5 of R49 on a leaf, those that decide whether it is cached (R40); a read-modify-write of a host-window page fails
step 5 (R47). A page of another package is checked for its region in step 6 (R20, R43). -/
def State.leafChecks (s : State) (ctx e level va : Nat) (acc : Access) (atomic : Bool) : Option Nat :=
  let home := pteHome e
  if 4 ≤ pteCpol e || pteMode e == 3 || (9 ≤ home && home ≤ 14) then some 1
  else if ptePart e != s.ctxPart ctx then some 2
  else if !(match acc with
      | .read => pteRd e
      | .write => pteWr e
      | .update => pteRd e && pteWr e
      | .fetch => pteEx e) then some 3
  else if ptePkg e == s.pkg && (!s.placed s.pkg e (leafPa e level va) || (atomic && inHost (leafPa e level va))) then some 4
  else none

/-- The quad of a core index (R2, R29). -/
def quadOf (core : Nat) : Nat := core / 4
/-- The virtual die of a core index. -/
def dieOf (core : Nat) : Nat := core / 128

/-- Checks 6 and 7 of R49 for requester port `n`: the route, and the connection matrix of the own package (R20, R32). -/
def State.routeChecks (s : State) (n e level va : Nat) : Tr :=
  let pa := leafPa e level va
  let g := ptePkg e * pkgSpan + pa
  if ptePkg e == s.pkg then
    match s.portOf g with
    | some p => if s.connected s.pkg n p then .ok g (if inHost pa then 2 else pteCpol e) else .prot 6
    | none => .prot 4
  else
    let inDram := match regionOf pa with
      | .dieWindow .. => true
      | .striped _ => true
      | _ => false
    if !inDram then .prot 5
    else if (SMap.get [] s.routes (ptePkg e)).isEmpty then .prot 5
    else .ok g (pteCpol e)

/-- The paths to a package that are up (R405). -/
def State.pathsTo (s : State) (pkg : Nat) : List Route := SMap.get [] s.routes pkg

/-- The virtual die of the home package where the requests of a path arrive; one whose path has failed goes out on another. -/
def State.landsOn (s : State) (pkg path : Nat) : Nat :=
  match (s.pathsTo pkg).find? fun r => r.path == path with
  | some r => r.lands
  | none => ((s.pathsTo pkg).map (·.lands)).headD 0

/-- The checks made at the home package when a remote request arrives there (R20, R32, R43): its STRIPECFG bounds, then its
connection matrix for the ingress port of the die of arrival. `none`: passed. -/
def State.homeChecks (s : State) (g e path : Nat) : Option Nat :=
  let p := g / pkgSpan
  if p == s.pkg then none
  else if !s.placed p e (g % pkgSpan) then some 4
  else match s.homeDie g, s.portOf g with
    | some _, some port => if s.connected p (288 + s.landsOn p path) port then none else some 6
    | _, _ => some 4

/-- A translation that passed at the requester, with the home package's checks made too. -/
def State.homeTr (s : State) (t : Tr) (e path : Nat) : Tr :=
  match t with
  | .ok g _ => match s.homeChecks g e path with
    | some d => .prot d
    | none => t
  | _ => t

/-- The TLB entry that translates a VA for a context of a partition (R48). -/
def tlbFind (l : List TlbEntry) (ctx part va : Nat) : Option TlbEntry :=
  l.find? fun t => t.ctx == ctx && t.part == part && t.page == vaPrefix va t.level

/-- The entry of the core's L1 TLB or of its quad's TLB for a VA (R48). -/
def State.tlbEntry (s : State) (core ctx va : Nat) : Option TlbEntry :=
  match tlbFind (s.coreAt core).tlb ctx (s.ctxPart ctx) va with
  | some t => some t
  | none => tlbFind (s.quad (quadOf core)).tlb ctx (s.ctxPart ctx) va

/-- The entry that serves an access (R48): a write is not served by an entry cached with D clear (R40); through a CONTIG group D is
set in the entry of the page itself (R37). -/
def State.tlbHit (s : State) (core ctx va : Nat) (acc : Access) : Option TlbEntry :=
  (s.tlbEntry core ctx va).filter fun t => !acc.writes || t.dirty || t.level == 5

/-- The leaf that a member of a CONTIG group gives a page of the group: its FRAME with bits 5:0 replaced by the index's (R37). -/
def groupLeaf (e va : Nat) : Nat := setBits e 69 64 (bits va 23 18)

/-- The address of the entry of a VA's own page, from that of another member of its CONTIG group. -/
def memberAt (at_ va : Nat) : Nat := at_ / 1024 * 1024 + bits va 23 18 * 16

/-- What a TLB entry gives a VA: leaf, level, and the address of the page's own entry. -/
def TlbEntry.gives (t : TlbEntry) (va : Nat) : Walk :=
  if t.level = 5 then .leaf (groupLeaf t.leaf.toNat va) 4 (memberAt t.at_ va) else .leaf t.leaf.toNat t.level t.at_

/-- What the core finds for a VA: a TLB entry, else a walk (R48). -/
def State.lookup (s : State) (core ctx va : Nat) (acc : Access) : Walk :=
  match s.tlbHit core ctx va acc with
  | some t => t.gives va
  | none => s.walkVia (quadOf core) ctx va

/-- A translated access decided without changing anything (R49): the check that an instruction makes at issue (R304). -/
def State.probe (s : State) (core ctx va : Nat) (acc : Access) (atomic : Bool) : Tr :=
  match s.lookup core ctx va acc with
  | .absent l => .absent l
  | .malformed => .prot 1
  | .leaf e level _ =>
    match s.leafChecks ctx e level va acc atomic with
    | some d => .prot d
    | none => s.routeChecks (quadOf core) e level va

/-- `probe`, with the home package's checks too, on the path that is chosen for the access, as at its issue, so that a PROT is precise
(R304), or on the first one, as at a fetch (log 73). -/
def State.probeHome (s : State) (core ctx va : Nat) (acc : Access) (atomic : Bool) (path : Nat) : Tr :=
  match s.lookup core ctx va acc with
  | .leaf e _ _ => s.homeTr (s.probe core ctx va acc atomic) e path
  | _ => s.probe core ctx va acc atomic

/-- The entries of a structure other than the one that a new entry replaces. -/
def others (l : List TlbEntry) (t : TlbEntry) : List TlbEntry :=
  l.filter fun u => !(u.ctx == t.ctx && u.part == t.part && u.page == t.page && u.level == t.level)

/-- Puts an entry into a fully associative structure of a capacity. The spec gives no replacement policy: the entry filled first
leaves (DESIGN CHOICE, log 68). -/
def fifoPut (cap : Nat) (l : List TlbEntry) (t : TlbEntry) : List TlbEntry := (t :: others l t).take cap

/-- Puts an entry into the quad TLB of 512 sets of 16 ways (R48). The spec gives neither the set index nor a replacement policy: the
set is the entry's page number modulo 512, and the entry of the set that was filled first leaves (DESIGN CHOICE, log 68). -/
def wayPut (l : List TlbEntry) (t : TlbEntry) : List TlbEntry :=
  let rest := others l t
  let same := rest.filter fun u => u.page % 512 == t.page % 512
  if same.length < 16 then t :: rest
  else match same.getLast? with
    | some v => t :: others rest v
    | none => t :: rest

/-- The next of the model's choices (log 4). -/
def State.takeChoice (s : State) : Nat × State :=
  match s.choices with
  | n :: ns => (n, { s with choices := ns })
  | [] => (0, s)

/-- Sets A, and D where `setD`, in an entry in memory (R40). -/
def State.markEntry (s : State) (at_ : Nat) (setD : Bool) : State :=
  let now := s.memRead at_ 16
  let upd := setBits (if setD then setBits now 6 6 1 else now) 5 5 1
  if upd = now then s else s.memWrite at_ 16 upd

/-- Sets A, and D for a write, in the entry in memory, and caches the leaf in the L1 TLB and the quad TLB (R40, R48), or the CONTIG
group of a member (R37). D is set only where the access is `sent`. -/
def State.fillTlb (s : State) (core ctx va e level at_ : Nat) (setD : Bool) (member : Option (Nat × Nat)) : State :=
  let s1 := s.markEntry at_ setD
  let part := s.ctxPart ctx
  let t : TlbEntry := match member with
    | some m => { ctx, part, page := vaPrefix va 5, level := 5, leaf := BitVec.ofNat 128 m.1, at_ := m.2, dirty := false }
    | none => { ctx, part, page := vaPrefix va level, level,
                leaf := BitVec.ofNat 128 (setBits (if setD then setBits e 6 6 1 else e) 5 5 1), at_, dirty := setD || pteD e }
  let nodes := s.walkNodes ctx part va 4 0 (s.ctx ctx).root
  (s1.updCore core fun c => { c with tlb := fifoPut 256 c.tlb t }).updQuad (quadOf core) fun x =>
    { x with tlb := wayPut x.tlb t, walks := nodes.foldl (fifoPut 512) x.walks }

/-- A page of a CONTIG group may be translated through any member whose CONTIG bit is set (R37): the next choice names none (0), or
a member by its index plus 1. The member's entry and its address. -/
def State.takeMember (s : State) (e level at_ : Nat) : Option (Nat × Nat) × State :=
  if level != 4 || !pteContig e then (none, s)
  else
    let c := s.takeChoice
    let m := at_ / 1024 * 1024 + (c.1 - 1) % 64 * 16
    let f := s.memRead m 16
    (if c.1 != 0 && pteV f && pteLeaf f && pteContig f then some (f, m) else none, c.2)

/-- A translated access with its effects on the tables and TLBs (R40, R49). The entry it used is returned for the
checks at a remote home (R20). -/
def State.translate (s : State) (core ctx va : Nat) (acc : Access) (atomic : Bool) : State × Tr × Nat :=
  match s.lookup core ctx va acc with
  | .absent l => (s, .absent l, 0)
  | .malformed => (s, .prot 1, 0)
  | .leaf e0 level at_ =>
    let hit := s.tlbHit core ctx va acc
    let m := if hit.isSome then (none, s) else s.takeMember e0 level at_
    let e := match m.1 with
      | some x => groupLeaf x.1 va
      | none => e0
    match m.2.leafChecks ctx e level va acc atomic with
    | some d => (m.2, .prot d, 0)
    | none =>
      let r := m.2.routeChecks (quadOf core) e level va
      let sent := match r with
        | .ok .. => acc.writes
        | _ => false
      (match hit with
       | some t => if t.level = 5 then m.2.markEntry at_ sent else m.2
       | none => m.2.fillTlb core ctx va e level at_ sent m.1, r, e)

/-- The translation of the second hop of an `ldi`: with the requesting quad's TLB, without the L1 TLB of the core (R110). -/
def State.translateHop (s : State) (core ctx va : Nat) (acc : Access) : State × Tr × Nat :=
  let y := (s.updCore core fun c => { c with tlb := [] }).translate core ctx va acc false
  (y.1.updCore core fun c => { c with tlb := (s.coreAt core).tlb }, y.2)

/-- A translated access to bytes that stay within one page, for the device's own reads and writes (R380, R393) as requester port
`n`: no parking and no fault-buffer entry. The checks of R49 in the own package, and the leaf used. -/
def State.deviceTr (s : State) (n ctx va : Nat) (acc : Access) : Tr × Nat :=
  match s.walk ctx va with
  | .absent l => (.absent l, 0)
  | .malformed => (.prot 1, 0)
  | .leaf e level _ =>
    match s.leafChecks ctx e level va acc false with
    | some d => (.prot d, 0)
    | none => (s.routeChecks n e level va, e)

/-- That access, with the checks of a home package made too (R20). -/
def State.deviceVa (s : State) (n ctx va : Nat) (acc : Access) : Tr :=
  s.homeTr (s.deviceTr n ctx va acc).1 (s.deviceTr n ctx va acc).2 4

end Sys2Proof.Machine
end

