-- ==== Sys2Proof/Machine/Ops.lean ====
section
/-! DEFINITION. The named operations over State: threads, registers, class counters, traps and their return, the end of a
launch, logs, and the issue of an instruction. -/

namespace Sys2Proof.Machine

/-! ### Workgroups, warps and lanes -/

/-- The key of a workgroup: its launch's number and its WGID (R181). -/
def wgKey (launch wgid : Nat) : Nat := launch * 2 ^ 32 + wgid

/-- The launch of a workgroup key. -/
def keyLaunch (k : Nat) : Nat := k / 2 ^ 32
/-- The WGID of a workgroup key. -/
def keyWgid (k : Nat) : Nat := k % 2 ^ 32

/-- The launch packet of a workgroup. -/
def State.packet (s : State) (k : Nat) : Packet := (s.launch (keyLaunch k)).packet
/-- The context number of a workgroup. -/
def State.ctxNo (s : State) (k : Nat) : Nat := (s.launch (keyLaunch k)).ctx

/-- A warp of a workgroup. -/
def Workgroup.warp (g : Workgroup) (w : Nat) : Warp := SMap.get {} g.warps w
/-- A lane of a warp; an unlisted lane has exited. -/
def Warp.lane (w : Warp) (l : Nat) : Lane := SMap.get {} w.lanes l

/-- A warp. -/
def State.warp (s : State) (k w : Nat) : Warp := (s.wg k).warp w
/-- A lane. -/
def State.lane (s : State) (k w l : Nat) : Lane := (s.warp k w).lane l

/-- Changes a warp. -/
def State.updWarp (s : State) (k w : Nat) (g : Warp → Warp) : State :=
  s.updWg k fun x => { x with warps := SMap.upd {} x.warps w g }

/-- Changes a lane of a warp. -/
def Warp.updLane (w : Warp) (l : Nat) (g : Lane → Lane) : Warp := { w with lanes := SMap.upd {} w.lanes l g }

/-- Changes each of some lanes of a warp. -/
def Warp.updLanes (w : Warp) (ls : List Nat) (g : Nat → Lane → Lane) : Warp :=
  ls.foldl (fun w l => w.updLane l (g l)) w

/-- Changes each of some lanes. -/
def State.updLanes (s : State) (k w : Nat) (ls : List Nat) (g : Nat → Lane → Lane) : State :=
  s.updWarp k w fun x => x.updLanes ls g

/-- The unexited lanes of a warp. -/
def Warp.unexited (w : Warp) : List Nat := (List.range 64).filter fun l => !(w.lane l).exited

/-- The number of warps of a workgroup. -/
def State.warpCount (s : State) (k : Nat) : Nat := (s.packet k).warps

/-- The warps of a workgroup that have an unexited thread. -/
def State.liveWarps (s : State) (k : Nat) : List Nat :=
  (List.range (s.warpCount k)).filter fun w => !(s.warp k w).unexited.isEmpty

/-- The role of a warp: 0 copy, 1 matrix, 2 vector, and its index in the role (R186, R187). -/
def Packet.role (p : Packet) (w : Nat) : Nat × Nat :=
  if w < p.ncopy then (0, w) else if w < p.ncopy + p.nmat then (1, w - p.ncopy) else (2, w - p.ncopy - p.nmat)

/-! ### Pre-emption in progress (R395, R396) -/

/-- A launch whose packet marks it restartable (R379). -/
def State.restartable (s : State) (l : Nat) : Bool := bit (s.launch l).packet.flags 0

/-- The choice under which a workgroup's quad pre-empts its context: 1 drain, 2 save, 3 discard; 0 none. -/
def State.preemptChoice (s : State) (k : Nat) : Nat :=
  match (s.quad (quadOf (s.wg k).core)).preempt with
  | some p => if p.ctx = s.ctxNo k then p.choice else 0
  | none => 0

/-- A workgroup is being saved: the choice is save, or discard of a launch that is not restartable (R395). -/
def State.saving (s : State) (k : Nat) : Bool :=
  (s.wg k).status == .resident
    && (s.preemptChoice k == 2 || (s.preemptChoice k == 3 && !s.restartable (keyLaunch k)))

/-- A workgroup is being discarded, to return to its launch's dispatch. -/
def State.discarding (s : State) (k : Nat) : Bool :=
  s.preemptChoice k == 3 && s.restartable (keyLaunch k) && !(s.launch (keyLaunch k)).ending

/-! ### Registers (R62, R65, R66, R390) -/

/-- A general register of a lane: 255 is `gz`; in handler mode 248 to 254 are the handler rows. -/
def Warp.reg (w : Warp) (r l : Nat) : Word :=
  if r = 255 then 0
  else if w.handler ∧ 248 ≤ r then SMap.get 0 (SMap.get [] w.hrows r) l
  else SMap.get 0 (SMap.get [] w.regs r) l

/-- Writes a general register of a lane, as handler mode `h` names it; `gz` discards. -/
def Warp.setRegIn (w : Warp) (h : Bool) (r l : Nat) (v : Word) : Warp :=
  if r = 255 then w
  else if h ∧ 248 ≤ r then { w with hrows := SMap.upd [] w.hrows r fun m => SMap.set 0 m l v }
  else { w with regs := SMap.upd [] w.regs r fun m => SMap.set 0 m l v }

/-- Writes a general register of a lane; `gz` discards. -/
def Warp.setReg (w : Warp) (r l : Nat) (v : Word) : Warp := w.setRegIn w.handler r l v

/-- A pair (R66). -/
def Warp.pair (w : Warp) (r l : Nat) : DWord := (w.reg (r + 1) l) ++ (w.reg r l)

/-- Writes a pair (R66). -/
def Warp.setPair (w : Warp) (r l : Nat) (v : DWord) : Warp :=
  (w.setReg r l (v.setWidth 32)).setReg (r + 1) l ((v >>> 32).setWidth 32)

/-- A predicate of a lane; 7 is `pt` (R227, R228). -/
def Lane.pred (x : Lane) (i : Nat) : Bool := i = 7 || x.preds.getLsbD i

/-- Writes a predicate; a write of 7 discards (R232). -/
def Lane.setPred (x : Lane) (i : Nat) (v : Bool) : Lane :=
  if i ≥ 7 then x
  else { x with preds := (x.preds &&& ~~~ BitVec.ofNat 7 (2 ^ i)) ||| (if v then BitVec.ofNat 7 (2 ^ i) else 0) }

/-- Both guards of an instruction are true in a lane (R228). -/
def Lane.guardsTrue (x : Lane) (f : Fields) : Bool :=
  (f.ga.neg ^^ x.pred f.ga.idx.toNat) && (f.gb.neg ^^ x.pred f.gb.idx.toNat)

/-! ### The issuing group -/

/-- The workgroup being issued. -/
def State.curG (s : State) : Workgroup := s.wg s.curWg
/-- The warp being issued. -/
def State.curW (s : State) : Warp := s.warp s.curWg s.curWarp
/-- The lanes of the issuing PC group. -/
def State.group (s : State) : List Nat := lanesOf s.curMask
/-- The lanes of the group whose guards are true (R184). -/
def State.trueLanes (s : State) (f : Fields) : List Nat :=
  s.group.filter fun l => (s.curW.lane l).guardsTrue f
/-- Changes the issuing warp. -/
def State.updCur (s : State) (g : Warp → Warp) : State := s.updWarp s.curWg s.curWarp g
/-- Changes the issuing workgroup. -/
def State.updCurG (s : State) (g : Workgroup → Workgroup) : State := s.updWg s.curWg g
/-- The issuing group's PC: that of its lowest lane. -/
def State.curPc (s : State) : DWord :=
  match s.group with
  | l :: _ => (s.curW.lane l).pc
  | [] => 0
/-- Moves the group past an instruction of `len` bytes. -/
def State.advance (s : State) (len : Nat) : State :=
  s.updCur fun w => w.updLanes s.group fun _ x => { x with pc := x.pc + BitVec.ofNat 64 len }
/-- Moves lanes past an instruction. -/
def State.advanceLanes (s : State) (k w : Nat) (ls : List Nat) (len : Nat) : State :=
  s.updLanes k w ls fun _ x => { x with pc := x.pc + BitVec.ofNat 64 len }
/-- Puts lanes of the issuing warp into a wait; their PCs stay at the instruction. -/
def State.waitLanes (s : State) (ls : List Nat) (what : WaitFor) (len : Nat) : State :=
  s.updCur fun w => w.updLanes ls fun _ x => { x with wait := some { what, len } }
/-- Adds to a performance counter of a warp (R271). -/
def State.count (s : State) (k w n add : Nat) : State :=
  s.updWarp k w fun x => { x with perf := SMap.upd 0 x.perf n fun v => v + BitVec.ofNat 64 add }
/-- A fresh number. -/
def State.fresh (s : State) : State := { s with tag := s.tag + 1 }
/-- The number at which the spec's open value `freeWord` is next applied, and the advanced counter (log 5). -/
def State.takeFree (s : State) : Word × State := (Config.freeWord s.free, { s with free := s.free + 1 })

/-- 24 hours of PTIME in nanoseconds (R415, R429). -/
def day : Nat := 86400000000000

/-- A core's storage reports an uncorrectable error (R306, R429). -/
def State.coreError (s : State) (core : Nat) : State :=
  s.updCore core fun c => { c with errorTimes := s.ptimeNs.toNat :: c.errorTimes.filter fun t => s.ptimeNs.toNat < t + day }

/-! ### Signals and logs -/

/-- Raises a signal to an outside agent. -/
def State.signal (s : State) (x : Signal) : State := { s with signals := s.signals ++ [x] }

/-- Signals the fault agent of a partition (R53): the host by a vector or the management cluster. -/
def State.signalAgent (s : State) (part vec : Nat) (cluster : Signal) : State :=
  if bit (s.creg (cmdBlock part + 4)) 1 then s.signal cluster else s.signal (.msix vec)

/-- The bytes of a little-endian number. -/
def bytesOf : Nat → Nat → List Byte
  | 0, _ => []
  | n + 1, v => BitVec.ofNat 8 v :: bytesOf n (v / 256)

/-- The number of little-endian bytes. -/
def bytesVal : List Byte → Nat
  | [] => 0
  | b :: l => b.toNat + 256 * bytesVal l

/-- Writes a list of bytes at a pod-global address. -/
def State.memWriteBytes (s : State) (g : Nat) : List Byte → State
  | [] => s
  | b :: l => State.memWriteBytes (s.memWrite g 1 b.toNat) (g + 1) l

/-- An event in a partition's event log (R430): written while there is room, else lost. -/
def State.logEvent (s : State) (part type ctx vq wgid : Nat) (data : List Byte) : State :=
  let b := eventBlock part
  let cfg := s.creg (b + 8)
  let size := 2 ^ (cfg % 16 + 6)
  let idx := s.creg (b + 12)
  let used := (idx + 2 ^ 32 - s.creg (b + 16)) % 2 ^ 32
  if bit cfg 4 && used < size then
    let base := s.field b 31 12 * 4096 + s.field (b + 4) 19 0 * 2 ^ 32
    let entry := bytesOf 8 idx ++ bytesOf 8 s.ptimeNs.toNat ++ bytesOf 2 type ++ bytesOf 2 ctx ++ bytesOf 4 vq
      ++ bytesOf 4 wgid ++ bytesOf 4 0 ++ (data ++ List.replicate 32 0).take 32
    let s1 := (s.memWriteBytes (s.own (base + idx % size * 64)) entry).setCreg (b + 12) ((idx + 1) % 2 ^ 32)
    if bit cfg 5 && used == 0 then s1.signalAgent part (bits cfg 26 16) .eventIrq else s1
  else
    let lost := Nat.min 0xFFFF (s.field (b + 20) 31 16 + 1)
    s.setCreg (b + 20) (lost * 2 ^ 16 + 1)

/-- The bytes of the audit head register (R427). -/
def State.auditHead (s : State) : List Byte :=
  (List.range 12).flatMap fun i => bytesOf 4 (s.creg (audHead + 4 * i))

/-- Adds an entry to the audit log (R427): sequence and time are the engine's, and the head absorbs the entry. After a failed boot the
engine is not active (R422). -/
def State.auditPush (s : State) (body : List Byte) : State :=
  if s.halted then s else
  let entry := bytesOf 8 s.audit.length ++ bytesOf 8 s.ptimeNs.toNat ++ (body ++ List.replicate 48 0).take 48
  let h := (Config.sha384 (s.auditHead ++ entry)).toNat
  let s1 := { s with audit := s.audit ++ [entry] }
  (List.range 12).foldl (fun s i => s.setCreg (audHead + 4 * i) (h / 2 ^ (32 * i) % 2 ^ 32)) s1

/-- The log engine appends the head, signed with the identity key (R427). An entry has 44 bytes of data and the spec gives the signed
head no layout: the model's entry holds the first 44 bytes of the signature, a function of the head (DESIGN CHOICE, log 7). -/
def State.auditHeadSign (s : State) : State :=
  let head := BitVec.ofNat 384 (bytesVal s.auditHead)
  { s.auditPush (bytesOf 2 5 ++ bytesOf 2 0 ++ bytesOf 44 (Config.signHead head).toNat) with auditSigned := s.cyc.toNat }

/-- Appends an entry to the audit log; every 65,536 entries the engine appends the signed head (R427). -/
def State.auditAppend (s : State) (body : List Byte) : State :=
  let s1 := s.auditPush body
  if s1.audit.length % 65536 = 0 then s1.auditHeadSign else s1

/-- Enters a refused access in the audit log (R31, R32, R404): event type, context and an address. The type numbers
are the model's (log 7). -/
def State.auditEvent (s : State) (type ctx v : Nat) : State :=
  s.auditAppend (bytesOf 2 type ++ bytesOf 2 ctx ++ bytesOf 44 v)

/-- A refusal by the connection matrix of the own package is entered in its audit log; one by a home package's is in that package's
log (R32): `t` is the translation as the requester's own package decides it. -/
def State.auditTr (s : State) (t : Tr) (ctx va : Nat) : State := if t = .prot 6 then s.auditEvent 1 ctx va else s

/-! ### The end of a launch (R108, R193, R196, R393) -/

/-- Frees the mixing engine of a core if the workgroup owns it (R373). -/
def State.freeEngine (s : State) (k : Nat) : State :=
  s.updCore (s.wg k).core fun c => if c.engine = some k then { c with engine := none } else c

/-- A workgroup stops issuing and begins to end (R108). -/
def State.endWg (s : State) (k : Nat) : State :=
  let s1 := s.freeEngine k
  let s2 := s1.updWg k fun g =>
    { g with status := if g.status = .resident then .ending else .exited, held := [],
             svstat := g.svstat &&& ~~~ 1, mixing := none,
             warps := g.warps.map fun p =>
               (p.1, { p.2 with pendTraps := [], second := 0,
                                lanes := p.2.lanes.map fun q => (q.1, { q.2 with exited := true, wait := none }) }) }
  { s2 with matOps := s2.matOps.filter fun m => SMap.get 0 s2.matWg m.id != k
            matWg := s2.matWg.filter fun p => p.2 != k
            sfus := s2.sfus.filter fun x => x.wg != k }

/-- The workgroups of a launch that State holds. -/
def State.wgsOf (s : State) (l : Nat) : List Nat := s.wgs.keys.filter fun k => keyLaunch k == l

/-- Whether a launch has ended (R193, R381): none of its workgroups runs, and all have ended, or none further is
dispatched. -/
def State.launchOver (s : State) (l : Nat) : Bool :=
  let x := s.launch l
  let busy := (s.wgsOf l).any fun k => (s.wg k).status ∈ [WgStatus.resident, .ending, .saved, .discarded]
  !busy && (x.ending || x.ended == x.packet.nx * x.packet.ny * x.packet.nz)

/-- With no launch left, no former content of a word can be fetched (R170). -/
def State.forgetWords (s : State) : State :=
  if s.launches.all fun l => l.2.finished then { s with former := [], stale := [] } else s

/-- Marks a launch over once it is. -/
def State.settleLaunch (s : State) (l : Nat) : State :=
  if s.launchOver l then (s.updLaunch l fun x => { x with finished := true }).forgetWords else s

/-- The key under which a network barrier of a group lies (R331): scope in bits 1:0 with pod 3. -/
def podBarKey (ctx group x : Nat) : Nat := ((ctx * 64 + group) * 4 + x) * 4 + 3

/-- The key of a collective group of a context. -/
def groupKey (ctx n : Nat) : Nat := ctx * 64 + n
/-- The key of an instance of a group, for its members of a creation or change `gen`. -/
def occKey (ctx n gen k : Nat) : Nat := (k * 2 ^ 64 + gen % 2 ^ 64) * 2 ^ 22 + groupKey ctx n
/-- The group of an instance. -/
def occGroup (key : Nat) : Nat := key % 2 ^ 22
/-- The context of an instance. -/
def occCtx (key : Nat) : Nat := occGroup key / 64
/-- The number of an instance. -/
def occNum (key : Nat) : Nat := key / 2 ^ 86

/-- VQTAIL. -/
def State.vqTail (s : State) (v : Nat) : Nat := s.creg (doorbell v)
/-- VQHEAD. -/
def State.vqHead (s : State) (v : Nat) : Nat := s.creg (doorbell v + 4)
/-- VQSTAT.STATE. -/
def State.vqState (s : State) (v : Nat) : Nat := s.field (doorbell v + 8) 2 0
/-- Sets VQSTAT.STATE and REFUSE. -/
def State.setVq (s : State) (v st refuse : Nat) : State := (s.setField (doorbell v + 8) 2 0 st).setField (doorbell v + 8) 11 8 refuse

/-- The hardware slot to which a queue is bound. -/
def State.slotOf (s : State) (v : Nat) : Option Nat :=
  (List.range 48).find? fun q => bit (s.creg (queueSlot q + 12)) 31 && s.field (queueSlot q + 8) 31 20 == v

/-- The launches of a queue, oldest first. -/
def State.launchesOf (s : State) (v : Nat) : List Nat := (s.launches.filter fun p => p.2.vq == v).map (·.1)

/-- A launch has nothing more to dispatch. -/
def Launch.dispatched (x : Launch) : Bool :=
  x.ending || x.finished || (x.returned.isEmpty && x.packet.nx * x.packet.ny * x.packet.nz ≤ x.nextWg)

/-- A saved workgroup of a queue waits for a core that meets its restore capacity (R378, R402; log 55). -/
def State.waitsRestore (s : State) (v : Nat) : Bool :=
  s.wgs.any fun g => g.2.status == .saved && g.2.refused && (s.launch (keyLaunch g.1)).vq == v

/-- VQSTAT after an event: cancelling until every launch has ended; a refused packet halts, and a context that waits for restore capacity
waits; else by binding and work (R376, R378, R402). -/
def State.vqRefresh (s : State) (v : Nat) : State :=
  let ls := s.launchesOf v
  let s1 := s.setField (doorbell v + 8) 3 3 (b2n (s.slotOf v).isSome)
  if s.vqState v = 5 ∧ ls.any fun l => !(s.launch l).finished then s1
  else if s.vqState v = 4 then s1
  else
    let work := s.vqHead v != s.vqTail v || ls.any fun l => !(s.launch l).dispatched
    s1.setVq v (if s.waitsRestore v then 3 else if !work then 0 else if (s.slotOf v).isSome then 1 else 2) 0

/-- Ends a launch under R108: its workgroups end and the workgroups not yet dispatched never are. -/
def State.endLaunch (s : State) (l : Nat) : State :=
  let s1 := (s.wgsOf l).foldl (fun s k =>
    if (s.wg k).status = .exited ∨ (s.wg k).status = .ending then s else s.endWg k) s
  ((s1.updLaunch l fun x => { x with ending := true }).settleLaunch l).vqRefresh (s.launch l).vq

/-- The fault record of R393 and its entry in the event log. `why`: the bits at offset 0x34. -/
def State.faultRecord (s : State) (k w : Nat) (why : Nat) : State :=
  let ctx := s.ctxNo k
  let x := s.warp k w
  let p := s.packet k
  let low := (lanesOf x.fltmask).headD 0
  let rec64 := bytesOf 4 x.trapc.toNat ++ bytesOf 4 p.tag.toNat ++ bytesOf 4 (keyWgid k) ++ bytesOf 4 (w + low * 256)
    ++ bytesOf 8 x.trappc.toNat ++ bytesOf 16 x.trapva.toNat ++ bytesOf 8 x.fltmask.toNat
    ++ bytesOf 4 (s.launch (keyLaunch k)).vq ++ bytesOf 4 why ++ bytesOf 8 s.ptimeNs.toNat
  let root := s.own (s.ctx ctx).root
  let idx := s.memRead (root + 0x428) 4
  let va := s.memRead (root + 0x400) 2 * 2 ^ 64 + (s.memRead (root + 0x420) 8 + idx % 16 * 64) % 2 ^ 64
  let port := quadOf (s.wg k).core
  let s1 := match s.deviceVa port ctx va .write with
    | .ok g _ => (s.memWriteBytes g rec64).memWrite (root + 0x428) 4 ((idx + 1) % 2 ^ 32)
    | _ => s.auditTr (s.deviceTr port ctx va .write).1 ctx va
  (s1.logEvent p.part 5 ctx (s.launch (keyLaunch k)).vq (keyWgid k) (rec64.take 32)).signal (.launchEnded ctx)

/-! ### Traps (R389 to R392) -/

/-- `eret` resumes after the cause (R392). -/
def resumableCause (c : Nat) : Bool := c == 8 || c == 10 || c == 11 || c == 13 || c == 14

/-- The TRAPC word (R391). -/
def Trap.word (t : Trap) : Word :=
  BitVec.ofNat 32 (t.cause + (if resumableCause t.cause then 256 else 0) + t.detail * 4096)

/-- ORs flags into FSTAT (R219, R220). -/
def Warp.orFlags (w : Warp) (fl : Nat) : Warp := { w with fstat := w.fstat ||| BitVec.ofNat 32 (fl % 128) }

/-- Writes a special-function result (R296): its lanes' destinations, its flags, and SFC falls. -/
def State.writeSfu (s : State) (x : Sfu) : State :=
  let s1 := s.updWarp x.wg x.warp fun w =>
    let w1 := x.lanes.foldl (fun w l => w.setRegIn x.handler x.d l (SMap.get 0 x.values l)) w
    { w1.orFlags x.flags with sfc := w.sfc - 1 }
  { s1 with sfus := s1.sfus.filter fun y => y.id != x.id }

/-- Waits until SFC is zero (R389, R220, R269): the warp's outstanding results are written, oldest first. -/
def State.drainSfu (s : State) (k w : Nat) : State :=
  (s.sfus.filter fun x => x.wg == k && x.warp == w).foldl (fun s x => s.writeSfu x) s

/-- Restores every unexited thread's PC and wait from the frozen state (R265, R392). A FLTMASK lane of a resumable cause
resumes where R392 says: `skip` is the length of the trapping instruction where it resumes after it. -/
def Warp.unfreeze (w : Warp) : Warp :=
  let cause := w.trapc.toNat % 32
  let skip : Nat := if cause = 10 || cause = 13 then 8 else if cause = 14 then 12 else 0
  let w1 := w.updLanes w.unexited fun l x =>
    if w.fltmask.getLsbD l then
      { x with pc := w.trappc + BitVec.ofNat 64 skip, wait := if cause = 11 then x.frozenWait else none, frozenWait := none }
    else { x with pc := x.frozenPc, wait := x.frozenWait, frozenWait := none }
  { w1 with handler := false }

/-- Increments TRAPSTAT[cause], saturating, in the root block (R389, R393). -/
def State.trapStat (s : State) (ctx cause : Nat) : State :=
  let a := s.own ((s.ctx ctx).root + 0x440 + 4 * cause)
  s.memWrite a 4 (Nat.min 0xFFFFFFFF (s.memRead a 4 + 1))

/-- TRAPVEC of a context (R393). -/
def State.trapVec (s : State) (ctx : Nat) : DWord := BitVec.ofNat 64 (s.memRead (s.own ((s.ctx ctx).root + 0x418)) 8)

/-- Freezes the divergence state and writes the trap registers (R389, R391). Lost stores are reported by the DATA_ERR that their
threads take for them (R406). -/
def Warp.freeze (w : Warp) (t : Trap) : Warp :=
  let w1 := w.updLanes w.unexited fun l x =>
    { x with frozenPc := if t.mask.getLsbD l then t.pc else x.pc, frozenWait := x.wait }
  { w1 with trapc := t.word, trappc := t.pc, trapva := t.va, fltmask := t.mask, second := 0,
            lost := if t.lost then w1.lost.filter fun x => !t.mask.getLsbD x.1 else w1.lost,
            perf := if t.cause = 10 then SMap.upd 0 w1.perf 6 (· + 1) else w1.perf }

/-- Sends every unexited thread to the handler (R389). -/
def Warp.enterHandler (w : Warp) (vec : DWord) : Warp :=
  let w1 := w.updLanes w.unexited fun _ x => { x with pc := vec, wait := none, held := false }
  { w1 with handler := true }

/-- The default action of R391 for a resumable cause: resumed at once; PROMISE_MISS first waits for the phase of its
barrier, whose number and phase count TRAPVA and the waiting lanes give (R126). -/
def Warp.defaultResume (w : Warp) (t : Trap) : Warp :=
  if t.cause = 10 then
    w.updLanes w.unexited fun l x =>
      if t.mask.getLsbD l then
        match x.wait with
        | some { what := .promise b n _, len } => { x with wait := some { what := .miss b n, len } }
        | _ => x
      else x
  else
    let h := w.handler
    { w.unfreeze with handler := h }

/-- A trap of a warp (R389): its special-function results are written first, then the divergence state is frozen, the
trap registers and TRAPSTAT are written, and the warp enters the handler, takes the default action, or, already in
handler mode, ends its launch. -/
def State.takeTrap (s : State) (k w : Nat) (t : Trap) : State :=
  let ctx := s.ctxNo k
  let s1 := ((s.drainSfu k w).updWarp k w fun x => x.freeze t).trapStat ctx t.cause
  if (s1.warp k w).handler then (s1.faultRecord k w 1).endLaunch (keyLaunch k)
  else if s1.trapVec ctx = 0 then
    if resumableCause t.cause then s1.updWarp k w fun x => x.defaultResume t
    else (s1.faultRecord k w 8).endLaunch (keyLaunch k)
  else s1.updWarp k w fun x => x.enterHandler (s1.trapVec ctx)

/-- The return from a handler (R265, R392): a cause that is not resumable ends the launch while a lane of FLTMASK is
unexited. -/
def State.returnTrap (s : State) (k w : Nat) : State :=
  let x := s.warp k w
  if !bit x.trapc.toNat 8 && x.unexited.any fun l => x.fltmask.getLsbD l then
    (s.faultRecord k w 2).endLaunch (keyLaunch k)
  else s.updWarp k w fun y => y.unfreeze

/-- Two traps of a warp are marked together: those of one cancel, wherever its lanes stand, and no others that a cancel raised (R57); else
one cause at one instruction. -/
def Trap.joins (t u : Trap) : Bool :=
  t.cause == u.cause && t.cancel == u.cancel && (t.pc == u.pc || t.cancel != 0)

/-- One trap of the lanes of two: the instruction and the address are those of the lowest lane. -/
def Trap.merge (u t : Trap) : Trap :=
  let low := if (lanesOf u.mask).headD 64 ≤ (lanesOf t.mask).headD 64 then u else t
  { low with mask := u.mask ||| t.mask }

/-- A trap that reaches a warp later (R57, R306): it is kept until TRAP_ENTRY takes it, with the lanes that are marked together. -/
def Warp.addTrap (w : Warp) (t : Trap) : Warp :=
  if w.pendTraps.any t.joins then
    { w with pendTraps := w.pendTraps.map fun u => if t.joins u then u.merge t else u }
  else { w with pendTraps := w.pendTraps ++ [t] }

/-- Records a trap for later entry. -/
def State.addTrap (s : State) (k w : Nat) (t : Trap) : State := s.updWarp k w fun x => x.addTrap t

/-- WATCHDOG (R195, R196, R393) of the issuing group: it ends the launch, with the record of the threads whose yield distance is
used up. It is counted in TRAPSTAT (log 8). -/
def State.watchdogEnd (s : State) : State :=
  let out := s.group.filter fun l => (s.curW.lane l).ydist == 0
  let s1 := (s.updCur fun x =>
    { x with trapc := 12, trappc := s.curPc, trapva := 0, fltmask := maskOf out }).trapStat (s.ctxNo s.curWg) 12
  (s1.faultRecord s.curWg s.curWarp 4).endLaunch (keyLaunch s.curWg)

/-! ### What a memory instruction does -/

/-- Space (0 `.g`, 1 `.s`, 2 `.c`, 3 `.w`), bytes per lane, kind of access, scope and order of a memory instruction
(R308, R311, R312, R315). -/
structure MemInfo where
  space : Nat := 0
  size : Nat := 4
  acc : Access := .read
  atomic : Bool := false
  scope : Nat := 0
  acq : Bool := false
  rel : Bool := false
  ord : Bool := false
deriving DecidableEq, Repr

/-- The size that the width field of `ld` and `st` gives (R308). -/
def widthBytes (w : Nat) : Nat :=
  match w with
  | 0 => 4 | 1 => 8 | 2 => 16 | 3 => 1 | 4 => 1 | 5 => 2 | _ => 2

/-- Bytes per lane of a copy (R324). -/
def copySize (f : Fields) : Nat :=
  match f.modN / 4 % 4 with
  | 0 => 4 | 1 => 8 | _ => 16

/-- An atomic's common part (R315). -/
def atomInfo (f : Fields) (acc : Access) : MemInfo :=
  { space := if f.mbit 3 then 1 else 0, size := if f.mbit 2 then 8 else 4, acc, atomic := true, scope := f.scope.toNat,
    acq := f.mbit 0, rel := f.mbit 1 }

/-- The description of a memory instruction. -/
def memOf : Instr → MemInfo
  | .ld f => { space := f.mod2, size := widthBytes f.modHi, scope := f.scope.toNat, acq := f.scope != 0 }
  | .st f => { space := f.mod2, size := widthBytes f.modHi, acc := .write, scope := f.scope.toNat,
               rel := f.scope != 0 && f.d == 0, ord := f.d == 1 }
  | .ldi f => { space := f.mod2 }
  | .ldfe _ => { space := 1 }
  | .stfe _ => { space := 1, acc := .write }
  | .atom f | .cas f => atomInfo f .update
  | .red f => atomInfo f .write
  | _ => {}

/-- The arrival of the instruction is a release (R133, R139, R157, R166, R262, R367), an `svend` only in an open region (R368). -/
def gatherReleases (i : Instr) (region : Bool) : Bool :=
  match i with
  | .wsync _ | .barArr _ | .barSync _ | .bargArr _ | .bargSync _ | .rgive _ | .rfree _ | .solve _ => true
  | .svend _ => region
  | _ => false

/-- A memory instruction that is a release (R73, R151, R314). -/
def releases : Instr → Bool
  | .stfe _ => true
  | i => (memOf i).rel

/-- The instruction waits for earlier stores of its thread: a fence but `fence.opr`, or a release (R113, R151, R152, R154). -/
def waitsForStores (i : Instr) (region : Bool) : Bool :=
  match i with
  | .fence _ | .fenceAck _ | .coll _ => true
  | .qpollSend f => f.modHi != 0
  | i => gatherReleases i region || releases i

/-- Stores that failed paths lost meet a thread that waits for them: DATA_ERR of those threads at the instruction, TRAPVA the lowest
one's store (R406). -/
def State.lostTrap (s : State) (i : Instr) (acts : List Nat) : Option Trap :=
  if !waitsForStores i (s.curG.svstat.getLsbD 0) then none
  else
    let ls := acts.filter fun l => s.curW.lost.any fun x => x.1 == l
    match ls with
    | [] => none
    | l :: _ => some { cause := 9, pc := s.curPc, mask := maskOf ls, lost := true
                       va := BitVec.ofNat 80 (((s.curW.lost.find? fun x => x.1 == l).map (·.2)).getD 0) }

/-! ### Checks at issue (R62, R76, R127, R138, R188, R236, R266) -/

/-- Every register and object that an instruction names is declared, and its escort lies in the travel registers, among which no
handler row is (R62, R76, R91, R127, R138, R390). -/
def declaredOk (i : Instr) (f : Fields) (p : Packet) (handler : Bool) : Bool :=
  let n := i.named f
  i.regs.all (fun r => r < p.home + p.travel || (handler && 248 ≤ r && r ≤ 254))
    && (f.escCount == 0 || (p.home ≤ f.escBase && f.escBase + f.escCount ≤ p.home + p.travel
      && !(handler && 248 < f.escBase + f.escCount)))
    && n.bars.all (· < p.nbar) && n.rings.all (· < p.nring) && n.tiles.all (· < p.nacc)
    && n.wbs.all (· < p.nwb) && n.hists.all (· < p.nhist)

/-- The checks of R236 that follow decoding, in its order: encoding and declarations, role, privilege; then lost stores (R406). `eret` outside a
handler is ILLEGAL (R265). ILLEGAL marks every thread of the group, ROLE and PRIV those whose guards are true. -/
def precheck (i : Instr) (s : State) : Option Trap :=
  let f := i.fields
  let p := s.packet s.curWg
  let acts := s.trueLanes f
  let noHandler := match i with
    | .eret _ => !s.curW.handler
    | _ => false
  if !i.shapeOk || !declaredOk i f p s.curW.handler || noHandler then
    some { cause := 1, pc := s.curPc, mask := s.curMask }
  else if acts.isEmpty then none
  else if !i.roleOk (p.role s.curWarp).1 then some { cause := 4, pc := s.curPc, mask := maskOf acts }
  else if i.privileged && !s.ctxPriv (s.ctxNo s.curWg) then some { cause := 3, pc := s.curPc, mask := maskOf acts }
  else s.lostTrap i acts

/-! ### Accesses that are not performed yet -/

/-- What the request's instruction does to memory. -/
def Req.mi (r : Req) : MemInfo := memOf r.insn

/-- Bytes per lane: `ldi` reads a 4-byte index, then the element. -/
def Req.size (r : Req) : Nat :=
  match r.insn with
  | .ldi f => if r.hop2 && f.mbit 2 then 8 else 4
  | i => (memOf i).size

/-- The single-copy-atomic pieces of a lane's access, by offset and size: two of 8 bytes for 16 bytes of the host window (R141). -/
def Req.pieces (r : Req) : List (Nat × Nat) :=
  if r.size = 16 && inHost (r.pa % pkgSpan) then [(0, 8), (8, 8)] else [(0, r.size)]

/-- A lane's access is performed. -/
def Req.didSlot (r : Req) (x : Slot) : Bool := r.phase == .performed || r.pieces.length ≤ x.did.length

/-- A request of a lane, of an instruction numbered below a bound, whose access for the lane is not performed. -/
def Req.awaits (r : Req) (who : Nat × Nat) (lane bound : Nat) : Bool :=
  (r.wg, r.warp) == who && !r.fetch && r.group < bound && r.slots.any fun x => x.lane == lane && !r.didSlot x

/-- The requests of a workgroup that a save has recorded (R104): they are not performed, or their replies are not written. -/
def Workgroup.recReqs (g : Workgroup) : List Req := g.recs.filterMap fun (x : Req ⊕ Xfer) => match x with
  | .inl r => some r
  | .inr _ => none

/-- A write is visible in the unit of a core at a scope, or, at scope 0, to the threads of a warp (R143, R262). -/
def Late.reaches (t : Late) (core : Nat) (who : Nat × Nat) (scope : Nat) : Bool :=
  if scope = 0 then t.sees core who else t.shownIn core scope

/-- What precedes a performed write in its thread has been performed, also where a save has recorded it, and has reached a scope; so have
the other writes that it comes after. -/
def State.chainDone (s : State) (t : Chain) (core : Nat) (who : Nat × Nat) (scope : Nat) : Bool :=
  !((s.reqs ++ (s.wg t.owner.1).recReqs).any fun r => r.awaits t.owner t.lane t.bound)
    && s.late.all fun u => !(t.lates.contains u.id || u.madeBy t.owner t.lane t.bound) || u.reaches core who scope

/-- What a release of a thread at a scope passes on has reached that scope: the thread's own writes, by instructions numbered below
`bound`; what it has read, with what that comes after; and the writes that its accesses come after (R149, R151, R152; log 85). -/
def State.shownAt (s : State) (core : Nat) (who : Nat × Nat) (lane bound scope : Nat) : Bool :=
  (s.late.all fun t => !t.madeBy who lane bound || t.reaches core who scope)
    && s.chains.all fun t => (!t.readers.contains (who.1, who.2, lane) || s.chainDone t core who scope)
      && (!t.firm.contains (who.1, who.2, lane) || s.late.all fun u => !t.lates.contains u.id || u.reaches core who scope)

/-- The number of the next write that not every thread sees: none that something still names. -/
def State.lateId (s : State) : Nat :=
  let copies := s.copies ++ s.wgs.flatMap fun (p : Nat × Workgroup) => p.2.recCopies
  let named := (s.chains ++ copies.flatMap (·.after)).map (·.lates)
  named.foldl (fun n l => l.foldl Nat.max n) (s.late.foldl (fun n t => Nat.max n t.id) 0) + 1

/-- What is done is no longer noted. -/
def State.dropChains (s : State) : State := { s with chains := s.chains.filter fun t => !s.chainDone t 0 (0, 64) 6 }

/-- The noted writes that a release of some lanes of a warp now passes on (R121, R149). -/
def State.passed (s : State) (k w : Nat) (ls : List Nat) : List Chain :=
  s.chains.filter fun t => ls.any fun l => t.readers.contains (k, w, l) || t.firm.contains (k, w, l)

/-- The numbers of the writes that a thread's accesses come after and that not every thread sees, but for its own (R149). -/
def State.firmLates (s : State) (who : Nat × Nat) (lane : Nat) : List Nat :=
  (s.chains.filter fun t => t.firm.contains (who.1, who.2, lane)).flatMap fun t => t.lates

/-- A lane's write has been performed, after which `s` stands, while its thread has earlier accesses to perform, or it comes after writes
that not every thread sees, or is such a write itself (`was`: the state before it): that is noted for the threads that read it (R149;
log 85). -/
def State.noteChain (s was : State) (place : Option Nat) (a n : Nat) (who : Nat × Nat) (lane bound : Nat) (after : List Nat) : State :=
  let own := ((s.late.filter fun t => !was.late.any fun u => u.id == t.id).map (·.id)).headD 0
  let lates := (after.filter fun n => s.late.any fun t => t.id == n) ++ if own = 0 then [] else [own]
  if lates.isEmpty && !(s.late.any fun t => t.madeBy who lane bound) && !(s.reqs.any fun r => r.awaits who lane bound) then s
  else
    let s1 := s.dropChains
    { s1 with chains := s1.chains ++ [{ place, at_ := a, size := n, owner := who, lane, own, bound, lates }] }

/-- The threads of a core do not see a noted write at an address, nor a later one there. -/
def State.chainHidden (s : State) (t : Chain) (core : Nat) (who : Nat × Nat) (a n : Nat) : Bool :=
  t.own != 0 && (s.late.any fun u => u.id == t.own) && s.late.all fun u => u.id < t.own || !u.sees core who
    || !((List.range n).any fun i => (u.old t.place (a + i)).isSome)

/-- A thread reads a range: it has read the writes to it that it sees (R149, edge 3). -/
def State.readChain (s : State) (place : Option Nat) (core : Nat) (who : Nat × Nat) (lane a n : Nat) : State :=
  { s with chains := s.chains.map fun (t : Chain) =>
      if t.place = place && overlap t.at_ t.size a n && !s.chainHidden t core who a n then
        { t with readers := (who.1, who.2, lane) :: t.readers }
      else t }

/-- Threads come to a release or acquire point: their further accesses come after what they have read before, and after what an acquire
brings them, of which the model takes every write that their core sees (R149; log 85). -/
def State.syncs (s : State) (k w : Nat) (ls : List Nat) (acquires : Bool) : State :=
  let core := (s.wg k).core
  { s with chains := s.chains.map fun (t : Chain) =>
      let new := ls.filter fun l => !t.firm.contains (k, w, l) && (t.readers.contains (k, w, l)
        || (acquires && s.late.any fun u => u.id == t.own && u.sees core (k, w)))
      { t with firm := new.map (fun l => (k, w, l)) ++ t.firm } }

/-- The threads of a workgroup that moves to another core see there what they saw (R146, R191). -/
def State.moveSight (s : State) (k warps core core' : Nat) : State :=
  let ws := List.range warps
  { s with
    late := s.late.map fun (t : Late) => if ws.any fun w => t.sees core (k, w) then { t with seen := (1, core') :: t.seen } else t }

/-- A request of a lane that is not performed. -/
def State.unperformed (s : State) (k w l : Nat) : Bool :=
  s.reqs.any fun r => r.wg == k && r.warp == w && !r.fetch && r.slots.any fun x => x.lane == l && !r.didSlot x

/-- A thread has a release below a bound that is not performed: its later accesses come after what that passes on (R149). -/
def State.releasePends (s : State) (k w l bound : Nat) : Bool :=
  s.reqs.any fun r => r.mi.rel && r.awaits (k, w) l bound

/-- An access of a thread, numbered `bound`, may be performed beside an earlier release of it that is not: what the release passes on is
performed, and visible on the core (R149, R150). -/
def State.pastRelease (s : State) (core : Nat) (who : Nat × Nat) (l bound : Nat) : Bool :=
  !s.releasePends who.1 who.2 l bound || s.shownAt core who l bound 1

/-- Every earlier access of some lanes is performed, and what their release passes on has reached a scope: at scope 0 the threads of
their warp (R151, R262). -/
def State.released (s : State) (k w : Nat) (ls : List Nat) (scope : Nat) : Bool :=
  (ls.all fun l => !s.unperformed k w l) && ls.all fun l => s.shownAt (s.wg k).core (k, w) l (s.tag + 1) scope

/-- An earlier access of a lane, in scratch or through the window of its own workgroup, to bytes of its scratch is not performed
(R146). -/
def State.scratchBusy (s : State) (k w l a n : Nat) : Bool :=
  s.reqs.any fun r => r.wg == k && r.warp == w && !r.fetch && r.slots.any fun x => x.lane == l && !r.didSlot x &&
    ((r.phase == .scratch && overlap x.addr r.size a n)
      || (r.phase == .window && bits x.addr 63 28 == keyWgid k * 16 + 1 && overlap (bits x.addr 27 0) r.size a n))

/-- A scratch access comes to bytes that an earlier access of its thread has still to be performed on, or after a release that passes on
what has not come to its core (R146, R149). -/
def State.scratchHeld (s : State) (i : Instr) : Bool :=
  let f := i.fields
  let m := memOf i
  m.space == 1 && (s.trueLanes f).any fun l =>
    !s.pastRelease s.curG.core (s.curWg, s.curWarp) l s.tag || s.scratchBusy s.curWg s.curWarp l ((s.curW.pair f.a.toNat l + f.disp).toNat % 2 ^ 32) m.size

/-- The issuing warp can issue: its workgroup is resident and the group has an unexited lane. -/
def State.canIssue (s : State) : Bool :=
  s.curG.status = .resident && !s.group.isEmpty && s.group.all fun l => !(s.curW.lane l).exited

/-- The group's first lane whose yield distance is used up (R195). -/
def State.spent (s : State) : Option Nat := s.group.find? fun l => (s.curW.lane l).ydist == 0

/-- A number above that of every warp's last issue: the order of issues, by which the least recent is told (R386). -/
def State.nextTurn (s : State) : Nat := s.wgs.foldl (fun n g => g.2.warps.foldl (fun n w => Nat.max n w.2.lastIssue) n) 0 + 1

/-- The charge of one issue: yield distance and ISSUED (R195, R271), and the scheduler's marks (R386). An instruction that takes a
precise trap at issue, or whose fetch fails, is charged too, before the trap (log 84). -/
def State.charge (s : State) (f : Fields) : State :=
  s.updCur fun w =>
    { w.updLanes s.group fun _ x => { x with ydist := x.ydist - 1, held := false } with
      perf := SMap.upd 0 w.perf 0 (· + 1), lastIssue := s.nextTurn, swapped := f.swap }

/-- The instruction waits at issue: it would take a class counter past 63 (R190), or it reads or writes FSTAT while SFC
is not zero (R220, R268, R269), or it is a release in scratch whose thread's earlier accesses are not performed (R151), or comes to
scratch before an earlier access of its thread to the same bytes (R146). -/
def heldAtIssue (i : Instr) (s : State) : Bool :=
  let w := s.curW
  match i with
  | .ld f | .ldi f | .ldfe f => !(s.trueLanes f).isEmpty && (63 ≤ w.ldc || s.scratchHeld i)
  | .atom f | .cas f => !(s.trueLanes f).isEmpty
      && (63 ≤ w.ldc || s.scratchHeld i || (f.mbit 3 && f.mbit 1 && !s.released s.curWg s.curWarp (s.trueLanes f) 1))
  | .st f => !(s.trueLanes f).isEmpty && (63 ≤ w.stc || s.scratchHeld i)
  | .red f => !(s.trueLanes f).isEmpty
      && (63 ≤ w.stc || s.scratchHeld i || (f.mbit 3 && f.mbit 1 && !s.released s.curWg s.curWarp (s.trueLanes f) 1))
  | .stfe f => !(s.trueLanes f).isEmpty && (63 ≤ w.stc || s.scratchHeld i || !s.released s.curWg s.curWarp (s.trueLanes f) 1)
  | .rcp f | .rsq f | .sqrt f | .ex2 f | .lg2 f | .exp f | .sinpi f | .cospi f | .tanh f =>
    !(s.trueLanes f).isEmpty && 63 ≤ w.sfc
  | .movs f => !(s.trueLanes f).isEmpty && f.a == 9 && w.sfc != 0
  | .movsw f => !(s.trueLanes f).isEmpty && f.d == 9 && w.sfc != 0
  | _ => false

/-- The issue of an instruction by the group (R184, R190, R195, R236, R237): an instruction that passes its
checks and waits at issue, `held`, is not charged; else WATCHDOG comes first; a failing check is a precise trap; otherwise the
instruction's own effect `k`. -/
def issueHeld (i : Instr) (held : Bool) (s : State) (k : State → State) : Host.Outcome State Fault Refusal :=
  if s.canIssue then
    if held && (precheck i s).isNone then .next (s.waitLanes s.group (.atIssue i) i.fields.len)
    else
      match s.spent with
      | some _ => .next s.watchdogEnd
      | none =>
        match precheck i s with
        | some t => .next ((s.charge i.fields).takeTrap s.curWg s.curWarp t)
        | none => .next (k (s.charge i.fields))
  else .refused .noThread

/-- The issue of an instruction that waits at issue only as `heldAtIssue` says. -/
def issue (i : Instr) (s : State) (k : State → State) : Host.Outcome State Fault Refusal :=
  issueHeld i (heldAtIssue i s) s k

/-- An event that the state must enable. -/
def event (name : String) (ok : Bool) (s : State) : Host.Outcome State Fault Refusal :=
  if ok then .next s else .refused (.notEnabled name)

/-- A precise trap of the issuing warp. -/
def State.trapHere (s : State) (t : Trap) : State := s.takeTrap s.curWg s.curWarp t

/-! ### Outstanding registers (R93, R229) -/

/-- The destination registers of an instruction (R308, R312, R315). -/
def destsOf : Instr → List Nat
  | .ld f => (if f.modHi = 1 then [f.d.toNat, f.d.toNat + 1]
              else if f.modHi = 2 then [f.d.toNat, f.d.toNat + 1, f.d.toNat + 2, f.d.toNat + 3] else [f.d.toNat])
  | .ldi f | .atom f | .cas f => if f.mbit 2 then [f.d.toNat, f.d.toNat + 1] else [f.d.toNat]
  | .ldfe f => [f.d.toNat]
  | _ => []

/-- The registers that a request's escort keeps abroad. -/
def Req.escorted (r : Req) : List Nat :=
  if r.noEsc then [] else (List.range r.escCount).map (r.escBase + ·)

/-- A number names the same register in handler mode `h` as in handler mode `g`: 248 to 254 are other rows there (R390). -/
def sameRow (h g : Bool) (r : Nat) : Bool := r < 248 || h == g

/-- The numbers by which the warp, in its mode, names the registers of a lane that requests and special-function results still hold
back; an escort is never of handler rows (R390). -/
def State.outstanding (s : State) (k w l : Nat) : List Nat :=
  let h := (s.warp k w).handler
  (s.reqs.filter fun r => r.wg == k && r.warp == w && !r.fetch && r.slots.any (·.lane == l)).flatMap
      (fun r => ((destsOf r.insn).filter (sameRow h r.handler) ++ r.escorted.filter (sameRow h false)).filter (· < 255))
    ++ ((s.sfus.filter fun x => x.wg == k && x.warp == w && x.lanes.contains l).map fun x => (x.d, x.handler)).filterMap
      fun x => if sameRow h x.2 x.1 then some x.1 else none

/-- A request keeps a register of a lane abroad. -/
def Req.keepsAbroad (x : Req) (w r l : Nat) : Bool :=
  x.warp == w && !x.fetch && x.slots.any (·.lane == l) && x.escorted.contains r

/-- A register of a lane is abroad (R93): with a request, or, until the save ends, in a record of the recall (R27, R104). -/
def State.abroad (s : State) (k w r l : Nat) : Bool :=
  (s.reqs.any fun x => x.wg == k && x.keepsAbroad w r l) || (s.wg k).recs.any fun x => match x with
    | .inl q => q.keepsAbroad w r l
    | .inr _ => false

end Sys2Proof.Machine
end

