-- ==== Sys2Proof/Machine/Operands.lean ====
section
/-! DEFINITION. Operand forms: general and uniform sources, the immediate as source B, pairs, and destination writes of
a PC group (R227 to R235, R247, R248, R276). -/

namespace Sys2Proof.Machine

/-- A 32-bit source: `s`N where its kind bit is set, else `g`N (R248). -/
def Warp.src (w : Warp) (uniform : Bool) (r : BitVec 8) (l : Nat) : Word :=
  if uniform then SMap.get 0 w.uni r.toNat else w.reg r.toNat l

/-- Source A. -/
def Warp.srcA (w : Warp) (f : Fields) (l : Nat) : Word := w.src (f.kinds.getLsbD 1) f.a l
/-- Source B: the immediate of the I form, else the register (R233, R247). -/
def Warp.srcB (w : Warp) (f : Fields) (l : Nat) : Word :=
  if f.isImm then f.immWord else w.src (f.kinds.getLsbD 2) f.b l
/-- Source C. -/
def Warp.srcC (w : Warp) (f : Fields) (l : Nat) : Word := w.src (f.kinds.getLsbD 3) f.c l
/-- Pair A. -/
def Warp.pairA (w : Warp) (f : Fields) (l : Nat) : DWord := w.pair f.a.toNat l
/-- Pair B: the I form's immediate is sign-extended (R253, R254). -/
def Warp.pairB (w : Warp) (f : Fields) (l : Nat) : DWord :=
  if f.isImm then f.immWord.signExtend 64 else w.pair f.b.toNat l
/-- Pair C. -/
def Warp.pairC (w : Warp) (f : Fields) (l : Nat) : DWord := w.pair f.c.toNat l
/-- FP64 source B: the 128-bit form's immediate is the upper half (R285). -/
def Warp.wideB (w : Warp) (f : Fields) (l : Nat) : DWord :=
  if f.isWide then f.immWord ++ (0 : Word) else w.pair f.b.toNat l

/-- Writes D in each of the lanes `ls`, or, with D's kind bit, `s`D once with the lowest lane's value (R248). The values
are those of `g`. -/
def Warp.putD (w : Warp) (f : Fields) (ls : List Nat) (g : Nat → Word) : Warp :=
  if f.kinds.getLsbD 0 then
    match ls with
    | [] => w
    | l :: _ => { w with uni := SMap.set 0 w.uni f.d.toNat (g l) }
  else ls.foldl (fun w l => w.setReg f.d.toNat l (g l)) w

/-- Writes pair D in each of the lanes. -/
def Warp.putPair (w : Warp) (f : Fields) (ls : List Nat) (g : Nat → DWord) : Warp :=
  ls.foldl (fun w l => w.setPair f.d.toNat l (g l)) w

/-- Writes predicate D in each of the lanes (R232: `pt` discards). -/
def Warp.putPred (w : Warp) (f : Fields) (ls : List Nat) (g : Nat → Bool) : Warp :=
  w.updLanes ls fun l x => x.setPred f.d.toNat (g l)

/-- Sign- or zero-extends a word to 64 bits: `zero` is U or `.zx`. -/
def extend64 (zero : Bool) (v : Word) : DWord := if zero then v.setWidth 64 else v.signExtend 64

/-- Issues a result per guard-true lane to D and moves the group on. -/
def State.writeD (s : State) (f : Fields) (g : Warp → Nat → Word) : State :=
  (s.updCur fun w => w.putD f (s.trueLanes f) (g w)).advance f.len

/-- Issues a pair result per guard-true lane. -/
def State.writePair (s : State) (f : Fields) (g : Warp → Nat → DWord) : State :=
  (s.updCur fun w => w.putPair f (s.trueLanes f) (g w)).advance f.len

/-- Issues a predicate result per guard-true lane. -/
def State.writePred (s : State) (f : Fields) (g : Warp → Nat → Bool) : State :=
  (s.updCur fun w => w.putPred f (s.trueLanes f) (g w)).advance f.len

end Sys2Proof.Machine
end

