-- ==== Sys2Proof/Machine/Flags.lean ====
section
/-! DEFINITION. FSTAT and SEED (R216 to R220): the flags that the guard-true lanes raise are ORed in when results are
written, and an instruction in mode SR advances SEED in them. -/

namespace Sys2Proof.Machine

/-- The OR of the flags that the lanes raise (R220). -/
def flagsOver (ls : List Nat) (g : Nat → Flags) : Flags := ls.foldl (fun a l => a ||| g l) 0

/-- ORs flags into the issuing warp's FSTAT (R220). -/
def State.raise (s : State) (fl : Flags) : State := s.updCur fun w => w.orFlags fl

/-- Advances SEED once in each of the lanes where the mode is SR (R218). -/
def Warp.advanceSeed (w : Warp) (sr : Bool) (ls : List Nat) : Warp :=
  if sr then w.updLanes ls fun _ x => { x with seed := seedAdvance x.seed } else w

/-- The rounding mode of a lane for element i (R212, R218). -/
def Warp.rm (w : Warp) (code l i : Nat) : Rm := rmOf code (w.lane l).seed i

/-- Issues a result with flags per guard-true lane. -/
def State.writeDFl (s : State) (f : Fields) (g : Warp → Nat → Word × Flags) : State :=
  (s.updCur fun w =>
    (w.putD f (s.trueLanes f) fun l => (g w l).1).orFlags (flagsOver (s.trueLanes f) fun l => (g w l).2)).advance f.len

/-- Issues a result with flags per guard-true lane in mode `code`; SEED advances under SR (R277). -/
def State.writeDRm (s : State) (f : Fields) (code : Nat) (g : Warp → Nat → Word × Flags) : State :=
  (s.updCur fun w =>
    ((w.putD f (s.trueLanes f) fun l => (g w l).1).orFlags
      (flagsOver (s.trueLanes f) fun l => (g w l).2)).advanceSeed (code == 4) (s.trueLanes f)).advance f.len

/-- Issues a pair result with flags per guard-true lane; SEED advances under SR. -/
def State.writePairRm (s : State) (f : Fields) (code : Nat) (g : Warp → Nat → DWord × Flags) : State :=
  (s.updCur fun w =>
    ((w.putPair f (s.trueLanes f) fun l => (g w l).1).orFlags
      (flagsOver (s.trueLanes f) fun l => (g w l).2)).advanceSeed (code == 4) (s.trueLanes f)).advance f.len

/-- Issues a predicate with flags per guard-true lane. -/
def State.writePredFl (s : State) (f : Fields) (g : Warp → Nat → Bool × Flags) : State :=
  (s.updCur fun w =>
    (w.putPred f (s.trueLanes f) fun l => (g w l).1).orFlags (flagsOver (s.trueLanes f) fun l => (g w l).2)).advance f.len

end Sys2Proof.Machine
end

