-- ==== Sys2Proof/Machine/Waits.lean ====
section
/-! DEFINITION. Waiting threads (R128, R151, R183): how a wait begins and ends, and the instructions that act once for
the whole warp when its last unexited thread has executed them. -/

namespace Sys2Proof.Machine

/-- Ends the waits of lanes: each moves past its instruction. -/
def Warp.finishLanes (w : Warp) (ls : List Nat) : Warp :=
  w.updLanes ls fun _ x =>
    match x.wait with
    | some t => { x with pc := x.pc + BitVec.ofNat 64 t.len, wait := none }
    | none => x

/-- Ends the waits of lanes of a warp. -/
def State.finishLanes (s : State) (k w : Nat) (ls : List Nat) : State := s.updWarp k w fun x => x.finishLanes ls

/-- Changes what lanes wait for. -/
def Warp.rewait (w : Warp) (ls : List Nat) (what : WaitFor) : Warp :=
  w.updLanes ls fun _ x =>
    match x.wait with
    | some t => { x with wait := some { t with what } }
    | none => x

/-- Changes what lanes of the issuing warp wait for. -/
def State.rewaitCur (s : State) (ls : List Nat) (what : WaitFor) : State := s.updCur fun x => x.rewait ls what

/-- Two instructions agree in everything but their guards and their scheduling fields. -/
def sameOperands (f g : Fields) : Bool :=
  f.d == g.d && f.a == g.a && f.b == g.b && f.c == g.c && f.mod == g.mod && f.ext == g.ext

/-- Two threads' instructions take effect together, at the same PC or at another one (R128, R262; log 64, DEDUCED): the same
operation on the same operands. Any two `solve`s gather, and the region takes the lead thread's (R367). -/
def sameGather (i j : Instr) : Bool :=
  match i, j with
  | .wsync _, .wsync _ => true
  | .solve _, .solve _ => true
  | .svend _, .svend _ => true
  | .eret _, .eret _ => true
  | .barArr f, .barArr g | .barSync f, .barSync g | .barWait f, .barWait g | .barExp f, .barExp g
  | .barInit f, .barInit g | .barRd f, .barRd g | .barRdClr f, .barRdClr g | .bargArr f, .bargArr g
  | .bargSync f, .bargSync g | .bargWait f, .bargWait g | .rgive f, .rgive g | .rtake f, .rtake g
  | .rfree f, .rfree g | .waitp f, .waitp g => sameOperands f g
  | _, _ => false

/-- The scope of a `barg`: the 64-bit form is `quad`. -/
def bargScope (f : Fields) : Nat := if f.ext = .none then 2 else f.scope.toNat

/-- The scope of that release: the core's, a network barrier's own, or only the warp's (R133, R157, R262). -/
def gatherScope (i : Instr) : Nat :=
  match i with
  | .wsync _ => 0
  | .bargArr f | .bargSync f => bargScope f
  | _ => 1

/-- Every unexited thread of the warp has executed the instruction, and the release it makes is complete (R128). -/
def State.gathered (s : State) (k w : Nat) (i : Instr) : Bool :=
  let x := s.warp k w
  let ls := x.unexited
  !ls.isEmpty &&
  (ls.all fun l =>
    match (x.lane l).wait with
    | some { what := .gather j _, .. } => sameGather i j
    | _ => false) &&
  (!gatherReleases i ((s.wg k).svstat.getLsbD 0) || s.released k w ls (gatherScope i))

/-- The threads of a gathered warp whose guards were true. -/
def Warp.gatherActs (w : Warp) : List Nat :=
  w.unexited.filter fun l =>
    match (w.lane l).wait with
    | some { what := .gather _ act, .. } => act
    | _ => false

/-- The group executes an instruction that takes effect once per warp: its threads wait, and if the warp is gathered the
effect happens now. The effect receives the threads whose guards were true; it ends or changes every thread's wait. -/
def State.gather (s : State) (i : Instr) (effect : List Nat → State → State) : State :=
  let f := i.fields
  let acts := s.trueLanes f
  let s1 := s.updCur fun w => w.updLanes s.group fun l x =>
    { x with wait := some { what := .gather i (acts.contains l), len := f.len } }
  if s1.gathered s1.curWg s1.curWarp i then effect s1.curW.gatherActs s1 else s1

/-- Every unexited thread of the issuing warp goes on. -/
def State.allGoOn (s : State) : State := s.finishLanes s.curWg s.curWarp s.curW.unexited

/-- Puts every unexited thread of the issuing warp into a wait. -/
def State.allWait (s : State) (what : WaitFor) : State := s.rewaitCur s.curW.unexited what

/-- Writes a value to D of lanes and ends their waits, with the warp's other unexited threads (R139, R329). -/
def State.giveAll (s : State) (d : Nat) (acts : List Nat) (v : Word) : State :=
  (s.updCur fun w => acts.foldl (fun w l => w.setReg d l v) w).allGoOn

/-- A phase bit differs from N after `n` completions (R125, R329): the number of completions to exceed so that PH, the
parity of completions, differs from N. -/
def phaseDiffers (phases : Nat) (n : Bool) : Bool := (phases % 2 == 1) != n

end Sys2Proof.Machine
end

