-- ==== Sys2Proof/Machine/Control.lean ====
section
/-! DEFINITION. Branches, exit, yield, the waits of a thread, software traps and `eret` (R185, R257 to R265). -/

namespace Sys2Proof.Machine

/-! ### Branches and the end of a thread -/

/-- Sends each guard-true thread to its target; the others go on (R257). -/
def State.branch (s : State) (f : Fields) (target : Warp → Nat → DWord) : State :=
  s.updCur fun w => w.updLanes s.group fun l x =>
    { x with pc := if (w.lane l).guardsTrue f then target w l else x.pc + BitVec.ofNat 64 f.len }

/-- R257. -/
def execBra (f : Fields) (s : State) : Host.Outcome State Fault Refusal :=
  issue (.bra f) s fun s => s.branch f fun w l => (w.lane l).pc + f.immWord.signExtend 64

/-- R257. -/
def execBrx (f : Fields) (s : State) : Host.Outcome State Fault Refusal :=
  issue (.brx f) s fun s => s.branch f fun w l => w.pairA f l

/-- R257: E[D] is the address of the instruction after the `call`. -/
def execCall (f : Fields) (s : State) : Host.Outcome State Fault Refusal :=
  issue (.call f) s fun s =>
    (s.updCur fun w => w.putPair f (s.trueLanes f) fun l => (w.lane l).pc + 12).branch f
      fun w l => (w.lane l).pc + f.immWord.signExtend 64

/-- R257. -/
def execRet (f : Fields) (s : State) : Host.Outcome State Fault Refusal :=
  issue (.ret f) s fun s => s.branch f fun w l => w.pairA f l

/-- Ends threads (R193, R258): what they wait for no longer matters. -/
def Warp.exitLanes (w : Warp) (ls : List Nat) : Warp :=
  w.updLanes ls fun _ x => { x with exited := true, wait := none, held := false }

/-- A workgroup whose threads have all exited ends its solve region, and the engine is free (R373). -/
def State.regionLeft (s : State) (k : Nat) : State :=
  if ((s.wg k).svstat.getLsbD 0 || (s.wg k).mixing.isSome) && (s.liveWarps k).isEmpty then
    (s.freeEngine k).updWg k fun g => { g with svstat := g.svstat &&& ~~~ 1, svArrived := 0, mixing := none }
  else s

/-- R258, R373. -/
def execExit (f : Fields) (s : State) : Host.Outcome State Fault Refusal :=
  issue (.exit f) s fun s => ((s.advance f.len).updCur fun w => w.exitLanes (s.trueLanes f)).regionLeft s.curWg

/-- R259, R195, R197: YDIST is set after the `yield`'s own decrement. A warp that is being saved stops there. -/
def execYield (f : Fields) (s : State) : Host.Outcome State Fault Refusal :=
  issue (.yield f) s fun s =>
    let ls := s.trueLanes f
    (s.updCur fun w =>
      let w1 := w.updLanes ls fun _ x => { x with ydist := 65536 }
      { w1 with dl := if ls.isEmpty then w.dl else some (15 - f.mod4), stopped := w1.stopped || s.saving s.curWg }).advance f.len

/-! ### Waits (R260 to R263) -/

/-- The cycles from now until CYC[31:0] reaches a value in the sense of R124; 0 if it has. -/
def cyclesUntil (now target : Nat) : Nat :=
  let k := (target + 2 ^ 32 - now % 2 ^ 32) % 2 ^ 32
  if 2 ^ 31 < k then 0 else k

/-- Each guard-true thread of the group waits for its number of cycles; the others go on (R260). -/
def State.sleepFor (s : State) (f : Fields) (cycles : Warp → Nat → Nat) : State :=
  let w := s.curW
  let sleepers := (s.trueLanes f).filter fun l => cycles w l != 0
  let s1 := s.updCur fun w => w.updLanes sleepers fun l x =>
    { x with wait := some { what := .sleep (s.cyc.toNat + cycles w l) (f.mbit 0), len := f.len } }
  s1.advanceLanes s.curWg s.curWarp (s.group.filter fun l => !sleepers.contains l) f.len

/-- R260. -/
def execSleep (f : Fields) (s : State) : Host.Outcome State Fault Refusal :=
  issue (.sleep f) s fun s => s.sleepFor f fun w l =>
    Nat.min (if f.isImm then f.immWord.toNat else (w.reg f.a.toNat l).toNat) (2 ^ 30)

/-- R260. -/
def execSleept (f : Fields) (s : State) : Host.Outcome State Fault Refusal :=
  issue (.sleept f) s fun s => s.sleepFor f fun w l => cyclesUntil s.cyc.toNat (w.reg f.a.toNat l).toNat

/-- R260: a sleeping thread whose time has come goes on. A message that wakes it, and a restore, bring its time to now. -/
def execSleepExpiry (wg warp lane : Nat) (s : State) : Host.Outcome State Fault Refusal :=
  match (s.lane wg warp lane).wait with
  | some { what := .sleep t _, .. } =>
    event "SLEEP_EXPIRY" ((s.wg wg).status == .resident && t ≤ s.cyc.toNat) (s.finishLanes wg warp [lane])
  | _ => .refused (.notEnabled "SLEEP_EXPIRY")

/-- Each class counter is within its limit (R261). -/
def Warp.within (w : Warp) (limits : Word) : Bool :=
  let n := limits.toNat
  w.ldc ≤ bits n 5 0 && w.stc ≤ bits n 11 6 && w.cpc ≤ bits n 17 12 && w.tlc ≤ bits n 23 18 && w.sfc ≤ bits n 29 24

/-- The oldest matrix operation with an uncorrectable error that a `waitc` covers: TL or more were issued since (R345). -/
def Warp.tileErr (w : Warp) (limits : Word) : Option Nat :=
  (w.tileErrs.find? fun e => bits limits.toNat 23 18 ≤ e.2).map (·.1)

/-- A `waitc` at `pc` of lanes whose counters are within the limits ends: they go on, or take DATA_ERR (R345). -/
def State.waitcEnds (s : State) (k w : Nat) (ls : List Nat) (pc : DWord) (limits : Word) : Option State :=
  match (s.warp k w).tileErr limits with
  | some va =>
    let s1 := s.updWarp k w fun x => { x with tileErrs := x.tileErrs.filter fun e => e.2 < bits limits.toNat 23 18 }
    some (s1.takeTrap k w { cause := 9, pc, va := BitVec.ofNat 80 va, mask := maskOf ls })
  | none => none

/-- R261. -/
def execWaitc (f : Fields) (s : State) : Host.Outcome State Fault Refusal :=
  issue (.waitc f) s fun s =>
    if s.curW.within f.immWord || (s.trueLanes f).isEmpty then
      if (s.trueLanes f).isEmpty then s.advance f.len
      else (s.waitcEnds s.curWg s.curWarp (s.trueLanes f) s.curPc f.immWord).getD (s.advance f.len)
    else
      let ls := s.trueLanes f
      (s.waitLanes ls (.counters f.immWord) f.len).advanceLanes s.curWg s.curWarp
        (s.group.filter fun l => !ls.contains l) f.len

/-- The effect of `wsync` on a gathered warp (R262). -/
def wsyncEffect (_ : List Nat) (s : State) : State := s.allGoOn

/-- R262. -/
def execWsync (f : Fields) (s : State) : Host.Outcome State Fault Refusal :=
  issue (.wsync f) s fun s => s.gather (.wsync f) wsyncEffect

/-- R185, R263: each guard-true thread is held out of the vote. -/
def execJoin (f : Fields) (s : State) : Host.Outcome State Fault Refusal :=
  issue (.join f) s fun s =>
    (s.advance f.len).updCur fun w => w.updLanes (s.trueLanes f) fun _ x => { x with held := true }

/-- R263. -/
def execNop (f : Fields) (s : State) : Host.Outcome State Fault Refusal := issue (.nop f) s fun s => s.advance f.len

/-! ### Software traps and the return (R264, R265) -/

/-- A software trap of the guard-true threads; the group's other threads go on. -/
def State.softTrap (s : State) (f : Fields) (cause : Nat) (va : BitVec 80) : State :=
  let ls := s.trueLanes f
  if ls.isEmpty then s.advance f.len
  else (s.advance f.len).trapHere { cause, pc := s.curPc, va, mask := maskOf ls }

/-- R264. -/
def execTrap (f : Fields) (s : State) : Host.Outcome State Fault Refusal :=
  issue (.trap f) s fun s => s.softTrap f 14 (f.immWord.setWidth 80)

/-- R264. -/
def execBkpt (f : Fields) (s : State) : Host.Outcome State Fault Refusal :=
  issue (.bkpt f) s fun s => s.softTrap f 13 0

/-- The effect of `eret` once every thread of the handler has executed it (R265). -/
def eretEffect (_ : List Nat) (s : State) : State := s.allGoOn.returnTrap s.curWg s.curWarp

/-- R265: all threads of the handler execute it together, whatever their guards. -/
def execEret (f : Fields) (s : State) : Host.Outcome State Fault Refusal :=
  issue (.eret f) s fun s => s.gather (.eret f) eretEffect

end Sys2Proof.Machine
end

