-- ==== Sys2Proof/Machine/System.lean ====
section
/-! DEFINITION. Special registers and performance counters (R10, R11, R101, R161, R182, R187, R267 to R271, R413). -/

namespace Sys2Proof.Machine

/-! ### The escort allowance (R100, R101) -/

/-- The hampers of a request: one, or one per lane for `ldi` (R95). -/
def Req.hamperCount (r : Req) : Nat :=
  if r.noEsc || r.escCount == 0 then 0
  else match r.insn with
    | .ldi _ => r.slots.length
    | _ => 1

/-- The workgroups resident on a core, and those ending on it whose share is not yet released (R108). -/
def State.wgsOn (s : State) (core : Nat) : List Nat :=
  s.wgs.keys.filter fun k => (s.wg k).core == core && ((s.wg k).status == .resident || (s.wg k).status == .ending)

/-- A request shares its hamper with an earlier one: the lanes of an `ldfe` at one line (R95). -/
def State.sharesHamper (s : State) (r : Req) : Bool :=
  match r.insn with
  | .ldfe _ => s.reqs.any fun q => q.group == r.group && q.id < r.id
      && (q.slots.map fun x => x.addr / 128) == r.slots.map fun x => x.addr / 128
  | _ => false

/-- The use U of a core's allowance (R100). -/
def State.escUsed (s : State) (core : Nat) : Nat :=
  sumOf (fun k => (s.packet k).warps * 256 * (s.packet k).travel) (s.wgsOn core)
    + 32 * sumOf Req.hamperCount (s.reqs.filter fun r => r.core == core && !s.sharesHamper r)

/-! ### Special registers -/

/-- TBAND of a core's die stack (R413). -/
def State.tband (s : State) (core : Nat) : Nat :=
  let d := dieOf core
  let sensed (i : Nat) : Nat := s.field (tsens i) 17 16
  s.band + sensed d * 4 + sensed (9 + 2 * d) * 16 + sensed (10 + 2 * d) * 64 + s.thermalState * 256

/-- The value of a special register for a lane of the issuing warp, up to 80 bits (R267). -/
def State.special80 (s : State) (n l : Nat) : BitVec 80 :=
  let w := s.curW
  let p := s.packet s.curWg
  match n with
  | 0 => s.cyc.setWidth 80
  | 1 => s.ptimeFrac ++ s.ptimeNs
  | 2 => 64
  | 3 => BitVec.ofNat 80 l
  | 4 => BitVec.ofNat 80 s.curWarp
  | 5 => BitVec.ofNat 80 (keyWgid s.curWg)
  | 6 => BitVec.ofNat 80 (p.nx * p.ny * p.nz - 1)
  | 7 => BitVec.ofNat 80 ((p.role s.curWarp).1 + (p.role s.curWarp).2 * 256)
  | 8 => (w.lane l).seed.setWidth 80
  | 9 => w.fstat.setWidth 80
  | 10 => w.trapc.setWidth 80
  | 11 => w.trappc.setWidth 80
  | 12 => w.trapva
  | 13 => w.fltmask.setWidth 80
  | 14 => BitVec.ofNat 80 (2 ^ 20 - s.escUsed s.curG.core)
  | 15 => BitVec.ofNat 80 (w.lane l).ydist
  | 16 => s.curG.svstat.setWidth 80
  | 17 => s.curG.sviter.setWidth 80
  | 18 => s.curG.svnorm.setWidth 80
  | 19 => BitVec.ofNat 80 (s.tband s.curG.core)
  | 20 => (s.ctx (s.ctxNo s.curWg)).scopechk.setWidth 80
  | _ => (SMap.get 0 w.segs (n - 24)).setWidth 80

/-- R268. -/
def execMovs (f : Fields) (s : State) : Host.Outcome State Fault Refusal :=
  issue (.movs f) s fun s =>
    match f.modN with
    | 0 => s.writeD f fun _ l => (s.special80 f.a.toNat l).setWidth 32
    | 1 => s.writeD f fun _ l => ((s.special80 f.a.toNat l) >>> 32).setWidth 32
    | 2 => s.writeD f fun _ l => ((s.special80 f.a.toNat l) >>> 64).setWidth 32
    | _ => s.writePair f fun _ l => (s.special80 f.a.toNat l).setWidth 64

/-- R269: SEED lane by lane, the others with the value of the lowest guard-true lane; reserved bits keep their value (R5). -/
def execMovsw (f : Fields) (s : State) : Host.Outcome State Fault Refusal :=
  issue (.movsw f) s fun s =>
    let ls := s.trueLanes f
    let w := s.curW
    let n := f.d.toNat
    match ls with
    | [] => s.advance f.len
    | l0 :: _ =>
      let v := w.reg f.a.toNat l0
      (if n = 8 then s.updCur fun w => w.updLanes ls fun l x => { x with seed := w.reg f.a.toNat l }
       else if n = 9 then s.updCur fun w => { w with fstat := v &&& 0x7F }
       else if n = 20 then s.updCtx (s.ctxNo s.curWg) fun c => { c with scopechk := v &&& 0xFFFFFF03 }
       else s.updCur fun w => { w with segs := SMap.set 0 w.segs (n - 24) (v &&& 0xFFFF) }).advance f.len

/-- The performance counter of a warp (R271): ACTCYC includes the present stay in the active set. -/
def State.perfValue (s : State) (k w n : Nat) : DWord :=
  let x := s.warp k w
  if 8 ≤ n then 0
  else SMap.get 0 x.perf n + (if n = 1 ∧ x.active then s.cyc - BitVec.ofNat 64 x.activeSince else 0)

/-- R271. -/
def execPerf (f : Fields) (s : State) : Host.Outcome State Fault Refusal :=
  issue (.perf f) s fun s => s.writeD f fun w l =>
    let v := s.perfValue s.curWg s.curWarp (w.srcB f l).toNat
    if f.mbit 0 then (v >>> 32).setWidth 32 else v.setWidth 32

end Sys2Proof.Machine
end

