-- ==== Sys2Proof/Machine/Space.lean ====
section
/-! DEFINITION. The spaces of a memory instruction (R7 to R13, R24 to R28, R67): addresses, access sizes, checks at issue,
and the objects of a workgroup that a window reaches, in a core or in a save image. -/

namespace Sys2Proof.Machine

/-! ### Class counters (R190) -/

/-- The class counter of an instruction: LDC, STC or none (R190). -/
inductive Counter where
  | ldc | stc | none
deriving DecidableEq, Repr

/-- R190. -/
def counterOf (i : Instr) : Counter :=
  match i with
  | .ld _ | .ldi _ | .ldfe _ | .atom _ | .cas _ => .ldc
  | .st _ | .stfe _ | .red _ => .stc
  | _ => .none

/-- Adds to a class counter. -/
def Warp.bump (w : Warp) (c : Counter) (up : Bool) : Warp :=
  match c with
  | .ldc => { w with ldc := if up then w.ldc + 1 else w.ldc - 1 }
  | .stc => { w with stc := if up then w.stc + 1 else w.stc - 1 }
  | .none => w

/-! ### Addresses (R12, R24, R303) -/

/-- The segment number that an instruction uses (R12). -/
def Warp.segnum (w : Warp) (f : Fields) : Nat := (SMap.get 0 w.segs f.seg.toNat).toNat % 65536

/-- The address of a lane in a space: a VA, a scratch address or a window address. -/
def Warp.address (w : Warp) (f : Fields) (space l : Nat) : Nat :=
  let a := w.pairA f l + f.disp
  if space = 1 then a.toNat % 2 ^ 32
  else if space = 3 then a.toNat
  else w.segnum f * 2 ^ 64 + a.toNat

/-! ### The objects of a workgroup (R25) -/

/-- Address fields of a window address (R24). -/
def winWg (a : Nat) : Nat := bits a 63 32
/-- R24. -/
def winKind (a : Nat) : Nat := bits a 31 28
/-- R24. -/
def winOff (a : Nat) : Nat := bits a 27 0

/-- A range of an object is valid for a workgroup with the declarations of a packet (R25). -/
def windowValid (p : Packet) (kind off size : Nat) : Bool :=
  match kind with
  | 0 => off / 65536 < p.warps && (off / 256 % 256 < p.home + p.travel || off / 256 % 256 == 255)
  | 1 => off + size ≤ p.scratch
  | 2 => off + size ≤ p.nacc * 16384
  | 3 => off % 4096 / 256 < p.nacc && off < 8192
  | 4 => off + size ≤ p.nwb * 65536
  | 5 => off + size ≤ p.nhist * 32768
  | _ => false

/-- The reset value of `mx` (R76). -/
def negInf : Word := 0xFF800000

/-- A tile element (R76). -/
def Workgroup.accAt (g : Workgroup) (t n : Nat) : Word := SMap.get 0 (SMap.get [] g.acc t) n
/-- Writes a tile element. -/
def Workgroup.setAcc (g : Workgroup) (t n : Nat) (v : Word) : Workgroup :=
  { g with acc := SMap.upd [] g.acc t fun m => SMap.set 0 m n v }
/-- A row-maximum element. -/
def Workgroup.mxAt (g : Workgroup) (t n : Nat) : Word := SMap.get negInf (SMap.get [] g.mx t) n
/-- Writes a row-maximum element. -/
def Workgroup.setMx (g : Workgroup) (t n : Nat) (v : Word) : Workgroup :=
  { g with mx := SMap.upd [] g.mx t fun m => SMap.set negInf m n v }
/-- A row-sum element. -/
def Workgroup.smAt (g : Workgroup) (t n : Nat) : Word := SMap.get 0 (SMap.get [] g.sm t) n
/-- Writes a row-sum element. -/
def Workgroup.setSm (g : Workgroup) (t n : Nat) (v : Word) : Workgroup :=
  { g with sm := SMap.upd [] g.sm t fun m => SMap.set 0 m n v }
/-- A history element. -/
def Workgroup.hsAt (g : Workgroup) (t n : Nat) : Word := SMap.get 0 (SMap.get [] g.hs t) n
/-- Writes a history element. -/
def Workgroup.setHs (g : Workgroup) (t n : Nat) (v : Word) : Workgroup :=
  { g with hs := SMap.upd [] g.hs t fun m => SMap.set 0 m n v }
/-- A byte of a weight-buffer slot. -/
def Workgroup.wbAt (g : Workgroup) (t n : Nat) : Byte := SMap.get 0 (SMap.get [] g.wb t) n
/-- Writes a byte of a weight-buffer slot. -/
def Workgroup.setWb (g : Workgroup) (t n : Nat) (v : Byte) : Workgroup :=
  { g with wb := SMap.upd [] g.wb t fun m => SMap.set 0 m n v }
/-- A byte of scratch. -/
def Workgroup.scratchAt (g : Workgroup) (a : Nat) : Byte := SMap.get 0 g.scratch a
/-- Writes a byte of scratch. -/
def Workgroup.setScratch (g : Workgroup) (a : Nat) (v : Byte) : Workgroup := { g with scratch := SMap.set 0 g.scratch a v }

/-- Reads bytes of scratch as a number. -/
def Workgroup.scratchRead (g : Workgroup) (a n : Nat) : Nat := bytesVal ((List.range n).map fun i => g.scratchAt (a + i))
/-- Writes a number to scratch. -/
def Workgroup.scratchWrite (g : Workgroup) (a n v : Nat) : Workgroup :=
  (List.range n).foldl (fun g i => g.setScratch (a + i) (BitVec.ofNat 8 (v / 256 ^ i))) g

/-- A register by warp, register and lane, as the register object names it (R22): the kernel's registers. -/
def Workgroup.regAt (g : Workgroup) (w r l : Nat) : Word :=
  if r = 255 then 0 else SMap.get 0 (SMap.get [] (g.warp w).regs r) l
/-- Writes a register (R22). -/
def Workgroup.setRegAt (g : Workgroup) (w r l : Nat) (v : Word) : Workgroup :=
  { g with warps := SMap.upd {} g.warps w fun x => x.setRegIn false r l v }

/-- The word of an object at a word-aligned offset (R25). -/
def Workgroup.objWord (g : Workgroup) (kind off : Nat) : Word :=
  match kind with
  | 0 => g.regAt (off / 65536) (off / 256 % 256) (off % 256 / 4)
  | 1 => BitVec.ofNat 32 (g.scratchRead off 4)
  | 2 => g.accAt (off / 16384) (off % 16384 / 4)
  | 3 => if off < 4096 then g.mxAt (off / 256) (off % 256 / 4) else g.smAt ((off - 4096) / 256) (off % 256 / 4)
  | 4 => BitVec.ofNat 32 (bytesVal ((List.range 4).map fun i => g.wbAt (off / 65536) (off % 65536 + i)))
  | _ => g.hsAt (off / 32768) (off % 32768 / 4)

/-- Writes the word of an object. -/
def Workgroup.setObjWord (g : Workgroup) (kind off : Nat) (v : Word) : Workgroup :=
  match kind with
  | 0 => g.setRegAt (off / 65536) (off / 256 % 256) (off % 256 / 4) v
  | 1 => g.scratchWrite off 4 v.toNat
  | 2 => g.setAcc (off / 16384) (off % 16384 / 4) v
  | 3 => if off < 4096 then g.setMx (off / 256) (off % 256 / 4) v else g.setSm ((off - 4096) / 256) (off % 256 / 4) v
  | 4 => (List.range 4).foldl (fun g i => g.setWb (off / 65536) (off % 65536 + i) (BitVec.ofNat 8 (v.toNat / 256 ^ i))) g
  | _ => g.setHs (off / 32768) (off % 32768 / 4) v

/-- Reads `n` words of an object as one number. -/
def Workgroup.objRead (g : Workgroup) (kind off : Nat) : Nat → Nat
  | 0 => 0
  | n + 1 => (g.objWord kind off).toNat + 2 ^ 32 * Workgroup.objRead g kind (off + 4) n

/-- Writes `n` words of an object. -/
def Workgroup.objWrite (g : Workgroup) (kind off v : Nat) : Nat → Workgroup
  | 0 => g
  | n + 1 => Workgroup.objWrite (g.setObjWord kind off (BitVec.ofNat 32 v)) kind (off + 4) (v / 2 ^ 32) n

/-! ### Where a workgroup's objects lie in its core's window (R21, R447) -/

/-- An offset of a core's window at which storage beside the registers lies. -/
def isStore (o : Nat) : Bool := (0x1000000 ≤ o && o < 0x1142000) || (0x1180000 ≤ o && o < 0x1240000)

/-- An offset of a core's window lies in a workgroup's scratch, tiles, side registers or slots. -/
def Workgroup.holdsAt (g : Workgroup) (scratch o : Nat) : Bool :=
  (0x1000000 + g.scratchBase ≤ o && o < 0x1000000 + g.scratchBase + scratch)
    || (g.tileNos.any fun n => (o - 0x1100000) / 16384 == n && 0x1100000 ≤ o && o < 0x1140000)
    || (g.tileNos.any fun n => ((o - 0x1140000) / 256 == n || (o - 0x1141000) / 256 == n) && 0x1140000 ≤ o && o < 0x1142000)
    || (g.wbNos.any fun n => (o - 0x1180000) / 65536 == n && 0x1180000 ≤ o && o < 0x1200000)
    || (g.hsNos.any fun n => (o - 0x1200000) / 32768 == n && 0x1200000 ≤ o && o < 0x1240000)

/-- The bytes of a list of words, from an offset on. -/
def listedBytes (base : Nat) (l : List (Nat × Word)) : List (Nat × Byte) :=
  l.flatMap fun (p : Nat × Word) => (List.range 4).map fun i => (base + 4 * p.1 + i, BitVec.ofNat 8 (p.2.toNat / 256 ^ i))

/-- The bytes that a workgroup's scratch, tiles, side registers and slots hold, by offset in its core's window; what is not
listed is zero. -/
def Workgroup.stored (g : Workgroup) : List (Nat × Byte) :=
  let nth (l : List Nat) (base size t : Nat) : Nat := base + size * l.getD t 0
  let tiles := List.range g.tileNos.length
  (g.scratch.map fun (p : Nat × Byte) => (0x1000000 + g.scratchBase + p.1, p.2))
    ++ (tiles.flatMap fun t => listedBytes (nth g.tileNos 0x1100000 16384 t) (SMap.get [] g.acc t))
    ++ (tiles.flatMap fun t => listedBytes (nth g.tileNos 0x1140000 256 t) ((List.range 64).map fun r => (r, g.mxAt t r)))
    ++ (tiles.flatMap fun t => listedBytes (nth g.tileNos 0x1141000 256 t) (SMap.get [] g.sm t))
    ++ ((List.range g.wbNos.length).flatMap fun t =>
      (SMap.get [] g.wb t).map fun (p : Nat × Byte) => (nth g.wbNos 0x1180000 65536 t + p.1, p.2))
    ++ ((List.range g.hsNos.length).flatMap fun t => listedBytes (nth g.hsNos 0x1200000 32768 t) (SMap.get [] g.hs t))

/-- What the storage of a workgroup of a context held stays on the core until it is scrubbed or given out again (R426). -/
def Core.keepStored (c : Core) (g : Workgroup) (ctx : Nat) : Core :=
  { c with loose := g.stored.foldl (fun m p => SMap.set 0 m p.1 p.2) c.loose
           looseOf := g.stored.foldl (fun m p => SMap.set 0 m p.1 (ctx + 1)) c.looseOf }

/-- The storage that workgroups of a context left is zero (R426). -/
def Core.scrubLoose (c : Core) (ctx : Nat) : Core :=
  { c with loose := c.loose.filter fun (p : Nat × Byte) => SMap.get 0 c.looseOf p.1 != ctx + 1
           looseOf := c.looseOf.filter fun (p : Nat × Nat) => p.2 != ctx + 1 }

/-- A workgroup takes its storage on a core; admission and restore write it afresh (R67, R76, R401). -/
def Core.takeStored (c : Core) (g : Workgroup) (scratch : Nat) : Core :=
  { c with loose := c.loose.filter fun (p : Nat × Byte) => !g.holdsAt scratch p.1
           looseOf := c.looseOf.filter fun (p : Nat × Nat) => !g.holdsAt scratch p.1 }

/-! ### The parts of a save image (R398) -/

/-- The next multiple of 256. -/
def up256 (n : Nat) : Nat := (n + 255) / 256 * 256

/-- The sizes of the parts of a section before the abroad section, from the declarations, whether a solve region is open,
and the number of held operations. -/
def imgSizes (p : Packet) (region : Bool) (held : Nat) : List Nat :=
  [256, p.warps * 4096, p.warps * (p.home + p.travel) * 256, 1024, 17408, p.scratch, p.scratch / 32, p.nacc * 16896,
   p.nwb * 65536, p.nhist * 32768, if region then 65792 else 0, 64 * held]

/-- The offsets at which parts of the given sizes begin, and the one that follows them. -/
def partOffsets : Nat → List Nat → List Nat
  | at_, [] => [at_]
  | at_, n :: l => at_ :: partOffsets (up256 (at_ + n)) l

/-- The offsets of the 13 parts of a section. -/
def imgOffsets (p : Packet) (region : Bool) (held : Nat) : List Nat := partOffsets 0 (imgSizes p region held)

/-- The offset in a section of an object's byte (R27, R398). -/
def imgObject (p : Packet) (kind off : Nat) : Nat :=
  let o := imgOffsets p false 0
  match kind with
  | 0 => o.getD 2 0 + (off / 65536 * (p.home + p.travel) + off / 256 % 256) * 256 + off % 256
  | 1 => o.getD 5 0 + off
  | 2 => o.getD 7 0 + off
  | 3 => o.getD 7 0 + p.nacc * 16384 + (if off < 4096 then off else p.nacc * 256 + (off - 4096))
  | 4 => o.getD 8 0 + off
  | _ => o.getD 9 0 + off

/-! ### Checks at issue (R26, R67, R304) -/

/-- Why a lane's access fails at issue: step of R304, cause, DETAIL. -/
structure Failure where
  step : Nat
  cause : Nat
  detail : Nat
deriving DecidableEq, Repr

/-- The window check of R26 step 2 and the connection matrix (R32). -/
def State.windowBounds (s : State) (k addr size : Nat) : Option Failure :=
  let p := s.packet k
  let t := wgKey (keyLaunch k) (winWg addr)
  let g := s.wg t
  if p.nx * p.ny * p.nz ≤ winWg addr || !windowValid p (winKind addr) (winOff addr) size then some ⟨2, 7, 7⟩
  else if (g.status == .resident || g.status == .ending)
      && !s.connected s.pkg (quadOf (s.wg k).core) (288 + quadOf g.core) then some ⟨2, 7, 6⟩
  else none

/-- The window check of an access: its bounds, then the states that refuse at once (R27). -/
def State.windowCheck (s : State) (k addr size : Nat) : Option Failure :=
  let st := (s.wg (wgKey (keyLaunch k) (winWg addr))).status
  (s.windowBounds k addr size).orElse fun _ => if st == .discarded || st == .exited then some ⟨2, 7, 7⟩ else none

/-- The checks of R304 steps 1 and 2 on one lane's access, those of a home package with the path that its request will take; `none`: a
copy, which its home refuses only after issue (R449). -/
def State.laneCheck (s : State) (k : Nat) (m : MemInfo) (addr : Nat) (path : Option Nat) : Option Failure :=
  if addr % m.size != 0 then some ⟨1, 5, 0⟩
  else if m.space = 1 then (if (s.packet k).scratch < addr + m.size then some ⟨2, 7, 8⟩ else none)
  else if m.space = 3 then s.windowCheck k addr m.size
  else match path.elim (s.probe (s.wg k).core (s.ctxNo k) addr m.acc m.atomic)
      (s.probeHome (s.wg k).core (s.ctxNo k) addr m.acc m.atomic) with
    | .prot d => some ⟨2, 7, d⟩
    | _ => none

/-- The trap that failing lanes give (R304): all of them are marked, TRAPVA is the address of the lowest, and the lowest step decides
TRAPC. -/
def failTrap (pc : DWord) (fails : List (Nat × Nat × Failure)) : Option Trap :=
  match fails, fails.find? fun x => fails.all fun y => x.2.2.step ≤ y.2.2.step with
  | first :: _, some (_, _, fl) =>
    some { cause := fl.cause, detail := fl.detail, pc, va := BitVec.ofNat 80 first.2.1, mask := maskOf (fails.map Prod.fst) }
  | _, _ => none

/-- Enters the refusals of the own package's connection matrix, of accesses of a kind, in the audit log (R32). -/
def State.auditRefusals (s : State) (k : Nat) (m : MemInfo) (fails : List (Nat × Nat × Failure)) : State :=
  (fails.filter fun x => x.2.2.detail == 6).foldl (fun s x =>
    if m.space = 3 then s.auditEvent 1 (s.ctxNo k) x.2.1
    else s.auditTr (s.probe (s.wg k).core (s.ctxNo k) x.2.1 m.acc m.atomic) (s.ctxNo k) x.2.1) s

end Sys2Proof.Machine
end

