-- ==== Sys2Proof/Machine/Cache.lean ====
section
/-! DEFINITION. L1 and LLC (R82 to R86), rest stops (R96 to R98), and the scope checker's records (R159 to R161). -/

namespace Sys2Proof.Machine

/-! ### LLC lines (R83 to R86) -/

/-- The hint that acts on a page of a policy: 0 normal, 1 evict-first, 2 evict-last, 3 no-allocate, 4 LLC-only;
`none` where the page is uncached (R38). LLC-only on a streaming page allocates a normal line (DESIGN CHOICE, log 88: the policy's
text says evict-first, its hint column names only normal and evict-last). -/
def hintUnder (cpol ch : Nat) : Option Nat :=
  match cpol with
  | 2 => none
  | 3 => some (if ch = 0 ∨ ch = 2 then 1 else ch)
  | _ => some ch

/-- The key of the LLC set of a pod-global DRAM address for a partition (R46, R83). -/
def State.llcKey (s : State) (g part : Nat) : Nat :=
  let c := s.canon g
  let pkg := c / pkgSpan
  let off := c % 2 ^ 37
  let pb := Nat.min 4 (bits (s.cregOf pkg llcPCfg) 2 0)
  let idx := off / 128 % 2048 % 2 ^ (11 - pb) + part % 2 ^ pb * 2 ^ (11 - pb)
  ((pkg * 288 + c % pkgSpan / 2 ^ 37 * 32 + sliceOf off) * 2048) + idx

/-- The canonical address of a line. -/
def State.lineOf (s : State) (g : Nat) : Nat := s.canon g / 128 * 128

/-- The oldest protected line becomes normal when a set holds 18 of them (R85). -/
def demoteOldest (ls : List Line) : List Line :=
  if (ls.filter fun l => l.state == 2).length < 18 then ls
  else match ls.find? fun l => l.state == 2 with
    | some x => ls.map fun l => if l.addr = x.addr then { l with state := 0 } else l
    | none => ls

/-- Removes a victim from a full set (R85). -/
def evictOne (ls : List Line) : List Line :=
  if ls.length < 24 then ls
  else match ls.find? fun l => l.state == 1 with
    | some x => ls.filter fun l => l.addr != x.addr
    | none => match ls.find? fun l => l.state == 0 with
      | some x => ls.filter fun l => l.addr != x.addr
      | none => ls

/-- An access to a set with a hint (R84). Lines stand oldest first. A line that an access moves to another state is the youngest of
that state, and a demoted line keeps its place (DESIGN CHOICE, log 89). -/
def touchSet (hint addr : Nat) (ls : List Line) : List Line :=
  match ls.find? fun l => l.addr == addr with
  | none =>
    if hint = 3 then ls
    else
      let st := if hint = 1 then 1 else if hint = 2 then 2 else 0
      evictOne (if st = 2 then demoteOldest ls else ls) ++ [{ addr, state := st }]
  | some x =>
    let rest := ls.filter fun l => l.addr != addr
    let youngest (st : Nat) (r : List Line) : List Line := r ++ [{ x with state := st }]
    if hint = 3 then ls
    else if x.state = 2 then (if hint = 1 then ls else youngest 2 rest)
    else if hint = 1 then youngest 1 rest
    else if hint = 2 then youngest 2 (demoteOldest rest)
    else youngest 0 rest

/-- Touches the LLC line of a DRAM address (R84); the host window and uncached pages have none. -/
def State.llcTouch (s : State) (g part cpol ch : Nat) : State :=
  match s.homeDie g, hintUnder cpol ch with
  | some _, some h => { s with llc := SMap.upd [] s.llc (s.llcKey g part) (touchSet h (s.lineOf g)) }
  | _, _ => s

/-- The resident LLC line of an address. -/
def State.llcLine (s : State) (g part : Nat) : Option Line :=
  (SMap.get [] s.llc (s.llcKey g part)).find? fun l => l.addr == s.lineOf g

/-- Changes the resident LLC line of an address, if any. -/
def State.updLine (s : State) (g part : Nat) (f : Line → Line) : State :=
  { s with llc := SMap.upd [] s.llc (s.llcKey g part) fun ls => ls.map fun l => if l.addr = s.lineOf g then f l else l }

/-! ### The scope checker (R143, R159, R160) -/

/-- The pod-wide number of a core: package x 4096 + virtual die x 128 + index. -/
def State.podCore (s : State) (core : Nat) : Nat := s.pkg * 4096 + core

/-- The check of a synchronising access against a record (R159). -/
def scopeOk (rec : Option (Nat × Nat)) (scope unit : Nat) : Bool :=
  match rec with
  | none => true
  | some (sc, u) => sameUnit sc u unit && sameUnit scope u unit

/-- The mode of a context's checker: 0 trap, 1 count, 2 off (R161). -/
def State.checkMode (s : State) (ctx : Nat) : Nat :=
  let m := (s.ctx ctx).scopechk.toNat % 4
  if m = 3 then 0 else m

/-- Adds to COUNT, saturating (R160, R161). -/
def State.countScope (s : State) (ctx n : Nat) : State :=
  s.updCtx ctx fun c =>
    let v := c.scopechk.toNat
    { c with scopechk := BitVec.ofNat 32 (v % 256 + Nat.min 0xFFFFFF (v / 256 + n) * 256) }

/-! ### L1 (R82) -/

/-- An L1 holds a line (R82). What it holds of it is what the core's threads see of memory: where an L1 is to answer with older bytes, the
write that changed them is not visible to its core (R147, R439; log 69). -/
def State.l1Has (s : State) (core line : Nat) : Bool := (s.coreAt core).l1.contains line

/-- A line of an L1 that is used becomes the most recently used (R82). -/
def State.l1Use (s : State) (core line : Nat) : State :=
  s.updCore core fun c => { c with l1 := (c.l1.filter fun p => p == line) ++ c.l1.filter fun p => p != line }

/-- Discards a line of an L1. -/
def State.l1Drop (s : State) (core line : Nat) : State :=
  s.updCore core fun c => { c with l1 := c.l1.filter fun p => p != line }

/-- Discards every line of an L1. -/
def State.l1Clear (s : State) (core : Nat) : State := s.updCore core fun c => { c with l1 := [] }

/-- Bytes of memory, from a canonical address on, as the threads of a core read them. -/
def State.bytesFor (s : State) (core a n : Nat) : List Byte :=
  s.viewOf none core (0, 64) a ((List.range n).map fun i => s.mem.byte (a + i))

/-- The bytes of a line of memory, as the threads of a core read them. -/
def State.lineBytes (s : State) (core line : Nat) : List Byte := s.bytesFor core line 128

/-- Removes the least recently used line of a full L1 set of 16 ways. -/
def l1Evict (line : Nat) (ls : List Nat) : List Nat :=
  let same (p : Nat) : Bool := p / 128 % 128 == line / 128 % 128
  if (ls.filter same).length < 16 then ls
  else match ls.reverse.find? same with
    | some p => ls.filter fun q => q != p
    | none => ls

/-- Allocates a line in an L1 (R82): an evict-first hint inserts it as least recently used, evict-last as most recently used, and
so, which the spec does not say, a normal hint (DESIGN CHOICE, log 14, as are the sets). -/
def State.l1Fill (s : State) (core line hint : Nat) : State :=
  s.updCore core fun c =>
    let ls := l1Evict line (c.l1.filter fun p => p != line)
    { c with l1 := if hint = 1 then ls ++ [line] else line :: ls }

/-- A page may be held in L1 under a policy and a hint (R38, R47, R82). -/
def l1Allocates (cpol ch : Nat) : Bool :=
  match hintUnder cpol ch with
  | some h => (cpol == 0 || cpol == 3) && h != 3 && h != 4
  | none => false

/-! ### Rest stops (R95 to R98) -/

/-- The bytes of each hamper of a request (R95): one of all its lanes, or, at the first hop of `ldi`, one for each lane. -/
def Req.hamperSizes (r : Req) : List Nat :=
  if r.noEsc || r.escCount == 0 then []
  else match r.insn with
    | .ldi _ => if r.hop2 then [32 + 4 * r.escCount * r.slots.length] else r.slots.map fun _ => 32 + 4 * r.escCount
    | _ => [32 + 4 * r.escCount * r.slots.length]

/-- The hampers of a request on a network: in its packet. -/
def Req.inPacket (r : Req) : List HamperAt := r.hamperSizes.map fun _ => .packet

/-- Bytes of a bank (R97). -/
def bankBytes (b : Nat) : Nat := if b < 8 then 0x180000 else 0x200000

/-- The bytes that requests other than one hold in a bank, those of one partition, or all. -/
def State.bankUse (s : State) (id die bank : Nat) (part : Option Nat) : Nat :=
  sumOf (fun r => sumOf Prod.snd ((r.hampers.zip r.hamperSizes).filter fun h => h.1 == .rest die bank))
    (s.reqs.filter fun r => r.id != id && (part.isNone || part == some (s.ctxPart (s.ctxNo r.wg))))

/-- Hampers that are put into a bank one after another: a bank that has no room, or whose partition's share is full, bounces a hamper
to base camp, where it stays until the reply (R97, R98). The second part counts the bounces. -/
def restEach (spot : HamperAt) (size quota : Nat) : List (HamperAt × Nat) → Nat → Nat → List HamperAt × Nat
  | [], _, _ => ([], 0)
  | (h, n) :: l, used, mine =>
    if h = .base then
      let y := restEach spot size quota l used mine
      (h :: y.1, y.2)
    else if used + n ≤ size && mine + n ≤ quota then
      let y := restEach spot size quota l (used + n) (mine + n)
      (spot :: y.1, y.2)
    else
      let y := restEach spot size quota l used mine
      (.base :: y.1, y.2 + 1)

/-- Places a waiting request's hampers in a bank, or bounces them to base camp, which counts (R96 to R98, R271). -/
def State.restHamper (s : State) (r : Req) (die bank : Nat) : State × Req :=
  let part := s.ctxPart (s.ctxNo r.wg)
  let quota := bankBytes bank * Nat.min 256 (s.field (rsQuota die part) 8 0) / 256
  let y := restEach (.rest die bank) (bankBytes bank) quota (r.hampers.zip r.hamperSizes) (s.bankUse r.id die bank none)
    (s.bankUse r.id die bank (some part))
  (if y.2 = 0 then s else s.count r.wg r.warp 4 y.2, { r with hampers := y.1 })

/-- A request or its reply leaves a station: the hampers that the station held go with it, but those in base camp (R96, R98). -/
def Req.leaves (r : Req) : Req := { r with hampers := r.hampers.map fun h => if h = .base then h else .packet }

/-- The virtual die of a physical stack (R16). -/
def State.virtualDie (s : State) (stack : Nat) : Nat :=
  ((List.range 9).find? fun d => SMap.get d s.dieMap d == stack).getD 0

/-- The die of an egress port, eight to each of the eight outer stacks, and of the host port, the centre stack (log 67). -/
def State.egressDie (s : State) (port : Option Nat) : Nat :=
  match port with
  | some p => s.virtualDie ([0, 1, 2, 3, 5, 6, 7, 8].getD (p / 8 % 8) 0)
  | none => s.virtualDie 4

end Sys2Proof.Machine
end

