-- ==== Sys2Proof/Machine/FloatOps.lean ====
section
/-! DEFINITION. FP32, packed FP16 and BF16, and FP64 instructions (R278 to R285). -/

namespace Sys2Proof.Machine

/-- The conditions of `fcmp` and `dcmp` with their invalid flag (R280). -/
def floatCond (cc : Nat) (a b : Val) : Bool × Flags :=
  let nan := a.isNan || b.isNan
  let sig := flagIf (a.isSig || b.isSig) flNV
  let rel : Bool := match cc % 8 with
    | 0 => a.cmp b == .eq
    | 1 => a.cmp b != .eq
    | 2 => a.cmp b == .lt
    | 3 => a.cmp b != .gt
    | 4 => a.cmp b == .gt
    | _ => a.cmp b != .lt
  if cc = 6 then (!nan, sig)
  else if cc = 7 then (nan, sig)
  else if 8 ≤ cc then (nan || rel, sig)
  else (!nan && rel, if 2 ≤ cc then flagIf nan flNV else sig)

/-- The class bit of an FP32 code (R281). -/
def classOf (x : Nat) : Nat :=
  match fp32.decode x with
  | .nan sig => if sig then 0 else 1
  | .inf neg => if neg then 2 else 9
  | .fin neg mant _ =>
    if mant = 0 then (if neg then 5 else 6)
    else if mant < 2 ^ 23 then (if neg then 4 else 7)
    else (if neg then 3 else 8)

/-- FP32 rounded to an integral value (R282). -/
def roundIntegral (rm : Rm) (x : Nat) : Nat × Flags :=
  match fp32.decode x with
  | .nan sig => (fp32.nan, flagIf sig flNV)
  | .inf _ => (x, 0)
  | .fin neg mant exp =>
    if mant = 0 then (x, 0)
    else ((narrow fp32 .rne false (.fin neg (roundInt rm neg mant exp).1.natAbs 0)).1, 0)

/-- A code and flags as a word and flags. -/
def wordFl (r : Nat × Flags) : Word × Flags := (BitVec.ofNat 32 r.1, r.2)
/-- A code and flags as a pair and flags. -/
def dwordFl (r : Nat × Flags) : DWord × Flags := (BitVec.ofNat 64 r.1, r.2)
/-- The FP32 value of a word. -/
def f32 (v : Word) : Val := fp32.decode v.toNat
/-- The FP64 value of a pair. -/
def f64 (v : DWord) : Val := fp64.decode v.toNat

/-- Applies an operation to the two halves of words (R283): the operation takes the element number and the codes. -/
def perHalf (g : Nat → Nat × Flags) : Word × Flags :=
  (BitVec.ofNat 32 ((g 0).1 + (g 1).1 * 65536), (g 0).2 ||| (g 1).2)

/-- Element i of a packed half register. -/
def half (v : Word) (i : Nat) : Nat := v.toNat / 65536 ^ i % 65536

/-- The type of a packed instruction, MOD bit 62 (R283). -/
def halfFmt (f : Fields) : Fmt := if f.mbit 3 then bf16 else fp16

/-! ### FP32 -/

/-- R278. -/
def execFadd (f : Fields) (s : State) : Host.Outcome State Fault Refusal :=
  issue (.fadd f) s fun s => s.writeDFl f fun w l =>
    wordFl (addVal fp32 (w.rm f.mod3 l 0) (f32 (w.srcA f l)) (f32 (w.srcB f l)))

/-- R278. -/
def execFsub (f : Fields) (s : State) : Host.Outcome State Fault Refusal :=
  issue (.fsub f) s fun s => s.writeDFl f fun w l =>
    wordFl (addVal fp32 (w.rm f.mod3 l 0) (f32 (w.srcA f l)) (f32 (w.srcB f l)).neg)

/-- R278. -/
def execFmul (f : Fields) (s : State) : Host.Outcome State Fault Refusal :=
  issue (.fmul f) s fun s => s.writeDFl f fun w l =>
    wordFl (mulVal fp32 (w.rm f.mod3 l 0) (f32 (w.srcA f l)) (f32 (w.srcB f l)))

/-- R278. -/
def execFfma (f : Fields) (s : State) : Host.Outcome State Fault Refusal :=
  issue (.ffma f) s fun s => s.writeDFl f fun w l =>
    wordFl (fmaVal fp32 (w.rm f.mod3 l 0) (f32 (w.srcA f l)) (f32 (w.srcB f l)) (f32 (w.srcC f l)))

/-- R279. -/
def execFmin (f : Fields) (s : State) : Host.Outcome State Fault Refusal :=
  issue (.fmin f) s fun s => s.writeDFl f fun w l => wordFl (fminCode fp32 false (w.srcA f l).toNat (w.srcB f l).toNat)

/-- R279. -/
def execFmax (f : Fields) (s : State) : Host.Outcome State Fault Refusal :=
  issue (.fmax f) s fun s => s.writeDFl f fun w l => wordFl (fminCode fp32 true (w.srcA f l).toNat (w.srcB f l).toNat)

/-- R280. -/
def execFcmp (f : Fields) (s : State) : Host.Outcome State Fault Refusal :=
  issue (.fcmp f) s fun s => s.writePredFl f fun w l => floatCond f.mod4 (f32 (w.srcA f l)) (f32 (w.srcB f l))

/-- R281. -/
def execFcls (f : Fields) (s : State) : Host.Outcome State Fault Refusal :=
  issue (.fcls f) s fun s => s.writePred f fun w l => bit (w.srcB f l).toNat (classOf (w.srcA f l).toNat)

/-- R282. -/
def execFrnd (f : Fields) (s : State) : Host.Outcome State Fault Refusal :=
  issue (.frnd f) s fun s => s.writeDFl f fun w l => wordFl (roundIntegral (w.rm f.mod3 l 0) (w.srcA f l).toNat)

/-! ### Packed FP16 and BF16 -/

/-- R283. -/
def execHadd2 (f : Fields) (s : State) : Host.Outcome State Fault Refusal :=
  issue (.hadd2 f) s fun s => s.writeDRm f f.mod3 fun w l => perHalf fun i =>
    addVal (halfFmt f) (w.rm f.mod3 l i) ((halfFmt f).decode (half (w.srcA f l) i)) ((halfFmt f).decode (half (w.srcB f l) i))

/-- R283. -/
def execHmul2 (f : Fields) (s : State) : Host.Outcome State Fault Refusal :=
  issue (.hmul2 f) s fun s => s.writeDRm f f.mod3 fun w l => perHalf fun i =>
    mulVal (halfFmt f) (w.rm f.mod3 l i) ((halfFmt f).decode (half (w.srcA f l) i)) ((halfFmt f).decode (half (w.srcB f l) i))

/-- R283. -/
def execHfma2 (f : Fields) (s : State) : Host.Outcome State Fault Refusal :=
  issue (.hfma2 f) s fun s => s.writeDRm f f.mod3 fun w l => perHalf fun i =>
    fmaVal (halfFmt f) (w.rm f.mod3 l i) ((halfFmt f).decode (half (w.srcA f l) i)) ((halfFmt f).decode (half (w.srcB f l) i))
      ((halfFmt f).decode (half (w.srcC f l) i))

/-- R283. -/
def execHmin2 (f : Fields) (s : State) : Host.Outcome State Fault Refusal :=
  issue (.hmin2 f) s fun s => s.writeDFl f fun w l => perHalf fun i =>
    fminCode (halfFmt f) false (half (w.srcA f l) i) (half (w.srcB f l) i)

/-- R283. -/
def execHmax2 (f : Fields) (s : State) : Host.Outcome State Fault Refusal :=
  issue (.hmax2 f) s fun s => s.writeDFl f fun w l => perHalf fun i =>
    fminCode (halfFmt f) true (half (w.srcA f l) i) (half (w.srcB f l) i)

/-- R284. -/
def execBfma2 (f : Fields) (s : State) : Host.Outcome State Fault Refusal :=
  issue (.bfma2 f) s fun s => s.writePairRm f f.mod3 fun w l =>
    let r (i : Nat) (c : Word) : Nat × Flags := fmaVal fp32 (w.rm f.mod3 l i) (bf16.decode (half (w.srcA f l) i))
      (bf16.decode (half (w.srcB f l) i)) (f32 c)
    let c := w.pairC f l
    dwordFl ((r 0 (c.setWidth 32)).1 + (r 1 ((c >>> 32).setWidth 32)).1 * 2 ^ 32,
      (r 0 (c.setWidth 32)).2 ||| (r 1 ((c >>> 32).setWidth 32)).2)

/-! ### FP64 -/

/-- R285. -/
def execDadd (f : Fields) (s : State) : Host.Outcome State Fault Refusal :=
  issue (.dadd f) s fun s => s.writePairRm f f.mod3 fun w l =>
    dwordFl (addVal fp64 (w.rm f.mod3 l 0) (f64 (w.pairA f l)) (f64 (w.wideB f l)))

/-- R285. -/
def execDmul (f : Fields) (s : State) : Host.Outcome State Fault Refusal :=
  issue (.dmul f) s fun s => s.writePairRm f f.mod3 fun w l =>
    dwordFl (mulVal fp64 (w.rm f.mod3 l 0) (f64 (w.pairA f l)) (f64 (w.wideB f l)))

/-- R285. -/
def execDfma (f : Fields) (s : State) : Host.Outcome State Fault Refusal :=
  issue (.dfma f) s fun s => s.writePairRm f f.mod3 fun w l =>
    dwordFl (fmaVal fp64 (w.rm f.mod3 l 0) (f64 (w.pairA f l)) (f64 (w.wideB f l)) (f64 (w.pairC f l)))

/-- R285. -/
def execDcmp (f : Fields) (s : State) : Host.Outcome State Fault Refusal :=
  issue (.dcmp f) s fun s => s.writePredFl f fun w l => floatCond f.mod4 (f64 (w.pairA f l)) (f64 (w.wideB f l))

end Sys2Proof.Machine
end

