-- ==== Sys2Proof/Machine/Requests.lean ====
section
/-! DEFINITION. Requests in flight (R50 to R53, R93 to R117, R159, R160, R190, R303 to R317): how an instruction sends its line
requests, how they are translated, park, reach their home, are performed, and end with a reply or an acknowledgement. -/

namespace Sys2Proof.Machine

/-! ### Values -/

/-- A number read as a signed integer of `w` bits. -/
def signedOf (w v : Nat) : Int := if v % 2 ^ w < 2 ^ (w - 1) then v % 2 ^ w else (v % 2 ^ w : Int) - 2 ^ w

/-- A number of `w` bits, sign-extended to 32 (R309). -/
def signTo32 (w v : Nat) : Nat := if v % 2 ^ w < 2 ^ (w - 1) then v % 2 ^ w else v % 2 ^ w + 2 ^ 32 - 2 ^ w

/-- The new value at the location of an atomic (R316). -/
def atomNew (code w old b : Nat) : Nat :=
  match code with
  | 0 => (old + b) % 2 ^ w
  | 1 => if signedOf w old ≤ signedOf w b then old else b
  | 2 => if signedOf w b ≤ signedOf w old then old else b
  | 3 => Nat.min old b
  | 4 => Nat.max old b
  | 5 => old &&& b
  | 6 => old ||| b
  | 7 => old ^^^ b
  | 8 => b
  | 9 => if b ≤ old then 0 else old + 1
  | 10 => if old = 0 ∨ b < old then b else old - 1
  | 16 => (addVal fp32 .rne (fp32.decode old) (fp32.decode b)).1
  | 17 => (fminCode fp32 false old b).1
  | 18 => (fminCode fp32 true old b).1
  | _ => (addVal fp64 .rne (fp64.decode old) (fp64.decode b)).1

/-- What a read-modify-write leaves at a location of `w` bits; `none`: a `cas` whose comparison fails (R317). `x` is the
operand or the new value, `y` the compare value (R106). -/
def rmwNew (i : Instr) (w old x y : Nat) : Option Nat :=
  match i with
  | .atom f | .red f => some (atomNew f.c.toNat w old x)
  | .cas _ => if old = y then some x else none
  | _ => some x

/-- The operands of a lane as the abroad record lays them out (R106, R307): bytes 15:8 and 23:16 of its slot; a store's data are
zero-filled. -/
def operandsOf (i : Instr) (w : Warp) (l : Nat) : Nat × Nat :=
  match i with
  | .st f =>
    if f.modHi = 1 then ((w.pairB f l).toNat, 0)
    else if f.modHi = 2 then ((w.pairB f l).toNat, (w.pair (f.b.toNat + 2) l).toNat)
    else ((w.srcB f l).toNat % 2 ^ (8 * widthBytes f.modHi), 0)
  | .stfe f => ((w.srcB f l).toNat, 0)
  | .atom f | .red f => (if f.mbit 2 then (w.pairB f l).toNat else (w.srcB f l).toNat, 0)
  | .cas f =>
    if f.mbit 2 then ((w.pairC f l).toNat, (w.pairB f l).toNat) else ((w.srcC f l).toNat, (w.srcB f l).toNat)
  | _ => (0, 0)

/-- A loaded value as its destination holds it (R309). -/
def loadValue (i : Instr) (v : Nat) : Nat :=
  match i with
  | .ld f => if f.modHi = 4 then signTo32 8 v else if f.modHi = 6 then signTo32 16 v else v
  | _ => v

/-- Writes the words of a value to registers, lowest first. -/
def Warp.setRegs (w : Warp) (h : Bool) (l : Nat) : List Nat → Nat → Warp
  | [], _ => w
  | r :: rs, v => (w.setRegIn h r l (BitVec.ofNat 32 v)).setRegs h l rs (v / 2 ^ 32)

/-- Writes a loaded value to a lane's destination (R309, R313, R317). -/
def Warp.writeBack (w : Warp) (i : Instr) (h : Bool) (l v : Nat) : Warp := w.setRegs h l (destsOf i) (loadValue i v)

/-- Writes a lane's escort registers back (R94). -/
def Warp.writeEscort (w : Warp) (l base : Nat) (vs : List Word) : Warp :=
  (List.range vs.length).foldl (fun w i => w.setRegIn false (base + i) l (vs.getD i 0)) w

/-! ### The list of requests -/

/-- A request in flight. -/
def State.req? (s : State) (id : Nat) : Option Req := s.reqs.find? fun r => r.id == id
/-- Replaces a request. -/
def State.setReq (s : State) (r : Req) : State := { s with reqs := s.reqs.map fun q => if q.id = r.id then r else q }
/-- The lanes of a request. -/
def Req.lanes (r : Req) : List Nat := r.slots.map (·.lane)
/-- The virtual or window address of a request's lowest lane. -/
def Req.va (r : Req) : Nat :=
  match r.slots with
  | x :: _ => x.addr
  | [] => 0
/-- The physical address of a lane of a line request. -/
def Req.slotPa (r : Req) (x : Slot) : Nat := r.pa + x.addr % 128
/-- What the request does to its page. -/
def Req.access (r : Req) : Access := if r.fetch then .fetch else r.mi.acc
/-- The index hop of an `ldi` (R313). -/
def Req.isIndex (r : Req) : Bool :=
  !r.hop2 && match r.insn with
    | .ldi _ => true
    | _ => false
/-- A synchronising access other than `st.ord` (R159). -/
def Req.sync (r : Req) : Bool := !r.fetch && r.mi.scope != 0 && !r.mi.ord
/-- A store or reduction (R114, R190). -/
def Req.stores (r : Req) : Bool :=
  !r.fetch && match r.insn with
    | .st _ | .red _ => true
    | _ => false
/-- The home is another package. -/
def State.remote (s : State) (r : Req) : Bool := r.pa / pkgSpan != s.pkg
/-- The workgroup still takes replies (R108). -/
def State.takes (s : State) (r : Req) : Bool := (s.wg r.wg).status == .resident
/-- The partition of a request. -/
def State.reqPart (s : State) (r : Req) : Nat := s.ctxPart (s.ctxNo r.wg)

/-- A write of a thread, by a store or an atomic, that a matrix engine of a core could read: in scratch, or through a window to a
workgroup on the core (R163). -/
def State.engineStore (s : State) (r : Req) (core : Nat) : Bool :=
  r.phase != .performed && !r.fetch && r.mi.acc != .read
    && (r.phase == .scratch || (r.phase == .window && (s.wg (wgKey (keyLaunch r.wg) (bits r.va 63 32))).core == core))

/-- Earlier requests of the same threads that their homes have not performed (R146). -/
def State.earlier (s : State) (r : Req) : List Req :=
  s.reqs.filter fun q => q.group < r.group && q.wg == r.wg && q.warp == r.warp && !q.fetch && q.phase != .performed
    && q.lanes.any r.lanes.contains

/-- A request leaves the machine; the last of its instruction, those that a save has recorded among them, lowers the class counter
(R190, R107). -/
def State.retire (s : State) (r : Req) : State :=
  let rest := s.reqs.filter fun q => q.id != r.id
  let s1 := { s with reqs := rest }
  if r.fetch || (rest ++ (s.wg r.wg).recReqs).any (fun q => q.group == r.group && !q.fetch) then s1
  else s1.updWarp r.wg r.warp fun w => w.bump (counterOf r.insn) false

/-- Writes the escorts of a request's lanes back (R94, R103). -/
def State.returnEscort (s : State) (r : Req) : State :=
  if r.noEsc || !s.takes r then s
  else s.updWarp r.wg r.warp fun w => r.slots.foldl (fun w x => w.writeEscort x.lane r.escBase x.esc) w

/-- A lane's wait for a parked fetch is over, or the wait that a trap has frozen (R50, R389). -/
def Lane.fetchOver (x : Lane) : Lane :=
  let isFetch (t : Option Wait) : Bool := match t with
    | some { what := .fetch, .. } => true
    | _ => false
  if isFetch x.wait then { x with wait := none } else if isFetch x.frozenWait then { x with frozenWait := none } else x

/-- A fetch whose page is there ends: its threads fetch afresh, those of a warp that a trap has meanwhile sent to its handler when they
come back to the fetch (R50, R389). -/
def State.endFetch (s : State) (r : Req) : State := (s.updLanes r.wg r.warp r.lanes fun _ x => x.fetchOver).retire r

/-- A request ends with a trap of its lanes: the escort is returned first and nothing else is written (R49, R57, R103); `cancel`: the
number of the cancel that ends it, or 0. -/
def State.failReq (s : State) (r : Req) (cause detail : Nat) (cancel : Nat := 0) : State :=
  let s1 := s.returnEscort r
  let s2 := if s.takes r then
      s1.addTrap r.wg r.warp { cause, detail, pc := r.pc, va := BitVec.ofNat 80 r.va, mask := maskOf r.lanes, cancel }
    else s1
  s2.retire r

/-! ### Sending (R95, R101) -/

/-- The lanes that address one line, by line in the order of their first lanes. -/
def groupLines (xs : List Slot) : List (List Slot) :=
  (dedup (xs.map fun x => x.addr / 128)).map fun a => xs.filter fun x => x.addr / 128 == a

/-- The lane slots of an instruction; addresses carry the segment in bits 79:64. -/
def State.slotsFor (s : State) (i : Instr) (ls : List Nat) (withEsc : Bool) : List Slot :=
  let f := i.fields
  let w := s.curW
  ls.map fun l =>
    let o := operandsOf i w l
    let base := match i with
      | .ldi _ => (w.pairC f l).toNat
      | _ => 0
    { lane := l, addr := w.address f (memOf i).space l, x := o.1, y := o.2, addr2 := base,
      esc := if withEsc then (List.range f.escCount).map fun n => w.reg (f.escBase + n) l else [] }

/-- The hampers that an escorted instruction forms: one per line, one per lane for `ldi` (R95). -/
def hampersOf (i : Instr) (lines lanes : Nat) : Nat :=
  if i.fields.escCount = 0 then 0
  else match i with
    | .ldi _ => lanes
    | _ => lines

/-- Whether the allowance refuses the instruction's hampers (R101). -/
def State.noRoom (s : State) (i : Instr) (ls : List Nat) : Bool :=
  let h := hampersOf i (groupLines (s.slotsFor i ls false)).length ls.length
  h != 0 && 2 ^ 20 < s.escUsed s.curG.core + 32 * h

/-- A window request's target is not admitted yet: its hampers wait in base camp (R96). -/
def State.targetWaits (s : State) (r : Req) : Bool :=
  (s.wg (wgKey (keyLaunch r.wg) (bits r.va 63 32))).status == .waiting

/-- The path that a remote line request takes: the next of the model's inputs, reduced to the paths that are up. -/
def State.takePath (s : State) (pkg : Nat) : Nat × State :=
  let up := (s.pathsTo pkg).map (·.path)
  match s.paths with
  | p :: ps => (up.getD (p % Nat.max 1 up.length) 0, { s with paths := ps })
  | [] => (up.headD 0, s)

/-- The paths that the line requests of an instruction to other packages will take (R114): they are chosen at its issue, so that the
checks of the home packages there can be made at issue too (R304; log 73). -/
def State.linePaths (s : State) (i : Instr) (ls : List Nat) : List (Nat × Nat) × State :=
  let m := memOf i
  if m.space = 1 || m.space = 3 then ([], s)
  else (groupLines (s.slotsFor i ls false)).foldl (fun acc xs =>
    match xs, s.probe s.curG.core (s.ctxNo s.curWg) ((xs.map (·.addr)).headD 0) m.acc m.atomic with
    | x :: _, .ok g _ =>
      if g / pkgSpan = s.pkg then acc
      else
        let y := acc.2.takePath (g / pkgSpan)
        (acc.1 ++ [(x.addr / 128, y.1)], y.2)
    | _, _ => acc) ([], s)

/-- The path chosen for an address, if any. -/
def pathAt (paths : List (Nat × Nat)) (addr : Nat) : Option Nat := (paths.find? fun p => p.1 == addr / 128).map Prod.snd

/-- Sends the requests of an instruction, one per line, or one per lane where `perLane`, on their paths; its class counter rises. -/
def State.sendReqs (s : State) (i : Instr) (ls : List Nat) (phase : Phase) (perLane : Bool) (paths : List (Nat × Nat)) : State :=
  let f := i.fields
  let no := s.noRoom i ls
  let slots := s.slotsFor i ls (!no)
  let parts := if perLane then slots.map fun x => [x] else groupLines slots
  let base : Req :=
    { id := 0, group := s.tag, wg := s.curWg, warp := s.curWarp, core := s.curG.core, insn := i, pc := s.curPc,
      space := (memOf i).space, seg := s.curW.segnum f, slots := [], phase, escBase := f.escBase, escCount := f.escCount,
      noEsc := no, handler := s.curW.handler }
  let send (n : Nat) : Req :=
    let xs := parts.getD n []
    let path := pathAt paths ((xs.map (·.addr)).headD 0)
    let r := { base with id := s.tag + n, slots := xs, path := path.getD 0, routed := path.isSome }
    { r with hampers := r.hamperSizes.map fun _ => if phase == .window && s.targetWaits r then .base else .packet }
  let new := (List.range parts.length).map send
  let s1 := { s with reqs := s.reqs ++ new, tag := s.tag + parts.length }
  let s2 := if no then s1.count s.curWg s.curWarp 3 1 else s1
  s2.updCur fun w => w.bump (counterOf i) true

/-! ### Parking and the fault buffer (R50 to R54) -/

/-- The core of a transfer. -/
def State.xferCore (s : State) (x : Xfer) : Nat :=
  match s.copies.find? fun c => c.id == x.copy with
  | some c => c.core
  | none => 0

/-- Requests in a quad's replay pool. -/
def State.poolUse (s : State) (q : Nat) : Nat :=
  (s.reqs.filter fun r => r.phase == .parked && quadOf r.core == q).length
    + (s.xfers.filter fun x => x.phase == .parked && quadOf (s.xferCore x) == q).length
    + (s.occs.filter fun o => o.2.parked == some .parked && quadOf o.2.core == q).length

/-- A quad's replay pool takes no request now: it is full (R50), or older requests wait in a miss queue of the quad for room, though some
may have become free: the request then waits behind them, and sets POOLFULL (DESIGN CHOICE, log 101). -/
def State.poolShut (s : State) (q : Nat) : Bool :=
  1024 ≤ s.poolUse q || (s.reqs.any fun o => o.phase == .miss && quadOf o.core == q)
    || (s.xfers.any fun o => o.phase == .miss && quadOf (s.xferCore o) == q)
    || s.occs.any fun o => o.2.parked == some .miss && quadOf o.2.core == q

/-- FBPOOL.PARKED follows the pool (R54). -/
def State.recountPool (s : State) (q : Nat) : State := s.setField (faultBlock q + 8) 15 0 (Nat.min 65535 (s.poolUse q))

/-- Signals the fault agent if FLTCFG.NOTIFY is set (R53). -/
def State.notifyFault (s : State) (part : Nat) : State :=
  let cfg := s.creg (cmdBlock part + 4)
  if bit cfg 0 then s.signalAgent part (bits cfg 26 16) .faultIrq else s

/-- The offset of a fault-buffer entry (R54). -/
def faultEntryAt (q i : Nat) : Nat := faultBlock q + 0x100 + i * 0x20

/-- Entry i of a quad's fault buffer is valid and describes a page of a context. -/
def State.entryIs (s : State) (q i ctx page : Nat) : Bool :=
  bit (s.creg (faultBlock q)) i && s.creg (faultEntryAt q i) == page % 2 ^ 32
    && s.creg (faultEntryAt q i + 4) == page / 2 ^ 32 % 2 ^ 30 && s.field (faultEntryAt q i + 12) 15 0 == ctx

/-- FBEINFO's access bit: 0 read, 1 write, 2 fetch, 3 atomic (R54). A parked atomic sets ATS alone (DESIGN CHOICE, log 70: the spec does
not say whether it also counts as a read and a write there). -/
def accessBit (a : Access) (atomic : Bool) : Nat :=
  if atomic then 3 else match a with
    | .read => 0
    | .fetch => 2
    | _ => 1

/-- Enters a not-present request in a quad's fault buffer (R52), and signals (R53). -/
def State.faultEntry (s : State) (core ctx part page level abit : Nat) : State :=
  let q := quadOf core
  let fb := faultBlock q
  let mark := 2 ^ abit ||| 2 ^ (4 + core % 4)
  match (List.range 8).find? fun i => s.entryIs q i ctx page with
  | some i =>
    let at_ := faultEntryAt q i + 8
    let n := Nat.min 0xFFFF (s.field at_ 31 16 + 1)
    s.setCreg at_ ((s.creg at_ % 65536 ||| mark) + n * 65536)
  | none =>
    match (List.range 8).find? fun i => !bit (s.creg fb) i with
    | some i =>
      let at_ := faultEntryAt q i
      let s1 := (((s.setCreg at_ (page % 2 ^ 32)).setCreg (at_ + 4) (page / 2 ^ 32 % 2 ^ 30)).setCreg (at_ + 8)
        (mark + level * 256 + 65536)).setCreg (at_ + 12) (ctx % 65536)
      (s1.setCreg fb (s1.creg fb ||| 2 ^ i)).notifyFault part
    | none =>
      let was := bit (s.creg fb) 8
      let s1 := s.setCreg fb (s.creg fb ||| 2 ^ 8)
      let ov := (s1.quad q).overflow
      let s2 :=
        if ov.contains (ctx, page) then s1
        else (s1.updQuad q fun x => { x with overflow := (ov ++ [(ctx, page)]).drop (ov.length - 7) }).setCreg (fb + 4)
          (Nat.min 0xFFFFFFFF (s1.creg (fb + 4) + 1))
      if was then s2 else s2.notifyFault part

/-- A request of a core parks: into the replay pool, or into the miss queue when the pool is full (R50, R52). -/
def State.parkReq (s : State) (r : Req) (level : Nat) : State :=
  let q := quadOf r.core
  let full := s.poolShut q
  let page := r.va / 2 ^ 18
  let (s1, r1) := s.restHamper r (q / 32) (q % 8)
  let s2 := { s1.setReq { r1 with phase := if full then .miss else .parked, order := s1.seq + 1, page, level } with seq := s1.seq + 1 }
  let s3 := if full then s2.setCreg (faultBlock q) (s2.creg (faultBlock q) ||| 2 ^ 9) else s2
  let s4 := s3.faultEntry r.core (s.ctxNo r.wg) (s.reqPart r) page level (accessBit r.access (!r.fetch && r.mi.atomic))
  (s4.recountPool q).count r.wg r.warp 7 1

/-- A page on which an earlier request of the core and context is parked (R51). -/
def State.pageHeld (s : State) (core ctx page : Nat) : Option Nat :=
  match s.reqs.find? fun q => (q.phase == .parked || q.phase == .miss) && q.core == core && s.ctxNo q.wg == ctx && q.page == page with
  | some q => some q.level
  | none =>
    match s.xfers.find? fun x => (x.phase == .parked || x.phase == .miss) && s.xferCore x == core && x.page == page
      && (s.copies.find? fun c => c.id == x.copy).any fun c => s.ctxNo c.wg == ctx with
    | some x => some x.level
    | none => (s.occs.find? fun o => o.2.parked.isSome && o.2.core == core && occCtx o.1 == ctx && o.2.page == page).map (·.2.level)

/-! ### The end of an instruction that fails where its requests go (R20, R160, R304) -/

/-- The requests of a request's instruction that are not performed, those among them that L1 answers. -/
def State.mates (s : State) (r : Req) : List Req :=
  s.reqs.filter fun q => q.group == r.group && !q.fetch && (q.phase != .performed || q.fromL1)

/-- An instruction ends with a trap of the lanes of the requests that failed: no access of it is performed any more, the escorts return
first, and its lanes wait no longer for its replies (R49, R103, R160, R304). -/
def State.endGroup (s : State) (r : Req) (fails : List Req) (cause detail : Nat) : State :=
  let grp := s.mates r
  let s1 := grp.foldl (fun s q => s.returnEscort q) s
  let s2 := (grp.foldl (fun s q => s.retire q) s1).recountPool (quadOf r.core)
  let bad := (List.range 64).filter fun l => fails.any fun q => q.lanes.contains l
  let va := (((fails.flatMap (·.slots)).find? fun x => bad.head? == some x.lane).map (·.addr)).getD 0
  if !s.takes r then s2
  else
    (s2.updLanes r.wg r.warp (grp.flatMap Req.lanes) fun _ x =>
      match x.wait with
      | some { what := .reply g, .. } => if g = r.group then { x with wait := none } else x
      | _ => x).addTrap r.wg r.warp { cause, detail, pc := r.pc, va := BitVec.ofNat 80 va, mask := maskOf bad }

/-- A request whose translation fails ends with PROT: its instruction, while no access of it has been performed, with it; a second hop
of `ldi` by itself (R50, R304, R313). -/
def State.refuseGroup (s : State) (r : Req) (detail : Nat) : State :=
  if r.fetch || r.hop2 || (s.mates r).any (·.arrived)
      || s.reqs.any (fun q => q.group == r.group && !q.fetch && q.phase == .performed && !q.fromL1)
  then s.failReq r 7 detail
  else
    let fails (q : Req) : Bool := q.id == r.id || (q.phase == .translate &&
      match s.probe q.core (s.ctxNo q.wg) q.va q.access q.mi.atomic with
      | .prot _ => true
      | _ => false)
    s.endGroup r ((s.mates r).filter fails) 7 detail

/-! ### Translation (R49, R114) -/

/-- The egress port of a path. -/
def State.portOfPath (s : State) (pkg path : Nat) : Option Nat := ((s.pathsTo pkg).find? fun r => r.path == path).map (·.port)

/-- The key of SENT and DONE: source core, destination package, path (R114). -/
def pathKey (core pkg path : Nat) : Nat := (core * 256 + pkg) * 4 + path

/-- The four SENT or DONE values for a destination package. -/
def fourCounts (m : SMap Word) (core pkg : Nat) : List Word := (List.range 4).map fun k => SMap.get 0 m (pathKey core pkg k)

/-- The line that a load of one request finds in the core's L1: no request of the core to the line is outstanding, nor an earlier `ldi`
of a thread whose line is not known yet, so that program order to each location is kept (R82, R146). -/
def State.l1Answer (s : State) (r : Req) (g cpol : Nat) : Option (List Byte) :=
  match r.insn with
  | .ld f =>
    let line := s.lineOf g
    if f.scope == 0 && cpol != 2 && !(s.reqs.any fun q => q.id != r.id && q.core == r.core && !q.fetch && s.lineOf q.pa == line
        && (q.phase == .home || q.phase == .held))
      && !((s.earlier r).any fun q => q.isIndex || q.phase == .translate)
      && (r.slots.all fun x => s.pastRelease r.core (r.wg, r.warp) x.lane r.group) && s.l1Has r.core line then some (s.lineBytes r.core line)
    else none
  | _ => none

/-- An answer from L1: each lane's bytes come from the line. -/
def Req.fromLine (r : Req) (bytes : List Byte) : Req :=
  { r with phase := .performed, fromL1 := true, slots := r.slots.map fun x => { x with reply := bytesVal ((bytes.drop (x.addr % 128)).take r.size) } }

/-- Stores of the flag's core that were issued after it and are on their way to a package. -/
def State.injectedBefore (s : State) (r : Req) (pkg : Nat) : List Req :=
  s.reqs.filter fun q => q.core == r.core && r.group < q.group && q.stores && !q.mi.ord && q.phase == .home && q.pa / pkgSpan == pkg

/-- An ordered flag is injected: it carries the SENT values of its issue (R115), and the model notes the later-issued stores that
were injected before it, for it orders those too (R158; those that wait for the flag themselves are left out, log 36). -/
def State.injectFlag (s : State) (r : Req) (pkg : Nat) : Req :=
  let later := s.injectedBefore r pkg
  let count (k : Nat) : Nat := (later.filter fun q => q.path == k).length
  { r with
    sentAt := (List.range 4).map fun k => SMap.get 0 s.sent (pathKey r.core pkg k) - BitVec.ofNat 32 (count k)
    behind := (later.filter fun q => !q.mi.rel && !(q.wg == r.wg && q.warp == r.warp && s.lineOf q.pa == s.lineOf r.pa)).map (·.id) }

/-- Sends a translated request toward its home: a load that hits L1 is answered there; another counts as a miss; a remote
store is counted in SENT, and an ordered flag carries the SENT values (R82, R114, R115, R271). L1MISS counts the loads that L1 does not
answer, scoped and uncached ones among them, and no other line request (DESIGN CHOICE, log 91). The hampers of a request that leaves
the package, or goes to the host, stay at the die of its egress station (R96). One goes on the path chosen at its issue, if that is
still up (R405). -/
def State.sendHome (s : State) (r : Req) (g cpol leaf : Nat) : State :=
  match s.l1Answer r g cpol with
  | some bytes =>
    let r1 := { r.leaves with pa := g - g % 128, cpol, leaf }
    (r1.slots.foldl (fun s x => s.readChain none r.core (r.wg, r.warp) x.lane (s.canon (r1.slotPa x)) r.size) (s.l1Use r.core (s.lineOf g))).setReq
      (r1.fromLine bytes)
  | none =>
    let pkg := g / pkgSpan
    let (path, s0) :=
      if pkg = s.pkg then (0, s)
      else if r.routed && (s.pathsTo pkg).any (fun p => p.path == r.path) then (r.path, s)
      else s.takePath pkg
    let r1 := { r.leaves with pa := g - g % 128, cpol, leaf, path, phase := .home }
    let (s1, r2) :=
      if pkg != s.pkg then s0.restHamper r1 (s0.egressDie (s0.portOfPath pkg path)) 0
      else if (s.homeDie g).isNone then s0.restHamper r1 (s0.egressDie none) 0
      else (s0, r1)
    let s2 := match r.insn with
      | .ld _ => s1.count r.wg r.warp 5 1
      | _ => s1
    if r.mi.ord then s2.setReq (s2.injectFlag r2 pkg)
    else if pkg != s.pkg && r.stores then
      { s2.setReq r2 with sent := SMap.upd 0 s2.sent (pathKey r.core pkg path) (· + 1) }
    else s2.setReq r2

/-- The translation of a request (R49 to R51): it parks behind an earlier request to its page, parks where its page is not
present, ends with PROT, or goes on. A fetch that succeeds lets its threads fetch afresh. -/
def State.translateReq (s : State) (r : Req) : State :=
  let ctx := s.ctxNo r.wg
  match s.pageHeld r.core ctx (r.va / 2 ^ 18) with
  | some level => s.parkReq r level
  | none =>
    let (s1, tr, leaf) :=
      if r.hop2 then s.translateHop r.core ctx r.va r.access else s.translate r.core ctx r.va r.access (!r.fetch && r.mi.atomic)
    match tr with
    | .absent level => s1.parkReq r level
    | .prot d => (s1.auditTr tr ctx r.va).refuseGroup r d
    | .ok g cpol =>
      if r.fetch then s1.endFetch r
      else s1.sendHome { r with via := ((s1.tlbEntry r.core ctx r.va).map (·.level)).getD 4 } g cpol leaf

/-- A request goes to its translation before another one of its core: the replayed and restored ones in their order of parking or of
their records (R51, R107), then the others in the order of their issue (R435). -/
def Req.before (q r : Req) : Bool :=
  if q.order != 0 then r.order == 0 || q.order < r.order else r.order == 0 && q.group < r.group

/-- A request may be translated: a core's instructions inject their requests in the order of their issue (R435), and the requests of
a thread to one page arrive in program order (R51). -/
def State.mayTranslate (s : State) (r : Req) : Bool :=
  r.phase == .translate
    && !(s.earlier r).any (fun q => q.phase == .translate && q.va / 2 ^ 18 == r.va / 2 ^ 18)
    && !(r.order != 0 && s.xfers.any fun y => y.order != 0 && y.order < r.order && y.phase == .ready && y.page == r.va / 2 ^ 18
      && s.xferCore y == r.core)
    && (r.fetch || r.hop2
      || !s.reqs.any fun q => q.core == r.core && q.before r && q.phase == .translate && !q.fetch && !q.hop2)

/-! ### Uncorrectable errors (R306) -/

/-- The 8-byte granules of an access. -/
def granules (a n : Nat) : List Nat := (List.range ((a + n - 1) / 8 - a / 8 + 1)).map (a / 8 + ·)

/-- An access reads data with an uncorrectable error. -/
def State.badAt (s : State) (g n : Nat) : Bool :=
  (granules (s.canon g) n).any fun x => s.badMem.contains x

/-- A write that covers whole granules leaves nothing of the error. -/
def State.cleanMem (s : State) (g n : Nat) : State :=
  if 8 ≤ n && s.badAt g n then { s with badMem := s.badMem.filter fun x => !(granules (s.canon g) n).contains x } else s

/-! ### Health (R428) -/

/-- Sets a cause of the service request; SRQ's rise notifies the host by vector 0. -/
def State.serviceRequest (s : State) (n : Nat) : State :=
  let was := bit (s.creg health) 0
  let s1 := (s.setField health n n 1).setField health 0 0 1
  if was then s1 else s1.signal (.msix 0)

/-! ### Retired rows and pseudo-channels (R429) -/

/-- Pseudo-channels of a DRAM stack: 2880 on 18 stacks (R1). -/
def channelsPerStack : Nat := 160

/-- Whole pseudo-channels that the 2 GiB of spare rows of a stack can hold, each a 160th of 48 GiB (R429). -/
def spareChannels : Nat := 2 * channelsPerStack / 48

/-- A pseudo-channel is retired: its contents are served from spare rows of its stack, and PCCNT counts it; where they cannot hold it,
it stays in service (R429). -/
def State.retireChannel (s : State) (key : Nat) : State :=
  let mine := s.retiredChannels.filter fun c => c / channelsPerStack == key / channelsPerStack
  let n := Nat.min 255 (s.retiredChannels.length + 1)
  let s1 := { s with retiredChannels := s.retiredChannels ++ [key] }.setField health 23 16 n
  if s.retiredChannels.contains key || spareChannels ≤ mine.length then s else if 64 < n then s1.serviceRequest 3 else s1

/-- The row of an uncorrectable error is retired (R306, R416), by its own package where that is another one: a spare row takes its
addresses, with its correctable contents, and the granules in error stay so until they are written (R429). A pseudo-channel with more
than 4096 retired rows is retired whole. A row is counted as a line: the spec gives no row size, nor the rows that the spare ones hold beside retired channels (log 44). -/
def State.retireLine (s : State) (g : Nat) : State :=
  let line := s.lineOf g
  if s.retired.contains line || g / pkgSpan != s.pkg then s
  else
    let s1 := { s with retired := line :: s.retired }
    if s1.retired.length ≤ 4096 then s1
    else if 4096 < (s1.retired.filter fun x => Config.channelOf x == Config.channelOf line).length then s1.retireChannel (Config.channelOf line)
    else s1

/-! ### Performing at the home (R109, R141, R145 to R151, R305, R317) -/

/-- The issuing core's L1 after a load of the home (R82): the line is allocated, or a present line is used; a line with an uncorrectable
error is not held. -/
def State.l1Load (s : State) (r : Req) (g : Nat) : State :=
  let line := s.lineOf g
  let ch := r.insn.fields.ch.toNat
  if (granules line 128).any s.badMem.contains then s.l1Drop r.core line
  else match r.insn with
    | .ld _ => if l1Allocates r.cpol ch then s.l1Fill r.core line (if r.cpol = 3 then 1 else ch) else s.l1Use r.core line
    | _ => s.l1Use r.core line

/-- A write that warp `who` of a core makes leaves its bytes in memory. Which other cores see a `cached` write at once is the next of the
model's choices (R147, log 69): 0 all of them, 1 to 3 only the core, quad or die of the writer. Bytes outside the caches are seen by
all. -/
def State.putMem (s : State) (core : Nat) (who : Nat × Nat) (access : Option (Nat × Nat × Nat)) (cached : Bool)
    (bars : List (Nat × Nat)) (stored : Bool) (g n v : Nat) : State :=
  let c := if (s.homeDie g).isNone || !cached then (0, s) else s.takeChoice
  if c.1 % 4 = 0 then c.2.memWrite g n v
  else
    let a := s.canon g
    let was := (List.range n).map fun i => (a + i, s.mem.byte (a + i))
    { c.2.putBytes g n v with
      late := s.late ++ [{ place := none, was, owner := who, seen := [(c.1 % 4, core)], bars, id := s.lateId, core, access, stored }] }

/-- The bytes that a lane of a request writes. -/
def State.putFor (s : State) (r : Req) (lane g n v : Nat) : State :=
  (s.putMem r.core (r.wg, r.warp) (some (lane, r.group, r.id)) (r.cpol != 2) [] r.stores g n v).noteChain s none (s.canon g) n
    (r.wg, r.warp) lane r.group (s.firmLates (r.wg, r.warp) lane)

/-- A load that its home itself answers: one that synchronises, and one whose hint is no-allocate, read the newest value (R439), as
one that no cache serves does. -/
def Req.direct (r : Req) : Bool := r.mi.scope != 0 || r.insn.fields.ch == 3 || r.cpol == 2

/-- A piece of one lane's access is performed at its home, and the issuing core's L1 follows (R82, R147). -/
def State.performPiece (s : State) (r : Req) (x : Slot) (off n : Nat) : State × Slot :=
  let g := r.slotPa x + off
  let a := s.canon g
  match r.insn with
  | .st _ => (((s.putFor r x.lane g n ((x.x + x.y * 2 ^ 64) / 2 ^ (8 * off))).cleanMem g n).l1Use r.core (s.lineOf g), x)
  | .atom _ | .cas _ | .red _ =>
    if s.badAt g n then (s.retireLine g, { x with bad := true })
    else
      let old := s.memRead g n
      let s1 := (s.sawAll none r.core a n).readChain none r.core (r.wg, r.warp) x.lane a n
      let s2 := match rmwNew r.insn (8 * n) old x.x x.y with
        | some v => s1.putFor r x.lane g n v
        | none => s1
      (s2.l1Use r.core (s.lineOf g), { x with reply := old })
  | _ =>
    if s.badAt g n then (s.retireLine g, { x with bad := true })
    else
      let v := if r.direct then s.memRead g n else bytesVal (s.bytesFor r.core a n)
      let s1 := if r.direct then s.sawAll none r.core a n else s
      ((s1.readChain none r.core (r.wg, r.warp) x.lane a n).l1Load r g, { x with reply := x.reply + v * 2 ^ (8 * off) })

/-- Every earlier access of a lane's thread that a release at a scope covers is performed: a store through a window whose target lies
outside the scope is not among them (R151, R442). -/
def State.passedOn (s : State) (r : Req) (x : Slot) : Bool :=
  let scope := r.mi.scope
  (s.reqs.all fun q =>
    !(q.group < r.group && q.wg == r.wg && q.warp == r.warp && !q.fetch)
      || (q.phase == .window && q.stores && !(sameUnit scope r.core (s.wg (wgKey (keyLaunch q.wg) (bits q.va 63 32))).core))
      || q.slots.all fun y => y.lane != x.lane || q.didSlot y)
    && s.shownAt r.core (r.wg, r.warp) x.lane r.group scope

/-- A lane's access may be performed: no earlier access of its thread to the same bytes, or to bytes not known yet, is still to be
performed, nor, for a release, any that it covers, nor, beside an earlier release, what that passes on (R146, R149, R151). -/
def State.slotFree (s : State) (r : Req) (x : Slot) : Bool :=
  if r.mi.rel then s.passedOn r x
  else s.pastRelease r.core (r.wg, r.warp) x.lane r.group && (s.earlier r).all fun q => q.slots.all fun y => y.lane != x.lane || q.didSlot y ||
    match q.phase with
    | .translate => false
    | .home | .held =>
      !q.isIndex && !overlap (s.canon (q.slotPa y)) q.size (s.canon (r.slotPa x)) r.size
    | _ => !q.isIndex

/-- The accesses of a request's lanes may all be performed, one after another. -/
def State.turn (s : State) (r : Req) : Bool := r.slots.all fun x => s.slotFree r x

/-- No lower lane of a writing instruction has still to be performed on a lane's bytes in its request (R305). -/
def Req.lowerDone (r : Req) (x : Slot) : Bool :=
  r.mi.acc == .read || r.slots.all fun y => x.lane ≤ y.lane || r.didSlot y || !overlap (r.slotPa y) r.size (r.slotPa x) r.size

/-- Nor in another request of the instruction, by another address of the same bytes (R141, R305). One that has parked, whose page is not
known, is not waited for (DESIGN CHOICE, log 73). -/
def State.matesDone (s : State) (r : Req) (x : Slot) : Bool :=
  r.mi.acc == .read || (s.mates r).all fun q => q.id == r.id || !(q.phase == .home || q.phase == .held) ||
    q.slots.all fun y => x.lane ≤ y.lane || q.didSlot y || !overlap (s.canon (q.slotPa y)) q.size (s.canon (r.slotPa x)) r.size

/-- The pieces of a request's access that may be performed next, by lane and place. -/
def State.readyPieces (s : State) (r : Req) : List (Nat × Nat) :=
  (r.slots.filter fun x => s.slotFree r x && r.lowerDone x && s.matesDone r x).flatMap fun x =>
    ((List.range r.pieces.length).filter fun i => !x.did.contains i).map fun i => (x.lane, i)

/-- One piece of a lane's access is performed. -/
def State.performAt (s : State) (r : Req) (lane i : Nat) : State × Req :=
  match r.slots.find? fun x => x.lane == lane with
  | none => (s, r)
  | some x =>
    let p := r.pieces.getD i (0, r.size)
    let y := s.performPiece r x p.1 p.2
    (y.1, { r with slots := r.slots.map fun z => if z.lane = lane then { y.2 with did := i :: x.did } else z })

/-- Every piece that is ready, in ascending lane order (R305). -/
def State.performLanes (s : State) (r : Req) : List (Nat × Nat) → State × Req
  | [] => (s, r)
  | (lane, i) :: l =>
    let y := s.performAt r lane i
    y.1.performLanes y.2 l

/-- The pieces of a request that have not been performed. -/
def Req.pending (r : Req) : List (Nat × Nat) :=
  r.slots.flatMap fun x => ((List.range r.pieces.length).filter fun i => !x.did.contains i).map fun i => (x.lane, i)

/-- The lanes of a request that may be performed one after another, in ascending order: those that are free, and, where the request
writes, have no lower lane on their bytes that is neither performed nor free (R305). -/
def State.freeLanes (s : State) (r : Req) : List Nat :=
  let free := r.slots.filter fun x => s.slotFree r x && s.matesDone r x
  (free.filter fun x => r.mi.acc == .read || r.slots.all fun y =>
    x.lane ≤ y.lane || r.didSlot y || !overlap (r.slotPa y) r.size (r.slotPa x) r.size || free.any fun z => z.lane == y.lane).map (·.lane)

/-- A step of a request at its home: other accesses may fall between the accesses of its lanes (R141, R145, R305), so the next of the
model's choices takes one of the pieces that are ready, or (0) all of those of the free lanes. -/
def State.performSome (s : State) (r : Req) : State × Req :=
  let c := if r.pending.length ≤ 1 then (0, s) else s.takeChoice
  let ls := s.freeLanes r
  if c.1 = 0 then c.2.performLanes r (r.pending.filter fun p => ls.contains p.1)
  else
    let ready := s.readyPieces r
    let p := ready.getD ((c.1 - 1) % Nat.max 1 ready.length) (0, 0)
    c.2.performAt r p.1 p.2

/-- DONE counts a remote store that has been performed (R114). -/
def State.countDone (s : State) (r : Req) : State :=
  if s.remote r && r.stores && !r.mi.ord then
    { s with done := SMap.upd 0 s.done (pathKey r.core (r.pa / pkgSpan) r.path) (· + 1) }
  else s

/-- A request at its home: its lanes' accesses and the LLC line's state. A hamper whose request finds its line missing goes to the
slice group's bank or bounces (R96, R98); when all lanes are performed the reply leaves with it. -/
def State.performReq (s : State) (r : Req) : State :=
  let part := s.reqPart r
  let (s1, r1) := match s.homeDie r.pa with
    | some die =>
      if !s.remote r && (s.llcLine r.pa part).isNone && r.hampers.contains .packet then
        s.restHamper r die (sliceOf (s.canon r.pa % 2 ^ 37) / 4)
      else (s, r)
    | none => (s, r)
  let (s2, r2) := s1.performSome r1
  let s3 := s2.llcTouch r.pa part r.cpol r.insn.fields.ch.toNat
  if r2.pending.isEmpty then (s3.setReq { r2.leaves with phase := .performed }).countDone r2 else s3.setReq r2

/-- R96: a request waits at its LLC slice (a miss, a queued atomic) or at the memory controller, and its hampers rest there. A die's
two controllers serve half of its slices each (DESIGN CHOICE, log 67). -/
def State.waitsAt (s : State) (id : Nat) (controller : Bool) : Option State :=
  match s.req? id with
  | some r =>
    match s.homeDie r.pa with
    | some die =>
      if r.phase != .home || s.remote r || r.hampers.all (· == .base) then none
      else
        let slice := sliceOf (s.canon r.pa % 2 ^ 37)
        let y := s.restHamper r die (if controller then 8 + slice / 16 else slice / 4)
        some (y.1.setReq y.2)
    | none => none
  | none => none

/-- The index hop of some lanes of an `ldi` is performed: each lane's data hop is a request of its own, whose hamper waits at the index
slice until it is sent (R96, R109, R313). -/
def State.hopOn (s : State) (r : Req) : State :=
  let part := s.reqPart r
  let (s1, r1) := s.performSome r
  let s2 := s1.llcTouch r.pa part r.cpol r.insn.fields.ch.toNat
  let sx := r.insn.fields.mbit 3
  let w := if r.insn.fields.mbit 2 then 8 else 4
  let next (x : Slot) : Slot :=
    let off := if sx then (BitVec.ofNat 32 x.reply).signExtend 64 else BitVec.ofNat 64 x.reply
    let da := (BitVec.ofNat 64 x.addr2 + off * BitVec.ofNat 64 w).toNat
    { x with addr := x.addr / 2 ^ 64 * 2 ^ 64 + da, x := x.addr, reply := 0, did := [] }
  let lanes := r1.slots.zip (List.range r1.slots.length)
  let kept := lanes.filter fun p => p.1.did.isEmpty
  let gone := lanes.filter fun p => !p.1.did.isEmpty
  let stay : Req := { r1 with slots := kept.map Prod.fst, hampers := if r1.hampers.isEmpty then [] else kept.map fun p => r1.hampers.getD p.2 .packet }
  let s3 : State := { s2 with reqs := if kept.isEmpty then s2.reqs.filter fun q => q.id != r.id else s2.reqs.map fun q => if q.id = r.id then stay else q }
  gone.foldl (fun s p =>
    let q : Req := { r1 with
      id := s.tag
      slots := [if p.1.bad then p.1 else next p.1]
      hampers := if r1.hampers.isEmpty then [] else [r1.hampers.getD p.2 .packet]
      phase := if p.1.bad then .performed else .translate
      routed := false
      arrived := false
      hop2 := true }
    let y := match s.homeDie r.pa with
      | some die =>
        if p.1.bad then (s, q.leaves) else if s.remote r then (s, q) else s.restHamper q die (sliceOf (s.canon r.pa % 2 ^ 37) / 4)
      | none => (s, q)
    { y.1 with reqs := y.1.reqs ++ [y.2], tag := s.tag + 1 }) s3

/-! ### The scope checker at the home (R159, R160) -/

/-- A record is kept for the line of a request: in DRAM and not uncached. -/
def State.keepsRecord (s : State) (r : Req) : Bool := (s.homeDie r.pa).isSome && r.cpol != 2

/-- The check of a request's line record fails. -/
def State.scopeFails (s : State) (r : Req) : Bool :=
  s.keepsRecord r
    && !scopeOk ((s.llcLine r.pa (s.reqPart r)).bind (·.record)) r.mi.scope (s.podCore r.core)

/-- Performs a synchronising request; its line's record becomes the access's scope and core, and in count mode a failed
check counts. The first lane's access renews the record, so that the other lanes of the line pass (R159). -/
def State.performSync (s : State) (r : Req) : State :=
  let ctx := s.ctxNo r.wg
  let s1 := if s.checkMode ctx = 1 && s.scopeFails r then s.countScope ctx 1 else s
  let s2 := s1.performReq r
  if s.keepsRecord r then s2.updLine r.pa (s.reqPart r) fun l => { l with record := some (r.mi.scope, s.podCore r.core) }
  else s2

/-- The access of a request that has passed its checks. -/
def State.access1 (s : State) (r : Req) : State :=
  if r.isIndex then s.hopOn r else if r.mi.scope != 0 then s.performSync r else s.performReq r

/-- The home package's checks of a request where it arrives (R20). -/
def State.arrivalCheck (s : State) (r : Req) : Option Nat := s.homeChecks r.pa r.leaf r.path

/-- The requests of an instruction whose arrival is checked with a request's: those at their homes; a second hop of `ldi` arrives by
itself (R304). -/
def State.arrivals (s : State) (r : Req) : List Req :=
  if r.hop2 then [r] else (s.mates r).filter fun q => !q.hop2 && !q.arrived && (q.phase == .home || q.phase == .held)

/-- A request may arrive: no request of its instruction is still on its way to its home, but those that parked (R50, R304). -/
def State.mayArrive (s : State) (r : Req) : Bool :=
  r.hop2 || !(s.mates r).any fun q => q.phase == .translate && !q.hop2

/-- The requests that arrive with one and that their home packages refuse. -/
def State.refusedWith (s : State) (r : Req) : List Req := (s.arrivals r).filter fun q => (s.arrivalCheck q).isSome

/-- The requests that arrive with one have passed their checks. -/
def State.markArrived (s : State) (r : Req) : State :=
  let ids := (s.arrivals r).map (·.id)
  { s with reqs := s.reqs.map fun q => if ids.contains q.id then { q with arrived := true } else q }

/-- The checker may trap the access of a request that keeps a record: then those of its instruction are checked together before any is
performed, so that the trapping instruction has no effect in any lane (R160, R304; log 36). -/
def State.trapsScope (s : State) (r : Req) : Bool :=
  !r.fetch && r.mi.scope != 0 && !r.checked && s.checkMode (s.ctxNo r.wg) == 0

/-- Every request of a synchronising instruction has arrived, and its lanes may be performed. -/
def State.syncReady (s : State) (r : Req) : Bool := (s.mates r).all fun q => (q.phase == .home || q.phase == .held) && s.turn q

/-- The line of a request is kept for another core's synchronising access, which has passed the checker and is not performed yet: no other
access comes between its check and its record (R159; log 36). -/
def State.lineKept (s : State) (r : Req) : Bool :=
  s.reqs.any fun q => q.checked && q.group != r.group && q.core != r.core && (q.phase == .home || q.phase == .held)
    && s.keepsRecord q && s.lineOf q.pa == s.lineOf r.pa

/-- The checker comes to a request, or to its instruction's together, only where no line is kept for another access. -/
def State.linesFree (s : State) (r : Req) : Bool :=
  r.mi.scope == 0 || r.checked || (if s.trapsScope r then s.mates r else [r]).all fun q => !s.lineKept q

/-- The requests of a request's instruction that fail the scope check. -/
def State.scopeBad (s : State) (r : Req) : List Req := (s.mates r).filter s.scopeFails

/-- The requests of an instruction have passed the scope checker. -/
def State.markChecked (s : State) (r : Req) : State :=
  { s with reqs := s.reqs.map fun q => if q.group = r.group && !q.fetch then { q with checked := true } else q }

/-- A request at its home may take a step: its arrival is refused, or its instruction fails the scope check, or a piece of it may be
performed. -/
def State.homeReady (s : State) (r : Req) : Bool :=
  if !r.arrived && !s.mayArrive r then false
  else if !r.arrived && !(s.refusedWith r).isEmpty then true
  else if !s.linesFree r || (s.trapsScope r && !s.syncReady r) then false
  else (s.trapsScope r && !(s.scopeBad r).isEmpty) || !(s.readyPieces r).isEmpty

/-- A step of a request at its home: the checks where it arrives (R20) and those of the scope checker (R159, R160), which its
instruction's requests pass or fail together, then its access. -/
def State.homeStep (s : State) (r : Req) : State :=
  match s.refusedWith r, r.arrived with
  | q :: qs, false => s.endGroup r (q :: qs) 7 ((s.arrivalCheck q).getD 4)
  | _, _ =>
    let s1 := if r.arrived then s else s.markArrived r
    if s.trapsScope r then
      if (s.scopeBad r).isEmpty then (s1.markChecked r).access1 { r with arrived := true, checked := true }
      else s1.endGroup r (s.scopeBad r) 8 0
    else s1.access1 { r with arrived := true }

/-! ### Replies and acknowledgements (R94, R190, R306) -/

/-- The lanes of a performed request that read an uncorrectable error take DATA_ERR (R306). -/
def State.dataErr (s : State) (r : Req) : State :=
  match r.slots.filter (·.bad) with
  | [] => s
  | x :: xs => s.addTrap r.wg r.warp
      { cause := 9, pc := r.pc, va := BitVec.ofNat 80 x.addr, mask := maskOf ((x :: xs).map (·.lane)) }

/-- The reply writes the destination and the escort of every lane in one step; an acquire at a scope wider than the core
makes later loads of the core read afresh (R94, R151). -/
def State.deliver (s : State) (r : Req) : State :=
  if !s.takes r then s.retire r
  else
    let s1 := s.updWarp r.wg r.warp fun w => r.slots.foldl (fun w x =>
      let w1 := if x.bad then w else w.writeBack r.insn r.handler x.lane x.reply
      if r.noEsc then w1 else w1.writeEscort x.lane r.escBase x.esc) w
    let s2 := if r.mi.acq && 2 ≤ r.mi.scope then s1.l1Clear r.core else s1
    (s2.dataErr r).retire r

/-- The acknowledgement of a store or reduction. -/
def State.acknowledge (s : State) (r : Req) : State := ((if s.takes r then s.dataErr r else s)).retire r

/-! ### The events of a request -/

/-- R49. -/
def execTranslatedAccess (id : Nat) (s : State) : Host.Outcome State Fault Refusal :=
  match s.req? id with
  | some r => event "TRANSLATED_ACCESS" (s.mayTranslate r) (s.translateReq r)
  | none => .refused (.notEnabled "TRANSLATED_ACCESS")

/-- R50: in arrival order, as room frees. -/
def execMissQueueToPool (id : Nat) (s : State) : Host.Outcome State Fault Refusal :=
  let ok (q order : Nat) : Bool :=
    s.poolUse q < 1024
      && !(s.reqs.any fun o => o.phase == .miss && quadOf o.core == q && o.order < order)
      && !(s.xfers.any fun o => o.phase == .miss && quadOf (s.xferCore o) == q && o.order < order)
      && !(s.occs.any fun o => o.2.parked == some .miss && quadOf o.2.core == q && o.2.order < order)
  match s.req? id with
  | some r => event "MISS_QUEUE_TO_POOL" (r.phase == .miss && ok (quadOf r.core) r.order)
      ((s.setReq { r with phase := .parked }).recountPool (quadOf r.core))
  | none =>
    match s.xfers.find? fun x => x.id == id with
    | some x => event "MISS_QUEUE_TO_POOL" (x.phase == .miss && ok (quadOf (s.xferCore x)) x.order)
        ({ s with xfers := s.xfers.map fun (y : Xfer) => if y.id = id then { x with phase := .parked } else y }.recountPool
          (quadOf (s.xferCore x)))
    | none =>
      match s.occs.find? fun o => o.2.id == id && o.2.parked == some .miss with
      | some o => event "MISS_QUEUE_TO_POOL" (ok (quadOf o.2.core) o.2.order)
          ({ s with occs := SMap.upd {} s.occs o.1 fun x => { x with parked := some .parked } }.recountPool (quadOf o.2.core))
      | none => .refused (.notEnabled "MISS_QUEUE_TO_POOL")

/-- A remote store or reduction without `.ord`: it is performed by REMOTE_STORE_PERFORMED. -/
def State.remoteStore (s : State) (r : Req) : Bool := s.remote r && r.stores && !r.mi.ord

/-- R109. -/
def execHomeSliceRequest (id : Nat) (s : State) : Host.Outcome State Fault Refusal :=
  match s.req? id with
  | some r =>
    if r.phase != .home || r.fetch || r.mi.ord || s.remoteStore r then .refused (.notEnabled "HOME_SLICE_REQUEST")
    else event "HOME_SLICE_REQUEST" (s.homeReady r) (s.homeStep r)
  | none => .refused (.notEnabled "HOME_SLICE_REQUEST")

/-- R114: the store is performed at its home, and DONE counts it. -/
def execRemoteStorePerformed (id : Nat) (s : State) : Host.Outcome State Fault Refusal :=
  match s.req? id with
  | some r =>
    if r.phase != .home || !s.remoteStore r then .refused (.notEnabled "REMOTE_STORE_PERFORMED")
    else event "REMOTE_STORE_PERFORMED" (s.homeReady r) (s.homeStep r)
  | none => .refused (.notEnabled "REMOTE_STORE_PERFORMED")

/-- R115, R116: the flag is held at the destination interface, refused by the home package's checks with its instruction's other flags
(R304), or, at a full hold table, sent again. -/
def execOrderedFlagArrival (id : Nat) (s : State) : Host.Outcome State Fault Refusal :=
  match s.req? id with
  | some r =>
    if r.phase != .home || !r.mi.ord then .refused (.notEnabled "ORDERED_FLAG_ARRIVAL")
    else if !r.arrived && !s.mayArrive r then .refused (.notEnabled "ORDERED_FLAG_ARRIVAL")
    else match s.refusedWith r, r.arrived with
      | q :: qs, false => .next (s.endGroup r (q :: qs) 7 ((s.arrivalCheck q).getD 4))
      | _, _ =>
        if 256 ≤ (s.reqs.filter fun q => q.phase == .held && q.pa / pkgSpan == r.pa / pkgSpan).length then .next s
        else .next ((if r.arrived then s else s.markArrived r).setReq { r with phase := .held, arrived := true })
  | none => .refused (.notEnabled "ORDERED_FLAG_ARRIVAL")

/-- a is at or past b (R114). -/
def countReached (a b : Word) : Bool := (a - b).toNat < 2 ^ 31

/-- Every store that the flag orders has been performed (R115, R158, R435): the earlier-issued stores of its core to its package, or to
a page not translated yet, and the later-issued ones that were injected before it; and DONE has reached the SENT values it carries. -/
def State.flagReady (s : State) (r : Req) : Bool :=
  let pkg := r.pa / pkgSpan
  let done := fourCounts s.done r.core pkg
  (!s.remote r || (List.range 4).all fun k => countReached (done.getD k 0) (r.sentAt.getD k 0))
    && !s.reqs.any fun q => q.core == r.core && q.stores && !q.mi.ord && q.phase != .performed &&
      (r.behind.contains q.id || (q.group < r.group && q.space != 1 && q.space != 3 && (q.phase != .home || q.pa / pkgSpan == pkg)))

/-- Those stores are visible to the flag's scope (R158): the flag carries no other write. -/
def State.flagShown (s : State) (r : Req) : Bool :=
  s.late.all fun t => t.shownIn r.core r.mi.scope || !(t.place.isNone && t.core == r.core && t.stored
    && (t.access.any fun x => x.2.1 < r.group || r.behind.contains x.2.2) && t.was.any fun c => c.1 / pkgSpan == r.pa / pkgSpan)

/-- The flag's stores are performed, and a lane of it may be. -/
def State.flagTurn (s : State) (r : Req) : Bool := s.flagReady r && s.flagShown r && !(s.readyPieces r).isEmpty

/-- R115, R158: a store with `.ord` synchronises too (R159); while the checker may trap, the flags of an instruction are checked
together (R160). -/
def execOrderedFlagPerform (id : Nat) (s : State) : Host.Outcome State Fault Refusal :=
  match s.req? id with
  | some r =>
    let checks := s.trapsScope r
    event "ORDERED_FLAG_PERFORM" (r.phase == .held && r.mi.ord && s.linesFree r && (if checks then s.syncReady r else true)
        && ((checks && !(s.scopeBad r).isEmpty) || s.flagTurn r)) (s.homeStep { r with arrived := true })
  | none => .refused (.notEnabled "ORDERED_FLAG_PERFORM")

/-- A reply may be written: an answer of L1 once the other requests of the load, but those that parked, have passed the checks of
their homes, for a load that traps has no effect in any lane (R304). -/
def State.replyDue (s : State) (r : Req) : Bool :=
  !r.fromL1 || (s.mates r).all fun q => q.fromL1 || q.arrived || q.phase == .parked || q.phase == .miss

/-- R94. -/
def execLoadReply (id : Nat) (s : State) : Host.Outcome State Fault Refusal :=
  match s.req? id with
  | some r => event "LOAD_REPLY" (r.phase == .performed && counterOf r.insn == .ldc && s.replyDue r) (s.deliver r)
  | none => .refused (.notEnabled "LOAD_REPLY")

/-- R190. -/
def execStoreAck (id : Nat) (s : State) : Host.Outcome State Fault Refusal :=
  match s.req? id with
  | some r => event "STORE_ACK" (r.phase == .performed && counterOf r.insn == .stc) (s.acknowledge r)
  | none => .refused (.notEnabled "STORE_ACK")

/-- The hampers of a request that lie in a rest-stop bank or in base camp. -/
def Req.resting (r : Req) : List Nat :=
  (List.range r.hampers.length).filter fun i => match r.hampers.getD i .packet with
    | .rest .. | .base => true
    | _ => false

/-- A row of storage is retired (R99, R306, R429). -/
def State.retireRow (s : State) (row : Row) : State := if s.rows.contains row then s else { s with rows := row :: s.rows }

/-- The row of a resting hamper is retired, and base camp, which is its core's storage, counts the error (R99, R429). -/
def State.retireHamper (s : State) (r : Req) (i : Nat) : State :=
  match r.hampers.getD i .packet with
  | .rest die bank => s.retireRow (.restStop die bank)
  | .base => (s.retireRow (.baseCamp r.core)).coreError r.core
  | _ => s

/-- R99: an error strikes a hamper that rests in a bank or in base camp (with several, the model's next choice says which): the
destination and escort registers of its lanes become zero, the lanes take DATA_ERR at their current PC, and the row is retired. What
becomes of the access is not stated: it is dropped unperformed (DESIGN CHOICE, log 71). -/
def execHamperEccError (id : Nat) (s : State) : Host.Outcome State Fault Refusal :=
  match s.req? id with
  | some r =>
    if r.resting.isEmpty then .refused (.notEnabled "HAMPER_ECC_ERROR")
    else
      let c := if r.resting.length = 1 then (0, s) else s.takeChoice
      let i := r.resting.getD (c.1 % r.resting.length) 0
      let xs := if r.hamperSizes.length = 1 then r.slots else (r.slots.drop i).take 1
      let lanes := xs.map (·.lane)
      let s1 := c.2.retireHamper r i
      let s2 := s1.updWarp r.wg r.warp fun w => xs.foldl (fun w x =>
        (w.setRegs r.handler x.lane (destsOf r.insn) 0).writeEscort x.lane r.escBase (List.replicate r.escCount 0)) w
      let pcs := dedup (lanes.map fun l => (s.lane r.wg r.warp l).pc.toNat)
      let s3 := pcs.foldl (fun s pc =>
        let ls := lanes.filter fun l => (s.lane r.wg r.warp l).pc.toNat == pc
        s.addTrap r.wg r.warp { cause := 9, pc := BitVec.ofNat 64 pc, va := BitVec.ofNat 80 r.va, mask := maskOf ls }) s2
      let rest := r.slots.filter fun x => !lanes.contains x.lane
      .next (if rest.isEmpty then s3.retire r else s3.setReq { r with slots := rest, hampers := r.hampers.eraseIdx i })
  | none => .refused (.notEnabled "HAMPER_ECC_ERROR")

end Sys2Proof.Machine
end

