-- ==== Sys2Proof/Machine/Mem.lean ====
section
/-! DEFINITION. The memory instructions (R67 to R75, R303 to R321): `ld`, `st`, `ldi`, `ldfe`, `stfe`, `atom`, `red`, `cas`, the
fences, `cctl` and `pref`. -/

namespace Sys2Proof.Machine

/-! ### Scratch (R67 to R72, R156) -/

/-- The offset of a scratch address of a workgroup in its core's window (R21). -/
def State.scratchOff (s : State) (k a : Nat) : Nat := 0x1000000 + (s.wg k).scratchBase + a

/-- A range of a core's storage, by the offset in its window, holds an uncorrectable error (R306). -/
def State.storeBadAt (s : State) (core off n : Nat) : Bool := (granules off n).any fun x => (s.coreAt core).storeBad.contains x

/-- A write of whole granules of a core's storage leaves nothing of an error. -/
def State.cleanStore (s : State) (core off n : Nat) : State :=
  if 8 ≤ n && s.storeBadAt core off n then
    s.updCore core fun c => { c with storeBad := c.storeBad.filter fun x => !(granules off n).contains x }
  else s

/-- An access to scratch reads an uncorrectable error (R306). -/
def State.scratchBadAt (s : State) (k a n : Nat) : Bool := s.storeBadAt (s.wg k).core (s.scratchOff k a) n

/-- A write of whole granules leaves nothing of an error. -/
def State.cleanScratch (s : State) (k a n : Nat) : State := s.cleanStore (s.wg k).core (s.scratchOff k a) n

/-- Writes a number to a workgroup's scratch; every thread sees it. -/
def State.scratchPut (s : State) (k a n v : Nat) : State := (s.updWg k fun g => g.scratchWrite a n v).settled (some k) a n

/-- The bytes of a workgroup's scratch as the threads of a warp on a core read them (R162). -/
def State.scratchSeen (s : State) (k core : Nat) (who : Nat × Nat) (a n : Nat) : Nat :=
  bytesVal (s.viewOf (some k) core who a ((List.range n).map fun i => (s.wg k).scratchAt (a + i)))

/-- An uncorrectable error of a core's storage, at an offset in its window: it is counted, and the row is retired (R306, R429). -/
def State.storeError (s : State) (core off : Nat) : State := (s.retireRow (.store core (off / 16 * 16))).coreError core

/-- An uncorrectable error in a workgroup's scratch. -/
def State.scratchError (s : State) (k a : Nat) : State := s.storeError (s.wg k).core (s.scratchOff k a)

/-- A write of a lane, of the instruction numbered `b`, to a workgroup's scratch; what precedes it in its thread is noted (R149). -/
def State.scratchStore (s : State) (k : Nat) (who : Nat × Nat) (l b a n v : Nat) : State :=
  (s.scratchPut k a n v).noteChain s (some k) a n who l b (s.firmLates who l)

/-- One lane's access to scratch, by the instruction numbered `b`, in handler mode `h` (R69, R305, R316, R317); `x` and `y` are its
operands. -/
def State.scratchLane (s : State) (k w : Nat) (i : Instr) (h : Bool) (b l a x y : Nat) : State :=
  let n := (memOf i).size
  let core := (s.wg k).core
  match i with
  | .st _ => (s.scratchStore k (k, w) l b a n (x + y * 2 ^ 64)).cleanScratch k a n
  | .ld _ =>
    let s1 := s.readChain (some k) core (k, w) l a n
    (if (memOf i).acq then s1.syncs k w [l] true else s1).updWarp k w fun v => v.writeBack i h l (s.scratchSeen k core (k, w) a n)
  | _ =>
    let old := (s.wg k).scratchRead a n
    let s0 := (s.sawAll (some k) core a n).readChain (some k) core (k, w) l a n
    let s1 := if (memOf i).acq then s0.syncs k w [l] true else s0
    let s2 := match rmwNew i (8 * n) old x y with
      | some v => s1.scratchStore k (k, w) l b a n v
      | none => s1
    s2.updWarp k w fun v => v.writeBack i h l old

/-- An instruction reads scratch: a store does not. -/
def readsScratch (i : Instr) : Bool :=
  match i with
  | .st _ => false
  | _ => true

/-- The lanes of a scratch access that its next slot serves: of each bank, the lanes at the row of the bank's first lane (R68, R69). -/
def nextSlot (xs : List Slot) : List Slot :=
  xs.filter fun x => (xs.find? fun y => y.addr / 16 % 32 == x.addr / 16 % 32).all fun y => y.addr / 512 == x.addr / 512

/-- Lanes of an instruction are performed on scratch, in ascending order (R305). A lane that reads an uncorrectable error is not
(R306). -/
def State.scratchLanes (s : State) (k w : Nat) (i : Instr) (h : Bool) (b : Nat) (xs : List Slot) : State :=
  xs.foldl (fun s x => if readsScratch i && s.scratchBadAt k x.addr (memOf i).size then s.scratchError k x.addr
    else s.scratchLane k w i h b x.lane x.addr x.x x.y) s

/-- The lanes that read an uncorrectable error. -/
def State.scratchBads (s : State) (k : Nat) (i : Instr) (xs : List Slot) : List Slot :=
  xs.filter fun x => readsScratch i && s.scratchBadAt k x.addr (memOf i).size

/-- DATA_ERR of lanes at an instruction (R306). -/
def dataErrOf (pc : DWord) (xs : List Slot) : Option Trap :=
  match xs with
  | [] => none
  | x :: _ => some { cause := 9, pc, va := BitVec.ofNat 80 x.addr, mask := maskOf (xs.map (·.lane)) }

/-- The next slot of a scratch access that takes several (R69, R71); the last one ends it. -/
def State.scratchSlot (s : State) (r : Req) : State :=
  let xs := nextSlot r.slots
  let rest := r.slots.filter fun x => !xs.any fun y => y.lane == x.lane
  let s1 := s.scratchLanes r.wg r.warp r.insn r.handler r.group xs
  let s2 := match dataErrOf r.pc (s.scratchBads r.wg r.insn xs) with
    | some t => s1.addTrap r.wg r.warp t
    | none => s1
  if rest.isEmpty then s2.retire r else s2.setReq { r with slots := rest }

/-- A scratch access of the group (R69, R71, R305, R306). It is performed in the issuing step, lane by lane, or, as the model's next
choice says, its first slot is, and other accesses may fall between that and its other slots; the lanes of an acquire then wait for
their slots (R151). -/
def State.scratchAccess (s : State) (i : Instr) (ls : List Nat) : State :=
  let f := i.fields
  let xs := s.slotsFor i ls false
  let c := if (nextSlot xs).length = xs.length then (0, s) else s.takeChoice
  if c.1 = 0 then
    let s2 := (c.2.scratchLanes s.curWg s.curWarp i s.curW.handler s.tag xs).advance f.len
    match dataErrOf s.curPc (s.scratchBads s.curWg i xs) with
    | none => s2
    | some t => s2.trapHere t
  else
    let r : Req :=
      { id := s.tag, group := s.tag, wg := s.curWg, warp := s.curWarp, core := s.curG.core, insn := i, pc := s.curPc, space := 1,
        slots := xs, phase := .scratch, handler := s.curW.handler }
    let s1 := { c.2 with reqs := s.reqs ++ [r], tag := s.tag + 1 }.updCur fun w => w.bump (counterOf i) true
    (if (memOf i).acq then (s1.waitLanes ls (.reply s.tag) f.len).advanceLanes s.curWg s.curWarp (s.group.filter fun l => !ls.contains l) f.len
     else s1.advance f.len).scratchSlot r

/-! ### Checks and sending (R304) -/

/-- The checks of R304 steps 1 and 2 over the guard-true lanes, with the paths chosen for their lines. An `ldi` also checks the alignment
of its data base (R313). -/
def State.memFailures (s : State) (i : Instr) (ls : List Nat) (paths : List (Nat × Nat)) : List (Nat × Nat × Failure) :=
  let f := i.fields
  let m := memOf i
  ls.filterMap fun l =>
    let a := s.curW.address f m.space l
    let skew := match i with
      | .ldi _ => (s.curW.pairC f l).toNat % (if f.mbit 2 then 8 else 4) != 0
      | _ => false
    if skew then some (l, a, ⟨1, 5, 0⟩) else (s.laneCheck s.curWg m a (some ((pathAt paths a).getD 4))).map fun x => (l, a, x)

/-- Lanes of a trapping instruction whose translations pass checks 2 to 5 of R49 have them cached, without D (R40). -/
def State.cacheOnly (s : State) (i : Instr) (ls : List Nat) : State :=
  let m := memOf i
  if m.space = 1 || m.space = 3 then s
  else ls.foldl (fun s l =>
    let va := s.curW.address i.fields m.space l
    let core := s.curG.core
    let ctx := s.ctxNo s.curWg
    match s.lookup core ctx va m.acc with
    | .leaf e level at_ =>
      if va % m.size != 0 || (s.leafChecks ctx e level va m.acc m.atomic).isSome || (s.tlbHit core ctx va m.acc).isSome then s
      else s.fillTlb core ctx va e level at_ false none
    | _ => s) s

/-- The guard-true lanes of a synchronising access wait for their replies: those of an acquire (R151), and, while the
checker may trap, of every access it checks, a `st.ord` too, so that SCOPE is precise (R160). The group's other lanes go on. -/
def State.afterSend (s : State) (i : Instr) (ls : List Nat) (group : Nat) : State :=
  let m := memOf i
  let len := i.fields.len
  if m.scope != 0 && (m.acq || s.checkMode (s.ctxNo s.curWg) = 0) then
    (s.waitLanes ls (.reply group) len).advanceLanes s.curWg s.curWarp (s.group.filter fun l => !ls.contains l) len
  else s.advance len

/-- The checks of a memory instruction, then its effect on the guard-true lanes `k`, with the paths of its lines; a group without one
goes on. -/
def State.withChecks (s : State) (i : Instr) (k : List Nat → List (Nat × Nat) → State → State) : State :=
  let ls := s.trueLanes i.fields
  if ls.isEmpty then s.advance i.fields.len
  else
    let p := s.linePaths i ls
    let fails := s.memFailures i ls p.1
    match failTrap s.curPc fails with
    | some t => ((s.cacheOnly i ls).auditRefusals s.curWg (memOf i) fails).trapHere t
    | none => k ls p.1 p.2

/-- A load, store or atomic: scratch at once, a window access to the network interface, any other toward its home. -/
def State.access (s : State) (i : Instr) : State :=
  s.withChecks i fun ls paths s =>
    let m := memOf i
    if m.space = 1 then s.scratchAccess i ls
    else (s.sendReqs i ls (if m.space = 3 then .window else .translate) false paths).afterSend i ls s.tag

/-- R308, R309, R311. -/
def execLd (f : Fields) (s : State) : Host.Outcome State Fault Refusal := issue (.ld f) s fun s => s.access (.ld f)

/-- R308, R310, R311. -/
def execSt (f : Fields) (s : State) : Host.Outcome State Fault Refusal := issue (.st f) s fun s => s.access (.st f)

/-- R312, R313. -/
def execLdi (f : Fields) (s : State) : Host.Outcome State Fault Refusal := issue (.ldi f) s fun s => s.access (.ldi f)

/-- R315 to R317. -/
def execAtom (f : Fields) (s : State) : Host.Outcome State Fault Refusal := issue (.atom f) s fun s => s.access (.atom f)

/-- R315 to R317. -/
def execRed (f : Fields) (s : State) : Host.Outcome State Fault Refusal := issue (.red f) s fun s => s.access (.red f)

/-- R315, R317. -/
def execCas (f : Fields) (s : State) : Host.Outcome State Fault Refusal := issue (.cas f) s fun s => s.access (.cas f)

/-! ### Full and empty (R72 to R75, R314) -/

/-- The full/empty bit of the word at a scratch address. -/
def State.feFull (s : State) (k a : Nat) : Bool := SMap.get false (s.wg k).fe (a / 4)

/-- Sets a full/empty bit. -/
def State.setFe (s : State) (k a : Nat) (full : Bool) : State :=
  s.updWg k fun g => { g with fe := SMap.set false g.fe (a / 4) full }

/-- The request takes from a word. -/
def Req.isTake (r : Req) : Bool :=
  match r.insn with
  | .ldfe _ => true
  | _ => false

/-- The oldest waiter of a word that takes, or that fills. -/
def State.feWaiter (s : State) (k a : Nat) (take : Bool) : Option Req :=
  (s.reqs.filter fun r => r.phase == .waiter && r.wg == k && r.va / 4 == a / 4 && r.isTake == take).foldl
    (fun best r => match best with
      | some b => if r.order < b.order then some r else some b
      | none => some r) none

/-- An `ldfe` empties its word; its reply is on its way, and its hamper leaves the waiter table, or base camp, with it (R73, R75, R96). -/
def State.takeWord (s : State) (r : Req) : State :=
  let v := (s.wg r.wg).scratchRead r.va 4
  let bad := s.scratchBadAt r.wg r.va 4
  let s0 := (s.sawAll (some r.wg) r.core r.va 4).readChain (some r.wg) r.core (r.wg, r.warp) (r.lanes.headD 0) r.va 4
  let s1 := (s0.setReq { r with phase := .performed, hampers := r.inPacket, slots := r.slots.map fun x => { x with reply := v, bad } }).setFe r.wg r.va false
  if bad then s1.scratchError r.wg r.va else s1

/-- An `stfe` fills its word, and is done (R73). -/
def State.fillWord (s : State) (r : Req) : State :=
  let x := (r.slots.map (·.x)).headD 0
  ((s.scratchStore r.wg (r.wg, r.warp) ((r.lanes).headD 0) r.group r.va 4 x).setFe r.wg r.va true).retire r

/-- Waiters of a word are served while the word allows it (R73). -/
def State.serveWord (s : State) (k a : Nat) : Nat → State
  | 0 => s
  | fuel + 1 =>
    if s.feFull k a then
      match s.feWaiter k a true with
      | some r => (s.takeWord r).serveWord k a fuel
      | none => s
    else
      match s.feWaiter k a false with
      | some r => (s.fillWord r).serveWord k a fuel
      | none => s

/-- The waiter table of a core is full (R74). -/
def State.tableFull (s : State) (core : Nat) : Bool := 256 ≤ (s.reqs.filter fun r => r.phase == .waiter && r.core == core).length

/-- A blocked lane enters the waiter table, or the overflow queue when the table is full (R74, R96). A lane that blocks while an entry
is free takes it even where older lanes still wait in the overflow queue (DESIGN CHOICE, log 72: the spec does not say). -/
def State.blockWord (s : State) (r : Req) : State :=
  let full := s.tableFull r.core
  let hampers := r.hampers.map fun _ => if full then HamperAt.base else .table
  { s.setReq { r with phase := if full then .overflow else .waiter, order := s.seq, hampers } with seq := s.seq + 1 }

/-- The step of one lane on its word (R73). -/
def State.stepWord (s : State) (r : Req) : State :=
  let full := s.feFull r.wg r.va
  if r.isTake == full then
    (if full then s.takeWord r else s.fillWord r).serveWord r.wg r.va (s.reqs.length + 1)
  else s.blockWord r

/-- The lanes of a full/empty instruction that have not been stepped. -/
def State.unstepped (s : State) (group : Nat) : List Req := s.reqs.filter fun r => r.phase == .scratch && r.group == group

/-- The next slot of a full/empty instruction: its lanes are stepped in ascending order (R69, R71, R73). -/
def State.wordSlot (s : State) (group : Nat) : State :=
  let xs := nextSlot ((s.unstepped group).flatMap (·.slots))
  ((s.unstepped group).filter fun r => r.lanes.any fun l => xs.any fun x => x.lane == l).foldl (fun s r => s.stepWord r) s

/-- Every slot, one after another. -/
def State.wordSlots (s : State) (group : Nat) : Nat → State
  | 0 => s
  | fuel + 1 => if (s.unstepped group).isEmpty then s else (s.wordSlot group).wordSlots group fuel

/-- The next slot of an outstanding scratch access. -/
def State.nextScratchSlot (s : State) (id : Nat) : Option State :=
  match s.req? id with
  | some r =>
    if r.phase == .scratch then some (match r.insn with
      | .ldfe _ | .stfe _ => s.wordSlot r.group
      | _ => s.scratchSlot r)
    else none
  | none => none

/-- The steps of an instruction's lanes, slot by slot and in ascending order; where it takes several slots they are all made in the
issuing step, or, as the model's next choice says, those of the first slot, and other accesses may fall between that and the others
(R71). Threads with a lane still waiting wait with it (R73, R75). -/
def State.accessWords (s : State) (i : Instr) : State :=
  s.withChecks i fun ls paths s =>
    let xs := s.slotsFor i ls false
    let c := if (nextSlot xs).length = xs.length then (0, s) else s.takeChoice
    let s3 := (c.2.sendReqs i ls .scratch true paths).wordSlots s.tag (if c.1 = 0 then ls.length else 1)
    let busy := ls.filter fun l => s3.reqs.any fun r => r.group == s.tag && r.lanes.contains l
    (s3.waitLanes busy .word i.fields.len).advanceLanes s.curWg s.curWarp (s.group.filter fun l => !busy.contains l) i.fields.len

/-- R73, R314: an acquire at core scope. -/
def execLdfe (f : Fields) (s : State) : Host.Outcome State Fault Refusal := issue (.ldfe f) s fun s => s.accessWords (.ldfe f)

/-- R73, R314: a release at core scope. -/
def execStfe (f : Fields) (s : State) : Host.Outcome State Fault Refusal := issue (.stfe f) s fun s => s.accessWords (.stfe f)

/-- R74: when an entry is free, the oldest lane of the overflow queue is stepped afresh. -/
def execWaiterOverflowStep (id : Nat) (s : State) : Host.Outcome State Fault Refusal :=
  match s.req? id with
  | some r =>
    event "WAITER_OVERFLOW_STEP" (r.phase == .overflow && !s.tableFull r.core
      && !s.reqs.any fun q => q.phase == .overflow && q.core == r.core && q.order < r.order) (s.stepWord r)
  | none => .refused (.notEnabled "WAITER_OVERFLOW_STEP")

/-! ### Fences (R152 to R154, R163, R318, R319) -/

/-- The condition of a fence of a thread, for its accesses with numbers below `bound`: `kind` is 16 for `fence.ack`, 17 for
`fence.opr`, else the scope of `fence`. -/
def State.fenceDone (s : State) (k w l bound kind : Nat) : Bool :=
  let core := (s.wg k).core
  let mine := s.reqs.filter fun r => r.wg == k && r.warp == w && !r.fetch && r.group < bound && r.lanes.contains l
  let did (r : Req) : Bool := r.slots.all fun x => x.lane != l || r.didSlot x
  if kind = 16 then
    (mine.all fun r => did r || !(match r.insn with
      | .st _ | .red _ | .atom _ | .cas _ => true
      | _ => false)) && s.late.all fun t => !t.madeBy (k, w) l bound
  else if kind = 17 then
    (mine.all fun r => (destsOf r.insn).isEmpty && !s.engineStore r core)
      && !s.sfus.any fun x => x.wg == k && x.warp == w && x.lanes.contains l
  else mine.all did && s.shownAt core (k, w) l bound kind

/-- A completed `fence` wider than the core is an acquire point: the core's loads read afresh (R151). -/
def State.fenceEnds (s : State) (core kind : Nat) : State := if 2 ≤ kind && kind < 16 then s.l1Clear core else s

/-- A fence acts for each guard-true thread alone (R319). -/
def State.fence (s : State) (f : Fields) (kind : Nat) : State :=
  let ls := s.trueLanes f
  let busy := ls.filter fun l => !s.fenceDone s.curWg s.curWarp l s.tag kind
  let s1 := if busy.length < ls.length then s.fenceEnds s.curG.core kind else s
  (s1.waitLanes busy (.tags s.tag kind) f.len).advanceLanes s.curWg s.curWarp (s.group.filter fun l => !busy.contains l) f.len

/-- R152. -/
def execFence (f : Fields) (s : State) : Host.Outcome State Fault Refusal := issue (.fence f) s fun s => s.fence f f.scope.toNat

/-- R154. -/
def execFenceAck (f : Fields) (s : State) : Host.Outcome State Fault Refusal := issue (.fenceAck f) s fun s => s.fence f 16

/-- R163. -/
def execFenceOpr (f : Fields) (s : State) : Host.Outcome State Fault Refusal := issue (.fenceOpr f) s fun s => s.fence f 17

/-! ### `cctl` and `pref` (R84, R320, R321) -/

/-- Translates the address of each guard-true lane as `pref` does and applies an operation to each distinct line: not
present or failing lanes do nothing; D is never set (R320, R321). The operation receives the address and the policy. -/
def State.eachLine (s : State) (f : Fields) (op : Nat → Nat → State → State) : State :=
  let core := s.curG.core
  let ctx := s.ctxNo s.curWg
  let r := (s.trueLanes f).foldl (fun (acc : State × List Nat) l =>
    let (s, seen) := acc
    let va := s.curW.address f 0 l
    let t := s.translate core ctx va .read false
    match t.1.homeTr t.2.1 t.2.2 4 with
    | .ok g cpol => if seen.contains (t.1.lineOf g) then (t.1, seen) else (op g cpol t.1, t.1.lineOf g :: seen)
    | _ => (t.1.auditTr t.2.1 ctx va, seen)) (s, [])
  r.1.advance f.len

/-- R84, R320: a protected line becomes normal. -/
def execCctlDem (f : Fields) (s : State) : Host.Outcome State Fault Refusal :=
  issue (.cctlDem f) s fun s => s.eachLine f fun g _ s =>
    s.updLine g (s.ctxPart (s.ctxNo s.curWg)) fun l => if l.state = 2 then { l with state := 0 } else l

/-- R320. -/
def execCctlInv1 (f : Fields) (s : State) : Host.Outcome State Fault Refusal :=
  issue (.cctlInv1 f) s fun s => s.eachLine f fun g _ s => s.l1Drop s.curG.core (s.lineOf g)

/-- R320. -/
def execCctlInvall (f : Fields) (s : State) : Host.Outcome State Fault Refusal :=
  issue (.cctlInvall f) s fun s =>
    (if (s.trueLanes f).isEmpty then s else s.l1Clear s.curG.core).advance f.len

/-- R321: the line is allocated in the LLC as the hint gives, and, without `.llc`, in L1. A line present in L1 stays. -/
def execPref (f : Fields) (s : State) : Host.Outcome State Fault Refusal :=
  issue (.pref f) s fun s => s.eachLine f fun g cpol s =>
    let ch := f.ch.toNat
    let line := s.lineOf g
    let core := s.curG.core
    let s1 := s.llcTouch g (s.ctxPart (s.ctxNo s.curWg)) cpol ch
    if f.mbit 2 || !l1Allocates cpol ch || (s.homeDie g).isNone || s1.l1Has core line
        || (granules line 128).any s.badMem.contains then s1
    else s1.l1Fill core line (if cpol = 3 then 1 else ch)

end Sys2Proof.Machine
end

