-- ==== Sys2Proof/Machine/Narrow.lean ====
section
/-! DEFINITION. Conversions, packing, narrow dot products, codebooks (R202 to R210, R286 to R294). -/

namespace Sys2Proof.Machine

/-! ### Elements -/

/-- The value of an E8M0 code (R202). -/
def e8m0Val (c : Nat) : Val := if c = 255 then .nan false else .fin false 1 ((c : Int) - 127)

/-- A two's-complement number of `n` bits. -/
def signed (n v : Nat) : Int := if bit v (n - 1) then (v : Int) - 2 ^ n else v

/-- Element j of an I4X couple, with FMTV where its own nibble is a marker in an odd byte that is read as elements
(R206, R287). -/
def coupleElem (c j : Nat) : Val × Flags :=
  let n := c / 16 ^ j % 16
  let marked := c % 16 == 8 || c / 16 % 16 == 8
  if j < 2 then (if n = 8 then e4m3.decode (c / 256) else .ofInt (signed 4 n), 0)
  else if marked then (.fin false 0 0, 0)
  else if n = 8 then (.fin false 0 0, flFMTV)
  else (.ofInt (signed 4 n), 0)

/-- Element i of a packed FP6 word (R208). -/
def fp6Elem (f : Fmt) (v i : Nat) : Val × Flags :=
  if v / 2 ^ 30 % 4 = 0 then (f.decode (v / 64 ^ i % 64), 0) else (.fin false 0 0, flFMTV)

/-- The value of element i of a register or pair in a format code of R286, with the format violation of that element. -/
def elemVal (code v i : Nat) : Val × Flags :=
  match code with
  | 0 => (fp32.decode (v % 2 ^ 32), 0)
  | 1 => (fp64.decode v, 0)
  | 2 => (fp16.decode (v / 65536 ^ i % 65536), 0)
  | 3 => (bf16.decode (v / 65536 ^ i % 65536), 0)
  | 4 => (e5m2.decode (v / 256 ^ i % 256), 0)
  | 5 => (e4m3.decode (v / 256 ^ i % 256), 0)
  | 6 => fp6Elem e3m2 v i
  | 7 => fp6Elem e2m3 v i
  | 8 => (e8m0Val (v / 256 ^ i % 256), 0)
  | 9 => coupleElem (v / 65536 ^ (i / 4) % 65536) (i % 4)
  | 16 => (.ofInt (signed 8 (v / 256 ^ i % 256)), 0)
  | 17 => (.ofInt (signed 16 (v / 65536 ^ i % 65536)), 0)
  | 18 => (.ofInt (signed 32 (v % 2 ^ 32)), 0)
  | 19 => (.ofInt (signed 64 v), 0)
  | 20 => (.ofInt (v / 256 ^ i % 256 : Nat), 0)
  | 21 => (.ofInt (v / 65536 ^ i % 65536 : Nat), 0)
  | 22 => (.ofInt (v % 2 ^ 32 : Nat), 0)
  | _ => (.ofInt v, 0)

/-- The float format of a code of R286. -/
def codeFmt (code : Nat) : Option Fmt :=
  match code with
  | 0 => some fp32 | 1 => some fp64 | 2 => some fp16 | 3 => some bf16
  | 4 => some e5m2 | 5 => some e4m3 | 6 => some e3m2 | 7 => some e2m3
  | _ => none

/-- Bits and sign of an integer code of R286. -/
def codeInt (code : Nat) : Option (Nat × Bool) :=
  match code with
  | 16 => some (8, true) | 17 => some (16, true) | 18 => some (32, true) | 19 => some (64, true)
  | 20 => some (8, false) | 21 => some (16, false) | 22 => some (32, false) | 23 => some (64, false)
  | _ => none

/-- A value narrowed to an integer of `n` bits, as its bits (R214, R287). -/
def toIntBits (n : Nat) (sgn : Bool) (rm : Rm) (v : Val) : Nat × Flags :=
  let lo : Int := if sgn then -2 ^ (n - 1) else 0
  let hi : Int := if sgn then 2 ^ (n - 1) - 1 else 2 ^ n - 1
  let (r, fl) := narrowInt rm lo hi v
  ((r % 2 ^ n).toNat, fl)

/-- A value narrowed to an I4X nibble (R207). -/
def toNibble (rm : Rm) (v : Val) : Nat × Flags :=
  let (r, fl) := narrowInt rm (-7) 7 v
  ((r % 16).toNat, fl)

/-- A value converted to E8M0 (R287). -/
def toE8m0 (code : Nat) (ovf : Bool) (v : Val) : Nat × Flags :=
  match v with
  | .nan _ => (0xFF, flNV)
  | .inf neg => if neg then (0xFF, flNV) else if ovf then (0xFF, flNV) else (0xFE, flSATF)
  | .fin neg mant exp =>
    if neg || mant == 0 then (0xFF, flNV)
    else
      let k : Int := (Nat.log2 mant : Int) + exp
      let low := 2 ^ Nat.log2 mant
      let up := mant != low && (code == 2 ||
        (code == 0 && (3 * low < 2 * mant || (3 * low == 2 * mant && (k + 127) % 2 == 1))))
      let e := if up then k + 1 else k
      if e < -127 then (0, flNX ||| flSATF)
      else if 127 < e then (0xFE, flNX ||| flSATF)
      else ((e + 127).toNat, flagIf (mant != low) flNX)

/-- A conversion from a narrower or equal float to a wider one is exact and ignores the saturation bit (R287). -/
def widening (s t : Nat) : Bool :=
  match codeFmt s, codeFmt t with
  | some a, some b => b.top == .ieee && a.top == .ieee && a.e ≤ b.e && a.m ≤ b.m
  | _, _ => false

/-- `cvt` of a value (R287): the target's bits and flags. `code` is RM. -/
def convert (s t code : Nat) (rm : Rm) (ovf : Bool) (v : Val) : Nat × Flags :=
  match codeFmt t with
  | some f => narrow f rm (!ovf && !widening s t) v
  | none =>
    if t = 8 then toE8m0 code ovf v
    else if t = 9 then toNibble rm v
    else match codeInt t with
      | some (n, sgn) => toIntBits n sgn rm v
      | none => (0, 0)

/-- Source and target of `cvt`: field B holds S and the element index, C holds T. -/
def Fields.cvtS (f : Fields) : Nat := f.b.toNat % 32
/-- The element index of `cvt`. -/
def Fields.cvtIdx (f : Fields) : Nat := f.b.toNat / 32
/-- The target of `cvt`. -/
def Fields.cvtT (f : Fields) : Nat := f.c.toNat % 32

/-- The result of `cvt` in a lane. -/
def Warp.cvt (w : Warp) (f : Fields) (l : Nat) : Nat × Flags :=
  let s := Fields.cvtS f
  let t := Fields.cvtT f
  let src := if codeIsPair s then (w.pairA f l).toNat else (w.srcA f l).toNat
  let (v, fl) := elemVal s src (Fields.cvtIdx f)
  let (r, fl2) := convert s t f.mod3 (w.rm f.mod3 l 0) (f.mbit 3) v
  (r, fl ||| fl2)

/-- R287. -/
def execCvt (f : Fields) (s : State) : Host.Outcome State Fault Refusal :=
  issue (.cvt f) s fun s =>
    if codeIsPair (Fields.cvtT f) then s.writePairRm f f.mod3 fun w l => dwordFl (w.cvt f l)
    else s.writeDRm f f.mod3 fun w l => wordFl (w.cvt f l)

/-- Element sources of `pack`, in element order (R289). -/
def Warp.packSources (w : Warp) (f : Fields) (l : Nat) : List Word :=
  let t := f.c.toNat % 128
  if t ≤ 3 then [w.srcA f l, w.srcB f l]
  else
    let a := f.a.toNat
    let b := f.b.toNat
    [w.reg a l, w.reg (a + 1) l, w.reg b l, w.reg (b + 1) l] ++ (if t = 6 ∨ t = 7 then [w.reg (b + 2) l] else [])

/-- Places narrowed elements of `width` bits one above the other, from element number i. -/
def packElems (width : Nat) (g : Nat → Word → Nat × Flags) : Nat → List Word → Nat × Flags
  | _, [] => (0, 0)
  | i, x :: l =>
    let (e, fl) := g i x
    let (r, fl2) := packElems width g (i + 1) l
    (e + r * 2 ^ width, fl ||| fl2)

/-- The result of `pack` in a lane (R289); the I4X form keeps the other half of D. -/
def Warp.packed (w : Warp) (f : Fields) (l : Nat) : Word × Flags :=
  let t := f.c.toNat % 128
  let hi := f.c.toNat / 128 == 1
  match codeFmt t with
  | some fm =>
    wordFl (packElems (1 + fm.e + fm.m) (fun i x => narrow fm (w.rm f.mod3 l i) (!f.mbit 3) (f32 x)) 0 (w.packSources f l))
  | none =>
    let (c, fl) := packElems 4 (fun i x => toNibble (w.rm f.mod3 l i) (f32 x)) (if hi then 4 else 0) (w.packSources f l)
    let old := (w.src (f.kinds.getLsbD 0) f.d l).toNat
    (BitVec.ofNat 32 (if hi then setBits old 31 16 c else setBits old 15 0 c), fl)

/-- R289. -/
def execPack (f : Fields) (s : State) : Host.Outcome State Fault Refusal :=
  issue (.pack f) s fun s => s.writeDRm f f.mod3 fun w l => w.packed f l

/-- An element widened exactly to FP32 (R290): a NaN is canonical, invalid if signalling. -/
def toF32 (v : Val) : Nat × Flags := narrow fp32 .rne false v

/-- Element i of `unpk` in a lane. -/
def Warp.unpacked (w : Warp) (f : Fields) (l i : Nat) : Nat × Flags :=
  let (v, fl) := elemVal f.b.toNat (w.srcA f l).toNat i
  let (r, fl2) := toF32 v
  (r, fl ||| fl2)

/-- R290. -/
def execUnpk (f : Fields) (s : State) : Host.Outcome State Fault Refusal :=
  issue (.unpk f) s fun s =>
    let ls := s.trueLanes f
    let n := List.range (codeElems f.b.toNat)
    (s.updCur fun w =>
      (ls.foldl (fun x l => n.foldl (fun x i =>
        x.setReg (f.d.toNat + i) l (BitVec.ofNat 32 (w.unpacked f l i).1)) x) w).orFlags
        (flagsOver ls fun l => flagsOver n fun i => (w.unpacked f l i).2)).advance f.len

/-- A codebook entry (R209). -/
def Warp.bookEntry (w : Warp) (k i : Nat) : Nat := (SMap.get 0 w.books (k * 16 + i)).toNat

/-- One step of a dot product (R221). -/
def dotStep (acc : Nat × Flags) (a b : Val) : Nat × Flags :=
  let (r, fl) := fmaVal fp32 .rne a b (fp32.decode acc.1)
  (r, acc.2 ||| fl)

/-- The elements of a `ndot` format: K, and the decoding of A and of B (R291). -/
def Warp.ndotElem (w : Warp) (fm : Nat) (isA : Bool) (v i : Nat) : Val × Flags :=
  if 8 ≤ fm then
    if isA then (bf16.decode (w.bookEntry (fm - 8) (v / 16 ^ i % 16)), 0) else elemVal 9 v i
  else elemVal (match fm with
    | 0 => 9 | 1 => 5 | 2 => 4 | 3 => 6 | 4 => 7 | 5 => 3 | 6 => 2 | _ => 16) v i

/-- The element count of a `ndot` format (R291). -/
def ndotCount (fm : Nat) : Nat :=
  match fm with
  | 0 => 8 | 1 => 4 | 2 => 4 | 3 => 5 | 4 => 5 | 5 => 2 | 6 => 2 | 7 => 4 | _ => 8

/-- The result of `ndot` in a lane (R221, R291). -/
def Warp.ndot (w : Warp) (f : Fields) (l : Nat) : Nat × Flags :=
  (List.range (ndotCount f.mod4)).foldl (fun acc i =>
    let (a, fa) := w.ndotElem f.mod4 true (w.srcA f l).toNat i
    let (b, fb) := w.ndotElem f.mod4 false (w.srcB f l).toNat i
    dotStep (acc.1, acc.2 ||| fa ||| fb) a b) ((w.srcC f l).toNat, 0)

/-- R291. -/
def execNdot (f : Fields) (s : State) : Host.Outcome State Fault Refusal :=
  issue (.ndot f) s fun s => s.writeDFl f fun w l => wordFl (w.ndot f l)

/-! ### Codebooks (R209, R210, R292 to R294) -/

/-- R292. -/
def execCbld (f : Fields) (s : State) : Host.Outcome State Fault Refusal :=
  issue (.cbld f) s fun s =>
    (s.updCur fun w => ((s.trueLanes f).filter (· < 8)).foldl (fun x l =>
      let v := w.srcA f l
      let k := f.d.toNat * 16 + 2 * l
      { x with books := SMap.set 0 (SMap.set 0 x.books k (v.setWidth 16)) (k + 1) ((v >>> 16).setWidth 16) }) w).advance f.len

/-- The distance of two non-NaN values in the extended reals (R210). -/
def distance (v e : Val) : Val :=
  match v, e with
  | .inf n, .inf k => if n = k then .fin false 0 0 else .inf false
  | _, _ =>
    match (v.add .rne e.neg).1 with
    | .fin _ m x => .fin false m x
    | _ => .inf false

/-- The nearest entry so far: its index and distance, over entries in ascending order (R210). -/
def nearer (v : Val) (best : Option (Nat × Val)) (p : Nat × Val) : Option (Nat × Val) :=
  if p.2.isNan then best
  else match best with
    | none => some (p.1, distance v p.2)
    | some (i, d) => if (distance v p.2).cmp d == .lt then some (p.1, distance v p.2) else some (i, d)

/-- The C4 index of a value and FMTV (R210). -/
def encodeC4 (entries : List (Nat × Val)) (v : Val) : Nat × Flags :=
  if v.isNan then
    match entries.find? fun p => p.2.isNan with
    | some p => (p.1, 0)
    | none => (0, flFMTV)
  else
    match entries.foldl (nearer v) none with
    | some (i, _) => (i, 0)
    | none => (0, flFMTV)

/-- R293. -/
def execCbenc (f : Fields) (s : State) : Host.Outcome State Fault Refusal :=
  issue (.cbenc f) s fun s => s.writeDFl f fun w l =>
    wordFl (encodeC4 ((List.range 16).map fun i => (i, bf16.decode (w.bookEntry f.c.toNat i))) (f32 (w.srcA f l)))

/-- R294. -/
def execCbdec (f : Fields) (s : State) : Host.Outcome State Fault Refusal :=
  issue (.cbdec f) s fun s => s.writeDFl f fun w l =>
    wordFl (toF32 (bf16.decode (w.bookEntry f.c.toNat ((w.srcA f l).toNat / 16 ^ f.mod3 % 16))))

end Sys2Proof.Machine
end

