-- ==== Sys2Proof/Machine/Matrix.lean ====
section
/-! DEFINITION. The matrix engine (R76 to R80, R163 to R165, R189, R341 to R360): parameter blocks, the issue and acceptance of
operations, and what an operation computes when it completes. -/

namespace Sys2Proof.Machine

/-! ### The parameter block (R347) -/

/-- A parameter block; `zero`: no reserved bit of the fields common to the three operations is set. -/
structure MatBlock where
  areg : Bool
  asrc : Nat
  astride : Nat
  bwb : Bool
  bsrc : Nat
  bstride : Nat
  k : Nat
  acc : Nat
  side : Nat
  ovw : Bool
  chain : Bool
  j : Nat
  pbuf : Nat
  ridx0 : Nat
  zero : Bool
deriving DecidableEq, Repr

/-- The 16 words at a scratch address. -/
def State.blockAt (s : State) (k a : Nat) : List Word :=
  (List.range 16).map fun n => BitVec.ofNat 32 ((s.wg k).scratchRead (a + 4 * n) 4)

/-- The fields of a block (R347). -/
def blockOf (ws : List Word) : MatBlock :=
  let w (n : Nat) : Nat := (ws.getD n 0).toNat
  let areg := bit (w 0) 31
  let bwb := bit (w 2) 31
  { areg, asrc := if areg then bits (w 0) 7 0 else bits (w 0) 19 0, astride := bits (w 1) 19 0,
    bwb, bsrc := if bwb then bits (w 2) 2 0 else bits (w 2) 19 0,
    bstride := if bwb then bits (w 3) 15 0 else bits (w 3) 19 0,
    k := bits (w 4) 12 0, acc := bits (w 5) 7 0, side := bits (w 5) 15 8, ovw := bit (w 5) 16, chain := bit (w 5) 17,
    j := bits (w 5) 25 24, pbuf := bits (w 6) 19 0, ridx0 := bits (w 7) 7 0,
    zero := (if areg then bits (w 0) 30 8 == 0 && w 1 == 0 else bits (w 0) 30 20 == 0 && bits (w 1) 31 20 == 0)
      && (if bwb then bits (w 2) 30 3 == 0 && bits (w 3) 31 16 == 0 else bits (w 2) 30 20 == 0 && bits (w 3) 31 20 == 0)
      && bits (w 4) 31 13 == 0 && bits (w 5) 23 18 == 0 && bits (w 5) 31 26 == 0 && bits (w 6) 31 20 == 0
      && bits (w 7) 31 8 == 0 && (List.range 8).all fun n => w (8 + n) == 0 }

/-- The operations that take a block: 0 `mxi`, 1 `mxs`, 2 `mxv`. -/
def blockOp (i : Instr) : Option Nat :=
  match i with
  | .mxi _ => some 0 | .mxs _ => some 1 | .mxv _ => some 2 | _ => none

/-- The element codes (R286) of A and B for an FMT code (R341); B in C4 is 10. -/
def fmtCodes (fmt : Nat) : Nat × Nat :=
  match fmt with
  | 0 => (3, 3) | 1 => (2, 2) | 2 => (0, 0) | 3 => (5, 5) | 4 => (4, 4) | 5 => (6, 6) | 6 => (7, 7) | 7 => (9, 9)
  | 8 => (5, 10) | _ => (9, 10)

/-- Bytes of `n` packed elements of a code (R348). -/
def rowBytes (code n : Nat) : Nat := 4 * ((n + codeElems code - 1) / Nat.max 1 (codeElems code))

/-- Registers that each contributor supplies (R350). -/
def sliceRegs (x : MatBlock) (fmt : Nat) : Nat := rowBytes (fmtCodes fmt).1 (x.k / (x.j + 1)) / 4

/-- DETAIL of the first check of R349 that a block fails: 9 for what its fields hold, then 8 for its extents, then 9 for its alignment
(DESIGN CHOICE, log 92: the rule orders none of them). -/
def blockFails (p : Packet) (op fmt role ridx : Nat) (x : MatBlock) : Option Nat :=
  let sc := p.scratch
  if !x.zero || (op != 1 && (x.side != 0 || x.chain)) || (op == 0 && x.pbuf != 0) || x.pbuf % 256 != 0
      || (!x.areg && (x.j != 0 || x.ridx0 != 0)) then some 9
  else if x.k < 32 || 4096 < x.k || x.k % 32 != 0 then some 9
  else if p.nacc ≤ x.acc || (op == 1 && p.nacc ≤ x.side) then some 9
  else if (x.bwb && (p.nwb ≤ x.bsrc || fmt == 2)) || (!x.bwb && 8 ≤ fmt) then some 9
  else if x.areg && (x.j == 2 || x.k % (32 * (x.j + 1)) != 0 || p.home + p.travel < x.asrc + sliceRegs x fmt
      || role != 1 || ridx < x.ridx0 || x.ridx0 + x.j < ridx) then some 9
  else if (!x.areg && sc < x.asrc + 63 * x.astride + rowBytes (fmtCodes fmt).1 x.k)
      || (!x.bwb && sc < x.bsrc + (x.k - 1) * x.bstride + rowBytes (fmtCodes fmt).2 64)
      || (op != 0 && sc < x.pbuf + 8448) then some 8
  else if (!x.areg && (x.asrc % 4 != 0 || x.astride % 4 != 0)) || (!x.bwb && (x.bsrc % 4 != 0 || x.bstride % 4 != 0))
      || (x.bwb && x.bstride % 8 != 0) then some 9
  else none

/-! ### Issue and acceptance (R189, R190, R342, R350) -/

/-- FMT of a block operation. -/
def fmtOf (i : Instr) : Nat := i.fields.modN

/-- The scratch region of `mxsa` and `mxmv`: address, bytes, alignment (R356, R358). -/
def scratchRegions (i : Instr) (vb vc : Nat) : List (Nat × Nat × Nat) :=
  match i with
  | .mxsa f => let n := if f.mbit 0 then 64 else 256
               let al := if f.mbit 0 then 1 else 4
               [(vb, n, al), (vc, n, al)]
  | .mxmvSt f | .mxmvLd f => [(vb, if f.modN / 8 = 0 then 16384 else 8192, 16)]
  | _ => []

/-- What the elected thread's operands fail: cause, DETAIL, TRAPVA (R347, R349, R356, R358). Of two addresses B comes before C, and the
alignment of one before its bound (DESIGN CHOICE, log 92). A parameter block with an uncorrectable error is not used: it is read at
issue, and the instruction takes DATA_ERR (R306, R342; DEDUCED, log 44). -/
def State.matFails (s : State) (i : Instr) (l : Nat) : Option (Nat × Nat × Nat) :=
  let f := i.fields
  let p := s.packet s.curWg
  let w := s.curW
  match blockOp i with
  | some op =>
    let a := (w.reg f.a.toNat l).toNat
    if a % 64 != 0 then some (5, 0, a)
    else if p.scratch < a + 64 then some (7, 8, a)
    else if s.scratchBadAt s.curWg a 64 then some (9, 0, a)
    else (blockFails p op (fmtOf i) (p.role s.curWarp).1 (p.role s.curWarp).2 (blockOf (s.blockAt s.curWg a))).map
      fun d => (7, d, a)
  | none =>
    (scratchRegions i (w.reg f.b.toNat l).toNat (w.reg f.c.toNat l).toNat).findSome? fun (a, n, al) =>
      if a % al != 0 then some (5, 0, a) else if p.scratch < a + n then some (7, 8, a) else none

/-- The joint block of an operation's elected thread, if A is in registers. -/
def State.jointBlock (s : State) (i : Instr) (l : Nat) : Option MatBlock :=
  match blockOp i with
  | some _ =>
    let x := blockOf (s.blockAt s.curWg (s.curW.reg i.fields.a.toNat l).toNat)
    if x.areg then some x else none
  | none => none

/-- The held joint operation that the issuing warp joins (R350): the oldest with the block address to which it has not yet
contributed. -/
def State.joins (s : State) (i : Instr) (l : Nat) : Option MatOp :=
  s.curG.held.find? fun m => m.va == s.curW.reg i.fields.a.toNat l && m.missing.contains s.curWarp

/-- Operations accepted on a core and not complete. -/
def State.accepted (s : State) (core : Nat) : Nat :=
  (s.matOps.filter fun m => (s.wg (SMap.get 0 s.matWg m.id)).core == core).length

/-- A matrix operation waits at issue: TLC is full, 16 operations are accepted on the core, or 4 joint ones are held
(R190, R342, R350); or a store of the warp that the engine could read is not performed, for the operation sees every write that happens
before its issue (R163). -/
def State.matHeld (s : State) (i : Instr) : Bool :=
  match s.trueLanes i.fields with
  | [] => false
  | l :: _ =>
    (s.matFails i l).isNone && (63 ≤ s.curW.tlc ||
      (s.reqs.any fun r => r.wg == s.curWg && r.warp == s.curWarp && !r.fetch && s.engineStore r s.curG.core) ||
      (match s.jointBlock i l with
       | some x =>
         match s.joins i l with
         | some m => m.missing.length == 1 && 16 ≤ s.accepted s.curG.core
         | none => if x.j = 0 then 16 ≤ s.accepted s.curG.core else 4 ≤ s.curG.held.length
       | none => 16 ≤ s.accepted s.curG.core))

/-- Free values that one operation may use (log 17). -/
def usesPerOp : Nat := 2 ^ 26

/-- Adds an accepted operation: what scratch and the slots hold now are its operands at issue (R163). -/
def State.accept (s : State) (k : Nat) (m : MatOp) : State :=
  let g := s.wg k
  let now (o : Operands) : Operands := { o with scratch := g.scratch, wb := g.wb }
  let m1 := { m with was := now m.was, since := m.since.map now, free := s.free }
  { s with matOps := s.matOps ++ [m1], matWg := SMap.set 0 s.matWg m.id k, free := s.free + usesPerOp }

/-- The operation that the elected thread issues. -/
def State.newMatOp (s : State) (i : Instr) (l : Nat) : MatOp :=
  let f := i.fields
  let w := s.curW
  let va := w.reg f.a.toNat l
  { id := s.tag, insn := i, warp := s.curWarp, counted := [s.curWarp], pc := s.curPc, va, vb := w.reg f.b.toNat l,
    vc := w.reg f.c.toNat l, block := if (blockOp i).isSome then s.blockAt s.curWg va.toNat else [] }

/-- Warps that contribute to a joint operation (R350). -/
def contributors (p : Packet) (x : MatBlock) : List Nat := (List.range (x.j + 1)).map fun r => p.ncopy + x.ridx0 + r

/-- The registers of A that a warp supplies, as they are at its part of the issue (R163, R350). -/
def State.supplied (s : State) (k w : Nat) (x : MatBlock) (fmt : Nat) (o : Operands) : Operands :=
  let rs := (List.range (sliceRegs x fmt)).map (x.asrc + ·)
  { o with
    regs := SMap.set [] o.regs w (rs.foldl (fun m r => SMap.set [] m r (SMap.get [] (s.warp k w).regs r)) [])
    away := o.away ++ rs.flatMap fun r => ((List.range 64).filter fun l => s.abroad k w r l).map fun l => (w, r, l) }

/-- TLC rises, and operations with errors are older by one (R345). -/
def Warp.tileIssued (w : Warp) : Warp := { w with tlc := w.tlc + 1, tileErrs := w.tileErrs.map fun e => (e.1, e.2 + 1) }

/-- An operation that passes its checks is accepted, or joins or opens a joint operation (R342, R350). -/
def State.matIssue (s : State) (i : Instr) (l : Nat) : State :=
  let p := s.packet s.curWg
  let m := s.newMatOp i l
  let s1 := { s.updCur Warp.tileIssued with tag := s.tag + 1 }
  match s.jointBlock i l with
  | none => s1.accept s.curWg m
  | some x =>
    let lead := p.ncopy + x.ridx0
    match s.joins i l with
    | some h =>
      let h1 := { h with missing := h.missing.filter (· != s.curWarp), counted := h.counted ++ [s.curWarp]
                         was := s.supplied s.curWg s.curWarp x (fmtOf h.insn) h.was }
      if h1.missing.isEmpty then
        (s1.updCurG fun g => { g with held := g.held.filter fun q => q.id != h.id }).accept s.curWg h1
      else s1.updCurG fun g => { g with held := g.held.map fun q => if q.id = h.id then h1 else q }
    | none =>
      let m1 := { m with warp := lead, missing := (contributors p x).filter (· != s.curWarp)
                         was := s.supplied s.curWg s.curWarp x (fmtOf i) {} }
      if m1.missing.isEmpty then s1.accept s.curWg m1 else s1.updCurG fun g => { g with held := g.held ++ [m1] }

/-- The issue of an operation (R189): one for the group, by its lowest guard-true thread. -/
def State.matrix (s : State) (i : Instr) : State :=
  let f := i.fields
  match s.trueLanes f with
  | [] => s.advance f.len
  | l :: _ =>
    match s.matFails i l with
    | some (cause, detail, va) =>
      (if cause = 9 then s.scratchError s.curWg va else s).trapHere { cause, detail, pc := s.curPc, va := BitVec.ofNat 80 va, mask := maskOf [l] }
    | none => (s.matIssue i l).advance f.len

/-- R352. -/
def execMxi (f : Fields) (s : State) : Host.Outcome State Fault Refusal :=
  issueHeld (.mxi f) (s.matHeld (.mxi f)) s fun s => s.matrix (.mxi f)
/-- R353. -/
def execMxs (f : Fields) (s : State) : Host.Outcome State Fault Refusal :=
  issueHeld (.mxs f) (s.matHeld (.mxs f)) s fun s => s.matrix (.mxs f)
/-- R354. -/
def execMxv (f : Fields) (s : State) : Host.Outcome State Fault Refusal :=
  issueHeld (.mxv f) (s.matHeld (.mxv f)) s fun s => s.matrix (.mxv f)
/-- R355. -/
def execMxn (f : Fields) (s : State) : Host.Outcome State Fault Refusal :=
  issueHeld (.mxn f) (s.matHeld (.mxn f)) s fun s => s.matrix (.mxn f)
/-- R356. -/
def execMxsa (f : Fields) (s : State) : Host.Outcome State Fault Refusal :=
  issueHeld (.mxsa f) (s.matHeld (.mxsa f)) s fun s => s.matrix (.mxsa f)
/-- R357. -/
def execMxz (f : Fields) (s : State) : Host.Outcome State Fault Refusal :=
  issueHeld (.mxz f) (s.matHeld (.mxz f)) s fun s => s.matrix (.mxz f)
/-- R358. -/
def execMxmvSt (f : Fields) (s : State) : Host.Outcome State Fault Refusal :=
  issueHeld (.mxmvSt f) (s.matHeld (.mxmvSt f)) s fun s => s.matrix (.mxmvSt f)
/-- R358. -/
def execMxmvLd (f : Fields) (s : State) : Host.Outcome State Fault Refusal :=
  issueHeld (.mxmvLd f) (s.matHeld (.mxmvLd f)) s fun s => s.matrix (.mxmvLd f)
/-- R358. -/
def execMxmvTt (f : Fields) (s : State) : Host.Outcome State Fault Refusal :=
  issueHeld (.mxmvTt f) (s.matHeld (.mxmvTt f)) s fun s => s.matrix (.mxmvTt f)
/-- R359. -/
def execWbinv (f : Fields) (s : State) : Host.Outcome State Fault Refusal :=
  issueHeld (.wbinv f) (s.matHeld (.wbinv f)) s fun s => s.matrix (.wbinv f)

/-! ### Operands (R77 to R80, R348, R350) -/

/-- An exact element and its format violation. -/
abbrev Elem := Val × Flags

/-- Element n of packed words at a scratch address. -/
def Workgroup.packedAt (g : Workgroup) (code at_ n : Nat) : Elem :=
  let e := codeElems code
  elemVal code (g.scratchRead (at_ + 4 * (n / e)) 4) (n % e)

/-- Row i of A: from scratch, or from the registers of the contributors (R348, R350). -/
def Workgroup.rowA (g : Workgroup) (p : Packet) (x : MatBlock) (fmt i : Nat) : List Elem :=
  let code := (fmtCodes fmt).1
  let e := codeElems code
  let kw := x.k / (x.j + 1)
  (List.range x.k).map fun n =>
    if x.areg then
      elemVal code (g.regAt (p.ncopy + x.ridx0 + n / kw) (x.asrc + n % kw / e) i).toNat (n % kw % e)
    else g.packedAt code (x.asrc + i * x.astride) n

/-- Bits of a weight-buffer slot from a bit position; `none` where they lie past its end. -/
def Workgroup.slotBits (g : Workgroup) (slot pos n : Nat) : Option Nat :=
  if 65536 * 8 < pos + n then none
  else some (bytesVal ((List.range ((pos % 8 + n + 7) / 8)).map fun i => g.wbAt slot (pos / 8 + i)) / 2 ^ (pos % 8) % 2 ^ n)

/-- Bits per stored element or couple of a code (R79). -/
def storedBits (code : Nat) : Nat :=
  match code with
  | 4 | 5 => 8 | 6 | 7 => 6 | 10 => 4 | _ => 16

/-- The zero that an element reads as with a violation (R80). -/
def zeroBad : Elem := (.fin false 0 0, flFMTV)

/-- The 64 elements of the WBZ segment at byte `at_` of a slot, and where the next segment begins (R78 to R80). A couple whose
mask bits are not all equal is not stored (log 18). -/
def Workgroup.segment (g : Workgroup) (slot code at_ : Nat) : List Elem × Nat :=
  let mask := g.slotBits slot (at_ * 8) 64
  let m := mask.getD 0
  let head := if code = 10 then 40 else 8
  let width := storedBits code
  let present (i : Nat) : Bool := if code = 9 then m / 16 ^ i % 16 == 15 else bit m i
  let rank (i : Nat) : Nat := ((List.range i).filter present).length
  let stored (i : Nat) : Option Nat := g.slotBits slot ((at_ + head) * 8 + rank i * width) width
  let elem (i : Nat) : Elem :=
    if code = 9 then
      (if m / 16 ^ (i / 4) % 16 = 0 then (.fin false 0 0, 0)
       else if present (i / 4) then
         match stored (i / 4) with
         | some v => elemVal 9 v (i % 4)
         | none => zeroBad
       else zeroBad)
    else if !present i then (.fin false 0 0, 0)
    else match stored i with
      | none => zeroBad
      | some v =>
        if code = 10 then (bf16.decode ((g.slotBits slot ((at_ + 8 + 2 * v) * 8) 16).getD 0), 0)
        else match codeFmt code with
          | some fm => (fm.decode v, 0)
          | none => zeroBad
  let n := rank (if code = 9 then 16 else 64)
  ((List.range 64).map fun i => if mask.isNone then zeroBad else elem i, at_ + (head + (n * width + 7) / 8 + 7) / 8 * 8)

/-- Segments one after another (R77). -/
def Workgroup.segments (g : Workgroup) (slot code : Nat) : Nat → Nat → List (List Elem)
  | 0, _ => []
  | n + 1, at_ =>
    let x := g.segment slot code at_
    x.1 :: g.segments slot code n x.2

/-- The k-blocks of a reduction length. -/
def kBlocks (k : Nat) : Nat := (k + 63) / 64

/-- The last k-block of an odd multiple of 32 has mask bits 63:32 set in a column's segment (R80). -/
def tailBad (k : Nat) (segs : List (List Elem)) (masks : List Nat) : Bool :=
  k % 64 == 32 && ((List.range segs.length).any fun n => segs.length ≤ n + 64 && masks.getD n 0 / 2 ^ 32 != 0)

/-- The presence masks of segments (R78). -/
def Workgroup.segMasks (g : Workgroup) (slot code : Nat) : Nat → Nat → List Nat
  | 0, _ => []
  | n + 1, at_ => (g.slotBits slot (at_ * 8) 64).getD 0 :: g.segMasks slot code n (g.segment slot code at_).2

/-- The 64 columns of B, each of K elements, and the violations that no element carries (R77, R80, R348). -/
def Workgroup.colsB (g : Workgroup) (x : MatBlock) (fmt : Nat) : List (List Elem) × Flags :=
  let code := (fmtCodes fmt).2
  if x.bwb then
    let n := kBlocks x.k * 64
    let segs := g.segments x.bsrc code n x.bstride
    ((List.range 64).map fun j => ((List.range (kBlocks x.k)).flatMap fun b => segs.getD (64 * b + j) []).take x.k,
     flagIf (tailBad x.k segs (g.segMasks x.bsrc code n x.bstride)) flFMTV)
  else ((List.range 64).map fun j => (List.range x.k).map fun n => g.packedAt code (x.bsrc + n * x.bstride) j, 0)

/-! ### Operands that are written while the operation is outstanding (R164) -/

/-- The operands that a workgroup holds now where an operation has noted them. -/
def Workgroup.operands (g : Workgroup) (o : Operands) : Operands :=
  { scratch := g.scratch, wb := g.wb, away := o.away,
    regs := o.regs.map fun (p : Nat × SMap (SMap Word)) =>
      (p.1, p.2.map fun (q : Nat × SMap Word) => (q.1, SMap.get [] (g.warp p.1).regs q.1)) }

/-- A workgroup with the operands of an operation as they were at its issue. -/
def Workgroup.asIssued (g : Workgroup) (o : Operands) : Workgroup :=
  let h := { g with scratch := o.scratch, wb := o.wb,
                    warps := o.regs.foldl (fun ws p => SMap.upd {} ws p.1 fun w =>
                      { w with regs := p.2.foldl (fun m q => SMap.set [] m q.1 q.2) w.regs }) g.warps }
  o.away.foldl (fun h x => { h with warps := SMap.upd {} h.warps x.1 fun w => w.setRegIn false x.2.1 x.2.2 (g.regAt x.1 x.2.1 x.2.2) }) h

/-- An operation's operands at its issue and as they have been noted since: the workgroup with each, where it differs from now. -/
def MatOp.olds (m : MatOp) (g : Workgroup) : List Workgroup :=
  (m.was :: m.since).map fun o => if o = g.operands o then g else g.asIssued o

/-- One use of an operand element that has had earlier values since the issue and is `b` now: where they differ, a free value chooses
one of them (R164, log 17). -/
def pick {α : Type} [DecidableEq α] (free : Nat) (olds : List α) (b : α) : α :=
  if olds.all (· = b) then b else (olds[(Config.freeWord free).toNat % (olds.length + 1)]?).getD b

/-- The uses of the elements of a row or column in one chain. -/
def pickAll (free : Nat) (olds : List (List Elem)) : List Elem → List Elem
  | [] => []
  | b :: bs => pick free (olds.filterMap List.head?) b :: pickAll (free + 1) (olds.map List.tail) bs

/-! ### What an operation computes (R221, R352 to R359) -/

/-- A chain in ascending k (R221). -/
def chainSteps : Nat × Flags → List Elem → List Elem → Nat × Flags
  | acc, (a, fa) :: as, (b, fb) :: bs =>
    let r := fmaVal fp32 .rne a b (fp32.decode acc.1)
    chainSteps (r.1, acc.2 ||| fa ||| fb ||| r.2) as bs
  | acc, _, _ => acc

/-- c[i] of `mxv` (R354). -/
def Workgroup.rescale (g : Workgroup) (x : MatBlock) (i : Nat) : Nat := g.scratchRead (x.pbuf + 8192 + 4 * i) 4

/-- The value from which an element's chain starts (R352, R354); `c` is its row's factor. -/
def Workgroup.chainStart (g : Workgroup) (op : Nat) (x : MatBlock) (i j c : Nat) : Nat × Flags :=
  let t := (g.accAt x.acc (64 * i + j)).toNat
  if x.ovw then (0, 0) else if op = 2 then mulVal fp32 .rne (fp32.decode t) (fp32.decode c) else (t, 0)

/-- The chain of element (i, j), of at most `n` steps: row and column as they were (`gs`, `ras`, `cbs`) and as they are now. -/
def Workgroup.chain (g : Workgroup) (gs : List Workgroup) (op : Nat) (x : MatBlock) (free i j n : Nat) (ras : List (List Elem))
    (ra : List Elem) (cbs : List (List Elem)) (cb : List Elem) : Nat × Flags :=
  let u := free + (64 * i + j) * 8192
  let c := pick (free + 2 ^ 25 + 64 * i + j) (gs.map fun h => h.rescale x i) (g.rescale x i)
  chainSteps (g.chainStart op x i j c) ((pickAll u ras ra).take n) ((pickAll (u + 4096) cbs cb).take n)

/-- The 4096 elements of the product, with flags; `gs` hold the operands as they were. -/
def Workgroup.product (g : Workgroup) (gs : List Workgroup) (p : Packet) (op fmt : Nat) (x : MatBlock) (free : Nat) : List (Nat × Flags) :=
  let rowsOf (h : Workgroup) : List (List Elem) := (List.range 64).map fun i => h.rowA p x fmt i
  let olds := gs.map fun h => (rowsOf h, (h.colsB x fmt).1)
  let rows := rowsOf g
  let cols := (g.colsB x fmt).1
  (List.range 64).flatMap fun i => (List.range 64).map fun j =>
    g.chain gs op x free i j x.k (olds.map fun o => o.1.getD i []) (rows.getD i []) (olds.map fun o => o.2.getD j []) (cols.getD j [])

/-- Writes the 4096 elements of a tile. -/
def Workgroup.putTile (g : Workgroup) (t : Nat) (vs : List Nat) : Workgroup :=
  (List.range 4096).foldl (fun g n => g.setAcc t n (BitVec.ofNat 32 (vs.getD n 0))) g

/-- An FP32 code minus another, in RNE. -/
def subF32 (a b : Nat) : Nat × Flags := addVal fp32 .rne (fp32.decode a) (fp32.decode b).neg

/-- The row steps of `mxs` on a row of scores (R353): mx, sm, c, P and flags. -/
def softRow (mx sm : Nat) (row : List Nat) : Nat × Nat × Nat × List Nat × Flags :=
  let m := row.foldl (fun (a : Nat × Flags) t =>
    let r := fminCode fp32 true a.1 t
    (r.1, a.2 ||| r.2)) (mx, 0)
  let (c, ps, fl) : Nat × List Nat × Flags :=
    if m.1 = 0xFF800000 then (0x3F800000, row.map fun _ => 0, 0)
    else
      let d := subF32 mx m.1
      let e := applyFn .exp d.1
      let ps := row.map fun t =>
        let d := subF32 t m.1
        let e := applyFn .exp d.1
        let b := narrow bf16 .rne true (fp32.decode e.1)
        (b.1, d.2 ||| e.2 ||| b.2)
      (e.1, ps.map Prod.fst, ps.foldl (fun a q => a ||| q.2) (d.2 ||| e.2))
  let s0 := mulVal fp32 .rne (fp32.decode sm) (fp32.decode c)
  let s := ps.foldl (fun (a : Nat × Flags) q =>
    let r := addVal fp32 .rne (fp32.decode a.1) (bf16.decode q)
    (r.1, a.2 ||| r.2)) s0
  (m.1, s.1, c, ps, m.2 ||| fl ||| s.2)

/-- The row steps of `mxs` over a tile that holds the scores (R353). -/
def Workgroup.softmax (g : Workgroup) (x : MatBlock) : Workgroup × Flags :=
  (List.range 64).foldl (fun (acc : Workgroup × Flags) i =>
    let h := acc.1
    let mx := if x.chain then (h.mxAt x.side i).toNat else 0xFF800000
    let sm := if x.chain then (h.smAt x.side i).toNat else 0
    let (m, s, c, ps, fl) := softRow mx sm ((List.range 64).map fun j => (h.accAt x.acc (64 * i + j)).toNat)
    let h1 := (h.setMx x.side i (BitVec.ofNat 32 m)).setSm x.side i (BitVec.ofNat 32 s)
    let h2 := (List.range 64).foldl (fun h j => h.scratchWrite (x.pbuf + 128 * i + 2 * j) 2 (ps.getD j 0)) h1
    (h2.scratchWrite (x.pbuf + 8192 + 4 * i) 4 c, acc.2 ||| fl)) (g, 0)

/-- Applies a function to every element of a tile, writing to a tile. -/
def Workgroup.mapTile (g : Workgroup) (d : Nat) (h : Nat → Nat → Nat × Flags) : Workgroup × Flags :=
  let vs := (List.range 4096).map fun n => h (n / 64) (n % 64)
  (g.putTile d (vs.map Prod.fst), vs.foldl (fun a v => a ||| v.2) 0)

/-- The side registers at workgroup start (R357). -/
def Workgroup.zeroSide (g : Workgroup) (t : Nat) : Workgroup :=
  (List.range 64).foldl (fun g i => (g.setMx t i negInf).setSm t i 0) g

/-- Scale n at a scratch address (R356). -/
def Workgroup.scaleAt (g : Workgroup) (e8 : Bool) (at_ n : Nat) : Val :=
  if e8 then e8m0Val (g.scratchAt (at_ + n)).toNat else fp32.decode (g.scratchRead (at_ + 4 * n) 4)

/-- The scratch format of `mxmv` (R358). -/
def moveFmt (t : Nat) : Fmt := if t = 1 then bf16 else fp16

/-- The result of an operation on its workgroup, with the flags its arithmetic raises. -/
def Workgroup.runOp (g : Workgroup) (p : Packet) (m : MatOp) : Workgroup × Flags :=
  let x := blockOf m.block
  let gs := m.olds g
  let prod (op : Nat) : Workgroup × Flags :=
    let vs := g.product gs p op (fmtOf m.insn) x m.free
    (g.putTile x.acc (vs.map Prod.fst), vs.foldl (fun a v => a ||| v.2) (g.colsB x (fmtOf m.insn)).2)
  match m.insn with
  | .mxi _ => prod 0
  | .mxs _ =>
    let r := prod 1
    let y := r.1.softmax x
    (y.1, r.2 ||| y.2)
  | .mxv _ => prod 2
  | .mxn f => g.mapTile f.d.toNat fun i j =>
      divVal fp32 .rne (fp32.decode (g.accAt f.d.toNat (64 * i + j)).toNat) (fp32.decode (g.smAt f.a.toNat i).toNat)
  | .mxsa f =>
    let e8 := f.mbit 0
    g.mapTile f.d.toNat fun i j =>
      let u := m.free + 2 * (64 * i + j)
      let t := mulVal fp32 .rne (pick u (gs.map fun h => h.scaleAt e8 m.vb.toNat i) (g.scaleAt e8 m.vb.toNat i))
        (pick (u + 1) (gs.map fun h => h.scaleAt e8 m.vc.toNat j) (g.scaleAt e8 m.vc.toNat j))
      let r := fmaVal fp32 .rne (fp32.decode (g.accAt f.a.toNat (64 * i + j)).toNat) (fp32.decode t.1)
        (fp32.decode (g.accAt f.d.toNat (64 * i + j)).toNat)
      (r.1, t.2 ||| r.2)
  | .mxz f =>
    let t := f.d.toNat
    let g1 := if f.mod2 = 1 then g else { g with acc := SMap.set [] g.acc t [] }
    (if f.mod2 = 0 then g1 else g1.zeroSide t, 0)
  | .mxmvSt f =>
    let at_ := m.vb.toNat
    (List.range 4096).foldl (fun (acc : Workgroup × Flags) n =>
      let v := (g.accAt f.a.toNat n).toNat
      if f.modN / 8 = 0 then (acc.1.scratchWrite (at_ + 4 * n) 4 v, acc.2)
      else
        let r := narrow (moveFmt (f.modN / 8)) .rne false (fp32.decode v)
        (acc.1.scratchWrite (at_ + 2 * n) 2 r.1, acc.2 ||| r.2)) (g, 0)
  | .mxmvLd f => g.mapTile f.d.toNat fun i j =>
      let n := if f.modN / 8 = 0 then 4 else 2
      let at_ := m.vb.toNat + n * (64 * i + j)
      let v := pick (m.free + 64 * i + j) (gs.map fun h => h.scratchRead at_ n) (g.scratchRead at_ n)
      if n = 4 then (v, 0) else toF32 ((moveFmt (f.modN / 8)).decode v)
  | .mxmvTt f =>
    let a := f.a.toNat
    let d := f.d.toNat
    let g1 := { g with acc := SMap.set [] g.acc d (SMap.get [] g.acc a) }
    (if f.mbit 2 then { g1 with mx := SMap.set [] g1.mx d (SMap.get [] g.mx a), sm := SMap.set [] g1.sm d (SMap.get [] g.sm a) }
     else g1, 0)
  | .wbinv f => ({ g with wb := SMap.set [] g.wb f.d.toNat [] }, 0)
  | _ => (g, 0)

/-! ### Tiles while an operation is outstanding (R164) -/

/-- The tile whose elements an operation writes. -/
def MatOp.tile (m : MatOp) : Option Nat :=
  match m.insn with
  | .mxi _ | .mxs _ | .mxv _ => some (blockOf m.block).acc
  | .mxn f | .mxsa f | .mxmvLd f | .mxmvTt f => some f.d.toNat
  | .mxz f => if f.mod2 = 1 then none else some f.d.toNat
  | _ => none

/-- The side tile whose `mx` and `sm` an operation writes. -/
def MatOp.sideTile (m : MatOp) : Option Nat :=
  match m.insn with
  | .mxs _ => some (blockOf m.block).side
  | .mxz f => if f.mod2 = 0 then none else some f.d.toNat
  | .mxmvTt f => if f.mbit 2 then some f.d.toNat else none
  | _ => none

/-- The accepted operations of a workgroup, oldest first. -/
def State.opsOf (s : State) (k : Nat) : List MatOp := s.matOps.filter fun m => SMap.get 0 s.matWg m.id == k

/-- The uncorrectable granules of a core's storage within a range of its window. -/
def State.badIn (s : State) (core off n : Nat) : Option Nat := (granules off n).find? (s.coreAt core).storeBad.contains

/-- Where each of `n` segments of a weight-buffer slot begins and ends, from a byte (R77). -/
def Workgroup.segEnds (g : Workgroup) (slot code : Nat) : Nat → Nat → List (Nat × Nat)
  | 0, _ => []
  | n + 1, at_ =>
    let e := (g.segment slot code at_).2
    (at_, e) :: g.segEnds slot code n e

/-- The rows of A and of B in a core's window: offset and length of each row of A, and of each row of B in scratch or each segment in
a slot. -/
def State.rowsA (s : State) (k : Nat) (x : MatBlock) (fmt : Nat) : List (Nat × Nat) :=
  if x.areg then
    (contributors (s.packet k) x).flatMap fun w => (List.range (sliceRegs x fmt)).map fun n =>
      ((s.warp k w).slot * 65536 + (x.asrc + n) * 256, 256)
  else (List.range 64).map fun i => (s.scratchOff k (x.asrc + i * x.astride), rowBytes (fmtCodes fmt).1 x.k)

/-- See `rowsA`. -/
def State.rowsB (s : State) (k : Nat) (x : MatBlock) (fmt : Nat) : List (Nat × Nat) :=
  let code := (fmtCodes fmt).2
  if x.bwb then
    let base := 0x1180000 + 65536 * (s.wg k).wbNos.getD x.bsrc 0
    ((s.wg k).segEnds x.bsrc code (kBlocks x.k * 64) x.bstride).map fun e => (base + e.1, e.2 - e.1)
  else (List.range x.k).map fun n => (s.scratchOff k (x.bsrc + n * x.bstride), rowBytes code 64)

/-- How many elements of the chain of (i, j) precede one with an uncorrectable error (R345): the part of a contributor's register row
of lane i, the packed word in scratch, or the first bad segment of a slot, on which those after it depend. -/
def State.goodSteps (s : State) (k : Nat) (x : MatBlock) (fmt i j : Nat) : Nat :=
  let core := (s.wg k).core
  let bad (off n : Nat) : Bool := (s.badIn core off n).isSome
  let ea := codeElems (fmtCodes fmt).1
  let eb := codeElems (fmtCodes fmt).2
  let kw := x.k / (x.j + 1)
  let seg := ((s.rowsB k x fmt).findIdx? fun r => bad r.1 r.2).getD (kBlocks x.k * 64)
  ((List.range x.k).find? fun n =>
    (if x.areg then bad ((s.warp k ((s.packet k).ncopy + x.ridx0 + n / kw)).slot * 65536 + (x.asrc + n % kw / ea) * 256 + 4 * i) 4
     else s.scratchBadAt k (x.asrc + i * x.astride + 4 * (n / ea)) 4)
      || (if x.bwb then seg ≤ 64 * (n / 64) + j else s.scratchBadAt k (x.bsrc + n * x.bstride + 4 * (j / eb)) 4)).getD x.k

/-- Where a tile of a workgroup lies in its core's window (R21): offset and length; and where its side registers do. -/
def State.tileRange (s : State) (k t : Nat) : Nat × Nat := (0x1100000 + 16384 * (s.wg k).tileNos.getD t 0, 16384)

/-- See `tileRange`. -/
def State.sideRanges (s : State) (k t : Nat) : List (Nat × Nat) :=
  let n := 256 * (s.wg k).tileNos.getD t 0
  [(0x1140000 + n, 256), (0x1141000 + n, 256)]

/-- Where an operation reads tiles and side registers (R352 to R358). -/
def State.tileReads (s : State) (k : Nat) (m : MatOp) : List (Nat × Nat) :=
  let x := blockOf m.block
  let start := if x.ovw then [] else [s.tileRange k x.acc]
  match m.insn with
  | .mxi _ | .mxv _ => start
  | .mxs _ => start ++ if x.chain then s.sideRanges k x.side else []
  | .mxn f => s.tileRange k f.d.toNat :: (s.sideRanges k f.a.toNat).drop 1
  | .mxsa f => [s.tileRange k f.a.toNat, s.tileRange k f.d.toNat]
  | .mxmvSt f => [s.tileRange k f.a.toNat]
  | .mxmvTt f => s.tileRange k f.a.toNat :: if f.mbit 2 then s.sideRanges k f.a.toNat else []
  | _ => []

/-- The first uncorrectable granule that an operation reads, if any (R345): TRAPVA, the scratch address of its row of a bank (R68) or 0,
and its offset in the core's window. -/
def State.opBad (s : State) (k : Nat) (m : MatOp) : Option (Nat × Nat) :=
  let core := (s.wg k).core
  if (s.coreAt core).storeBad.isEmpty then none
  else
    let x := blockOf m.block
    let find (scratch : Bool) (l : List (Nat × Nat)) : Option (Nat × Nat) :=
      (l.findSome? fun r => s.badIn core r.1 r.2).map fun g => (if scratch then g * 8 / 16 * 16 - s.scratchOff k 0 else 0, g * 8)
    let operands : Option (Nat × Nat) := match blockOp m.insn with
      | some op =>
        let fmt := fmtOf m.insn
        let c := if op = 2 ∧ !x.ovw then [(s.scratchOff k (x.pbuf + 8192), 256)] else []
        (find (!x.areg) (s.rowsA k x fmt)).orElse fun _ => (find (!x.bwb) (s.rowsB k x fmt)).orElse fun _ => find true c
      | none =>
        match m.insn with
        | .mxmvSt _ => none
        | i => find true ((scratchRegions i m.vb.toNat m.vc.toNat).map fun (r : Nat × Nat × Nat) => (s.scratchOff k r.1, r.2.1))
    operands.orElse fun _ => find false (s.tileReads k m)

/-- A value that element n of an operation's tile holds during the operation, chosen by `r` (R164): what it held, or a partial
sum of its chain that uses no uncorrectable value, or the result. -/
def State.opElem (s : State) (k : Nat) (m : MatOp) (n r : Nat) : Word :=
  let g := s.wg k
  let p := s.packet k
  let x := blockOf m.block
  match blockOp m.insn with
  | some op =>
    let fmt := fmtOf m.insn
    let i := n / 64
    let j := n % 64
    let gs := m.olds g
    let noStart := !x.ovw && ((op = 2 && s.scratchBadAt k (x.pbuf + 8192 + 4 * i) 4)
      || s.storeBadAt (s.wg k).core ((s.tileRange k x.acc).1 + 4 * n) 4)
    let steps := if noStart then 0 else r % (s.goodSteps k x fmt i j + 2)
    if steps = 0 then g.accAt x.acc n
    else BitVec.ofNat 32 (g.chain gs op x m.free i j (steps - 1) (gs.map fun h => h.rowA p x fmt i) (g.rowA p x fmt i)
      (gs.map fun h => (h.colsB x fmt).1.getD j []) ((g.colsB x fmt).1.getD j [])).1
  | none =>
    match m.tile with
    | some t => if r % 2 = 0 ∨ (s.opBad k m).isSome then g.accAt t n else (g.runOp p m).1.accAt t n
    | none => 0

/-- While the mixing engine writes an element, a read returns the value before or after (R373): a free value chooses (log 5). -/
def State.mixRead (s : State) (mixed : Bool) (before : Option Word) (held : Word) : Word × State :=
  if mixed then
    let y := s.takeFree
    (if y.1.getLsbD 0 then before.getD held else held, y.2)
  else (held, s)

/-- While the mixing engine writes an element, a write of it leaves the value written or the engine's (R373). -/
def State.mixWrite (s : State) (mixed : Bool) (k : Nat) (put : Workgroup → Workgroup) : State :=
  if mixed then
    let y := s.takeFree
    if y.1.getLsbD 0 then y.2 else y.2.updWg k put
  else s.updWg k put

/-- What a thread reads of a tile, or of its side registers (R164); `kind`: 2 element, else `.mx` at n, `.sm` at 64 + n of R25's
second object. While an operation that writes it is the one being performed, the choice is a free value (log 5). -/
def State.tileRead (s : State) (k t n : Nat) (side : Bool) : Word × State :=
  let g := s.wg k
  let held := if side then (if n < 64 then g.mxAt t n else g.smAt t (n - 64)) else g.accAt t n
  match s.opsOf k with
  | m :: _ =>
    if side then
      (if m.sideTile = some t then
        let y := s.takeFree
        let h := (g.runOp (s.packet k) m).1
        (if y.1.getLsbD 0 then (if n < 64 then h.mxAt t n else h.smAt t (n - 64)) else held, y.2)
       else (held, s))
    else if m.tile = some t then
      let y := s.takeFree
      (s.opElem k m n y.1.toNat, y.2)
    else (held, s)
  | [] => if side then (held, s) else s.mixRead (g.mixing.any fun m => m.tiles.contains t) (g.mixing.map fun m => SMap.get 0 (SMap.get [] m.acc t) n) held

/-- A thread writes an element of a tile (R164): while operations that write the tile are outstanding, the element ends with
the written value after one of them, or with the operations' own. -/
def State.tileWrite (s : State) (k t n : Nat) (v : Word) : State :=
  let ops := (s.opsOf k).filter fun m => m.tile == some t
  if ops.isEmpty then s.mixWrite ((s.wg k).mixing.any fun m => m.tiles.contains t) k fun g => g.setAcc t n v
  else
    let y := s.takeFree
    match ops[y.1.toNat % (ops.length + 1)]? with
    | some m =>
      let ms := s.matOps.map fun (q : MatOp) => if q.id = m.id then { q with overlay := q.overlay ++ [(t, n, v)] } else q
      { y.2 with matOps := ms }
    | none => y.2

/-! ### `mxrd` and `mxwr` (R360) -/

/-- The element that a lane names: tile element, or side element (`mx` from 0, `sm` from 64), by the selector. -/
def elemIndex (f : Fields) (l b : Nat) : Nat × Bool :=
  match f.mod2 with
  | 0 => (64 * b + l, false) | 1 => (64 * l + b, false) | 2 => (b, true) | _ => (64 + b, true)

/-- R360. -/
def execMxrd (f : Fields) (s : State) : Host.Outcome State Fault Refusal :=
  issue (.mxrd f) s fun s =>
    ((s.trueLanes f).foldl (fun (s : State) l =>
      let e := elemIndex f l ((s.curW.reg f.b.toNat l).toNat % 64)
      let r := s.tileRead s.curWg f.a.toNat e.1 e.2
      r.2.updCur fun w => w.setReg f.d.toNat l r.1) s).advance f.len

/-- R360: of the lanes that write one element, the highest one's value remains. -/
def execMxwr (f : Fields) (s : State) : Host.Outcome State Fault Refusal :=
  issue (.mxwr f) s fun s =>
    let at_ (l : Nat) : Nat × Bool := elemIndex f l ((s.curW.reg f.b.toNat l).toNat % 64)
    let ls := s.trueLanes f
    ((ls.filter fun l => ls.all fun j => j ≤ l || at_ j != at_ l).foldl (fun (s : State) l =>
      let e := at_ l
      let v := s.curW.reg f.a.toNat l
      let t := f.d.toNat
      if e.2 then s.updCurG fun g => if e.1 < 64 then g.setMx t e.1 v else g.setSm t (e.1 - 64) v
      else s.tileWrite s.curWg t e.1 v) s).advance f.len

/-! ### Completion (R343 to R345) -/

/-- A register that a joint operation reads is abroad (R350). -/
def State.opWaits (s : State) (k : Nat) (m : MatOp) : Bool :=
  let x := blockOf m.block
  (blockOp m.insn).isSome && x.areg &&
    (contributors (s.packet k) x).any fun w => (List.range (sliceRegs x (fmtOf m.insn))).any fun n =>
      (List.range 64).any fun l => s.abroad k w (x.asrc + n) l

/-- The scratch that an operation writes, and the slot that it clears. -/
def MatOp.stores (m : MatOp) : List (Nat × Nat) × Option Nat :=
  match m.insn with
  | .mxs _ => ([((blockOf m.block).pbuf, 8448)], none)
  | .mxmvSt f => ([(m.vb.toNat, if f.modN / 8 = 0 then 16384 else 8192)], none)
  | .wbinv f => ([], some f.d.toNat)
  | _ => ([], none)

/-- The ranges of its core's window that an operation writes. -/
def State.opRanges (s : State) (k : Nat) (m : MatOp) : List (Nat × Nat) :=
  m.tile.toList.map (s.tileRange k) ++ m.sideTile.toList.flatMap (s.sideRanges k) ++ (m.stores.1.map fun r => (s.scratchOff k r.1, r.2))
    ++ m.stores.2.toList.map fun slot => (0x1180000 + 65536 * (s.wg k).wbNos.getD slot 0, 65536)

/-- What an operation has written whole holds no uncorrectable error any more (log 44), and its scratch writes hide what copies had left
there (R162). -/
def State.opWrote (s : State) (k : Nat) (m : MatOp) : State :=
  let s1 := m.stores.1.foldl (fun s r => s.settled (some k) r.1 r.2) s
  if (s.coreAt (s.wg k).core).storeBad.isEmpty then s1
  else
    let whole (x : Nat) : Bool := (s.opRanges k m).any fun r => r.1 ≤ 8 * x && 8 * x + 8 ≤ r.1 + r.2
    s1.updCore (s.wg k).core fun c => { c with storeBad := c.storeBad.filter fun x => !whole x }

/-- The workgroup after an operation: its results, or, with an uncorrectable error, elements that R164 permits (R345). -/
def State.opResult (s : State) (k : Nat) (m : MatOp) : State × Flags :=
  match s.opBad k m with
  | none =>
    let r := (s.wg k).runOp (s.packet k) m
    ((s.updWg k fun _ => m.overlay.foldl (fun g o => g.setAcc o.1 o.2.1 o.2.2) r.1).opWrote k m, r.2)
  | some _ =>
    match m.tile with
    | none => (s, 0)
    | some t =>
      let vs := (List.range 4096).map fun n => (s.opElem k m n (Config.freeWord (s.free + n)).toNat).toNat
      ({ s.updWg k fun g => m.overlay.foldl (fun g o => g.setAcc o.1 o.2.1 o.2.2) (g.putTile t vs) with free := s.free + 4096 }, 0)

/-- What an operation has written is what the later operations of its workgroup read (R344). -/
def Operands.after (o : Operands) (g : Workgroup) (st : List (Nat × Nat) × Option Nat) : Operands :=
  let sc := st.1.foldl (fun m r => (List.range r.2).foldl (fun m i => SMap.set 0 m (r.1 + i) (g.scratchAt (r.1 + i))) m) o.scratch
  { o with scratch := sc, wb := match st.2 with
    | some n => SMap.set [] o.wb n (SMap.get [] g.wb n)
    | none => o.wb }

/-- See `Operands.after`. -/
def MatOp.after (m : MatOp) (g : Workgroup) (st : List (Nat × Nat) × Option Nat) : MatOp :=
  { m with was := m.was.after g st, since := m.since.map (·.after g st) }

/-- An accepted or held operation notes what its operands hold now (R164). -/
def State.sampleOp (s : State) (id : Nat) : Option State :=
  let noted (g : Workgroup) (m : MatOp) : MatOp := if m.id = id then { m with since := m.since ++ [g.operands m.was] } else m
  if s.matOps.any fun m => m.id == id then some { s with matOps := s.matOps.map (noted (s.wg (SMap.get 0 s.matWg id))) }
  else (s.wgs.keys.find? fun k => (s.wg k).held.any fun m => m.id == id).map fun k =>
    s.updWg k fun g => { g with held := g.held.map (noted g) }

/-- The copies of a workgroup into a slot that are not yet complete. -/
def State.slotCopies (s : State) (k slot : Nat) : List Copy :=
  s.copies.filter fun c => c.wg == k && c.left != 0 && match c.insn with
    | .cpyw f => f.c.toNat / 32 == slot
    | _ => false

/-- A `wbinv` has cleared a slot whose workgroup was `was`: what copies not yet complete have written there has its copied value or
zero, byte by byte, as free values say, and so has what they are still to write (R359, log 5). -/
def State.raceSlot (s : State) (k slot : Nat) (was : Workgroup) : State :=
  let cs := s.slotCopies k slot
  let bs := dedup (cs.flatMap fun c => c.wrote.flatMap fun w => (List.range (copySize c.insn.fields)).map (w.2.1 + ·))
  let s1 := s.updWg k fun g => (List.range bs.length).foldl (fun g i =>
    if (Config.freeWord (s.free + i)).getLsbD 0 then g.setWb slot (bs.getD i 0) (was.wbAt slot (bs.getD i 0)) else g) g
  { s1 with free := s.free + bs.length
            xfers := s.xfers.map fun x => if cs.any fun c => c.id == x.copy then { x with zeroed := true } else x }

/-- TLC falls in each warp that counted the operation. -/
def State.tileDone (s : State) (k : Nat) (m : MatOp) : State :=
  m.counted.foldl (fun s w => s.updWarp k w fun x => { x with tlc := x.tlc - 1 }) s

/-- R343, R344: the oldest accepted operation of a workgroup. -/
def execMatrixOperationComplete (id : Nat) (s : State) : Host.Outcome State Fault Refusal :=
  let k := SMap.get 0 s.matWg id
  match s.opsOf k with
  | m :: _ =>
    if m.id != id || s.opWaits k m || !((s.wg k).status == .resident || (s.wg k).status == .ending) then
      .refused (.notEnabled "MATRIX_OPERATION_COMPLETE")
    else
      let r := s.opResult k m
      let s0 := match m.stores.2 with
        | some slot => r.1.raceSlot k slot (s.wg k)
        | none => r.1
      let s1 := s0.updWarp k m.warp fun w => w.orFlags r.2
      let s2 := s1.tileDone k m
      let s3 := match s.opBad k m with
        | some a => (s2.storeError (s.wg k).core a.2).updWarp k m.warp fun w => { w with tileErrs := w.tileErrs ++ [(a.1, w.tlc)] }
        | none => s2
      let later (q : MatOp) : MatOp := if SMap.get 0 s.matWg q.id = k then q.after (s3.wg k) m.stores else q
      .next { s3 with matOps := (s3.matOps.filter fun q => q.id != id).map later, matWg := s3.matWg.erase id }
  | [] => .refused (.notEnabled "MATRIX_OPERATION_COMPLETE")

end Sys2Proof.Machine
end

