-- ==== Sys2Proof/Machine/Sync.lean ====
section
/-! DEFINITION. Core barriers, network barriers, landing entries and rings (R127 to R139, R328 to R333). -/

namespace Sys2Proof.Machine

/-! ### Barrier state (R127) -/

/-- A barrier of a workgroup. -/
def Workgroup.bar (g : Workgroup) (b : Nat) : Barrier := SMap.get {} g.bars b

/-- PH: the parity of completed phases. -/
def Barrier.ph (x : Barrier) : Bool := x.phases % 2 == 1

/-- The status word (R127). -/
def Barrier.word (x : Barrier) : DWord :=
  BitVec.ofNat 64 (x.memb % 128 + x.pend % 128 * 2 ^ 8 + b2n x.ph * 2 ^ 15 + b2n x.cu * 2 ^ 16 + b2n x.refused * 2 ^ 17
    + x.qarr % 128 * 2 ^ 18 + b2n x.qcu * 2 ^ 25 + x.bytes.toNat * 2 ^ 32)

/-- The address of the synchronisation part of a saved workgroup's section (R398). -/
def State.syncPart (s : State) (k : Nat) : Nat := s.own ((s.wg k).image + (imgOffsets (s.packet k) false 0).getD 3 0)

/-- Changes a barrier; a saved workgroup's barrier changes in its image too (R134, R136). -/
def State.updBar (s : State) (k b : Nat) (f : Barrier → Barrier) : State :=
  let s1 := s.updWg k fun g => { g with bars := SMap.upd {} g.bars b f }
  if (s.wg k).status = .saved then s1.memWrite (s.syncPart k + 8 * b) 8 ((s1.wg k).bar b).word.toNat else s1

/-- A workgroup has declared a barrier. -/
def State.hasBar (s : State) (k b : Nat) : Bool := b < (s.packet k).nbar

/-- Adds to BYTES, modulo 2^32 (R131). -/
def Barrier.addBytes (x : Barrier) (n : Word) : Barrier := { x with bytes := x.bytes + n }

/-- A warp's arrival (R129): in the current phase, else queued for the next. -/
def Barrier.arrive (x : Barrier) (w : Nat) : Barrier :=
  let m := BitVec.ofNat 64 (2 ^ w)
  if x.arrived.getLsbD w || x.pend = 0 then { x with queued := x.queued ||| m, qarr := x.qarr + 1 }
  else { x with arrived := x.arrived ||| m, pend := x.pend - 1 }

/-- The arrival of a warp would be applied to the current phase. -/
def Barrier.current (x : Barrier) (w : Nat) : Bool := !(x.arrived.getLsbD w || x.pend = 0)

/-- A phase completes (R132): queued arrivals are applied to the new phase. More of them than MEMB, after a `bar.init` with a low one,
are all applied, PEND staying at 0 (DESIGN CHOICE, log 74: the spec does not say whether the surplus is queued again). -/
def Barrier.advance (x : Barrier) : Barrier :=
  { x with phases := x.phases + 1, pend := x.memb - x.qarr - b2n x.qcu, arrived := x.queued, queued := 0, qarr := 0,
           cuHere := x.qcu, qcu := false }

/-- A barrier's phase is complete: PEND and BYTES are zero (R132). -/
def State.barReady (s : State) (k b : Nat) : Bool :=
  s.hasBar k b && (s.wg k).status == .resident && ((s.wg k).bar b).pend == 0 && ((s.wg k).bar b).bytes == 0

/-- A phase advances (R132), and the writes of the copies that contributed to it are visible on the barrier's core (R133). -/
def State.advanceBar (s : State) (k b : Nat) : State :=
  let core := (s.wg k).core
  { s.updBar k b Barrier.advance with
    late := s.late.map fun (t : Late) => if t.bars.contains (k, b) then { t with seen := (1, core) :: t.seen } else t }

/-- Each barrier is evaluated once in a cycle (R132). -/
def State.evalBars (s : State) : State :=
  (s.wgs.keys.flatMap fun k => (s.wg k).bars.keys.map fun b => (k, b)).foldl (fun s x =>
    if s.barReady x.1 x.2 then s.advanceBar x.1 x.2 else s) s

/-- R132: PEND and BYTES are zero. -/
def execBarrierPhaseAdvance (wg b : Nat) (s : State) : Host.Outcome State Fault Refusal :=
  event "BARRIER_PHASE_ADVANCE" (s.barReady wg b) (s.advanceBar wg b)

/-! ### `bar` (R329, R330) -/

/-- `bar.arr` on a gathered warp: a warp that holds a queued arrival waits until the phase advances (R129). The warp arrives whatever its
threads' guards are, and so it gives, takes and frees ring stages (DEDUCED, log 87: R262 against R228). -/
def barArrEffect (f : Fields) (_ : List Nat) (s : State) : State :=
  if (s.curG.bar f.a.toNat).queued.getLsbD s.curWarp then s
  else (s.updBar s.curWg f.a.toNat fun x => x.arrive s.curWarp).allGoOn

/-- R329. -/
def execBarArr (f : Fields) (s : State) : Host.Outcome State Fault Refusal :=
  issue (.barArr f) s fun s => s.gather (.barArr f) (barArrEffect f)

/-- `bar.sync`: the arrival, then the wait for the phase into which it was applied. -/
def barSyncEffect (f : Fields) (_ : List Nat) (s : State) : State :=
  let b := f.a.toNat
  let x := s.curG.bar b
  if x.queued.getLsbD s.curWarp then s
  else (s.updBar s.curWg b fun x => x.arrive s.curWarp).allWait
    (.phase b (if x.current s.curWarp then x.phases else x.phases + 1))

/-- R329. -/
def execBarSync (f : Fields) (s : State) : Host.Outcome State Fault Refusal :=
  issue (.barSync f) s fun s => s.gather (.barSync f) (barSyncEffect f)

/-- `bar.wait`: until PH differs from N. -/
def barWaitEffect (f : Fields) (_ : List Nat) (s : State) : State :=
  let b := f.a.toNat
  let n := (s.curG.bar b).phases
  if phaseDiffers n (f.mbit 3) then s.allGoOn else s.allWait (.phase b n)

/-- R329. -/
def execBarWait (f : Fields) (s : State) : Host.Outcome State Fault Refusal :=
  issue (.barWait f) s fun s => s.gather (.barWait f) (barWaitEffect f)

/-- `bar.exp`: adds S of the lowest guard-true thread to BYTES (R131); without one it does nothing. -/
def barExpEffect (f : Fields) (acts : List Nat) (s : State) : State :=
  match acts with
  | [] => s.allGoOn
  | l :: _ => (s.updBar s.curWg f.a.toNat fun x => x.addBytes (s.curW.srcB f l)).allGoOn

/-- R329. -/
def execBarExp (f : Fields) (s : State) : Host.Outcome State Fault Refusal :=
  issue (.barExp f) s fun s => s.gather (.barExp f) (barExpEffect f)

/-- The state that `bar.init` with S sets (R330). -/
def Barrier.init (x : Barrier) (v : Word) : Barrier :=
  let n := v.toNat % 128
  let m := if n = 0 then 1 else if 65 < n then 65 else n
  { x with memb := m, cu := v.getLsbD 16, pend := m, bytes := 0, qarr := 0, qcu := false, refused := false, queued := 0,
           arrived := 0, cuHere := false }

/-- `bar.init`. -/
def barInitEffect (f : Fields) (acts : List Nat) (s : State) : State :=
  match acts with
  | [] => s.allGoOn
  | l :: _ => (s.updBar s.curWg f.a.toNat fun x => x.init (s.curW.srcB f l)).allGoOn

/-- R330. -/
def execBarInit (f : Fields) (s : State) : Host.Outcome State Fault Refusal :=
  issue (.barInit f) s fun s => s.gather (.barInit f) (barInitEffect f)

/-- `bar.rd`: the status word to every guard-true thread; `clear` then clears REFUSED in the same step. -/
def barRdEffect (f : Fields) (clear : Bool) (acts : List Nat) (s : State) : State :=
  let v := (s.curG.bar f.a.toNat).word
  let s1 := (s.updCur fun w => w.putPair f acts fun _ => v).allGoOn
  if clear then s1.updBar s.curWg f.a.toNat fun x => { x with refused := false } else s1

/-- R329. -/
def execBarRd (f : Fields) (s : State) : Host.Outcome State Fault Refusal :=
  issue (.barRd f) s fun s => s.gather (.barRd f) (barRdEffect f false)

/-- R329. -/
def execBarRdClr (f : Fields) (s : State) : Host.Outcome State Fault Refusal :=
  issue (.barRdClr f) s fun s => s.gather (.barRdClr f) (barRdEffect f true)

/-! ### Network barriers (R331, R332) -/

/-- FLAGS of the launch packet: the co-resident bit (R379). -/
def Packet.coResident (p : Packet) : Bool := bit p.flags 1

/-- The collective group that a context's group number names. -/
def State.group? (s : State) (ctx n : Nat) : Group := SMap.get {} s.groups (ctx * 64 + n)

/-- A workgroup of this package is a member of a collective group. -/
def State.inGroup (s : State) (ctx n k : Nat) : Bool := (s.group? ctx n).members.contains (s.pkg, keyLaunch k, keyWgid k)

/-- The number of workgroups of a launch. -/
def Packet.grid (p : Packet) : Nat := p.nx * p.ny * p.nz

/-- The WGIDs of the quad group of a workgroup. -/
def State.quadGroup (s : State) (k : Nat) : List Nat :=
  let p := s.packet k
  let q := Nat.max 1 p.qgroup
  ((List.range q).map fun j => keyWgid k / q * q + j).filter fun i => i < p.grid

/-- The key of the network barrier that a warp's `barg` names (R331). -/
def State.netKey (s : State) (k scope x grp : Nat) : Nat :=
  let p := s.packet k
  match scope with
  | 2 => ((keyLaunch k * 2 ^ 32 + keyWgid k / Nat.max 1 p.qgroup) * 4 + x) * 4
  | 3 => ((keyLaunch k * 16 + dieOf (s.wg k).core) * 4 + x) * 4 + 1
  | 4 => (keyLaunch k * 4 + x) * 4 + 2
  | _ => podBarKey (s.ctxNo k) grp x

/-- The number of member warps of a network barrier (R331). Members of other packages count, and never arrive in this
model of one package (log 15). -/
def State.netMembers (s : State) (k scope grp : Nat) : Nat :=
  let p := s.packet k
  match scope with
  | 2 => (s.quadGroup k).length * p.warps
  | 3 => ((s.wgsOf (keyLaunch k)).filter fun j => dieOf (s.wg j).core == dieOf (s.wg k).core && (s.wg j).status != .waiting).length
      * p.warps
  | 4 => p.grid * p.warps
  | _ => sumOf (fun m => if m.1 = s.pkg then (s.launch m.2.1).packet.warps else 1) (s.group? (s.ctxNo k) grp).members

/-- Changes a network barrier. -/
def State.updNet (s : State) (key : Nat) (f : NetBar → NetBar) : State := { s with netBars := SMap.upd {} s.netBars key f }
/-- A network barrier. -/
def State.net (s : State) (key : Nat) : NetBar := SMap.get {} s.netBars key

/-- A warp's arrival on a network barrier of `n` members: in the current phase, which it may complete, else queued. -/
def NetBar.arrive (x : NetBar) (n : Nat) (who : Nat × Nat) : NetBar :=
  if x.arrived.contains who then { x with queued := x.queued ++ [who] }
  else if n ≤ x.arrived.length + 1 then { x with phases := x.phases + 1, arrived := x.queued, queued := [] }
  else { x with arrived := x.arrived ++ [who] }

/-- A network barrier cannot complete its phase (R332): a member's launch has ended under R108 or R196 before its warps arrived. Only a
pod barrier has members of other launches; its group stands in its key. -/
def State.netBroken (s : State) (key : Nat) : Bool :=
  key % 4 == 3 && (SMap.get {} s.groups (key / 16)).members.any fun m =>
    m.1 == s.pkg && (s.launch m.2.1).ending &&
      (List.range (s.launch m.2.1).packet.warps).any fun w => !(s.net key).arrived.contains (wgKey m.2.1 m.2.2, w)

/-- A precise PROT with TRAPVA 0 for the whole warp (R331, R332). -/
def State.bargProt (s : State) : State :=
  let s1 := s.updCur fun w => w.updLanes w.unexited fun _ x => { x with wait := none }
  s1.trapHere { cause := 7, detail := 9, pc := (s.curW.lane (s.curW.unexited.headD 0)).pc, mask := maskOf s.curW.unexited }

/-- `barg` on a gathered warp; `op`: 0 arrive, 1 sync, 2 wait, whose observed completion is an acquire (R157, R332). A pod `barg`
without a guard-true thread names no group and does
nothing. -/
def bargEffect (f : Fields) (op : Nat) (acts : List Nat) (s : State) : State :=
  let scope := bargScope f
  let k := s.curWg
  let grp := match acts with
    | l :: _ => (s.curW.reg f.e.toNat l).toNat % 64
    | [] => 0
  if scope = 5 && acts.isEmpty then s.allGoOn
  else if (scope == 3 || scope == 4) && !(s.packet k).coResident then s.bargProt
  else if scope = 5 && !s.inGroup (s.ctxNo k) grp k then s.bargProt
  else
    let key := s.netKey k scope (f.modN / 8) grp
    let x := s.net key
    let me := (k, s.curWarp)
    if s.netBroken key then s.bargProt
    else if op = 2 then
      if phaseDiffers x.phases (f.mbit 2) then s.allGoOn.l1Clear s.curG.core else s.allWait (.netPhase key x.phases)
    else if x.queued.contains me then s
    else
      let s1 := s.updNet key fun y => y.arrive (s.netMembers k scope grp) me
      if op = 0 then s1.allGoOn
      else s1.allWait (.netPhase key (if x.arrived.contains me then x.phases + 1 else x.phases))

/-- R331. -/
def execBargArr (f : Fields) (s : State) : Host.Outcome State Fault Refusal :=
  issue (.bargArr f) s fun s => s.gather (.bargArr f) (bargEffect f 0)

/-- R331. -/
def execBargSync (f : Fields) (s : State) : Host.Outcome State Fault Refusal :=
  issue (.bargSync f) s fun s => s.gather (.bargSync f) (bargEffect f 1)

/-- R331. -/
def execBargWait (f : Fields) (s : State) : Host.Outcome State Fault Refusal :=
  issue (.bargWait f) s fun s => s.gather (.bargWait f) (bargEffect f 2)

/-! ### Rings (R138, R139, R333) -/

/-- STAGES, GIVE and TAKE of a ring. -/
def Packet.ring (p : Packet) (r : Nat) : Nat × Nat × Nat :=
  let c := p.ringcfg.getD r 0
  (bits c 3 0, bits c 10 4, bits c 17 11)

/-- A stage of a ring. -/
def Workgroup.stage (g : Workgroup) (r i : Nat) : Stage := SMap.get {} g.stages (r * 8 + i)

/-- Changes a stage. -/
def State.updStage (s : State) (k r i : Nat) (f : Stage → Stage) : State :=
  s.updWg k fun g => { g with stages := SMap.upd {} g.stages (r * 8 + i) f }

/-- A warp's cursor of a ring. -/
def Warp.cursor (w : Warp) (r : Nat) : Cursor := SMap.get {} w.cursors r

/-- The cursor moves on, inverting LAP where it wraps. -/
def Cursor.next (c : Cursor) (stages : Nat) : Cursor :=
  if stages ≤ c.cur + 1 then { cur := 0, lap := !c.lap } else { c with cur := c.cur + 1 }

/-- The wait of `rgive` (`give`) or `rtake` at a cursor is satisfied. -/
def Workgroup.ringReady (g : Workgroup) (give : Bool) (r : Nat) (c : Cursor) : Bool :=
  let x := g.stage r c.cur
  x.full == !give && x.ph == c.lap

/-- Every unexited thread of the issuing warp waits at the ring; guard-true threads will receive the stage. -/
def State.ringWait (s : State) (give : Bool) (r d : Nat) (acts : List Nat) : State :=
  s.updCur fun w => w.unexited.foldl (fun w l => w.rewait [l] (.ring give r d (acts.contains l))) w

/-- Ends the wait at a ring if it is satisfied: each guard-true thread receives CUR. -/
def State.ringTry (s : State) (k w : Nat) (give : Bool) (r d : Nat) : State :=
  let x := s.warp k w
  if (s.wg k).ringReady give r (x.cursor r) then
    let ls := x.unexited.filter fun l =>
      match (x.lane l).wait with
      | some { what := .ring g r' d' _, .. } => g == give && r' == r && d' == d
      | _ => false
    let acts := ls.filter fun l =>
      match (x.lane l).wait with
      | some { what := .ring _ _ _ a, .. } => a
      | _ => false
    s.updWarp k w fun y => (acts.foldl (fun y l => y.setReg d l (BitVec.ofNat 32 (x.cursor r).cur)) y).finishLanes ls
  else s

/-- `rgive` (R139). -/
def rgiveEffect (f : Fields) (acts : List Nat) (s : State) : State :=
  let r := f.a.toNat
  let (n, g, _) := (s.packet s.curWg).ring r
  let c := s.curW.cursor r
  let s1 := s.updStage s.curWg r c.cur fun x =>
    let left := (x.gleft + 127) % 128
    if left = 0 then { x with gleft := g, full := true } else { x with gleft := left }
  let s2 := s1.updCur fun w => { w with cursors := SMap.set {} w.cursors r (c.next n) }
  (s2.ringWait true r f.d.toNat acts).ringTry s.curWg s.curWarp true r f.d.toNat

/-- R333. -/
def execRgive (f : Fields) (s : State) : Host.Outcome State Fault Refusal :=
  issue (.rgive f) s fun s => s.gather (.rgive f) (rgiveEffect f)

/-- `rtake` (R139). -/
def rtakeEffect (f : Fields) (acts : List Nat) (s : State) : State :=
  (s.ringWait false f.a.toNat f.d.toNat acts).ringTry s.curWg s.curWarp false f.a.toNat f.d.toNat

/-- R333. -/
def execRtake (f : Fields) (s : State) : Host.Outcome State Fault Refusal :=
  issue (.rtake f) s fun s => s.gather (.rtake f) (rtakeEffect f)

/-- `rfree` (R139). -/
def rfreeEffect (f : Fields) (_ : List Nat) (s : State) : State :=
  let r := f.a.toNat
  let (n, _, t) := (s.packet s.curWg).ring r
  let c := s.curW.cursor r
  let s1 := s.updStage s.curWg r c.cur fun x =>
    let left := (x.fleft + 127) % 128
    if left = 0 then { x with fleft := t, full := false, ph := !x.ph } else { x with fleft := left }
  (s1.updCur fun w => { w with cursors := SMap.set {} w.cursors r (c.next n) }).allGoOn

/-- R333. -/
def execRfree (f : Fields) (s : State) : Host.Outcome State Fault Refusal :=
  issue (.rfree f) s fun s => s.gather (.rfree f) (rfreeEffect f)

/-! ### Landing entries (R135, R328) -/

/-- A precise PROT with TRAPVA 0 on the guard-true threads. -/
def State.protHere (s : State) (f : Fields) (detail va : Nat) : State :=
  s.trapHere { cause := 7, detail, pc := s.curPc, va := BitVec.ofNat 80 va, mask := maskOf (s.trueLanes f) }

/-- R135, R328: a bad BASE or SIZE, and an undeclared barrier, take PROT (log 34). -/
def execLand (f : Fields) (s : State) : Host.Outcome State Fault Refusal :=
  issue (.land f) s fun s =>
    match s.trueLanes f with
    | [] => s.advance f.len
    | l :: _ =>
      let base := (s.curW.reg f.a.toNat l).toNat
      let size := (s.curW.reg f.b.toNat l).toNat
      if base % 256 != 0 || size % 256 != 0 || size == 0 || 2 ^ 20 < size || !s.hasBar s.curWg f.c.toNat then s.protHere f 9 0
      else if (s.packet s.curWg).scratch < base + size then s.protHere f 8 0
      else (s.updCurG fun g =>
        { g with landing := SMap.set {} g.landing f.d.toNat { base, bar := f.c.toNat, valid := true, size } }).advance f.len

/-- R328. -/
def execUnland (f : Fields) (s : State) : Host.Outcome State Fault Refusal :=
  issue (.unland f) s fun s =>
    if (s.trueLanes f).isEmpty then s.advance f.len
    else (s.updCurG fun g =>
      { g with landing := SMap.upd {} g.landing f.d.toNat fun x => { x with valid := false } }).advance f.len

end Sys2Proof.Machine
end

