-- ==== Sys2Proof/Machine/Copies.lean ====
section
/-! DEFINITION. The copy unit (R118 to R126, R130, R134 to R137, R322 to R327, R449): copies, their transfer operations, promises
and multicast. -/

namespace Sys2Proof.Machine

/-! ### What a copy instruction names (R323 to R326) -/

/-- Destination space of a copy: 0 `.g`, 1 `.s`, 3 `.w`, 4 a landing buffer, 5 a weight slot. -/
def copyDst (i : Instr) : Nat :=
  match i with
  | .cpy f => f.c.toNat / 32 % 4
  | .cpym _ => 4
  | _ => 5

/-- The source address of a lane (R119). -/
def Warp.copySrc (w : Warp) (f : Fields) (l : Nat) : Nat :=
  let a := (w.pairB f l + f.disp).toNat
  match f.mod2 with
  | 1 => a % 2 ^ 32
  | 3 => a
  | _ => w.segnum f * 2 ^ 64 + a

/-- The destination address or offset of a lane (R119, R325, R326). -/
def Warp.copyDest (w : Warp) (i : Instr) (f : Fields) (l : Nat) : Nat :=
  let a := (w.pairA f l).toNat
  match copyDst i with
  | 0 => w.segnum f * 2 ^ 64 + a
  | 1 => a % 2 ^ 32
  | 3 => a
  | 4 => bits a 19 0
  | _ => a % 65536

/-- The lanes' moves. -/
def State.copyMoves (s : State) (i : Instr) (ls : List Nat) : List Move :=
  let f := i.fields
  let w := s.curW
  ls.map fun l =>
    { lane := l, src := w.copySrc f l, dst := w.copyDest i f l }

/-- The transfer operations of some moves: one source line and one destination block each (R120). -/
def groupMoves (ms : List Move) : List (List Move) :=
  let key (m : Move) : Nat := m.src / 128 * 2 ^ 96 + m.dst / 128
  (dedup (ms.map key)).map fun a => ms.filter fun m => key m == a

/-- Transfer operations outstanding on a core (R122). -/
def State.copyUse (s : State) (core : Nat) : Nat := (s.xfers.filter fun x => s.xferCore x == core).length

/-- A copy waits at issue: the copy counter is full, or its transfer operations do not fit (R122, R190). -/
def State.copyHeld (s : State) (i : Instr) : Bool :=
  let ls := s.trueLanes i.fields
  !ls.isEmpty && (63 ≤ s.curW.cpc || 512 < s.copyUse s.curG.core + (groupMoves (s.copyMoves i ls)).length)

/-! ### Checks at issue (R119, R325, R326) -/

/-- What one side of a copy fails at issue; the state of a window's target is left to the transfer (R134). -/
def State.sideCheck (s : State) (k : Nat) (m : MemInfo) (addr : Nat) : Option Failure :=
  if m.space = 3 ∧ addr % m.size = 0 then s.windowBounds k addr m.size else s.laneCheck k m addr none

/-- What a lane's destination fails. -/
def State.destCheck (s : State) (i : Instr) (l : Nat) : Option Failure :=
  let f := i.fields
  let w := s.curW
  let a := (w.pairA f l).toNat
  let n := copySize f
  match copyDst i with
  | 4 => if bits a 19 0 % n != 0 then some ⟨1, 5, 0⟩ else if bits a 31 20 != 0 then some ⟨2, 7, 9⟩ else none
  | 5 => if a % n != 0 then some ⟨1, 5, 0⟩ else if 65536 ≤ a then some ⟨2, 7, 9⟩ else none
  | sp => s.sideCheck s.curWg { space := sp, size := n, acc := .write } (w.copyDest i f l)

/-- The failures of a copy's lanes: the source is checked before the destination. -/
def State.copyFailures (s : State) (i : Instr) (ls : List Nat) : List (Nat × Nat × Failure) :=
  let f := i.fields
  let w := s.curW
  ls.filterMap fun l =>
    let a := w.copySrc f l
    let d := w.copyDest i f l
    let src := (s.sideCheck s.curWg { space := f.mod2, size := copySize f } a).map fun x => (l, a, x)
    let dst := (s.destCheck i l).map fun x => (l, (match copyDst i with
      | 4 | 5 => (w.pairA f l).toNat
      | _ => d), x)
    match src, dst with
    | some p, some q => if q.2.2.step < p.2.2.step then some q else some p
    | some p, none => some p
    | none, q => q

/-- The members of the issuer's quad group that a mask names; `none` where one does not exist (R136). -/
def State.maskMembers (s : State) (k mask : Nat) : Option (List Nat) :=
  let p := s.packet k
  let q := Nat.max 1 p.qgroup
  let named := (List.range 4).filter fun j => bit mask j
  if named.all fun j => j < q && keyWgid k / q * q + j < p.grid then some named else none

/-- The group's part of a `cpym` fails: bits 63:40, or a member that the quad group lacks (R136, R325). -/
def State.landFails (s : State) (i : Instr) (l : Nat) : Bool :=
  match i with
  | .cpym f =>
    let a := (s.curW.pairA f l).toNat
    bits a 63 40 != 0 || (s.maskMembers s.curWg (bits a 39 36)).isNone
  | _ => false

/-! ### Promises (R123, R124) -/

/-- Column and row differences of the physical stacks of two virtual dies (R16, R123). -/
def State.meshSteps (s : State) (a b : Nat) : Nat :=
  let pa := SMap.get a s.dieMap a
  let pb := SMap.get b s.dieMap b
  let d (x y : Nat) : Nat := (x - y) + (y - x)
  d (pa % 3) (pb % 3) + d (pa / 3) (pb / 3)

/-- The figures of R87 in the present band: LLC hit, mesh hop, DRAM. -/
def State.latencies (s : State) : Nat × Nat × Nat :=
  match s.band with
  | 0 => (160, 40, 400)
  | 1 => (229, 57, 560)
  | _ => (640, 160, 1100)

/-- The term of a window address: own core, another core at h steps, or a target that is not resident. -/
def State.windowTerm (s : State) (k target : Nat) : Nat :=
  let g := s.wg (wgKey (keyLaunch k) target)
  let (llc, hop, _) := s.latencies
  if g.status != .resident then llc + 4 * hop
  else if g.core = (s.wg k).core then s.arithToCyc 16
  else llc + s.meshSteps (dieOf (s.wg k).core) (dieOf g.core) * hop

/-- The term of an address in a space for a source or a destination (R123). -/
def State.copyTerm (s : State) (k space addr : Nat) (dst : Bool) : Nat :=
  let (llc, hop, dram) := s.latencies
  let base := if dst then llc else dram
  match space with
  | 1 | 5 => s.arithToCyc 16
  | 3 => s.windowTerm k (winWg addr)
  | 4 => 0
  | _ =>
    match s.probe (s.wg k).core (s.ctxNo k) addr (if dst then .write else .read) false with
    | .ok g _ =>
      if g / pkgSpan != s.pkg then 4000
      else match regionOf (g % pkgSpan) with
        | .dieWindow d _ => base + s.meshSteps (dieOf (s.wg k).core) d * hop
        | .host _ => 4000
        | _ => base + 4 * hop
    | _ => base + 4 * hop

/-- The destination term of a multicast: the worst of its targets' window terms (DESIGN CHOICE, log 76: R123's table lists no landing
buffer). -/
def State.castTerm (s : State) (k : Nat) (members : List Nat) : Nat :=
  let q := Nat.max 1 (s.packet k).qgroup
  members.foldl (fun n j => Nat.max n (s.windowTerm k (keyWgid k / q * q + j))) 0

/-- The promise of a copy with `n` transfer operations and terms S and W (R123, R124). Terms in cycles of the arithmetic clock are each
rounded up to CYC cycles (DESIGN CHOICE, log 76: the spec does not say whether their sum is). -/
def State.promise (s : State) (core n sv wv : Nat) : Word :=
  let c := s.cyc.setWidth 32
  let ahead := match (s.coreAt core).lastPromise with
    | some q => if (c - BitVec.ofNat 32 q).toNat < 2 ^ 31 then 0 else (BitVec.ofNat 32 q - c).toNat
    | none => 0
  c + BitVec.ofNat 32 (Nat.min (ahead + sv + wv + s.arithToCyc n) (2 ^ 30))

/-! ### Issue (R324) -/

/-- A copy accepted by the copy unit. S and W are each the worst over the lanes (DESIGN CHOICE, log 76: the spec does not say whether
both are one lane's). -/
def State.acceptCopy (s : State) (i : Instr) (ls : List Nat) (l0 : Nat) : State :=
  let f := i.fields
  let k := s.curWg
  let core := s.curG.core
  let ds := copyDst i
  let a := (s.curW.pairA f l0).toNat
  let members := match i with
    | .cpym _ => (s.maskMembers k (bits a 39 36)).getD []
    | _ => []
  let ms := s.copyMoves i ls
  let parts := groupMoves ms
  let worst (g : Move → Nat) : Nat := ms.foldl (fun n m => Nat.max n (g m)) 0
  let sv := worst fun m => s.copyTerm k f.mod2 m.src false
  let wv := if ds = 4 then s.castTerm k members else worst fun m => s.copyTerm k ds m.dst true
  let p := s.promise core parts.length sv wv
  let arr := f.mbit 4
  let cnt := match i with
    | .cpym _ => false
    | _ => f.c.getLsbD 4
  let bar := f.c.toNat % 16
  let copy : Copy :=
    { id := s.tag, wg := k, warp := s.curWarp, core, insn := i, pc := s.curPc, arr, cnt, bar, left := parts.length,
      owed := arr && (s.curG.bar bar).cu, entry := bits a 34 32
      after := s.passed k s.curWarp (s.trueLanes f) }
  let xs : List Xfer := (List.range parts.length).map fun n =>
    { id := s.tag + 1 + n, copy := s.tag, moves := parts.getD n [], size := copySize f, srcSpace := f.mod2, dstSpace := ds,
      srcSeg := s.curW.segnum f, phase := .ready, members }
  let s1 := { s with copies := s.copies ++ [copy], xfers := s.xfers ++ xs, tag := s.tag + 1 + parts.length }
  let s2 := s1.updCore core fun c => { c with lastPromise := some p.toNat }
  (s2.updCur fun w => { w.putD f ls fun _ => p with cpc := w.cpc + 1 }).advance f.len

/-- The issue of a copy instruction (R119, R322, R324). -/
def State.copyIssue (s : State) (i : Instr) : State :=
  let f := i.fields
  match s.trueLanes f with
  | [] => s.advance f.len
  | l0 :: ls =>
    let fails := s.copyFailures i (l0 :: ls)
    match failTrap s.curPc fails with
    | some t => (s.auditRefusals s.curWg { space := 3 } fails).trapHere t
    | none => if s.landFails i l0 then s.protHere f 9 0 else s.acceptCopy i (l0 :: ls) l0

/-- R118 to R123, R323, R324. -/
def execCpy (f : Fields) (s : State) : Host.Outcome State Fault Refusal :=
  issueHeld (.cpy f) (s.copyHeld (.cpy f)) s fun s => s.copyIssue (.cpy f)

/-- R136, R325. -/
def execCpym (f : Fields) (s : State) : Host.Outcome State Fault Refusal :=
  issueHeld (.cpym f) (s.copyHeld (.cpym f)) s fun s => s.copyIssue (.cpym f)

/-- R326. -/
def execCpyw (f : Fields) (s : State) : Host.Outcome State Fault Refusal :=
  issueHeld (.cpyw f) (s.copyHeld (.cpyw f)) s fun s => s.copyIssue (.cpyw f)

/-! ### Completion (R122, R130) -/

/-- A copy in the copy unit. -/
def State.copy? (s : State) (id : Nat) : Option Copy := s.copies.find? fun c => c.id == id
/-- A transfer operation. -/
def State.xfer? (s : State) (id : Nat) : Option Xfer := s.xfers.find? fun x => x.id == id
/-- Replaces a transfer operation. -/
def State.setXfer (s : State) (x : Xfer) : State := { s with xfers := s.xfers.map fun y => if y.id = x.id then x else y }

/-- A transfer operation has been performed or refused; the last one lowers CPC (R122), and the copy stays only while it
owes an arrival. -/
def State.endXfer (s : State) (c : Copy) (x : Xfer) : State :=
  let s1 := { s with xfers := s.xfers.filter fun y => y.id != x.id
                     copies := s.copies.map fun d => if d.id = c.id then { d with left := d.left - 1 } else d }
  if c.left ≤ 1 then
    let s2 := s1.updWarp c.wg c.warp fun w => { w with cpc := w.cpc - 1 }
    if c.owed then s2 else { s2 with copies := s2.copies.filter fun d => d.id != c.id }
  else s1

/-- A refusal (R134, R324, R449): REFUSED in the issuer's barrier if the copy carries `.arr` or `.cnt`, an event, and the
operation counts as complete. -/
def State.refuseXfer (s : State) (c : Copy) (x : Xfer) (type : Nat) (data : List Byte) : State :=
  let s1 := if c.arr || c.cnt then s.updBar c.wg c.bar fun b => { b with refused := true } else s
  let l := s.launch (keyLaunch c.wg)
  (s1.logEvent l.packet.part type l.ctx l.vq (keyWgid c.wg) data).endXfer c x

/-- The first copy of a workgroup that owes a barrier an arrival, if it and every earlier copy that names the barrier have
been performed or refused (R130). -/
def State.dueArrival (s : State) (k b : Nat) : Option Copy :=
  let named := s.copies.filter fun c => c.wg == k && c.bar == b && (c.arr || c.cnt || copyDst c.insn == 4)
  match named.find? (·.owed) with
  | some c => if named.all fun d => c.id < d.id || d.left == 0 then some c else none
  | none => none

/-- A copy-unit arrival is applied: to the current phase, at most one, else queued (R130). -/
def Barrier.cuArrive (x : Barrier) : Barrier :=
  if x.cuHere || x.pend = 0 then { x with qcu := true } else { x with cuHere := true, pend := x.pend - 1 }

/-- The copy no longer owes its arrival. -/
def State.payArrival (s : State) (c : Copy) : State :=
  let cs := s.copies.map fun (d : Copy) => if d.id = c.id then { d with owed := false } else d
  { s with copies := cs.filter fun d => d.owed || d.left != 0 }

/-- R130: arrivals restored from an image are applied first; a third waits in the copy unit. -/
def execCopyUnitArrival (wg b : Nat) (s : State) : Host.Outcome State Fault Refusal :=
  let x := (s.wg wg).bar b
  if (s.wg wg).status != .resident || (x.qcu && (x.cuHere || x.pend == 0)) then .refused (.notEnabled "COPY_UNIT_ARRIVAL")
  else if 0 < x.cuWait then .next (s.updBar wg b fun y => { y.cuArrive with cuWait := y.cuWait - 1 })
  else match s.dueArrival wg b with
    | some c => .next ((s.updBar wg b Barrier.cuArrive).payArrival c)
    | none => .refused (.notEnabled "COPY_UNIT_ARRIVAL")

/-! ### Transfer operations (R120, R121, R134, R162) -/

/-- What resolving one side of a transfer operation gives. -/
inductive XferOut where
  | wait
  | park (s : State) (va level : Nat)
  | refuse (s : State) (type : Nat) (data : List Byte)
  | go (s : State) (x : Xfer)

/-- Event data of a refusal after issue (R430 type 8): cause and barrier, in 4 bytes each (DESIGN CHOICE, log 55), failing VA. -/
def refuseData (cause bar va : Nat) : List Byte := bytesOf 4 cause ++ bytesOf 4 bar ++ bytesOf 16 va

/-- A transfer operation parks (R50, R52). -/
def State.parkXfer (s : State) (c : Copy) (x : Xfer) (va level : Nat) (acc : Access) : State :=
  let q := quadOf c.core
  let full := s.poolShut q
  let page := va / 2 ^ 18
  let s1 := { s.setXfer { x with phase := if full then .miss else .parked, order := s.seq + 1, page, level } with seq := s.seq + 1 }
  let s2 := if full then s1.setCreg (faultBlock q) (s1.creg (faultBlock q) ||| 2 ^ 9) else s1
  let s3 := s2.faultEntry c.core (s.ctxNo c.wg) (s.ctxPart (s.ctxNo c.wg)) page level (accessBit acc false)
  (s3.recountPool q).count c.wg c.warp 7 1

/-- The translation of one side in `.g` or `.c`: its pod-global line, or why the operation does not go on. -/
def State.xferSide (s : State) (c : Copy) (va : Nat) (acc : Access) (k : State → Nat → Nat → XferOut) : XferOut :=
  let ctx := s.ctxNo c.wg
  match s.pageHeld c.core ctx (va / 2 ^ 18) with
  | some level => .park s va level
  | none =>
    let (s1, tr, leaf) := s.translate c.core ctx va acc false
    match tr with
    | .absent level => .park s1 va level
    | .prot d => .refuse (if d = 6 then s1.auditEvent 1 ctx va else s1) 8 (refuseData 1 c.bar va)
    | .ok g cpol =>
      let y := if g / pkgSpan = s.pkg then (0, s1) else s1.takePath (g / pkgSpan)
      match y.2.homeChecks g leaf y.1 with
      | some _ => .refuse y.2 8 (refuseData 3 c.bar va)
      | none => k y.2 g cpol

/-- A register of a resident workgroup named by a window range is abroad (R22). -/
def State.winAbroad (s : State) (t addr size : Nat) : Bool :=
  winKind addr == 0 && (List.range (size / 4)).any fun i =>
    let off := winOff addr + 4 * i
    s.abroad t (off / 65536) (off / 256 % 256) (off % 256 / 4)

/-- The window address of a workgroup's first register, for a log entry. -/
def winWgAddr (rid : Nat) : Nat := rid * 2 ^ 32

/-- The target workgroup of a window address. -/
def winTarget (k addr : Nat) : Nat := wgKey (keyLaunch k) (winWg addr)

/-- The quad of a resident target is connected (R32). -/
def State.winConnected (s : State) (core t : Nat) : Bool :=
  s.connected s.pkg (quadOf core) (288 + quadOf (s.wg t).core)

/-- The pod-global address of a range of a saved workgroup's object in its image; `gz` has none (R22, R27). -/
def State.imageAt (s : State) (t addr : Nat) : Option Nat :=
  let kind := winKind addr
  let off := winOff addr
  if kind = 0 ∧ off / 256 % 256 = 255 then none else some (s.own ((s.wg t).image + imgObject (s.packet t) kind off))

/-- A core's quad is connected to where an object of a target lies: the target's core, or the slice of its image (R32). -/
def State.objConnected (s : State) (core t addr : Nat) : Bool :=
  if (s.wg t).status = .saved then
    match (s.imageAt t addr).bind s.portOf with
    | some p => s.connected s.pkg (quadOf core) p
    | none => true
  else s.winConnected core t

/-- The offset in a resident target's core window of an object's byte (R21, R25). -/
def State.storeOff (s : State) (t addr : Nat) : Nat :=
  let g := s.wg t
  let off := winOff addr
  match winKind addr with
  | 0 => (s.warp t (off / 65536)).slot * 65536 + off % 65536
  | 1 => s.scratchOff t off
  | 2 => 0x1100000 + 16384 * g.tileNos.getD (off / 16384) 0 + off % 16384
  | 3 => (if off < 4096 then 0x1140000 else 0x1141000) + 256 * g.tileNos.getD (off % 4096 / 256) 0 + off % 256
  | 4 => 0x1180000 + 65536 * g.wbNos.getD (off / 65536) 0 + off % 65536
  | _ => 0x1200000 + 32768 * g.hsNos.getD (off / 32768) 0 + off % 32768

/-- A range of a window object holds an uncorrectable error: in the storage of the target's core, or in its image (R306). -/
def State.winBad (s : State) (t addr size : Nat) : Bool :=
  if (s.wg t).status = .saved then (s.imageAt t addr).any fun g => s.badAt g size
  else s.storeBadAt (s.wg t).core (s.storeOff t addr) size

/-- The error of a window object is counted, and its line or row retired (R306). -/
def State.winError (s : State) (t addr : Nat) : State :=
  if (s.wg t).status = .saved then
    match s.imageAt t addr with
    | some g => s.retireLine g
    | none => s
  else s.storeError (s.wg t).core (s.storeOff t addr)

/-- A mixing step writes element n of a history slot: those of the carried tiles (R362, R373). -/
def Workgroup.mixesHist (g : Workgroup) (slot n : Nat) : Bool :=
  g.mixing.any (fun m => m.slots.contains slot) && n < (if g.region.two then 8192 else 4096)

/-- One word of an object that a resident workgroup's engines may be writing (R28, R373): a tile element, a side element or a history
element. -/
def State.engineWord (s : State) (t kind off : Nat) : Word × State :=
  match kind with
  | 2 => s.tileRead t (off / 16384) (off % 16384 / 4) false
  | 3 => s.tileRead t (off % 4096 / 256) (off % 256 / 4 + (if off < 4096 then 0 else 64)) true
  | 5 =>
    let slot := off / 32768
    let n := off % 32768 / 4
    let g := s.wg t
    s.mixRead (g.mixesHist slot n) (g.mixing.map fun m => SMap.get 0 (SMap.get [] m.hs slot) n) (g.hsAt slot n)
  | _ => ((s.wg t).objWord kind off, s)

/-- Reads `n` words of an object of a resident workgroup, as one number. -/
def State.objGet (s : State) (t kind off : Nat) : Nat → Nat × State
  | 0 => (0, s)
  | n + 1 =>
    let r := s.engineWord t kind off
    let y := r.2.objGet t kind (off + 4) n
    (r.1.toNat + 2 ^ 32 * y.1, y.2)

/-- Writes one word of an object of a resident workgroup (R28, R373). -/
def State.setEngineWord (s : State) (t kind off : Nat) (v : Word) : State :=
  match kind with
  | 2 => s.tileWrite t (off / 16384) (off % 16384 / 4) v
  | 5 => s.mixWrite ((s.wg t).mixesHist (off / 32768) (off % 32768 / 4)) t fun g => g.setHs (off / 32768) (off % 32768 / 4) v
  | _ => s.updWg t fun g => g.setObjWord kind off v

/-- Writes `n` words of an object of a resident workgroup. -/
def State.objPut (s : State) (t kind off v : Nat) : Nat → State
  | 0 => s
  | n + 1 => (s.setEngineWord t kind off (BitVec.ofNat 32 v)).objPut t kind (off + 4) (v / 2 ^ 32) n

/-- A byte of a window object, of which the threads at its core see `b`, as the threads of a warp on a core read it: a copy's write that
they see and those at the target do not yet stands over it (R442). -/
def State.owedByte (s : State) (t core : Nat) (who : Nat × Nat) (a : Nat) (b : Byte) : Byte :=
  s.late.foldl (fun b u => match u.owed with
    | some (at_, n, v) => if u.place = some t && u.sees core who && at_ ≤ a && a < at_ + n then BitVec.ofNat 8 (v / 256 ^ (a - at_)) else b
    | none => b) b

/-- A range of a window object with those writes. -/
def State.withOwed (s : State) (t core : Nat) (who : Nat × Nat) (addr size v : Nat) : Nat :=
  let a := addr % 2 ^ 32
  if s.late.all fun u => u.owed.isNone then v
  else bytesVal ((List.range size).map fun i => s.owedByte t core who (a + i) (BitVec.ofNat 8 (v / 256 ^ i)))

/-- The bytes of a range of a window object as the threads of a warp on a core read them: at the target's core, or in the image (R27,
R28, R162). -/
def State.winGet (s : State) (core : Nat) (who : Nat × Nat) (t addr size : Nat) : Nat × State :=
  let kind := winKind addr
  if (s.wg t).status = .saved then ((s.imageAt t addr).elim 0 fun a => s.memRead a size, s)
  else if kind = 1 then (s.scratchSeen t core who (winOff addr) size, s)
  else
    let y := s.objGet t kind (winOff addr) (size / 4)
    (s.withOwed t core who addr size y.1, y.2)

/-- Writes a range of a window object: at the target's core, or in the image (R27, R28). -/
def State.winPut (s : State) (t addr size v : Nat) : State :=
  let kind := winKind addr
  let off := winOff addr
  if (s.wg t).status = .saved then
    match s.imageAt t addr with
    | some a => (s.memWrite a size v).cleanMem a size
    | none => s
  else if kind = 1 then (s.scratchPut t off size v).cleanScratch t off size
  else (s.objPut t kind off v (size / 4)).cleanStore (s.wg t).core (s.storeOff t addr) size

/-- A copy's write that the threads at its target come to see (R133, R442), unless a register that it names is abroad: then it waits
until that is home (R22). -/
def State.payOwed (s : State) (u : Late) : State :=
  match u.place, u.owed with
  | some t, some (a, n, v) =>
    if s.winAbroad t a n then s else { s with late := s.late.filter fun x => x.id != u.id }.winPut t a n v
  | _, _ => s

/-- Those writes that the cores of their targets see by now. -/
def State.payShown (s : State) : State :=
  (s.late.filter fun u => u.owed.isSome && u.place.any fun t => u.shownIn (s.wg t).core 1).foldl (fun s u => s.payOwed u) s

/-- Those writes to a workgroup that meet a range of an object, or all of them. -/
def State.payAt (s : State) (t : Nat) (range : Option (Nat × Nat)) : State :=
  (s.late.filter fun u => u.place == some t && u.owed.any fun o => range.all fun r => overlap o.1 o.2.1 r.1 r.2).foldl
    (fun s u => s.payOwed u) s

/-- A performed write becomes visible to the unit of a core at a scope (R147). -/
def State.makeVisible (s : State) (n scope core : Nat) : State :=
  match s.late[n]? with
  | some u => if u.owed.isSome && 4 ≤ scope then s.payOwed u else (s.showLate n scope core).payShown
  | none => s

/-- The records of an abroad section from an address: the address of each record, while `fuel` lasts and until the
terminator (R106, R398). -/
def State.abroadRecords (s : State) : Nat → Nat → List Nat
  | 0, _ => []
  | fuel + 1, a =>
    if s.memRead a 4 % 4 = 0 then []
    else a :: s.abroadRecords fuel (a + Nat.max 1 (s.memRead (a + 4) 4 / 65536) * 16)

/-- A register of a saved workgroup is held in the abroad section of its image (R27, R106): its record carries an escort,
whose range the instruction's 128-bit form names. -/
def State.imageAbroad (s : State) (t w r l : Nat) : Bool :=
  let base := s.own (s.wg t).image
  let at_ := base + s.memRead (base + 0x30 + 48) 4
  (s.abroadRecords 4096 at_).any fun a =>
    let st := s.memRead a 4
    let eb := s.memRead (a + 0x10 + 12) 1
    let en := s.memRead (a + 0x10 + 13) 1 % 16
    !bit st 2 && s.memRead (a + 0x10) 1 % 4 == 2 && s.memRead (a + 4) 1 % 64 == w && bit (s.memRead (a + 8) 8) l
      && eb ≤ r && r < eb + en

/-- A register that a window range names is not home: abroad, or abroad in the image. -/
def State.winHeld (s : State) (t addr size : Nat) : Bool :=
  if (s.wg t).status = .saved then
    winKind addr == 0 && (List.range (size / 4)).any fun i =>
      let off := winOff addr + 4 * i
      s.imageAbroad t (off / 65536) (off / 256 % 256) (off % 256 / 4)
  else s.winAbroad t addr size

/-- Event data of a refusal at a window (R430 type 1): the WGID of the side that is refused, the barrier and the destination `.w` address, or
the source's where the destination is no window (DESIGN CHOICE, log 55, as are the widths of 4, 4 and 8 bytes). -/
def Xfer.windowData (x : Xfer) (c : Copy) (addr : Nat) : List Byte :=
  bytesOf 4 (winWg addr) ++ bytesOf 4 c.bar ++ bytesOf 8 (if x.dstSpace = 3 then (x.moves.map (·.dst)).headD 0 else addr)

/-- The fate of one side in a window (R134). A quad that the matrix parts from the target after the issue, of which R32 gives no fate, has
the transfer refused and audited (DESIGN CHOICE, log 98). -/
def State.xferWindow (s : State) (c : Copy) (x : Xfer) (addr : Nat) (moves : List Nat) (k : Nat → XferOut) : XferOut :=
  let t := winTarget c.wg addr
  let g := s.wg t
  let refuse := XferOut.refuse s 1 (x.windowData c addr)
  match g.status with
  | .discarded | .exited => refuse
  | .waiting => .wait
  | _ =>
    if !s.objConnected c.core t addr then
      XferOut.refuse (s.auditEvent 1 (s.ctxNo c.wg) addr) 1 (x.windowData c addr)
    else if moves.any fun a => s.winHeld t a x.size then .wait
    else k t

/-- The address of the first move of an operation. -/
def Xfer.src0 (x : Xfer) : Nat := (x.moves.map (·.src)).headD 0
/-- The destination of the first move of an operation. -/
def Xfer.dst0 (x : Xfer) : Nat := (x.moves.map (·.dst)).headD 0

/-- The source bytes of a transfer operation are read. A lane whose source holds an uncorrectable error is dropped and
takes DATA_ERR at the copy (R306). -/
def State.xferRead (s : State) (c : Copy) (x : Xfer) : XferOut :=
  let done (s : State) (x : Xfer) (g : State → Move → Nat × State) : XferOut :=
    let y := x.moves.foldl (fun (a : List (List Byte) × State) m =>
      let r := g a.2 m
      (a.1 ++ [bytesOf x.size r.1], r.2)) ([], s)
    .go y.2 { x with data := y.1, isRead := true }
  -- the lanes whose source is bad are dropped
  let purge (s : State) (bad : Move → Bool) : State × Xfer :=
    match x.moves.filter bad with
    | [] => (s, x)
    | m :: ms => (s.addTrap c.wg c.warp
        { cause := 9, pc := c.pc, va := BitVec.ofNat 80 m.src, mask := maskOf ((m :: ms).map (·.lane)) },
        { x with moves := x.moves.filter fun m => !bad m })
  match x.srcSpace with
  | 1 =>
    let bad (m : Move) : Bool := s.scratchBadAt c.wg m.src x.size
    let p := purge ((x.moves.filter bad).foldl (fun s m => s.scratchError c.wg m.src) s) bad
    done p.1 p.2 fun s m => (s.scratchSeen c.wg c.core (c.wg, c.warp) m.src x.size, s)
  | 3 => s.xferWindow c x x.src0 (x.moves.map (·.src)) fun t =>
    let bad (m : Move) : Bool := s.winBad t m.src x.size
    let s1 := (x.moves.filter bad).foldl (fun s m => s.winError t m.src) s
    let p := purge s1 bad
    done p.1 p.2 fun s m => s.winGet c.core (c.wg, c.warp) t m.src x.size
  | _ => s.xferSide c x.src0 .read fun s1 g cpol =>
    let pa (m : Move) : Nat := g - g % 128 + m.src % 128
    let bad (m : Move) : Bool := s1.badAt (pa m) x.size
    let s2 := (x.moves.filter bad).foldl (fun s m => s.retireLine (pa m)) s1
    let p := purge (s2.llcTouch g (s2.ctxPart (s2.ctxNo c.wg)) cpol c.insn.fields.ch.toNat) bad
    done p.1 p.2 fun s m => (bytesVal (s.bytesFor c.core (s.canon (pa m)) x.size), s)

/-- The moves that write for a member (0 where there is none), with their bytes: those whose bytes no higher lane of the copy has
written already, or writes in this operation (R120). -/
def Xfer.writes (x : Xfer) (c : Copy) (member : Nat) : List (Move × List Byte) :=
  (x.moves.zip x.data).filter fun p =>
    !(c.wrote.any fun w => w.1 == member && w.2.1 == p.1.dst && p.1.lane < w.2.2)
      && !x.moves.any fun m => m.dst == p.1.dst && p.1.lane < m.lane

/-- The copy remembers what an operation has written. -/
def State.noteWrites (s : State) (c : Copy) (x : Xfer) (member : Nat) : State :=
  { s with copies := s.copies.map fun d => if d.id = c.id then { d with wrote := d.wrote ++ x.moves.map fun m => (member, m.dst, m.lane) } else d }

/-- The writes that the accesses of a copy's threads came after, when it was accepted, and that not every thread sees. -/
def Copy.lates (c : Copy) : List Nat := c.after.flatMap (·.lates)

/-- A copy's write is noted, as the copy unit's own (R149). -/
def State.noteCopy (s was : State) (c : Copy) (place : Option Nat) (a n : Nat) : State :=
  s.noteChain was place a n (c.wg, c.warp) 64 0 c.lates

/-- A copy's write to a workgroup's scratch. The next of the model's choices says whether every thread sees it at once (0), or at
first only those of the issuing warp (R162, log 69). -/
def State.copyPut (s : State) (c : Copy) (t : Nat) (bars : List (Nat × Nat)) (a n v : Nat) : State :=
  let y := s.takeChoice
  let s1 : State :=
    if y.1 = 0 then (y.2.scratchPut t a n v).cleanScratch t a n
    else
      let was := (List.range n).map fun i => (a + i, (s.wg t).scratchAt (a + i))
      { (y.2.updWg t fun g => g.scratchWrite a n v).cleanScratch t a n with
        late := y.2.late ++ [{ place := some t, was, owner := (c.wg, c.warp), seen := [], bars, id := y.2.lateId, core := c.core }] }
  s1.noteCopy s c (some t) a n

/-- A copy's write to registers, tiles, side registers or slots through a window. The next of the model's choices says whether the
threads at the target see it at once (0), or at first only those of the issuing warp, and the others the earlier contents (R442,
log 69). -/
def State.objCopyPut (s : State) (c : Copy) (t : Nat) (bars : List (Nat × Nat)) (addr n v : Nat) : State :=
  let a := addr % 2 ^ 32
  let s0 := s.payAt t (some (a, n))
  let y := s0.takeChoice
  let s1 : State :=
    if y.1 = 0 then y.2.winPut t addr n v
    else
      { y.2 with late := y.2.late ++ [{ place := some t, was := [], owner := (c.wg, c.warp), seen := [], bars, id := y.2.lateId, core := c.core
                                        owed := some (a, n, v) }] }
  s1.noteCopy s0 c (some t) (2 ^ 32 + a) n

/-- The barrier of the issuing workgroup to which a copy contributes (R133). -/
def Copy.ownBar (c : Copy) : List (Nat × Nat) := if c.arr || c.cnt then [(c.wg, c.bar)] else []

/-- Counted bytes: size per lane, from the owner's barrier (R131). -/
def State.countBytes (s : State) (c : Copy) (x : Xfer) (owner : Nat) : State :=
  if c.cnt then s.updBar owner c.bar fun b => b.addBytes (0 - BitVec.ofNat 32 (x.size * x.moves.length)) else s

/-- A copy writes bytes of a slot; where a `wbinv` has run since the copy was accepted, each byte has its copied value or zero, as a free
value says (R359, log 5). -/
def State.slotPut (s : State) (k slot : Nat) (zeroed : Bool) (at_ : Nat) (bs : List Byte) : State :=
  let keep (i : Nat) : Bool := !zeroed || (Config.freeWord (s.free + i)).getLsbD 0
  let s1 := (s.updWg k fun g => (List.range bs.length).foldl (fun g i => if keep i then g.setWb slot (at_ + i) (bs.getD i 0) else g) g).cleanStore
    (s.wg k).core (0x1180000 + 65536 * (s.wg k).wbNos.getD slot 0 + at_) bs.length
  if zeroed then { s1 with free := s.free + bs.length } else s1

/-- The destination bytes of a transfer operation are written (R131, R134, R162). -/
def State.xferWrite (s : State) (c : Copy) (x : Xfer) : XferOut :=
  match x.dstSpace with
  | 1 => .go ((((x.writes c 0).foldl (fun s p => s.copyPut c c.wg c.ownBar p.1.dst x.size (bytesVal p.2)) s).countBytes
      c x c.wg).noteWrites c x 0) x
  | 5 =>
    let slot := c.insn.fields.c.toNat / 32
    .go ((((x.writes c 0).foldl (fun s p => s.slotPut c.wg slot x.zeroed p.1.dst p.2) s).countBytes c x c.wg).noteWrites c x 0) x
  | 3 => s.xferWindow c x x.dst0 (x.moves.map (·.dst)) fun t =>
    if c.cnt && !s.hasBar t c.bar then .refuse s 1 (x.windowData c x.dst0)
    else
      let bars := (if c.arr then [(c.wg, c.bar)] else []) ++ if c.cnt then [(t, c.bar)] else []
      let put (s : State) (a v : Nat) : State :=
        if (s.wg t).status = .saved then s.winPut t a x.size v
        else if winKind a = 1 then s.copyPut c t bars (winOff a) x.size v else s.objCopyPut c t bars a x.size v
      .go ((((x.writes c 0).foldl (fun s p => put s p.1.dst (bytesVal p.2)) s).countBytes c x t).noteWrites c x 0) x
  | _ => s.xferSide c x.dst0 .write fun s1 g cpol =>
    let pa (m : Move) : Nat := g - g % 128 + m.dst % 128
    let s2 := (x.writes c 0).foldl (fun s p =>
      ((s.putMem c.core (c.wg, c.warp) none (cpol != 2) c.ownBar false (pa p.1) x.size (bytesVal p.2)).noteCopy s c none
        (s.canon (pa p.1)) x.size).cleanMem (pa p.1) x.size) s1
    let s3 := s2.llcTouch g (s2.ctxPart (s2.ctxNo c.wg)) cpol c.insn.fields.ch.toNat
    .go ((s3.countBytes c x c.wg).noteWrites c x 0) x

/-- The accesses that precede the copy in its threads are performed and visible on its core, and so is what its threads saw before it,
as a core-scope release before it gives (R121, R149, R191). One that has read, or had parked, was released then. -/
def State.copyReleased (s : State) (c : Copy) (x : Xfer) : Bool :=
  let who := (c.wg, c.warp)
  x.isRead || x.order != 0 || ((x.moves.all fun m => !s.reqs.any fun r => r.awaits who m.lane c.id)
    && (s.late.all fun t => t.shownIn c.core 1 || !(x.moves.any fun m => t.madeBy who m.lane c.id))
    && c.after.all fun t => s.chainDone t c.core who 1)

/-- A transfer operation that was restored goes to its translation after what parked before it on its page (R107). -/
def State.xferTurn (s : State) (c : Copy) (x : Xfer) : Bool :=
  x.order == 0 || (!(s.reqs.any fun q => q.core == c.core && q.order != 0 && q.order < x.order && q.phase == .translate
      && q.va / 2 ^ 18 == x.page)
    && !s.xfers.any fun y => y.order != 0 && y.order < x.order && y.phase == .ready && y.page == x.page && s.xferCore y == c.core)

/-- One step of a transfer operation: its source is read, then its destination is written. `none`: it waits. The bytes of an operation
are read together, and written together, so that a write that meets it leaves them all old or all new (DESIGN CHOICE, log 75: the spec
lets each byte be either); only the bytes of a slot that `wbinv` clears meanwhile are each zero or the copy's. -/
def State.stepXfer (s : State) (c : Copy) (x : Xfer) : Option State :=
  let out := if x.isRead then s.xferWrite c x else s.xferRead c x
  match out with
  | .wait => none
  | .park s1 va level => some (s1.parkXfer c x va level (if x.isRead then .write else .read))
  | .refuse s1 type data => some (s1.refuseXfer c x type data)
  | .go s1 y =>
    if x.isRead || y.moves.isEmpty || (x.dstSpace == 4 && x.members.isEmpty) then some (s1.endXfer c y)
    else some (s1.setXfer { y with phase := .ready, order := 0 })

/-- R134: a multicast's writes are its deliveries. -/
def execTransferOperation (id : Nat) (s : State) : Host.Outcome State Fault Refusal :=
  match s.xfer? id with
  | some x =>
    match s.copy? x.copy with
    | some c =>
      if x.phase != .ready || !s.copyReleased c x || !s.xferTurn c x || (x.isRead && x.dstSpace == 4) then .refused (.notEnabled "TRANSFER_OPERATION")
      else match s.stepXfer c x with
        | some t => .next t
        | none => .refused (.notEnabled "TRANSFER_OPERATION")
    | none => .refused (.notEnabled "TRANSFER_OPERATION")
  | none => .refused (.notEnabled "TRANSFER_OPERATION")

/-! ### Multicast (R136, R137) -/

/-- The delivery of an operation to a receiver that takes it: at BASE + offset, and counted. -/
def State.landData (s : State) (c : Copy) (member t : Nat) (x : Xfer) (e : Landing) : State :=
  let s1 := (x.writes c member).foldl (fun s p =>
    if (s.wg t).status = .saved then
      s.memWrite (s.own ((s.wg t).image + imgObject (s.packet t) 1 (e.base + p.1.dst))) x.size (bytesVal p.2)
    else s.copyPut c t ((t, e.bar) :: if c.arr then [(c.wg, c.bar)] else []) (e.base + p.1.dst) x.size (bytesVal p.2)) s
  (s1.updBar t e.bar fun b => b.addBytes (0 - BitVec.ofNat 32 (x.size * x.moves.length))).noteWrites c x member

/-- R136: the first row that applies; a refused delivery is dropped, marks the sender's barrier and is logged, each field of the data in 4
bytes (DESIGN CHOICE, log 55). One whose target port the matrix forbids after the issue is refused so too, and audited (DESIGN CHOICE,
log 98: R32 gives only the check at issue). -/
def execMulticastDelivery (id member : Nat) (s : State) : Host.Outcome State Fault Refusal :=
  match s.xfer? id with
  | some x =>
    match s.copy? x.copy with
    | some c =>
      let p := s.packet c.wg
      let rid := keyWgid c.wg / Nat.max 1 p.qgroup * Nat.max 1 p.qgroup + member
      let t := wgKey (keyLaunch c.wg) rid
      let g := s.wg t
      let e := SMap.get {} g.landing c.entry
      let gone := g.status == .discarded || g.status == .exited
      let parted := !gone && !s.objConnected c.core t (e.base + 2 ^ 28 + x.dst0)
      let refused := gone || parted || (g.status != .saved && (!e.valid || x.moves.any fun m => e.size < m.dst + x.size))
      if !x.isRead || x.dstSpace != 4 || !x.members.contains member || g.status == .waiting then
        .refused (.notEnabled "MULTICAST_DELIVERY")
      else
        let l := s.launch (keyLaunch c.wg)
        let s1 :=
          if refused then
            ((if parted then s.auditEvent 1 (s.ctxNo c.wg) (winWgAddr rid) else s).updBar c.wg c.bar fun b => { b with refused := true }).logEvent l.packet.part 2 l.ctx l.vq rid
              (bytesOf 4 (keyWgid c.wg) ++ bytesOf 4 rid ++ bytesOf 4 c.entry ++ bytesOf 4 x.dst0)
          else s.landData c member t x e
        let y := { x with members := x.members.filter (· != member) }
        .next (if y.members.isEmpty then s1.endXfer c y else s1.setXfer y)
    | none => .refused (.notEnabled "MULTICAST_DELIVERY")
  | none => .refused (.notEnabled "MULTICAST_DELIVERY")

/-! ### `waitp` (R125 to R128, R327) -/

/-- `waitp` on a gathered warp: the warp sleeps until the promise of every guard-true thread is reached. -/
def waitpEffect (f : Fields) (acts : List Nat) (s : State) : State :=
  let far := acts.foldl (fun n l => Nat.max n (cyclesUntil s.cyc.toNat (s.curW.reg f.a.toNat l).toNat)) 0
  s.allWait (.promise f.b.toNat (b2n (f.mbit 0)) (s.cyc.toNat + far))

/-- R327. -/
def execWaitp (f : Fields) (s : State) : Host.Outcome State Fault Refusal :=
  issue (.waitp f) s fun s => s.gather (.waitp f) (waitpEffect f)

/-- R125, R126: the phase bit is read once; the warp goes on, having observed the phase (R133), or takes PROMISE_MISS. -/
def execPromiseReached (wg warp : Nat) (s : State) : Host.Outcome State Fault Refusal :=
  let x := s.warp wg warp
  let ls := x.unexited
  match ls with
  | [] => .refused (.notEnabled "PROMISE_REACHED")
  | l :: _ =>
    match (x.lane l).wait with
    | some { what := .promise b n t, .. } =>
      if (s.wg wg).status != .resident || s.cyc.toNat < t then .refused (.notEnabled "PROMISE_REACHED")
      else if ((s.wg wg).bar b).ph != (n == 1) then .next ((s.finishLanes wg warp ls).syncs wg warp ls true)
      else .next (s.takeTrap wg warp
        { cause := 10, pc := (x.lane l).pc, va := BitVec.ofNat 80 (b + n * 16), mask := maskOf ls })
    | _ => .refused (.notEnabled "PROMISE_REACHED")

end Sys2Proof.Machine
end

