-- ==== Sys2Proof/Machine/CrossLane.lean ====
section
/-! DEFINITION. Cross-lane instructions (R223, R297 to R301): the participants are the group's guard-true threads. -/

namespace Sys2Proof.Machine

/-- The source lane of `shfl` for a lane (R298); `none` where it is not valid. -/
def shflSource (f : Fields) (lane b : Nat) : Option Nat :=
  let off := if f.mbit 2 then 64 / 2 ^ (b % 8) else b
  match f.mod2 with
  | 0 => some (b % 64)
  | 1 => if off ≤ lane then some (lane - off) else none
  | 2 => if lane + off < 64 then some (lane + off) else none
  | _ => if lane ^^^ off < 64 then some (lane ^^^ off) else none

/-- R298. -/
def execShfl (f : Fields) (s : State) : Host.Outcome State Fault Refusal :=
  issue (.shfl f) s fun s => s.writeD f fun w l =>
    match shflSource f l (w.srcB f l).toNat with
    | some j => if (s.trueLanes f).contains j then w.srcA f j else w.srcA f l
    | none => w.srcA f l

/-- The participants in which A, inverted by MOD bit 61, holds (R299). -/
def State.voters (s : State) (f : Fields) : List Nat :=
  (s.trueLanes f).filter fun l => (s.curW.lane l).pred f.a.toNat ^^ f.mbit 2

/-- R299. -/
def execVote (f : Fields) (s : State) : Host.Outcome State Fault Refusal :=
  issue (.vote f) s fun s =>
    let n := (s.voters f).length
    let all := (s.trueLanes f).length
    match f.mod2 with
    | 0 => s.writePred f fun _ _ => n == all
    | 1 => s.writePred f fun _ _ => n != 0
    | 2 => s.writePred f fun _ _ => n == 0 || n == all
    | _ => s.writePair f fun _ _ => maskOf (s.voters f)

/-- An operation of `redl` and `scanl` (R300); flags of `add.f32` only, and of signalling NaNs in `min` and `max`. -/
def laneOp (op : Nat) (a b : Word) : Word × Flags :=
  match op with
  | 0 => (a + b, 0)
  | 1 => (if b.toInt < a.toInt then b else a, 0)
  | 2 => (if a.toInt < b.toInt then b else a, 0)
  | 3 => (if b.toNat < a.toNat then b else a, 0)
  | 4 => (if a.toNat < b.toNat then b else a, 0)
  | 5 => (a &&& b, 0)
  | 6 => (a ||| b, 0)
  | 7 => (a ^^^ b, 0)
  | 8 => wordFl (addVal fp32 .rne (f32 a) (f32 b))
  | 9 => wordFl (fminCode fp32 false a.toNat b.toNat)
  | _ => wordFl (fminCode fp32 true a.toNat b.toNat)

/-- The identity of an operation (R300). -/
def laneIdentity (op : Nat) : Word :=
  match op with
  | 1 => 0x7FFFFFFF | 2 => 0x80000000 | 3 => 0xFFFFFFFF | 5 => 0xFFFFFFFF | 9 => 0x7F800000 | 10 => 0xFF800000 | _ => 0

/-- One level of the canonical tree (R223): neighbours combine, an odd survivor is carried. -/
def treeLevel (g : Word → Word → Word × Flags) : List Word → List Word × Flags
  | a :: b :: l =>
    let (r, fl) := treeLevel g l
    ((g a b).1 :: r, (g a b).2 ||| fl)
  | l => (l, 0)

/-- The canonical tree (R223); `fuel` bounds the levels. -/
def tree (g : Word → Word → Word × Flags) : Nat → List Word → Word × Flags
  | _, [] => (0, 0)
  | _, [x] => (x, 0)
  | 0, x :: _ => (x, 0)
  | fuel + 1, l =>
    let (r, fl) := treeLevel g l
    let (x, fl2) := tree g fuel r
    (x, fl ||| fl2)

/-- The running results in order, with every addition's flags (R300). -/
def runningOps (g : Word → Word → Word × Flags) (acc : Word) : List Word → List Word × Flags
  | [] => ([], 0)
  | x :: l =>
    let (y, fl) := g acc x
    let (r, fl2) := runningOps g y l
    (y :: r, fl ||| fl2)

/-- The scan of each position and the flags (R300): inclusive, or one later from the identity. -/
def scanOf (op : Nat) (excl : Bool) : List Word → List Word × Flags
  | [] => ([], 0)
  | v :: l =>
    let (r, fl) := runningOps (laneOp op) v l
    if excl then (laneIdentity op :: v :: r, fl) else (v :: r, fl)

/-- R300. -/
def execRedl (f : Fields) (s : State) : Host.Outcome State Fault Refusal :=
  issue (.redl f) s fun s =>
    let ls := s.trueLanes f
    let r := tree (laneOp f.mod4) 7 (ls.map fun l => s.curW.srcA f l)
    (s.raise r.2).writeD f fun _ _ => r.1

/-- R300. -/
def execScanl (f : Fields) (s : State) : Host.Outcome State Fault Refusal :=
  issue (.scanl f) s fun s =>
    let ls := s.trueLanes f
    let r := scanOf f.mod4 (f.mbit 4) (ls.map fun l => s.curW.srcA f l)
    (s.raise r.2).writeD f fun _ l => r.1.getD (ls.idxOf l) 0

/-- R301. -/
def execMatchL (f : Fields) (s : State) : Host.Outcome State Fault Refusal :=
  issue (.matchL f) s fun s =>
    let ls := s.trueLanes f
    let v (l : Nat) : DWord := if f.mbit 0 then s.curW.pairA f l else (s.curW.srcA f l).setWidth 64
    s.writePair f fun _ l => maskOf (ls.filter fun j => v j == v l)

end Sys2Proof.Machine
end

