-- ==== Sys2Proof/WellFormed.lean ====
section
/-! DEFINITION. Which instructions are encodings that R236 lets pass: the form exists, and every field holds what its
instruction's description permits. An event is no encoding. -/

namespace Sys2Proof

/-- The form of an extension word of 32 bits (R233). -/
inductive Form where
  | none | i | k
deriving DecidableEq, Repr

/-- The lengths an opcode offers (R239): 64 bits, a 96-bit form, 128 bits. -/
structure Lens where
  l64 : Bool
  l96 : Form
  l128 : Bool
deriving DecidableEq, Repr

/-- An extension is one of the lengths. -/
def Lens.offers (l : Lens) : Ext → Bool
  | .none => l.l64
  | .imm _ => l.l96 == .i
  | .k .. => l.l96 == .k
  | .wide .. => l.l128

/-- An instruction that its encoding lets pass (R236 steps 4 to 6): its form is offered and its fields are permitted. -/
def Instr.wellFormed (lens : Instr → Lens) (i : Instr) : Bool :=
  (lens i).offers i.fields.ext && i.shapeOk

end Sys2Proof
end

