-- ==== Sys2Proof/Decode.lean ====
section
/-! DEFINITION. The decoder, total on any bytes (R225, R227, R233, R234, R236, R239), and the encoder after it. -/

namespace Sys2Proof

/-- Why bytes are no instruction: the steps of R236. -/
inductive Reject where
  /-- step 2: LEN = 11 -/
  | len
  /-- step 4: the opcode is not assigned -/
  | opcode
  /-- step 5: the opcode has no form of this length -/
  | form
  /-- step 6: bits 127:119 are not zero -/
  | reserved
  /-- fewer bytes than LEN asks for -/
  | short
deriving DecidableEq, Repr

/-- One row of the opcode map (R239). -/
structure OpRow where
  opc : Nat
  l64 : Bool
  l96 : Form
  l128 : Bool
  make : Fields → Instr

/-- The lengths of a row. -/
def OpRow.lens (r : OpRow) : Lens := ⟨r.l64, r.l96, r.l128⟩

/-- R256: MOD selects the form of `pmov`. -/
def mkPmov (f : Fields) : Instr := if f.mod = 4 then .pmovPack f else if f.mod = 8 then .pmovUnpack f else .pmov f
/-- R274. -/
def mkReplay (f : Fields) : Instr := match f.mod2 with | 1 => .replayCancel f | 2 => .replayPage f | _ => .replay f
/-- R318. -/
def mkFence (f : Fields) : Instr := match f.mod2 with | 1 => .fenceAck f | 2 => .fenceOpr f | _ => .fence f
/-- R320. -/
def mkCctl (f : Fields) : Instr := match f.mod2 with | 1 => .cctlInv1 f | 2 => .cctlInvall f | _ => .cctlDem f
/-- R329. -/
def mkBar (f : Fields) : Instr :=
  match f.mod3 with
  | 1 => .barSync f | 2 => .barWait f | 3 => .barExp f | 4 => .barInit f | 5 => .barRd f | 6 => .barRdClr f
  | _ => .barArr f
/-- R331. -/
def mkBarg (f : Fields) : Instr := match f.mod2 with | 1 => .bargSync f | 2 => .bargWait f | _ => .bargArr f
/-- R334. -/
def mkQpoll (f : Fields) : Instr := match f.mod2 with | 1 => .qpollSend f | 2 => .qpollRecv f | _ => .qpoll f
/-- R351. -/
def mkMxmv (f : Fields) : Instr := match f.mod2 with | 1 => .mxmvLd f | 2 => .mxmvTt f | _ => .mxmvSt f
/-- R372. -/
def mkSvrd (f : Fields) : Instr := match f.mod2 with | 1 => .svrdZp f | 2 => .svrdRp f | _ => .svrd f
/-- R372. -/
def mkSvhs (f : Fields) : Instr := if f.mbit 0 then .svhsWr f else .svhsClr f

/-- R239: opcodes from 0x000 to 0x07f. -/
def opsInteger : List OpRow := [
  ⟨0x001, true, .i, true, .add⟩,
  ⟨0x002, true, .i, true, .sub⟩,
  ⟨0x003, true, .i, true, .mul⟩,
  ⟨0x004, true, .i, true, .mulhi⟩,
  ⟨0x005, true, .i, true, .mad⟩,
  ⟨0x006, true, .i, true, .madw⟩,
  ⟨0x007, true, .i, true, .div⟩,
  ⟨0x008, true, .i, true, .rem⟩,
  ⟨0x009, true, .i, true, .min⟩,
  ⟨0x00A, true, .i, true, .max⟩,
  ⟨0x00B, true, .none, true, .abs⟩,
  ⟨0x00C, true, .none, true, .neg⟩,
  ⟨0x00D, true, .i, true, .and⟩,
  ⟨0x00E, true, .i, true, .or⟩,
  ⟨0x00F, true, .i, true, .xor⟩,
  ⟨0x010, true, .i, true, .andn⟩,
  ⟨0x011, true, .none, true, .not⟩,
  ⟨0x012, true, .i, true, .shl⟩,
  ⟨0x013, true, .i, true, .shr⟩,
  ⟨0x014, true, .i, true, .sar⟩,
  ⟨0x015, true, .i, true, .rot⟩,
  ⟨0x016, true, .i, true, .fsh⟩,
  ⟨0x017, true, .i, true, .bfx⟩,
  ⟨0x018, true, .i, true, .bfi⟩,
  ⟨0x019, true, .none, true, .popc⟩,
  ⟨0x01A, true, .none, true, .clz⟩,
  ⟨0x01B, true, .none, true, .brev⟩,
  ⟨0x01C, true, .i, true, .bsel⟩,
  ⟨0x01D, true, .i, true, .lea⟩,
  ⟨0x01E, true, .i, true, .sel⟩,
  ⟨0x01F, true, .i, true, .icmp⟩,
  ⟨0x020, true, .none, true, .mov⟩,
  ⟨0x021, false, .i, false, .movi⟩,
  ⟨0x022, true, .i, true, .add64⟩,
  ⟨0x023, true, .i, true, .sub64⟩,
  ⟨0x024, true, .i, true, .shl64⟩,
  ⟨0x025, true, .i, true, .shr64⟩,
  ⟨0x030, true, .none, false, .pand⟩,
  ⟨0x031, true, .none, false, .por⟩,
  ⟨0x032, true, .none, false, .pxor⟩,
  ⟨0x033, true, .none, false, .pnot⟩,
  ⟨0x034, true, .none, false, mkPmov⟩]

/-- R239: opcodes from 0x080 to 0x0ff. -/
def opsFloat : List OpRow := [
  ⟨0x080, true, .i, true, .fadd⟩,
  ⟨0x081, true, .i, true, .fsub⟩,
  ⟨0x082, true, .i, true, .fmul⟩,
  ⟨0x083, true, .i, true, .ffma⟩,
  ⟨0x084, true, .i, true, .fmin⟩,
  ⟨0x085, true, .i, true, .fmax⟩,
  ⟨0x086, true, .i, true, .fcmp⟩,
  ⟨0x087, true, .i, true, .fcls⟩,
  ⟨0x088, true, .i, true, .frnd⟩,
  ⟨0x090, true, .i, true, .hadd2⟩,
  ⟨0x091, true, .i, true, .hmul2⟩,
  ⟨0x092, true, .i, true, .hfma2⟩,
  ⟨0x093, true, .i, true, .hmin2⟩,
  ⟨0x094, true, .i, true, .hmax2⟩,
  ⟨0x095, true, .i, true, .bfma2⟩,
  ⟨0x0A0, true, .none, true, .dadd⟩,
  ⟨0x0A1, true, .none, true, .dmul⟩,
  ⟨0x0A2, true, .none, true, .dfma⟩,
  ⟨0x0A3, true, .none, true, .dcmp⟩,
  ⟨0x0C0, true, .none, true, .cvt⟩,
  ⟨0x0C1, true, .none, true, .pack⟩,
  ⟨0x0C2, true, .none, true, .unpk⟩,
  ⟨0x0C8, true, .none, true, .ndot⟩,
  ⟨0x0D0, true, .none, true, .cbld⟩,
  ⟨0x0D1, true, .none, true, .cbenc⟩,
  ⟨0x0D2, true, .none, true, .cbdec⟩]

/-- R239: opcodes from 0x100 to 0x17f. -/
def opsSpecial : List OpRow := [
  ⟨0x100, true, .none, false, .rcp⟩,
  ⟨0x101, true, .none, false, .rsq⟩,
  ⟨0x102, true, .none, false, .sqrt⟩,
  ⟨0x103, true, .none, false, .ex2⟩,
  ⟨0x104, true, .none, false, .lg2⟩,
  ⟨0x105, true, .none, false, .exp⟩,
  ⟨0x106, true, .none, false, .sinpi⟩,
  ⟨0x107, true, .none, false, .cospi⟩,
  ⟨0x108, true, .none, false, .tanh⟩,
  ⟨0x140, true, .i, true, .shfl⟩,
  ⟨0x141, true, .none, true, .vote⟩,
  ⟨0x142, true, .none, true, .redl⟩,
  ⟨0x143, true, .none, true, .scanl⟩,
  ⟨0x144, true, .none, true, .matchL⟩]

/-- R239: opcodes from 0x180 to 0x1bf. -/
def opsControl : List OpRow := [
  ⟨0x180, false, .i, false, .bra⟩,
  ⟨0x181, true, .none, false, .brx⟩,
  ⟨0x182, false, .i, false, .call⟩,
  ⟨0x183, true, .none, false, .ret⟩,
  ⟨0x184, true, .none, false, .exit⟩,
  ⟨0x185, true, .none, false, .yield⟩,
  ⟨0x186, true, .i, false, .sleep⟩,
  ⟨0x187, true, .none, false, .sleept⟩,
  ⟨0x188, false, .i, false, .waitc⟩,
  ⟨0x189, true, .none, false, .wsync⟩,
  ⟨0x18A, true, .none, false, .join⟩,
  ⟨0x18B, true, .i, false, .nop⟩,
  ⟨0x18C, false, .i, false, .trap⟩,
  ⟨0x18D, true, .none, false, .bkpt⟩,
  ⟨0x18E, true, .none, false, .eret⟩,
  ⟨0x1A0, true, .none, false, .movs⟩,
  ⟨0x1A1, true, .none, false, .movsw⟩,
  ⟨0x1A2, true, .i, false, .perf⟩,
  ⟨0x1A8, true, .none, false, .tlbinv⟩,
  ⟨0x1A9, true, .none, false, .harvest⟩,
  ⟨0x1AA, true, .none, false, mkReplay⟩]

/-- R239: opcodes from 0x1c0 to 0x23f. -/
def opsMemory : List OpRow := [
  ⟨0x1C0, true, .k, true, .ld⟩,
  ⟨0x1C1, true, .k, true, .st⟩,
  ⟨0x1C2, true, .k, true, .ldi⟩,
  ⟨0x1C3, true, .k, true, .ldfe⟩,
  ⟨0x1C4, true, .k, true, .stfe⟩,
  ⟨0x1C8, true, .k, true, .atom⟩,
  ⟨0x1C9, true, .k, true, .red⟩,
  ⟨0x1CA, true, .k, true, .cas⟩,
  ⟨0x1D0, false, .k, false, mkFence⟩,
  ⟨0x1D8, true, .k, true, mkCctl⟩,
  ⟨0x1D9, true, .k, true, .pref⟩]

/-- R239: opcodes from 0x240 to 0x27f. -/
def opsSync : List OpRow := [
  ⟨0x240, true, .k, true, .cpy⟩,
  ⟨0x241, true, .k, true, .cpym⟩,
  ⟨0x242, true, .k, true, .cpyw⟩,
  ⟨0x243, true, .none, false, .waitp⟩,
  ⟨0x244, true, .none, false, .land⟩,
  ⟨0x245, true, .none, false, .unland⟩,
  ⟨0x248, true, .k, false, mkBar⟩,
  ⟨0x249, true, .k, false, mkBarg⟩,
  ⟨0x250, true, .none, false, .rgive⟩,
  ⟨0x251, true, .none, false, .rtake⟩,
  ⟨0x252, true, .none, false, .rfree⟩,
  ⟨0x258, true, .none, false, mkQpoll⟩,
  ⟨0x260, false, .k, true, .coll⟩,
  ⟨0x261, false, .k, true, .collw⟩]

/-- R239: opcodes from 0x280 to 0x2ff. -/
def opsEngine : List OpRow := [
  ⟨0x280, true, .none, false, .mxi⟩,
  ⟨0x281, true, .none, false, .mxs⟩,
  ⟨0x282, true, .none, false, .mxv⟩,
  ⟨0x283, true, .none, false, .mxn⟩,
  ⟨0x284, true, .none, false, .mxsa⟩,
  ⟨0x285, true, .none, false, .mxz⟩,
  ⟨0x286, true, .none, false, .mxrd⟩,
  ⟨0x287, true, .none, false, .mxwr⟩,
  ⟨0x288, true, .none, false, mkMxmv⟩,
  ⟨0x289, true, .none, false, .wbinv⟩,
  ⟨0x2C0, true, .i, false, .solve⟩,
  ⟨0x2C1, true, .none, false, .svend⟩,
  ⟨0x2C2, true, .none, false, mkSvrd⟩,
  ⟨0x2C3, true, .none, false, mkSvhs⟩,
  ⟨0x2C4, true, .none, false, .svabort⟩]

/-- The opcode map (R239). -/
def opTable : List OpRow := opsInteger ++ opsFloat ++ opsSpecial ++ opsControl ++ opsMemory ++ opsSync ++ opsEngine

/-- The guard of a 4-bit field (R227). -/
def guardOf (x : BitVec 4) : Guard := ⟨x.extractLsb' 0 3, x.getLsbD 3⟩

/-- The extension that LEN and the row's form give (R225, R233, R234). -/
def extOf (len : BitVec 2) (form : Form) (x : BitVec 64) : Ext :=
  if len = 1 then
    if form = .k then .k (x.extractLsb' 0 8) (x.extractLsb' 8 4) (x.extractLsb' 12 4) (x.extractLsb' 16 16)
    else .imm (x.extractLsb' 0 32)
  else if len = 2 then
    .wide (x.extractLsb' 0 32) (x.extractLsb' 32 8) (x.extractLsb' 40 4) (x.extractLsb' 44 4) (x.extractLsb' 48 4)
      (x.extractLsb' 52 3)
  else .none

/-- The fields of a base word with its extension (R227). -/
def fieldsOf (b : BitVec 64) (e : Ext) : Fields :=
  { ga := guardOf (b.extractLsb' 12 4), gb := guardOf (b.extractLsb' 16 4), d := b.extractLsb' 20 8,
    a := b.extractLsb' 28 8, b := b.extractLsb' 36 8, c := b.extractLsb' 44 8, stall := b.extractLsb' 52 3,
    swap := b.getLsbD 55, ch := b.extractLsb' 56 3, mod := b.extractLsb' 59 5, ext := e }

/-- The length in bytes that LEN selects (R225); 0 for LEN = 11. -/
def lenBytes (len : BitVec 2) : Nat := if len = 0 then 8 else if len = 1 then 12 else if len = 2 then 16 else 0

/-- The row of an opcode. -/
def findOp (opc : Nat) : Option OpRow := opTable.find? fun r => r.opc == opc

/-- Decodes a base word and its extension bits (R236 steps 2, 4, 5 and the reserved bits of step 6). -/
def decodeWords (b x : BitVec 64) : Except Reject Instr :=
  let len := b.extractLsb' 0 2
  if len = 3 then .error .len
  else match findOp (b.extractLsb' 2 10).toNat with
    | none => .error .opcode
    | some r =>
      let e := extOf len r.l96 x
      if !(r.lens.offers e) then .error .form
      else if len = 2 ∧ x.extractLsb' 55 9 ≠ 0 then .error .reserved
      else .ok (r.make (fieldsOf b e))

/-- The little-endian number of a list of bytes (R4). -/
def leVal : List Byte → Nat
  | [] => 0
  | b :: l => b.toNat + 256 * leVal l

/-- Decodes the bytes of an instruction, lowest address first (R225); gives its length. -/
def decode (bs : List Byte) : Except Reject (Instr × Nat) :=
  if bs.length < 8 then .error .short
  else
    let b := BitVec.ofNat 64 (leVal (bs.take 8))
    let n := lenBytes (b.extractLsb' 0 2)
    if n = 0 then .error .len
    else if bs.length < n then .error .short
    else match decodeWords b (BitVec.ofNat 64 (leVal ((bs.take n).drop 8))) with
      | .ok i => .ok (i, n)
      | .error r => .error r

/-- The bytes of an instruction whose bits are `w`, with zeros above `nbits`, in memory order. -/
def tableBytes (nbits w : Nat) : List Byte := (List.range 16).map fun i => BitVec.ofNat 8 (w % 2 ^ nbits / 256 ^ i)

/-- The instruction that the decoder reads from bits numbered as the opcode table numbers them. -/
def decodeTableWord (nbits w : Nat) : Option Instr :=
  match decode (tableBytes nbits w) with
  | .ok (i, _) => some i
  | .error _ => none

/-! ### The encoder -/

/-- The opcode of an instruction (R239); 0, which is unassigned, for an event. -/
def Instr.opc : Instr → Nat
  | .add _ => 0x001
  | .sub _ => 0x002
  | .mul _ => 0x003
  | .mulhi _ => 0x004
  | .mad _ => 0x005
  | .madw _ => 0x006
  | .div _ => 0x007
  | .rem _ => 0x008
  | .min _ => 0x009
  | .max _ => 0x00A
  | .abs _ => 0x00B
  | .neg _ => 0x00C
  | .and _ => 0x00D
  | .or _ => 0x00E
  | .xor _ => 0x00F
  | .andn _ => 0x010
  | .not _ => 0x011
  | .shl _ => 0x012
  | .shr _ => 0x013
  | .sar _ => 0x014
  | .rot _ => 0x015
  | .fsh _ => 0x016
  | .bfx _ => 0x017
  | .bfi _ => 0x018
  | .popc _ => 0x019
  | .clz _ => 0x01A
  | .brev _ => 0x01B
  | .bsel _ => 0x01C
  | .lea _ => 0x01D
  | .sel _ => 0x01E
  | .icmp _ => 0x01F
  | .mov _ => 0x020
  | .movi _ => 0x021
  | .add64 _ => 0x022
  | .sub64 _ => 0x023
  | .shl64 _ => 0x024
  | .shr64 _ => 0x025
  | .pand _ => 0x030
  | .por _ => 0x031
  | .pxor _ => 0x032
  | .pnot _ => 0x033
  | .pmov _ | .pmovPack _ | .pmovUnpack _ => 0x034
  | .fadd _ => 0x080
  | .fsub _ => 0x081
  | .fmul _ => 0x082
  | .ffma _ => 0x083
  | .fmin _ => 0x084
  | .fmax _ => 0x085
  | .fcmp _ => 0x086
  | .fcls _ => 0x087
  | .frnd _ => 0x088
  | .hadd2 _ => 0x090
  | .hmul2 _ => 0x091
  | .hfma2 _ => 0x092
  | .hmin2 _ => 0x093
  | .hmax2 _ => 0x094
  | .bfma2 _ => 0x095
  | .dadd _ => 0x0A0
  | .dmul _ => 0x0A1
  | .dfma _ => 0x0A2
  | .dcmp _ => 0x0A3
  | .cvt _ => 0x0C0
  | .pack _ => 0x0C1
  | .unpk _ => 0x0C2
  | .ndot _ => 0x0C8
  | .cbld _ => 0x0D0
  | .cbenc _ => 0x0D1
  | .cbdec _ => 0x0D2
  | .rcp _ => 0x100
  | .rsq _ => 0x101
  | .sqrt _ => 0x102
  | .ex2 _ => 0x103
  | .lg2 _ => 0x104
  | .exp _ => 0x105
  | .sinpi _ => 0x106
  | .cospi _ => 0x107
  | .tanh _ => 0x108
  | .shfl _ => 0x140
  | .vote _ => 0x141
  | .redl _ => 0x142
  | .scanl _ => 0x143
  | .matchL _ => 0x144
  | .bra _ => 0x180
  | .brx _ => 0x181
  | .call _ => 0x182
  | .ret _ => 0x183
  | .exit _ => 0x184
  | .yield _ => 0x185
  | .sleep _ => 0x186
  | .sleept _ => 0x187
  | .waitc _ => 0x188
  | .wsync _ => 0x189
  | .join _ => 0x18A
  | .nop _ => 0x18B
  | .trap _ => 0x18C
  | .bkpt _ => 0x18D
  | .eret _ => 0x18E
  | .movs _ => 0x1A0
  | .movsw _ => 0x1A1
  | .perf _ => 0x1A2
  | .tlbinv _ => 0x1A8
  | .harvest _ => 0x1A9
  | .replay _ | .replayCancel _ | .replayPage _ => 0x1AA
  | .ld _ => 0x1C0
  | .st _ => 0x1C1
  | .ldi _ => 0x1C2
  | .ldfe _ => 0x1C3
  | .stfe _ => 0x1C4
  | .atom _ => 0x1C8
  | .red _ => 0x1C9
  | .cas _ => 0x1CA
  | .fence _ | .fenceAck _ | .fenceOpr _ => 0x1D0
  | .cctlDem _ | .cctlInv1 _ | .cctlInvall _ => 0x1D8
  | .pref _ => 0x1D9
  | .cpy _ => 0x240
  | .cpym _ => 0x241
  | .cpyw _ => 0x242
  | .waitp _ => 0x243
  | .land _ => 0x244
  | .unland _ => 0x245
  | .barArr _ | .barSync _ | .barWait _ | .barExp _ | .barInit _ | .barRd _ | .barRdClr _ => 0x248
  | .bargArr _ | .bargSync _ | .bargWait _ => 0x249
  | .rgive _ => 0x250
  | .rtake _ => 0x251
  | .rfree _ => 0x252
  | .qpoll _ | .qpollSend _ | .qpollRecv _ => 0x258
  | .coll _ => 0x260
  | .collw _ => 0x261
  | .mxi _ => 0x280
  | .mxs _ => 0x281
  | .mxv _ => 0x282
  | .mxn _ => 0x283
  | .mxsa _ => 0x284
  | .mxz _ => 0x285
  | .mxrd _ => 0x286
  | .mxwr _ => 0x287
  | .mxmvSt _ | .mxmvLd _ | .mxmvTt _ => 0x288
  | .wbinv _ => 0x289
  | .solve _ => 0x2C0
  | .svend _ => 0x2C1
  | .svrd _ | .svrdZp _ | .svrdRp _ => 0x2C2
  | .svhsClr _ | .svhsWr _ => 0x2C3
  | .svabort _ => 0x2C4
  | _ => 0

/-- The lengths that an instruction's opcode offers (R239); none for an event. -/
def Instr.lens (i : Instr) : Lens :=
  match findOp i.opc with
  | some r => r.lens
  | none => ⟨false, .none, false⟩

/-- A well-formed instruction: its form is offered and its fields are permitted (R236). -/
def Instr.wf (i : Instr) : Bool := i.wellFormed Instr.lens

/-- LEN of an extension (R225). -/
def Ext.len : Ext → BitVec 2
  | .none => 0
  | .imm _ => 1
  | .k .. => 1
  | .wide .. => 2

/-- The extension bits 127:64 (R233, R234). -/
def Ext.bits : Ext → BitVec 64
  | .none => 0
  | .imm v => (0 : BitVec 32) ++ v
  | .k e ks s o => (0 : BitVec 32) ++ (o ++ (s ++ (ks ++ e)))
  | .wide v b n ks s g => (0 : BitVec 9) ++ (g ++ (s ++ (ks ++ (n ++ (b ++ v)))))

/-- The 4 bits of a guard (R227). -/
def Guard.bits (g : Guard) : BitVec 4 := BitVec.ofBool g.neg ++ g.idx

/-- The base word (R227). -/
def Fields.word (f : Fields) (opc : BitVec 10) : BitVec 64 :=
  f.mod ++ (f.ch ++ (BitVec.ofBool f.swap ++ (f.stall ++ (f.c ++ (f.b ++ (f.a ++ (f.d ++ (f.gb.bits ++ (f.ga.bits
    ++ (opc ++ f.ext.len))))))))))

/-- The base word and the extension bits of an instruction. -/
def encode (i : Instr) : BitVec 64 × BitVec 64 :=
  (i.fields.word (BitVec.ofNat 10 i.opc), i.fields.ext.bits)

/-- The bytes of an instruction in memory (R225). -/
def encodeBytes (i : Instr) : List Byte :=
  let w := (encode i).1.toNat + 2 ^ 64 * (encode i).2.toNat
  (List.range i.fields.len).map fun k => BitVec.ofNat 8 (w / 256 ^ k)

end Sys2Proof
end

