-- ==== Sys2Proof/Machine/Queues.lean ====
section
/-! DEFINITION. Queue messages and collectives (R111 to R113, R157, R167, R223, R334 to R340). -/

namespace Sys2Proof.Machine

/-! ### Queues -/

/-- The messages of an incoming queue, oldest first. -/
def Workgroup.queue (g : Workgroup) (q : Nat) : List Message := SMap.get [] g.queues q

/-- Messages in flight to a queue of a workgroup: each has reserved a slot (R112). -/
def State.flightsTo (s : State) (t q : Nat) : Nat := (s.flights.filter fun x => x.target == t && x.queue == q).length

/-- The target of a `qpoll.send`, from the issuing thread (R335). -/
def State.sendTarget (s : State) (f : Fields) : Option (Nat × Nat) :=
  match s.trueLanes f with
  | [] => none
  | l :: _ =>
    let i := (s.curW.reg f.b.toNat l).toNat
    some (i, wgKey (keyLaunch s.curWg) i)

/-- `qpoll.send` waits at issue while its target's queue has no free slot (R112, R335); the messages that wait for a target not yet
admitted count, so that 16 wait for each of its queues (DESIGN CHOICE, log 99). -/
def State.sendHeld (s : State) (f : Fields) : Bool :=
  match s.sendTarget f with
  | some (i, t) =>
    i < (s.packet s.curWg).grid && (s.wg t).status != .exited && (s.wg t).status != .discarded
      && 16 ≤ ((s.wg t).queue f.d.toNat).length + s.flightsTo t f.d.toNat
  | none => false

/-- R334: never waits. -/
def execQpoll (f : Fields) (s : State) : Host.Outcome State Fault Refusal :=
  issue (.qpoll f) s fun s => s.writePred f fun _ _ => !(s.curG.queue f.a.toNat).isEmpty

/-- R335: one message of the guard-true threads' words; with a scope it is a release (R113). -/
def execQpollSend (f : Fields) (s : State) : Host.Outcome State Fault Refusal :=
  issueHeld (.qpollSend f) (s.sendHeld f) s fun s =>
    match s.sendTarget f with
    | none => s.advance f.len
    | some (i, t) =>
      if (s.packet s.curWg).grid ≤ i || (s.wg t).status == .exited || (s.wg t).status == .discarded then s.protHere f 9 i
      else
        let ls := s.trueLanes f
        let w := s.curW
        let msg : Message :=
          { mask := maskOf ls, words := ls.foldl (fun m l => SMap.set 0 m l (w.reg f.a.toNat l)) [], scope := f.modHi,
            core := s.curG.core }
        let x : Flight :=
          { id := s.tag, wg := s.curWg, warp := s.curWarp, target := t, queue := f.d.toNat, msg, bound := s.tag }
        let s1 := { s with flights := s.flights ++ [x], tag := s.tag + 1 }
        s1.advance f.len

/-- Gives the oldest message of a queue to lanes, which go on (R112, R336). A message of a releasing send is acquired by a reader in the
sender's unit at its scope (R157). -/
def State.takeMessage (s : State) (k w q d : Nat) (ls : List Nat) : State :=
  match (s.wg k).queue q with
  | [] => s
  | m :: ms =>
    let s1 := s.updWg k fun g => { g with queues := SMap.set [] g.queues q ms }
    let s2 := if 2 ≤ m.scope && sameUnit m.scope m.core (s.wg k).core then s1.l1Clear (s1.wg k).core else s1
    s2.updWarp k w fun x => ls.foldl (fun x l => x.setReg d l (SMap.get 0 m.words l)) x

/-- R336: the guard-true threads wait for a message together. -/
def execQpollRecv (f : Fields) (s : State) : Host.Outcome State Fault Refusal :=
  issue (.qpollRecv f) s fun s =>
    let ls := s.trueLanes f
    let q := f.a.toNat
    if ls.isEmpty then s.advance f.len
    else if (s.curG.queue q).isEmpty then
      (s.waitLanes ls (.message q f.d.toNat (maskOf ls)) f.len).advanceLanes s.curWg s.curWarp
        (s.group.filter fun l => !ls.contains l) f.len
    else (s.takeMessage s.curWg s.curWarp q f.d.toNat ls).advance f.len

/-- The bytes of a queue slot in a save image (R398): the 16-byte header holds the lane mask, a valid byte and the scope (log 16), then
the 64 words. The sender's core is no part of it: the workgroup's own record keeps it (log 22). -/
def Message.slotBytes (m : Message) : List Byte :=
  bytesOf 8 m.mask.toNat ++ bytesOf 1 1 ++ bytesOf 1 m.scope ++ bytesOf 6 0
    ++ (List.range 64).flatMap fun l => bytesOf 4 (SMap.get (0 : Word) m.words l).toNat

/-- The address of a queue slot in a saved workgroup's section. -/
def State.queueSlotAt (s : State) (t q i : Nat) : Nat :=
  s.own ((s.wg t).image + (imgOffsets (s.packet t) false 0).getD 4 0 + (q * 16 + i) * 272)

/-- A message is put into a queue; a saved workgroup's image receives it too (R112). -/
def State.putMessage (s : State) (t q : Nat) (m : Message) : State :=
  let n := ((s.wg t).queue q).length
  let s1 := s.updWg t fun g => { g with queues := SMap.set [] g.queues q (g.queue q ++ [m]) }
  if (s.wg t).status = .saved then s1.memWriteBytes (s.queueSlotAt t q n) m.slotBytes else s1

/-- A `sleep.wake` is over at a time. -/
def Wait.wake (t : Wait) (now : Nat) : Wait :=
  match t with
  | { what := .sleep u true, len } => { what := .sleep (Nat.min u now) true, len }
  | t => t

/-- A message's arrival ends the waits of the workgroup's `sleep.wake` threads, those that a trap has frozen too (R260, R389): their
time becomes now. -/
def State.wakeAll (s : State) (t : Nat) : State :=
  s.updWg t fun g => { g with warps := g.warps.map fun p => (p.1, { p.2 with lanes := p.2.lanes.map fun q => (q.1,
    { q.2 with wait := q.2.wait.map (·.wake s.cyc.toNat), frozenWait := q.2.frozenWait.map (·.wake s.cyc.toNat) }) }) }

/-- A message may be injected: without `.rel` at once; with it once every earlier access of the writing threads has been performed, and
what their release passes on is visible at its scope (R113, R149). -/
def State.sendReleased (s : State) (x : Flight) : Bool :=
  x.msg.scope == 0 || ((lanesOf x.msg.mask).all fun l => s.shownAt (s.wg x.wg).core (x.wg, x.warp) l x.bound x.msg.scope)
    && !(s.reqs ++ (s.wg x.wg).recReqs).any fun r => r.wg == x.wg && r.warp == x.warp && !r.fetch && r.group < x.bound
      && r.slots.any fun y => x.msg.mask.getLsbD y.lane && !r.didSlot y

/-- R112: in send order from one queue of one workgroup to another. A workgroup that is ending and not gone still receives: the message is
lost with it, and no event is logged (DESIGN CHOICE, log 99). -/
def execQueueMessageArrival (id : Nat) (s : State) : Host.Outcome State Fault Refusal :=
  match s.flights.find? fun x => x.id == id with
  | none => .refused (.notEnabled "QUEUE_MESSAGE_ARRIVAL")
  | some x =>
    let t := (s.wg x.target).status
    let first := !s.flights.any fun y => y.id < x.id && y.wg == x.wg && y.target == x.target && y.queue == x.queue
    let s1 := { s with flights := s.flights.filter fun y => y.id != id }
    if !first || !s.sendReleased x || t == .waiting then .refused (.notEnabled "QUEUE_MESSAGE_ARRIVAL")
    else if t = .exited ∨ t = .discarded then
      let l := s.launch (keyLaunch x.target)
      .next (s1.logEvent l.packet.part 3 l.ctx l.vq (keyWgid x.target)
        (bytesOf 4 (keyWgid x.wg) ++ bytesOf 4 (keyWgid x.target) ++ bytesOf 4 x.queue))
    else .next ((s1.putMessage x.target x.queue x.msg).wakeAll x.target)

/-! ### Collectives -/

/-- A collective occurrence. -/
def State.occ (s : State) (key : Nat) : Occ := SMap.get {} s.occs key
/-- The rank of a workgroup in a group. -/
def State.rankOf (s : State) (ctx n k : Nat) : Nat := (s.group? ctx n).members.idxOf (s.pkg, keyLaunch k, keyWgid k)

/-- Bytes of an element (R338). -/
def collBytes (type : Nat) : Nat :=
  match type with
  | 1 => 2 | 3 => 8 | _ => 4

/-- A member of an occurrence that is not complete lies in a launch of this package that has ended (R340): it never completes. -/
def State.occLost (s : State) (key : Nat) : Bool :=
  (s.occ key).done.isEmpty && (SMap.get {} s.groups (occGroup key)).members.any fun m =>
    m.1 == s.pkg && ((s.launch m.2.1).ending || (s.launch m.2.1).finished)

/-- The rank with which a workgroup takes part in an occurrence, whatever its group has become since (R337, R340). -/
def Occ.rankIn (o : Occ) (k : Nat) : Option Nat := (o.parts.find? fun p => p.2.wg == some k).map Prod.fst

/-- A member's `coll` of an occurrence; that of a workgroup that was discarded and runs again stands in the place of its earlier one
(R339, R396). -/
def Occ.withPart (o : Occ) (rank : Nat) (p : CollPart) : Occ := { o with parts := (o.parts.filter fun q => q.1 != rank) ++ [(rank, p)] }

/-- Occurrences of a workgroup not yet complete (R337). -/
def State.collOut (s : State) (k : Nat) : Nat :=
  (s.occs.filter fun o => o.2.done.isEmpty && !s.occLost o.1 && (o.2.rankIn k).isSome).length

/-- `coll` waits at issue: 8 occurrences are outstanding, or the release it makes is not complete (R167, R337). -/
def State.collHeld (s : State) (f : Fields) : Bool :=
  match s.trueLanes f with
  | [] => false
  | l :: _ => 8 ≤ s.collOut s.curWg || !s.released s.curWg s.curWarp [l] 5

/-- R337, R338: one operation per group, from its lowest guard-true thread. -/
def execColl (f : Fields) (s : State) : Host.Outcome State Fault Refusal :=
  issueHeld (.coll f) (s.collHeld f) s fun s =>
    match s.trueLanes f with
    | [] => s.advance f.len
    | l :: _ =>
      let w := s.curW
      let k := s.curWg
      let ctx := s.ctxNo k
      let c := (w.reg f.c.toNat l).toNat
      let n := c / 2 ^ 26
      let src := w.address f 0 l
      let dst := w.segnum f * 2 ^ 64 + (w.pairB f l).toNat
      let type := f.modN / 4 % 4
      let b := collBytes type
      if src % b != 0 || dst % b != 0 then
        s.trapHere { cause := 5, pc := s.curPc, va := BitVec.ofNat 80 (if src % b != 0 then src else dst), mask := maskOf [l] }
      else if !s.inGroup ctx n k then s.protHere f 9 0
      else
        let occ := SMap.get 0 s.curG.collNext n
        let key := occKey ctx n (s.group? ctx n).gen occ
        let part : CollPart := { kind := f.mod2, type, max := f.mbit 4, n := c % 2 ^ 26, src, dst, wg := some k }
        let s1 := { s with occs := SMap.upd {} s.occs key fun o => o.withPart (s.rankOf ctx n k) part }
        (s1.updCurG fun g =>
          { g with collNext := SMap.set 0 g.collNext n (occ + 1), collLog := (key :: g.collLog).take 64 }).writeD f
          fun _ _ => BitVec.ofNat 32 (n + occ % 2 ^ 26 * 64)

/-- The occurrence that a handle names for a workgroup (R340): one of its last 64, over all its groups. -/
def State.handleOcc (s : State) (k handle : Nat) : Option Nat :=
  (s.wg k).collLog.find? fun key => occGroup key == groupKey (s.ctxNo k) (handle % 64) && occNum key % 2 ^ 26 == handle / 64 % 2 ^ 26

/-- The status word of an occurrence for a workgroup, once complete (R340). -/
def State.collStatus (s : State) (k handle : Nat) : Option Nat :=
  match s.handleOcc k handle with
  | none => some 4
  | some key =>
    match (s.occ key).done.find? fun d => some d.1 == (s.occ key).rankIn k with
    | some d => some (d.2.1 + d.2.2 * 256)
    | none => if s.occLost key then some 2 else none

/-- `collw` completes for lanes: status, flags and the acquire (R340). -/
def State.collDone (s : State) (k w d v : Nat) (ls : List Nat) : State :=
  (s.updWarp k w fun x => (ls.foldl (fun x l => x.setReg d l (BitVec.ofNat 32 v)) x).orFlags (v / 256)).l1Clear (s.wg k).core

/-- R340. -/
def execCollw (f : Fields) (s : State) : Host.Outcome State Fault Refusal :=
  issue (.collw f) s fun s =>
    match s.trueLanes f with
    | [] => s.advance f.len
    | l :: ls =>
      let h := s.curW.reg f.a.toNat l
      match s.collStatus s.curWg h.toNat with
      | some v => (s.collDone s.curWg s.curWarp f.d.toNat v (l :: ls)).advance f.len
      | none =>
        (s.waitLanes (l :: ls) (.collective h f.d.toNat) f.len).advanceLanes s.curWg s.curWarp
          (s.group.filter fun j => !(l :: ls).contains j) f.len

/-- One combination of an all-reduce on FP32 codes or integers (R223, R339). -/
def collOp (type : Nat) (max : Bool) (a b : Nat) : Nat × Flags :=
  match type, max with
  | 2, false => ((a + b) % 2 ^ 32, 0)
  | 3, false => ((a + b) % 2 ^ 64, 0)
  | 2, true => (if signedOf 32 a < signedOf 32 b then b else a, 0)
  | 3, true => (if signedOf 64 a < signedOf 64 b then b else a, 0)
  | _, false => addVal fp32 .rne (fp32.decode a) (fp32.decode b)
  | _, true => fminCode fp32 true a b

/-- One level of the tree over ranks. -/
def rankLevel (g : Nat → Nat → Nat × Flags) : List Nat → List Nat × Flags
  | a :: b :: l =>
    let r := rankLevel g l
    ((g a b).1 :: r.1, (g a b).2 ||| r.2)
  | l => (l, 0)

/-- The canonical tree over ranks (R223); `fuel` bounds the levels. -/
def rankTree (g : Nat → Nat → Nat × Flags) : Nat → List Nat → Nat × Flags
  | _, [] => (0, 0)
  | _, [x] => (x, 0)
  | 0, x :: _ => (x, 0)
  | fuel + 1, l =>
    let r := rankLevel g l
    let t := rankTree g fuel r.1
    (t.1, r.2 ||| t.2)

/-- An element of an all-reduce: BF16 widens exactly and is rounded once (R339). A sum beyond BF16 becomes an infinity, as with `.ovf`: `coll`
has no saturation bit, and R214's default is not said to hold for it (DESIGN CHOICE, log 97). -/
def reduceElem (type : Nat) (max : Bool) (vs : List Nat) : Nat × Flags :=
  if type = 1 then
    let r := rankTree (collOp 0 max) 13 (vs.map (· * 65536))
    let y := narrow bf16 .rne false (fp32.decode r.1)
    (y.1, r.2 ||| y.2)
  else rankTree (collOp type max) 13 vs

/-- The 256 KiB pages of a range. -/
def pagesOf (va len : Nat) : List Nat :=
  if len = 0 then [] else (List.range ((va + len - 1) / 2 ^ 18 - va / 2 ^ 18 + 1)).map (va / 2 ^ 18 + ·)

/-- Where an occurrence reads and writes, page by page: rank, the first address on the page, and whether it is written (R339). Members of
other packages read and write their own. -/
def collPages (ps : List (Nat × CollPart)) : List (Nat × Nat × Bool) :=
  match ps with
  | [] => []
  | (_, p0) :: _ =>
    let b := collBytes p0.type * p0.n
    (ps.filter fun x => x.2.given.isNone).flatMap fun (r, p) =>
      let reads := if p0.kind = 1 ∧ r ≠ 0 then [] else pagesOf p.src b
      let skip := p0.kind == 1 && r == 0 && p.src == p.dst
      let writes := if skip then [] else pagesOf p.dst (if p0.kind = 2 then b * ps.length else b)
      reads.map (fun g => (r, Nat.max p.src (g * 2 ^ 18), false)) ++ writes.map fun g => (r, Nat.max p.dst (g * 2 ^ 18), true)

/-- The translations of an occurrence, in turn, as a copy's (R339): the machine with them made, and the first that parks, for its page is
not present or an earlier request is parked on it (R51), or that fails a check, at its home package too. -/
def State.collTranslate (s : State) (coreFor : Nat → Nat) (ctx : Nat) :
    List (Nat × Nat × Bool) → State × Option (Nat × Nat × Bool × Tr)
  | [] => (s, none)
  | (r, va, wr) :: l =>
    match s.pageHeld (coreFor r) ctx (va / 2 ^ 18) with
    | some level => (s, some (r, va, wr, .absent level))
    | none =>
      let t := s.translate (coreFor r) ctx va (if wr then .write else .read) false
      match t.1.homeTr t.2.1 t.2.2 4 with
      | .ok .. => t.1.collTranslate coreFor ctx l
      | other => (t.1.auditTr t.2.1 ctx va, some (r, va, wr, other))

/-- An occurrence parks on a page (R50, R52). -/
def State.parkOcc (s : State) (key core va level : Nat) (wr : Bool) : State :=
  let ctx := occCtx key
  let q := quadOf core
  let full := s.poolShut q
  let page := va / 2 ^ 18
  let s1 := { s with occs := SMap.upd {} s.occs key fun o =>
                       { o with parked := some (if full then .miss else .parked), id := s.tag, order := s.seq + 1, page, level, core }
                     tag := s.tag + 1, seq := s.seq + 1 }
  let s2 := if full then s1.setCreg (faultBlock q) (s1.creg (faultBlock q) ||| 2 ^ 9) else s1
  (s2.faultEntry core ctx (s.ctxPart ctx) page level (accessBit (if wr then .write else .read) false)).recountPool q

/-- The pod-global address of a translated element. -/
def State.collAddr (s : State) (core ctx va : Nat) (wr : Bool) : Nat :=
  match s.probe core ctx va (if wr then .write else .read) false with
  | .ok g _ => g
  | _ => 0

/-- What an occurrence writes: rank, byte offset in its destination, value; with the flags (R339). -/
def collWrites (ps : List (Nat × CollPart)) (val : Nat → Nat → Nat) : List (Nat × Nat × Nat) × Flags :=
  match ps with
  | [] => ([], 0)
  | (_, p0) :: _ =>
    let b := collBytes p0.type
    let ranks := List.range ps.length
    (List.range p0.n).foldl (fun (acc : List (Nat × Nat × Nat) × Flags) i =>
      match p0.kind with
      | 0 =>
        let e := reduceElem p0.type p0.max (ranks.map fun r => val r i)
        (acc.1 ++ ranks.map (fun r => (r, i * b, e.1)), acc.2 ||| e.2)
      | 1 => (acc.1 ++ ((ps.filter fun p => !(p.1 == 0 && p.2.src == p.2.dst)).map fun p => (p.1, i * b, val 0 i)), acc.2)
      | _ => (acc.1 ++ ranks.flatMap (fun r => ranks.map fun m => (m, (r * p0.n + i) * b, val r i)), acc.2)) ([], 0)

/-- Completes an occurrence for every member. -/
def State.collComplete (s : State) (key n status fl : Nat) : State :=
  { s with occs := SMap.upd {} s.occs key fun o => { o with done := (List.range n).map fun r => (r, status, fl) } }

/-- An occurrence that has lost a member completes with status 2 (R340). -/
def State.loseOcc (s : State) (key : Nat) : State := s.collComplete key (SMap.get {} s.groups (occGroup key)).members.length 2 0

/-- Every member of an occurrence has issued its `coll`, none is lost, and it is neither complete nor parked. -/
def State.occReady (s : State) (key : Nat) : Bool :=
  let o := s.occ key
  let n := (SMap.get {} s.groups (occGroup key)).members.length
  n != 0 && o.parts.length == n && o.done.isEmpty && o.parked.isNone && !s.occLost key

/-- An occurrence takes effect (R339, R340): it completes, with its data moved or with a status, or parks on a page. Its accesses carry no
hint, and change no line of the LLC (DESIGN CHOICE, log 89). -/
def State.stepOcc (s : State) (key : Nat) : State :=
  let ctx := occCtx key
  let o := s.occ key
  let g : Group := SMap.get {} s.groups (occGroup key)
  let n := g.members.length
  let ps := sortBy (fun a b => a.1 < b.1) o.parts
  let p0 := (ps.map (·.2)).headD { kind := 0, type := 0, max := false, n := 0, src := 0, dst := 0 }
  if ps.any fun p => p.2.kind != p0.kind || p.2.type != p0.type || p.2.max != p0.max || p.2.n != p0.n then s.collComplete key n 1 0
  else
    let wgFor (r : Nat) : Nat :=
      let m := g.members.getD r (0, 0, 0)
      wgKey m.2.1 m.2.2
    let coreFor (r : Nat) : Nat := (s.wg (wgFor r)).core
    let t := s.collTranslate coreFor ctx (collPages ps)
    match t.2 with
    | some (r, va, wr, .absent level) => t.1.parkOcc key (coreFor r) va level wr
    | some (r, va, _, _) =>
      let l := s.launch (keyLaunch (wgFor r))
      (t.1.logEvent (s.ctxPart ctx) 4 ctx l.vq 0xFFFFFFFF
        (bytesOf 4 (occGroup key % 64) ++ bytesOf 4 (occNum key) ++ bytesOf 16 va)).collComplete key n 3 0
    | none =>
      let s1 := t.1
      let b := collBytes p0.type
      let part (r : Nat) : CollPart := (ps.map (·.2)).getD r p0
      let val (r i : Nat) : Nat := match (part r).given with
        | some vs => vs.getD i 0
        | none => s1.memRead (s1.collAddr (coreFor r) ctx ((part r).src + i * b) false) b
      let w := collWrites ps val
      let mine := w.1.filter fun x => (part x.1).given.isNone
      let s2 := mine.foldl (fun s x => s.memWrite (s1.collAddr (coreFor x.1) ctx ((part x.1).dst + x.2.1) true) b x.2.2) s1
      s2.collComplete key n 0 w.2

/-- R339, R340: every member has issued its `coll`. -/
def execCollectiveInstance (ctx group occ : Nat) (s : State) : Host.Outcome State Fault Refusal :=
  let key := occKey ctx group (s.group? ctx group).gen occ
  event "COLLECTIVE_INSTANCE" (s.occReady key) (s.stepOcc key)

/-- An occurrence waits only for members in other packages (R410). -/
def State.othersOnly (s : State) (key : Nat) : Bool :=
  let o := s.occ key
  let ms := (SMap.get {} s.groups (occGroup key)).members
  let given (i : Nat) : Bool := o.parts.any fun p => p.1 == i
  let other (i : Nat) : Bool := (ms.getD i (s.pkg, 0, 0)).1 != s.pkg
  o.done.isEmpty && (List.range ms.length).all (fun i => other i || given i) && (List.range ms.length).any fun i => !given i

/-- A `collw` of a thread of the package waits only for other packages: it is slack (R410). -/
def State.slackWait (s : State) : Bool :=
  s.wgs.keys.any fun k => (s.wg k).status == .resident && (s.liveWarps k).any fun w => (s.warp k w).unexited.any fun l =>
    match (s.lane k w l).wait with
    | some { what := .collective h _, .. } => match s.handleOcc k h.toNat with
      | some key => s.othersOnly key
      | none => false
    | _ => false

/-- R337, R340: the `coll` of a member in another package, with what it contributes; or the member is lost. -/
def State.remotePart (s : State) (key rank : Nat) (part : Option CollPart) : Option State :=
  let ms := (SMap.get {} s.groups (occGroup key)).members
  if (ms.getD rank (s.pkg, 0, 0)).1 == s.pkg || (s.occ key).parts.any (fun p => p.1 == rank) || !(s.occ key).done.isEmpty then none
  else match part with
    | some p => if p.given.isNone then none
                else some { s with occs := SMap.upd {} s.occs key fun o => { o with parts := o.parts ++ [(rank, p)] } }
    | none => some (s.collComplete key ms.length 2 0)

end Sys2Proof.Machine
end

