-- ==== Sys2Proof/Machine/Privileged.lean ====
section
/-! DEFINITION. Translation commands (R53 to R60, R272 to R274, R449): replay, cancel, invalidation and dirty harvest, as
instructions and as writes of the command registers. -/

namespace Sys2Proof.Machine

/-! ### Register writes by an agent (R31) -/

/-- A write to a register that the requester's row or the register's Access column forbids is dropped and audited (R31, R32). -/
def State.agentWrite (s : State) (agent off : Nat) (k : State → State) : State :=
  if s.mayWrite agent off then k s else s.auditEvent 2 agent off

/-! ### Quads of a partition -/

/-- The quads of a partition (R448). -/
def State.quadsOf (s : State) (part : Nat) : List Nat := (List.range 288).filter fun q => s.quadIn q part

/-- A partition's command is in progress (R55). -/
def State.busy (s : State) (part : Nat) : Bool := bit (s.creg (cmdBlock part)) 31

/-- The command state of a partition. -/
def State.cmd (s : State) (part : Nat) : Command := SMap.get {} s.cmds part

/-- The partition of a transfer operation. -/
def State.xferPart (s : State) (x : Xfer) : Nat :=
  match s.copy? x.copy with
  | some c => s.ctxPart (s.ctxNo c.wg)
  | none => 16

/-- A parked request, transfer operation or collective occurrence. -/
inductive Parked where
  | req (r : Req)
  | xfer (x : Xfer)
  | occ (key : Nat) (o : Occ)
deriving DecidableEq, Repr

/-- The place of a parked item (R51). -/
def Parked.order : Parked → Nat
  | .req r => r.order
  | .xfer x => x.order
  | .occ _ o => o.order

/-- The page of a parked item. -/
def Parked.page : Parked → Nat
  | .req r => r.page
  | .xfer x => x.page
  | .occ _ o => o.page

/-- The parked requests, transfer operations and occurrences of a partition, in the order in which they parked. -/
def State.parkedOf (s : State) (part : Nat) : List Parked :=
  sortBy (fun a b => a.order < b.order)
    ((s.reqs.filter fun r => (r.phase == .parked || r.phase == .miss) && s.reqPart r == part).map .req
      ++ (s.xfers.filter fun x => (x.phase == .parked || x.phase == .miss) && s.xferPart x == part).map .xfer
      ++ (s.occs.filter fun o => o.2.parked.isSome && s.ctxPart (occCtx o.1) == part).map fun o => .occ o.1 o.2)

/-! ### Replay-all (R56) -/

/-- Clears VALID, DROPPED and the overflow list of a quad. -/
def State.clearFaults (s : State) (q : Nat) : State :=
  (s.setCreg (faultBlock q) (setBits (s.creg (faultBlock q)) 8 0 0)).updQuad q fun x => { x with overflow := [] }

/-- A request as it is issued again: an `ldi` at its data hop makes both hops afresh (R110). -/
def Req.afresh (r : Req) : Req :=
  if r.hop2 then { r with phase := .translate, hop2 := false, slots := r.slots.map fun x => { x with addr := x.x, x := 0 } }
  else { r with phase := .translate }

/-- A parked item leaves the pool. -/
def unpark (s : State) (p : Parked) : State :=
  match p with
  | .req r => s.setReq r.afresh
  | .xfer x => s.setXfer { x with phase := .ready }
  | .occ key _ => { s with occs := SMap.upd {} s.occs key fun o => { o with parked := none } }

/-- Re-issues one item: a request is translated afresh, a transfer operation takes its step, an occurrence proceeds (R339). -/
def reissue (s : State) (p : Parked) : State :=
  match p with
  | .req r => match s.req? r.id with
    | some q => s.translateReq q
    | none => s
  | .xfer x => match s.xfer? x.id, s.copy? x.copy with
    | some y, some c => (s.stepXfer c y).getD s
    | _, _ => s
  | .occ key _ => if s.occLost key then s.loseOcc key else s.stepOcc key

/-- Replay-all (R56). -/
def State.replayAll (s : State) (part : Nat) : State :=
  let ps := s.parkedOf part
  let qs := s.quadsOf part
  let s1 := qs.foldl (fun s q => s.clearFaults q) s
  let s2 := ps.foldl unpark s1
  let s3 := ps.foldl reissue s2
  qs.foldl (fun s q => s.recountPool q) s3

/-! ### Cancel (R57, R449) -/

/-- Cancels one item: PAGE for the lanes of a request, whose escort returns; a transfer operation is refused; an occurrence completes
with a translation failure (log 48). The lanes of one warp that one cancel, by its number, ends are marked together. -/
def cancelOne (number : Nat) (s : State) (p : Parked) : State :=
  match p with
  | .req r => s.failReq r 6 0 number
  | .xfer x => match s.copy? x.copy with
    | some c => s.refuseXfer c x 8 (refuseData 2 c.bar (if x.isRead then x.dst0 else x.src0))
    | none => s
  | .occ key o =>
    let s1 := if s.occLost key then s.loseOcc key else s.collComplete key o.parts.length 3 0
    { s1 with occs := SMap.upd {} s1.occs key fun o => { o with parked := none } }

/-- Clears the fault-buffer entries of a quad that describe pages of a set. -/
def State.clearEntries (s : State) (q : Nat) (page : Nat → Bool) : State :=
  let keep := (List.range 8).filter fun i =>
    !(page (s.creg (faultEntryAt q i) + s.creg (faultEntryAt q i + 4) % 2 ^ 30 * 2 ^ 32))
  let mask := keep.foldl (fun n i => n + 2 ^ i) 0
  s.setField (faultBlock q) 7 0 (s.field (faultBlock q) 7 0 &&& mask)

/-- Cancels the parked items of a partition on the pages of a set. -/
def State.cancelPages (s : State) (part : Nat) (page : Nat → Bool) : State :=
  let ps := (s.parkedOf part).filter fun p => page p.page
  (s.quadsOf part).foldl (fun s q => (s.clearEntries q page).recountPool q)
    (ps.foldl (cancelOne (s.tag + 1)) { s with tag := s.tag + 1 })

/-! ### Invalidation (R60) -/

/-- A range of pages: none, all, or from a page. `n = 0`: all. -/
def inRange (first n page : Nat) : Bool := n == 0 || (first ≤ page && page < first + n)

/-- The pages for which an entry of a level stands; level 5 is a CONTIG group. -/
def levelPages (level : Nat) : Nat :=
  match level with
  | 0 => 2 ^ 56 | 1 => 2 ^ 42 | 2 => 2 ^ 28 | 3 => 2 ^ 14 | 5 => 64 | _ => 1

/-- What an entry of a level stands for overlaps a range of pages. -/
def spanOverlaps (pre level first n : Nat) : Bool :=
  let p := pre * levelPages level
  n == 0 || (p < first + n && first < p + levelPages level)

/-- An entry overlaps a range of pages. -/
def TlbEntry.overlaps (t : TlbEntry) (first n : Nat) : Bool := spanOverlaps t.page t.level first n

/-- The TLBs and walk caches of a partition with each entry kept, changed or dropped. -/
def State.mapTlbs (s : State) (part : Nat) (g : TlbEntry → Option TlbEntry) : State :=
  let h (l : List TlbEntry) : List TlbEntry := l.filterMap fun t => if t.part = part then g t else some t
  let cores := s.cores.map fun (c : Nat × Core) => (c.1, { c.2 with tlb := h c.2.tlb })
  let quads := s.quads.map fun (q : Nat × Quad) => (q.1, { q.2 with tlb := h q.2.tlb, walks := h q.2.walks })
  { s with cores, quads }

/-- The TLBs discard their entries that overlap a range. -/
def State.discardRange (s : State) (part first n : Nat) : State :=
  s.mapTlbs part fun t => if t.overlaps first n then none else some t

/-- A request that translated before a bound and is not yet performed, or, parked, is translated afresh. -/
def Req.translatedBefore (r : Req) (bound : Nat) : Bool :=
  r.id < bound && !r.fetch && (r.phase == .home || r.phase == .held)

/-! ### Commands (R55) -/

/-- Starts a command: 1 replay-all, 2 cancel-all, 3 cancel-page, 4 invalidate. -/
def State.startCmd (s : State) (part op first n : Nat) : State :=
  let c := s.cmd part
  let s1 := { s with cmds := SMap.set {} s.cmds part { c with op, bound := s.tag, first, pages := n, issued := c.issued + 1 } }
  let s2 := s1.setCreg (cmdBlock part) (2 ^ 31)
  match op with
  | 1 => s2.replayAll part
  | 2 => s2.cancelPages part fun _ => true
  | 3 => s2.cancelPages part fun p => p == first
  | _ => s2.discardRange part first n

/-- A write of FLTCMD by an agent: CMDERR while BUSY (R55). -/
def State.fltcmd (s : State) (agent part op : Nat) : State :=
  s.agentWrite agent (cmdBlock part) fun s =>
    if s.busy part || 5 ≤ op then s.setField (cmdBlock part + 0x14) 0 0 1
    else if op = 0 then s
    else
      let first := s.creg (cmdBlock part + 8) + s.creg (cmdBlock part + 12) % 2 ^ 30 * 2 ^ 32
      s.startCmd part op first (if op = 4 then s.creg (cmdBlock part + 16) else 1)

/-- R55, R56. -/
def execReplayAll (agent part : Nat) (s : State) : Host.Outcome State Fault Refusal :=
  event "REPLAY_ALL" (part < 16) (s.fltcmd agent part 1)
/-- R55, R57. -/
def execCancelAll (agent part : Nat) (s : State) : Host.Outcome State Fault Refusal :=
  event "CANCEL_ALL" (part < 16) (s.fltcmd agent part 2)
/-- R55, R57. -/
def execCancelPage (agent part : Nat) (s : State) : Host.Outcome State Fault Refusal :=
  event "CANCEL_PAGE" (part < 16) (s.fltcmd agent part 3)
/-- R55, R60. -/
def execInvalidateRange (agent part : Nat) (s : State) : Host.Outcome State Fault Refusal :=
  event "INVALIDATE_RANGE" (part < 16) (s.fltcmd agent part 4)

/-- A command has done what it must (R56, R57, R60): an invalidation waits for the requests that a discarded entry translated,
whatever page of the entry they name. -/
def State.cmdReady (s : State) (part : Nat) : Bool :=
  let c := s.cmd part
  s.busy part && (c.op != 4 || !s.reqs.any fun r =>
    s.reqPart r == part && r.translatedBefore c.bound
      && spanOverlaps (vaPrefix r.va r.via) r.via c.first c.pages)

/-- R55: BUSY falls and DONECNT rises, modulo 65,536. -/
def execFaultCommandComplete (part : Nat) (s : State) : Host.Outcome State Fault Refusal :=
  let b := cmdBlock part
  let s1 := (s.setCreg b 0).setField (b + 0x14) 31 16 (s.field (b + 0x14) 31 16 + 1)
  event "FAULT_COMMAND_COMPLETE" (s.cmdReady part)
    { s1 with cmds := SMap.upd {} s1.cmds part fun c => { c with completed := c.issued, op := 0 } }

/-- R54: any write clears OVFCNT. -/
def execFbovfWrite (agent quad : Nat) (_v : Word) (s : State) : Host.Outcome State Fault Refusal :=
  event "FBOVF_WRITE" (quad < 288) (s.agentWrite agent (faultBlock quad + 4) fun s => s.setCreg (faultBlock quad + 4) 0)

/-- R54: DROPPED and POOLFULL are cleared by writing 1. -/
def execFbstatWrite (agent quad : Nat) (v : Word) (s : State) : Host.Outcome State Fault Refusal :=
  event "FBSTAT_WRITE" (quad < 288) (s.agentWrite agent (faultBlock quad) fun s =>
    let old := s.creg (faultBlock quad)
    s.setField (faultBlock quad) 9 8 (b2n (bit old 8 && !bit v.toNat 8) + 2 * b2n (bit old 9 && !bit v.toNat 9)))

/-- R55: CMDERR is cleared by writing 1. -/
def execFltstatWrite (agent part : Nat) (v : Word) (s : State) : Host.Outcome State Fault Refusal :=
  event "FLTSTAT_WRITE" (part < 16) (s.agentWrite agent (cmdBlock part + 0x14) fun s =>
    if bit v.toNat 0 then s.setField (cmdBlock part + 0x14) 0 0 0 else s)

/-! ### The privileged instructions (R272 to R274) -/

/-- The partition of the issuing context. -/
def State.curPart (s : State) : Nat := s.ctxPart (s.ctxNo s.curWg)

/-- The row of the issuing context's quad permits the control registers (R31). -/
def State.reachesRegs (s : State) : Bool := s.connected s.pkg (quadOf s.curG.core) 576

/-- A command instruction waits while BUSY is set. -/
def State.cmdHeld (s : State) (f : Fields) : Bool := !(s.trueLanes f).isEmpty && s.reachesRegs && s.busy s.curPart

/-- The 256 KiB page of a VA with segment `sg0` and offset E[A] (R272, R274). -/
def Warp.pageA (w : Warp) (f : Fields) (l : Nat) : Nat :=
  ((SMap.get (0 : Word) w.segs 0).toNat % 65536 * 2 ^ 64 + (w.pairA f l).toNat) / 2 ^ 18

/-- Issues a command for the executing context's partition, once for the group; its guard-true threads wait for it. -/
def State.command (s : State) (f : Fields) (op : Nat) (first n : Warp → Nat → Nat) : State :=
  match s.trueLanes f with
  | [] => s.advance f.len
  | l :: ls =>
    let part := s.curPart
    let w := s.curW
    if !s.reachesRegs then (s.auditEvent 1 (s.ctxNo s.curWg) (cregBase + cmdBlock part)).protHere f 6 0
    else
    let num := (s.cmd part).issued + 1
    let s1 := (s.waitLanes (l :: ls) (.command part num) f.len).advanceLanes s.curWg s.curWarp
      (s.group.filter fun j => !(l :: ls).contains j) f.len
    s1.startCmd part op (first w l) (n w l)

/-- R272. -/
def execTlbinv (f : Fields) (s : State) : Host.Outcome State Fault Refusal :=
  issueHeld (.tlbinv f) (s.cmdHeld f) s fun s => s.command f 4 (fun w l => w.pageA f l) fun w l => (w.reg f.b.toNat l).toNat

/-- R274. -/
def execReplay (f : Fields) (s : State) : Host.Outcome State Fault Refusal :=
  issueHeld (.replay f) (s.cmdHeld f) s fun s => s.command f 1 (fun _ _ => 0) fun _ _ => 1
/-- R274. -/
def execReplayCancel (f : Fields) (s : State) : Host.Outcome State Fault Refusal :=
  issueHeld (.replayCancel f) (s.cmdHeld f) s fun s => s.command f 2 (fun _ _ => 0) fun _ _ => 1
/-- R274. -/
def execReplayPage (f : Fields) (s : State) : Host.Outcome State Fault Refusal :=
  issueHeld (.replayPage f) (s.cmdHeld f) s fun s => s.command f 3 (fun w l => w.pageA f l) fun _ _ => 1

/-- A leaf's fields hold no reserved value (R38, R49 step 2). That MODE 3 or a reserved HOMEVD makes a leaf malformed for `harvest` too, as
a reserved policy does, is a choice (DESIGN CHOICE, log 102). -/
def pteSound (e : Nat) : Bool := pteCpol e < 4 && pteMode e != 3 && !(9 ≤ pteHome e && pteHome e ≤ 14)

/-- One lane's harvest: the dirty map, with the leaves it has cleared and what they held (R273). -/
def State.harvestLane (s : State) (ctx seg base n : Nat) : State × Word :=
  let r := (List.range n).foldl (fun (acc : State × Nat × List (Nat × Bool)) i =>
    let (s, map, seen) := acc
    let va := seg * 2 ^ 64 + (base / 2 ^ 18 * 2 ^ 18 + i * 2 ^ 18) % 2 ^ 64
    match s.walk ctx va with
    | .leaf e _ at_ =>
      if !pteSound e then acc
      else match seen.find? fun p => p.1 == at_ with
        | some p => (s, map + b2n p.2 * 2 ^ i, seen)
        | none =>
          let d := pteD e
          (if d then s.memWrite at_ 16 (setBits e 6 6 0) else s, map + b2n d * 2 ^ i, (at_, d) :: seen)
    | _ => acc) (s, 0, [])
  (r.1, BitVec.ofNat 32 r.2.1)

/-- R273, R58: each lane in turn; cached D state of the ranges is discarded, and the threads wait until the writes that
translated before are performed. -/
def execHarvest (f : Fields) (s : State) : Host.Outcome State Fault Refusal :=
  issueHeld (.harvest f) (s.cmdHeld f) s fun s =>
    let ls := s.trueLanes f
    let part := s.curPart
    let ctx := s.ctxNo s.curWg
    let w := s.curW
    let seg := (SMap.get (0 : Word) w.segs 0).toNat % 65536
    let s1 := ls.foldl (fun (s : State) l =>
      let n := Nat.min (w.reg f.b.toNat l).toNat 32
      let r := s.harvestLane ctx seg (w.pairA f l).toNat n
      let s2 := r.1.updCur fun x => x.setReg f.d.toNat l r.2
      if n = 0 then s2
      else
        let pages := (List.range n).map fun i => (seg * 2 ^ 64 + ((w.pairA f l).toNat + i * 2 ^ 18) % 2 ^ 64) / 2 ^ 18
        s2.mapTlbs part fun t =>
          if 3 ≤ t.level && pages.any fun p => t.overlaps p 1 then some { t with dirty := false } else some t) s
    (s1.waitLanes ls (.writes part s.tag) f.len).advanceLanes s.curWg s.curWarp (s.group.filter fun l => !ls.contains l) f.len

/-- The writes of a partition with smaller numbers that have translated are performed, and every thread sees those that are: a copy of
the range that follows reads them (R58, R59). A copy's write has no number and counts whenever it is made. -/
def State.writesDone (s : State) (part bound : Nat) : Bool :=
  (!s.reqs.any fun r => s.reqPart r == part && r.translatedBefore bound && r.access.writes)
    && s.late.all fun t => t.place.isSome || s.ctxPart (s.ctxNo t.owner.1) != part || t.access.any fun x => bound ≤ x.2.1

end Sys2Proof.Machine
end

