-- ==== Sys2Proof/Machine/Solve.lean ====
section
/-! DEFINITION. Solve regions and the mixing engine (R166, R362 to R373). -/

namespace Sys2Proof.Machine

/-! ### The region's registers (R363) -/

/-- The workgroup holds an open region. -/
def Workgroup.open_ (g : Workgroup) : Bool := g.svstat.getLsbD 0
/-- ZP and RP hold the previous iterate. -/
def Workgroup.pv (g : Workgroup) : Bool := g.svstat.getLsbD 4
/-- HIST. -/
def Workgroup.histCount (g : Workgroup) : Nat := bits g.svstat.toNat 7 5
/-- HPOS. -/
def Workgroup.histPos (g : Workgroup) : Nat := bits g.svstat.toNat 9 8
/-- ORs flags into SVSTAT.FLAGS. -/
def Workgroup.svFlags (g : Workgroup) (fl : Flags) : Workgroup :=
  { g with svstat := g.svstat ||| BitVec.ofNat 32 (fl % 128 * 65536) }
/-- Sets SVSTAT fields: bits hi:lo. -/
def Workgroup.svSet (g : Workgroup) (hi lo v : Nat) : Workgroup :=
  { g with svstat := BitVec.ofNat 32 (setBits g.svstat.toNat hi lo v) }

/-- What a thread waits for in its program: in a handler, what it takes up again on `eret` (R389). -/
def State.programWait (s : State) (k w l : Nat) : Option Wait :=
  let x := s.warp k w
  if !x.handler then (x.lane l).wait else if x.fltmask.getLsbD l then none else (x.lane l).frozenWait

/-- Where a thread stands in its program. -/
def State.programPc (s : State) (k w l : Nat) : DWord :=
  if (s.warp k w).handler then (s.lane k w l).frozenPc else (s.lane k w l).pc

/-- Every unexited thread of a workgroup waits so; a wait that a trap has frozen goes on, and may be satisfied meanwhile (R389). -/
def State.allIn (s : State) (k : Nat) (c : WaitFor → Bool) : Bool :=
  let ws := s.liveWarps k
  !ws.isEmpty && ws.all fun w => (s.warp k w).unexited.all fun l => (s.programWait k w l).any fun t => c t.what

/-- Every tile counter of a workgroup is zero. -/
def State.tilesDone (s : State) (k : Nat) : Bool := (List.range (s.warpCount k)).all fun w => (s.warp k w).tlc == 0

/-- The engine of a core is free (R367). -/
def State.engineFree (s : State) (core : Nat) : Bool := (s.coreAt core).engine.isNone

/-- The lead warp and the lead thread (R367). -/
def State.lead (s : State) (k : Nat) : Nat × Nat :=
  let w := (s.liveWarps k).headD 0
  (w, (s.warp k w).unexited.headD 0)

/-- A thread goes on at an address, or past its instruction; in a handler, the frozen thread does. -/
def Lane.restart (x : Lane) (handler : Bool) (at_ : Option DWord) : Lane :=
  if handler then
    match x.frozenWait with
    | some t => { x with frozenPc := at_.getD (x.frozenPc + BitVec.ofNat 64 t.len), frozenWait := none }
    | none => x
  else
    match x.wait with
    | some t => { x with pc := at_.getD (x.pc + BitVec.ofNat 64 t.len), wait := none }
    | none => { x with pc := at_.getD x.pc }

/-- Every unexited thread of a workgroup goes on at an address, or past its instruction. -/
def State.restartAll (s : State) (k : Nat) (at_ : Option DWord) : State :=
  (s.liveWarps k).foldl (fun s w =>
    (s.updWarp k w fun x => x.updLanes x.unexited fun _ y => y.restart x.handler at_).syncs k w (s.warp k w).unexited true) s

/-! ### `solve` (R365 to R367) -/

/-- A gathered warp waits for the region to open. -/
def solveEffect (_ : List Nat) (s : State) : State :=
  s.updCur fun w => w.updLanes w.unexited fun _ x =>
    match x.wait with
    | some { what := .gather i _, len } => { x with wait := some { what := .solve i, len } }
    | _ => x

/-- R367. -/
def execSolve (f : Fields) (s : State) : Host.Outcome State Fault Refusal :=
  issue (.solve f) s fun s =>
    if s.curG.open_ then s.trapHere { cause := 7, detail := 9, pc := s.curPc, mask := s.curMask }
    else s.gather (.solve f) solveEffect

/-- The parameters of a `solve` that ends at `next` (R365). -/
def regionOfSolve (f : Fields) (next : DWord) : Region :=
  let imm := if f.isImm then f.immWord else 0x3F80
  { m := f.mod3, two := f.mbit 3, l2 := f.mbit 4, beta := imm.setWidth 16, lambda := (imm >>> 16).setWidth 16,
    carried := f.d.toNat, image := f.c.toNat, tolReg := f.a.toNat, ceilReg := f.b.toNat, body := next }

/-- R367: every warp waits, the tiles are complete, and the engine is free. -/
def execSolveRegionOpen (wg : Nat) (s : State) : Host.Outcome State Fault Refusal :=
  let (w, l) := s.lead wg
  let waits : WaitFor → Bool
    | .solve _ => true
    | _ => false
  match s.programWait wg w l with
  | some { what := .solve i, len } =>
    event "SOLVE_REGION_OPEN"
      ((s.wg wg).status == .resident && s.allIn wg waits && s.tilesDone wg && s.engineFree (s.wg wg).core)
      (let body := s.programPc wg w l + BitVec.ofNat 64 len
       let s1 := s.updWg wg fun g =>
         { g with region := regionOfSolve i.fields body, svstat := 1, sviter := 0, svnorm := 0, svArrived := 0 }
       let s2 := s1.updCore (s.wg wg).core fun c => { c with engine := some wg }
       s2.restartAll wg (some body))
  | _ => .refused (.notEnabled "SOLVE_REGION_OPEN")

/-! ### The engine's arithmetic (R368, R369) -/

/-- N (R362). -/
def Region.n (r : Region) : Nat := if r.two then 8192 else 4096

/-- Elements of tiles from a first tile. -/
def Workgroup.tileElems (g : Workgroup) (t n : Nat) : List Nat :=
  (List.range n).map fun i => (g.accAt (t + i / 4096) (i % 4096)).toNat

/-- Writes elements of tiles from a first tile. -/
def Workgroup.putElems (g : Workgroup) (t : Nat) (vs : List Nat) : Workgroup :=
  (List.range vs.length).foldl (fun g i => g.setAcc (t + i / 4096) (i % 4096) (BitVec.ofNat 32 (vs.getD i 0))) g

/-- Products and sums of FP32 codes in RNE. -/
def addF32 (a b : Nat) : Nat × Flags := addVal fp32 .rne (fp32.decode a) (fp32.decode b)
/-- A product. -/
def mulF32 (a b : Nat) : Nat × Flags := mulVal fp32 .rne (fp32.decode a) (fp32.decode b)
/-- A quotient. -/
def divF32 (a b : Nat) : Nat × Flags := divVal fp32 .rne (fp32.decode a) (fp32.decode b)
/-- a - RoundFP32(b x c). -/
def subMul (a b c : Nat) : Nat × Flags :=
  let p := mulF32 b c
  let r := subF32 a p.1
  (r.1, p.2 ||| r.2)
/-- a + RoundFP32(b x c). -/
def addMul (a b c : Nat) : Nat × Flags :=
  let p := mulF32 b c
  let r := addF32 a p.1
  (r.1, p.2 ||| r.2)

/-- The OR of the flags of a list of results. -/
def allFlags (l : List (Nat × Flags)) : Flags := l.foldl (fun a v => a ||| v.2) 0

/-- A sum of products in ascending n from +0.0 (R369). -/
def sumProd : Nat × Flags → List Nat → List Nat → Nat × Flags
  | acc, a :: as, b :: bs =>
    let r := fmaVal fp32 .rne (fp32.decode a) (fp32.decode b) (fp32.decode acc.1)
    sumProd (r.1, acc.2 ||| r.2) as bs
  | acc, _, _ => acc

/-- The residual g - z (R368). -/
def residual : List Nat → List Nat → List (Nat × Flags)
  | a :: as, b :: bs => subF32 a b :: residual as bs
  | _, _ => []

/-- The residual norm (R368). -/
def solveNorm (l2 : Bool) (r : List Nat) : Nat × Flags :=
  if l2 then
    let s := sumProd (0, 0) r r
    let q := applyFn .sqrt s.1
    (q.1, s.2 ||| q.2)
  else if r.any fun x => (fp32.decode x).isNan then (fp32.nan, 0)
  else (r.foldl (fun m x => Nat.max m (x % 2 ^ 31)) 0, 0)

/-- The factorisation in progress: W and L by 8 i + j, d, whether every pivot is positive, and flags. -/
structure Ldl where
  w : SMap Nat := []
  l : SMap Nat := []
  d : SMap Nat := []
  ok : Bool := true
  fl : Flags := 0
deriving DecidableEq, Repr

/-- One entry (i, j) of the factorisation (R369). -/
def ldlEntry (g : Nat → Nat → Nat) (j : Nat) (x : Ldl) (i : Nat) : Ldl :=
  let s := (List.range j).foldl (fun (a : Nat × Flags) q =>
    let r := subMul a.1 (SMap.get 0 x.w (8 * i + q)) (SMap.get 0 x.l (8 * j + q))
    (r.1, a.2 ||| r.2)) (g i j, 0)
  if i = j then
    let pos := (fp32.decode s.1).cmp (.fin false 0 0) == .gt && !(fp32.decode s.1).isNan
    { x with d := SMap.set 0 x.d j s.1, ok := x.ok && pos, fl := x.fl ||| s.2 }
  else
    let q := divF32 s.1 (SMap.get 0 x.d j)
    { x with w := SMap.set 0 x.w (8 * i + j) s.1, l := SMap.set 0 x.l (8 * i + j) q.1, fl := x.fl ||| s.2 ||| q.2 }

/-- The factorisation of an h by h matrix, column by column (R369). -/
def ldl (h : Nat) (g : Nat → Nat → Nat) : Ldl :=
  (List.range h).foldl (fun x j => ((List.range h).filter (j ≤ ·)).foldl (ldlEntry g j) x) {}

/-- A triangular solve: from `start i` subtract the products of coefficients and results found, in the order of `is`; the
results with flags. -/
def triangular (is : List Nat) (terms : Nat → List Nat) (coef : Nat → Nat → Nat) (start : Nat → Nat) : SMap Nat × Flags :=
  is.foldl (fun (acc : SMap Nat × Flags) i =>
    let r := (terms i).foldl (fun (a : Nat × Flags) q =>
      let x := subMul a.1 (coef i q) (SMap.get 0 acc.1 q)
      (x.1, a.2 ||| x.2)) (start i, 0)
    (SMap.set 0 acc.1 i r.1, acc.2 ||| r.2)) ([], 0)

/-- gamma, and the flags of the three solves (R369). -/
def solveGamma (h : Nat) (x : Ldl) (rhs : Nat → Nat) : SMap Nat × Flags :=
  let up := List.range h
  let y := triangular up (fun i => List.range i) (fun i q => SMap.get 0 x.l (8 * i + q)) rhs
  let z := up.map fun i => divF32 (SMap.get 0 y.1 i) (SMap.get 0 x.d i)
  let g := triangular up.reverse (fun i => up.filter (i < ·)) (fun i q => SMap.get 0 x.l (8 * q + i)) fun i => (z.getD i (0, 0)).1
  (g.1, y.2 ||| allFlags z ||| g.2)

/-- Writes elements of a slot or buffer. -/
def putWords (m : SMap Word) (vs : List Nat) : SMap Word :=
  (List.range vs.length).foldl (fun m i => SMap.set 0 m i (BitVec.ofNat 32 (vs.getD i 0))) m

/-- Elements of a slot or buffer. -/
def getWords (m : SMap Word) (n : Nat) : List Nat := (List.range n).map fun i => (SMap.get (0 : Word) m i).toNat

/-- The next iterate at one element (R369). -/
def mixElem (beta z r : Nat) (pairs : List (Nat × Nat × Nat)) : Nat × Flags :=
  pairs.foldl (fun (acc : Nat × Flags) p =>
    let u := addMul p.2.1 beta p.2.2
    let v := subMul acc.1 p.1 u.1
    (v.1, acc.2 ||| u.2 ||| v.2)) (addMul z beta r)

/-- The position of history pair i of h, the oldest first (R369). -/
def pairPos (m hpos h i : Nat) : Nat := (hpos + m - h + i) % Nat.max 1 m

/-- Mix() on a workgroup with its carried values and its residual (R369). -/
def Workgroup.mix (g : Workgroup) (z r : List Nat) : Workgroup :=
  let x := g.region
  let n := x.n
  -- the newest pair
  let dz := residual z (getWords g.zp n)
  let dr := residual r (getWords g.rp n)
  let p := g.histPos
  let store := g.pv && 0 < x.m
  let g1 :=
    if store then
      let put (m : SMap (SMap Word)) (q : Nat) (vs : List Nat) : SMap (SMap Word) := SMap.upd [] m q fun s => putWords s vs
      let h := { g with hs := put (put g.hs (2 * p) (dz.map Prod.fst)) (2 * p + 1) (dr.map Prod.fst) }
      ((h.svSet 9 8 ((p + 1) % x.m)).svSet 7 5 (Nat.min (g.histCount + 1) x.m)).svFlags (allFlags dz ||| allFlags dr)
    else g
  let g2 := { g1 with zp := putWords g1.zp z, rp := putWords g1.rp r }.svSet 4 4 1
  let h := g2.histCount
  let beta := x.beta.toNat * 65536
  let lambda := x.lambda.toNat * 65536
  let pos (i : Nat) : Nat := pairPos x.m g2.histPos h i
  let dzs := (List.range h).map fun i => getWords (SMap.get [] g2.hs (2 * pos i)) n
  let drs := (List.range h).map fun i => getWords (SMap.get [] g2.hs (2 * pos i + 1)) n
  let gram := (List.range h).map fun i => (List.range h).map fun j =>
    let v := sumProd (0, 0) (drs.getD (Nat.max i j) []) (drs.getD (Nat.min i j) [])
    if i = j then
      let d := addMul v.1 lambda v.1
      (d.1, v.2 ||| d.2)
    else v
  let rhs := (List.range h).map fun i => sumProd (0, 0) (drs.getD i []) r
  let f := ldl h fun i j => ((gram.getD i []).getD j (0, 0)).1
  let ok := decide (0 < h) && f.ok
  let gam := if ok then solveGamma h f fun i => (rhs.getD i (0, 0)).1 else ([], 0)
  let vs := (List.range n).map fun e =>
    mixElem beta (z.getD e 0) (r.getD e 0)
      (if ok then (List.range h).map fun i => (SMap.get 0 gam.1 i, (dzs.getD i []).getD e 0, (drs.getD i []).getD e 0) else [])
  let fl := allFlags (gram.flatMap id) ||| allFlags rhs ||| f.fl ||| gam.2 ||| allFlags vs
  let g3 := (g2.putElems x.carried (vs.map Prod.fst)).svFlags fl
  if !ok && 0 < h then g3.svSet 3 3 1 else g3

/-! ### `svend` (R368, R370) -/

/-- A gathered warp arrives at `svend`, or goes on if no region is open. -/
def svendEffect (_ : List Nat) (s : State) : State :=
  if s.curG.open_ then
    (s.allWait .svend).updCurG fun g => { g with svArrived := g.svArrived ||| BitVec.ofNat 64 (2 ^ s.curWarp) }
  else s.allGoOn

/-- R368. -/
def execSvend (f : Fields) (s : State) : Host.Outcome State Fault Refusal :=
  issue (.svend f) s fun s => s.gather (.svend f) svendEffect

/-- `norm <= tol`, false when either is NaN. -/
def normWithin (norm tol : Nat) : Bool :=
  let a := fp32.decode norm
  let b := fp32.decode tol
  !a.isNan && !b.isNan && a.cmp b != .gt

/-- The engine's writes of steps 3 and 4 of R166. They are seen at once and the threads go on, or, as the model's next choice says,
accesses by copies and windows meet them first (R373): then what the engine wrote and what was there are both kept until the next
evaluation ends the step. `g` is the workgroup after the step, `slots` are the history slots that it writes. -/
def State.mixStep (s : State) (k : Nat) (g : Workgroup) (slots : List Nat) (next : Option DWord) : State :=
  let y := s.takeChoice
  let was := s.wg k
  if y.1 = 0 then (y.2.updWg k fun _ => { g with svArrived := 0 }).restartAll k next
  else
    let tiles := (List.range (if g.region.two then 2 else 1)).map (g.region.carried + ·)
    y.2.updWg k fun _ => { g with mixing := some { tiles, slots, acc := was.acc, hs := was.hs, next } }

/-- The step is over: every thread goes on. -/
def State.mixDone (s : State) (k : Nat) (m : Mixing) : State :=
  (s.updWg k fun g => { g with mixing := none, svArrived := 0 }).restartAll k m.next

/-- The residual of an open region, and its norm (R368). -/
def Workgroup.solveResidual (g : Workgroup) : List (Nat × Flags) × (Nat × Flags) :=
  let x := g.region
  let rs := residual (g.tileElems x.image x.n) (g.tileElems x.carried x.n)
  (rs, solveNorm x.l2 (rs.map Prod.fst))

/-- A general register as the program names it, outside a handler (R390). -/
def Warp.progReg (w : Warp) (r l : Nat) : Word := { w with handler := false }.reg r l

/-- The tolerance and the ceiling of an evaluation, from the lead thread's registers (R368). -/
def State.solveLimits (s : State) (k : Nat) : Nat × Nat :=
  let (w, l) := s.lead k
  let x := (s.wg k).region
  let c := ((s.warp k w).progReg x.ceilReg l).toNat
  (((s.warp k w).progReg x.tolReg l).toNat, if c = 0 then 1 else Nat.min c 4096)

/-- The evaluation raises SOLVE_NC: the norm is above the tolerance, and the ceiling is reached (R368, R370). -/
def State.atCeiling (s : State) (k : Nat) : Bool :=
  !normWithin (s.wg k).solveResidual.2.1 (s.solveLimits k).1 && (s.solveLimits k).2 ≤ (s.wg k).sviter.toNat

/-- The evaluation of an `svend` at which every warp waits (R166, R368). -/
def State.evaluate (s : State) (k : Nat) : State :=
  let g := s.wg k
  let x := g.region
  let (w, l) := s.lead k
  let (rs, norm) := g.solveResidual
  let g1 := { g with svnorm := BitVec.ofNat 32 norm.1 }.svFlags (allFlags rs ||| norm.2)
  if normWithin norm.1 (s.solveLimits k).1 then
    (s.mixStep k ((g1.putElems x.carried (g.tileElems x.image x.n)).svSet 1 0 2) [] none).freeEngine k
  else if (s.solveLimits k).2 ≤ g.sviter.toNat then
    (s.updWg k fun _ => g1).takeTrap k w
      { cause := 11, pc := s.programPc k w l, va := g.sviter.setWidth 80, mask := maskOf (s.warp k w).unexited }
  else
    let g2 := g1.mix (g.tileElems x.carried x.n) (rs.map Prod.fst)
    let slots := if g1.pv && 0 < x.m then [2 * g1.histPos, 2 * g1.histPos + 1] else []
    s.mixStep k { g2 with sviter := g2.sviter + 1 } slots (some x.body)

/-- R368: every warp has arrived, the tiles are complete, and the lead thread's two registers are not abroad (R93). Where a mixing step
still writes, it ends. SOLVE_NC waits for the end of a handler that the lead warp is in (DESIGN CHOICE, log 96). -/
def execSvendEvaluation (wg : Nat) (s : State) : Host.Outcome State Fault Refusal :=
  let g := s.wg wg
  let (w, l) := s.lead wg
  match g.mixing with
  | some m => event "SVEND_EVALUATION" (g.status == .resident && s.allIn wg (· == .svend)) (s.mixDone wg m)
  | none => event "SVEND_EVALUATION"
      (g.status == .resident && g.open_ && s.allIn wg (· == .svend) && s.tilesDone wg
        && !s.abroad wg w g.region.tolReg l && !s.abroad wg w g.region.ceilReg l && !(s.atCeiling wg && (s.warp wg w).handler))
      (s.evaluate wg)

/-! ### `svabort`, `svrd` and `svhs` (R371, R372) -/

/-- Ends the open region early: warps that wait in `svend` go on, and a mixing step that still writes is over (R371). -/
def State.abortRegion (s : State) (k : Nat) : State :=
  let s1 := (s.updWg k fun g => { (g.svSet 0 0 0).svSet 2 2 1 with svArrived := 0, mixing := none }).freeEngine k
  (s1.liveWarps k).foldl (fun s w =>
    let ls := (s.warp k w).unexited.filter fun l => (s.lane k w l).wait.any fun t => t.what == .svend
    (s.finishLanes k w ls).syncs k w ls true) s1

/-- R371. -/
def execSvabort (f : Fields) (s : State) : Host.Outcome State Fault Refusal :=
  issue (.svabort f) s fun s =>
    (if (s.trueLanes f).isEmpty || !s.curG.open_ then s else s.abortRegion s.curWg).advance f.len

/-- The element index of a lane (R372). -/
def Warp.histIndex (w : Warp) (f : Fields) (l : Nat) : Nat := (w.reg f.b.toNat l).toNat % 8192

/-- R372. -/
def execSvrd (f : Fields) (s : State) : Host.Outcome State Fault Refusal :=
  issue (.svrd f) s fun s => s.writeD f fun w l => s.curG.hsAt f.a.toNat (w.histIndex f l)

/-- R372. -/
def execSvrdZp (f : Fields) (s : State) : Host.Outcome State Fault Refusal :=
  issue (.svrdZp f) s fun s => s.writeD f fun w l =>
    if s.curG.open_ && s.curG.pv then SMap.get 0 s.curG.zp (w.histIndex f l) else 0

/-- R372. -/
def execSvrdRp (f : Fields) (s : State) : Host.Outcome State Fault Refusal :=
  issue (.svrdRp f) s fun s => s.writeD f fun w l =>
    if s.curG.open_ && s.curG.pv then SMap.get 0 s.curG.rp (w.histIndex f l) else 0

/-- R372: HIST and HPOS become 0. -/
def execSvhsClr (f : Fields) (s : State) : Host.Outcome State Fault Refusal :=
  issue (.svhsClr f) s fun s =>
    (if (s.trueLanes f).isEmpty then s else s.updCurG fun g => g.svSet 9 5 0).advance f.len

/-- R372: in ascending lane order, so that the highest lane wins. -/
def execSvhsWr (f : Fields) (s : State) : Host.Outcome State Fault Refusal :=
  issue (.svhsWr f) s fun s =>
    let w := s.curW
    (s.updCurG fun g => (s.trueLanes f).foldl (fun g l =>
      g.setHs f.d.toNat (w.histIndex f l) (w.reg f.a.toNat l)) g).advance f.len

end Sys2Proof.Machine
end

