-- ==== Sys2Proof/Machine/Window.lean ====
section
/-! DEFINITION. Accesses in the window space (R24 to R28): WINDOW_ACCESS. -/

namespace Sys2Proof.Machine

/-- Where an object's byte lies, for the notes of R149: in memory where the target is saved, in its scratch, or beyond the offsets of that
in another object. -/
def State.winPlace (s : State) (t addr : Nat) : Option Nat × Nat :=
  if (s.wg t).status = .saved then (none, (s.imageAt t addr).getD 0)
  else (some t, if winKind addr = 1 then winOff addr else 2 ^ 32 + addr % 2 ^ 32)

/-- One lane's access to its target's object, at the core or in the image (R25, R27, R306). -/
def State.winLane (s : State) (r : Req) (t : Nat) (x : Slot) : State × Slot :=
  let place := s.winPlace t x.addr
  match r.insn with
  | .st _ =>
    let s1 := s.payAt t (some (x.addr % 2 ^ 32, r.size))
    ((s1.winPut t x.addr r.size (x.x + x.y * 2 ^ 64)).noteChain s1 place.1 place.2 r.size (r.wg, r.warp) x.lane r.group
      (s1.firmLates (r.wg, r.warp) x.lane), x)
  | _ =>
    if s.winBad t x.addr r.size then (s.winError t x.addr, { x with bad := true })
    else
      let y := (s.readChain place.1 r.core (r.wg, r.warp) x.lane place.2 r.size).winGet r.core (r.wg, r.warp) t x.addr r.size
      (y.2, { x with reply := y.1 })

/-- A lane's access may be performed: no earlier access of its thread to the same bytes, through a window or to its scratch, is still to
be performed, nor, for a release, any that it covers; and what it names is home (R22, R146, R151). -/
def State.winSlotFree (s : State) (r : Req) (t : Nat) (x : Slot) : Bool :=
  !s.winHeld t x.addr r.size &&
  if r.mi.rel then s.passedOn r x
  else s.pastRelease r.core (r.wg, r.warp) x.lane r.group && (s.earlier r).all fun q => q.slots.all fun y => y.lane != x.lane || q.didSlot y ||
    match q.phase with
    | .window => !overlap y.addr q.size x.addr r.size
    | .scratch => !(bits x.addr 63 28 == keyWgid r.wg * 16 + 1 && overlap y.addr q.size (winOff x.addr) r.size)
    | _ => true

/-- The lanes of a window request that have not been performed. -/
def Req.lanesLeft (r : Req) : List Slot := r.slots.filter fun x => !r.didSlot x

/-- The lanes of a window request that may be performed one after another, in ascending order (R305). -/
def State.winReady (s : State) (r : Req) (t : Nat) : List Slot :=
  let free := r.lanesLeft.filter fun x => s.winSlotFree r t x
  free.filter fun x => r.mi.acc == .read || r.lanesLeft.all fun y =>
    x.lane ≤ y.lane || !overlap y.addr r.size x.addr r.size || free.any fun z => z.lane == y.lane

/-- Some lanes of a window request are performed. -/
def State.winLanes (s : State) (r : Req) (t : Nat) : List Slot → State × Req
  | [] => (s, r)
  | x :: xs =>
    let y := s.winLane r t x
    y.1.winLanes { r with slots := r.slots.map fun z => if z.lane = x.lane then { y.2 with did := [0] } else z } t xs

/-- A step of a window request: other accesses may fall between those of its lanes (R145, R305), so the next of the model's choices
takes the first lanes of those that are ready, as many as it says, or (0) all of them. Its hampers have left base camp, where they waited
for the target's admission, with it (R96). -/
def State.winStep (s : State) (r : Req) (t : Nat) : State :=
  let xs := s.winReady r t
  let c := if xs.length ≤ 1 then (0, s) else s.takeChoice
  let y := c.2.winLanes r t (if c.1 = 0 then xs else
    if r.mi.acc == .read then (xs.drop ((c.1 - 1) % xs.length)).take 1 else xs.take (1 + (c.1 - 1) % xs.length))
  let r1 := { y.2 with hampers := y.2.inPacket }
  y.1.setReq (if r1.lanesLeft.isEmpty then { r1 with phase := .performed } else r1)

/-- Why a window access is refused where it arrives (R26, R27, R32): DETAIL. -/
def State.winFate (s : State) (r : Req) : Option Nat :=
  let t := winTarget r.wg r.va
  match (s.wg t).status with
  | .discarded | .exited => some 7
  | .waiting => none
  | _ => if s.objConnected r.core t r.va then none else some 6

/-- The requests of a window instruction that arrive with a request: those whose targets have been admitted (R27). -/
def State.winArrivals (s : State) (r : Req) : List Req :=
  (s.mates r).filter fun q => !q.arrived && (s.wg (winTarget q.wg q.va)).status != .waiting

/-- The requests that arrive with one have passed their checks. -/
def State.winArrived (s : State) (r : Req) : State :=
  let ids := (s.winArrivals r).map (·.id)
  { s with reqs := s.reqs.map fun q => if ids.contains q.id then { q with arrived := true } else q }

/-- R26, R27: the target's state when the access arrives decides, for the requests of an instruction together (R304): performed at its
core or in its image, refused, or still waiting. -/
def execWindowAccess (id : Nat) (s : State) : Host.Outcome State Fault Refusal :=
  match s.req? id with
  | some r =>
    let t := winTarget r.wg r.va
    if r.phase != .window || (s.wg t).status == .waiting then .refused (.notEnabled "WINDOW_ACCESS")
    else match (s.winArrivals r).filter fun q => (s.winFate q).isSome, r.arrived with
      | q :: qs, false =>
        let s1 := (q :: qs).foldl (fun s p => if s.winFate p = some 6 then s.auditEvent 1 (s.ctxNo p.wg) p.va else s) s
        .next (s1.endGroup r (q :: qs) 7 ((s.winFate q).getD 7))
      | _, _ =>
        event "WINDOW_ACCESS" (!(s.winReady r t).isEmpty) ((if r.arrived then s else s.winArrived r).winStep { r with arrived := true } t)
  | none => .refused (.notEnabled "WINDOW_ACCESS")

end Sys2Proof.Machine
end

