-- ==== Sys2Proof/Machine/Issue.lean ====
section
/-! DEFINITION. Which lanes of a warp issue (R93, R183 to R185, R225, R236, R297): the end of satisfied waits, instruction fetch,
eligibility and the vote; and the entry of traps that reach a warp later (R389). -/

namespace Sys2Proof.Machine

/-! ### The end of waits -/

/-- What a lane waits for. -/
def Lane.waits (x : Lane) : Option WaitFor := x.wait.map (·.what)

/-- The effect of an instruction that acts once per warp, on a gathered warp (R128). -/
def gatherEffect (i : Instr) (acts : List Nat) (s : State) : State :=
  match i with
  | .barArr f => barArrEffect f acts s
  | .barSync f => barSyncEffect f acts s
  | .barWait f => barWaitEffect f acts s
  | .barExp f => barExpEffect f acts s
  | .barInit f => barInitEffect f acts s
  | .barRd f => barRdEffect f false acts s
  | .barRdClr f => barRdEffect f true acts s
  | .bargArr f => bargEffect f 0 acts s
  | .bargSync f => bargEffect f 1 acts s
  | .bargWait f => bargEffect f 2 acts s
  | .rgive f => rgiveEffect f acts s
  | .rtake f => rtakeEffect f acts s
  | .rfree f => rfreeEffect f acts s
  | .waitp f => waitpEffect f acts s
  | .wsync _ => wsyncEffect acts s
  | .solve _ => solveEffect acts s
  | .svend _ => svendEffect acts s
  | .eret _ => eretEffect acts s
  | _ => s.allGoOn

/-- Makes a warp the issuing one, with lanes as its group. -/
def State.focus (s : State) (k w : Nat) (ls : List Nat) : State := { s with curWg := k, curWarp := w, curMask := maskOf ls }

/-- A gathered warp's effect happens. -/
def State.settleGather (s : State) (k w : Nat) : State :=
  let x := s.warp k w
  match x.unexited with
  | [] => s
  | l :: _ =>
    match (x.lane l).waits with
    | some (.gather i _) =>
      if s.gathered k w i then gatherEffect i x.gatherActs (s.focus k w x.unexited) else s
    | _ => s

/-- A wait that ends by a condition alone is over; `kind` 2 to 15 of a fence is an acquire point. -/
def State.waitOver (s : State) (k w l : Nat) : Bool :=
  let g := s.wg k
  match (s.lane k w l).waits with
  | some (.tags bound kind) => s.fenceDone k w l bound kind
  | some (.phase b n) => n < (g.bar b).phases
  | some (.command part num) => num ≤ (s.cmd part).completed
  | some (.writes part bound) => s.writesDone part bound
  | some .word => !s.reqs.any fun r => r.wg == k && r.warp == w && !r.fetch && r.lanes.contains l &&
      r.handler == (s.warp k w).handler && match r.insn with
      | .ldfe _ | .stfe _ => true
      | _ => false
  | some (.reply n) => !s.reqs.any fun r => r.group == n && r.wg == k && r.warp == w && !r.fetch && r.lanes.contains l
  | some (.miss b n) => phaseDiffers (g.bar b).phases (n == 1)
  | some .svend => !g.open_ && g.mixing.isNone
  | some .fetch => !s.reqs.any fun r => r.fetch && r.wg == k && r.warp == w && r.lanes.contains l
  | _ => false

/-- Ends the waits that are over. -/
def State.settlePlain (s : State) (k w : Nat) : State :=
  let ls := (s.warp k w).unexited.filter fun l => s.waitOver k w l
  let s1 := ls.foldl (fun s l => match (s.lane k w l).waits with
    | some (.tags _ kind) => s.fenceEnds (s.wg k).core kind
    | _ => s) s
  s1.finishLanes k w ls

/-- The lanes of a warp that wait as a lane does, at its PC. -/
def Warp.alike (w : Warp) (l : Nat) : List Nat :=
  w.unexited.filter fun j => (w.lane j).wait == (w.lane l).wait && (w.lane j).pc == (w.lane l).pc

/-- Ends the `waitc` of the lanes that wait with a lane, if its counters are within the limits (R261, R345). -/
def State.settleCounters (s : State) (k w l : Nat) : State :=
  let x := s.warp k w
  match (x.lane l).waits with
  | some (.counters limits) =>
    if x.within limits then
      (s.waitcEnds k w (x.alike l) (x.lane l).pc limits).getD (s.finishLanes k w (x.alike l))
    else s
  | _ => s

/-- Ends a network barrier's wait: at its phase, an acquire; a broken barrier gives PROT (R332). -/
def State.settleNet (s : State) (k w l : Nat) : State :=
  let x := s.warp k w
  match (x.lane l).waits with
  | some (.netPhase key n) =>
    let ls := x.alike l
    if n < (s.net key).phases then (s.finishLanes k w ls).l1Clear (s.wg k).core
    else if s.netBroken key then
      let s1 := s.updWarp k w fun y => y.updLanes ls fun _ z => { z with wait := none }
      s1.takeTrap k w { cause := 7, detail := 9, pc := (x.lane l).pc, mask := maskOf ls }
    else s
  | _ => s

/-- Ends a ring's wait, a queue's and a collective's (R139, R336, R340). -/
def State.settleOther (s : State) (k w l : Nat) : State :=
  let x := s.warp k w
  match (x.lane l).waits with
  | some (.ring give r d _) => s.ringTry k w give r d
  | some (.message q d _) =>
    -- of two groups that read one queue, the one at the lower PC takes the older message (R336)
    let lower := x.unexited.any fun j => (x.lane j).pc.toNat < (x.lane l).pc.toNat && match (x.lane j).waits with
      | some (.message p ..) => p == q
      | _ => false
    if ((s.wg k).queue q).isEmpty || lower then s
    else
      let ls := x.alike l
      (s.takeMessage k w q d ls).finishLanes k w ls
  | some (.collective h d) =>
    match s.collStatus k h.toNat with
    | some v =>
      let ls := x.alike l
      (s.collDone k w d v ls).finishLanes k w ls
    | none => s
  | _ => s

/-- The instruction waits at issue (R55, R112, R122, R190, R337, R342). -/
def heldNow (i : Instr) (s : State) : Bool :=
  match i with
  | .cpy _ | .cpym _ | .cpyw _ => s.copyHeld i
  | .qpollSend f => s.sendHeld f
  | .coll f => s.collHeld f
  | .mxi _ | .mxs _ | .mxv _ | .mxn _ | .mxsa _ | .mxz _ | .mxmvSt _ | .mxmvLd _ | .mxmvTt _ | .wbinv _ => s.matHeld i
  | .tlbinv f | .harvest f | .replay f | .replayCancel f | .replayPage f => s.cmdHeld f
  | _ => heldAtIssue i s

/-- Lanes whose instruction no longer waits at issue compete for issue again. -/
def State.settleHeld (s : State) (k w l : Nat) : State :=
  let x := s.warp k w
  match (x.lane l).waits with
  | some (.atIssue i) =>
    let ls := x.alike l
    if heldNow i (s.focus k w ls) then s else s.updWarp k w fun y => y.updLanes ls fun _ z => { z with wait := none }
  | _ => s

/-- A wait whose end is an acquire point of its thread, or an observation that counts as one (R73, R133, R139, R151, R191, R262). -/
def WaitFor.acquires : WaitFor → Bool
  | .gather (.barArr _) _ | .gather (.bargArr _) _ | .gather (.rfree _) _ | .gather (.barExp _) _ | .gather (.barInit _) _
  | .gather (.eret _) _ => false
  | .gather .. | .counters _ | .phase .. | .netPhase .. | .ring .. | .promise .. | .message .. | .collective .. | .svend | .solve _
  | .word | .reply _ | .miss .. => true
  | .tags _ kind => kind != 17
  | .sleep .. | .atIssue _ | .command .. | .writes .. | .fetch => false

/-- Ends every wait of a warp that is satisfied; the threads that come to an acquire point so are noted (R149). -/
def State.settle (s : State) (k w : Nat) : State :=
  let each (f : State → Nat → State) (s : State) : State := (s.warp k w).unexited.foldl f s
  let s1 := (s.settleGather k w).settlePlain k w
  let s2 := each (fun s l => s.settleCounters k w l) s1
  let s3 := each (fun s l => s.settleNet k w l) s2
  let s4 := each (fun s l => s.settleOther k w l) s3
  let s5 := each (fun s l => s.settleHeld k w l) s4
  s5.syncs k w ((s.warp k w).unexited.filter fun l =>
    ((s.lane k w l).waits.any WaitFor.acquires) && (s5.lane k w l).wait.isNone) true

/-! ### Fetch (R225, R236) -/

/-- What lies at a PC. -/
inductive Fetched where
  | absent (level : Nat)
  | prot (detail : Nat)
  | boundary
  | illegal
  | insn (i : Instr)
deriving DecidableEq, Repr

/-- The VA of an instruction (R257). -/
def State.codeVa (s : State) (k : Nat) (pc : DWord) : Nat := (s.packet k).codeseg * 2 ^ 64 + pc.toNat

/-- The instruction that bytes of a fetch block give, from offset `off` of the block: R236 steps 1 to 5. -/
def fetchBytes (pc : Nat) (bs : List Byte) : Fetched :=
  let len := (bs.headD 0).toNat % 4
  if pc % 4 != 0 then .boundary
  else if len = 3 then .illegal
  else if 32 < pc % 32 + lenBytes (BitVec.ofNat 2 len) then .boundary
  else match decode bs with
    | .ok (i, _) => .insn i
    | .error _ => .illegal

/-- The bytes of a word of code as a fetch of a launch reads them: what it held before a store changed it, where the launch began
before that store and the fetch is to see that (R170), else what it holds. -/
def State.codeByte (s : State) (launch a : Nat) : Byte :=
  let n := SMap.get 0 s.stale (a / 4)
  match (SMap.get [] s.former (a / 4))[n - 1]? with
  | some p => if n = 0 ∨ p.2 ≤ launch then s.mem.byte a else BitVec.ofNat 8 (p.1 / 256 ^ (a % 4))
  | none => s.mem.byte a

/-- The 16 bytes of code from a pod-global address, as a launch fetches them. -/
def State.bytesAt (s : State) (launch g : Nat) : List Byte :=
  (List.range 16).map fun i => s.codeByte launch (s.canon (g + i))

/-- What a translation of a launch's fetch gives. -/
def State.fetched (s : State) (launch : Nat) (pc : DWord) (t : Tr) : Fetched :=
  match t with
  | .absent level => .absent level
  | .prot d => .prot d
  | .ok g _ => fetchBytes pc.toNat (s.bytesAt launch g)

/-- The instruction at a PC of a warp, without any effect of the fetch. -/
def State.peek (s : State) (k : Nat) (pc : DWord) : Fetched :=
  s.fetched (keyLaunch k) pc (s.probeHome (s.wg k).core (s.ctxNo k) (s.codeVa k pc) .fetch false 4)

/-! ### Eligibility and the vote (R93, R183, R185, R297) -/

/-- A thread is not exited, not part-way through an instruction, and no register that its next instruction names is still to be
written or abroad (R183). -/
def State.unhindered (s : State) (k w l : Nat) : Bool :=
  let x := s.lane k w l
  !x.exited && x.wait.isNone &&
    match s.peek k x.pc with
    | .insn i =>
      let out := s.outstanding k w l
      out.isEmpty || !i.regs.any out.contains
    | _ => true

/-- A thread of the warp waits for a queue slot for its message: the whole warp waits (R112, R335). -/
def Warp.sendWaits (w : Warp) : Bool :=
  w.unexited.any fun l => match (w.lane l).waits with
    | some (.atIssue (.qpollSend _)) => true
    | _ => false

/-- The unhindered lanes of a warp. -/
def State.unhinderedLanes (s : State) (k w : Nat) : List Nat :=
  if (s.warp k w).sendWaits then [] else (s.warp k w).unexited.filter fun l => s.unhindered k w l

/-- An instruction that issues only with every unexited thread at its address (R297). -/
def crossLane (i : Instr) : Bool :=
  match i with
  | .shfl _ | .vote _ | .redl _ | .scanl _ | .matchL _ => true
  | _ => false

/-- The PC groups of lanes, ascending by PC (R183). -/
def Warp.pcGroups (w : Warp) (ls : List Nat) : List (List Nat) :=
  (sortBy (fun a b => a < b) (dedup (ls.map fun l => (w.lane l).pc.toNat))).map fun p => ls.filter fun l => (w.lane l).pc.toNat == p

/-- The instruction of a group passes its checks and waits at issue (R190). -/
def State.groupHeld (s : State) (k w : Nat) (g : List Nat) : Bool :=
  match g with
  | [] => false
  | l :: _ =>
    match s.peek k (s.lane k w l).pc with
    | .insn i => heldNow i (s.focus k w g) && (precheck i (s.focus k w g)).isNone
    | _ => false

/-- Threads whose instruction waits at issue become part-way through it: they wait, and take no part in the vote (R183, R190). A send
that finds no queue slot makes the whole warp wait from here on, before a group at a lower PC would issue in the same cycle
(log 38). -/
def State.holdGroups (s : State) (k w : Nat) : State :=
  let x := s.warp k w
  ((x.pcGroups (s.unhinderedLanes k w)).filter (s.groupHeld k w)).foldl (fun s g =>
    match g with
    | [] => s
    | l :: _ => match s.peek k (s.lane k w l).pc with
      | .insn i => (s.focus k w g).waitLanes g (.atIssue i) i.fields.len
      | _ => s) s

/-- A group may issue: a cross-lane instruction only with every unexited thread at its address (R297). -/
def State.groupIssues (s : State) (k w : Nat) (g : List Nat) : Bool :=
  let x := s.warp k w
  match g with
  | [] => false
  | l :: _ =>
    match s.peek k (x.lane l).pc with
    | .insn i => !crossLane i || x.unexited.all fun j => (x.lane j).pc != (x.lane l).pc || g.contains j
    | _ => true

/-- The PC groups of the threads of a prepared warp that `join` does not hold. -/
def State.freeGroups (s : State) (k w : Nat) : List (List Nat) :=
  (s.warp k w).pcGroups ((s.unhinderedLanes k w).filter fun l => !(s.lane k w l).held)

/-- The eligible threads of a prepared warp (R183): a group that a thread at its address delays waits as for a long-latency
dependence (R297); those held by `join` count for AGE, but not while a register that their next instruction names is pending or abroad
(DESIGN CHOICE, log 94: R183 says of such a thread both that it keeps its AGE and that it rises). -/
def State.eligibles (s : State) (k w : Nat) : List Nat :=
  let delayed := ((s.freeGroups k w).filter fun g => !s.groupIssues k w g).flatten
  (s.unhinderedLanes k w).filter fun l => !delayed.contains l

/-- The lanes that `join` holds on, of PC groups in ascending order: those whose AGE has not reached 256, where a group at a lower PC may
issue (`low`); the lanes of a group that are not held are eligible where their group may issue (R185, R297). -/
def State.heldOn (s : State) (k w : Nat) : List (List Nat) → Bool → List Nat
  | [], _ => []
  | g :: gs, low =>
    let stay := g.filter fun l => low && (s.lane k w l).held && (s.lane k w l).age < 256
    let free := g.filter fun l => s.unhindered k w l && !stay.contains l
    stay ++ s.heldOn k w gs (low || s.groupIssues k w free)

/-- The hold of a `join` ends once the thread's AGE reaches 256 or no eligible thread has a lower PC (R185). -/
def State.letGo (s : State) (k w : Nat) : State :=
  let x := s.warp k w
  let held := x.unexited.filter fun l => (x.lane l).held
  let ls := s.heldOn k w (x.pcGroups (x.unexited.filter fun l => held.contains l || (s.unhinderedLanes k w).contains l)) false
  s.updWarp k w fun y => y.updLanes held fun l z => { z with held := ls.contains l }

/-- A warp as its partition finds it in an issue cycle: waits that are over have ended, threads whose instruction waits at issue
wait, and holds that are over have ended. -/
def State.prepare (s : State) (k w : Nat) : State := ((s.settle k w).holdGroups k w).letGo k w

/-- The age of a group: of its oldest thread. -/
def Warp.groupAge (w : Warp) (g : List Nat) : Nat := g.foldl (fun n l => Nat.max n (w.lane l).age) 0

/-- The second group of an issue cycle (R183): the forced one of the largest age, else the second lowest. -/
def Warp.secondGroup (w : Warp) (rest : List (List Nat)) : List Nat :=
  let forced := rest.filter fun g => 256 ≤ w.groupAge g
  match forced with
  | [] => rest.headD []
  | g :: gs => gs.foldl (fun best h => if w.groupAge best < w.groupAge h then h else best) g

/-- The ages after an issue cycle (R183): 0 for threads that issue, one more for the other eligible ones (`State.eligibles`, log 94);
those of the second group keep theirs until they issue. -/
def Warp.ageAfter (w : Warp) (el first second : List Nat) : Warp :=
  w.updLanes (el.filter fun l => !second.contains l) fun l x => { x with age := if first.contains l then 0 else x.age + 1 }

/-- The second group of the present issue cycle, that has still to issue. -/
def State.again (s : State) (k w : Nat) : List Nat :=
  (s.unhinderedLanes k w).filter fun l => (s.warp k w).second.getLsbD l

/-- The group that a prepared warp issues next, and the warp's state for it: the second group of the present cycle, else the
groups of a new cycle. -/
def State.vote (s : State) (k w : Nat) : Option (List Nat × State) :=
  let x := s.warp k w
  let again := s.again k w
  if !again.isEmpty && (x.pcGroups again).length == 1 then
    some (again, s.updWarp k w fun y => { y.updLanes again fun _ z => { z with age := 0 } with second := 0 })
  else
    match (s.freeGroups k w).filter fun g => s.groupIssues k w g with
    | [] => none
    | first :: rest =>
      let second := x.secondGroup rest
      some (first, s.updWarp k w fun y => { y.ageAfter (s.eligibles k w) first second with second := maskOf second })

/-! ### Traps that reach a warp later (R389) -/

/-- The next pending trap of a warp that may be taken, with its exited lanes left out (R274). -/
def State.nextTrap (s : State) (k w : Nat) : Option Trap :=
  let x := s.warp k w
  match x.pendTraps with
  | [] => none
  | t :: _ =>
    let waiting := (lanesOf t.mask).any fun l => match (x.lane l).waits with
      | some (.command ..) => true
      | _ => false
    if waiting then none else some { t with mask := t.mask &&& maskOf x.unexited }

/-- Takes the next pending trap; one whose lanes have all exited is dropped. -/
def State.enterTrap (s : State) (k w : Nat) (t : Trap) : State :=
  let s1 := s.updWarp k w fun x => { x with pendTraps := x.pendTraps.drop 1 }
  if t.mask = 0 then s1 else s1.takeTrap k w t

/-- R389: the special-function results are written first. -/
def execTrapEntry (wg warp : Nat) (s : State) : Host.Outcome State Fault Refusal :=
  match s.nextTrap wg warp with
  | some t => event "TRAP_ENTRY" ((s.wg wg).status == .resident) (s.enterTrap wg warp t)
  | none => .refused (.notEnabled "TRAP_ENTRY")

/-- A warp's core may issue it: its workgroup is resident, the warp is active, not parked by the power limit (R387), not
stopped for a save (R396), and issue is not stopped for heat (R417). -/
def State.mayIssue (s : State) (k w : Nat) : Bool :=
  (s.wg k).status == .resident && (s.warp k w).active && !(s.warp k w).parked && !(s.warp k w).stopped && !s.thermal.stopped

/-! ### Readiness (R386) -/

/-- A warp is ready: once the waits that are over have ended, some group could issue, or the end of a wait changes what a
thread waits for, or a trap can be taken. -/
def State.ready (s : State) (k w : Nat) : Bool :=
  let t := s.settle k w
  ((s.prepare k w).vote k w).isSome || (t.warp k w).lanes != (s.warp k w).lanes || (s.nextTrap k w).isSome

/-- A thread waits on a long-latency dependence: part-way through an instruction, with its warp for a queue slot (R112), for a register
that a request writes or keeps abroad, or in a group that another thread at its address delays (R50, R101, R297, R386); the wait for a special-function
result is none. -/
def State.longWait (s : State) (k w l : Nat) : Bool :=
  let x := s.lane k w l
  x.wait.isSome || (s.warp k w).sendWaits || ((s.unhinderedLanes k w).contains l && !(s.eligibles k w).contains l) ||
    match s.peek k x.pc with
    | .insn i => i.regs.any ({ s with sfus := [] }.outstanding k w l).contains
    | _ => false

/-- A warp is stalled (R386): no thread could issue, and all wait on long-latency dependences or it issued with SWAP = 1. -/
def State.stalled (s : State) (k w : Nat) : Bool :=
  !s.ready k w && ((s.warp k w).swapped || (s.warp k w).unexited.all ((s.prepare k w).longWait k w))

/-- A warp has a group of its present issue cycle still to issue. -/
def State.midCycle (s : State) (k w : Nat) : Bool := !((s.prepare k w).again k w).isEmpty

/-- An issue cycle whose second group cannot issue is over: that group waits, and the next cycle starts with the lowest PC (R183). -/
def State.noteCycles (s : State) : State :=
  (s.wgs.keys.filter fun k => (s.wg k).status == .resident).foldl (fun s k =>
    (s.liveWarps k).foldl (fun s w =>
      if (s.warp k w).second != 0 && !s.midCycle k w then s.updWarp k w fun y => { y with second := 0 } else s) s) s

/-- It is a warp's turn in its partition (R386): no other ready active warp is part-way through its issue cycle, and none issued
less recently. -/
def State.hasTurn (s : State) (k w : Nat) : Bool :=
  let mine := s.midCycle k w
  (s.wgsOn (s.wg k).core).all fun j => (List.range (s.warpCount j)).all fun v =>
    (j == k && v == w) || (s.warp j v).part != (s.warp k w).part || !s.mayIssue j v || !s.ready j v
      || (if s.midCycle j v then mine else mine || (s.warp k w).lastIssue ≤ (s.warp j v).lastIssue)

/-- Notes when each warp of the resident workgroups became ready or stalled (R386). -/
def State.noteReady (s : State) : State :=
  let now := s.cyc.toNat
  (s.wgs.keys.filter fun k => (s.wg k).status == .resident).foldl (fun s k =>
    (s.liveWarps k).foldl (fun s w =>
      let x := s.warp k w
      if s.ready k w then
        (if x.readySince.isNone ∨ x.stalledSince.isSome then
          s.updWarp k w fun y => { y with readySince := y.readySince.orElse fun _ => some now, stalledSince := none } else s)
      else if s.stalled k w then
        (if x.stalledSince.isNone ∨ x.readySince.isSome then
          s.updWarp k w fun y => { y with readySince := none, stalledSince := y.stalledSince.orElse fun _ => some now } else s)
      else if x.stalledSince.isSome ∨ x.readySince.isSome then
        s.updWarp k w fun y => { y with readySince := none, stalledSince := none }
      else s) s) s

/-! ### The issue of a warp (R183, R236) -/

/-- What the issue of a warp comes to: nothing to issue, a trap that had reached the warp, a fetch that parks or fails, or an
instruction, with the state in which it executes. -/
inductive Attempt where
  | idle (s : State)
  | trap (s : State) (t : Trap)
  | parks (s : State) (level : Nat)
  | fails (s : State) (cause detail : Nat)
  | run (s : State) (i : Instr)
deriving DecidableEq, Repr

/-- The fetch of the issuing group (R236): behind an earlier request to its page, else by the group's own translation. -/
def State.fetchGroup (s : State) : Attempt :=
  let core := s.curG.core
  let ctx := s.ctxNo s.curWg
  let va := s.codeVa s.curWg s.curPc
  match s.pageHeld core ctx (va / 2 ^ 18) with
  | some level => .parks s level
  | none =>
    let t := s.translate core ctx va .fetch false
    match t.1.fetched (keyLaunch s.curWg) s.curPc (t.1.homeTr t.2.1 t.2.2 4) with
    | .absent level => .parks t.1 level
    | .prot d => .fails (t.1.auditTr t.2.1 ctx va) 7 d
    | .boundary => .fails t.1 2 0
    | .illegal => .fails t.1 1 0
    | .insn i => .run t.1 i

/-- What an instruction is for its threads (R148, R149): `some true` an acquire point or an observation that counts as one, and a
release point with it where it is one; `some false` a release point alone. -/
def syncPoint (i : Instr) (region : Bool) : Option Bool :=
  match i with
  | .fence _ | .fenceAck _ | .wsync _ | .waitp _ | .barSync _ | .barWait _ | .barRd _ | .barRdClr _ | .bargSync _ | .bargWait _ | .rgive _
  | .rtake _ | .solve _ | .svend _ | .waitc _ | .collw _ | .qpollRecv _ | .ldfe _ => some true
  | .cpy _ | .cpym _ | .cpyw _ => some false
  | i => if waitsForStores i region then some false else none

/-- The threads of the issuing group come to what their instruction is, if it does not wait: with one that acts once per warp, the
threads of the warp. -/
def State.issueSyncs (s : State) (i : Instr) : State :=
  let ls := if gatherReleases i (s.curG.svstat.getLsbD 0) then s.curW.unexited else s.group
  match syncPoint i (s.curG.svstat.getLsbD 0) with
  | some acquires => s.syncs s.curWg s.curWarp ls acquires
  | none => s

/-- An attempt that finds an instruction notes what it is for its threads (R149; log 85). -/
def Attempt.synced : Attempt → Attempt
  | .run s i => .run (s.issueSyncs i) i
  | a => a

/-- A fetch that parks. -/
def Attempt.isParks : Attempt → Bool
  | .parks .. => true
  | _ => false

/-- The issue of a warp whose turn it is: waits that are over end; a trap that has reached the warp is taken first; then the group
of the vote fetches. A group of the cycle whose page is not present parks instead and takes no part in the cycle (R183). -/
def State.attempt (s : State) (k w : Nat) : Attempt :=
  if !s.mayIssue k w || !s.hasTurn k w then .idle s
  else
    match (s.settle k w).nextTrap k w with
    | some t => .trap (s.settle k w) t
    | none =>
      let s1 := s.prepare k w
      match s1.vote k w with
      | none => .idle s1
      | some (g, s2) =>
        let parks := ([g, lanesOf (s2.warp k w).second].filter (!·.isEmpty)).map fun h => (s1.focus k w h).fetchGroup
        (parks.find? (·.isParks)).getD (s2.focus k w g).fetchGroup.synced

/-- R195, R196: a group is about to issue an instruction (its warp's turn has come, no trap is taken first and its page is there), and
a thread of it has used up its yield distance. -/
def execWatchdog (wg warp lane : Nat) (s : State) : Host.Outcome State Fault Refusal :=
  match s.attempt wg warp with
  | .run t _ | .fails t _ _ => event "WATCHDOG" (t.group.contains lane && (t.lane wg warp lane).ydist == 0) t.watchdogEnd
  | _ => .refused (.notEnabled "WATCHDOG")

end Sys2Proof.Machine
end

