-- ==== Sys2Proof/Machine/Launch.lean ====
section
/-! DEFINITION. From queue to issue slot (R102, R186, R192, R193, R375 to R388, R410, R421, R447, R448): doorbells, the launch
packet's checks, placement, admission, the end of a workgroup, exchanges, and the control interval. -/

namespace Sys2Proof.Machine

/-! ### Virtual queues (R376 to R378) -/

/-- R376, R378: VQTAIL is written; an unbound queue is signalled. -/
def execDoorbellWrite (agent vq : Nat) (v : Word) (s : State) : Host.Outcome State Fault Refusal :=
  event "DOORBELL_WRITE" (vq < 4096) (s.agentWrite agent (doorbell vq) fun s =>
    let s1 := (s.setCreg (doorbell vq) v.toNat).vqRefresh vq
    if (s.slotOf vq).isNone then (if s1.vqState vq < 3 then s1.setVq vq 2 0 else s1).signal (.queueUnbound vq) else s1)

/-- R376, R382: the unstarted packets are discarded and every launch of the queue ends. -/
def execLaunchCancel (agent vq : Nat) (s : State) : Host.Outcome State Fault Refusal :=
  event "LAUNCH_CANCEL" (vq < 4096) (s.agentWrite agent (doorbell vq + 12) fun s =>
    let s1 := s.setCreg (doorbell vq + 4) (s.vqTail vq)
    let s2 := (s1.launchesOf vq).foldl (fun s l => if (s.launch l).finished then s else s.endLaunch l) s1
    (s2.setVq vq 5 0).vqRefresh vq)

/-- R376, R380: a packet refused with code 1 to 10 is skipped; one that could not be read is read again. -/
def execResumeAfterRefusal (agent vq : Nat) (s : State) : Host.Outcome State Fault Refusal :=
  event "RESUME_AFTER_REFUSAL" (vq < 4096) (s.agentWrite agent (doorbell vq + 12) fun s =>
    if s.vqState vq != 4 then s
    else
      let code := s.field (doorbell vq + 8) 11 8
      let s1 := if code ≤ 10 then s.setCreg (doorbell vq + 4) ((s.vqHead vq + 1) % 2 ^ 32) else s
      (s1.setVq vq 0 0).vqRefresh vq)

/-! ### The launch packet (R379) -/

/-- The fields of a packet in memory at a pod-global address; defaults for 0 energy and current. -/
def State.readPacket (s : State) (g defE defI : Nat) : Packet :=
  let rd (o n : Nat) : Nat := s.memRead (g + o) n
  let b (o : Nat) : Nat := rd o 1
  { entry := BitVec.ofNat 64 (rd 0 8), codeseg := rd 8 2, flags := rd 10 2, nx := rd 12 4, ny := rd 16 4, nz := rd 20 4,
    warps := b 0x18, ncopy := b 0x19, nmat := b 0x1A, nvec := b 0x1B, home := b 0x1C, travel := b 0x1D, nbar := b 0x1E,
    nring := b 0x1F, cumask := rd 0x20 2, nacc := b 0x22, nwb := b 0x23, nhist := b 0x24, qgroup := b 0x25, part := b 0x26,
    scratch := rd 0x28 4, tag := BitVec.ofNat 32 (rd 0x2C 4), ringcfg := (List.range 4).map fun r => rd (0x30 + 4 * r) 4,
    argptr := BitVec.ofNat 64 (rd 0x40 8), stride := BitVec.ofNat 64 (rd 0x48 8), start := rd 0x50 8,
    energy := if rd 0x58 4 = 0 then defE else rd 0x58 4, current := if rd 0x5C 4 = 0 then defI else rd 0x5C 4 }

/-- A RINGCFG word (R138). -/
def ringOk (c : Nat) : Bool :=
  1 ≤ bits c 3 0 && bits c 3 0 ≤ 8 && 1 ≤ bits c 10 4 && bits c 10 4 ≤ 64 && 1 ≤ bits c 17 11 && bits c 17 11 ≤ 64
    && bits c 31 18 == 0

/-- Checks 1 to 7 of R380: the code of the first that fails. -/
def packetCode (p : Packet) (reserved : Bool) (part : Nat) : Option Nat :=
  if reserved || p.entry.toNat % 4 != 0 then some 1
  else if p.nx == 0 || p.ny == 0 || p.nz == 0 || 2 ^ 32 < p.grid then some 2
  else if p.warps < 1 || 64 < p.warps || p.ncopy + p.nmat + p.nvec != p.warps then some 3
  else if p.home < 2 || 255 < p.home + p.travel then some 4
  else if p.scratch % 256 != 0 || 2 ^ 20 < p.scratch then some 5
  else if 16 < p.nbar || 4 < p.nring || 16 < p.nacc || 8 < p.nwb || 8 < p.nhist || p.qgroup < 1 || 4 < p.qgroup
      || p.cumask / 2 ^ p.nbar != 0
      || !(List.range 4).all fun r => if r < p.nring then ringOk (p.ringcfg.getD r 0) else p.ringcfg.getD r 0 == 0 then some 6
  else if p.part != part then some 7
  else none

/-! ### Admission to a core (R62 to R67, R76, R102, R447) -/

/-- The resident warps of a core: workgroup and warp. -/
def State.warpsOn (s : State) (core : Nat) : List (Nat × Nat) :=
  (s.wgsOn core).flatMap fun k => (List.range (s.warpCount k)).map fun w => (k, w)

/-- Home rows of the resident warps of a partition. -/
def State.homeRows (s : State) (core part : Nat) : Nat :=
  sumOf (fun x => if (s.warp x.1 x.2).part = part then (s.packet x.1).home else 0) (s.warpsOn core)

/-- The partition whose resident warps hold the fewest home rows, the lowest number on a tie (R447). -/
def State.startPart (s : State) (core : Nat) : Nat :=
  (List.range 4).foldl (fun best q => if s.homeRows core q < s.homeRows core best then q else best) 0

/-- The warps of a new workgroup that go to a partition (R447). -/
def newIn (p : Packet) (start q : Nat) : Nat := ((List.range p.warps).filter fun k => (start + k) % 4 == q).length

/-- The largest total of home rows of a set of at most `c` warps whose rows fit in `room`; kinds are home rows, all rows,
number (R102). -/
def maxHome : List (Nat × Nat × Nat) → Nat → Nat → Nat
  | [], _, _ => 0
  | (h, r, n) :: l, c, room =>
    (List.range (Nat.min n c + 1)).foldl (fun best i =>
      if i * r ≤ room then Nat.max best (i * h + maxHome l (c - i) (room - i * r)) else best) 0

/-- Condition 2 of R102 in a partition. -/
def State.rowsFit (s : State) (core : Nat) (p : Packet) (start q : Nat) : Bool :=
  let old := (s.wgsOn core).map fun k =>
    ((s.packet k).home, (s.packet k).home + (s.packet k).travel,
      ((List.range (s.warpCount k)).filter fun w => (s.warp k w).part == q).length)
  let kinds := (old ++ [(p.home, p.home + p.travel, newIn p start q)]).filter fun x => x.2.2 != 0
  sumOf (fun x => x.1 * x.2.2) kinds ≤ 2048 + maxHome kinds 8 1024

/-- The footprint of a scratch declaration (R67). -/
def footprint (n : Nat) : Nat := (n + 4095) / 4096 * 4096

/-- The lowest free run of scratch that holds a footprint (R67). -/
def State.scratchRun (s : State) (core size : Nat) : Option Nat :=
  let taken := (s.wgsOn core).map fun k => ((s.wg k).scratchBase, footprint (s.packet k).scratch)
  ((List.range 257).map (· * 4096)).find? fun b =>
    b + footprint size ≤ 2 ^ 20 && taken.all fun t => b + footprint size ≤ t.1 || t.1 + t.2 ≤ b

/-- The lowest `n` free numbers below a limit. -/
def lowestFree (limit n : Nat) (used : List Nat) : List Nat := ((List.range limit).filter fun i => !used.contains i).take n

/-- The objects of a kind that a core's workgroups hold. -/
def State.objectsOn (s : State) (core : Nat) (f : Workgroup → List Nat) : List Nat := (s.wgsOn core).flatMap fun k => f (s.wg k)

/-- A core admits a workgroup that brings `extra` bytes of escort with it (R102, R400). -/
def State.coreAdmitsWith (s : State) (core : Nat) (p : Packet) (extra : Nat) : Bool :=
  let start := s.startPart core
  !(s.coreAt core).disabled && !(s.coreAt core).failing
    && (s.warpsOn core).length + p.warps ≤ 256 && (s.wgsOn core).length + 1 ≤ 32
    && ((List.range 4).all fun q => s.rowsFit core p start q)
    && sumOf (fun k => (s.packet k).warps * 256 * (s.packet k).travel) (s.wgsOn core) + p.warps * 256 * p.travel + extra ≤ 2 ^ 20 - 2 ^ 15
    && (s.scratchRun core p.scratch).isSome
    && (s.objectsOn core (·.tileNos)).length + p.nacc ≤ 16 && (s.objectsOn core (·.wbNos)).length + p.nwb ≤ 8
    && (s.objectsOn core (·.hsNos)).length + p.nhist ≤ 8

/-- A core admits a workgroup (R102). -/
def State.coreAdmits (s : State) (core : Nat) (p : Packet) : Bool := s.coreAdmitsWith core p 0

/-! ### Active sets (R64, R386) -/

/-- The active warps of a core's partition. -/
def State.activeIn (s : State) (core part : Nat) : List (Nat × Nat) :=
  (s.warpsOn core).filter fun x => (s.warp x.1 x.2).part == part && (s.warp x.1 x.2).active && !(s.warp x.1 x.2).unexited.isEmpty

/-- All rows of a warp. -/
def State.rowsOf (s : State) (x : Nat × Nat) : Nat := (s.packet x.1).home + (s.packet x.1).travel

/-- A warp fits into its partition's active set beside some warps (R64). -/
def State.fitsBeside (s : State) (others : List (Nat × Nat)) (x : Nat × Nat) : Bool :=
  others.length < 8 && sumOf s.rowsOf others + s.rowsOf x ≤ 1024

/-- A warp enters its active set; it counts as having issued then, so that those that enter one after another do not keep a ready active
warp from issuing within 8 issue cycles (R194; DESIGN CHOICE, log 95). -/
def State.enterActive (s : State) (x : Nat × Nat) : State :=
  s.updWarp x.1 x.2 fun w => { w with active := true, activeSince := s.cyc.toNat, lastIssue := s.nextTurn, perf := SMap.upd 0 w.perf 2 (· + 1) }

/-- A warp leaves its active set; it becomes ready as a pending warp afresh (R194). -/
def State.leaveActive (s : State) (x : Nat × Nat) : State :=
  s.updWarp x.1 x.2 fun w =>
    if w.active then
      { w with active := false, readySince := none, perf := SMap.upd 0 w.perf 1 fun v => v + (s.cyc - BitVec.ofNat 64 w.activeSince) }
    else w

/-- Home rows of the pending warps stay within the cooler (R102). -/
def State.coolerHolds (s : State) (core part : Nat) : Bool :=
  sumOf (fun x => if (s.warp x.1 x.2).part = part ∧ !(s.warp x.1 x.2).active then (s.packet x.1).home else 0) (s.warpsOn core) ≤ 2048

/-- So they do in every partition of a core. -/
def State.coolersHold (s : State) (core : Nat) : Bool := (List.range 4).all (s.coolerHolds core)

/-- The warps of a workgroup join their active sets where they fit, in ascending order (R386). -/
def State.joinActive (s : State) (k : Nat) : State :=
  (List.range (s.warpCount k)).foldl (fun s w =>
    if !(s.warp k w).parked && !(s.warp k w).active
        && s.fitsBeside (s.activeIn (s.wg k).core (s.warp k w).part) (k, w) then s.enterActive (k, w) else s) s

/-! ### A workgroup's start (R11, R65, R67, R76, R127, R138, R195, R216) -/

/-- A warp at its start. -/
def startWarp (p : Packet) (segs : SMap Word) (wid slot part : Nat) : Warp :=
  let lanes : SMap Lane := (List.range 64).map fun l =>
    (l, { pc := p.entry, exited := false, ydist := 65536, seed := BitVec.ofNat 32 (0xACE10000 + wid * 64 + l) })
  let row (v : Word) : SMap Word := if v = 0 then [] else (List.range 64).map fun l => (l, v)
  let regs : SMap (SMap Word) := SMap.set [] (SMap.set [] [] 0 (row (p.argptr.setWidth 32))) 1 (row ((p.argptr >>> 32).setWidth 32))
  { lanes, regs, segs, slot, part }

/-- SEGIMG of a context's root block (R11). -/
def State.segImage (s : State) (ctx : Nat) : SMap Word :=
  (List.range 8).foldl (fun m i =>
    SMap.set 0 m i (BitVec.ofNat 32 (s.memRead (s.own ((s.ctx ctx).root + 0x400 + 2 * i)) 2))) []

/-- The barriers of a workgroup at its start. -/
def startBars (p : Packet) : SMap Barrier :=
  (List.range p.nbar).map fun b =>
    let m := p.warps + b2n (bit p.cumask b)
    (b, { memb := m, pend := m, cu := bit p.cumask b })

/-- The ring stages of a workgroup at its start. -/
def startStages (p : Packet) : SMap Stage :=
  (List.range p.nring).flatMap fun r =>
    let c := p.ring r
    (List.range c.1).map fun i => (r * 8 + i, { gleft := c.2.1, fleft := c.2.2 })

/-- Puts a workgroup's warps and objects onto a core (R447); the rest of its state is as given. -/
def State.occupy (s : State) (k core : Nat) (g : Workgroup) : State :=
  let p := s.packet k
  let start := s.startPart core
  let slots := lowestFree 256 p.warps ((s.warpsOn core).map fun x => (s.warp x.1 x.2).slot)
  let warps : SMap Warp := (List.range p.warps).map fun w =>
    (w, { SMap.get {} g.warps w with slot := slots.getD w 0, part := (start + w) % 4, active := false, unparked := s.cyc.toNat })
  let part := s.ctxPart (s.ctxNo k)
  let g1 : Workgroup :=
    { g with status := .resident, core, warps, scratchBase := (s.scratchRun core p.scratch).getD 0,
             tileNos := lowestFree 16 p.nacc (s.objectsOn core (·.tileNos)),
             wbNos := lowestFree 8 p.nwb (s.objectsOn core (·.wbNos)),
             hsNos := lowestFree 8 p.nhist (s.objectsOn core (·.hsNos)), startedAt := s.cyc.toNat }
  let s1 := if (s.coreAt core).part = some part then s else (s.l1Clear core).updCore core fun c => { c with part := some part }
  let s2 := s1.updCore core fun c => c.takeStored g1 p.scratch
  { s2 with wgs := SMap.set {} s2.wgs k g1 }.joinActive k

/-- Starts a workgroup of a launch on a core. -/
def State.startWg (s : State) (l wgid core : Nat) : State :=
  let p := (s.launch l).packet
  let segs := s.segImage (s.launch l).ctx
  let warps : SMap Warp := (List.range p.warps).map fun w => (w, startWarp p segs w 0 0)
  s.occupy (wgKey l wgid) core { launch := l, wgid, warps, bars := startBars p, stages := startStages p }

/-! ### Admission to a quad (R384, R385, R421) -/

/-- The workgroups resident on a quad. -/
def State.wgsOnQuad (s : State) (q : Nat) : List Nat := (List.range 4).flatMap fun c => s.wgsOn (4 * q + c)

/-- The cap that scales a budget in a band (R421). -/
def State.capOf (s : State) (band : Nat) : Nat := if band = 2 then s.field pkgCap 31 16 else Nat.min 3600 (s.field pkgCap 15 0)

/-- EBUDeff of a quad for a cap (R421). -/
def State.budget (s : State) (q cap : Nat) : Nat := s.creg (energyBlock q) * cap / 3600

/-- A quad's budgets admit `n` more workgroups of a packet (R385). -/
def State.budgetAdmits (s : State) (q n : Nat) (p : Packet) : Bool :=
  let ks := s.wgsOnQuad q
  sumOf (fun k => (s.packet k).energy) ks + n * p.energy + s.creg (energyBlock q + 12) ≤ s.budget q (s.capOf (s.quad q).capBand)
    && sumOf (fun k => (s.packet k).current) ks + n * p.current ≤ s.creg (energyBlock q + 4)

/-- A core takes a workgroup of a launch: it admits it, and when its warps have joined their active sets the others' home rows are within
the cooler (R102, R386). -/
def State.coreTakes (s : State) (core l wgid : Nat) : Bool :=
  s.coreAdmits core (s.launch l).packet && (s.startWg l wgid core).coolersHold core

/-- Places members on the lowest-numbered cores of a quad that take them; `none` if one finds no place. -/
def State.placeOn (s : State) (q l : Nat) : List Nat → Option State
  | [] => some s
  | wgid :: ms =>
    match (List.range 4).find? fun c => s.coreTakes (4 * q + c) l wgid with
    | some c => (s.startWg l wgid (4 * q + c)).placeOn q l ms
    | none => none

/-- A quad admits a group. -/
def State.quadAdmits (s : State) (q l : Nat) (ms : List Nat) : Option State :=
  if s.budgetAdmits q ms.length (s.launch l).packet then s.placeOn q l ms else none

/-- The first quad of a list that admits a group. -/
def State.placeGroup (s : State) (l : Nat) (ms : List Nat) : List Nat → Option State
  | [] => none
  | q :: qs => match s.quadAdmits q l ms with
    | some t => some t
    | none => s.placeGroup l ms qs

/-- Free warp slots of a die's quads of a partition. -/
def State.freeSlots (s : State) (die part : Nat) : Nat :=
  sumOf (fun q => if s.quadIn q part then
      sumOf (fun c => if (s.coreAt (4 * q + c)).disabled ∨ (s.coreAt (4 * q + c)).failing then 0 else 256 - (s.warpsOn (4 * q + c)).length) (List.range 4)
    else 0) ((List.range 32).map (32 * die + ·))

/-- The die of a workgroup (R384). A block homed on a die of another package that is not active here chooses as a page without a home
die would (DESIGN CHOICE, log 77). -/
def State.dieFor (s : State) (l wgid : Nat) : Nat :=
  let x := s.launch l
  let p := x.packet
  let seg := s.memRead (s.own ((s.ctx x.ctx).root + 0x400)) 2
  let va := seg * 2 ^ 64 + (p.argptr + BitVec.ofNat 64 wgid * p.stride).toNat
  let most := (List.range (s.nact s.pkg)).foldl (fun best d => if s.freeSlots best p.part < s.freeSlots d p.part then d else best) 0
  match s.walk x.ctx va with
  | .leaf e level _ =>
    if !pteSound e then most
    else if (pteMode e == 0 || pteMode e == 2) && pteHome e < s.nact s.pkg then pteHome e
    else if pteMode e = 1 then
      let d := (s.unstripe (ptePkg e) (leafPa e level va - stripedBase)).1
      if d < s.nact s.pkg then d else most
    else most
  | _ => most

/-- The quads of a die that a launch may use: of its partition, and not refusing its context (R384, R396). -/
def State.quadsFor (s : State) (l die : Nat) : List Nat :=
  ((List.range 32).map (32 * die + ·)).filter fun q =>
    s.quadIn q (s.launch l).packet.part && !(s.quad q).refusing.contains (s.launch l).ctx

/-- The WGIDs that a launch dispatches next: the returned members of the lowest group, else its next quad group. -/
def Launch.nextGroup (x : Launch) : List Nat :=
  let q := Nat.max 1 x.packet.qgroup
  match sortBy (fun a b => a < b) x.returned with
  | r :: rs => (r :: rs).filter fun w => w / q == r / q
  | [] => ((List.range q).map (x.nextWg + ·)).filter (· < x.packet.grid)

/-- A group has been dispatched. -/
def Launch.took (x : Launch) (ms : List Nat) : Launch :=
  if x.returned.isEmpty then { x with nextWg := x.nextWg + ms.length }
  else { x with returned := x.returned.filter fun w => !ms.contains w }

/-- The number of the quad group that a launch dispatches next. -/
def Launch.groupNo (x : Launch) : Nat := x.nextGroup.headD 0 / Nat.max 1 x.packet.qgroup

/-- The die of a launch's next group: the one already chosen for it, else chosen now (R384). -/
def State.chosenDie (s : State) (l : Nat) : Nat :=
  let x := s.launch l
  (SMap.get none x.dies x.groupNo).getD (s.dieFor l (x.groupNo * Nat.max 1 x.packet.qgroup))

/-- Notes the die chosen for a launch's next group, which is binding (R384). -/
def State.bindDie (s : State) (l : Nat) : State :=
  s.updLaunch l fun x => { x with dies := SMap.set none x.dies x.groupNo (some (s.chosenDie l)) }

/-- Dispatches a launch's next group on its die. -/
def State.dispatchOne (s : State) (l : Nat) : Option State :=
  let x := s.launch l
  if x.nextGroup.isEmpty then none
  else (s.placeGroup l x.nextGroup (s.quadsFor l (s.chosenDie l))).map fun t =>
    t.updLaunch l fun y => { y.took x.nextGroup with dies := SMap.set none y.dies x.groupNo none }

/-- Dispatches every group of a co-resident launch, or none (R192): in the second case the machine holds the dies chosen. -/
def State.dispatchAll (s : State) (l : Nat) (dies : SMap (Option Nat)) : Nat → Option State × SMap (Option Nat)
  | 0 => (some s, dies)
  | n + 1 =>
    if (s.launch l).nextGroup.isEmpty then (some s, dies)
    else
      let dies1 := SMap.set none dies (s.launch l).groupNo (some (s.chosenDie l))
      match s.dispatchOne l with
      | some t => t.dispatchAll l dies1 n
      | none => (none, dies1)

/-- A launch's dispatch is tried: its groups are placed, or their dies are chosen and they wait. -/
def State.tryDispatch (s : State) (l : Nat) : State :=
  let x := s.launch l
  if x.packet.coResident then
    match s.dispatchAll l x.dies (x.packet.grid + 1) with
    | (some t, _) => t.updLaunch l fun y => { y with dies := [] }
    | (none, dies) => s.updLaunch l fun y => { y with dies }
  else (s.dispatchOne l).getD (s.bindDie l)

/-- A launch may dispatch now (R375, R380, R381, R383): its queue is bound and not halted by a refused packet. -/
def State.mayDispatch (s : State) (l : Nat) : Bool :=
  let x := s.launch l
  !x.dispatched && (s.slotOf x.vq).isSome && s.vqState x.vq != 4 && (x.packet.start == 0 || x.packet.start ≤ s.ptimeNs.toNat)

/-- R192, R384, R386. A dispatch that changes nothing is not one. -/
def execWorkgroupDispatch (launch : Nat) (s : State) : Host.Outcome State Fault Refusal :=
  let t := s.tryDispatch launch
  event "WORKGROUP_DISPATCH" (s.mayDispatch launch && t != s) (t.vqRefresh (s.launch launch).vq)

/-! ### Packet start (R380, R381) -/

/-- The machine with nothing resident and a trial launch numbered as the next one, for checks 8 and 9. -/
def State.emptied (s : State) (x : Launch) : State :=
  { s with wgs := [], launches := [(s.tag, x)] }

/-- A quad's budgets at their best admit `n` more workgroups of a packet: DEBIT at 0, the COLD-band cap (R192, R380). -/
def State.bestAdmits (s : State) (q n : Nat) (p : Packet) : Bool :=
  sumOf (fun k => (s.packet k).energy) (s.wgsOnQuad q) + n * p.energy ≤ s.budget q (Nat.min 3600 (s.field pkgCap 15 0))
    && sumOf (fun k => (s.packet k).current) (s.wgsOnQuad q) + n * p.current ≤ s.creg (energyBlock q + 4)

/-- A quad takes one more group of `n` workgroups of a launch; `cap`: within its budgets at their best. -/
def State.fill (s : State) (q l n : Nat) (cap : Bool) : Option State :=
  let x := s.launch l
  if !cap || s.bestAdmits q n x.packet then
    (s.placeOn q l ((List.range n).map (x.nextWg + ·))).map fun t => t.updLaunch l fun y => { y with nextWg := y.nextWg + n }
  else none

/-- How many groups of `n` workgroups an empty quad holds, at most `fuel`, and whether a further one of `r` fits beside them
(R380). -/
def State.groupsHeld (s : State) (q l n r : Nat) (cap : Bool) : Nat → Nat × Bool
  | 0 => (0, (s.fill q l r cap).isSome)
  | fuel + 1 =>
    match s.fill q l n cap with
    | some t =>
      let x := t.groupsHeld q l n r cap fuel
      (x.1 + 1, x.2)
    | none => (0, (s.fill q l r cap).isSome)

/-- Checks 8 to 10 of R380. The last quad group of a grid that Q does not divide has the workgroups that remain (R384). -/
def State.capacityCode (s : State) (x : Launch) : Option Nat :=
  let p := x.packet
  let qs := s.quadsOf p.part
  let q := Nat.max 1 p.qgroup
  let n := Nat.min q p.grid
  let t := s.emptied x
  let cap := Nat.min 3600 (s.field pkgCap 15 0)
  let held := qs.map fun i => t.groupsHeld i s.tag q (p.grid % q) true 129
  let full := sumOf (·.1) held
  if !qs.any fun i => (t.fill i s.tag n false).isSome then some 8
  else if p.coResident && (full < p.grid / q || (full == p.grid / q && p.grid % q != 0 && !held.any (·.2))) then some 9
  else if qs.all fun i => s.budget i cap < n * p.energy || s.creg (energyBlock i + 4) < n * p.current then some 10
  else none

/-- The reserved bytes and bits of a packet are not all zero (R379). -/
def State.packetReserved (s : State) (g : Nat) : Bool :=
  let flags := s.memRead (g + 10) 2
  bit flags 3 || flags / 256 != 0 || s.memRead (g + 0x26) 1 / 16 != 0 || s.memRead (g + 0x27) 1 != 0 || s.memRead (g + 0x60) 32 != 0

/-- The VA of the packet at VQHEAD of a slot's queue. -/
def State.packetVa (s : State) (slot v : Nat) : Nat :=
  let b := queueSlot slot
  let i := s.vqHead v % 2 ^ (s.field (b + 8) 19 16 + 4)
  s.field (b + 8) 15 0 * 2 ^ 64 + (s.creg b / 128 * 128 + s.creg (b + 4) * 2 ^ 32 + i * 128) % 2 ^ 64

/-- The context of a slot's queue. -/
def State.slotCtx (s : State) (slot : Nat) : Nat := s.field (queueSlot slot + 12) 15 0

/-- The requester port of the dispatcher, which the spec does not name: its reads are checked in the row of the lowest quad of the
context's partition (DESIGN CHOICE, log 77). -/
def State.dispatchPort (s : State) (ctx : Nat) : Nat := (s.quadsOf (s.ctxPart ctx)).headD 0

/-- The read of the packet at VQHEAD by a slot: its address, or code 11 or 12. -/
def State.packetAt (s : State) (slot v : Nat) : Except Nat Nat :=
  let ctx := s.slotCtx slot
  match s.deviceVa (s.dispatchPort ctx) ctx (s.packetVa slot v) .read with
  | .ok g _ => .ok g
  | .absent _ => .error 11
  | .prot _ => .error 12

/-- A read of a packet that the matrix refuses is audited (R32). -/
def State.auditPacket (s : State) (slot v : Nat) : State :=
  let ctx := s.slotCtx slot
  s.auditTr (s.deviceTr (s.dispatchPort ctx) ctx (s.packetVa slot v) .read).1 ctx (s.packetVa slot v)

/-- A queue may start its next packet (R381): bound, not halted, and the previous packet dispatched: what a discard has returned to it is
to dispatch again (DEDUCED, log 93); SERIAL waits for the end of the earlier launches. -/
def State.mayStart (s : State) (v : Nat) : Bool :=
  (s.slotOf v).isSome && s.vqState v != 4 && s.vqState v != 5 && s.vqHead v != s.vqTail v
    && (s.launchesOf v).getLast?.all fun l => (s.launch l).dispatched

/-- R380, R381: the packet at VQHEAD is refused, or its launch starts. -/
def execPacketStart (vq : Nat) (s : State) : Host.Outcome State Fault Refusal :=
  match s.slotOf vq with
  | none => .refused (.notEnabled "PACKET_START")
  | some slot =>
    if !s.mayStart vq then .refused (.notEnabled "PACKET_START")
    else match s.packetAt slot vq with
      | .error code => .next ((s.auditPacket slot vq).setVq vq 4 code)
      | .ok g =>
        let b := queueSlot slot
        let ctx := s.slotCtx slot
        let x : Launch := { packet := s.readPacket g (s.creg (b + 16)) (s.creg (b + 20)), vq, ctx }
        match packetCode x.packet (s.packetReserved g) (s.ctxPart ctx) with
        | some code => .next (s.setVq vq 4 code)
        | none =>
          match s.capacityCode x with
          | some code => .next (s.setVq vq 4 code)
          | none =>
            if bit x.packet.flags 2 && (s.launchesOf vq).any fun l => !(s.launch l).finished then .refused (.notEnabled "PACKET_START")
            else
              let s1 := { s with launches := SMap.set {} s.launches s.tag x, tag := s.tag + 1 }
              .next ((s1.setCreg (doorbell vq + 4) ((s.vqHead vq + 1) % 2 ^ 32)).vqRefresh vq)

/-! ### The end of a workgroup (R108, R193, R373) -/

/-- Nothing of a workgroup is in flight: requests, copies. A copy is complete once its transfers are performed or refused; an
arrival of it that still waits in the copy unit (R130) holds nothing (log 65, DEDUCED). -/
def State.quiet (s : State) (k : Nat) : Bool :=
  !(s.reqs.any fun r => r.wg == k) && !s.copies.any fun c => c.wg == k && c.left != 0

/-- A workgroup leaves its core. What its storage held stays there if it has ended of itself; the storage of a discarded one is
scrubbed (R426). -/
def State.vacate (s : State) (k : Nat) (st : WgStatus) : State :=
  let s0 := s.freeEngine k
  let g := s0.wg k
  let s1 := if st = .exited then s0.updCore g.core fun c => c.keepStored g (s0.ctxNo k) else s0
  let s2 := { s1 with wgs := SMap.set {} s1.wgs k { launch := g.launch, wgid := g.wgid, status := st, core := g.core } }
  { s2 with matOps := s2.matOps.filter fun m => SMap.get 0 s2.matWg m.id != k
            matWg := s2.matWg.filter fun p => p.2 != k
            sfus := s2.sfus.filter fun x => x.wg != k
            copies := s2.copies.filter fun c => c.wg != k
            late := s2.late.filter fun t => t.place != some k }

/-- R193: every thread has exited and nothing is in flight; or the launch ended under R108 and its requests are dropped. The
quad counts the time that the workgroup ran (R395). -/
def execWorkgroupEnd (wg : Nat) (s : State) : Host.Outcome State Fault Refusal :=
  let g := s.wg wg
  let l := keyLaunch wg
  let done := (g.status == .resident && (s.liveWarps wg).isEmpty)
    || (g.status == .ending && !s.discarding wg)
  if !done || !s.quiet wg || (s.xfers.any fun x => (s.copies.find? fun c => c.id == x.copy).any fun c => c.wg == wg) then
    .refused (.notEnabled "WORKGROUP_END")
  else
    let q := quadOf g.core
    let s1 := if g.status = .resident then
        s.updQuad q fun x => { x with runs := SMap.upd (0, 0) x.runs l fun y => (y.1 + 1, y.2 + (s.cyc.toNat - g.startedAt)) }
      else s
    let s2 := (s1.vacate wg .exited).updLaunch l fun x => { x with ended := x.ended + 1 }
    .next ((s2.settleLaunch l).vqRefresh (s2.launch l).vq)

/-- R108: a station drops a request, or a transfer operation is dropped whole. -/
def execContextEnd (id : Nat) (s : State) : Host.Outcome State Fault Refusal :=
  let ends (k : Nat) : Bool := (s.wg k).status == .ending
  match s.req? id with
  | some r => event "CONTEXT_END" (ends r.wg) { s with reqs := s.reqs.filter fun q => q.id != id }
  | none =>
    match s.xfer? id with
    | some x =>
      match s.copy? x.copy with
      | some c => event "CONTEXT_END" (ends c.wg)
          (let cs := s.copies.map fun (d : Copy) => if d.id = c.id then { d with left := d.left - 1, owed := false } else d
           { s with xfers := s.xfers.filter fun y => y.id != id, copies := cs.filter fun d => d.left != 0 || d.owed })
      | none => .refused (.notEnabled "CONTEXT_END")
    | none => .refused (.notEnabled "CONTEXT_END")

/-! ### Exchanges (R386) -/

/-- The pending warps of a core's partition, not parked by the power limit, that have an unexited thread. -/
def State.pendingIn (s : State) (core part : Nat) : List (Nat × Nat) :=
  (s.warpsOn core).filter fun x =>
    (s.wg x.1).status == .resident && (s.warp x.1 x.2).part == part && !(s.warp x.1 x.2).active && !(s.warp x.1 x.2).parked
      && !(s.warp x.1 x.2).unexited.isEmpty

/-- Sorts warps by a time, then by warp slot. -/
def State.byTime (s : State) (t : Warp → Nat) (ls : List (Nat × Nat)) : List (Nat × Nat) :=
  let key (x : Nat × Nat) : Nat := t (s.warp x.1 x.2) * 256 + (s.warp x.1 x.2).slot
  sortBy (fun a b => key a < key b) ls

/-- The warps that must leave, in order, so that one fits; the first leaves in any case where `always`. -/
def State.leavers (s : State) (x : Nat × Nat) (stay : List (Nat × Nat)) : List (Nat × Nat) → Option (List (Nat × Nat))
  | [] => if s.fitsBeside stay x then some [] else none
  | y :: ys =>
    if s.fitsBeside (y :: ys ++ stay) x then some []
    else (s.leavers x stay ys).map (y :: ·)

/-- Exchanges warps; `none` where the cooler would overflow. -/
def State.exchange (s : State) (core part : Nat) (x : Nat × Nat) (out : List (Nat × Nat)) : Option State :=
  let s1 := out.foldl (fun s y => (s.leaveActive y).updWarp y.1 y.2 fun w => { w with second := 0 }) s
  let s2 := s1.enterActive x
  if s2.coolerHolds core part then some (s2.updCore core fun c => { c with lastExch := SMap.set 0 c.lastExch part s.cyc.toNat })
  else none

/-- R386: the pending warp that has been ready longest enters; stalled warps leave, the longest stalled first, one at least. An
empty active set has none to leave (log 66). -/
def execWarpExchange (core part : Nat) (s : State) : Host.Outcome State Fault Refusal :=
  let act := s.activeIn core part
  let stalled := s.byTime (fun w => w.stalledSince.getD 0) (act.filter fun x => s.stalled x.1 x.2)
  let busy := act.filter fun x => !s.stalled x.1 x.2
  match s.byTime (fun w => w.readySince.getD 0) ((s.pendingIn core part).filter fun x => s.ready x.1 x.2) with
  | [] => .refused (.notEnabled "WARP_EXCHANGE")
  | x :: _ =>
    let out := match stalled with
      | [] => if act.isEmpty then some [] else none
      | y :: ys => (s.leavers x busy ys).map (y :: ·)
    match out.bind fun o => s.exchange core part x o with
    | some t => .next t
    | none => .refused (.notEnabled "WARP_EXCHANGE")

/-- R386: the oldest ready pending warp's turn has lasted 2048 cycles: the active warps that have gone longest without issuing
leave. -/
def execForcedExchange (core part : Nat) (s : State) : Host.Outcome State Fault Refusal :=
  let act := s.byTime (·.lastIssue) (s.activeIn core part)
  match s.byTime (fun w => w.readySince.getD 0) ((s.pendingIn core part).filter fun x => s.ready x.1 x.2) with
  | [] => .refused (.notEnabled "FORCED_EXCHANGE")
  | x :: _ =>
    let turn := Nat.max ((s.warp x.1 x.2).readySince.getD 0) (SMap.get 0 (s.coreAt core).lastExch part)
    match act with
    | [] => .refused (.notEnabled "FORCED_EXCHANGE")
    | y :: ys =>
      let out := (s.leavers x [] ys).map (y :: ·)
      if s.cyc.toNat < turn + 2048 then .refused (.notEnabled "FORCED_EXCHANGE")
      else match out.bind fun o => s.exchange core part x o with
        | some t => .next t
        | none => .refused (.notEnabled "FORCED_EXCHANGE")

/-! ### The control interval (R387, R388, R410, R421) -/

/-- The warps that a quad parks for an interval: those unparked longest, lowest warp slot first (R387). -/
def State.toPark (s : State) (q n : Nat) : List (Nat × Nat) :=
  let all := (List.range 4).flatMap fun c => (s.warpsOn (4 * q + c)).filter fun x => !(s.warp x.1 x.2).unexited.isEmpty
  let key (x : Nat × Nat) : Nat := ((s.warp x.1 x.2).unparked * 256 + (s.warp x.1 x.2).slot) * 4 + (s.wg x.1).core % 4
  (sortBy (fun a b => key a < key b) all).take n

/-- SLACK (R410): the fraction of an interval's cycles in which a `collw` waited only for other packages, in 1/256. -/
def slackShown (waited cycles : Nat) : Nat := if cycles = 0 then 0 else Nat.min 255 (waited * 256 / cycles)

/-- Slack control (R410) at an interval's end: its cycles and those with slack, a step announced by a pace-setter, and whether the cap
binds. The comparisons are with the fraction itself; SLKCTL shows it in 1/256. -/
def State.slackControl (s : State) (waited cycles : Nat) (pace : Option Nat) (capBound : Bool) : State :=
  let c := s.slack
  let now := c.interval + 1
  let high := if cycles < waited * 10 then c.high + 1 else 0
  let paces := (c.paces ++ (pace.map fun p => (now, p)).toList).filter fun p => now < p.1 + 8
  let p := paces.foldl (fun n x => Nat.max n x.2) 0
  let floor := if paces.isEmpty then 6 else p - 1
  let n := s.clockStep
  let free := match c.lastChange with
    | some t => t + 4 ≤ now
    | none => true
  let want :=
    if !free then n
    else if 8 ≤ high && n + 1 ≤ Nat.min 6 floor then n + 1
    else if waited * 100 < 3 * cycles && !capBound then n - 1
    else n
  let m := if bit (s.creg slkCtl) 0 then Nat.min want floor else n
  let v := s.creg slkCtl
  let w := setBits (setBits (setBits (setBits (setBits v 6 4 m) 7 7 (b2n capBound)) 10 8 (if paces.isEmpty then 0 else p)) 11 11
    (b2n !paces.isEmpty)) 23 16 (slackShown waited cycles)
  { s.setCreg slkCtl w with slack :=
      { c with high, lastChange := if m = n then c.lastChange else some now, interval := now, paces } }

/-- A quad's limit binds (R387, R388): the energy measured in the last interval exceeds its share, or that of the last four
their sum. -/
def State.limitBinds (s : State) (quad : Nat) : Bool :=
  let es := (s.quad quad).energies
  let share := s.budget quad (s.capOf (s.quad quad).capBand)
  share < es.headD 0 || 4 * share < sumOf id es

/-- The unexited warps of a quad. -/
def State.quadWarps (s : State) (q : Nat) : List (Nat × Nat) :=
  ((List.range 4).flatMap fun c => s.warpsOn (4 * q + c)).filter fun x => !(s.warp x.1 x.2).unexited.isEmpty

/-- While the pending warps' home rows exceed the cooler, pending warps that fit enter the active set in the places of those that have
left it, the ones that are ready first, longest ready first (R102, R387; log 52). -/
def State.refill (s : State) (core part : Nat) : Nat → State
  | 0 => s
  | n + 1 =>
    if s.coolerHolds core part then s
    else match (s.byTime (fun w => w.readySince.getD s.cyc.toNat) (s.pendingIn core part)).find? (s.fitsBeside (s.activeIn core part)) with
      | some x => (s.enterActive x).refill core part n
      | none => s

/-- The 16 partitions of a quad's cores. -/
def quadParts (q : Nat) : List (Nat × Nat) := (List.range 16).map fun i => (4 * q + i / 4, i % 4)

/-- A quad parks `n` of its warps for an interval; those of the last one are released first (R387). -/
def State.parkFor (s : State) (q n : Nat) : State :=
  let s1 := (s.quadWarps q).foldl (fun s x => s.updWarp x.1 x.2 fun w =>
    if w.parked then { w with parked := false, unparked := s.cyc.toNat } else w) s
  let s2 := (s1.toPark q n).foldl (fun s x => (s.leaveActive x).updWarp x.1 x.2 fun w => { w with parked := true, second := 0 }) s1
  (quadParts q).foldl (fun s p => s.refill p.1 p.2 8) s2

/-- The coolers of a quad hold their pending warps' home rows. -/
def State.quadHolds (s : State) (q : Nat) : Bool := (quadParts q).all fun p => s.coolerHolds p.1 p.2

/-- A quad may park `n` of its warps: one at least where its limit binds, while another runs, else none (R387); the coolers hold the others
with them, unless no number of parked warps lets them (log 52). -/
def State.mayPark (s : State) (q n : Nat) (binds : Bool) : Bool :=
  let r := (s.quadWarps q).length
  if binds && 2 ≤ r then
    1 ≤ n && n < r && ((s.parkFor q n).quadHolds q || !(List.range r).any fun m => 1 ≤ m && (s.parkFor q m).quadHolds q)
  else n == 0

/-- R387, R388, R421: the energy that the quad measured, the number of warps it parks, its ballast and a step that another
package's pace-setter has announced are inputs (log 4, log 52). Where a limit binds, one warp at least is parked while another runs.
The package's slack control runs with quad 0 (R410). -/
def execControlInterval (quad parked ballast energy pace : Nat) (announced : Bool) (s : State) :
    Host.Outcome State Fault Refusal :=
  let s0 := s.updQuad quad fun x => { x with capBand := s.band, energies := (energy :: x.energies).take 4 }
  let s2 := s0.parkFor quad parked
  let s3 := (s2.setCreg (energyBlock quad + 16) (parked % 65536)).setCreg (energyBlock quad + 12) (ballast % 2 ^ 32)
  let bound := s3.quads.keys.any s3.limitBinds
  let s4 := if quad = 0 then
      let t := s3.slackControl s.slack.waited (s.cyc.toNat - s.slack.began) (if announced then some (Nat.min 6 pace) else none) bound
      let u := { t with slack := { t.slack with began := s.cyc.toNat, waited := 0 } }
      if bound then u.signal (.paceSetter u.clockStep) else u
    else s3
  event "CONTROL_INTERVAL" (quad < 288 && !s.halted && s0.mayPark quad parked (s3.limitBinds quad)) s4

end Sys2Proof.Machine
end

