-- ==== Sys2Proof/Machine/Save.lean ====
section
/-! DEFINITION. Pre-emption, the saved image and its restore (R104 to R107, R307, R394 to R402, R426). -/

namespace Sys2Proof.Machine

/-! ### The recall (R104, R105, R307) -/

/-- Every warp of a workgroup that is being saved has stopped. -/
def State.allStopped (s : State) (k : Nat) : Bool := (s.liveWarps k).all fun w => (s.warp k w).stopped

/-- A request may be recorded: its reply is pending, or it is not performed; a store or reduction only once it has parked, an atomic
only before the first of its lanes is performed (R105, R307), nor one that has passed the scope checker (log 36). -/
def Req.recordable (r : Req) : Bool :=
  if r.fetch then true
  else match r.phase with
    | .performed => counterOf r.insn == .ldc
    | .parked | .miss | .waiter | .overflow => true
    | .scratch => false
    | _ => !r.stores && !r.checked && (r.mi.acc == .read || r.slots.all (·.did.isEmpty))

/-- A request waits at its core's network interface for its window target (R27): it has not left its core, so a store of this
kind is recorded too (R307). -/
def State.atInterface (s : State) (r : Req) : Bool :=
  let t := winTarget r.wg r.va
  r.phase == .window && match (s.wg t).status with
    | .waiting => true
    | .saved => r.slots.any fun x => s.winHeld t x.addr r.size
    | _ => false

/-- A transfer operation waits at the network interface for a window target not yet admitted (R134, R396). -/
def State.waitsForTarget (s : State) (c : Copy) (x : Xfer) : Bool :=
  x.phase == .ready && s.copyReleased c x && (if x.isRead then x.dstSpace == 3 else x.srcSpace == 3)
    && (s.wg (winTarget c.wg (if x.isRead then x.dst0 else x.src0))).status == .waiting

/-- A request or a transfer operation of a workgroup parked on a page before a place in the parking order, and is still there. -/
def State.parkedBefore (s : State) (k page order : Nat) : Bool :=
  (s.reqs.any fun q => q.wg == k && !q.fetch && (q.phase == .parked || q.phase == .miss) && q.page == page && q.order < order)
    || s.xfers.any fun y => (y.phase == .parked || y.phase == .miss) && y.page == page && y.order < order
      && (s.copies.any fun c => c.id == y.copy && c.wg == k)

/-- No earlier request of the same threads to the page of a request, nor one that parked before it on the page, is still to
be performed or recorded (R107, R307). -/
def State.recordTurn (s : State) (r : Req) : Bool :=
  (r.phase == .performed && !r.fromL1) ||
    (!(s.reqs.any fun q => q.id != r.id && q.wg == r.wg && !q.fetch && q.phase != .performed && q.va / 2 ^ 18 == r.va / 2 ^ 18
        && q.group < r.group && q.warp == r.warp && q.lanes.any r.lanes.contains)
      && !((r.phase == .parked || r.phase == .miss) && s.parkedBefore r.wg r.page r.order))

/-- A fault-buffer entry's COUNT falls as a request leaves the pool for the image (R52). -/
def State.uncount (s : State) (core ctx page : Nat) : State :=
  let q := quadOf core
  match (List.range 8).find? fun i => s.entryIs q i ctx page with
  | some i =>
    let at_ := faultEntryAt q i + 8
    s.setField at_ 31 16 (s.field at_ 31 16 - 1)
  | none => s

/-- The lanes of a performed request that read an uncorrectable error take DATA_ERR where it is recorded: their escorts return, and they
have no part in the record, which has no place for the error (R306; log 90). -/
def State.recallBad (s : State) (r : Req) : State :=
  (s.returnEscort { r with slots := r.slots.filter (·.bad) }).dataErr r

/-- A performed request without the lanes that read an uncorrectable error; an `ldi` in its second hop has one lane. -/
def Req.sound (r : Req) : Req := { r with slots := r.slots.filter fun x => !x.bad }

/-- A request is recorded; a fetch is only dropped, since its threads fetch afresh. -/
def State.recallReq (s : State) (r : Req) : State :=
  let s1 := { s with reqs := s.reqs.filter fun q => q.id != r.id }
  let s2 := if r.phase == .parked || r.phase == .miss then
      (s1.uncount r.core (s.ctxNo r.wg) r.page).recountPool (quadOf r.core)
    else s1
  if r.fetch then s2.updLanes r.wg r.warp r.lanes fun _ x => x.fetchOver
  else if r.phase == .performed && r.slots.any (·.bad) then
    let s3 := s2.recallBad r
    if r.sound.slots.isEmpty then s3.retire r else s3.updWg r.wg fun g => { g with recs := g.recs ++ [.inl r.sound] }
  else s2.updWg r.wg fun g => { g with recs := g.recs ++ [.inl r] }

/-- A transfer operation is recorded (R396). -/
def State.recallXfer (s : State) (c : Copy) (x : Xfer) : State :=
  let s1 := { s with xfers := s.xfers.filter fun y => y.id != x.id }
  let s2 := if x.phase == .parked || x.phase == .miss then
      (s1.uncount c.core (s.ctxNo c.wg) x.page).recountPool (quadOf c.core)
    else s1
  s2.updWg c.wg fun g => { g with recs := g.recs ++ [.inr x] }

/-- R104, R105: a station records one of the context's requests; a transfer operation only where it is parked or waits for a
window target (R396). -/
def execRecall (id : Nat) (s : State) : Host.Outcome State Fault Refusal :=
  match s.req? id with
  | some r => event "RECALL" (s.saving r.wg && s.allStopped r.wg && (r.recordable || s.atInterface r) && s.recordTurn r) (s.recallReq r)
  | none =>
    match s.xfer? id with
    | some x =>
      match s.copy? x.copy with
      | some c => event "RECALL" (s.saving c.wg && s.allStopped c.wg
          && (if x.phase == .ready then s.waitsForTarget c x else !s.parkedBefore c.wg x.page x.order)) (s.recallXfer c x)
      | none => .refused (.notEnabled "RECALL")
    | none => .refused (.notEnabled "RECALL")

/-! ### Records (R106) -/

/-- Fills a list of bytes with zeros to a length. -/
def padTo (n : Nat) (l : List Byte) : List Byte := l ++ List.replicate (n - l.length) 0

/-- `n` words, lowest address first. -/
def wordBytes (n : Nat) (h : Nat → Word) : List Byte := (List.range n).flatMap fun i => bytesOf 4 (h i).toNat

/-- A record's length: base, slots and escort, to a multiple of 16. -/
def recordLength (lanes esc : Nat) : Nat := (0x30 + 32 * lanes + 4 * esc * lanes + 15) / 16 * 16

/-- A record of the abroad section. -/
def recordBytes (state grp warp seg : Nat) (noEsc : Bool) (i : Instr) (slots : List (Nat × List Byte × List Word)) : List Byte :=
  let n := if noEsc then 0 else i.fields.escCount
  let len := recordLength slots.length n
  padTo len (bytesOf 4 (state + b2n noEsc * 4 + grp * 65536) ++ bytesOf 4 (warp + slots.length * 256 + len / 16 * 65536)
    ++ bytesOf 8 (maskOf (slots.map (·.1))).toNat ++ padTo 16 (encodeBytes i) ++ bytesOf 2 seg ++ bytesOf 14 0
    ++ slots.flatMap (fun x => padTo 32 x.2.1)
    ++ if noEsc then [] else slots.flatMap fun x => wordBytes n fun j => x.2.2.getD j 0)

/-- A request's record: STATE 2 with the reply once it is performed, else STATE 1 with address and operands; an `ldi`'s
second word is its data base (R431). One that L1 answers is not performed at its home, and is issued afresh (R105). -/
def Req.recordOf (r : Req) (grp : Nat) : List Byte :=
  let noEsc := r.noEsc || r.escCount == 0
  let seg := if r.space = 0 ∨ r.space = 2 then r.seg else 0
  if r.phase == .performed && !r.fromL1 then
    recordBytes 2 grp r.warp seg noEsc r.insn (r.slots.map fun x => (x.lane, bytesOf 16 (loadValue r.insn x.reply), x.esc))
  else
    let q := r.afresh
    let second (x : Slot) : Nat := match r.insn with
      | .ldi _ => x.addr2
      | _ => x.x
    recordBytes 1 grp r.warp seg noEsc r.insn (q.slots.map fun x =>
      (x.lane, bytesOf 8 x.addr ++ bytesOf 8 (second x) ++ bytesOf 8 (match r.insn with
        | .ldi _ => 0
        | _ => x.y), x.esc))

/-- A transfer operation's record (R396): its copy's encoding, the segment of a side in `.g` or `.c`, and each lane's addresses. -/
def Xfer.recordOf (x : Xfer) (c : Copy) (grp : Nat) : List Byte :=
  recordBytes 1 grp c.warp (if x.srcSpace = 0 ∨ x.srcSpace = 2 ∨ x.dstSpace = 0 then x.srcSeg else 0) true c.insn
    (x.moves.map fun m => (m.lane, bytesOf 8 m.src ++ bytesOf 8 m.dst, []))

/-- What the records of one instruction share (R106). -/
def recKey : Req ⊕ Xfer → Nat
  | .inl r => 2 * r.group
  | .inr x => 2 * x.copy + 1

/-- The instructions of a workgroup's records, in the order of their first records. -/
def groupsOf (recs : List (Req ⊕ Xfer)) : List Nat := dedup (recs.map recKey)

/-- GRP of a record: 0, 1, … by instruction (R431). -/
def grpOf (recs : List (Req ⊕ Xfer)) (x : Req ⊕ Xfer) : Nat := (groupsOf recs).idxOf (recKey x)

/-- A copy by number. -/
def copyIn (cs : List Copy) (id : Nat) : Option Copy := cs.find? fun c => c.id == id

/-- The abroad section: the records and their terminator. -/
def abroadBytes (recs : List (Req ⊕ Xfer)) (cs : List Copy) : List Byte :=
  (recs.flatMap fun x => match x with
    | .inl r => r.recordOf (grpOf recs x)
    | .inr y => match copyIn cs y.copy with
      | some c => y.recordOf c (grpOf recs x)
      | none => []) ++ List.replicate 16 0

/-! ### The section of a workgroup (R398, R399) -/

/-- A lane's frozen PC: all ones for an exited lane. -/
def Lane.savedPc (x : Lane) (handler : Bool) : Nat :=
  if x.exited then 2 ^ 64 - 1 else if handler then x.frozenPc.toNat else x.pc.toNat

/-- The RESUME mask (R389). -/
def Warp.resume (w : Warp) : BitVec 64 :=
  maskOf (w.unexited.filter fun l => (if w.handler then (w.lane l).frozenWait else (w.lane l).wait).isSome)

/-- A warp record (R399). -/
def Warp.record (w : Warp) (role : Nat) : List Byte :=
  let ls := (List.range 64).map w.lane
  let head := (ls.flatMap fun x => bytesOf 8 (x.savedPc w.handler)) ++ (ls.flatMap fun x => bytesOf 4 x.ydist)
    ++ (ls.flatMap fun x => bytesOf 4 x.seed.toNat) ++ (ls.flatMap fun x => bytesOf 1 x.preds.toNat)
    ++ bytesOf 8 w.resume.toNat ++ bytesOf 8 w.fltmask.toNat ++ bytesOf 8 w.trapc.toNat ++ bytesOf 8 w.trappc.toNat
    ++ bytesOf 16 w.trapva.toNat ++ bytesOf 4 w.fstat.toNat ++ bytesOf 4 role
    ++ padTo 8 (bytesOf 1 w.ldc ++ bytesOf 1 w.stc ++ bytesOf 1 w.cpc ++ bytesOf 1 w.tlc ++ bytesOf 1 w.sfc)
    ++ ((List.range 8).flatMap fun i => bytesOf 2 (SMap.get (0 : Word) w.segs i).toNat)
    ++ (List.range 4).flatMap fun r =>
      let c : Cursor := SMap.get {} w.cursors r
      bytesOf 1 (c.cur + b2n c.lap * 16)
  padTo 0x500 (padTo 0x4A8 head ++ bytesOf 4 (b2n w.handler))
    ++ wordBytes 64 (fun i => SMap.get 0 w.uni i) ++ ((List.range 64).flatMap fun i => bytesOf 2 (SMap.get (0 : BitVec 16) w.books i).toNat)
    ++ ((List.range 16).flatMap fun i => bytesOf 8 (SMap.get (0 : DWord) w.perf i).toNat)
    ++ ((List.range 7).flatMap fun r => wordBytes 64 fun l => SMap.get 0 (SMap.get [] w.hrows (248 + r)) l)
    ++ (ls.flatMap fun x => bytesOf 8 (if w.handler then x.pc.toNat else 0))

/-- A recorded request keeps a register of a lane abroad (R93, R398). -/
def Workgroup.recAbroad (g : Workgroup) (w r l : Nat) : Bool :=
  g.recs.any fun (x : Req ⊕ Xfer) => match x with
    | .inl q => q.warp == w && q.escorted.contains r && q.slots.any (·.lane == l)
    | .inr _ => false

/-- The register part: a register that is abroad holds zero. -/
def Workgroup.registerBytes (g : Workgroup) (p : Packet) : List Byte :=
  (List.range p.warps).flatMap fun w => (List.range (p.home + p.travel)).flatMap fun r => wordBytes 64 fun l =>
    if r = 255 ∨ g.recAbroad w r l then 0 else SMap.get 0 (SMap.get [] (g.warp w).regs r) l

/-- A stage word (R138). -/
def Stage.word (x : Stage) : Nat := b2n x.full + b2n x.ph * 2 + x.gleft * 4 + x.fleft * 512

/-- A landing entry (R135). -/
def Landing.word (x : Landing) : Nat := x.base + x.bar * 2 ^ 20 + b2n x.valid * 2 ^ 31 + x.size * 2 ^ 32

/-- Copy-unit arrivals that wait in the copy unit for a barrier: restored ones, and those of copies that are done (R130). -/
def owedArrivals (cs : List Copy) (b : Nat) : Nat := (cs.filter fun c => c.bar == b && c.owed && c.left == 0).length

/-- The synchronisation part. -/
def Workgroup.syncBytes (g : Workgroup) (p : Packet) (cs : List Copy) : List Byte :=
  let bars := (List.range 16).map g.bar
  padTo 0x200 ((bars.flatMap fun b => bytesOf 8 b.word.toNat) ++ ((List.range 4).flatMap fun r => bytesOf 4 (p.ringcfg.getD r 0))
      ++ ((List.range 32).flatMap fun i => bytesOf 4 (SMap.get ({} : Stage) g.stages i).word))
    ++ ((List.range 8).flatMap fun i => bytesOf 8 (SMap.get ({} : Landing) g.landing i).word)
    ++ (bars.flatMap fun b => bytesOf 8 b.arrived.toNat) ++ (bars.flatMap fun b => bytesOf 8 b.queued.toNat)
    ++ padTo 0xC0 ((List.range 16).flatMap fun b => bytesOf 2 ((g.bar b).cuWait + owedArrivals cs b))

/-- The queue part. -/
def Workgroup.queueBytes (g : Workgroup) : List Byte :=
  (List.range 4).flatMap fun q => padTo (16 * 272) ((g.queue q).flatMap Message.slotBytes)

/-- The full/empty part. -/
def Workgroup.feBytes (g : Workgroup) (p : Packet) : List Byte :=
  (List.range (p.scratch / 32)).map fun i =>
    BitVec.ofNat 8 ((List.range 8).foldl (fun n b => n + b2n (SMap.get false g.fe (8 * i + b)) * 2 ^ b) 0)

/-- The tile part: tiles, then the side registers. -/
def Workgroup.tileBytes (g : Workgroup) (p : Packet) : List Byte :=
  ((List.range p.nacc).flatMap fun t => wordBytes 4096 (g.accAt t)) ++ ((List.range p.nacc).flatMap fun t => wordBytes 64 (g.mxAt t))
    ++ (List.range p.nacc).flatMap fun t => wordBytes 64 (g.smAt t)

/-- The solve-state part of an open region. -/
def Workgroup.solveBytes (g : Workgroup) : List Byte :=
  let r := g.region
  padTo 256 (bytesOf 4 g.svstat.toNat ++ bytesOf 4 g.sviter.toNat ++ bytesOf 4 g.svnorm.toNat ++ bytesOf 4 0
      ++ bytesOf 8 g.svArrived.toNat ++ bytesOf 8 r.body.toNat ++ bytesOf 1 r.carried ++ bytesOf 1 r.image
      ++ bytesOf 1 (r.m + b2n r.two * 8 + b2n r.l2 * 16) ++ bytesOf 1 0 ++ bytesOf 2 r.beta.toNat ++ bytesOf 2 r.lambda.toNat
      ++ bytesOf 1 r.tolReg ++ bytesOf 1 r.ceilReg)
    ++ wordBytes 8192 (fun i => SMap.get 0 g.zp i) ++ wordBytes 8192 fun i => SMap.get 0 g.rp i

/-- A held joint operation: the address of its parameter block and the mask of its contributors (log 21). -/
def MatOp.heldBytes (m : MatOp) : List Byte :=
  padTo 64 (bytesOf 8 m.va.toNat ++ bytesOf 8 (maskOf m.counted).toNat)

/-- Bytes 0x18 to 0x2F of a launch packet (R379). -/
def Packet.declBytes (p : Packet) : List Byte :=
  [p.warps, p.ncopy, p.nmat, p.nvec, p.home, p.travel, p.nbar, p.nring].flatMap (bytesOf 1) ++ bytesOf 2 p.cumask
    ++ [p.nacc, p.nwb, p.nhist, p.qgroup, p.part, 0].flatMap (bytesOf 1) ++ bytesOf 4 p.scratch ++ bytesOf 4 p.tag.toNat

/-- The offsets of the 13 parts of a workgroup's section. -/
def Workgroup.offsets (g : Workgroup) (p : Packet) : List Nat := imgOffsets p g.open_ g.held.length

/-- The section of a workgroup (R398), with its copies and SCOPECHK. -/
def Workgroup.sectionBytes (g : Workgroup) (p : Packet) (ctx : Nat) (scopechk : Word) (cs : List Copy) : List Byte :=
  let abroad := abroadBytes g.recs cs
  let offs := g.offsets p
  let header := bytesOf 4 0x4E395345 ++ bytesOf 4 64 ++ bytesOf 4 g.wgid ++ bytesOf 4 (offs.getD 12 0 + abroad.length)
    ++ bytesOf 4 ctx ++ bytesOf 4 scopechk.toNat ++ p.declBytes ++ offs.flatMap (bytesOf 4)
    ++ bytesOf 4 (b2n g.open_ + g.wgid % Nat.max 1 p.qgroup * 256)
  let part (l : List Byte) : List Byte := padTo (up256 l.length) l
  part header
    ++ part ((List.range p.warps).flatMap fun w => (g.warp w).record ((p.role w).1 + (p.role w).2 * 256))
    ++ part (g.registerBytes p) ++ part (g.syncBytes p cs) ++ part g.queueBytes ++ part ((List.range p.scratch).map g.scratchAt)
    ++ part (g.feBytes p) ++ part (g.tileBytes p)
    ++ part ((List.range p.nwb).flatMap fun n => (List.range 65536).map (g.wbAt n))
    ++ part ((List.range p.nhist).flatMap fun n => wordBytes 8192 (g.hsAt n))
    ++ part (if g.open_ then g.solveBytes else []) ++ part (g.held.flatMap MatOp.heldBytes) ++ abroad

/-- The copies of a workgroup. -/
def State.copiesOf (s : State) (k : Nat) : List Copy := s.copies.filter fun c => c.wg == k

/-- The length of a workgroup's section if its requests were recorded now (R395). -/
def State.sectionLength (s : State) (k : Nat) : Nat :=
  let g := s.wg k
  (g.offsets (s.packet k)).getD 12 0 + 16
    + sumOf (fun r => recordLength r.slots.length (if r.noEsc then 0 else r.escCount))
        (s.reqs.filter fun r => r.wg == k && !r.fetch && (r.recordable || s.atInterface r))
    + sumOf (fun x => recordLength x.moves.length 0) (s.xfers.filter fun x => (s.copiesOf k).any fun c => c.id == x.copy && (x.phase != .ready || s.waitsForTarget c x))

/-! ### Estimates and choice (R395) -/

/-- The workgroups of a context resident on a quad. -/
def State.preemptees (s : State) (q ctx : Nat) : List Nat :=
  (s.wgsOnQuad q).filter fun k => s.ctxNo k == ctx && (s.wg k).status == .resident

/-- Edrain; `none` is infinite. -/
def State.eDrain (s : State) (q : Nat) (ks : List Nat) : Option Nat :=
  ks.foldl (fun e k =>
    let n := SMap.get (0, 0) (s.quad q).runs (keyLaunch k)
    match e with
    | none => none
    | some m =>
      if n.1 = 0 ∨ (s.packet k).coResident then none else some (Nat.max m (n.2 / n.1 - (s.cyc.toNat - (s.wg k).startedAt)))) (some 0)

/-- DL of a warp: its last `yield`'s class, or the packet's (R197, R395). -/
def State.deadlineClass (s : State) (k w : Nat) : Nat := (s.warp k w).dl.getD (bits (s.packet k).flags 7 4)

/-- The arithmetic-clock cycles for which an operation occupies the array: K for BF16 and FP16, four times that for FP32, half for the
narrow formats, and 64 to fill and drain; one without a reduction length none (R341's figures, log 78). -/
def MatOp.arrayCycles (m : MatOp) : Nat :=
  if (blockOp m.insn).isNone then 0
  else
    let k := (blockOf m.block).k
    64 + match fmtOf m.insn with
      | 0 | 1 => k
      | 2 => 4 * k
      | _ => k / 2

/-- The array time that is left for the accepted operations of some workgroups: of the core with the most (R346, log 78). -/
def State.arrayTime (s : State) (ks : List Nat) : Nat :=
  let on (core : Nat) : Nat := sumOf (fun k => if (s.wg k).core = core then sumOf MatOp.arrayCycles (s.opsOf k) else 0) ks
  ks.foldl (fun n k => Nat.max n (s.arithToCyc (on (s.wg k).core))) 0

/-- Esave for sections of `b` bytes: the terms of R395's table, which has none for the remaining array time, and that time, which R346
says the estimate counts (DESIGN CHOICE, log 78). -/
def State.eSave (s : State) (ks : List Nat) (b : Nat) : Nat :=
  let dl := ks.foldl (fun m k => (List.range (s.warpCount k)).foldl (fun m w => Nat.max m (s.deadlineClass k w)) m) 0
  2000 * 2 ^ dl + 4000 + (b + 63) / 64 + s.arrayTime ks

/-- The choice: 1 drain, 2 save, 3 discard. -/
def State.choose (s : State) (q : Nat) (ks : List Nat) (edrain : Option Nat) (esave d : Nat) : Nat :=
  let mode := s.field (preemptBlock q + 8) 1 0
  let fixed := ks.any fun k => !s.restartable (keyLaunch k)
  if mode != 0 then mode
  else if (match edrain with
      | some e => decide (e ≤ d)
      | none => false) then 1
  else if esave ≤ d || fixed then 2
  else 3

/-- Puts a choice in force: a discard ends the workgroups of restartable launches (R396). -/
def State.carryOut (s : State) (q ctx : Nat) (p : Preempt) : State :=
  let s1 := (s.updQuad q fun x => { x with preempt := some p }).setField (preemptBlock q + 12) 1 0 p.choice
  if p.choice = 3 then
    (s1.preemptees q ctx).foldl (fun s k => if s.restartable (keyLaunch k) then s.endWg k else s) s1
  else s1

/-- R394 to R396. -/
def execPreemptGo (agent quad ctx : Nat) (s : State) : Host.Outcome State Fault Refusal :=
  let b := preemptBlock quad
  event "PREEMPT_GO" (quad < 288) (s.agentWrite agent b fun s =>
    if bit (s.creg (b + 12)) 4 then s
    else
      let ks := s.preemptees quad ctx
      let len := sumOf s.sectionLength ks
      let ed := s.eDrain quad ks
      let es := s.eSave ks len
      let sat (n : Nat) : Nat := Nat.min n 0xFFFFFFFF
      let choice := s.choose quad ks ed es (s.creg (b + 4))
      let s1 := ((((s.setField b 15 0 ctx).setCreg (b + 0x10) ((ed.map sat).getD 0xFFFFFFFF)).setCreg (b + 0x14) (sat es)).setCreg
        (b + 0x18) (sat (1000 + (len + 255) / 256))).setCreg (b + 12) (16 + Nat.min ks.length 0xFFFF * 65536)
      let s2 := s1.updQuad quad fun x =>
        { x with refusing := if x.refusing.contains ctx then x.refusing else x.refusing ++ [ctx] }
      s2.carryOut quad ctx { ctx, deadline := s.creg (b + 4), started := s.cyc.toNat, choice })

/-- R394, R396: the quad admits the context again. -/
def execPreemptLift (agent quad ctx : Nat) (s : State) : Host.Outcome State Fault Refusal :=
  event "PREEMPT_LIFT" (quad < 288) (s.agentWrite agent (preemptBlock quad) fun s =>
    (s.setField (preemptBlock quad) 15 0 ctx).updQuad quad fun x => { x with refusing := x.refusing.filter fun c => c != ctx })

/-- R395: a drain that has not finished by its deadline is decided again, with Edrain infinite and D zero. -/
def execDrainDeadline (quad : Nat) (s : State) : Host.Outcome State Fault Refusal :=
  match (s.quad quad).preempt with
  | some p =>
    let ks := s.preemptees quad p.ctx
    event "DRAIN_DEADLINE" (p.choice == 1 && !ks.isEmpty && p.started + p.deadline ≤ s.cyc.toNat)
      (s.carryOut quad p.ctx { p with choice := s.choose quad ks none (s.eSave ks 0) 0 })
  | none => .refused (.notEnabled "DRAIN_DEADLINE")

/-! ### Scrubbing (R426) -/

/-- The TLB and walk-cache entries of a context are discarded. -/
def State.scrubTlbs (s : State) (ctx : Nat) : State :=
  let h (l : List TlbEntry) : List TlbEntry := l.filter fun t => t.ctx != ctx
  { s with cores := s.cores.map fun (c : Nat × Core) => (c.1, { c.2 with tlb := h c.2.tlb })
           quads := s.quads.map fun (q : Nat × Quad) => (q.1, { q.2 with tlb := h q.2.tlb, walks := h q.2.walks }) }

/-- The partition's LLC set range holds nothing (R83). -/
def State.scrubLlc (s : State) (part : Nat) : State :=
  let pb := Nat.min 4 (s.field llcPCfg 2 0)
  { s with llc := s.llc.filter fun e =>
      !(e.1 / 2048 / 288 == s.pkg && e.1 % 2048 / 2 ^ (11 - pb) == part % 2 ^ pb) }

/-- Scrubs what a context held; completion is entered in the audit log with the context number (log 7). The storage of its
workgroups is no longer theirs: `vacate`. -/
def State.scrub (s : State) (ctx : Nat) : State := ((s.scrubTlbs ctx).scrubLlc (s.ctxPart ctx)).auditEvent 3 ctx 0

/-! ### Completion (R396) -/

/-- A workgroup's section can be written: its warps have stopped, nothing of it is in flight, and its accepted operations are
complete. -/
def State.saveReady (s : State) (k : Nat) : Bool :=
  s.allStopped k && (s.wg k).mixing.isNone && !(s.reqs.any fun r => r.wg == k) && !(s.sfus.any fun x => x.wg == k) && (s.opsOf k).isEmpty
    && !s.xfers.any fun x => (s.copiesOf k).any fun c => c.id == x.copy

/-- A discarded workgroup has ended. -/
def State.discardReady (s : State) (k : Nat) : Bool :=
  s.quiet k && !s.xfers.any fun x => (s.copiesOf k).any fun c => c.id == x.copy

/-- What State keeps of a lane of a saved workgroup: what it waits for (log 22). -/
def Lane.kept (x : Lane) : Lane := { exited := x.exited, wait := x.wait, frozenWait := x.frozenWait }

/-- What State keeps of a saved workgroup beside its section (log 22). -/
def Workgroup.kept (g : Workgroup) (image : Nat) (cs : List Copy) : Workgroup :=
  let warps := g.warps.map fun (p : Nat × Warp) =>
    (p.1, ({ lanes := p.2.lanes.map fun (q : Nat × Lane) => (q.1, q.2.kept), pendTraps := p.2.pendTraps, dl := p.2.dl, tileErrs := p.2.tileErrs, lost := p.2.lost } : Warp))
  { launch := g.launch, wgid := g.wgid, status := .saved, core := g.core, warps, bars := g.bars, landing := g.landing,
    queues := g.queues, stages := g.stages, svstat := g.svstat, sviter := g.sviter, svnorm := g.svnorm, held := g.held,
    collNext := g.collNext, collLog := g.collLog, image, recs := g.recs, recCopies := cs }

/-- Writes the section of a workgroup at a package physical address; it is saved. Gives the place of the next section, at the
next multiple of 256 (log 23). -/
def State.saveAt (s : State) (k at_ : Nat) : State × Nat :=
  let s0 := (List.range (s.warpCount k)).foldl (fun s w => s.leaveActive (k, w)) (s.payAt k none)
  let g := s0.wg k
  let cs := s0.copiesOf k
  let ctx := s0.ctxNo k
  let bytes := g.sectionBytes (s0.packet k) ctx (s0.ctx ctx).scopechk cs
  let s1 := (s0.memWriteBytes (s0.own at_) bytes).freeEngine k
  ({ s1 with wgs := SMap.set {} s1.wgs k (g.kept at_ cs)
             copies := s1.copies.filter fun c => c.wg != k
             late := s1.late.filter fun t => t.place != some k || t.owed.isSome },
    at_ + up256 bytes.length)

/-- A package physical address held in a pair of registers laid out as SAVEPTR (R394). -/
def State.pointer (s : State) (off : Nat) : Nat := s.field off 31 8 * 256 + s.field (off + 4) 19 0 * 2 ^ 32

/-- R396: the last workgroup of a drain has ended, every section of a save is written, or every discarded workgroup has ended;
the storage is scrubbed and BUSY falls. -/
def execPreemptComplete (quad : Nat) (s : State) : Host.Outcome State Fault Refusal :=
  match (s.quad quad).preempt with
  | none => .refused (.notEnabled "PREEMPT_COMPLETE")
  | some p =>
    let ks := (s.wgsOnQuad quad).filter fun k => s.ctxNo k == p.ctx
    let saves := ks.filter s.saving
    let drops := ks.filter fun k => (s.wg k).status == .ending && s.discarding k
    let ready :=
      if p.choice = 1 then ks.isEmpty
      else ks.length == saves.length + drops.length && saves.all s.saveReady && drops.all s.discardReady
    let b := preemptBlock quad
    let s1 := (saves.foldl (fun (a : State × Nat) k => a.1.saveAt k a.2) (s, s.pointer (b + 0x20))).1
    let s2 := drops.foldl (fun s k =>
      ((s.vacate k .discarded).updLaunch (keyLaunch k) fun x => { x with returned := x.returned ++ [keyWgid k] }).vqRefresh
        (s.launch (keyLaunch k)).vq) s1
    let s3 := if p.choice = 1 then s2 else s2.scrub p.ctx
    let stat := s3.creg (b + 12)
    let late := decide (p.deadline < s.cyc.toNat - p.started)
    let s4 := s3.setCreg (b + 12) (setBits (setBits (setBits stat 4 4 0) 5 5 (b2n late)) 6 6 (b2n (p.choice == 3 && !saves.isEmpty)))
    event "PREEMPT_COMPLETE" ready (s4.updQuad quad fun x => { x with preempt := none })

end Sys2Proof.Machine
end

