-- ==== Sys2Proof/Machine/Restore.lean ====
section
/-! DEFINITION. The restore of a saved workgroup from its section (R107, R400 to R402). -/

namespace Sys2Proof.Machine

/-! ### Reading a section -/

/-- The listed entries of a map given by a function on `n` keys. -/
def tabulate {α : Type} [DecidableEq α] (d : α) (n : Nat) (h : Nat → α) : SMap α :=
  (List.range n).filterMap fun i => if h i = d then none else some (i, h i)

/-- A word of memory. -/
def State.wordAt (s : State) (a : Nat) : Word := BitVec.ofNat 32 (s.memRead a 4)

/-- A lane of a warp record; `old`: what State keeps of it (log 22). A sleep ends at a restore (R260). -/
def State.loadLane (s : State) (a : Nat) (handler : Bool) (old : Lane) (l : Nat) : Lane :=
  let pc := s.memRead (a + 8 * l) 8
  let resume := bit (s.memRead (a + 0x440) 8) l
  let awake (t : Option Wait) : Option Wait := match t with
    | some { what := .sleep _ wake, len } => some { what := .sleep 0 wake, len }
    | t => t
  { pc := if handler then BitVec.ofNat 64 (s.memRead (a + 0xE00 + 8 * l) 8) else BitVec.ofNat 64 pc,
    exited := pc == 2 ^ 64 - 1,
    wait := if handler then awake old.wait else if resume then awake old.wait else none,
    ydist := s.memRead (a + 0x200 + 4 * l) 4 % 2 ^ 17, seed := s.wordAt (a + 0x300 + 4 * l),
    preds := BitVec.ofNat 7 (s.memRead (a + 0x400 + l) 1), frozenPc := if handler then BitVec.ofNat 64 pc else 0,
    frozenWait := if handler && resume then awake old.frozenWait else none }

/-- A warp of its record at `a` and its registers at `r`, of `rows` rows (R399); reserved bits read as zero (R5). -/
def State.loadWarp (s : State) (a r rows : Nat) (old : Warp) : Warp :=
  let rd (o n : Nat) : Nat := s.memRead (a + o) n
  let handler := bit (rd 0x4A8 4) 0
  let row (b : Nat) : SMap Word := tabulate 0 64 fun l => s.wordAt (b + 4 * l)
  { lanes := tabulate {} 64 fun l => s.loadLane a handler (old.lane l) l,
    regs := tabulate [] rows fun i => row (r + 256 * i),
    hrows := (List.range 7).foldl (fun m i => SMap.set [] m (248 + i) (row (a + 0x700 + 256 * i))) [],
    uni := tabulate 0 64 fun i => s.wordAt (a + 0x500 + 4 * i),
    segs := tabulate 0 8 fun i => BitVec.ofNat 32 (rd (0x480 + 2 * i) 2),
    fstat := BitVec.ofNat 32 (rd 0x470 4) &&& 0x7F, ldc := rd 0x478 1, stc := rd 0x479 1, cpc := rd 0x47A 1, tlc := rd 0x47B 1,
    sfc := rd 0x47C 1, books := tabulate 0 64 fun i => BitVec.ofNat 16 (rd (0x600 + 2 * i) 2),
    trapc := BitVec.ofNat 32 (rd 0x450 4) &&& 0xF11F, trappc := BitVec.ofNat 64 (rd 0x458 8), trapva := BitVec.ofNat 80 (rd 0x460 16),
    fltmask := BitVec.ofNat 64 (rd 0x448 8), handler, perf := tabulate 0 16 fun i => BitVec.ofNat 64 (rd (0x680 + 8 * i) 8),
    dl := old.dl, pendTraps := old.pendTraps, tileErrs := old.tileErrs, lost := old.lost,
    cursors := tabulate {} 4 fun i => ({ cur := bits (rd (0x490 + i) 1) 3 0, lap := bit (rd (0x490 + i) 1) 4 } : Cursor) }

/-- A barrier of the synchronisation part at `a`; `old` counts its phases, `owed` the arrivals of kept copies. A copy-unit
arrival was applied in the phase if the arrivals outnumber the warps that arrived. -/
def State.loadBar (s : State) (a b : Nat) (old : Barrier) (owed : Nat) : Barrier :=
  let v := s.memRead (a + 8 * b) 8
  let arrived := BitVec.ofNat 64 (s.memRead (a + 0x240 + 8 * b) 8)
  { memb := bits v 6 0, pend := bits v 14 8, phases := if old.ph = bit v 15 then old.phases else old.phases + 1,
    cu := bit v 16, refused := bit v 17, qarr := bits v 24 18, qcu := bit v 25, bytes := BitVec.ofNat 32 (v / 2 ^ 32), arrived,
    queued := BitVec.ofNat 64 (s.memRead (a + 0x2C0 + 8 * b) 8), cuWait := s.memRead (a + 0x340 + 2 * b) 2 - owed,
    cuHere := (lanesOf arrived).length < bits v 6 0 - bits v 14 8 }

/-- A ring stage of its word (R138). -/
def stageOf (v : Nat) : Stage := { full := bit v 0, ph := bit v 1, gleft := bits v 8 2, fleft := bits v 15 9 }

/-- A landing entry of its word (R135). -/
def landingOf (v : Nat) : Landing := { base := bits v 19 0, bar := bits v 23 20, valid := bit v 31, size := bits v 52 32 }

/-- The messages of a queue of the queue part at `a`; `old`: as State keeps them, with their senders' cores (log 22). -/
def State.loadQueue (s : State) (a q : Nat) (old : List Message) : List Message :=
  (List.range 16).filterMap fun i =>
    let m := a + (q * 16 + i) * 272
    if s.memRead (m + 8) 1 = 1 then
      some { mask := BitVec.ofNat 64 (s.memRead m 8), scope := s.memRead (m + 9) 1, core := ((old[i]?).map (·.core)).getD 0, words := tabulate 0 64 fun l => s.wordAt (m + 16 + 4 * l) }
    else none

/-- The solve region of its part at `a` (R398). -/
def State.loadRegion (s : State) (a : Nat) (g : Workgroup) : Workgroup :=
  let rd (o n : Nat) : Nat := s.memRead (a + o) n
  { g with
    svstat := s.wordAt a &&& 0x7F03FF, sviter := s.wordAt (a + 4), svnorm := s.wordAt (a + 8), svArrived := BitVec.ofNat 64 (rd 0x10 8),
    region := { m := bits (rd 0x22 1) 2 0, two := bit (rd 0x22 1) 3, l2 := bit (rd 0x22 1) 4, beta := BitVec.ofNat 16 (rd 0x24 2),
                lambda := BitVec.ofNat 16 (rd 0x26 2), carried := rd 0x20 1, image := rd 0x21 1, tolReg := rd 0x28 1,
                ceilReg := rd 0x29 1, body := BitVec.ofNat 64 (rd 0x18 8) },
    zp := tabulate 0 8192 fun i => s.wordAt (a + 256 + 4 * i), rp := tabulate 0 8192 fun i => s.wordAt (a + 33024 + 4 * i) }

/-- A workgroup as its section at a pod-global address gives it, with what State keeps of it. -/
def State.loadSection (s : State) (k a : Nat) : Workgroup :=
  let old := s.wg k
  let p := s.packet k
  let o (i : Nat) : Nat := a + s.memRead (a + 0x30 + 4 * i) 4
  let rows := p.home + p.travel
  let sync := o 3
  let g : Workgroup :=
    { launch := old.launch, wgid := old.wgid,
      warps := (List.range p.warps).map fun w => (w, s.loadWarp (o 1 + 4096 * w) (o 2 + w * rows * 256) rows (old.warp w)),
      scratch := tabulate 0 p.scratch fun i => s.mem.byte (s.canon (o 5 + i)),
      fe := tabulate false (p.scratch / 4) fun i => bit (s.memRead (o 6 + i / 8) 1) (i % 8),
      acc := tabulate [] p.nacc fun t => tabulate 0 4096 fun i => s.wordAt (o 7 + 16384 * t + 4 * i),
      mx := tabulate [] p.nacc fun t => tabulate negInf 64 fun i => s.wordAt (o 7 + 16384 * p.nacc + 256 * t + 4 * i),
      sm := tabulate [] p.nacc fun t => tabulate 0 64 fun i => s.wordAt (o 7 + 16640 * p.nacc + 256 * t + 4 * i),
      wb := tabulate [] p.nwb fun n => tabulate 0 65536 fun i => s.mem.byte (s.canon (o 8 + 65536 * n + i)),
      hs := tabulate [] p.nhist fun n => tabulate 0 8192 fun i => s.wordAt (o 9 + 32768 * n + 4 * i),
      bars := tabulate {} p.nbar fun b => s.loadBar sync b (old.bar b) (owedArrivals old.recCopies b),
      stages := tabulate {} 32 fun i => if i / 8 < p.nring ∧ i % 8 < (p.ring (i / 8)).1 then stageOf (s.memRead (sync + 0x90 + 4 * i) 4) else {},
      landing := tabulate {} 8 fun i => landingOf (s.memRead (sync + 0x200 + 8 * i) 8),
      queues := tabulate [] 4 fun q => s.loadQueue (o 4) q (old.queue q),
      svstat := old.svstat, sviter := old.sviter, svnorm := old.svnorm, held := old.held, collNext := old.collNext,
      collLog := old.collLog }
  if bit (s.memRead (a + 0x64) 4) 0 then s.loadRegion (o 10) g else g

/-! ### The checks (R400) -/

/-- The saved workgroup that a section's header names: of its context, with its WGID and declarations, not yet restored. -/
def State.sectionOwner (s : State) (a : Nat) : Option Nat :=
  s.wgs.keys.find? fun k =>
    (s.wg k).status == .saved && s.ctxNo k == s.memRead (a + 0x10) 4 && keyWgid k == s.memRead (a + 8) 4
      && bytesVal (s.packet k).declBytes == s.memRead (a + 0x18) 24

/-- Check 5: the magic number, the lengths and the part offsets; the section's workgroup. -/
def State.checkSection (s : State) (a : Nat) : Option Nat :=
  match s.sectionOwner a with
  | none => none
  | some k =>
    let g := s.wg k
    let isOpen := bit (s.memRead (a + 0x64) 4) 0
    let offs := imgOffsets (s.packet k) isOpen g.held.length
    let given := (List.range 13).map fun i => s.memRead (a + 0x30 + 4 * i) 4
    let recs := s.abroadRecords 65536 (a + offs.getD 12 0)
    let end_ := recs.foldl (fun n r => n + Nat.max 1 (s.memRead (r + 4) 4 / 65536) * 16) (offs.getD 12 0) + 16
    if s.memRead a 4 == 0x4E395345 && given == offs && s.memRead (a + 12) 4 == end_ then some k else none

/-- How many records a section holds. -/
def State.recordCount (s : State) (a : Nat) : Nat := (s.abroadRecords 65536 (a + s.memRead (a + 0x60) 4)).length

/-- Checks 2 to 4 of a section on a core: the code of the first that fails. A core admits only workgroups of its quad's partition (R448), and keeps the bound of its coolers (R102). -/
def State.checkCore (s : State) (k a core : Nat) : Option Nat :=
  if s.memRead (a + 4) 4 != 64 then some 2
  else if !s.quadIn (quadOf core) (s.ctxPart (s.ctxNo k)) || !s.coreAdmitsWith core (s.packet k) (32 * s.recordCount a)
      || !(s.occupy k core (s.loadSection k a)).coolersHold core then some 3
  else if bit (s.memRead (a + 0x64) 4) 0 && !s.engineFree core then some 4
  else none

/-! ### Re-issue (R107, R401) -/

/-- The instruction of a record (R106); one whose bytes decode to none keeps the instruction that was recorded. -/
def State.recordInsn (s : State) (a : Nat) (was : Instr) : Instr :=
  match decode ((List.range 16).map fun i => s.mem.byte (s.canon (a + 0x10 + i))) with
  | .ok (i, _) => i
  | .error _ => was

/-- A request as its record at `a` gives it, on a core (R106, R107): INSN, LANEMASK, WHO and GRP, and STATE 2 with its reply, else to be
issued afresh with its recorded operands. The rest is what the device kept of the request `r`. -/
def State.reissued (s : State) (recs : List (Req ⊕ Xfer)) (r : Req) (a core : Nat) : Req :=
  let insn := s.recordInsn a r.insn
  let f := insn.fields
  let lanes := lanesOf (BitVec.ofNat 64 (s.memRead (a + 8) 8))
  let noEsc := bit (s.memRead a 4) 2 || f.escCount == 0
  let n := if noEsc then 0 else f.escCount
  let done := s.memRead a 4 % 4 = 2
  let space := (memOf insn).space
  let seg := if space = 0 ∨ space = 2 then s.memRead (a + 0x20) 2 else 0
  let slots : List Slot := (lanes.zip (List.range lanes.length)).map fun (p : Nat × Nat) =>
    let b := a + 0x30 + 32 * p.2
    let esc := (List.range n).map fun j => s.wordAt (a + 0x30 + 32 * lanes.length + 4 * (n * p.2 + j))
    if done then { lane := p.1, addr := seg * 2 ^ 64, reply := s.memRead b 16, esc }
    else
      let addr := s.memRead b 8 + seg * 2 ^ 64
      match insn with
      | .ldi _ => { lane := p.1, addr, addr2 := s.memRead (b + 8) 8, esc }
      | _ => { lane := p.1, addr, x := s.memRead (b + 8) 8, y := s.memRead (b + 16) 8, esc }
  let phase : Phase :=
    if done then .performed
    else if space = 3 then .window
    else match insn with
      | .ldfe _ | .stfe _ => .overflow
      | _ => .translate
  let q : Req :=
    { id := r.id, group := ((groupsOf recs).getD (s.memRead (a + 2) 2) (2 * r.group)) / 2, wg := r.wg,
      warp := s.memRead (a + 4) 1 % 64, core, insn, pc := r.pc, space, seg, slots, phase, escBase := f.escBase,
      escCount := f.escCount, noEsc, handler := r.handler }
  let at_ : HamperAt := if phase == .overflow || (phase == .window && s.targetWaits q) then .base else .packet
  { q with hampers := q.hamperSizes.map fun _ => at_ }

/-- Re-issues the records of a section in its order, on a core. A transfer operation reads its source again: its record holds the
two addresses, with their segment, alone (R396); one that had parked keeps its place (R107). -/
def State.reissueAll (s : State) (recs : List (Req ⊕ Xfer)) (at_ : List Nat) (core : Nat) : State :=
  (recs.zip at_).foldl (fun (s : State) (p : (Req ⊕ Xfer) × Nat) =>
    match p with
    | (.inl r, a) => { s with reqs := s.reqs ++ [{ s.reissued recs r a core with order := s.seq + 1 }], seq := s.seq + 1 }
    | (.inr x, a) =>
      let lanes := lanesOf (BitVec.ofNat 64 (s.memRead (a + 8) 8))
      let seg := s.memRead (a + 0x20) 2 * 2 ^ 64
      let moves : List Move := (lanes.zip (List.range lanes.length)).map fun (p : Nat × Nat) =>
        { lane := p.1, src := s.memRead (a + 0x30 + 32 * p.2) 8 + (if x.srcSpace = 0 ∨ x.srcSpace = 2 then seg else 0)
          dst := s.memRead (a + 0x38 + 32 * p.2) 8 + if x.dstSpace = 0 then seg else 0 }
      let parked := x.phase == .parked || x.phase == .miss
      { s with xfers := s.xfers ++ [{ x with moves, phase := .ready, isRead := false, data := [], order := if parked then s.seq + 1 else 0 }]
               seq := if parked then s.seq + 1 else s.seq }) s

/-- A section's workgroup takes its place on a core (R401), whose loads read afresh: the core's L1 may hold lines older than what the
workgroup's threads have read or written on another (R146). -/
def State.restoreOn (s : State) (k a core : Nat) : State :=
  let old := s.wg k
  let at_ := s.abroadRecords 65536 (a + s.memRead (a + 0x60) 4)
  let g := s.loadSection k a
  let s1 := ((s.moveSight k (s.warpCount k) old.core core).occupy k core g).l1Clear core
  let s2 := if g.open_ then s1.updCore core fun c => { c with engine := some k } else s1
  let s3 := { s2 with copies := s2.copies ++ old.recCopies.map fun (c : Copy) => { c with core } }
  let s4 := s3.reissueAll old.recs at_ core
  s4.updQuad (quadOf core) fun x => { x with refusing := x.refusing.filter fun c => c != s4.ctxNo k }

/-! ### The command (R402) -/

/-- The workgroups and addresses of `n` consecutive sections; `none` where check 5 fails, or two name one workgroup. -/
def State.sectionsAt (s : State) : Nat → Nat → Option (List (Nat × Nat))
  | 0, _ => some []
  | n + 1, at_ =>
    let a := s.own at_
    match s.checkSection a, s.sectionsAt n (at_ + up256 (s.memRead (a + 12) 4)) with
    | some k, some l => if l.any fun x => x.1 == k then none else some ((k, a) :: l)
    | _, _ => none

/-- Restores sections: the first on a given core of the quad, the others on the lowest-numbered cores that pass. Gives the code
of the first failing check. -/
def State.restoreAll (s : State) (q : Nat) (core : Option Nat) : List (Nat × Nat) → Except Nat State
  | [] => .ok s
  | (k, a) :: l =>
    let tries := match core with
      | some c => [c]
      | none => (List.range 4).map (4 * q + ·)
    match tries.find? fun c => (s.checkCore k a c).isNone with
    | some c => (s.restoreOn k a c).restoreAll q none l
    | none => .error ((s.checkCore k a (tries.headD (4 * q))).getD 3)

/-- The restore of a command: its state, or the code of the first failing check of R400, over all the sections. -/
def State.tryRestore (s : State) (q core n at_ : Nat) : Except Nat State :=
  match s.sectionsAt n at_ with
  | none => .error 5
  | some l => if l.any fun x => s.memRead (x.2 + 4) 4 != 64 then .error 2 else s.restoreAll q (some core) l

/-- R400 to R402. A refusal writes nothing to the core; with FORCE it is signalled and logged. -/
def execRestoreGo (agent quad : Nat) (cmd : Word) (s : State) : Host.Outcome State Fault Refusal :=
  let b := preemptBlock quad
  let c := cmd.toNat
  event "RESTORE_GO" (quad < 288) (s.agentWrite agent (b + 0x28) fun s =>
    if !bit c 31 then s
    else
      let at_ := s.pointer (b + 0x2C)
      let ks := ((s.sectionsAt (bits c 3 2 + 1) at_).getD []).map Prod.fst
      let refreshed (t : State) : State := (dedup (ks.map fun k => (s.launch (keyLaunch k)).vq)).foldl (fun t v => t.vqRefresh v) t
      match s.tryRestore quad (4 * quad + bits c 1 0) (bits c 3 2 + 1) at_ with
      | .ok t => refreshed (t.setField (b + 0x34) 3 0 0)
      | .error code =>
        let s1 := s.setField (b + 0x34) 3 0 code
        let s2 := refreshed (ks.foldl (fun s k => s.updWg k fun g => { g with refused := true }) s1)
        if bit c 8 then
          let part := s.field (qpart quad) 3 0
          ((s2.setField (b + 0x34) 4 4 1).signal .restoreRefused).logEvent part 7 (s.memRead (s.own at_ + 0x10) 2) 0xFFFFFFFF 0xFFFFFFFF
            (bytesOf 4 code ++ bytesOf 8 at_)
        else s2)

/-- R402: RCAP is cleared by writing 1. -/
def execRststatWrite (agent quad : Nat) (v : Word) (s : State) : Host.Outcome State Fault Refusal :=
  let off := preemptBlock quad + 0x34
  event "RSTSTAT_WRITE" (quad < 288) (s.agentWrite agent off fun s => if bit v.toNat 4 then s.setField off 4 4 0 else s)

end Sys2Proof.Machine
end

