-- ==== Sys2Proof/Machine/Thermal.lean ====
section
/-! DEFINITION. Bands, sensors, the cool-down state machine and the patrol scrub (R411 to R417). Times are counted in CYC, which
keeps its rate through every change of band (R412). -/

namespace Sys2Proof.Machine

/-- CYC cycles in a second (R70). -/
def second : Nat := 2000000000

/-! ### Sensors (R411, R413) -/

/-- A temperature in kelvin as TSENS counts it. -/
def kelvin (n : Nat) : Nat := 16 * n

/-- The band of a temperature without a history (R411). -/
def bandOf (t : Nat) : Nat := if t ≤ kelvin 95 then 0 else if t ≤ kelvin 150 then 1 else if t ≤ kelvin 330 then 2 else 3

/-- The highest temperature at which a stack leaves a band downward: 5 K below its lower bound (R411). -/
def leaveBelow (b : Nat) : Nat := kelvin (if b = 1 then 90 else if b = 2 then 145 else 325)

/-- The band below, as far as a temperature allows. -/
def fallTo (t : Nat) : Nat → Nat
  | 0 => 0
  | b + 1 => if t ≤ leaveBelow (b + 1) then fallTo t b else b + 1

/-- The measured band after a sample (R411). -/
def nextBand (old t : Nat) : Nat := if old < bandOf t then bandOf t else fallTo t old

/-- The sensors of stacks with a sample. -/
def State.sensors (s : State) : List Nat := (List.range 27).filter fun i => bit (s.creg (tsens i)) 18

/-- A sensor's measured band. -/
def State.sensed (s : State) (i : Nat) : Nat := s.field (tsens i) 17 16

/-- The virtual die of a sensor (R413). -/
def sensorDie (i : Nat) : Nat := if i < 9 then i else (i - 9) / 2

/-- One sample of a sensor of an active die; samples older than 60 s are not kept. -/
def State.sampleOne (s : State) (i t : Nat) : State :=
  if 27 ≤ i ∨ s.nact s.pkg ≤ sensorDie i then s
  else
    let b := if bit (s.creg (tsens i)) 18 then nextBand (s.sensed i) t else bandOf t
    let now := s.cyc.toNat
    let old := (SMap.get [] s.thermal.samples i).filter fun x => now ≤ x.1 + 60 * second
    { s.setCreg (tsens i) (t % 65536 + b * 65536 + 2 ^ 18) with
      thermal := { s.thermal with samples := SMap.set [] s.thermal.samples i ((now, t) :: old) } }

/-- A stack cools faster than 3 K a minute between its oldest sample of the last 60 s and its newest (R414). -/
def coolsFast (l : List (Nat × Nat)) : Bool :=
  match l.head?, l.getLast? with
  | some n, some o => decide (kelvin 3 * (n.1 - o.1) < (o.2 - n.2) * (60 * second))
  | _, _ => false

/-! ### The state machine (R414) -/

/-- The warmest measured band of a stack, as an operating band that is never COLD; WARM while no stack is valid (log 25). -/
def State.warmest (s : State) : Nat :=
  match s.sensors with
  | [] => 2
  | l => Nat.min 2 (Nat.max 1 (l.foldl (fun m i => Nat.max m (s.sensed i)) 0))

/-- Sets the operating band. -/
def State.setBand (s : State) (b : Nat) : State := s.setField cdStat 5 4 b

/-- Entries to EXCURSION in the last 24 h, and the service request of repeated ones (R415). -/
def State.countExcursions (s : State) : State :=
  let l := s.thermal.excursions.filter fun t => s.ptimeNs.toNat < t + day
  let s1 := { s with thermal := { s.thermal with excursions := l } }.setField cdStat 23 16 (Nat.min 255 l.length)
  if 4 ≤ l.length then s1.serviceRequest 4 else s1

/-- Enters a state with its operating band. -/
def State.enterState (s : State) (n : Nat) : State :=
  let s1 := { s.setField cdStat 2 0 n with thermal := { s.thermal with entered := s.cyc.toNat } }
  let s2 := if n = 5 then
      { s1 with thermal := { s1.thermal with excursions := s.ptimeNs.toNat :: s1.thermal.excursions } }.countExcursions
    else s1
  match n with
  | 0 => s2.setBand 2
  | 2 | 3 => s2.setBand 1
  | 4 => s2.setBand 0
  | _ => s2.setBand s.warmest

/-- A timed condition that has held since `since` is met: the time starts at entry to the state, if that is later (R414). -/
def State.held (s : State) (since : Option Nat) (time : Nat) : Bool :=
  match since with
  | some t => decide (Nat.max t s.thermal.entered + time ≤ s.cyc.toNat)
  | none => false

/-- The exit that a sample's conditions give (R414); a stack in band 2 or above counts as WARM (log 25). -/
def State.thermalExit (s : State) : Option Nat :=
  let l := s.sensors
  let cold := !l.isEmpty && l.all fun i => s.sensed i == 0
  let warm := !l.isEmpty && l.all fun i => 2 ≤ s.sensed i
  let uncold := l.any fun i => s.sensed i != 0
  match s.thermalState with
  | 1 => if cold then some 2 else none
  | 2 =>
    if uncold then some 1
    else if s.held s.thermal.lowSince (Nat.max 1 (s.field soakT 15 0) * second) then some 3 else none
  | 3 | 4 => if uncold then some 5 else none
  | 5 => if s.held s.thermal.warmSince second then some 6 else if s.held s.thermal.lowSince (60 * second) then some 3 else none
  | 6 => if warm then some 0 else none
  | _ => none

/-- Since when all stacks are at or below 90 K, and since when some stack is WARM. -/
def State.noteSince (s : State) : State :=
  let l := s.sensors
  let low := !l.isEmpty && l.all fun i => s.field (tsens i) 15 0 ≤ kelvin 90
  let warm := l.any fun i => 2 ≤ s.sensed i
  let mark (b : Bool) (o : Option Nat) : Option Nat := if b then some (o.getD s.cyc.toNat) else none
  { s with thermal := { s.thermal with lowSince := mark low s.thermal.lowSince, warmSince := mark warm s.thermal.warmSince } }

/-- TRIP: a stack is in measured band 3; Zorner and the host are notified, and issue stops until every stack is at or below 325 K
(R417). -/
def State.noteTrip (s : State) : State :=
  let trip := s.sensors.any fun i => s.sensed i == 3
  let hot := s.sensors.any fun i => kelvin 325 < s.field (tsens i) 15 0
  let s0 := { s with thermal := { s.thermal with stopped := trip || (s.thermal.stopped && hot) } }
  let s1 := s0.setField cdStat 9 9 (b2n trip)
  if trip && !bit (s.creg cdStat) 9 then s1.signal .trip else s1

/-- SLEWERR: a stack cools too fast in COOLDOWN (R414). -/
def State.noteSlew (s : State) : State :=
  if s.thermalState = 1 && s.thermal.samples.any fun p => coolsFast p.2 then s.setField cdStat 8 8 1 else s

/-- R411, R413 to R415, R417: the samples, then the exit that applies; the band follows the stacks where the state says so. After a
failed boot only the host port and BOOTSTAT are active (R422), here as in the other events. -/
def execSensorSample (temps : List (Nat × BitVec 16)) (s : State) : Host.Outcome State Fault Refusal :=
  let s1 := temps.foldl (fun s t => s.sampleOne t.1 t.2.toNat) s
  let s2 := (s1.noteSince.noteTrip.noteSlew).countExcursions
  event "SENSOR_SAMPLE" (!s.halted) (match s2.thermalExit with
    | some n => s2.enterState n
    | none => if s2.thermalState = 1 ∨ s2.thermalState = 5 ∨ s2.thermalState = 6 then s2.setBand s2.warmest else s2)

/-! ### Commands (R415) -/

/-- An OP written to CDCTL: an OP for which the state lists no exit, or a reserved one, sets CMDERR. -/
def State.cdctl (s : State) (agent op : Nat) : State :=
  s.agentWrite agent cdCtl fun s =>
    let st := s.thermalState
    if op = 0 then s
    else if op = 1 ∧ st = 0 then s.enterState 1
    else if op = 2 ∧ 1 ≤ st ∧ st ≤ 5 then s.enterState 6
    else s.setField cdStat 10 10 1

/-- R414, R415. -/
def execBeginCooldown (agent : Nat) (s : State) : Host.Outcome State Fault Refusal := .next (s.cdctl agent 1)
/-- R414, R415. -/
def execBeginWarmup (agent : Nat) (s : State) : Host.Outcome State Fault Refusal := .next (s.cdctl agent 2)
/-- R415. -/
def execCdctlRefusedOp (agent : Nat) (op : BitVec 4) (s : State) : Host.Outcome State Fault Refusal := .next (s.cdctl agent op.toNat)

/-- R414: the cold timings take effect together. -/
def execCalibrationComplete (s : State) : Host.Outcome State Fault Refusal :=
  event "CALIBRATION_COMPLETE" (s.thermalState == 3 && !s.halted) (s.enterState 4)

/-- R415: SLEWERR and CMDERR are cleared by writing 1. -/
def execCdstatWrite (agent : Nat) (v : Word) (s : State) : Host.Outcome State Fault Refusal :=
  .next (s.agentWrite agent cdStat fun s =>
    let old := s.creg cdStat
    (s.setField cdStat 8 8 (b2n (bit old 8 && !bit v.toNat 8))).setField cdStat 10 10 (b2n (bit old 10 && !bit v.toNat 10)))

/-- R416: a row is read, corrected and written back; an uncorrectable error retires it (R306). -/
def execPatrolScrub (pa : Nat) (s : State) : Host.Outcome State Fault Refusal :=
  let g := s.own pa
  event "PATROL_SCRUB" (!s.halted && pa < pkgSpan && (s.homeDie g).isSome) (if s.badAt (s.lineOf g) 128 then s.retireLine g else s)

end Sys2Proof.Machine
end

