-- ==== Sys2Proof/Machine/Trust.lean ====
section
/-! DEFINITION. Measured boot, partitions, scrubbing, the audit log, health and sparing (R422 to R430). -/

namespace Sys2Proof.Machine

/-! ### The audit log (R427) -/

/-- A write of one byte of the audit window: byte 0 discards a partial entry, byte 63 commits the entry, of which the engine
assigns bytes 0 to 15. -/
def State.auditByte (s : State) (i : Nat) (b : Byte) : State :=
  let l := if i = 0 then [b] else (s.auditPart ++ List.replicate (i - s.auditPart.length) 0).take i ++ b :: s.auditPart.drop (i + 1)
  if i = 63 then { s.auditAppend (l.drop 16) with auditPart := [] } else { s with auditPart := l }

/-- R427. -/
def execAuditEntryCommit (agent : Nat) (byte63 : Byte) (s : State) : Host.Outcome State Fault Refusal :=
  .next (s.agentWrite agent (auditWindow + 60) fun s => s.auditByte 63 byte63)

/-- R427: the engine appends the signed head; its type is the model's (log 7). -/
def execAuditHeadSign (s : State) : Host.Outcome State Fault Refusal :=
  event "AUDIT_HEAD_SIGN" (!s.halted) s.auditHeadSign

/-! ### Boot (R422, R423) -/

/-- The registers of the own package at their Reset columns, and everything that a package reset ends (R422, R193): what
State keeps is DRAM with its errors and retired rows, the other packages, the model's own inputs, and CYC's and PTIME's reset
values (R270). PCCNT counts the pseudo-channels that stay retired, and PCRET and SRQ follow it (R428, R429). -/
def State.afterReset (s : State) : State :=
  let t : State := { State.reset with
    pkg := s.pkg, mem := s.mem, badMem := s.badMem, retired := s.retired, cregs := s.cregs.erase s.pkg, dieMap := s.dieMap,
    rows := s.rows, retiredChannels := s.retiredChannels, tag := s.tag, seq := s.seq, sched := s.sched, ticks := s.ticks,
    paths := s.paths, choices := s.choices, free := s.free }
  let n := s.retiredChannels.length
  if n = 0 then t
  else
    let u := t.setField health 23 16 (Nat.min 255 n)
    if 64 < n then u.serviceRequest 3 else u

/-- The active stacks after authentication: virtual dies are given in ascending physical order (R16, R423). -/
def State.mapDies (s : State) (ok : BitVec 9) : State :=
  let dies := (List.range 9).filter fun i => ok.getLsbD i
  { s with dieMap := (List.range dies.length).map fun i => (i, dies.getD i 0) }

/-- A CONNROW register without the bits of ports of the virtual dies from `n` on (R423). -/
def maskRow (n w v : Nat) : Nat :=
  (List.range 32).foldl (fun m j =>
    let port := 32 * w + j
    let gone := (port < 288 && 32 * n ≤ port) || (288 ≤ port && port < 576 && 288 + 32 * n ≤ port)
    if bit v j && !gone then m + 2 ^ j else m) 0

/-- Isolation of the stacks that fail authentication: CONNROW, NACT, the die map, EXCL and the service request (R423). -/
def State.isolate (s : State) (ok : BitVec 9) : State :=
  let n := ((List.range 9).filter fun i => ok.getLsbD i).length
  if n = 9 then s.mapDies ok
  else
    let rows := [297, 299].flatMap fun r => (List.range 19).map fun w => (r, w)
    let s1 := rows.foldl (fun s x => s.setCreg (connRow x.1 x.2) (maskRow n x.2 (s.creg (connRow x.1 x.2)))) s
    ((s1.setField stripeCfg 11 8 n).mapDies ok).serviceRequest 1

/-- R422, R423: the boot ROM's steps; the first failing step halts the cluster with its code in BOOTSTAT. The signature's check
and the stacks' authentication are inputs (log 12). -/
def execPackageReset (image : Option (List Byte)) (signed : Bool) (authOk : BitVec 9) (started : Bool) (s : State) :
    Host.Outcome State Fault Refusal :=
  let s0 := s.afterReset
  .next (match image with
    | none => s0.setCreg bootStat 1
    | some img =>
      let m := (Config.sha384 img).toNat
      let s1 := (List.range 12).foldl (fun s i => s.setCreg (meas0 + 4 * i) (m / 2 ^ (32 * i) % 2 ^ 32)) s0
      if !signed then s1.setCreg bootStat 2
      else
        let s2 := (s1.setCreg bootStat (authOk.toNat * 16)).isolate authOk
        if !started then s2.setField bootStat 3 0 3
        else s2.auditAppend (bytesOf 2 4 ++ bytesOf 2 0 ++ bytesOf 44 m))

/-! ### Partitions (R425) -/

/-- A region has a resident context: a workgroup on a core of its die (log 26). -/
def State.regionBusy (s : State) (region : Nat) : Bool :=
  s.wgs.keys.any fun k => dieOf (s.wg k).core == region && ((s.wg k).status == .resident || (s.wg k).status == .ending)

/-- R425. -/
def execMeshcfgWrite (agent region : Nat) (v : Word) (s : State) : Host.Outcome State Fault Refusal :=
  event "MESHCFG_WRITE" (region < 9) (s.agentWrite agent (meshCfg region) fun s =>
    if s.regionBusy region then s.setField health 5 5 1 else s.setCreg (meshCfg region) (v &&& 0xFFFF0003).toNat)

/-- R428: CFGERR is cleared by writing 1. -/
def execHealthWrite (agent : Nat) (v : Word) (s : State) : Host.Outcome State Fault Refusal :=
  .next (s.agentWrite agent health fun s => if bit v.toNat 5 then s.setField health 5 5 0 else s)

/-- R430: LOST is cleared by writing 1. -/
def execEvstatWrite (agent part : Nat) (v : Word) (s : State) : Host.Outcome State Fault Refusal :=
  event "EVSTAT_WRITE" (part < 16) (s.agentWrite agent (eventBlock part + 0x14) fun s =>
    if bit v.toNat 0 then s.setField (eventBlock part + 0x14) 0 0 0 else s)

/-! ### Remap (R61) -/

/-- R16, R61: a virtual die in service is mapped to another stack. The contexts are suspended: no workgroup is resident. Their TLBs and
walk caches are discarded; PTEs and HOMEVD stay. A virtual die that had the stack takes the former one. -/
def State.remapDie (s : State) (vd stack : Nat) : Host.Outcome State Fault Refusal :=
  let was := SMap.get 0 s.dieMap vd
  let dies := s.dieMap.map fun (p : Nat × Nat) => (p.1, if p.1 = vd then stack else if p.2 = stack then was else p.2)
  event "REMAP" (vd < s.nact s.pkg && stack < 9 && !s.halted && s.wgs.keys.all fun k => (s.wg k).status != .resident && (s.wg k).status != .ending)
    { s with dieMap := dies
             cores := s.cores.map fun (c : Nat × Core) => (c.1, { c.2 with tlb := [] })
             quads := s.quads.map fun (q : Nat × Quad) => (q.1, { q.2 with tlb := [], walks := [] }) }

/-! ### Soft errors (R428) -/

/-- ECC corrects soft errors: SOFTCNT counts them in thousands. -/
def State.countSoft (s : State) (n : Nat) : State :=
  { s with softErrors := s.softErrors + n }.setField health 31 24 (Nat.min 255 ((s.softErrors + n) / 1000))

/-! ### Release (R426) -/

/-- The storage that workgroups of a context have left on any core is zero again (R426). -/
def State.scrubStores (s : State) (ctx : Nat) : State :=
  { s with cores := s.cores.map fun (c : Nat × Core) => (c.1, c.2.scrubLoose ctx) }

/-- R426, R396: a context of which no workgroup is left is released: its storage is scrubbed, its quads admit the number
again, and the audit log records it. -/
def execScrubOnRelease (ctx : Nat) (s : State) : Host.Outcome State Fault Refusal :=
  let idle := s.wgs.keys.all fun k => s.ctxNo k != ctx || (s.wg k).status == .exited || (s.wg k).status == .waiting
  let s1 := (s.scrub ctx).scrubStores ctx
  let quads := s1.quads.map fun (q : Nat × Quad) => (q.1, { q.2 with refusing := q.2.refusing.filter fun c => c != ctx })
  event "SCRUB_ON_RELEASE" idle { s1 with quads, ctxs := s1.ctxs.erase ctx }

/-! ### Sparing (R429) -/

/-- A spare takes a core's index, or the core is disabled where its die has none left. -/
def State.spareCore (s : State) (core : Nat) : State :=
  let off := coreStat (dieOf core)
  let n := s.field off 2 0
  let s := { s with rows := s.rows.filter fun x => match x with
      | .store c _ | .baseCamp c => c != core
      | .restStop .. => true }
  if n = 0 then
    let s1 := (s.setField off 15 8 (Nat.min 255 (s.field off 15 8 + 1))).updCore core fun _ => { disabled := true }
    s1.serviceRequest 2
  else (s.setField off 2 0 (n - 1)).updCore core fun _ => {}

/-- R429: a core fails its self-test before any context exists, or its storage has reported more than 16 uncorrectable errors in
24 h. While workgroups are resident it admits no other; once they have left, a spare takes its index. -/
def execCoreFailure (core : Nat) (s : State) : Host.Outcome State Fault Refusal :=
  let c := s.coreAt core
  let many := 16 < (c.errorTimes.filter fun t => s.ptimeNs.toNat < t + day).length
  event "CORE_FAILURE" (!s.halted && core < 128 * s.nact s.pkg && !c.disabled && (s.ctxs.isEmpty || many || c.failing))
    (if (s.wgsOn core).isEmpty then s.spareCore core else s.updCore core fun c => { c with failing := true })

/-- R429: a pseudo-channel that fails calibration is retired whole. -/
def execPseudoChannelRetire (stack channel : Nat) (s : State) : Host.Outcome State Fault Refusal :=
  let key := stack * channelsPerStack + channel
  event "PSEUDO_CHANNEL_RETIRE" (!s.halted && stack < 18 && channel < channelsPerStack && !s.retiredChannels.contains key) (s.retireChannel key)

end Sys2Proof.Machine
end

