-- ==== Sys2Proof/Machine/Fabric.lean ====
section
/-! DEFINITION. The outside of the package (R18, R21 to R23, R31, R404 to R408, R422): the on-chip map, register writes, host and
management-cluster accesses, scale-up paths, and the time base. -/

namespace Sys2Proof.Machine

/-! ### The on-chip map (R21 to R23) -/

/-- The warp that holds a warp slot of a core. -/
def State.slotHolder (s : State) (core slot : Nat) : Option (Nat × Nat) := (s.warpsOn core).find? fun x => (s.warp x.1 x.2).slot == slot

/-- The workgroup that holds an object of a kind on a core, and its own number for it. -/
def State.objectHolder (s : State) (core n : Nat) (f : Workgroup → List Nat) : Option (Nat × Nat) :=
  ((s.wgsOn core).find? fun k => (f (s.wg k)).contains n).map fun k => (k, (f (s.wg k)).idxOf n)

/-- The window object of a workgroup that lies at an offset of a core's window: workgroup, kind and offset (R21, R25); none
where the offset is reserved, or names storage that no workgroup holds. -/
def State.chipObject (s : State) (core o : Nat) : Option (Nat × Nat × Nat) :=
  if (s.coreAt core).disabled then none
  else if o < 0x1000000 then
    match s.slotHolder core (o / 65536) with
    | some (k, w) =>
      if o / 256 % 256 < (s.packet k).home + (s.packet k).travel then some (k, 0, w * 65536 + o % 65536) else none
    | none => none
  else if o < 0x1100000 then
    let a := o - 0x1000000
    ((s.wgsOn core).find? fun k => (s.wg k).scratchBase ≤ a && a < (s.wg k).scratchBase + (s.packet k).scratch).map
      fun k => (k, 1, a - (s.wg k).scratchBase)
  else if o < 0x1140000 then
    (s.objectHolder core ((o - 0x1100000) / 16384) (·.tileNos)).map fun x => (x.1, 2, x.2 * 16384 + o % 16384)
  else if o < 0x1141000 then
    (s.objectHolder core ((o - 0x1140000) / 256) (·.tileNos)).map fun x => (x.1, 3, x.2 * 256 + o % 256)
  else if o < 0x1142000 then
    (s.objectHolder core ((o - 0x1141000) / 256) (·.tileNos)).map fun x => (x.1, 3, 0x1000 + x.2 * 256 + o % 256)
  else if 0x1180000 ≤ o && o < 0x1200000 then
    (s.objectHolder core ((o - 0x1180000) / 65536) (·.wbNos)).map fun x => (x.1, 4, x.2 * 65536 + o % 65536)
  else if 0x1200000 ≤ o && o < 0x1240000 then
    (s.objectHolder core ((o - 0x1200000) / 32768) (·.hsNos)).map fun x => (x.1, 5, x.2 * 32768 + o % 32768)
  else none

/-- A word of the on-chip map. Storage that no workgroup holds keeps what was left or written there; a register of no warp reads
as zero. -/
def State.chipWord (s : State) (off : Nat) : Nat :=
  let core := off / 2 ^ 25
  let o := off % 2 ^ 25 / 4 * 4
  match s.chipObject core o with
  | some (k, kind, o) => ((s.wg k).objWord kind o).toNat
  | none => if isStore o then bytesVal ((List.range 4).map fun i => SMap.get 0 (s.coreAt core).loose (o + i)) else 0

/-- Writes a word of the on-chip map; a register of no warp, and what lies on no core, is discarded. -/
def State.setChipWord (s : State) (off v : Nat) : State :=
  let core := off / 2 ^ 25
  let o := off % 2 ^ 25 / 4 * 4
  match s.chipObject core o with
  | some (k, kind, o) => s.updWg k fun g => g.setObjWord kind o (BitVec.ofNat 32 v)
  | none =>
    if isStore o && !(s.coreAt core).disabled then
      s.updCore core fun c =>
        { c with loose := (List.range 4).foldl (fun m i => SMap.set 0 m (o + i) (BitVec.ofNat 8 (v / 256 ^ i))) c.loose }
    else s

/-- The access must wait: it names a register that is abroad (R22). -/
def State.chipHeld (s : State) (off size : Nat) : Bool :=
  (List.range ((size + 3) / 4)).any fun i =>
    match s.chipObject ((off + 4 * i) / 2 ^ 25) ((off + 4 * i) % 2 ^ 25 / 4 * 4) with
    | some (k, 0, o) => s.abroad k (o / 65536) (o / 256 % 256) (o % 256 / 4)
    | _ => false

/-! ### Register writes (R5, R31) -/

/-- The next state of an outcome, or the same state. -/
def nextOr (s : State) (o : Host.Outcome State Fault Refusal) : State :=
  match o with
  | .next t => t
  | _ => s

/-- The four bytes of a word written to the audit window. -/
def State.auditWord (s : State) (off : Nat) (v : Word) : State :=
  (List.range 4).foldl (fun s i => s.auditByte (off - auditWindow + i) (BitVec.ofNat 8 (v.toNat / 256 ^ i))) s

/-- A write of a slot register: the queues bound before and after it are looked at afresh (R377, R378). -/
def State.writeSlot (s : State) (slot off : Nat) (v : Word) : State :=
  let vq (s : State) : Nat := s.field (queueSlot slot + 8) 31 20
  let s1 := s.plainWrite off v
  (s1.vqRefresh (vq s)).vqRefresh (vq s1)

/-- SLKCTL: with EN clear the step is FIXED; a change of step counts as one in the interval under way (R410). -/
def State.writeSlk (s : State) (v : Word) : State :=
  let s1 := s.plainWrite slkCtl v
  if bit (s1.creg slkCtl) 0 then s1
  else
    let n := Nat.min 6 (s1.field slkCtl 3 1)
    let s2 := s1.setField slkCtl 6 4 n
    if n = s.clockStep then s2 else { s2 with slack := { s2.slack with lastChange := some (s.slack.interval + 1) } }

/-- The registers whose write is a command, clears bits, or has a further effect; `none`: a plain write. -/
def State.regCommand (s : State) (agent off : Nat) (v : Word) : Option State :=
  let n := v.toNat
  match inArray off 0x7000000 288 0x40, inArray off 0x5000000 4096 0x1000, inArray off 0x4000000 48 0x40,
      inArray off 0x2000000 16 0x100, inArray off 0x1000000 288 0x1000, inArray off 0xC00 16 0x20, inArray off 0xA00 9 4 with
  | some (q, o), _, _, _, _, _, _ =>
    if o = 0 then
      some (if bit n 31 then nextOr s (execPreemptGo agent q (n % 65536) s)
        else if bit n 30 then nextOr s (execPreemptLift agent q (n % 65536) s) else s.plainWrite off v)
    else if o = 0x28 then some (nextOr s (execRestoreGo agent q v s))
    else if o = 0x34 then some (nextOr s (execRststatWrite agent q v s)) else none
  | _, some (q, o), _, _, _, _, _ =>
    if o = 0 then some (nextOr s (execDoorbellWrite agent q v s))
    else if o = 12 then
      some (if n % 16 = 1 then nextOr s (execLaunchCancel agent q s)
        else if n % 16 = 2 then nextOr s (execResumeAfterRefusal agent q s) else s)
    else none
  | _, _, some (q, _), _, _, _, _ => some (s.writeSlot q off v)
  | _, _, _, some (p, o), _, _, _ =>
    if o = 0 then some (s.fltcmd agent p (n % 16)) else if o = 0x14 then some (nextOr s (execFltstatWrite agent p v s)) else none
  | _, _, _, _, some (q, o), _, _ =>
    if o = 0 then some (nextOr s (execFbstatWrite agent q v s)) else if o = 4 then some (nextOr s (execFbovfWrite agent q v s)) else none
  | _, _, _, _, _, some (p, o), _ => if o = 0x14 then some (nextOr s (execEvstatWrite agent p v s)) else none
  | _, _, _, _, _, _, some (r, _) => some (nextOr s (execMeshcfgWrite agent r v s))
  | _, _, _, _, _, _, _ =>
    if off = cdCtl then some (s.cdctl agent (n % 16))
    else if off = cdStat then some (nextOr s (execCdstatWrite agent v s))
    else if off = health then some (nextOr s (execHealthWrite agent v s))
    else if off = slkCtl then some (s.writeSlk v)
    else if auditWindow ≤ off && off < auditWindow + 64 then some (s.auditWord off v)
    else none

/-- A write of a 32-bit register by a requester: refused and audited where its row or the Access column forbids it; a register
that nobody writes, or an offset without one, discards it (R5, R31, R32). -/
def State.writeReg (s : State) (agent off : Nat) (v : Word) : State :=
  match cregAccess off with
  | some (.nobody, _) | none => if s.connected s.pkg agent 576 then s else s.auditEvent 2 agent off
  | some _ =>
    if !s.mayWrite agent off then s.auditEvent 2 agent off
    else (s.regCommand agent off v).getD (s.plainWrite off v)

/-- R5, R30, R31, R42, R83, R97, R377, R385, R425, R448. -/
def execRegisterWrite (agent off : Nat) (v : Word) (s : State) : Host.Outcome State Fault Refusal :=
  event "REGISTER_WRITE" (off % 4 == 0 && off < 2 ^ 32) (s.writeReg agent off v)

/-- The 4-byte words that an access of a size covers. -/
def wordsOf (size : Nat) : List Nat := List.range ((size + 3) / 4)

/-- A write of 1 to 16 bytes within the register space: words are written whole, lowest first; the bytes of a part of a word
replace those that the register shows (log 27). -/
def State.pokeReg (s : State) (agent off size v : Nat) : State :=
  if auditWindow ≤ off ∧ off < auditWindow + 64 then
    if s.mayWrite agent off then (List.range size).foldl (fun s i => s.auditByte (off - auditWindow + i) (BitVec.ofNat 8 (v / 256 ^ i))) s
    else s.auditEvent 2 agent off
  else if size < 4 then
    let at_ := off / 4 * 4
    s.writeReg agent at_ (BitVec.ofNat 32 (setBits (s.creg at_) (8 * (off % 4 + size) - 1) (8 * (off % 4)) v))
  else (wordsOf size).foldl (fun s i => s.writeReg agent (off + 4 * i) (BitVec.ofNat 32 (v / 2 ^ (32 * i)))) s

/-! ### Accesses by physical address (R14, R18, R404) -/

/-- A package physical address is reserved (R14, R15): outside the map, on a die that is not active, or at an offset of the control-register
space that holds no register (DESIGN CHOICE, log 100: R14 lists the whole region, and no rule calls such offsets reserved). -/
def State.reservedPa (s : State) (pa : Nat) : Bool :=
  match regionOf pa with
  | .dieWindow d _ => s.nact s.pkg ≤ d
  | .striped off => s.stripedSize s.pkg ≤ off
  | .chip off => s.nact s.pkg ≤ off / 2 ^ 32
  | .creg off => (cregAccess (off / 4 * 4)).isNone
  | .host _ => false
  | .reserved => true

/-- An access of 1 to 16 bytes meets a reserved address, in any of its words. -/
def State.reservedAccess (s : State) (pa size : Nat) : Bool := (wordsOf size).any fun i => s.reservedPa (pa + 4 * i)

/-- A requester's row permits the port of an address (R32). -/
def State.reaches (s : State) (agent pa : Nat) : Bool :=
  match s.portOf (s.own pa) with
  | some p => s.connected s.pkg agent p
  | none => false

/-- The bytes from an offset on that words give. -/
def wordsVal (word : Nat → Nat) (off size : Nat) : Nat :=
  (wordsOf size).foldr (fun i v => word (off / 4 * 4 + 4 * i) + v * 2 ^ 32) 0 / 256 ^ (off % 4) % 256 ^ size

/-- Reads 1 to 16 bytes by physical address. An uncorrectable error is never returned (R306): the value is free (log 28). -/
def State.devRead (s : State) (pa size : Nat) : Nat × State :=
  match regionOf pa with
  | .creg off => (wordsVal s.creg off size, s)
  | .chip off => (wordsVal s.chipWord off size, s)
  | _ =>
    let g := s.own pa
    if s.badAt g size then
      (wordsVal (fun i => (Config.freeWord (s.free + i / 4)).toNat) 0 size, { s with free := s.free + 4 }.retireLine g)
    else (s.memRead g size, s)

/-- Writes 1 to 16 bytes by physical address. -/
def State.devWrite (s : State) (agent pa size v : Nat) : State :=
  match regionOf pa with
  | .creg off => s.pokeReg agent off size v
  | .chip off =>
    if size < 4 then s.setChipWord off (setBits (s.chipWord off) (8 * (off % 4 + size) - 1) (8 * (off % 4)) v)
    else (wordsOf size).foldl (fun s i => s.setChipWord (off + 4 * i) (v / 2 ^ (32 * i))) s
  | _ => (s.memWrite (s.own pa) size v).cleanMem (s.own pa) size

/-- Sizes and alignment of an access by physical address: a wider one is a set of these (R141; log 27). -/
def accessOk (addr size : Nat) : Bool := [1, 2, 4, 8, 16].contains size && addr % size == 0

/-- An access waits for a register abroad (R22). -/
def State.devHeld (s : State) (pa size : Nat) : Bool :=
  match regionOf pa with
  | .chip off => s.chipHeld off size
  | _ => false

/-- The package physical address of a host request: BAR0 the register space, BAR2 the aperture at HAPBASE (R404). -/
def State.barAddr (s : State) (bar addr : Nat) : Option Nat :=
  if bar = 0 && addr < 2 ^ 32 then some (cregBase + addr)
  else if bar = 2 && addr < 2 ^ 36 then some (s.field (hapBase + 4) 19 4 * 2 ^ 36 + addr)
  else none

/-- R404: reads that are reserved or forbidden complete with all ones, writes are dropped; both are audited. While the boot
sequence has halted the cluster, only BOOTSTAT answers (R422). -/
def execHostRequest (bar addr size : Nat) (write : Option QWord) (s : State) : Host.Outcome State Fault Refusal :=
  match s.barAddr bar addr with
  | none => .refused (.notEnabled "HOST_REQUEST")
  | some pa =>
    let dead := s.reservedAccess pa size || !s.reaches hostPort pa || (s.halted && pa / 4 * 4 != cregBase + bootStat)
    if !accessOk addr size || (!dead && s.devHeld pa size) then .refused (.notEnabled "HOST_REQUEST")
    else match write with
      | none =>
        if dead then .next ((s.auditEvent 1 hostPort pa).signal (.replyToHost (2 ^ (8 * size) - 1)))
        else .next ((s.devRead pa size).2.signal (.replyToHost (s.devRead pa size).1))
      | some v => .next (if dead then s.auditEvent 1 hostPort pa else s.devWrite hostPort pa size v.toNat)

/-- R404: an AtomicOp request of the host is completed as Unsupported Request. -/
def State.hostAtomic (s : State) : State := s.signal .unsupportedRequest

/-- R407: an access of the scale-out ports, for transfers between pods, enters as requester port 298. One that its row forbids, or to a
reserved address, is not delivered, and is audited (R32); what the other pod then sees is not stated. -/
def State.scaleOutAccess (s : State) (pa size : Nat) (write : Option QWord) : Host.Outcome State Fault Refusal :=
  if !accessOk pa size || pkgSpan ≤ pa || s.halted then .refused (.notEnabled "SCALE_OUT")
  else if s.reservedAccess pa size || !s.reaches scaleOutPort pa then .next (s.auditEvent 1 scaleOutPort pa)
  else if s.devHeld pa size then .refused (.notEnabled "SCALE_OUT")
  else match write with
    | none => .next ((s.devRead pa size).2.signal (.replyToScaleOut (s.devRead pa size).1))
    | some v => .next (s.devWrite scaleOutPort pa size v.toNat)

/-- R18: a reserved address reads as zero, discards writes, and is recorded as a bus error. A later bus error replaces the address of
an earlier one (DESIGN CHOICE, log 30: the spec does not say which is kept). A pairing that the matrix forbids is not delivered
(R32). A cluster that the boot sequence has halted makes no access (R422). -/
def execManagementClusterAccess (pa size : Nat) (write : Option QWord) (s : State) : Host.Outcome State Fault Refusal :=
  let reserved := s.reservedAccess pa size
  let dead := reserved || !s.reaches clusterPort pa
  if !accessOk pa size || pkgSpan ≤ pa || s.halted || (!dead && s.devHeld pa size) then .refused (.notEnabled "MANAGEMENT_CLUSTER_ACCESS")
  else
    let s1 := if reserved then { s with busError := true, busAddr := pa } else if dead then s.auditEvent 1 clusterPort pa else s
    match write with
    | none =>
      if dead then .next (s1.signal (.replyToCluster 0))
      else .next ((s1.devRead pa size).2.signal (.replyToCluster (s1.devRead pa size).1))
    | some v => .next (if dead then s1 else s1.devWrite clusterPort pa size v.toNat)

/-! ### Scale-up paths (R405, R406) -/

/-- A request of a package that is outstanding on the fabric: one that L1 answers is not. -/
def State.outOn (s : State) (pkg : Nat) (r : Req) : Bool :=
  pkg != s.pkg && !r.fetch && !r.fromL1 && r.pa / pkgSpan == pkg && (r.phase == .home || r.phase == .held || r.phase == .performed)

/-- A thread of a warp waits, at a `fence.ack` or a release, for a store of a group (R406): where it waits for a reply, its access is a
release that is not performed. -/
def State.waitsForStore (s : State) (k w l : Nat) (group : Nat) : Bool :=
  match (s.lane k w l).wait with
  | some { what := .tags bound kind, .. } => kind != 17 && group < bound
  | some { what := .gather i _, .. } => gatherReleases i ((s.wg k).svstat.getLsbD 0)
  | some { what := .atIssue i, .. } => releases i
  | some { what := .reply g, .. } =>
    group < g && s.reqs.any fun q => q.group == g && q.wg == k && q.warp == w && q.mi.rel && q.phase != .performed
  | _ => false

/-- The lanes of a lost store that wait for it take DATA_ERR at their instruction; TRAPVA is the store's VA (log 29). -/
def State.lostWaiters (s : State) (r : Req) : State :=
  let w := s.warp r.wg r.warp
  let ls := r.lanes.filter fun l => s.waitsForStore r.wg r.warp l r.group
  (dedup (ls.map fun l => (w.lane l).pc.toNat)).foldl (fun s pc =>
    s.addTrap r.wg r.warp { cause := 9, pc := BitVec.ofNat 64 pc, va := BitVec.ofNat 80 r.va,
                            mask := maskOf (ls.filter fun l => (w.lane l).pc.toNat == pc) }) s

/-- The threads of a lost store that do not wait for it yet: they take DATA_ERR where they do (`lostTrap`, log 29). -/
def State.noteLost (s : State) (r : Req) : State :=
  s.updWarp r.wg r.warp fun w =>
    { w with lost := w.lost ++ (r.slots.filter fun x => !s.waitsForStore r.wg r.warp x.lane r.group).map fun x => (x.lane, x.addr) }

/-- A request ends because no path to its package is left: a store is logged, a load or an atomic, `red` among them (R155, R315), takes
DATA_ERR. -/
def State.loseReq (s : State) (r : Req) : State :=
  if r.stores && !r.mi.atomic then
    let l := s.launch (keyLaunch r.wg)
    let s1 := s.logEvent (s.reqPart r) 6 l.ctx l.vq (keyWgid r.wg) (bytesOf 4 (r.pa / pkgSpan) ++ bytesOf 16 r.va)
    (if s1.takes r then (s1.lostWaiters r).noteLost r else s1).retire r
  else s.failReq r 9 0

/-- R406: stores on the failed path go out on another that is up, and count on the path they were first sent on; with none left,
what is outstanding ends. -/
def execPathFailure (pkg path : Nat) (s : State) : Host.Outcome State Fault Refusal :=
  let up := SMap.get [] s.routes pkg
  let left := up.filter fun p => p.path != path
  let s1 := { s with routes := SMap.set [] s.routes pkg left }
  let lost := if left.isEmpty then s.reqs.filter fun r => s.outOn pkg r else []
  event "PATH_FAILURE" (up.any fun p => p.path == path) (lost.foldl (fun s r => s.loseReq r) s1)

/-- R405: when the pod is formed, Zorner writes the paths of a package into the route table: up to four, each with its own number, its
egress port and neighbour. The model takes the write while no request to the package is outstanding. -/
def State.writeRoute (s : State) (pkg : Nat) (l : List Route) : Host.Outcome State Fault Refusal :=
  let ok := pkg < 256 && pkg != s.pkg && l.length ≤ 4 && (dedup (l.map (·.path))).length == l.length
    && l.all (fun r => r.path < 4 && r.port < 64 && r.neighbour < 256 && r.lands < 9) && !s.reqs.any (s.outOn pkg)
    && !s.halted
  event "ROUTE" ok { s with routes := SMap.set [] s.routes pkg l }

/-! ### Collective groups (R337, R409) -/

/-- A member of a group names a package of the pod: the own one, or one to which a route leads (R409). -/
def State.inPod (s : State) (pkg : Nat) : Bool := pkg == s.pkg || !(SMap.get [] s.routes pkg).isEmpty

/-- The instances of a group that are not complete. -/
def State.groupOccs (s : State) (ctx n : Nat) : List Nat :=
  (s.occs.filter fun o => occGroup o.1 == groupKey ctx n && o.2.done.isEmpty).map Prod.fst

/-- An instance of a group is outstanding; one that has lost a member is not (R340). -/
def State.groupBusy (s : State) (ctx n : Nat) : Bool := (s.groupOccs ctx n).any fun key => !s.occLost key

/-- A context's workgroups count their `coll`s on a group afresh (log 86). -/
def State.recountGroup (s : State) (ctx n : Nat) : State :=
  (s.wgs.keys.filter fun k => s.ctxNo k == ctx).foldl (fun s k => s.updWg k fun g => { g with collNext := SMap.set 0 g.collNext n 0 }) s

/-- R409: Zorner creates or changes a group of a context, or deletes it. A change while an instance of the group is outstanding is
refused, and so is one with a member outside the pod. The instances that have lost a member are over, and the new group's instances
count from 0 (DESIGN CHOICE, log 86: the spec says of a change only when it is refused). -/
def State.writeGroup (s : State) (ctx n : Nat) (members : Option (List (Nat × Nat × Nat))) : Host.Outcome State Fault Refusal :=
  let key := groupKey ctx n
  let l := members.getD []
  let ok := n < 64 && !s.halted && !s.groupBusy ctx n && l.length ≤ 4096 && l.all fun m => s.inPod m.1 && l.countP (· == m) == 1
  let s1 := ((s.groupOccs ctx n).foldl (fun s k => s.loseOcc k) s).recountGroup ctx n
  event "GROUP" ok { s1 with groups := SMap.set {} s1.groups key { members := l, gen := (s.group? ctx n).gen + 1 } }

/-! ### Time, and the cluster's watchdog (R408, R422) -/

/-- PTIME is within 50 ns of its reference, as LOCK says (R408). -/
def State.inLock (s : State) : Bool := -(50 * 65536) ≤ s.ptimeBehind && s.ptimeBehind ≤ 50 * 65536

/-- R408: the first discipline sets PTIME; a later one gives its distance from the reference, which PTIME makes up by slewing and never
by a step. `lock`: the discipline has found the reference; LOCK is set while PTIME is then within 50 ns of it (log 19). -/
def execTimeBaseDiscipline (ns : DWord) (frac : BitVec 16) (lock : Bool) (s : State) : Host.Outcome State Fault Refusal :=
  let s1 : State := if s.ptimeNs = 0 && s.ptimeFrac = 0 then { s with ptimeNs := ns, ptimeFrac := frac, ptimeBehind := 0 }
    else { s with ptimeBehind := ((ns.toNat * 65536 + frac.toNat : Nat) : Int) - ((s.ptimeNs.toNat * 65536 + s.ptimeFrac.toNat : Nat) : Int) }
  event "TIME_BASE_DISCIPLINE" (!s.halted) (s1.setField ptStat 0 0 (b2n (lock && s1.inLock)))

/-- R422: the cluster is reset; what State holds of it is its bus-error record, which is then as after reset (log 30). -/
def execClusterWatchdogReset (s : State) : Host.Outcome State Fault Refusal := .next { s with busError := false, busAddr := 0 }

end Sys2Proof.Machine
end

