-- ==== Sys2Proof/Machine/IntOps.lean ====
section
/-! DEFINITION. Integer, address and predicate instructions (R249 to R256). -/

namespace Sys2Proof.Machine

/-! ### Arithmetic on words -/

/-- The value of a word under a type: U is MOD bit 59 (R249). -/
def intOf (u : Bool) (v : Word) : Int := if u then v.toNat else v.toInt

/-- A result clamped to the type's range, with SATF where it clamps (R250). -/
def saturate (u : Bool) (x : Int) : Word × Flags :=
  let lo : Int := if u then 0 else -2147483648
  let hi : Int := if u then 4294967295 else 2147483647
  if x < lo then (BitVec.ofInt 32 lo, flSATF)
  else if hi < x then (BitVec.ofInt 32 hi, flSATF)
  else (BitVec.ofInt 32 x, 0)

/-- A result that wraps, or saturates with SAT (R250). -/
def wrapOrSat (u sat : Bool) (x : Int) : Word × Flags := if sat then saturate u x else (BitVec.ofInt 32 x, 0)

/-- Division (R251). -/
def divWord (u : Bool) (a b : Word) : Word :=
  if b = 0 then 0xFFFFFFFF
  else if u then BitVec.ofNat 32 (a.toNat / b.toNat)
  else BitVec.ofInt 32 (a.toInt.tdiv b.toInt)

/-- Remainder (R251). -/
def remWord (u : Bool) (a b : Word) : Word :=
  if b = 0 then a
  else if u then BitVec.ofNat 32 (a.toNat % b.toNat)
  else BitVec.ofInt 32 (a.toInt.tmod b.toInt)

/-- The number of set bits. -/
def popcount (v : Nat) : Nat := sumOf (fun i => b2n (bit v i)) (List.range 32)

/-- Leading zeros of a word; 32 for zero (R250). -/
def leadingZeros (v : Word) : Nat := if v = 0 then 32 else 31 - Nat.log2 v.toNat

/-- The bits of a word reversed. -/
def reverseBits (v : Word) : Word :=
  BitVec.ofNat 32 (sumOf (fun i => b2n (bit v.toNat i) * 2 ^ (31 - i)) (List.range 32))

/-- The count of a shift (R252). -/
def shiftCount (b : Word) : Nat := b.toNat % 32

/-- Funnel shift (R252). -/
def funnel (right : Bool) (a b c : Word) : Word :=
  let x : DWord := a ++ b
  if right then (x >>> shiftCount c).setWidth 32 else ((x <<< shiftCount c) >>> 32).setWidth 32

/-- Position and length of a bit field (R252). -/
def fieldPos (b : Word) : Nat × Nat :=
  let pos := bits b.toNat 4 0
  (pos, Nat.min (bits b.toNat 13 8) (32 - pos))

/-- Bit-field extraction (R252). -/
def extractField (u : Bool) (a b : Word) : Word :=
  let (pos, len) := fieldPos b
  let x := a.toNat / 2 ^ pos % 2 ^ len
  if len = 0 then 0
  else if !u && bit x (len - 1) then BitVec.ofInt 32 ((x : Int) - 2 ^ len)
  else BitVec.ofNat 32 x

/-- Bit-field insertion (R252). -/
def insertField (a b c : Word) : Word :=
  let (pos, len) := fieldPos b
  let m := (2 ^ len - 1) * 2 ^ pos
  BitVec.ofNat 32 (a.toNat % 2 ^ len * 2 ^ pos) ||| (c &&& ~~~ BitVec.ofNat 32 m)

/-- Byte i of the result of a byte select (R252). -/
def selectByte (a b c : Word) (i : Nat) : Nat :=
  let sel := bits c.toNat (3 * i + 2) (3 * i)
  let x := (b.toNat * 2 ^ 32 + a.toNat) / 256 ^ sel % 256
  if bit c.toNat (12 + i) then (if bit c.toNat (16 + i) && bit x 7 then 255 else 0) else x

/-- Byte select (R252). -/
def selectBytes (a b c : Word) : Word :=
  BitVec.ofNat 32 (sumOf (fun i => selectByte a b c i * 256 ^ i) (List.range 4))

/-- The conditions of `icmp` (R254). -/
def intCond (cc : Nat) (a b : Int) : Bool :=
  match cc with
  | 0 => a == b
  | 1 => a != b
  | 2 => a < b
  | 3 => a ≤ b
  | 4 => b < a
  | _ => b ≤ a

/-! ### The instructions of R250 to R252 -/

/-- R250. -/
def execAdd (f : Fields) (s : State) : Host.Outcome State Fault Refusal :=
  issue (.add f) s fun s => s.writeDFl f fun w l =>
    wrapOrSat (f.mbit 0) (f.mbit 1) (intOf (f.mbit 0) (w.srcA f l) + intOf (f.mbit 0) (w.srcB f l))

/-- R250. -/
def execSub (f : Fields) (s : State) : Host.Outcome State Fault Refusal :=
  issue (.sub f) s fun s => s.writeDFl f fun w l =>
    wrapOrSat (f.mbit 0) (f.mbit 1) (intOf (f.mbit 0) (w.srcA f l) - intOf (f.mbit 0) (w.srcB f l))

/-- R250. -/
def execMul (f : Fields) (s : State) : Host.Outcome State Fault Refusal :=
  issue (.mul f) s fun s => s.writeD f fun w l => w.srcA f l * w.srcB f l

/-- R250. -/
def execMulhi (f : Fields) (s : State) : Host.Outcome State Fault Refusal :=
  issue (.mulhi f) s fun s => s.writeD f fun w l =>
    BitVec.ofInt 32 (intOf (f.mbit 0) (w.srcA f l) * intOf (f.mbit 0) (w.srcB f l) / 4294967296)

/-- R250. -/
def execMad (f : Fields) (s : State) : Host.Outcome State Fault Refusal :=
  issue (.mad f) s fun s => s.writeD f fun w l => w.srcA f l * w.srcB f l + w.srcC f l

/-- R250. -/
def execMadw (f : Fields) (s : State) : Host.Outcome State Fault Refusal :=
  issue (.madw f) s fun s => s.writePair f fun w l =>
    extend64 (f.mbit 0) (w.srcA f l) * extend64 (f.mbit 0) (w.srcB f l) + w.pairC f l

/-- R251. -/
def execDiv (f : Fields) (s : State) : Host.Outcome State Fault Refusal :=
  issue (.div f) s fun s => s.writeD f fun w l => divWord (f.mbit 0) (w.srcA f l) (w.srcB f l)

/-- R251. -/
def execRem (f : Fields) (s : State) : Host.Outcome State Fault Refusal :=
  issue (.rem f) s fun s => s.writeD f fun w l => remWord (f.mbit 0) (w.srcA f l) (w.srcB f l)

/-- R250. -/
def execMin (f : Fields) (s : State) : Host.Outcome State Fault Refusal :=
  issue (.min f) s fun s => s.writeD f fun w l =>
    if intOf (f.mbit 0) (w.srcB f l) < intOf (f.mbit 0) (w.srcA f l) then w.srcB f l else w.srcA f l

/-- R250. -/
def execMax (f : Fields) (s : State) : Host.Outcome State Fault Refusal :=
  issue (.max f) s fun s => s.writeD f fun w l =>
    if intOf (f.mbit 0) (w.srcA f l) < intOf (f.mbit 0) (w.srcB f l) then w.srcB f l else w.srcA f l

/-- R250. -/
def execAbs (f : Fields) (s : State) : Host.Outcome State Fault Refusal :=
  issue (.abs f) s fun s => s.writeDFl f fun w l => wrapOrSat false (f.mbit 1) (w.srcA f l).toInt.natAbs

/-- R250. -/
def execNeg (f : Fields) (s : State) : Host.Outcome State Fault Refusal :=
  issue (.neg f) s fun s => s.writeDFl f fun w l => wrapOrSat false (f.mbit 1) (-(w.srcA f l).toInt)

/-- R250. -/
def execAnd (f : Fields) (s : State) : Host.Outcome State Fault Refusal :=
  issue (.and f) s fun s => s.writeD f fun w l => w.srcA f l &&& w.srcB f l

/-- R250. -/
def execOr (f : Fields) (s : State) : Host.Outcome State Fault Refusal :=
  issue (.or f) s fun s => s.writeD f fun w l => w.srcA f l ||| w.srcB f l

/-- R250. -/
def execXor (f : Fields) (s : State) : Host.Outcome State Fault Refusal :=
  issue (.xor f) s fun s => s.writeD f fun w l => w.srcA f l ^^^ w.srcB f l

/-- R250. -/
def execAndn (f : Fields) (s : State) : Host.Outcome State Fault Refusal :=
  issue (.andn f) s fun s => s.writeD f fun w l => w.srcA f l &&& ~~~ w.srcB f l

/-- R250. -/
def execNot (f : Fields) (s : State) : Host.Outcome State Fault Refusal :=
  issue (.not f) s fun s => s.writeD f fun w l => ~~~ w.srcA f l

/-- R250. -/
def execPopc (f : Fields) (s : State) : Host.Outcome State Fault Refusal :=
  issue (.popc f) s fun s => s.writeD f fun w l => BitVec.ofNat 32 (popcount (w.srcA f l).toNat)

/-- R250. -/
def execClz (f : Fields) (s : State) : Host.Outcome State Fault Refusal :=
  issue (.clz f) s fun s => s.writeD f fun w l => BitVec.ofNat 32 (leadingZeros (w.srcA f l))

/-- R250. -/
def execBrev (f : Fields) (s : State) : Host.Outcome State Fault Refusal :=
  issue (.brev f) s fun s => s.writeD f fun w l => reverseBits (w.srcA f l)

/-- R252. -/
def execShl (f : Fields) (s : State) : Host.Outcome State Fault Refusal :=
  issue (.shl f) s fun s => s.writeD f fun w l => w.srcA f l <<< shiftCount (w.srcB f l)

/-- R252. -/
def execShr (f : Fields) (s : State) : Host.Outcome State Fault Refusal :=
  issue (.shr f) s fun s => s.writeD f fun w l => w.srcA f l >>> shiftCount (w.srcB f l)

/-- R252. -/
def execSar (f : Fields) (s : State) : Host.Outcome State Fault Refusal :=
  issue (.sar f) s fun s => s.writeD f fun w l => (w.srcA f l).sshiftRight (shiftCount (w.srcB f l))

/-- R252. -/
def execRot (f : Fields) (s : State) : Host.Outcome State Fault Refusal :=
  issue (.rot f) s fun s => s.writeD f fun w l => (w.srcA f l).rotateLeft (shiftCount (w.srcB f l))

/-- R252. -/
def execFsh (f : Fields) (s : State) : Host.Outcome State Fault Refusal :=
  issue (.fsh f) s fun s => s.writeD f fun w l => funnel (f.mbit 0) (w.srcA f l) (w.srcB f l) (w.srcC f l)

/-- R252. -/
def execBfx (f : Fields) (s : State) : Host.Outcome State Fault Refusal :=
  issue (.bfx f) s fun s => s.writeD f fun w l => extractField (f.mbit 0) (w.srcA f l) (w.srcB f l)

/-- R252. -/
def execBfi (f : Fields) (s : State) : Host.Outcome State Fault Refusal :=
  issue (.bfi f) s fun s => s.writeD f fun w l => insertField (w.srcA f l) (w.srcB f l) (w.srcC f l)

/-- R252. -/
def execBsel (f : Fields) (s : State) : Host.Outcome State Fault Refusal :=
  issue (.bsel f) s fun s => s.writeD f fun w l => selectBytes (w.srcA f l) (w.srcB f l) (w.srcC f l)

/-! ### 64-bit, compare and move (R253 to R255) -/

/-- R253. -/
def execLea (f : Fields) (s : State) : Host.Outcome State Fault Refusal :=
  issue (.lea f) s fun s => s.writePair f fun w l => w.pairA f l + extend64 (f.mbit 3) (w.srcB f l) <<< f.mod3

/-- R254. -/
def execSel (f : Fields) (s : State) : Host.Outcome State Fault Refusal :=
  issue (.sel f) s fun s => s.writeD f fun w l =>
    if (w.lane l).pred f.c.toNat ^^ f.mbit 0 then w.srcA f l else w.srcB f l

/-- R254. -/
def execIcmp (f : Fields) (s : State) : Host.Outcome State Fault Refusal :=
  issue (.icmp f) s fun s => s.writePred f fun w l =>
    if f.mbit 4 then
      let val (x : DWord) : Int := if f.mbit 3 then x.toNat else x.toInt
      intCond f.mod3 (val (w.pairA f l)) (val (w.pairB f l))
    else intCond f.mod3 (intOf (f.mbit 3) (w.srcA f l)) (intOf (f.mbit 3) (w.srcB f l))

/-- R255. -/
def execMov (f : Fields) (s : State) : Host.Outcome State Fault Refusal :=
  issue (.mov f) s fun s => if f.mbit 0 then s.writePair f fun w l => w.pairA f l else s.writeD f fun w l => w.srcA f l

/-- R255. -/
def execMovi (f : Fields) (s : State) : Host.Outcome State Fault Refusal :=
  issue (.movi f) s fun s => s.writeD f fun _ _ => f.immWord

/-- R253. -/
def execAdd64 (f : Fields) (s : State) : Host.Outcome State Fault Refusal :=
  issue (.add64 f) s fun s => s.writePair f fun w l => w.pairA f l + w.pairB f l

/-- R253. -/
def execSub64 (f : Fields) (s : State) : Host.Outcome State Fault Refusal :=
  issue (.sub64 f) s fun s => s.writePair f fun w l => w.pairA f l - w.pairB f l

/-- R253. -/
def execShl64 (f : Fields) (s : State) : Host.Outcome State Fault Refusal :=
  issue (.shl64 f) s fun s => s.writePair f fun w l => w.pairA f l <<< ((w.srcB f l).toNat % 64)

/-- R253. -/
def execShr64 (f : Fields) (s : State) : Host.Outcome State Fault Refusal :=
  issue (.shr64 f) s fun s => s.writePair f fun w l =>
    if f.mbit 0 then (w.pairA f l).sshiftRight ((w.srcB f l).toNat % 64) else w.pairA f l >>> ((w.srcB f l).toNat % 64)

/-! ### Predicates (R256) -/

/-- Predicate source A, inverted by MOD bit 59. -/
def Warp.predA (w : Warp) (f : Fields) (l : Nat) : Bool := (w.lane l).pred f.a.toNat ^^ f.mbit 0
/-- Predicate source B, inverted by MOD bit 60. -/
def Warp.predB (w : Warp) (f : Fields) (l : Nat) : Bool := (w.lane l).pred f.b.toNat ^^ f.mbit 1

/-- R256. -/
def execPand (f : Fields) (s : State) : Host.Outcome State Fault Refusal :=
  issue (.pand f) s fun s => s.writePred f fun w l => w.predA f l && w.predB f l

/-- R256. -/
def execPor (f : Fields) (s : State) : Host.Outcome State Fault Refusal :=
  issue (.por f) s fun s => s.writePred f fun w l => w.predA f l || w.predB f l

/-- R256. -/
def execPxor (f : Fields) (s : State) : Host.Outcome State Fault Refusal :=
  issue (.pxor f) s fun s => s.writePred f fun w l => w.predA f l ^^ w.predB f l

/-- R256: pD := not a, where a is the source after MOD bit 59. -/
def execPnot (f : Fields) (s : State) : Host.Outcome State Fault Refusal :=
  issue (.pnot f) s fun s => s.writePred f fun w l => !w.predA f l

/-- R256. -/
def execPmov (f : Fields) (s : State) : Host.Outcome State Fault Refusal :=
  issue (.pmov f) s fun s => s.writePred f fun w l => w.predA f l

/-- R256. -/
def execPmovPack (f : Fields) (s : State) : Host.Outcome State Fault Refusal :=
  issue (.pmovPack f) s fun s => s.writeD f fun w l => (w.lane l).preds.setWidth 32

/-- R256. -/
def execPmovUnpack (f : Fields) (s : State) : Host.Outcome State Fault Refusal :=
  issue (.pmovUnpack f) s fun s =>
    (s.updCur fun w => w.updLanes (s.trueLanes f) fun l x => { x with preds := (w.srcA f l).setWidth 7 }).advance f.len

end Sys2Proof.Machine
end

