-- ==== Sys2Proof/Machine/Special.lean ====
section
/-! DEFINITION. Special functions (R222, R295, R296): a result is outstanding until it is written. -/

namespace Sys2Proof.Machine

/-- Issues a special function (R296): SFC rises if a thread's guards are true; the results are kept until they are
written. -/
def State.special (s : State) (f : Fields) (fn : Fn) : State :=
  let ls := s.trueLanes f
  if ls.isEmpty then s.advance f.len
  else
    let w := s.curW
    let r (l : Nat) : Nat × Flags := applyFn fn (w.srcA f l).toNat
    let x : Sfu := { id := s.tag, wg := s.curWg, warp := s.curWarp, d := f.d.toNat, lanes := ls, handler := w.handler,
                     values := ls.foldl (fun m l => SMap.set 0 m l (BitVec.ofNat 32 (r l).1)) [],
                     flags := flagsOver ls fun l => (r l).2 }
    let s1 := (s.updCur fun w => { w with sfc := w.sfc + 1 }).fresh
    { s1 with sfus := s1.sfus ++ [x] }.advance f.len

/-- R295. -/
def execRcp (f : Fields) (s : State) : Host.Outcome State Fault Refusal := issue (.rcp f) s fun s => s.special f .rcp
/-- R295. -/
def execRsq (f : Fields) (s : State) : Host.Outcome State Fault Refusal := issue (.rsq f) s fun s => s.special f .rsq
/-- R295. -/
def execSqrt (f : Fields) (s : State) : Host.Outcome State Fault Refusal := issue (.sqrt f) s fun s => s.special f .sqrt
/-- R295. -/
def execEx2 (f : Fields) (s : State) : Host.Outcome State Fault Refusal := issue (.ex2 f) s fun s => s.special f .ex2
/-- R295. -/
def execLg2 (f : Fields) (s : State) : Host.Outcome State Fault Refusal := issue (.lg2 f) s fun s => s.special f .lg2
/-- R295. -/
def execExp (f : Fields) (s : State) : Host.Outcome State Fault Refusal := issue (.exp f) s fun s => s.special f .exp
/-- R295. -/
def execSinpi (f : Fields) (s : State) : Host.Outcome State Fault Refusal := issue (.sinpi f) s fun s => s.special f .sinpi
/-- R295. -/
def execCospi (f : Fields) (s : State) : Host.Outcome State Fault Refusal := issue (.cospi f) s fun s => s.special f .cospi
/-- R295. -/
def execTanh (f : Fields) (s : State) : Host.Outcome State Fault Refusal := issue (.tanh f) s fun s => s.special f .tanh

/-- R296: an outstanding result is written, with its flags, and SFC falls. -/
def execSfuResult (k : Nat) (s : State) : Host.Outcome State Fault Refusal :=
  match s.sfus.find? fun x => x.id == k with
  | some x => .next (s.writeSfu x)
  | none => .refused (.notEnabled "SFU_RESULT")

end Sys2Proof.Machine
end

