-- ==== Sys2Proof/Machine/Dispatch.lean ====
section
/-! DEFINITION. The meaning of every instruction and event: one arm per constructor, each a call of its own meaning. -/

namespace Sys2Proof.Machine

def exec (i : Instr) (s : State) : Host.Outcome State Fault Refusal :=
  match i with
  | .add f => Sys2Proof.Machine.execAdd f s
  | .sub f => Sys2Proof.Machine.execSub f s
  | .mul f => Sys2Proof.Machine.execMul f s
  | .mulhi f => Sys2Proof.Machine.execMulhi f s
  | .mad f => Sys2Proof.Machine.execMad f s
  | .madw f => Sys2Proof.Machine.execMadw f s
  | .div f => Sys2Proof.Machine.execDiv f s
  | .rem f => Sys2Proof.Machine.execRem f s
  | .min f => Sys2Proof.Machine.execMin f s
  | .max f => Sys2Proof.Machine.execMax f s
  | .abs f => Sys2Proof.Machine.execAbs f s
  | .neg f => Sys2Proof.Machine.execNeg f s
  | .and f => Sys2Proof.Machine.execAnd f s
  | .or f => Sys2Proof.Machine.execOr f s
  | .xor f => Sys2Proof.Machine.execXor f s
  | .andn f => Sys2Proof.Machine.execAndn f s
  | .not f => Sys2Proof.Machine.execNot f s
  | .popc f => Sys2Proof.Machine.execPopc f s
  | .clz f => Sys2Proof.Machine.execClz f s
  | .brev f => Sys2Proof.Machine.execBrev f s
  | .shl f => Sys2Proof.Machine.execShl f s
  | .shr f => Sys2Proof.Machine.execShr f s
  | .sar f => Sys2Proof.Machine.execSar f s
  | .rot f => Sys2Proof.Machine.execRot f s
  | .fsh f => Sys2Proof.Machine.execFsh f s
  | .bfx f => Sys2Proof.Machine.execBfx f s
  | .bfi f => Sys2Proof.Machine.execBfi f s
  | .bsel f => Sys2Proof.Machine.execBsel f s
  | .lea f => Sys2Proof.Machine.execLea f s
  | .sel f => Sys2Proof.Machine.execSel f s
  | .icmp f => Sys2Proof.Machine.execIcmp f s
  | .mov f => Sys2Proof.Machine.execMov f s
  | .movi f => Sys2Proof.Machine.execMovi f s
  | .add64 f => Sys2Proof.Machine.execAdd64 f s
  | .sub64 f => Sys2Proof.Machine.execSub64 f s
  | .shl64 f => Sys2Proof.Machine.execShl64 f s
  | .shr64 f => Sys2Proof.Machine.execShr64 f s
  | .pand f => Sys2Proof.Machine.execPand f s
  | .por f => Sys2Proof.Machine.execPor f s
  | .pxor f => Sys2Proof.Machine.execPxor f s
  | .pnot f => Sys2Proof.Machine.execPnot f s
  | .pmov f => Sys2Proof.Machine.execPmov f s
  | .pmovPack f => Sys2Proof.Machine.execPmovPack f s
  | .pmovUnpack f => Sys2Proof.Machine.execPmovUnpack f s
  | .fadd f => Sys2Proof.Machine.execFadd f s
  | .fsub f => Sys2Proof.Machine.execFsub f s
  | .fmul f => Sys2Proof.Machine.execFmul f s
  | .ffma f => Sys2Proof.Machine.execFfma f s
  | .fmin f => Sys2Proof.Machine.execFmin f s
  | .fmax f => Sys2Proof.Machine.execFmax f s
  | .fcmp f => Sys2Proof.Machine.execFcmp f s
  | .fcls f => Sys2Proof.Machine.execFcls f s
  | .frnd f => Sys2Proof.Machine.execFrnd f s
  | .hadd2 f => Sys2Proof.Machine.execHadd2 f s
  | .hmul2 f => Sys2Proof.Machine.execHmul2 f s
  | .hfma2 f => Sys2Proof.Machine.execHfma2 f s
  | .hmin2 f => Sys2Proof.Machine.execHmin2 f s
  | .hmax2 f => Sys2Proof.Machine.execHmax2 f s
  | .bfma2 f => Sys2Proof.Machine.execBfma2 f s
  | .dadd f => Sys2Proof.Machine.execDadd f s
  | .dmul f => Sys2Proof.Machine.execDmul f s
  | .dfma f => Sys2Proof.Machine.execDfma f s
  | .dcmp f => Sys2Proof.Machine.execDcmp f s
  | .cvt f => Sys2Proof.Machine.execCvt f s
  | .pack f => Sys2Proof.Machine.execPack f s
  | .unpk f => Sys2Proof.Machine.execUnpk f s
  | .ndot f => Sys2Proof.Machine.execNdot f s
  | .cbld f => Sys2Proof.Machine.execCbld f s
  | .cbenc f => Sys2Proof.Machine.execCbenc f s
  | .cbdec f => Sys2Proof.Machine.execCbdec f s
  | .rcp f => Sys2Proof.Machine.execRcp f s
  | .rsq f => Sys2Proof.Machine.execRsq f s
  | .sqrt f => Sys2Proof.Machine.execSqrt f s
  | .ex2 f => Sys2Proof.Machine.execEx2 f s
  | .lg2 f => Sys2Proof.Machine.execLg2 f s
  | .exp f => Sys2Proof.Machine.execExp f s
  | .sinpi f => Sys2Proof.Machine.execSinpi f s
  | .cospi f => Sys2Proof.Machine.execCospi f s
  | .tanh f => Sys2Proof.Machine.execTanh f s
  | .sfuResult k => Sys2Proof.Machine.execSfuResult k s
  | .shfl f => Sys2Proof.Machine.execShfl f s
  | .vote f => Sys2Proof.Machine.execVote f s
  | .redl f => Sys2Proof.Machine.execRedl f s
  | .scanl f => Sys2Proof.Machine.execScanl f s
  | .matchL f => Sys2Proof.Machine.execMatchL f s
  | .bra f => Sys2Proof.Machine.execBra f s
  | .brx f => Sys2Proof.Machine.execBrx f s
  | .call f => Sys2Proof.Machine.execCall f s
  | .ret f => Sys2Proof.Machine.execRet f s
  | .exit f => Sys2Proof.Machine.execExit f s
  | .yield f => Sys2Proof.Machine.execYield f s
  | .sleep f => Sys2Proof.Machine.execSleep f s
  | .sleept f => Sys2Proof.Machine.execSleept f s
  | .sleepExpiry wg warp lane => Sys2Proof.Machine.execSleepExpiry wg warp lane s
  | .waitc f => Sys2Proof.Machine.execWaitc f s
  | .wsync f => Sys2Proof.Machine.execWsync f s
  | .join f => Sys2Proof.Machine.execJoin f s
  | .nop f => Sys2Proof.Machine.execNop f s
  | .trap f => Sys2Proof.Machine.execTrap f s
  | .bkpt f => Sys2Proof.Machine.execBkpt f s
  | .eret f => Sys2Proof.Machine.execEret f s
  | .movs f => Sys2Proof.Machine.execMovs f s
  | .movsw f => Sys2Proof.Machine.execMovsw f s
  | .perf f => Sys2Proof.Machine.execPerf f s
  | .tlbinv f => Sys2Proof.Machine.execTlbinv f s
  | .harvest f => Sys2Proof.Machine.execHarvest f s
  | .replay f => Sys2Proof.Machine.execReplay f s
  | .replayCancel f => Sys2Proof.Machine.execReplayCancel f s
  | .replayPage f => Sys2Proof.Machine.execReplayPage f s
  | .ld f => Sys2Proof.Machine.execLd f s
  | .st f => Sys2Proof.Machine.execSt f s
  | .ldi f => Sys2Proof.Machine.execLdi f s
  | .ldfe f => Sys2Proof.Machine.execLdfe f s
  | .stfe f => Sys2Proof.Machine.execStfe f s
  | .atom f => Sys2Proof.Machine.execAtom f s
  | .red f => Sys2Proof.Machine.execRed f s
  | .cas f => Sys2Proof.Machine.execCas f s
  | .fence f => Sys2Proof.Machine.execFence f s
  | .fenceAck f => Sys2Proof.Machine.execFenceAck f s
  | .fenceOpr f => Sys2Proof.Machine.execFenceOpr f s
  | .cctlDem f => Sys2Proof.Machine.execCctlDem f s
  | .cctlInv1 f => Sys2Proof.Machine.execCctlInv1 f s
  | .cctlInvall f => Sys2Proof.Machine.execCctlInvall f s
  | .pref f => Sys2Proof.Machine.execPref f s
  | .cpy f => Sys2Proof.Machine.execCpy f s
  | .cpym f => Sys2Proof.Machine.execCpym f s
  | .cpyw f => Sys2Proof.Machine.execCpyw f s
  | .waitp f => Sys2Proof.Machine.execWaitp f s
  | .promiseReached wg warp => Sys2Proof.Machine.execPromiseReached wg warp s
  | .land f => Sys2Proof.Machine.execLand f s
  | .unland f => Sys2Proof.Machine.execUnland f s
  | .barArr f => Sys2Proof.Machine.execBarArr f s
  | .barSync f => Sys2Proof.Machine.execBarSync f s
  | .barWait f => Sys2Proof.Machine.execBarWait f s
  | .barExp f => Sys2Proof.Machine.execBarExp f s
  | .barInit f => Sys2Proof.Machine.execBarInit f s
  | .barRd f => Sys2Proof.Machine.execBarRd f s
  | .barRdClr f => Sys2Proof.Machine.execBarRdClr f s
  | .barrierPhaseAdvance wg b => Sys2Proof.Machine.execBarrierPhaseAdvance wg b s
  | .copyUnitArrival wg b => Sys2Proof.Machine.execCopyUnitArrival wg b s
  | .bargArr f => Sys2Proof.Machine.execBargArr f s
  | .bargSync f => Sys2Proof.Machine.execBargSync f s
  | .bargWait f => Sys2Proof.Machine.execBargWait f s
  | .rgive f => Sys2Proof.Machine.execRgive f s
  | .rtake f => Sys2Proof.Machine.execRtake f s
  | .rfree f => Sys2Proof.Machine.execRfree f s
  | .qpoll f => Sys2Proof.Machine.execQpoll f s
  | .qpollSend f => Sys2Proof.Machine.execQpollSend f s
  | .qpollRecv f => Sys2Proof.Machine.execQpollRecv f s
  | .queueMessageArrival id => Sys2Proof.Machine.execQueueMessageArrival id s
  | .coll f => Sys2Proof.Machine.execColl f s
  | .collw f => Sys2Proof.Machine.execCollw f s
  | .collectiveInstance ctx group occ => Sys2Proof.Machine.execCollectiveInstance ctx group occ s
  | .mxi f => Sys2Proof.Machine.execMxi f s
  | .mxs f => Sys2Proof.Machine.execMxs f s
  | .mxv f => Sys2Proof.Machine.execMxv f s
  | .mxn f => Sys2Proof.Machine.execMxn f s
  | .mxsa f => Sys2Proof.Machine.execMxsa f s
  | .mxz f => Sys2Proof.Machine.execMxz f s
  | .mxrd f => Sys2Proof.Machine.execMxrd f s
  | .mxwr f => Sys2Proof.Machine.execMxwr f s
  | .mxmvSt f => Sys2Proof.Machine.execMxmvSt f s
  | .mxmvLd f => Sys2Proof.Machine.execMxmvLd f s
  | .mxmvTt f => Sys2Proof.Machine.execMxmvTt f s
  | .wbinv f => Sys2Proof.Machine.execWbinv f s
  | .matrixOperationComplete id => Sys2Proof.Machine.execMatrixOperationComplete id s
  | .solve f => Sys2Proof.Machine.execSolve f s
  | .solveRegionOpen wg => Sys2Proof.Machine.execSolveRegionOpen wg s
  | .svend f => Sys2Proof.Machine.execSvend f s
  | .svendEvaluation wg => Sys2Proof.Machine.execSvendEvaluation wg s
  | .svrd f => Sys2Proof.Machine.execSvrd f s
  | .svrdZp f => Sys2Proof.Machine.execSvrdZp f s
  | .svrdRp f => Sys2Proof.Machine.execSvrdRp f s
  | .svhsClr f => Sys2Proof.Machine.execSvhsClr f s
  | .svhsWr f => Sys2Proof.Machine.execSvhsWr f s
  | .svabort f => Sys2Proof.Machine.execSvabort f s
  | .trapEntry wg warp => Sys2Proof.Machine.execTrapEntry wg warp s
  | .watchdog wg warp lane => Sys2Proof.Machine.execWatchdog wg warp lane s
  | .translatedAccess id => Sys2Proof.Machine.execTranslatedAccess id s
  | .missQueueToPool id => Sys2Proof.Machine.execMissQueueToPool id s
  | .replayAll agent part => Sys2Proof.Machine.execReplayAll agent part s
  | .cancelAll agent part => Sys2Proof.Machine.execCancelAll agent part s
  | .cancelPage agent part => Sys2Proof.Machine.execCancelPage agent part s
  | .invalidateRange agent part => Sys2Proof.Machine.execInvalidateRange agent part s
  | .faultCommandComplete part => Sys2Proof.Machine.execFaultCommandComplete part s
  | .fbovfWrite agent quad v => Sys2Proof.Machine.execFbovfWrite agent quad v s
  | .fbstatWrite agent quad v => Sys2Proof.Machine.execFbstatWrite agent quad v s
  | .fltstatWrite agent part v => Sys2Proof.Machine.execFltstatWrite agent part v s
  | .loadReply id => Sys2Proof.Machine.execLoadReply id s
  | .homeSliceRequest id => Sys2Proof.Machine.execHomeSliceRequest id s
  | .storeAck id => Sys2Proof.Machine.execStoreAck id s
  | .hamperEccError id => Sys2Proof.Machine.execHamperEccError id s
  | .waiterOverflowStep id => Sys2Proof.Machine.execWaiterOverflowStep id s
  | .windowAccess id => Sys2Proof.Machine.execWindowAccess id s
  | .transferOperation id => Sys2Proof.Machine.execTransferOperation id s
  | .multicastDelivery id member => Sys2Proof.Machine.execMulticastDelivery id member s
  | .remoteStorePerformed id => Sys2Proof.Machine.execRemoteStorePerformed id s
  | .orderedFlagArrival id => Sys2Proof.Machine.execOrderedFlagArrival id s
  | .orderedFlagPerform id => Sys2Proof.Machine.execOrderedFlagPerform id s
  | .pathFailure pkg path => Sys2Proof.Machine.execPathFailure pkg path s
  | .recall id => Sys2Proof.Machine.execRecall id s
  | .contextEnd id => Sys2Proof.Machine.execContextEnd id s
  | .doorbellWrite agent vq v => Sys2Proof.Machine.execDoorbellWrite agent vq v s
  | .launchCancel agent vq => Sys2Proof.Machine.execLaunchCancel agent vq s
  | .resumeAfterRefusal agent vq => Sys2Proof.Machine.execResumeAfterRefusal agent vq s
  | .packetStart vq => Sys2Proof.Machine.execPacketStart vq s
  | .workgroupDispatch launch => Sys2Proof.Machine.execWorkgroupDispatch launch s
  | .workgroupEnd wg => Sys2Proof.Machine.execWorkgroupEnd wg s
  | .warpExchange core part => Sys2Proof.Machine.execWarpExchange core part s
  | .forcedExchange core part => Sys2Proof.Machine.execForcedExchange core part s
  | .controlInterval quad parked ballast energy pace announced => Sys2Proof.Machine.execControlInterval quad parked ballast energy pace announced s
  | .preemptGo agent quad ctx => Sys2Proof.Machine.execPreemptGo agent quad ctx s
  | .preemptLift agent quad ctx => Sys2Proof.Machine.execPreemptLift agent quad ctx s
  | .drainDeadline quad => Sys2Proof.Machine.execDrainDeadline quad s
  | .preemptComplete quad => Sys2Proof.Machine.execPreemptComplete quad s
  | .restoreGo agent quad cmd => Sys2Proof.Machine.execRestoreGo agent quad cmd s
  | .rststatWrite agent quad v => Sys2Proof.Machine.execRststatWrite agent quad v s
  | .sensorSample temps => Sys2Proof.Machine.execSensorSample temps s
  | .beginCooldown agent => Sys2Proof.Machine.execBeginCooldown agent s
  | .beginWarmup agent => Sys2Proof.Machine.execBeginWarmup agent s
  | .cdctlRefusedOp agent op => Sys2Proof.Machine.execCdctlRefusedOp agent op s
  | .calibrationComplete => Sys2Proof.Machine.execCalibrationComplete  s
  | .cdstatWrite agent v => Sys2Proof.Machine.execCdstatWrite agent v s
  | .patrolScrub pa => Sys2Proof.Machine.execPatrolScrub pa s
  | .packageReset image signed authOk started => Sys2Proof.Machine.execPackageReset image signed authOk started s
  | .meshcfgWrite agent region v => Sys2Proof.Machine.execMeshcfgWrite agent region v s
  | .healthWrite agent v => Sys2Proof.Machine.execHealthWrite agent v s
  | .scrubOnRelease ctx => Sys2Proof.Machine.execScrubOnRelease ctx s
  | .auditEntryCommit agent byte63 => Sys2Proof.Machine.execAuditEntryCommit agent byte63 s
  | .auditHeadSign => Sys2Proof.Machine.execAuditHeadSign  s
  | .evstatWrite agent part v => Sys2Proof.Machine.execEvstatWrite agent part v s
  | .coreFailure core => Sys2Proof.Machine.execCoreFailure core s
  | .pseudoChannelRetire stack channel => Sys2Proof.Machine.execPseudoChannelRetire stack channel s
  | .hostRequest bar addr size write => Sys2Proof.Machine.execHostRequest bar addr size write s
  | .registerWrite agent off v => Sys2Proof.Machine.execRegisterWrite agent off v s
  | .managementClusterAccess pa size write => Sys2Proof.Machine.execManagementClusterAccess pa size write s
  | .clusterWatchdogReset => Sys2Proof.Machine.execClusterWatchdogReset  s
  | .timeBaseDiscipline ns frac lock => Sys2Proof.Machine.execTimeBaseDiscipline ns frac lock s

end Sys2Proof.Machine
end

