-- ==== Sys2Proof/Machine/Cycle.lean ====
section
/-! DEFINITION. What one step does (R70, R182 to R185, R236, R270, R386): the issue of a warp, an event, or, with no schedule,
the choice of the model itself; and the passing of time. -/

namespace Sys2Proof.Machine

/-! ### The issue of a warp (R183, R236) -/

/-- A fetch whose page is not present parks (R50): its threads wait, and fetch afresh when it is replayed. -/
def State.parkFetch (s : State) (level : Nat) : State :=
  let va := s.codeVa s.curWg s.curPc
  let r : Req :=
    { id := s.tag, group := s.tag, wg := s.curWg, warp := s.curWarp, core := s.curG.core, insn := .packetStart 0, pc := s.curPc,
      space := 0, slots := s.group.map fun l => { lane := l, addr := va }, phase := .translate, fetch := true }
  ({ s with reqs := s.reqs ++ [r], tag := s.tag + 1 }.waitLanes s.group .fetch 0).parkReq r level

/-- A fetch that fails is a precise trap of the whole group (R236); WATCHDOG comes first (R195). TRAPVA of a PROT is the
instruction's VA. -/
def State.failFetch (s : State) (cause detail : Nat) : State :=
  match s.spent with
  | some _ => s.watchdogEnd
  | none =>
    (s.charge (Instr.packetStart 0).fields).trapHere
      { cause, detail, pc := s.curPc, va := if cause = 7 then BitVec.ofNat 80 (s.codeVa s.curWg s.curPc) else 0, mask := s.curMask }

/-- One issue of a warp. -/
def State.issueWarp (s : State) (k w : Nat) : Host.Outcome State Fault Refusal :=
  match s.attempt k w with
  | .idle t => .next t
  | .trap t x => .next (t.enterTrap k w x)
  | .parks t level => .next (t.parkFetch level)
  | .fails t cause detail => .next (t.failFetch cause detail)
  | .run t i => exec i t

/-! ### The model's own choice of the next act (log 4) -/

/-- The events that what is outstanding could take next, oldest first. -/
def State.pendingEvents (s : State) : List Instr :=
  (s.reqs.flatMap fun r => match r.phase with
    | .translate => [.translatedAccess r.id]
    | .miss => [.missQueueToPool r.id]
    | .home => [.homeSliceRequest r.id, .remoteStorePerformed r.id, .orderedFlagArrival r.id]
    | .held => [.orderedFlagPerform r.id]
    | .performed => [.loadReply r.id, .storeAck r.id]
    | .waiter | .overflow => [.waiterOverflowStep r.id]
    | .window => [.windowAccess r.id]
    | .scratch | .parked => [])
  ++ (s.sfus.map fun x => .sfuResult x.id)
  ++ (s.flights.map fun x => .queueMessageArrival x.id)
  ++ (s.xfers.flatMap fun x => if x.phase = .miss then [.missQueueToPool x.id]
      else .transferOperation x.id :: x.members.map fun m => .multicastDelivery x.id m)
  ++ (s.copies.map fun c => .copyUnitArrival c.wg c.bar)
  ++ (s.matOps.map fun m => .matrixOperationComplete m.id)
  ++ ((s.occs.filter fun o => o.2.parked == some .miss).map fun o => .missQueueToPool o.2.id)
  ++ (s.occs.map fun o => .collectiveInstance (occCtx o.1) (occGroup o.1 % 64) (occNum o.1))
  ++ (s.wgs.keys.flatMap fun k =>
        ((s.wg k).bars.keys.map fun b => .barrierPhaseAdvance k b) ++ [.solveRegionOpen k, .svendEvaluation k]
        ++ ((s.liveWarps k).flatMap fun w => .promiseReached k w :: ((s.warp k w).unexited.map fun l => .sleepExpiry k w l))
        ++ [.workgroupEnd k])
  ++ (((s.reqs.map (·.id)) ++ s.xfers.map (·.id)).flatMap fun id => [.contextEnd id, .recall id])
  ++ (s.cmds.keys.map .faultCommandComplete)
  ++ (s.quads.keys.flatMap fun q => [.drainDeadline q, .preemptComplete q])
  ++ (s.launches.keys.map .workgroupDispatch)
  ++ ((List.range 48).filterMap fun q => if bit (s.creg (queueSlot q + 12)) 31 then some (.packetStart (s.field (queueSlot q + 8) 31 20)) else none)

/-- What an event gives, if it changes anything. -/
def State.tryEvent (s : State) (e : Instr) : Option State :=
  match exec e s with
  | .next t => if t = s then none else some t
  | _ => none

/-- The warps that could issue and whose turn it is, those that have not issued for longest first. -/
def State.issuable (s : State) : List (Nat × Nat) :=
  let all := s.wgs.keys.flatMap fun k => (s.liveWarps k).map fun w => (k, w)
  sortBy (fun a b => (s.warp a.1 a.2).lastIssue < (s.warp b.1 b.2).lastIssue) 
    (all.filter fun x => s.mayIssue x.1 x.2 && s.ready x.1 x.2 && s.hasTurn x.1 x.2)

/-- The exchanges that a core could make. -/
def State.exchanges (s : State) : List Instr :=
  (dedup (s.wgs.keys.map fun k => (s.wg k).core)).flatMap fun c =>
    (List.range 4).flatMap fun p => [.warpExchange c p, .forcedExchange c p]

/-- The oldest scratch access with slots still to come. -/
def State.slotDue (s : State) : Option State :=
  match s.reqs.find? fun r => r.phase == .scratch with
  | some r => s.nextScratchSlot r.id
  | none => none

/-- The oldest write that some thread does not see becomes visible to all, if one can. -/
def State.shownNext (s : State) : Option State :=
  (List.range s.late.length).findSome? fun n =>
    let t := s.makeVisible n 4 0
    if t.late.length < s.late.length then some t else none

/-- With no schedule: the oldest write that some thread does not see becomes visible to all, else the next slot of a scratch access,
else the oldest event that is enabled, else an exchange that is due (R194, R386), else the ready warp that has not
issued for longest; with none of these time only passes. -/
def State.auto (s : State) : Host.Outcome State Fault Refusal :=
  match s.shownNext with
  | some t => .next t
  | none =>
  match s.slotDue with
  | some t => .next t
  | none =>
    match (s.pendingEvents ++ s.exchanges).findSome? s.tryEvent with
    | some t => .next t
    | none =>
      match s.issuable with
      | x :: _ => s.issueWarp x.1 x.2
      | [] => .next s

/-! ### Time (R270) -/

/-- The cycles that this step takes: the next of the model's inputs, or one (log 4). -/
def State.takeTicks (s : State) : Nat × State :=
  match s.ticks with
  | n :: ns => (n, { s with ticks := ns })
  | [] => (1, s)

/-- PTIME after some cycles of 0.5 ns, once it has been disciplined (R270): it follows its reference by slewing at no more than
100 ppm (R408; log 19). -/
def State.passPtime (s : State) (n : Nat) : State :=
  if s.ptimeNs = 0 && s.ptimeFrac = 0 then s
  else
    let most : Int := (n * 32768 / 10000 : Nat)
    let slew := max (-most) (min most s.ptimeBehind)
    let t := (((s.ptimeNs.toNat * 65536 + s.ptimeFrac.toNat + n * 32768 : Nat) : Int) + slew).toNat
    { s with ptimeNs := BitVec.ofNat 64 (t / 65536), ptimeFrac := BitVec.ofNat 16 t, ptimeBehind := s.ptimeBehind - slew }

/-- Warps of a workgroup that is being saved stop where a thread waits, or where none can issue (R197, R396). -/
def State.noteStops (s : State) : State :=
  (s.wgs.keys.filter s.saving).foldl (fun s k =>
    (s.liveWarps k).foldl (fun s w =>
      let x := s.warp k w
      if (x.unexited.any fun l => (x.lane l).wait.isSome) || ((s.prepare k w).vote k w).isNone then
        s.updWarp k w fun y => { y with stopped := true }
      else s) s) s

/-- The barriers are evaluated once in each of `n` cycles (R132). No more than its queued arrivals and one phase more can complete
without another event, so that further evaluations change nothing. -/
def State.evalFor (s : State) : Nat → State
  | 0 => s
  | n + 1 => s.evalBars.evalFor n

/-- The cycles in which a `collw` waits only for other packages count as slack (R410). -/
def State.noteSlack (s : State) (n : Nat) : State :=
  if s.slackWait then { s with slack := { s.slack with waited := s.slack.waited + n } } else s

/-- The log engine signs its head at least once a second (R427). -/
def State.noteAudit (s : State) : State := if !s.halted && s.auditSigned + second ≤ s.cyc.toNat then s.auditHeadSign else s

/-- Time passes after a step. -/
def State.pass (s : State) : State :=
  let (n, s1) := s.takeTicks
  let s2 := ({ s1 with cyc := s1.cyc + BitVec.ofNat 64 n }.passPtime n).evalFor (Nat.min n 3)
  let s3 := s2.payShown
  ((s3.noteSlack n).noteAudit.noteStops).noteCycles.noteReady

/-- An outcome after which time passes. -/
def thenPass (o : Host.Outcome State Fault Refusal) : Host.Outcome State Fault Refusal :=
  match o with
  | .next t => .next t.pass
  | .fault r => .fault r
  | .refused r => .refused r

/-- An act that changes the state, or is not enabled. -/
def orRefused (name : String) (t : Option State) : Host.Outcome State Fault Refusal :=
  match t with
  | some t => .next t
  | none => .refused (.notEnabled name)

/-- One act. An instruction is no event. -/
def State.perform (s : State) (a : Act) : Host.Outcome State Fault Refusal :=
  match a with
  | .issue k w => s.issueWarp k w
  | .event e => if e.fields?.isSome then .refused (.notEnabled "EVENT") else exec e s
  | .visible n scope core => event "VISIBLE" (n < s.late.length && 1 ≤ scope) (s.makeVisible n scope core)
  | .oldCode word n => event "OLD_CODE" (n ≤ (SMap.get [] s.former word).length) { s with stale := SMap.set 0 s.stale word n }
  | .slot id => orRefused "SLOT" (s.nextScratchSlot id)
  | .sample id => orRefused "SAMPLE" (s.sampleOp id)
  | .waits id controller => orRefused "WAITS" (s.waitsAt id controller)
  | .remotePart key rank part => orRefused "REMOTE_PART" (s.remotePart key rank part)
  | .route pkg paths => s.writeRoute pkg paths
  | .group ctx n members => s.writeGroup ctx n members
  | .remap vd stack => s.remapDie vd stack
  | .softErrors n => event "SOFT_ERRORS" (!s.halted) (s.countSoft n)
  | .hostAtomic => .next s.hostAtomic
  | .scaleOut pa size write => s.scaleOutAccess pa size write

/-- One step: the next act of the schedule, else the model's own choice; then time passes. -/
def State.cycle (s : State) : Host.Outcome State Fault Refusal :=
  match s.sched with
  | a :: as => thenPass ({ s with sched := as }.perform a)
  | [] => thenPass s.auto

end Sys2Proof.Machine
end

