-- ==== Sys2Proof/Machine/Place.lean ====
section
/-! DEFINITION. A program put into the machine from outside (log 20): one context with its tables, one launch of one workgroup
with one unexited thread, and an instruction at its PC, so that the next step issues it. -/

namespace Sys2Proof.Machine

/-- A page table entry (R34): bits 15:0 and a frame in 256 KiB units, in the own package. -/
def State.entryBits (s : State) (low frame : Nat) : Nat := low + s.pkg % 256 * 2 ^ 22 + frame * 2 ^ 64

/-- The context number that the placed program uses. -/
def placedCtx : Nat := 1

/-- The tables of the placed context: root block in frame 0, tables in frames 1 to 4, and one page, frame 5, at VA 0. -/
def State.placeTables (s : State) : State :=
  let f : Nat := 2 ^ 18
  let rows : List (Nat × Nat × Nat) :=
    [(0, 1, 1), (f, 1, 2), (2 * f, 1, 3), (3 * f, 1, 4), (4 * f, 0x1F, 5)]
  let s1 := rows.foldl (fun s r => s.memWrite (s.own r.1) 16 (s.entryBits r.2.1 r.2.2)) s
  ((s1.memWrite (s1.own 0x410) 4 1).setCreg (connRow 0 0) 0xFFFFFFFF).updCtx placedCtx fun c => { c with root := 0 }

/-- A role that may execute an instruction (R188). -/
def roleFor (i : Option Instr) : Nat :=
  match i with
  | some x => if x.roleOk 0 then 0 else if x.roleOk 1 then 1 else 2
  | none => 2

/-- The packet of the placed launch: every object declared, registers 0 to 254. -/
def placedPacket (role : Nat) : Packet :=
  { nx := 1, ny := 1, nz := 1, warps := 1, ncopy := b2n (role == 0), nmat := b2n (role == 1), nvec := b2n (role == 2),
    home := 2, travel := 253, nbar := 16, nring := 4, nacc := 16, nwb := 8, nhist := 8, qgroup := 1, scratch := 2 ^ 20,
    ringcfg := List.replicate 4 0x811 }

/-- The warp of the placed launch: thread 0 at PC 0, in a handler for an instruction that only a handler executes. -/
def placedWarp (handler : Bool) : Warp :=
  { lanes := [(0, { exited := false, ydist := 65536, seed := 0xACE10000 })], active := true, handler }

/-- Places an instruction of which the opcode table numbers the bits, and schedules its issue. -/
def State.placeWord (s : State) (nbits w : Nat) : State :=
  let i := decodeTableWord nbits w
  let handler := match i with
    | some (.eret _) => true
    | _ => false
  let p := placedPacket (roleFor i)
  let l := s.tag
  let k := wgKey l 0
  let s1 := s.placeTables.memWriteBytes (s.own (5 * 2 ^ 18)) (tableBytes nbits w)
  let g : Workgroup :=
    { launch := l, status := .resident, warps := [(0, placedWarp handler)], bars := startBars p, stages := startStages p,
      tileNos := List.range 16, wbNos := List.range 8, hsNos := List.range 8 }
  let s2 := { s1 with wgs := SMap.set {} s1.wgs k g
                      launches := SMap.set {} s1.launches l { packet := p, ctx := placedCtx, nextWg := 1 }
                      tag := l + 1, sched := .issue k 0 :: s1.sched }
  (s2.updCore 0 fun c => { c with tlb := [] }).updQuad 0 fun q => { q with tlb := [], walks := [] }

end Sys2Proof.Machine
end

