-- ==== Sys2Proof/Machine/Step.lean ====
section
/-! DEFINITION. The step function, and the machine with an instruction placed where the next step fetches it. -/

namespace Sys2Proof.Machine

/-- One step of the machine. -/
def step (s : State) : Host.Outcome State Fault Refusal := s.cycle

/-- The machine with an instruction placed at the PC of a thread that issues next (log 20). -/
def State.withFetchWord (s : State) (nbits w : Nat) : State := s.placeWord nbits w

end Sys2Proof.Machine
end

