-- ==== Sys2Proof/Safety.lean ====
section
/-! DEFINITION. What the claims call a safe step, an instruction that runs, and what it leaves unchanged. -/

namespace Sys2Proof.Machine

/-- A step that answers a next state. -/
def answers (o : Host.Outcome State Fault Refusal) : Prop := ∃ t, o = .next t

/-- The memory has its canonical form. -/
def State.memOk (s : State) : Prop := s.mem.wf = true

/-- The group issues the instruction and nothing turns it away: its workgroup is resident and its lanes unexited, no lane has
used up its yield distance (R195), every check of R236 passes, and the instruction does not wait at issue (R190). -/
structure Runs (i : Instr) (s : State) : Prop where
  can : s.canIssue = true
  fresh : s.spent = none
  legal : precheck i s = none
  free : heldNow i s = false

/-- A register of a lane as handler mode (`h`) or a kernel names it (R390). -/
def Warp.regIn (w : Warp) (h : Bool) (r l : Nat) : Word := { w with handler := h }.reg r l

/-- What an instruction does to the warp that issues it: new register values, new uniform registers, what becomes of each
lane that has moved past the instruction, flags ORed into FSTAT, and what becomes of the warp's other fields. -/
structure Effects where
  reg : Nat → Nat → Option Word := fun _ _ => none
  uni : Nat → Option Word := fun _ => none
  lane : Nat → Lane → Lane := fun _ x => x
  flags : Word := 0
  rest : Warp → Warp := fun w => w

/-- `t` is `s` after the issuing group has executed an instruction with these effects, and nothing else: memory, control
registers, every other workgroup and warp, every lane outside the group, every register, flag and predicate that the effects do
not name are as they were. Each lane of the group has moved past the instruction, is charged one unit of yield distance
(R195) and is released from a `join` (R185); the warp's ISSUED counter rises by one (R271). -/
structure Executed (s t : State) (f : Fields) (e : Effects) : Prop where
  outside : t = { s with wgs := t.wgs }
  wgs : ∀ k, k ≠ s.curWg → t.wg k = s.wg k
  objects : t.curG = { s.curG with warps := t.curG.warps }
  warps : ∀ w, w ≠ s.curWarp → t.curG.warp w = s.curG.warp w
  warp : t.curW =
    { e.rest s.curW with
      lanes := t.curW.lanes, regs := t.curW.regs, hrows := t.curW.hrows, uni := t.curW.uni, perf := t.curW.perf
      fstat := (e.rest s.curW).fstat ||| e.flags, lastIssue := s.nextTurn, swapped := f.swap }
  issued : ∀ n, SMap.get 0 t.curW.perf n = SMap.get 0 s.curW.perf n + (if n = 0 then 1 else 0)
  others : ∀ l, l ∉ s.group → t.curW.lane l = s.curW.lane l
  lanes : ∀ l, l ∈ s.group → t.curW.lane l =
    e.lane l { s.curW.lane l with pc := (s.curW.lane l).pc + BitVec.ofNat 64 f.len
                                  ydist := (s.curW.lane l).ydist - 1, held := false }
  regs : ∀ r l, t.curW.reg r l = (e.reg r l).getD (s.curW.reg r l)
  hidden : ∀ r l, 248 ≤ r → t.curW.regIn (!s.curW.handler) r l = s.curW.regIn (!s.curW.handler) r l
  unis : ∀ r, SMap.get 0 t.curW.uni r = (e.uni r).getD (SMap.get 0 s.curW.uni r)

/-- An instruction that runs completes, with these effects and no other. -/
def Completes (i : Instr) (s : State) (e : Effects) : Prop :=
  Runs i s → ∃ t, exec i s = .next t ∧ Executed s t i.fields e

/-- Register D of each guard-true lane receives a value, or, with D's kind bit, `s`D the lowest such lane's (R248); `gz`
discards. -/
def toD (f : Fields) (s : State) (v : Nat → Word) : Effects :=
  if f.kinds.getLsbD 0 then { uni := fun r => if r = f.d.toNat then (s.trueLanes f).head?.map v else none }
  else { reg := fun r l => if r = f.d.toNat ∧ r ≠ 255 ∧ l ∈ s.trueLanes f then some (v l) else none }

/-- Pair D of each guard-true lane receives a value (R66). -/
def toPair (f : Fields) (s : State) (v : Nat → DWord) : Effects :=
  { reg := fun r l =>
      if l ∉ s.trueLanes f ∨ r = 255 then none
      else if r = f.d.toNat then some ((v l).setWidth 32)
      else if r = f.d.toNat + 1 then some ((v l >>> 32).setWidth 32) else none }

/-- Predicate D of each guard-true lane receives a value. -/
def toPred (f : Fields) (s : State) (v : Nat → Bool) : Effects :=
  { lane := fun l x => if l ∈ s.trueLanes f then x.setPred f.d.toNat (v l) else x }

/-- Effects with flags ORed into FSTAT (R220): those of every guard-true lane. -/
def Effects.raising (e : Effects) (f : Fields) (s : State) (fl : Nat → Nat) : Effects :=
  { e with flags := BitVec.ofNat 32 (((s.trueLanes f).foldl (fun a l => a ||| fl l) 0) % 128) }

end Sys2Proof.Machine
end

