-- ==== Sys2Proof/Certificates/Slice0/Obligations.lean ====
section
/-! DEFINITION. The statements for the provers. Unless a statement says otherwise, `A f s l` and the like are source operands of
lane `l` (general or uniform registers or the immediate, R248), and `Completes` says that the instruction, when it runs, answers a
next state with the given effects and no other. -/

open Sys2Proof Sys2Proof.Machine

/-! ### Operands -/

/-- Source A of a lane. -/
abbrev Sys2Proof.Machine.opA (f : Fields) (s : State) (l : Nat) : Word := s.curW.srcA f l
/-- Source B of a lane, the immediate in the I form. -/
abbrev Sys2Proof.Machine.opB (f : Fields) (s : State) (l : Nat) : Word := s.curW.srcB f l
/-- Source C of a lane. -/
abbrev Sys2Proof.Machine.opC (f : Fields) (s : State) (l : Nat) : Word := s.curW.srcC f l
/-- Pair A of a lane. -/
abbrev Sys2Proof.Machine.pairA (f : Fields) (s : State) (l : Nat) : DWord := s.curW.pairA f l
/-- Pair B of a lane, the sign-extended immediate in the I form. -/
abbrev Sys2Proof.Machine.pairB (f : Fields) (s : State) (l : Nat) : DWord := s.curW.pairB f l
/-- Pair C of a lane. -/
abbrev Sys2Proof.Machine.pairC (f : Fields) (s : State) (l : Nat) : DWord := s.curW.pairC f l
/-- Predicate source A of a lane, inverted by MOD bit 59 (R256). -/
abbrev Sys2Proof.Machine.prA (f : Fields) (s : State) (l : Nat) : Bool := (s.curW.lane l).pred f.a.toNat != f.mbit 0
/-- Predicate source B of a lane, inverted by MOD bit 60 (R256). -/
abbrev Sys2Proof.Machine.prB (f : Fields) (s : State) (l : Nat) : Bool := (s.curW.lane l).pred f.b.toNat != f.mbit 1

/-- The integer that a word stands for, unsigned with U (R249). -/
abbrev Sys2Proof.Machine.int (u : Bool) (x : Word) : Int := if u then (x.toNat : Int) else x.toInt

/-- A result that may saturate (R250): an exact integer `x`, clamped with SAT to the range of the type, with SATF where the clamp
changes it. -/
def Sys2Proof.Machine.satTo (f : Fields) (s : State) (u : Bool) (x : Nat → Int) : Effects :=
  let lo : Int := if u then 0 else -2 ^ 31
  let hi : Int := if u then 2 ^ 32 - 1 else 2 ^ 31 - 1
  let y (l : Nat) : Int := if f.mbit 1 then max lo (min hi (x l)) else x l
  (toD f s fun l => BitVec.ofInt 32 (y l)).raising f s fun l => if y l = x l then 0 else 64

/-! ### Integer instructions -/

/-- R250: `add`, `sub`, `abs` and `neg` on exact integers; without `.sat` they wrap, with it they clamp and raise SATF. R250:
products. `mul` and `mad` keep the low half whatever U; `mulhi` gives bits 63:32 of the exact product; `madw` extends both factors
and adds modulo 2^64. -/
def Obligations.SumsAndProducts : Prop :=
  (∀ (f : Fields) (s : State),
    Completes (.add f) s (satTo f s (f.mbit 0) fun l => int (f.mbit 0) (opA f s l) + int (f.mbit 0) (opB f s l)) ∧
    Completes (.sub f) s (satTo f s (f.mbit 0) fun l => int (f.mbit 0) (opA f s l) - int (f.mbit 0) (opB f s l)) ∧
    Completes (.abs f) s (satTo f s false fun l => |(opA f s l).toInt|) ∧
    Completes (.neg f) s (satTo f s false fun l => -(opA f s l).toInt)) ∧
  (∀ (f : Fields) (s : State),
    Completes (.mul f) s (toD f s fun l => BitVec.ofInt 32 (int (f.mbit 0) (opA f s l) * int (f.mbit 0) (opB f s l))) ∧
    Completes (.mulhi f) s (toD f s fun l =>
      BitVec.ofInt 32 (int (f.mbit 0) (opA f s l) * int (f.mbit 0) (opB f s l) / 2 ^ 32)) ∧
    Completes (.mad f) s (toD f s fun l =>
      BitVec.ofInt 32 (int (f.mbit 0) (opA f s l) * int (f.mbit 0) (opB f s l) + int (f.mbit 0) (opC f s l))) ∧
    Completes (.madw f) s (toPair f s fun l =>
      BitVec.ofInt 64 (int (f.mbit 0) (opA f s l) * int (f.mbit 0) (opB f s l)) + pairC f s l))

/-- R251, all four cases of `div` and `rem`. -/
def Obligations.DivisionTruncatesAndNeverTraps : Prop :=
  ∀ (f : Fields) (s : State),
    Completes (.div f) s (toD f s fun l =>
      let a := opA f s l
      let b := opB f s l
      if b = 0 then 0xFFFFFFFF
      else if f.mbit 0 then BitVec.ofNat 32 (a.toNat / b.toNat)
      else if a.toInt = -2 ^ 31 ∧ b.toInt = -1 then 0x80000000
      else BitVec.ofInt 32 (a.toInt.tdiv b.toInt)) ∧
    Completes (.rem f) s (toD f s fun l =>
      let a := opA f s l
      let b := opB f s l
      if b = 0 then a
      else if f.mbit 0 then BitVec.ofNat 32 (a.toNat - b.toNat * (a.toNat / b.toNat))
      else if a.toInt = -2 ^ 31 ∧ b.toInt = -1 then 0
      else BitVec.ofInt 32 (a.toInt - b.toInt * a.toInt.tdiv b.toInt))

/-- R250: `min` and `max` under the type, the bitwise instructions, and the bit counts. R250: `popc` counts the set bits, `clz`
the zeros above the highest set bit (32 for zero), `brev` reverses the bits. -/
def Obligations.BitwiseSelectionsAndCounts : Prop :=
  (∀ (f : Fields) (s : State),
    Completes (.min f) s (toD f s fun l =>
      BitVec.ofInt 32 (min (int (f.mbit 0) (opA f s l)) (int (f.mbit 0) (opB f s l)))) ∧
    Completes (.max f) s (toD f s fun l =>
      BitVec.ofInt 32 (max (int (f.mbit 0) (opA f s l)) (int (f.mbit 0) (opB f s l)))) ∧
    Completes (.and f) s (toD f s fun l => opA f s l &&& opB f s l) ∧
    Completes (.or f) s (toD f s fun l => opA f s l ||| opB f s l) ∧
    Completes (.xor f) s (toD f s fun l => opA f s l ^^^ opB f s l) ∧
    Completes (.andn f) s (toD f s fun l => opA f s l &&& ~~~ opB f s l) ∧
    Completes (.not f) s (toD f s fun l => ~~~ opA f s l)) ∧
  ((∀ (f : Fields) (s : State), ∃ v : Nat → Word, Completes (.popc f) s (toD f s v) ∧
    ∀ l, (v l).toNat = ((List.range 32).filter fun i => (opA f s l).getLsbD i).length) ∧
  (∀ (f : Fields) (s : State), ∃ v : Nat → Word, Completes (.clz f) s (toD f s v) ∧
    ∀ l, (v l).toNat ≤ 32 ∧ (opA f s l).toNat < 2 ^ (32 - (v l).toNat) ∧
      ((v l).toNat < 32 → 2 ^ (31 - (v l).toNat) ≤ (opA f s l).toNat)) ∧
  (∀ (f : Fields) (s : State), ∃ v : Nat → Word, Completes (.brev f) s (toD f s v) ∧
    ∀ l i, i < 32 → (v l).getLsbD i = (opA f s l).getLsbD (31 - i)))

/-- R252: shifts and funnel shifts take their count modulo 32. R252: the bit-field instructions, bit by bit, and the byte select,
byte by byte. R253: the 64-bit instructions on pairs, modulo 2^64, with counts modulo 64; no flag. -/
def Obligations.ShiftsFieldsAndPairs : Prop :=
  (∀ (f : Fields) (s : State),
    Completes (.shl f) s (toD f s fun l => opA f s l <<< ((opB f s l).toNat % 32)) ∧
    Completes (.shr f) s (toD f s fun l => opA f s l >>> ((opB f s l).toNat % 32)) ∧
    Completes (.sar f) s (toD f s fun l => (opA f s l).sshiftRight ((opB f s l).toNat % 32)) ∧
    Completes (.rot f) s (toD f s fun l =>
      let n := (opB f s l).toNat % 32
      (opA f s l <<< n) ||| (opA f s l >>> (32 - n))) ∧
    Completes (.fsh f) s (toD f s fun l =>
      let n := (opC f s l).toNat % 32
      let x : Nat := (opA f s l).toNat * 2 ^ 32 + (opB f s l).toNat
      if f.mbit 0 then BitVec.ofNat 32 (x / 2 ^ n) else BitVec.ofNat 32 (x * 2 ^ n / 2 ^ 32))) ∧
  ((∀ (f : Fields) (s : State), ∃ v : Nat → Word, Completes (.bfx f) s (toD f s v) ∧
    ∀ l, let pos := (opB f s l).toNat % 32
      let len := min ((opB f s l).toNat / 256 % 64) (32 - pos)
      ∀ i, i < 32 → (v l).getLsbD i =
        (if i < len then (opA f s l).getLsbD (pos + i)
         else decide (0 < len) && !f.mbit 0 && (opA f s l).getLsbD (pos + len - 1))) ∧
  (∀ (f : Fields) (s : State), ∃ v : Nat → Word, Completes (.bfi f) s (toD f s v) ∧
    ∀ l, let pos := (opB f s l).toNat % 32
      let len := min ((opB f s l).toNat / 256 % 64) (32 - pos)
      ∀ i, i < 32 → (v l).getLsbD i =
        (if pos ≤ i ∧ i < pos + len then (opA f s l).getLsbD (i - pos) else (opC f s l).getLsbD i)) ∧
  (∀ (f : Fields) (s : State), ∃ v : Nat → Word, Completes (.bsel f) s (toD f s v) ∧
    ∀ l i, i < 4 →
      let src : Nat := (opB f s l).toNat * 2 ^ 32 + (opA f s l).toNat
      let x := src / 256 ^ ((opC f s l).toNat / 8 ^ i % 8) % 256
      (v l).toNat / 256 ^ i % 256 =
        (if (opC f s l).getLsbD (12 + i) then (if (opC f s l).getLsbD (16 + i) ∧ 128 ≤ x then 255 else 0) else x))) ∧
  (∀ (f : Fields) (s : State),
    Completes (.add64 f) s (toPair f s fun l => pairA f s l + pairB f s l) ∧
    Completes (.sub64 f) s (toPair f s fun l => pairA f s l - pairB f s l) ∧
    Completes (.shl64 f) s (toPair f s fun l => pairA f s l <<< ((opB f s l).toNat % 64)) ∧
    Completes (.shr64 f) s (toPair f s fun l =>
      if f.mbit 0 then (pairA f s l).sshiftRight ((opB f s l).toNat % 64) else pairA f s l >>> ((opB f s l).toNat % 64)) ∧
    Completes (.lea f) s (toPair f s fun l =>
      BitVec.ofInt 64 ((pairA f s l).toNat + int (f.mbit 3) (opB f s l) * 2 ^ (f.mod.toNat % 8))))

/-- R254, R255: `icmp` on words or pairs, `sel`, `mov` and `movi`. R256: the predicate instructions; `pt` as destination discards.
-/
def Obligations.MovesComparesAndPredicates : Prop :=
  (∀ (f : Fields) (s : State),
    Completes (.icmp f) s (toPred f s fun l =>
      let a : Int := if f.mbit 4 then (if f.mbit 3 then ((pairA f s l).toNat : Int) else (pairA f s l).toInt)
        else int (f.mbit 3) (opA f s l)
      let b : Int := if f.mbit 4 then (if f.mbit 3 then ((pairB f s l).toNat : Int) else (pairB f s l).toInt)
        else int (f.mbit 3) (opB f s l)
      match f.mod.toNat % 8 with
      | 0 => decide (a = b) | 1 => decide (a ≠ b) | 2 => decide (a < b)
      | 3 => decide (a ≤ b) | 4 => decide (b < a) | _ => decide (b ≤ a)) ∧
    Completes (.sel f) s (toD f s fun l =>
      if (s.curW.lane l).pred f.c.toNat = f.mbit 0 then opB f s l else opA f s l) ∧
    Completes (.mov f) s (if f.mbit 0 then toPair f s fun l => pairA f s l else toD f s fun l => opA f s l) ∧
    Completes (.movi f) s (toD f s fun _ => f.immWord)) ∧
  (∀ (f : Fields) (s : State),
    Completes (.pand f) s (toPred f s fun l => prA f s l && prB f s l) ∧
    Completes (.por f) s (toPred f s fun l => prA f s l || prB f s l) ∧
    Completes (.pxor f) s (toPred f s fun l => prA f s l != prB f s l) ∧
    Completes (.pnot f) s (toPred f s fun l => !prA f s l) ∧
    Completes (.pmov f) s (toPred f s fun l => prA f s l) ∧
    Completes (.pmovPack f) s (toD f s fun l => (s.curW.lane l).preds.setWidth 32) ∧
    Completes (.pmovUnpack f) s
      { lane := fun l x => if l ∈ s.trueLanes f then { x with preds := (opA f s l).setWidth 7 } else x } ∧
    ∀ (x : Lane) (i j : Nat) (v : Bool), (x.setPred i v).pred j = if j = i ∧ i < 7 then v else x.pred j)

/-! ### Floating point -/

/-- The exact number that a finite value stands for; 0 for an infinity or a NaN. -/
def Sys2Proof.Val.rat : Val → ℚ
  | .fin n m e => (if n then -1 else 1) * (m : ℚ) * (2 : ℚ) ^ e
  | _ => 0

/-- A value is finite. -/
def Sys2Proof.Val.isFin : Val → Bool
  | .fin .. => true
  | _ => false

/-- The four formats of arithmetic. -/
def Sys2Proof.Machine.arithFmts : List Fmt := [fp64, fp32, fp16, bf16]

/-- The magnitude bits of an FP32 code. -/
abbrev Sys2Proof.Machine.mag32 (x : Word) : Nat := x.toNat % 2 ^ 31
/-- An FP32 code is a NaN; it is signalling when its top mantissa bit is 0 (R203). -/
abbrev Sys2Proof.Machine.nan32 (x : Word) : Bool := decide (0x7F800000 < mag32 x)
/-- R203. -/
abbrev Sys2Proof.Machine.snan32 (x : Word) : Bool := nan32 x && !x.getLsbD 22
/-- The order of FP32 codes that are no NaN, both zeros alike. -/
abbrev Sys2Proof.Machine.key32 (x : Word) : Int := if x.getLsbD 31 then -(mag32 x : Int) else mag32 x
/-- The order of FP32 codes with -0.0 below +0.0. -/
abbrev Sys2Proof.Machine.zkey32 (x : Word) : Int := if x.getLsbD 31 then -(mag32 x : Int) - 1 else mag32 x
/-- FP64 as FP32 above. -/
abbrev Sys2Proof.Machine.mag64 (x : DWord) : Nat := x.toNat % 2 ^ 63
/-- FP64 as FP32 above. -/
abbrev Sys2Proof.Machine.nan64 (x : DWord) : Bool := decide (0x7FF0000000000000 < mag64 x)
/-- FP64 as FP32 above. -/
abbrev Sys2Proof.Machine.snan64 (x : DWord) : Bool := nan64 x && !x.getLsbD 51
/-- FP64 as FP32 above. -/
abbrev Sys2Proof.Machine.key64 (x : DWord) : Int := if x.getLsbD 63 then -(mag64 x : Int) else mag64 x

/-- The relation of a comparison code on two keys (R280). -/
def Sys2Proof.Machine.relOf (cc : Nat) (a b : Int) : Bool :=
  match cc with
  | 0 => decide (a = b) | 1 => decide (a ≠ b) | 2 => decide (a < b)
  | 3 => decide (a ≤ b) | 4 => decide (b < a) | _ => decide (b ≤ a)

/-- The table of R280: the predicate and whether invalid is raised, from the code, whether an operand is a NaN or a signalling
NaN, and the operands' keys. -/
def Sys2Proof.Machine.compareTable (cc : Nat) (nan snan : Bool) (a b : Int) : Bool × Bool :=
  if cc < 6 then (!nan && relOf cc a b, if cc < 2 then snan else nan)
  else if cc = 6 then (!nan, snan)
  else if cc = 7 then (nan, snan)
  else (nan || relOf (cc - 8) a b, snan)

/-- R278, R283, R284, R285: what each arithmetic instruction rounds, in which format and mode; packed instructions element by
element; SEED advances under SR only. On finite operands the result and its flags are those of ONE rounding (`narrow`) of the exact
rational sum, product or product and sum. What `narrow` answers is said by RoundingIsNearest and
DirectedRoundingAndInvalidOperations. -/
def Obligations.FloatArithmeticRoundsOnce : Prop :=
  ∀ (f : Fields) (s : State),
    let rm (l i : Nat) : Rm := rmOf (f.mod.toNat % 8) (s.curW.lane l).seed i
    let x (v : Word) : Val := fp32.decode v.toNat
    let y (v : DWord) : Val := fp64.decode v.toNat
    let fm : Fmt := if f.mbit 3 then bf16 else fp16
    let h (v : Word) (i : Nat) : Val := fm.decode (v.toNat / 65536 ^ i % 65536)
    let two (g : Nat → Nat × Flags) : Word × Flags := (BitVec.ofNat 32 ((g 0).1 + (g 1).1 * 65536), (g 0).2 ||| (g 1).2)
    let word (r : Nat → Nat × Flags) : Effects := (toD f s fun l => BitVec.ofNat 32 (r l).1).raising f s fun l => (r l).2
    let packed (r : Nat → Nat → Nat × Flags) : Effects :=
      { (toD f s fun l => (two (r l)).1).raising f s fun l => (two (r l)).2 with
        lane := fun l z => if f.mod.toNat % 8 = 4 ∧ l ∈ s.trueLanes f then { z with seed := seedAdvance z.seed } else z }
    let wide (v : Nat → DWord) (fl : Nat → Flags) : Effects :=
      { (toPair f s v).raising f s fl with
        lane := fun l z => if f.mod.toNat % 8 = 4 ∧ l ∈ s.trueLanes f then { z with seed := seedAdvance z.seed } else z }
    let pair (r : Nat → Nat × Flags) : Effects := wide (fun l => BitVec.ofNat 64 (r l).1) fun l => (r l).2
    let e (l i : Nat) : Nat × Flags := fmaVal fp32 (rm l i) (bf16.decode ((opA f s l).toNat / 65536 ^ i % 65536))
      (bf16.decode ((opB f s l).toNat / 65536 ^ i % 65536)) (x (BitVec.ofNat 32 ((pairC f s l).toNat / 2 ^ (32 * i))))
    let d (l : Nat) : DWord := if f.isWide then f.immWord ++ (0 : Word) else s.curW.pair f.b.toNat l
    Completes (.fadd f) s (word fun l => addVal fp32 (rm l 0) (x (opA f s l)) (x (opB f s l))) ∧
    Completes (.fsub f) s (word fun l => addVal fp32 (rm l 0) (x (opA f s l)) (x (opB f s l)).neg) ∧
    Completes (.fmul f) s (word fun l => mulVal fp32 (rm l 0) (x (opA f s l)) (x (opB f s l))) ∧
    Completes (.ffma f) s (word fun l => fmaVal fp32 (rm l 0) (x (opA f s l)) (x (opB f s l)) (x (opC f s l))) ∧
    Completes (.hadd2 f) s (packed fun l i => addVal fm (rm l i) (h (opA f s l) i) (h (opB f s l) i)) ∧
    Completes (.hmul2 f) s (packed fun l i => mulVal fm (rm l i) (h (opA f s l) i) (h (opB f s l) i)) ∧
    Completes (.hfma2 f) s (packed fun l i => fmaVal fm (rm l i) (h (opA f s l) i) (h (opB f s l) i) (h (opC f s l) i)) ∧
    Completes (.bfma2 f) s
      (wide (fun l => BitVec.ofNat 32 (e l 1).1 ++ BitVec.ofNat 32 (e l 0).1) fun l => (e l 0).2 ||| (e l 1).2) ∧
    Completes (.dadd f) s (pair fun l => addVal fp64 (rm l 0) (y (pairA f s l)) (y (d l))) ∧
    Completes (.dmul f) s (pair fun l => mulVal fp64 (rm l 0) (y (pairA f s l)) (y (d l))) ∧
    Completes (.dfma f) s (pair fun l => fmaVal fp64 (rm l 0) (y (pairA f s l)) (y (d l)) (y (pairC f s l))) ∧
    ∀ fm ∈ arithFmts, ∀ (rm : Rm) (a b c : Val), a.isFin = true → b.isFin = true → c.isFin = true →
      (∃ v, v.isFin = true ∧ v.rat = a.rat + b.rat ∧ addVal fm rm a b = narrow fm rm false v) ∧
      (∃ v, v.isFin = true ∧ v.rat = a.rat * b.rat ∧ mulVal fm rm a b = narrow fm rm false v) ∧
      ∃ v, v.isFin = true ∧ v.rat = a.rat * b.rat + c.rat ∧ fmaVal fm rm a b c = narrow fm rm false v

/-- R213 in RNE: an exact finite number that does not overflow becomes a number of the format, and none is nearer; where a different
number of the format is equally near, the code is even. -/
def Obligations.RoundingIsNearest : Prop :=
  ∀ fm ∈ arithFmts, ∀ (n : Bool) (m : Nat) (e : Int), m ≠ 0 →
    let r := narrow fm .rne false (.fin n m e)
    r.2 &&& flOF = 0 →
      (fm.decode r.1).isFin = true ∧
      ∀ c, c < 2 ^ (fm.e + fm.m + 1) → (fm.decode c).isFin = true →
        |(fm.decode r.1).rat - (Val.fin n m e).rat| ≤ |(fm.decode c).rat - (Val.fin n m e).rat| ∧
        (|(fm.decode r.1).rat - (Val.fin n m e).rat| = |(fm.decode c).rat - (Val.fin n m e).rat| →
          (fm.decode c).rat ≠ (fm.decode r.1).rat → r.1 % 2 = 0)

/-- R212, R213: RZ, RU and RD round to the neighbour on their side: the result is a number of the format on that side of the exact
number, and no number of the format lies strictly between the two. The inexact flag is raised exactly when the result differs from
the exact number. R203, R278: when arithmetic raises invalid, and what it then writes; the sign of an exact zero sum. -/
def Obligations.DirectedRoundingAndInvalidOperations : Prop :=
  (∀ fm ∈ arithFmts, ∀ (n : Bool) (m : Nat) (e : Int), m ≠ 0 →
    let v := (Val.fin n m e).rat
    let r (rm : Rm) := narrow fm rm false (.fin n m e)
    let q (rm : Rm) := (fm.decode (r rm).1).rat
    let finite (c : Nat) : Prop := c < 2 ^ (fm.e + fm.m + 1) ∧ (fm.decode c).isFin = true
    ((r .rz).2 &&& flOF = 0 → finite (r .rz).1 ∧ |q .rz| ≤ |v| ∧ 0 ≤ q .rz * v ∧
      ∀ c, finite c → |(fm.decode c).rat| ≤ |v| → |(fm.decode c).rat| ≤ |q .rz|) ∧
    ((r .ru).2 &&& flOF = 0 → finite (r .ru).1 ∧ v ≤ q .ru ∧ ∀ c, finite c → v ≤ (fm.decode c).rat → q .ru ≤ (fm.decode c).rat) ∧
    ((r .rd).2 &&& flOF = 0 → finite (r .rd).1 ∧ q .rd ≤ v ∧ ∀ c, finite c → (fm.decode c).rat ≤ v → (fm.decode c).rat ≤ q .rd) ∧
    ∀ rm, (∀ k, rm = .sr k → k < 65536) → (r rm).2 &&& flOF = 0 → ((r rm).2 &&& flNX ≠ 0 ↔ q rm ≠ v)) ∧
  (∀ fm ∈ arithFmts, ∀ (rm : Rm) (a b c : Val),
    let nv (r : Nat × Flags) : Bool := r.2 &&& flNV != 0
    let clash (x y : Val) : Bool := match x, y with
      | .inf n, .inf k => n != k
      | _, _ => false
    let zeroInf (x y : Val) : Bool := match x, y with
      | .inf _, .fin _ 0 _ => true
      | .fin _ 0 _, .inf _ => true
      | _, _ => false
    let product (x y : Val) : Val := match x, y with
      | .inf n, .inf k => .inf (n != k)
      | .inf n, .fin k (_ + 1) _ => .inf (n != k)
      | .fin n (_ + 1) _, .inf k => .inf (n != k)
      | _, _ => .fin false 0 0
    nv (addVal fm rm a b) = (clash a b || a.isSig || b.isSig) ∧
    nv (mulVal fm rm a b) = (zeroInf a b || a.isSig || b.isSig) ∧
    nv (fmaVal fm rm a b c) = (zeroInf a b || clash (product a b) c || a.isSig || b.isSig || c.isSig) ∧
    ((a.isNan || b.isNan || clash a b) = true → (addVal fm rm a b).1 = fm.nan) ∧
    ((a.isNan || b.isNan || zeroInf a b) = true → (mulVal fm rm a b).1 = fm.nan) ∧
    ((a.isNan || b.isNan || c.isNan || zeroInf a b || clash (product a b) c) = true → (fmaVal fm rm a b c).1 = fm.nan) ∧
    (∀ n m e, m ≠ 0 → (addVal fm rm (.fin n m e) (.fin (!n) m e)).1 = fm.sign (rm == .rd)))

/-- R279: `fmin` and `fmax`, with -0.0 ordered below +0.0 and a NaN giving way. R283: `hmin2` and `hmax2` choose in each half the
lesser or the greater of its two elements as R279 does, in the instruction's format, with -0.0 ordered below +0.0 and a NaN giving
way. -/
def Obligations.FloatChoices : Prop :=
  (∀ (f : Fields) (s : State),
    let fl (l : Nat) : Nat := if snan32 (opA f s l) || snan32 (opB f s l) then 1 else 0
    let pick (l : Nat) (other : Word) : Word :=
      if nan32 (opA f s l) && nan32 (opB f s l) then 0x7FC00000
      else if nan32 (opA f s l) then opB f s l
      else if nan32 (opB f s l) then opA f s l else other
    Completes (.fmin f) s ((toD f s fun l => pick l
      (if zkey32 (opB f s l) < zkey32 (opA f s l) then opB f s l else opA f s l)).raising f s fl) ∧
    Completes (.fmax f) s ((toD f s fun l => pick l
      (if zkey32 (opA f s l) < zkey32 (opB f s l) then opB f s l else opA f s l)).raising f s fl)) ∧
  (∀ (f : Fields) (s : State),
    let h (v : Word) (i : Nat) : Nat := v.toNat / 65536 ^ i % 65536
    let top : Nat := if f.mbit 3 then 0x7F80 else 0x7C00
    let quiet : Nat := if f.mbit 3 then 0x40 else 0x200
    let nan (c : Nat) : Bool := decide (top < c % 32768)
    let snan (c : Nat) : Bool := nan c && c / quiet % 2 == 0
    let zkey (c : Nat) : Int := if 32768 ≤ c then -(c % 32768 : Int) - 1 else c
    let pick (a b other : Nat) : Nat :=
      if nan a && nan b then top + quiet else if nan a then b else if nan b then a else other
    let both (g : Nat → Nat → Nat) (l : Nat) : Word :=
      BitVec.ofNat 32 (g (h (opA f s l) 0) (h (opB f s l) 0) + g (h (opA f s l) 1) (h (opB f s l) 1) * 65536)
    let fl (l : Nat) : Nat :=
      if snan (h (opA f s l) 0) || snan (h (opB f s l) 0) || snan (h (opA f s l) 1) || snan (h (opB f s l) 1) then 1 else 0
    Completes (.hmin2 f) s ((toD f s (both fun a b => pick a b (if zkey b < zkey a then b else a))).raising f s fl) ∧
    Completes (.hmax2 f) s ((toD f s (both fun a b => pick a b (if zkey a < zkey b then b else a))).raising f s fl))

/-- R280, R285: every row of the table of comparison codes, for FP32 and FP64. R281: the ten classes of an FP32 value, by its
bits. -/
def Obligations.FloatTests : Prop :=
  (∀ (f : Fields) (s : State),
    let cc := f.mod.toNat % 16
    let d (l : Nat) : DWord := if f.isWide then f.immWord ++ (0 : Word) else s.curW.pair f.b.toNat l
    let r (l : Nat) : Bool × Bool := compareTable cc (nan32 (opA f s l) || nan32 (opB f s l))
      (snan32 (opA f s l) || snan32 (opB f s l)) (key32 (opA f s l)) (key32 (opB f s l))
    let r64 (l : Nat) : Bool × Bool := compareTable cc (nan64 (pairA f s l) || nan64 (d l))
      (snan64 (pairA f s l) || snan64 (d l)) (key64 (pairA f s l)) (key64 (d l))
    cc < 14 →
      Completes (.fcmp f) s ((toPred f s fun l => (r l).1).raising f s fun l => if (r l).2 then 1 else 0) ∧
      Completes (.dcmp f) s ((toPred f s fun l => (r64 l).1).raising f s fun l => if (r64 l).2 then 1 else 0)) ∧
  (∀ (f : Fields) (s : State),
    Completes (.fcls f) s (toPred f s fun l =>
      let x := opA f s l
      let m := mag32 x
      let neg := x.getLsbD 31
      let cls : Nat :=
        if 0x7F800000 < m then (if x.getLsbD 22 then 1 else 0)
        else if m = 0x7F800000 then (if neg then 2 else 9)
        else if m = 0 then (if neg then 5 else 6)
        else if m < 0x800000 then (if neg then 4 else 7)
        else (if neg then 3 else 8)
      (opB f s l).getLsbD cls))

/-- R282: `frnd` keeps zeros, infinities and integral values, keeps the sign, gives an integral value less than 1 away (at most
1/2 in RNE, on the mode's side otherwise), and raises invalid for a signalling NaN only. -/
def Obligations.RoundToIntegral : Prop :=
  ∀ (f : Fields) (s : State), f.mod.toNat % 8 < 4 →
    ∃ v : Nat → Word, Completes (.frnd f) s ((toD f s v).raising f s fun l => if snan32 (opA f s l) then 1 else 0) ∧
    ∀ l, let x := opA f s l
      let a := (fp32.decode x.toNat).rat
      let b := (fp32.decode (v l).toNat).rat
      (nan32 x = true → v l = 0x7FC00000) ∧
      (mag32 x = 0x7F800000 ∨ mag32 x = 0 → v l = x) ∧
      (mag32 x < 0x7F800000 →
        (v l).getLsbD 31 = x.getLsbD 31 ∧ (∃ k : Int, b = k) ∧ ((∃ k : Int, a = k) → v l = x) ∧
        (f.mod.toNat % 8 = 0 → |b - a| ≤ 1 / 2) ∧
        (f.mod.toNat % 8 = 1 → |b| ≤ |a| ∧ |a| - |b| < 1) ∧
        (f.mod.toNat % 8 = 2 → a ≤ b ∧ b - a < 1) ∧
        (f.mod.toNat % 8 = 3 → b ≤ a ∧ a - b < 1))

/-- R214, R287: the code `v` and flags `fl` that a value has as an integer of `n` bits with limits `lo` and `hi`, in the rounding mode of a code
other than SR. -/
def Sys2Proof.Machine.IntegerTarget (n : Nat) (lo hi : Int) (rm : Nat) (x : Val) (v fl : Nat) : Prop :=
  (x.isNan = true → v = 0 ∧ fl = 1) ∧
  (∀ neg, x = .inf neg → v = ((if neg then lo else hi) % 2 ^ n).toNat ∧ fl = 64) ∧
  (x.isFin = true → rm < 4 → ∃ k : Int,
    (rm = 0 → |(k : ℚ) - x.rat| ≤ 1 / 2 ∧ (|(k : ℚ) - x.rat| = 1 / 2 → k % 2 = 0)) ∧
    (rm = 1 → |(k : ℚ)| ≤ |x.rat| ∧ |x.rat| - |(k : ℚ)| < 1 ∧ 0 ≤ (k : ℚ) * x.rat) ∧
    (rm = 2 → x.rat ≤ k ∧ (k : ℚ) - x.rat < 1) ∧ (rm = 3 → (k : ℚ) ≤ x.rat ∧ x.rat - k < 1) ∧
    v = (max lo (min hi k) % 2 ^ n).toNat ∧ fl = if k < lo ∨ hi < k then 84 else if (k : ℚ) = x.rat then 0 else 16)

/-- R287: the code and flags of a value as E8M0. -/
def Sys2Proof.Machine.E8m0Target (rm : Nat) (ovf : Bool) (x : Val) (v fl : Nat) : Prop :=
  (x.isNan = true ∨ x = .inf true ∨ (x.isFin = true ∧ x.rat ≤ 0) → v = 0xFF ∧ fl = 1) ∧
  (x = .inf false → if ovf then v = 0xFF ∧ fl = 1 else v = 0xFE ∧ fl = 64) ∧
  (x.isFin = true → 0 < x.rat → rm < 4 → ∃ k e : Int, (2 : ℚ) ^ k ≤ x.rat ∧ x.rat < (2 : ℚ) ^ (k + 1) ∧
    let up : Prop := x.rat ≠ (2 : ℚ) ^ k ∧
      (rm = 2 ∨ (rm = 0 ∧ (3 * (2 : ℚ) ^ k < 2 * x.rat ∨ (3 * (2 : ℚ) ^ k = 2 * x.rat ∧ k % 2 = 0))))
    (up → e = k + 1) ∧ (¬up → e = k) ∧
    v = (if e < -127 then 0 else if 127 < e then 0xFE else (e + 127).toNat) ∧
    fl = if e < -127 ∨ 127 < e then 80 else if x.rat = (2 : ℚ) ^ k then 0 else 16)

/-- R214: the code and flags of a NaN, an infinity and a magnitude beyond every number of the format, narrowed to a floating-point code of
R286 in the rounding mode of a code. -/
def Sys2Proof.Machine.FloatTargetExtremes (t rm : Nat) (sat : Bool) (x : Val) (v fl : Nat) : Prop :=
  let sign (neg : Bool) : Nat := if neg then [2 ^ 31, 2 ^ 63, 2 ^ 15, 2 ^ 15, 2 ^ 7, 2 ^ 7, 2 ^ 5, 2 ^ 5].getD t 0 else 0
  let largest : Nat := [0x7F7FFFFF, 0x7FEFFFFFFFFFFFFF, 0x7BFF, 0x7F7F, 0x7B, 0x7E, 0x1F, 0x1F].getD t 0
  let beyond : Nat := [0x7F800000, 0x7FF0000000000000, 0x7C00, 0x7F80, 0x7C, 0x7F, 0x1F, 0x1F].getD t 0
  let limit : ℚ := (2 : ℚ) ^ [128, 1024, 16, 128, 16, 9, 5, 3].getD t 0
  (∀ sig, x = .nan sig → v = [0x7FC00000, 0x7FF8000000000000, 0x7E00, 0x7FC0, 0x7E, 0x7F, 0, 0].getD t 0 ∧
    fl = if sig = true ∨ 6 ≤ t then 1 else 0) ∧
  (∀ neg, x = .inf neg →
    (sat = true ∨ 6 ≤ t → v = sign neg + largest ∧ fl = 64) ∧
    (sat = false → t < 6 → v = sign neg + beyond ∧ fl = if t = 5 then 1 else 0)) ∧
  (x.isFin = true → limit ≤ |x.rat| →
    let away : Prop := rm = 0 ∨ rm = 4 ∨ (rm = 2 ∧ 0 < x.rat) ∨ (rm = 3 ∧ x.rat < 0)
    let neg : Bool := decide (x.rat < 0)
    (sat = true → v = sign neg + largest ∧ fl = 84) ∧
    (sat = false → ¬away → v = sign neg + largest ∧ fl = 20) ∧
    (sat = false → away → v = sign neg + beyond ∧ fl = if 6 ≤ t then 84 else 20))

/-- R286: the limits and width of an integer code. -/
def Sys2Proof.Machine.codeRange (t : Nat) : Nat × Int × Int :=
  match t with
  | 16 => (8, -2 ^ 7, 2 ^ 7 - 1) | 17 => (16, -2 ^ 15, 2 ^ 15 - 1) | 18 => (32, -2 ^ 31, 2 ^ 31 - 1) | 19 => (64, -2 ^ 63, 2 ^ 63 - 1)
  | 20 => (8, 0, 2 ^ 8 - 1) | 21 => (16, 0, 2 ^ 16 - 1) | 22 => (32, 0, 2 ^ 32 - 1) | 23 => (64, 0, 2 ^ 64 - 1)
  | _ => (4, -7, 7)

/-- R214, R286 to R291: the conversions complete, with the values of integer, I4X and E8M0 targets, of NaNs, infinities and overflows, and of
R288's examples, beside what is said of `narrow` elsewhere; a 64-bit target goes to a pair, and a packed target is element 0 with every other bit
zero; `unpk` writes each element's exact FP32 value to consecutive registers; SEED advances under SR only. -/
def Obligations.ConversionsComplete : Prop :=
  (∀ (f : Fields) (s : State), ∃ (v : Nat → Nat) (fl : Nat → Nat),
    let src := f.b.toNat % 32
    let t := f.c.toNat % 32
    Completes (.cvt f) s (Effects.raising
      { (if codeIsPair t then toPair f s fun l => BitVec.ofNat 64 (v l) else toD f s fun l => BitVec.ofNat 32 (v l)) with
        lane := fun l z => if f.mod.toNat % 8 = 4 ∧ l ∈ s.trueLanes f then { z with seed := seedAdvance z.seed } else z }
      f s fl) ∧
    ∀ l, let e := elemVal src (if codeIsPair src then (pairA f s l).toNat else (opA f s l).toNat) (f.b.toNat / 32)
      let c := convert src t (f.mod.toNat % 8) (rmOf (f.mod.toNat % 8) (s.curW.lane l).seed 0) (f.mbit 3) e.1
      v l = c.1 ∧ fl l = e.2 ||| c.2 ∧
      v l < 2 ^ (match t with
        | 2 | 3 | 17 | 21 => 16
        | 4 | 5 | 8 | 16 | 20 => 8
        | 6 | 7 => 6
        | 9 => 4
        | 1 | 19 | 23 => 64
        | _ => 32) ∧
      (t = 9 ∨ (16 ≤ t ∧ t < 24) →
        IntegerTarget (codeRange t).1 (codeRange t).2.1 (codeRange t).2.2 (f.mod.toNat % 8) e.1 c.1 c.2) ∧
      (t = 8 → E8m0Target (f.mod.toNat % 8) (f.mbit 3) e.1 c.1 c.2) ∧
      (t < 8 → f.mod.toNat % 8 < 5 → FloatTargetExtremes t (f.mod.toNat % 8) (!f.mbit 3 && !decide ((src, t) ∈
        [(0, 0), (0, 1), (1, 1), (2, 2), (2, 0), (2, 1), (3, 3), (3, 0), (3, 1), (4, 4), (4, 2), (4, 3), (4, 0), (4, 1)])) e.1 c.1 c.2)) ∧
  (∀ q ∈ [(18, 0, 0, 0, 0x40200000, 2, 16), (18, 0, 0, 1, 0xC06CCCCD, 0xFFFFFFFD, 16), (18, 0, 0, 0, 0x4F32D05E, 0x7FFFFFFF, 84),
      (22, 0, 0, 0, 0xBF800000, 0, 84), (18, 0, 0, 0, 0x7FC00000, 0, 1), (3, 0, 0, 0, 0x3F808000, 0x3F80, 16),
      (8, 0, 0, 0, 0x40400000, 0x80, 16), (8, 0, 0, 2, 0x40400000, 0x81, 16), (9, 0, 0, 0, 0x4119999A, 7, 84),
      (0, 5, 1, 0, 0x7F00, 0x7FC00000, 0)],
    let (t, src, i, rm, a, d, flags) := q
    let e := elemVal src a i
    let c := convert src t rm (rmOf rm 0 0) false e.1
    c.1 = d ∧ e.2 ||| c.2 = flags) ∧
  (∀ (f : Fields) (s : State), ∃ (v : Nat → Word) (fl : Nat → Nat),
    Completes (.pack f) s (Effects.raising
      { toD f s v with
        lane := fun l z => if f.mod.toNat % 8 = 4 ∧ l ∈ s.trueLanes f then { z with seed := seedAdvance z.seed } else z }
      f s fl) ∧
    (f.c.toNat % 128 ∈ [2, 3, 4, 5, 6, 7, 9] → ∀ l,
      let t := f.c.toNat % 128
      let a := f.a.toNat
      let b := f.b.toNat
      let i0 : Nat := if f.c.toNat = 0x89 then 4 else 0
      let src : List Word := if t ≤ 3 then [opA f s l, opB f s l]
        else [s.curW.reg a l, s.curW.reg (a + 1) l, s.curW.reg b l, s.curW.reg (b + 1) l] ++
          if t = 6 ∨ t = 7 then [s.curW.reg (b + 2) l] else []
      let width : Nat := if t ≤ 3 then 16 else if t ≤ 5 then 8 else if t ≤ 7 then 6 else 4
      let e (i : Nat) : Nat × Flags :=
        let x := fp32.decode (src.getD i 0).toNat
        let rm := rmOf (f.mod.toNat % 8) (s.curW.lane l).seed (i0 + i)
        match codeFmt t with
        | some fm => narrow fm rm (!f.mbit 3) x
        | none => toNibble rm x
      let old : Nat := (if f.kinds.getLsbD 0 then SMap.get 0 s.curW.uni f.d.toNat else s.curW.reg f.d.toNat l).toNat
      let kept : Nat := if t ≠ 9 then 0 else if i0 = 4 then old % 65536 else old / 65536 * 65536
      v l = BitVec.ofNat 32 (kept + ((List.range src.length).map fun i => (e i).1 * 2 ^ (width * (i0 + i))).sum) ∧
      fl l = (List.range src.length).foldl (fun n i => n ||| (e i).2) 0)) ∧
  (∀ (f : Fields) (s : State), ∃ fl : Nat → Nat,
    Completes (.unpk f) s (Effects.raising
      { reg := fun r l =>
          if l ∈ s.trueLanes f ∧ r ≠ 255 ∧ f.d.toNat ≤ r ∧ r < f.d.toNat + codeElems f.b.toNat then
            some (BitVec.ofNat 32 (narrow fp32 .rne false (elemVal f.b.toNat (opA f s l).toNat (r - f.d.toNat)).1).1)
          else none } f s fl) ∧
    ∀ l, fl l = (List.range (codeElems f.b.toNat)).foldl (fun n i =>
      let e := elemVal f.b.toNat (opA f s l).toNat i
      n ||| (e.2 ||| (narrow fp32 .rne false e.1).2)) 0)

/-- R221, R291: `ndot` adds one rounded product after another to the value of C, in element order; the elements are those of its
format, codebook formats taking A from their codebook; the flags are those of every element and every step. R292 to R294: lanes 0
to 7 write two codebook entries each; `cbdec` widens the indexed entry; `cbenc` gives the lowest index of the nearest entry that
is no NaN, or, for a NaN, of a NaN entry, and index 0 with FMTV where there is none (R210). -/
def Obligations.NarrowDotsAndCodebooks : Prop :=
  (∀ (f : Fields) (s : State), ∃ v fl : Nat → Nat,
    Completes (.ndot f) s ((toD f s fun l => BitVec.ofNat 32 (v l)).raising f s fl) ∧
    ∀ l,
      let fm := f.mod.toNat % 16
      let k : Nat := [8, 4, 4, 5, 5, 2, 2, 4].getD fm 8
      let code : Nat := [9, 5, 4, 6, 7, 3, 2, 16].getD fm 9
      let a (i : Nat) : Val × Flags :=
        if fm < 8 then elemVal code (opA f s l).toNat i
        else (bf16.decode (SMap.get 0 s.curW.books ((fm - 8) * 16 + (opA f s l).toNat / 16 ^ i % 16)).toNat, 0)
      let b (i : Nat) : Val × Flags := elemVal code (opB f s l).toNat i
      ∃ acc : Nat → Nat × Flags, acc 0 = ((opC f s l).toNat, 0) ∧ v l = (acc k).1 ∧ fl l = (acc k).2 ∧
        ∀ i, i < k →
          let y := fmaVal fp32 .rne (a i).1 (b i).1 (fp32.decode (acc i).1)
          acc (i + 1) = (y.1, (acc i).2 ||| (a i).2 ||| (b i).2 ||| y.2)) ∧
  ((∀ (f : Fields) (s : State), Runs (.cbld f) s → ∃ t, exec (.cbld f) s = .next t ∧
    Executed s t f { rest := fun w => { w with books := t.curW.books } } ∧
    ∀ k i, i < 16 → SMap.get 0 t.curW.books (k * 16 + i) =
      if k = f.d.toNat ∧ i / 2 ∈ s.trueLanes f then (if i % 2 = 0 then (opA f s (i / 2)).setWidth 16
        else (opA f s (i / 2) >>> 16).setWidth 16)
      else SMap.get 0 s.curW.books (k * 16 + i)) ∧
  (∀ (f : Fields) (s : State), ∃ v fl : Nat → Nat,
    Completes (.cbenc f) s ((toD f s fun l => BitVec.ofNat 32 (v l)).raising f s fl) ∧
    ∀ l,
      let a := fp32.decode (opA f s l).toNat
      let b (i : Nat) : Val := bf16.decode (SMap.get 0 s.curW.books (f.c.toNat * 16 + i)).toNat
      let dist (x : Val) : Option ℚ := match a, x with
        | .inf n, .inf k => if n = k then some 0 else none
        | .fin .., .fin .. => some |a.rat - x.rat|
        | _, _ => none
      let nearer (x y : Val) (i j : Nat) : Prop := match dist x, dist y with
        | some d, some e => d ≤ e ∧ (d = e → i ≤ j)
        | none, none => i ≤ j
        | none, some _ => False
        | some _, none => True
      v l < 16 ∧
      ((∀ i, i < 16 → (b i).isNan = !a.isNan) → v l = 0 ∧ fl l = 32) ∧
      ((∃ i, i < 16 ∧ (b i).isNan = a.isNan) → fl l = 0 ∧ (b (v l)).isNan = a.isNan ∧
        ∀ i, i < 16 → (b i).isNan = a.isNan → if a.isNan then v l ≤ i else nearer (b (v l)) (b i) (v l) i)) ∧
  (∀ (f : Fields) (s : State),
    let x (l : Nat) : Nat :=
      (SMap.get 0 s.curW.books (f.c.toNat * 16 + (opA f s l).toNat / 16 ^ (f.mod.toNat % 8) % 16)).toNat * 65536
    Completes (.cbdec f) s ((toD f s fun l => if nan32 (BitVec.ofNat 32 (x l)) then 0x7FC00000 else BitVec.ofNat 32 (x l)).raising
      f s fun l => if snan32 (BitVec.ofNat 32 (x l)) then 1 else 0)))

/-- R222: what is said of a special function's value and flags on an FP32 code: NaNs, the table of special cases, negative arguments, the
exact integer powers of `ex2`, the zeros of `sinpi` and `cospi`, and that finite results of `rcp`, `sqrt` and `rsq` are nearest to the exact
value. The values of the transcendental functions at other arguments are `applyFn`'s (log 9). -/
def Sys2Proof.Machine.SpecialValue (fn : Fn) (x v fl : Nat) : Prop :=
  let a : ℚ := (fp32.decode x).rat
  let y : ℚ := (fp32.decode v).rat
  let finite (c : Nat) : Prop := c < 2 ^ 32 ∧ c % 2 ^ 31 < 0x7F800000
  let table : List (Fn × Nat × Nat × Nat) :=
    [(.rcp, 0, 0x7F800000, 2), (.rcp, 0x80000000, 0xFF800000, 2), (.rcp, 0x7F800000, 0, 0), (.rcp, 0xFF800000, 0x80000000, 0),
      (.rsq, 0, 0x7F800000, 2), (.rsq, 0x80000000, 0xFF800000, 2), (.rsq, 0x7F800000, 0, 0),
      (.sqrt, 0, 0, 0), (.sqrt, 0x80000000, 0x80000000, 0), (.sqrt, 0x7F800000, 0x7F800000, 0),
      (.ex2, 0xFF800000, 0, 0), (.ex2, 0x7F800000, 0x7F800000, 0), (.ex2, 0x43000000, 0x7F800000, 20),
      (.exp, 0xFF800000, 0, 0), (.exp, 0x7F800000, 0x7F800000, 0), (.exp, 0, 0x3F800000, 0), (.exp, 0x80000000, 0x3F800000, 0),
      (.lg2, 0, 0xFF800000, 2), (.lg2, 0x80000000, 0xFF800000, 2), (.lg2, 0x3F800000, 0, 0), (.lg2, 0x7F800000, 0x7F800000, 0)] ++
    [(.sinpi, 0, 0, 0), (.sinpi, 0x80000000, 0x80000000, 0), (.sinpi, 0x7F800000, 0x7FC00000, 1), (.sinpi, 0xFF800000, 0x7FC00000, 1),
      (.cospi, 0, 0x3F800000, 0), (.cospi, 0x7F800000, 0x7FC00000, 1), (.cospi, 0xFF800000, 0x7FC00000, 1),
      (.tanh, 0, 0, 0), (.tanh, 0x80000000, 0x80000000, 0), (.tanh, 0x7F800000, 0x3F800000, 0), (.tanh, 0xFF800000, 0xBF800000, 0)]
  (0x7F800000 < x % 2 ^ 31 → v = 0x7FC00000 ∧ fl = if x.testBit 22 then 0 else 1) ∧
  (∀ q ∈ table, q.1 = fn → q.2.1 = x → v = q.2.2.1 ∧ fl = q.2.2.2) ∧
  (fn = .rsq ∨ fn = .sqrt ∨ fn = .lg2 → 0x80000000 < x → x ≤ 0xFF800000 → v = 0x7FC00000 ∧ fl = 1) ∧
  (fn = .ex2 → finite x → ∀ n : Int, a = n → -149 ≤ n → n ≤ 127 → y = (2 : ℚ) ^ n ∧ fl = 0) ∧
  (fn = .sinpi → finite x → ∀ n : Int, a = n → n ≠ 0 → v = (if n < 0 then 0x80000000 else 0) ∧ fl = 0) ∧
  (fn = .cospi → finite x → ∀ n : Int, a = n + 1 / 2 → v = 0 ∧ fl = 0) ∧
  (fn = .rcp → finite x → a ≠ 0 → finite v →
    (∀ c, finite c → |y - 1 / a| ≤ |(fp32.decode c).rat - 1 / a|) ∧ (fl.testBit 4 = true ↔ y * a ≠ 1)) ∧
  (fn = .sqrt → finite x → 0 < a → 0 ≤ y ∧ (fl.testBit 4 = true ↔ y * y ≠ a) ∧
    ∀ c, finite c → let z := (fp32.decode c).rat
      0 ≤ z → (y < z → a ≤ ((y + z) / 2) ^ 2) ∧ (z < y → ((y + z) / 2) ^ 2 ≤ a)) ∧
  (fn = .rsq → finite x → 0 < a → 0 < y ∧ (fl.testBit 4 = true ↔ y * y * a ≠ 1) ∧
    ∀ c, finite c → let z := (fp32.decode c).rat
      0 ≤ z → (y < z → 1 ≤ ((y + z) / 2) ^ 2 * a) ∧ (z < y → ((y + z) / 2) ^ 2 * a ≤ 1))

/-- R222, R295, R296: a special function whose guards are true in some lane leaves its result outstanding, with the values and flags that
`SpecialValue` says, and SFC one higher; no register changes. SFU_RESULT then writes the values to D of those lanes, ORs the flags into FSTAT and lowers SFC, and changes
nothing else: no lane, no object of a workgroup, no other register. -/
def Obligations.SpecialFunctionsAreOutstanding : Prop :=
  (∀ (f : Fields) (s : State) (p : (Fields → Instr) × Fn),
    p ∈ [(Instr.rcp, Fn.rcp), (Instr.rsq, Fn.rsq), (Instr.sqrt, Fn.sqrt), (Instr.ex2, Fn.ex2), (Instr.lg2, Fn.lg2),
      (Instr.exp, Fn.exp), (Instr.sinpi, Fn.sinpi), (Instr.cospi, Fn.cospi), (Instr.tanh, Fn.tanh)] →
    Runs (p.1 f) s → s.trueLanes f ≠ [] →
    ∃ t x, exec (p.1 f) s = .next t ∧
      Executed s { t with sfus := s.sfus, tag := s.tag } f { rest := fun w => { w with sfc := w.sfc + 1 } } ∧
      t.sfus = s.sfus ++ [x] ∧ t.tag = s.tag + 1 ∧
      x.id = s.tag ∧ x.wg = s.curWg ∧ x.warp = s.curWarp ∧ x.d = f.d.toNat ∧ x.lanes = s.trueLanes f ∧
      x.handler = s.curW.handler ∧
      x.flags = (s.trueLanes f).foldl (fun n l => n ||| (applyFn p.2 (opA f s l).toNat).2) 0 ∧
      ∀ l ∈ s.trueLanes f, SMap.get 0 x.values l = BitVec.ofNat 32 (applyFn p.2 (opA f s l).toNat).1) ∧
  (∀ (fn : Fn) (x : Nat), x < 2 ^ 32 → SpecialValue fn x (applyFn fn x).1 (applyFn fn x).2) ∧
  (∀ (f : Fields) (s : State), s.trueLanes f = [] →
    ∀ i ∈ [Instr.rcp f, .rsq f, .sqrt f, .ex2 f, .lg2 f, .exp f, .sinpi f, .cospi f, .tanh f], Completes i s {}) ∧
  (∀ (s : State) (k : Nat) (x : Sfu), s.sfus.find? (fun y => y.id == k) = some x →
    ∃ t, exec (.sfuResult k) s = .next t ∧ t = { s with wgs := t.wgs, sfus := s.sfus.filter fun y => y.id != x.id } ∧
      (∀ j, j ≠ x.wg → t.wg j = s.wg j) ∧ t.wg x.wg = { s.wg x.wg with warps := (t.wg x.wg).warps } ∧
      (∀ w, w ≠ x.warp → t.warp x.wg w = s.warp x.wg w) ∧
      t.warp x.wg x.warp = { s.warp x.wg x.warp with
        regs := (t.warp x.wg x.warp).regs, hrows := (t.warp x.wg x.warp).hrows, sfc := (s.warp x.wg x.warp).sfc - 1
        fstat := (s.warp x.wg x.warp).fstat ||| BitVec.ofNat 32 (x.flags % 128) } ∧
      (∀ r l, (t.warp x.wg x.warp).regIn x.handler r l =
        if r = x.d ∧ r ≠ 255 ∧ l ∈ x.lanes then SMap.get 0 x.values l else (s.warp x.wg x.warp).regIn x.handler r l) ∧
      ∀ r l, 248 ≤ r → (t.warp x.wg x.warp).regIn (!x.handler) r l = (s.warp x.wg x.warp).regIn (!x.handler) r l)

/-! ### Cross-lane -/

/-- R298: each participant receives A of its source lane, where that lane is valid and participates, else its own. R299, R301:
votes and matches over the participants. R223, R300: `redl` writes one reduction to every participant, by the tree of R223 for
FP32; `scanl` writes the prefix up to each participant's position, or with `.excl` the one before it, the identity at position 0.
-/
def Obligations.LanesExchangeAndReduce : Prop :=
  (∀ (f : Fields) (s : State),
    Completes (.shfl f) s (toD f s fun l =>
      let b := (opB f s l).toNat
      let off := if f.mbit 2 then 64 >>> (b % 8) else b
      let src : Option Nat :=
        match f.mod.toNat % 4 with
        | 0 => some (b % 64)
        | 1 => if off ≤ l then some (l - off) else none
        | 2 => if l + off < 64 then some (l + off) else none
        | _ => if l ^^^ off < 64 then some (l ^^^ off) else none
      match src with
      | some j => if j ∈ s.trueLanes f then opA f s j else opA f s l
      | none => opA f s l)) ∧
  (∀ (f : Fields) (s : State),
    let a (l : Nat) : Bool := (s.curW.lane l).pred f.a.toNat != f.mbit 2
    let bitsOf (p : Nat → Bool) (m : DWord) : Prop := ∀ l, m.getLsbD l = (decide (l ∈ s.trueLanes f) && p l)
    (f.mod.toNat % 4 = 0 → Completes (.vote f) s (toPred f s fun _ => decide (∀ l ∈ s.trueLanes f, a l = true))) ∧
    (f.mod.toNat % 4 = 1 → Completes (.vote f) s (toPred f s fun _ => decide (∃ l ∈ s.trueLanes f, a l = true))) ∧
    (f.mod.toNat % 4 = 2 → Completes (.vote f) s
      (toPred f s fun _ => decide (∀ l ∈ s.trueLanes f, ∀ j ∈ s.trueLanes f, a l = a j))) ∧
    (f.mod.toNat % 4 = 3 → ∃ m, bitsOf a m ∧ Completes (.vote f) s (toPair f s fun _ => m)) ∧
    ∃ m : Nat → DWord, Completes (.matchL f) s (toPair f s m) ∧
      ∀ l, bitsOf (fun j => if f.mbit 0 then pairA f s j == pairA f s l else opA f s j == opA f s l) (m l)) ∧
  ((∀ (f : Fields) (s : State), ∃ (r : Word) (fl : Nat),
    Completes (.redl f) s { toD f s (fun _ => r) with flags := BitVec.ofNat 32 (fl % 128) } ∧
    (f.mod.toNat % 16 < 8 → s.trueLanes f ≠ [] → fl = 0 ∧
      let op (x y : Word) : Word := match f.mod.toNat % 16 with
        | 0 => x + y
        | 1 => if y.toInt < x.toInt then y else x
        | 2 => if x.toInt < y.toInt then y else x
        | 3 => if y.toNat < x.toNat then y else x
        | 4 => if x.toNat < y.toNat then y else x
        | 5 => x &&& y
        | 6 => x ||| y
        | _ => x ^^^ y
      r = ((s.trueLanes f).tail.map fun l => opA f s l).foldl op (opA f s ((s.trueLanes f).headD 0))) ∧
    (8 ≤ f.mod.toNat % 16 → s.trueLanes f ≠ [] →
      let op (x y : Word) : Word := BitVec.ofNat 32
        (if f.mod.toNat % 16 = 8 then (addVal fp32 .rne (fp32.decode x.toNat) (fp32.decode y.toNat)).1
         else (fminCode fp32 (f.mod.toNat % 16 != 9) x.toNat y.toNat).1)
      ∃ level : Nat → List Word, level 0 = (s.trueLanes f).map (opA f s) ∧ level 6 = [r] ∧
        ∀ k i, k < 6 → (level (k + 1)).length = ((level k).length + 1) / 2 ∧
          (2 * i + 1 < (level k).length → (level (k + 1)).getD i 0 = op ((level k).getD (2 * i) 0) ((level k).getD (2 * i + 1) 0)) ∧
          (2 * i + 1 = (level k).length → (level (k + 1)).getD i 0 = (level k).getD (2 * i) 0))) ∧
  (∀ (f : Fields) (s : State), ∃ (v : Nat → Word) (fl : Nat),
    Completes (.scanl f) s { toD f s v with flags := BitVec.ofNat 32 (fl % 128) } ∧
    (f.mod.toNat % 16 < 8 → fl % 128 = 0) ∧
    ∀ j, j < (s.trueLanes f).length →
      let lane (i : Nat) : Nat := (s.trueLanes f).getD i 0
      if f.mbit 4 then
        (j = 0 → v (lane 0) = laneIdentity (f.mod.toNat % 16)) ∧ (j = 1 → v (lane 1) = opA f s (lane 0)) ∧
        (1 < j → v (lane j) = (laneOp (f.mod.toNat % 16) (v (lane (j - 1))) (opA f s (lane (j - 1)))).1)
      else
        (j = 0 → v (lane 0) = opA f s (lane 0)) ∧
        (0 < j → v (lane j) = (laneOp (f.mod.toNat % 16) (v (lane (j - 1))) (opA f s (lane j))).1)))

/-! ### Control, waits, special registers -/

/-- The lanes of the issuing warp go to these PCs instead of the next instruction. -/
def Sys2Proof.Machine.jumpTo (f : Fields) (s : State) (e : Effects) (target : Nat → DWord) : Effects :=
  { e with lane := fun l x => if l ∈ s.trueLanes f then { x with pc := target l } else x }

/-- The instruction, when it runs, answers a next state: `s` with these effects on the issuing warp, then `change`, which touches
only what it names. -/
def Sys2Proof.Machine.CompletesWith (i : Instr) (s : State) (e : Effects) (change : State → State) : Prop :=
  Runs i s → ∃ u, exec i s = .next (change u) ∧ Executed s u i.fields e

/-- `t` is `s` after its issuing warp has taken a trap into a handler (R389, R391): the trap registers hold the cause, every
unexited thread's PC and wait are frozen, with the trapping threads' PC being TRAPPC, every unexited thread stands at TRAPVEC, the
context's TRAPSTAT counter has risen, saturating, and no other byte of memory has changed. -/
structure Sys2Proof.Machine.Trapped (s t : State) (cause detail : Nat) (pc : DWord) (va : BitVec 80) (mask : BitVec 64) : Prop where
  trapc : t.curW.trapc = BitVec.ofNat 32
    (cause + (if cause ∈ [8, 10, 11, 13, 14] then 256 else 0) + detail * 4096)
  trappc : t.curW.trappc = pc
  trapva : t.curW.trapva = va
  fltmask : t.curW.fltmask = mask
  handler : t.curW.handler = true
  lanes : ∀ l ∈ s.curW.unexited, t.curW.lane l =
    { s.curW.lane l with
      pc := s.trapVec (s.ctxNo s.curWg), wait := none, held := false
      frozenPc := if mask.getLsbD l then pc else (s.curW.lane l).pc, frozenWait := (s.curW.lane l).wait }
  rows : ∀ r l, t.curW.regIn false r l = s.curW.regIn false r l ∧ t.curW.regIn true r l = s.curW.regIn true r l
  stat : let a := s.canon (s.own ((s.ctx (s.ctxNo s.curWg)).root + 0x440 + 4 * cause))
    t.mem.read a 4 = min 0xFFFFFFFF (s.mem.read a 4 + 1) ∧ ∀ b, b < a ∨ a + 4 ≤ b → t.mem.byte b = s.mem.byte b
  outside : t = { s with wgs := t.wgs, mem := t.mem, late := t.late, former := t.former }
  wgs : ∀ k, k ≠ s.curWg → t.wg k = s.wg k
  objects : t.curG = { s.curG with warps := t.curG.warps }
  warps : ∀ w, w ≠ s.curWarp → t.curG.warp w = s.curG.warp w

/-- A handler can be entered: the warp is in none, its context has one, its 4 KiB root block (R393) is aligned, and no
special-function result of the warp is outstanding (one that is outstanding is written first, R389). -/
def Sys2Proof.Machine.canTrap (s : State) : Prop :=
  s.curW.handler = false ∧ (s.ctx (s.ctxNo s.curWg)).root % 4096 = 0 ∧ s.trapVec (s.ctxNo s.curWg) ≠ 0 ∧ ∀ x ∈ s.sfus, ¬(x.wg = s.curWg ∧ x.warp = s.curWarp)

/-- R257: each guard-true thread goes to its target, the others to the next instruction; `call` writes the address after it. R258,
R259, R263, R373: `exit` ends the guard-true threads, and where they are the last of their workgroup with a solve region open or a
mixing step in progress, the region is closed, the step is over and the mixing engine is free; `yield` sets their YDIST after its
own decrement and records the deadline class; `join` holds them out of the vote; `nop` does nothing. -/
def Obligations.BranchesExitsAndYields : Prop :=
  (∀ (f : Fields) (s : State),
    let rel (l : Nat) : DWord := (s.curW.lane l).pc + f.immWord.signExtend 64
    Completes (.bra f) s (jumpTo f s {} rel) ∧
    Completes (.brx f) s (jumpTo f s {} (pairA f s)) ∧
    Completes (.ret f) s (jumpTo f s {} (pairA f s)) ∧
    Completes (.call f) s (jumpTo f s (toPair f s fun l => (s.curW.lane l).pc + 12) rel)) ∧
  (∀ (f : Fields) (s : State),
    let on (g : Lane → Lane) (l : Nat) (x : Lane) : Lane := if l ∈ s.trueLanes f then g x else x
    let gone : Effects := { lane := on fun x => { x with exited := true, wait := none, held := false } }
    let last : Prop := (s.curG.svstat.getLsbD 0 = true ∨ s.curG.mixing ≠ none) ∧ ∀ w l, w < (s.packet s.curWg).warps → l < 64 →
      (s.lane s.curWg w l).exited = true ∨ (w = s.curWarp ∧ l ∈ s.trueLanes f)
    (¬last → Completes (.exit f) s gone) ∧
    (last → CompletesWith (.exit f) s gone fun u =>
      (u.updCore s.curG.core fun c => if c.engine = some s.curWg then { c with engine := none } else c).updCurG fun g =>
        { g with svstat := g.svstat &&& ~~~ 1, svArrived := 0, mixing := none }) ∧
    Completes (.yield f) s
      { lane := on fun x => { x with ydist := 65536 }
        rest := fun w => { w with dl := if s.trueLanes f = [] then w.dl else some (15 - f.mod.toNat % 16)
                                  stopped := w.stopped || s.saving s.curWg } } ∧
    Completes (.join f) s { lane := on fun x => { x with held := true } } ∧
    Completes (.nop f) s {})

/-- Threads of a warp go on after their waits, and nothing else changes. -/
structure Sys2Proof.Machine.WaitsEnd (s t : State) (k w : Nat) (ls : List Nat) : Prop where
  outside : t = { s with wgs := t.wgs }
  wgs : ∀ j, j ≠ k → t.wg j = s.wg j
  objects : t.wg k = { s.wg k with warps := (t.wg k).warps }
  warps : ∀ v, v ≠ w → t.warp k v = s.warp k v
  warp : t.warp k w = { s.warp k w with lanes := (t.warp k w).lanes }
  on : ∀ l ∈ ls, ∀ what len, (s.lane k w l).wait = some ⟨what, len⟩ →
    t.lane k w l = { s.lane k w l with pc := (s.lane k w l).pc + BitVec.ofNat 64 len, wait := none }
  others : ∀ l, l ∉ ls → t.lane k w l = s.lane k w l

/-- R260 with R124: `sleep` waits a number of cycles, at most 2^30; `sleept` until CYC[31:0] has reached A; a count of 0 or a time
already reached does not wait. SLEEP_EXPIRY ends the wait once CYC has come to its time, and changes nothing else. R261, R345:
`waitc` with every counter at or below its limit goes on; otherwise its guard-true threads wait for the counters. Where a matrix
operation that it covers (TL or more were issued since) has read an uncorrectable error, the guard-true threads take DATA_ERR
instead of going on, with the oldest such error's address (which operations a `waitc` covers, and that the oldest error is
reported, are the model's reading, log 54). -/
def Obligations.SleepsAndCounterWaits : Prop :=
  ((∀ (f : Fields) (s : State),
    let waiting (n : Nat → Nat) : Effects :=
      { lane := fun l x => if l ∈ s.trueLanes f ∧ n l ≠ 0 then
          { x with pc := (s.curW.lane l).pc, wait := some ⟨.sleep (s.cyc.toNat + n l) (f.mbit 0), f.len⟩ } else x }
    Completes (.sleep f) s (waiting fun l => min (if f.isImm then f.immWord.toNat else (s.curW.reg f.a.toNat l).toNat) (2 ^ 30)) ∧
    ∃ n : Nat → Nat, Completes (.sleept f) s (waiting n) ∧
      ∀ l, let a := s.curW.reg f.a.toNat l
        (((s.cyc.setWidth 32 - a).toNat < 2 ^ 31 → n l = 0) ∧
         (2 ^ 31 ≤ (s.cyc.setWidth 32 - a).toNat → n l ≠ 0 ∧ n l ≤ 2 ^ 31 ∧ s.cyc.setWidth 32 + BitVec.ofNat 32 (n l) = a))) ∧
  (∀ (s : State) (k w l time len : Nat) (wake : Bool),
    (s.lane k w l).wait = some ⟨.sleep time wake, len⟩ → (s.wg k).status = .resident → time ≤ s.cyc.toNat →
    ∃ t, exec (.sleepExpiry k w l) s = .next t ∧ WaitsEnd s t k w [l])) ∧
  (∀ (f : Fields) (s : State),
    let n := f.immWord.toNat
    let ok : Prop := s.curW.ldc ≤ n % 64 ∧ s.curW.stc ≤ n / 2 ^ 6 % 64 ∧ s.curW.cpc ≤ n / 2 ^ 12 % 64 ∧
      s.curW.tlc ≤ n / 2 ^ 18 % 64 ∧ s.curW.sfc ≤ n / 2 ^ 24 % 64
    let err := s.curW.tileErrs.find? fun e => decide (n / 2 ^ 18 % 64 ≤ e.2)
    (ok → err = none ∨ s.trueLanes f = [] → Completes (.waitc f) s {}) ∧
    (∀ va since, ok → err = some (va, since) → s.trueLanes f ≠ [] → canTrap s → Runs (.waitc f) s →
      ∃ t, exec (.waitc f) s = .next t ∧
        Trapped ((s.charge f).updCur fun w => { w with tileErrs := w.tileErrs.filter fun e => e.2 < n / 2 ^ 18 % 64 }) t 9 0 s.curPc
          (BitVec.ofNat 80 va) (maskOf (s.trueLanes f))) ∧
    (¬ok → Completes (.waitc f) s
      { lane := fun l x => if l ∈ s.trueLanes f then
          { x with pc := (s.curW.lane l).pc, wait := some ⟨.counters f.immWord, f.len⟩ } else x }))

/-- R268: `movs` writes the selected part of a special register to D; what each register reads as (R10, R182, R187, R195, R216,
R219, R270, R364, R391), ESCFREE and TBAND by the model's counts (R10, R101, R414). A read of YDIST follows this instruction's own
decrement. R269: `movsw` writes SEED lane by lane, and FSTAT, SCOPECHK and a segment register with A of the lowest guard-true
lane, reserved bits dropped; with no guard true it writes nothing. R271: `perf` reads a counter of its warp; ISSUED counts this
group too, ACTCYC includes the present stay in the active set, and numbers from 8 on read as zero. -/
def Obligations.SpecialRegisters : Prop :=
  (∀ (f : Fields) (s : State), ∃ v : Nat → BitVec 80,
    Completes (.movs f) s
      (match f.mod.toNat with
      | 0 => toD f s fun l => (v l).setWidth 32
      | 1 => toD f s fun l => (v l >>> 32).setWidth 32
      | 2 => toD f s fun l => (v l >>> 64).setWidth 32
      | _ => toPair f s fun l => (v l).setWidth 64) ∧
    ∀ l ∈ s.trueLanes f,
      let p := s.packet s.curWg
      let x := s.curW.lane l
      (f.a.toNat = 0 → v l = s.cyc.setWidth 80) ∧
      (f.a.toNat = 1 → v l = s.ptimeFrac ++ s.ptimeNs) ∧
      (f.a.toNat = 2 → v l = 64) ∧
      (f.a.toNat = 3 → (v l).toNat = l) ∧
      (f.a.toNat = 4 → v l = BitVec.ofNat 80 s.curWarp) ∧
      (f.a.toNat = 5 → v l = BitVec.ofNat 80 (keyWgid s.curWg)) ∧
      (f.a.toNat = 6 → v l = BitVec.ofNat 80 (p.nx * p.ny * p.nz - 1)) ∧
      (f.a.toNat = 7 → v l = BitVec.ofNat 80
        (if s.curWarp < p.ncopy then s.curWarp * 256
         else if s.curWarp < p.ncopy + p.nmat then 1 + (s.curWarp - p.ncopy) * 256
         else 2 + (s.curWarp - p.ncopy - p.nmat) * 256)) ∧
      (f.a.toNat = 8 → v l = x.seed.setWidth 80) ∧
      (f.a.toNat = 9 → v l = s.curW.fstat.setWidth 80) ∧
      (f.a.toNat = 10 → v l = s.curW.trapc.setWidth 80) ∧
      (f.a.toNat = 11 → v l = s.curW.trappc.setWidth 80) ∧
      (f.a.toNat = 12 → v l = s.curW.trapva) ∧
      (f.a.toNat = 13 → v l = s.curW.fltmask.setWidth 80) ∧
      (f.a.toNat = 14 → v l = BitVec.ofNat 80 (2 ^ 20 - s.escUsed s.curG.core)) ∧
      (f.a.toNat = 19 → v l = BitVec.ofNat 80 (s.tband s.curG.core)) ∧
      (f.a.toNat = 15 → v l = BitVec.ofNat 80 (x.ydist - 1)) ∧
      (f.a.toNat = 16 → v l = s.curG.svstat.setWidth 80) ∧
      (f.a.toNat = 17 → v l = s.curG.sviter.setWidth 80) ∧
      (f.a.toNat = 18 → v l = s.curG.svnorm.setWidth 80) ∧
      (f.a.toNat = 20 → v l = (s.ctx (s.ctxNo s.curWg)).scopechk.setWidth 80) ∧
      (24 ≤ f.a.toNat → v l = (SMap.get 0 s.curW.segs (f.a.toNat - 24)).setWidth 80)) ∧
  (∀ (f : Fields) (s : State),
    let v := s.curW.reg f.a.toNat ((s.trueLanes f).headD 0)
    (s.trueLanes f = [] → Completes (.movsw f) s {}) ∧
    (s.trueLanes f ≠ [] → f.d.toNat = 8 → Completes (.movsw f) s
      { lane := fun l x => if l ∈ s.trueLanes f then { x with seed := s.curW.reg f.a.toNat l } else x }) ∧
    (s.trueLanes f ≠ [] → f.d.toNat = 9 → Completes (.movsw f) s { rest := fun w => { w with fstat := v &&& 0x7F } }) ∧
    (s.trueLanes f ≠ [] → 24 ≤ f.d.toNat → Completes (.movsw f) s
      { rest := fun w => { w with segs := SMap.set 0 w.segs (f.d.toNat - 24) (v &&& 0xFFFF) } }) ∧
    (s.trueLanes f ≠ [] → f.d.toNat = 20 → Runs (.movsw f) s → ∃ t, exec (.movsw f) s = .next t ∧
      Executed s { t with ctxs := s.ctxs } f {} ∧
      ∀ c, t.ctx c = if c = s.ctxNo s.curWg then { s.ctx c with scopechk := v &&& 0xFFFFFF03 } else s.ctx c)) ∧
  (∀ (f : Fields) (s : State),
    Completes (.perf f) s (toD f s fun l =>
      let n := (opB f s l).toNat
      let c : DWord :=
        if 8 ≤ n then 0
        else SMap.get 0 s.curW.perf n + (if n = 0 then 1 else 0)
          + (if n = 1 ∧ s.curW.active = true then s.cyc - BitVec.ofNat 64 s.curW.activeSince else 0)
      if f.mbit 0 then (c >>> 32).setWidth 32 else c.setWidth 32))

/-! ### Traps -/

/-- The fields of an instruction with both guards `pt` and every other field zero. -/
def Sys2Proof.Machine.plainFields : Fields :=
  { ga := ⟨7, false⟩, gb := ⟨7, false⟩, d := 0, a := 0, b := 0, c := 0, stall := 0, swap := false, ch := 0, mod := 0, ext := .none }

/-- R195, R225, R236, R237, R266, R188, R62: an instruction whose checks fail has no effect and traps its group precisely: ILLEGAL for
every thread, ROLE and PRIV for those whose guards are true. A fetch comes first: a page that is absent parks it, a failed translation is
PROT with the instruction's VA, a PC that is no multiple of 4 or an instruction that crosses its 32-byte block is FETCH_BOUNDARY, and LEN
3 or bytes that no row of the table decodes are ILLEGAL. That such an issue is charged before the trap is the model's choice (log 84). -/
def Obligations.FailedChecksTrap : Prop :=
  (∀ (s : State), s.pageHeld s.curG.core (s.ctxNo s.curWg) (s.codeVa s.curWg s.curPc / 2 ^ 18) = none →
    let va := s.codeVa s.curWg s.curPc
    let tr := s.translate s.curG.core (s.ctxNo s.curWg) va .fetch false
    (∀ level, tr.2.1 = .absent level → s.fetchGroup = .parks tr.1 level) ∧
    (∀ detail, tr.2.1 = .prot detail →
      s.fetchGroup = .fails (if detail = 6 then tr.1.auditEvent 1 (s.ctxNo s.curWg) va else tr.1) 7 detail) ∧
    (∀ page cpol, tr.2.1 = .ok page cpol → tr.1.homeChecks page tr.2.2 4 = none →
      let bytes := tr.1.bytesAt (keyLaunch s.curWg) page
      let len := (bytes.headD 0).toNat % 4
      let pc := s.curPc.toNat
      (pc % 4 ≠ 0 → s.fetchGroup = .fails tr.1 2 0) ∧
      (pc % 4 = 0 → len = 3 → s.fetchGroup = .fails tr.1 1 0) ∧
      (pc % 4 = 0 → len < 3 → 32 < pc % 32 + [8, 12, 16].getD len 0 → s.fetchGroup = .fails tr.1 2 0) ∧
      (pc % 4 = 0 → len < 3 → pc % 32 + [8, 12, 16].getD len 0 ≤ 32 →
        (∀ i n, decode bytes = .ok (i, n) → s.fetchGroup = .run tr.1 i) ∧
        (∀ e, decode bytes = .error e → s.fetchGroup = .fails tr.1 1 0)))) ∧
  (∀ (s u : State) (k w cause detail : Nat) (as : List Act), s.sched = .issue k w :: as →
    { s with sched := as }.attempt k w = .fails u cause detail → u.spent = none → canTrap u →
    ∃ t, step s = thenPass (.next t) ∧ Trapped (u.charge plainFields) t cause detail u.curPc
      (if cause = 7 then BitVec.ofNat 80 (u.codeVa u.curWg u.curPc) else 0) u.curMask) ∧
  ∀ (i : Instr) (f : Fields) (s : State), i.fields? = some f → s.canIssue = true → s.spent = none → canTrap s →
    let acts := s.trueLanes f
    let p := s.packet s.curWg
    let role := (p.role s.curWarp).1
    let regsOk := ∀ r ∈ i.regs, r < p.home + p.travel
    let bad := i.shapeOk = false ∨ ¬regsOk
    let trapped (cause : Nat) (mask : BitVec 64) : Prop :=
      ∃ t, exec i s = .next t ∧ Trapped (s.charge f) t cause 0 s.curPc 0 mask
    (bad → trapped 1 s.curMask) ∧
    (precheck i s ≠ some { cause := 1, pc := s.curPc, mask := s.curMask } → acts ≠ [] →
      (i.roleOk role = false → trapped 4 (maskOf acts)) ∧
      (i.roleOk role = true → i.privileged = true → s.ctxPriv (s.ctxNo s.curWg) = false → trapped 3 (maskOf acts)))

/-- R195, R196, R190: a thread whose yield distance is used up takes WATCHDOG instead of the instruction, unless that waits at
issue: its launch ends. R389, R274, R195: TRAP_ENTRY takes the oldest trap that has reached a warp, once no thread of it is inside
a translation command, for its unexited threads, and drops it where none is left. WATCHDOG ends the launch of a thread that has
used up its yield distance and whose group is about to issue (its warp's turn has come, no trap is taken first, and its page is
there); it is not enabled where nothing is about to issue. -/
def Obligations.WatchdogAndTrapEntry : Prop :=
  (∀ (i : Instr) (f : Fields) (s : State) (l : Nat), i.fields? = some f → s.canIssue = true → s.spent = some l →
    (heldNow i s = false ∨ precheck i s ≠ none) →
    ∃ t, exec i s = .next t ∧ (t.launch (keyLaunch s.curWg)).ending = true ∧
      ∀ k ∈ s.wgs.keys, keyLaunch k = keyLaunch s.curWg → (t.wg k).status ≠ .resident) ∧
  ((∀ (s : State) (x : Trap) (rest : List Trap), s.curW.pendTraps = x :: rest → s.curG.status = .resident →
    (∀ l ∈ lanesOf x.mask, ∀ part num len, (s.curW.lane l).wait ≠ some ⟨.command part num, len⟩) →
    let mask := x.mask &&& maskOf s.curW.unexited
    let dropped := s.updCur fun w => { w with pendTraps := rest }
    (mask = 0 → exec (.trapEntry s.curWg s.curWarp) s = .next dropped) ∧
    (mask ≠ 0 → canTrap s → x.cause < 32 → ∃ t, exec (.trapEntry s.curWg s.curWarp) s = .next t ∧ t.curW.pendTraps = rest ∧
      Trapped dropped t x.cause x.detail x.pc x.va mask)) ∧
  (∀ (s u : State) (k w l : Nat), ((∃ i, s.attempt k w = .run u i) ∨ ∃ cause detail, s.attempt k w = .fails u cause detail) →
    (l ∈ u.group → (u.lane k w l).ydist = 0 →
      ∃ t, exec (.watchdog k w l) s = .next t ∧ (t.launch (keyLaunch k)).ending = true) ∧
    ((u.lane k w l).ydist ≠ 0 → exec (.watchdog k w l) s = .refused (.notEnabled "WATCHDOG"))) ∧
  (∀ (s u : State) (x : Trap) (k w l level : Nat),
    (s.attempt k w = .idle u ∨ s.attempt k w = .trap u x ∨ s.attempt k w = .parks u level) →
    exec (.watchdog k w l) s = .refused (.notEnabled "WATCHDOG")))

/-- The whole warp executes the instruction: the issuing group is every unexited thread, at one PC, and what a release needs is
performed and visible at its scope (R128, R151). -/
structure Sys2Proof.Machine.WholeWarp (i : Instr) (s : State) : Prop where
  all : ∀ l ∈ s.curW.unexited, l ∈ s.group
  pc : ∀ l ∈ s.group, (s.curW.lane l).pc = s.curPc
  released : gatherReleases i (s.curG.svstat.getLsbD 0) = true →
    s.released s.curWg s.curWarp s.curW.unexited (gatherScope i) = true

/-- Each lane of the group goes on, waiting for nothing. -/
def Sys2Proof.Machine.goesOn : Effects := { lane := fun _ x => { x with wait := none } }

/-- Each lane of the group stays at the instruction and waits. -/
def Sys2Proof.Machine.waitsFor (s : State) (f : Fields) (what : Nat → WaitFor) : Effects :=
  { lane := fun l x => { x with pc := (s.curW.lane l).pc, wait := some ⟨what l, f.len⟩ } }

/-- R264: `trap` and `bkpt` trap exactly the guard-true threads, with TRAPPC at the instruction; without one they do nothing.
R265, R392: `eret` of the whole warp returns from the handler: each thread resumes where it was frozen, the trapping threads of a
resumable cause at TRAPPC or after the instruction there; a cause that is not resumable ends the launch while a trapping thread is
unexited. Outside a handler `eret` is ILLEGAL. -/
def Obligations.SoftwareTrapsAndReturn : Prop :=
  (∀ (f : Fields) (s : State),
    (s.trueLanes f = [] → Completes (.trap f) s {} ∧ Completes (.bkpt f) s {}) ∧
    (s.trueLanes f ≠ [] → canTrap s →
      (Runs (.trap f) s → ∃ t, exec (.trap f) s = .next t ∧
        Trapped ((s.charge f).advance f.len) t 14 0 s.curPc (f.immWord.setWidth 80) (maskOf (s.trueLanes f))) ∧
      (Runs (.bkpt f) s → ∃ t, exec (.bkpt f) s = .next t ∧
        Trapped ((s.charge f).advance f.len) t 13 0 s.curPc 0 (maskOf (s.trueLanes f))))) ∧
  (∀ (f : Fields) (s : State),
    (s.curW.handler = false → precheck (.eret f) s = some { cause := 1, pc := s.curPc, mask := s.curMask }) ∧
    (Runs (.eret f) s → WholeWarp (.eret f) s → s.curW.trapc.getLsbD 8 = true →
      let cause := s.curW.trapc.toNat % 32
      let skip : Nat := if cause = 10 ∨ cause = 13 then 8 else if cause = 14 then 12 else 0
      ∃ t, exec (.eret f) s = .next t ∧ t = { s with wgs := t.wgs } ∧ t.curW.handler = false ∧
        (∀ l ∈ s.curW.unexited,
          let x := s.curW.lane l
          (t.curW.lane l).pc = (if s.curW.fltmask.getLsbD l then s.curW.trappc + BitVec.ofNat 64 skip else x.frozenPc) ∧
          (t.curW.lane l).wait = (if s.curW.fltmask.getLsbD l = false ∨ cause = 11 then x.frozenWait else none)) ∧
        ∀ r l, t.curW.regIn false r l = s.curW.regIn false r l ∧ t.curW.regIn true r l = s.curW.regIn true r l) ∧
    (Runs (.eret f) s → WholeWarp (.eret f) s → s.curW.trapc.getLsbD 8 = false →
      (∃ l ∈ s.curW.unexited, s.curW.fltmask.getLsbD l = true) →
      ∃ t, exec (.eret f) s = .next t ∧ (t.launch (keyLaunch s.curWg)).ending = true))

/-! ### Synchronisation of warps -/

/-- The instructions that act once per warp, when its last unexited thread has executed them (R128, R262, R265, R367, R368). -/
def Sys2Proof.Machine.oncePerWarp : Instr → Prop
  | .wsync _ | .eret _ | .waitp _ | .barArr _ | .barSync _ | .barWait _ | .barExp _ | .barInit _ | .barRd _ | .barRdClr _
  | .bargArr _ | .bargSync _ | .bargWait _ | .rgive _ | .rtake _ | .rfree _ | .solve _ | .svend _ => True
  | _ => False

/-- R128: while another unexited thread of the warp is not waiting, the group that executes such an instruction stays at it and
waits, and nothing else happens (a `solve` in an open region is a PROT instead, R367). -/
def Obligations.ThreadsWaitForTheirWarp : Prop :=
  ∀ (i : Instr) (f : Fields) (s : State), oncePerWarp i → i.fields? = some f →
    (∃ l ∈ s.curW.unexited, l ∉ s.group ∧ (s.curW.lane l).wait = none) →
    (i = .solve f → s.curG.svstat.getLsbD 0 = false) →
    Completes i s (waitsFor s f fun l => .gather i (decide (l ∈ s.trueLanes f)))

/-- Barrier `b` of the issuing workgroup becomes `x`. -/
def Sys2Proof.Machine.State.withBar (u : State) (b : Nat) (x : Barrier) : State :=
  u.updCurG fun g => { g with bars := SMap.set {} g.bars b x }

/-- A warp's arrival on a barrier (R129): applied to the current phase, or queued if the warp has arrived in it or PEND is 0. -/
def Sys2Proof.Machine.arrival (x : Barrier) (w : Nat) : Barrier :=
  if x.arrived.getLsbD w = true ∨ x.pend = 0 then { x with queued := x.queued ||| BitVec.ofNat 64 (2 ^ w), qarr := x.qarr + 1 }
  else { x with arrived := x.arrived ||| BitVec.ofNat 64 (2 ^ w), pend := x.pend - 1 }

/-- R127, R129 to R131, R329, R330: the barrier instructions of a whole warp. An arrival goes to the current phase or is queued, a
warp that already holds a queued arrival waits; `bar.sync` waits for the phase it arrived in, `bar.wait` until PH differs from N;
`bar.exp` adds to BYTES; `bar.init` sets the counts and leaves PH (that it clears the masks of warps that have arrived or queued
and the copy unit's mark is the model's reading, log 47); `bar.rd` gives the status word, and `.clr` then clears REFUSED. A warp
whose guards are all false arrives like any other (the model's choice, log 87). R130, R132: a barrier's phase advances when PEND
and BYTES are zero: PH inverts, PEND is set to MEMB, the queued arrivals are applied to the new phase, and the writes of the
copies that counted in it are visible on the barrier's core (R133). A copy-unit arrival counts in the current phase, at most one
per phase, else it is queued in QCU: those that wait in the copy unit first, then that of the copy that is due (`dueArrival`).
More queued arrivals than MEMB leave PEND at 0 (the model's choice, log 74). -/
def Obligations.BarriersOfACore : Prop :=
  (∀ (f : Fields) (s : State),
    (∀ i ∈ [Instr.barArr f, .barSync f, .barWait f, .barExp f, .barInit f, .barRd f, .barRdClr f], WholeWarp i s) →
    let b := f.a.toNat
    let x : Barrier := SMap.get {} s.curG.bars b
    let w := s.curWarp
    let low := s.curW.srcB f ((s.trueLanes f).headD 0)
    let here : Prop := ¬(x.arrived.getLsbD w = true ∨ x.pend = 0)
    let word : DWord := BitVec.ofNat 64 (x.memb % 128 + x.pend % 128 * 2 ^ 8 + x.phases % 2 * 2 ^ 15
      + (if x.cu = true then 2 ^ 16 else 0) + (if x.refused = true then 2 ^ 17 else 0) + x.qarr % 128 * 2 ^ 18
      + (if x.qcu = true then 2 ^ 25 else 0) + x.bytes.toNat * 2 ^ 32)
    let given : Effects := { toPair f s (fun _ => word) with lane := goesOn.lane }
    (x.queued.getLsbD w = true →
      Completes (.barArr f) s (waitsFor s f fun l => .gather (.barArr f) (decide (l ∈ s.trueLanes f))) ∧
      Completes (.barSync f) s (waitsFor s f fun l => .gather (.barSync f) (decide (l ∈ s.trueLanes f)))) ∧
    (x.queued.getLsbD w = false →
      CompletesWith (.barArr f) s goesOn (fun u => u.withBar b (arrival x w)) ∧
      (here → CompletesWith (.barSync f) s (waitsFor s f fun _ => .phase b x.phases) fun u => u.withBar b (arrival x w)) ∧
      (¬here → CompletesWith (.barSync f) s (waitsFor s f fun _ => .phase b (x.phases + 1)) fun u => u.withBar b (arrival x w))) ∧
    (x.phases % 2 ≠ (if f.mbit 3 then 1 else 0) → Completes (.barWait f) s goesOn) ∧
    (x.phases % 2 = (if f.mbit 3 then 1 else 0) → Completes (.barWait f) s (waitsFor s f fun _ => .phase b x.phases)) ∧
    (s.trueLanes f = [] → Completes (.barExp f) s goesOn ∧ Completes (.barInit f) s goesOn) ∧
    (s.trueLanes f ≠ [] →
      CompletesWith (.barExp f) s goesOn (fun u => u.withBar b { x with bytes := x.bytes + low }) ∧
      CompletesWith (.barInit f) s goesOn fun u => u.withBar b
        { x with memb := max 1 (min 65 (low.toNat % 128)), cu := low.getLsbD 16, pend := max 1 (min 65 (low.toNat % 128))
                 bytes := 0, qarr := 0, qcu := false, refused := false, queued := 0, arrived := 0, cuHere := false }) ∧
    Completes (.barRd f) s given ∧
    CompletesWith (.barRdClr f) s given fun u => u.withBar b { x with refused := false }) ∧
  (∀ (s : State) (k b : Nat), (s.wg k).status = .resident →
    let x : Barrier := SMap.get {} (s.wg k).bars b
    let core := (s.wg k).core
    let becomes (i : Instr) (late : List Late) (y : Barrier) : Prop := ∃ t, exec i s = .next t ∧
      SMap.get {} (t.wg k).bars b = y ∧ (∀ c, c ≠ b → SMap.get {} (t.wg k).bars c = SMap.get {} (s.wg k).bars c) ∧
      t.wg k = { s.wg k with bars := (t.wg k).bars } ∧ (∀ j, j ≠ k → t.wg j = s.wg j) ∧
      t = { s with wgs := t.wgs, copies := t.copies, late }
    (b < (s.packet k).nbar → x.pend = 0 → x.bytes = 0 → becomes (.barrierPhaseAdvance k b)
      (s.late.map fun t => if (k, b) ∈ t.bars then { t with seen := (1, core) :: t.seen } else t)
      { x with phases := x.phases + 1, pend := x.memb - x.qarr - (if x.qcu = true then 1 else 0), arrived := x.queued
               queued := 0, qarr := 0, qcu := false, cuHere := x.qcu }) ∧
    (0 < x.cuWait → x.cuHere = false → x.pend ≠ 0 → becomes (.copyUnitArrival k b) s.late
      { x with cuHere := true, pend := x.pend - 1, cuWait := x.cuWait - 1 }) ∧
    (0 < x.cuWait → x.qcu = false → (x.cuHere = true ∨ x.pend = 0) → becomes (.copyUnitArrival k b) s.late
      { x with qcu := true, cuWait := x.cuWait - 1 }) ∧
    (∀ c, x.cuWait = 0 → s.dueArrival k b = some c →
      (x.cuHere = false → x.pend ≠ 0 → becomes (.copyUnitArrival k b) s.late { x with cuHere := true, pend := x.pend - 1 }) ∧
      (x.qcu = false → (x.cuHere = true ∨ x.pend = 0) → becomes (.copyUnitArrival k b) s.late { x with qcu := true })))

/-- R331, R332: `barg` of a whole warp on the network barrier of its scope and index (`s.netKey`), whose members `netMembers`
counts. An arrival that completes the phase advances it, and queued arrivals go to the new one. A die or package barrier of a launch
that is not co-resident, a group that the workgroup is no member of, and a barrier that has lost a member give a precise PROT with
TRAPVA 0 (DETAIL 9 is the model's reading, log 24). -/
def Obligations.NetworkBarriers : Prop :=
  ∀ (f : Fields) (s : State), (∀ i ∈ [Instr.bargArr f, .bargSync f, .bargWait f], WholeWarp i s) →
    let scope := bargScope f
    let unnamed : Prop := scope = 5 ∧ s.trueLanes f = []
    let k := s.curWg
    let grp := if scope = 5 then (s.curW.reg f.e.toNat ((s.trueLanes f).headD 0)).toNat % 64 else 0
    let key := s.netKey k scope (f.mod.toNat / 8) grp
    let x : NetBar := SMap.get {} s.netBars key
    let me := (k, s.curWarp)
    let stops : Prop := ¬unnamed ∧ (((scope = 3 ∨ scope = 4) ∧ (s.packet k).flags / 2 % 2 = 0) ∨
      (scope = 5 ∧ (s.pkg, keyLaunch k, keyWgid k) ∉ (s.group? (s.ctxNo k) grp).members) ∨ s.netBroken key = true)
    let arrived (u : State) : NetBar :=
      if me ∈ x.arrived then { x with queued := x.queued ++ [me] }
      else if u.netMembers k scope grp ≤ x.arrived.length + 1 then
        { x with phases := x.phases + 1, arrived := x.queued, queued := [] }
      else { x with arrived := x.arrived ++ [me] }
    let arrive (u : State) : State := { u with netBars := SMap.set {} u.netBars key (arrived u) }
    (unnamed → Completes (.bargArr f) s goesOn ∧ Completes (.bargSync f) s goesOn ∧ Completes (.bargWait f) s goesOn) ∧
    (¬unnamed → ¬stops → me ∈ x.queued →
      Completes (.bargArr f) s (waitsFor s f fun l => .gather (.bargArr f) (decide (l ∈ s.trueLanes f))) ∧
      Completes (.bargSync f) s (waitsFor s f fun l => .gather (.bargSync f) (decide (l ∈ s.trueLanes f)))) ∧
    (¬unnamed → ¬stops → me ∉ x.queued →
      CompletesWith (.bargArr f) s goesOn arrive ∧
      CompletesWith (.bargSync f) s
        (waitsFor s f fun _ => .netPhase key (if me ∈ x.arrived then x.phases + 1 else x.phases)) arrive) ∧
    (¬unnamed → ¬stops → x.phases % 2 = (if f.mbit 2 then 1 else 0) →
      Completes (.bargWait f) s (waitsFor s f fun _ => .netPhase key x.phases)) ∧
    (¬unnamed → ¬stops → x.phases % 2 ≠ (if f.mbit 2 then 1 else 0) →
      CompletesWith (.bargWait f) s goesOn fun u => u.updCore s.curG.core fun c => { c with l1 := [] }) ∧
    (stops → canTrap s → (∀ l ∈ s.group, (s.curW.lane l).wait = none) →
      ∀ i ∈ [Instr.bargArr f, .bargSync f, .bargWait f], Runs i s →
        ∃ t, exec i s = .next t ∧ Trapped (s.charge f) t 7 9 s.curPc 0 (maskOf s.group))

/-- General register D of the guard-true lanes receives a value; `gz` discards. -/
def Sys2Proof.Machine.toReg (f : Fields) (s : State) (v : Word) : Nat → Nat → Option Word :=
  fun r l => if r = f.d.toNat ∧ r ≠ 255 ∧ l ∈ s.trueLanes f then some v else none

/-- R138, R139, R262, R333: `rgive`, `rtake` and `rfree` of a whole warp, on the stage that the warp's cursor names, and `wsync`. -/
def Obligations.RingsAndWarpSync : Prop :=
  ∀ (f : Fields) (s : State), (∀ i ∈ [Instr.rgive f, .rtake f, .rfree f, .wsync f], WholeWarp i s) →
    let r := f.a.toNat
    let cfg := (s.packet s.curWg).ringcfg.getD r 0
    let c : Cursor := SMap.get {} s.curW.cursors r
    let next : Cursor := if cfg % 16 ≤ c.cur + 1 then { cur := 0, lap := !c.lap } else { c with cur := c.cur + 1 }
    let x : Stage := SMap.get {} s.curG.stages (r * 8 + c.cur)
    let withStage (y : Stage) (u : State) : State :=
      u.updCurG fun g => { g with stages := SMap.set {} g.stages (r * 8 + c.cur) y }
    let given : Stage := if (x.gleft + 127) % 128 = 0 then { x with gleft := cfg / 2 ^ 4 % 128, full := true }
      else { x with gleft := (x.gleft + 127) % 128 }
    let freed : Stage := if (x.fleft + 127) % 128 = 0 then { x with fleft := cfg / 2 ^ 11 % 128, full := false, ph := !x.ph }
      else { x with fleft := (x.fleft + 127) % 128 }
    let onward : Stage := if next.cur = c.cur then given else SMap.get {} s.curG.stages (r * 8 + next.cur)
    let moves (e : Effects) : Effects := { e with rest := fun w => { w with cursors := SMap.set {} w.cursors r next } }
    (onward.full = false ∧ onward.ph = next.lap →
      CompletesWith (.rgive f) s (moves { reg := toReg f s (BitVec.ofNat 32 next.cur), lane := goesOn.lane }) (withStage given)) ∧
    (¬(onward.full = false ∧ onward.ph = next.lap) →
      CompletesWith (.rgive f) s (moves (waitsFor s f fun l => .ring true r f.d.toNat (decide (l ∈ s.trueLanes f)))) (withStage given)) ∧
    (x.full = true ∧ x.ph = c.lap →
      Completes (.rtake f) s { reg := toReg f s (BitVec.ofNat 32 c.cur), lane := goesOn.lane }) ∧
    (¬(x.full = true ∧ x.ph = c.lap) →
      Completes (.rtake f) s (waitsFor s f fun l => .ring false r f.d.toNat (decide (l ∈ s.trueLanes f)))) ∧
    CompletesWith (.rfree f) s (moves goesOn) (withStage freed) ∧
    Completes (.wsync f) s goesOn

/-- R124 to R126, R327: the cycles until CYC[31:0] reaches a promise; `waitp` of a whole warp sleeps until every guard-true
thread's promise is reached; the phase bit is then read once, and the warp goes on, with an acquire (`syncs` notes it, log 85), or
takes PROMISE_MISS. R135, R328: `land` writes a landing entry and sets V; an undeclared barrier, a BASE or SIZE that is not a
multiple of 256, a SIZE of 0 or above 1 MiB, or a buffer beyond the declared scratch is a precise PROT (TRAPVA 0 is the model's
reading, log 34); `unland` clears V alone. -/
def Obligations.PromisesAndLandings : Prop :=
  (let until_ (s : State) (a : Word) : Nat :=
    if (s.cyc.setWidth 32 - a).toNat < 2 ^ 31 then 0 else (a - s.cyc.setWidth 32).toNat
  (∀ (f : Fields) (s : State), WholeWarp (.waitp f) s → ∃ far : Nat,
    Completes (.waitp f) s (waitsFor s f fun _ => .promise f.b.toNat (if f.mbit 0 then 1 else 0) (s.cyc.toNat + far)) ∧
    (∀ l ∈ s.trueLanes f, until_ s (s.curW.reg f.a.toNat l) ≤ far) ∧
    (far = 0 ∨ ∃ l ∈ s.trueLanes f, far = until_ s (s.curW.reg f.a.toNat l))) ∧
  (∀ (s : State) (b n time len : Nat), s.curG.status = .resident → s.curW.unexited ≠ [] → time ≤ s.cyc.toNat → n < 2 →
    (∀ l ∈ s.curW.unexited, (s.curW.lane l).wait = some ⟨.promise b n time, len⟩) →
    let x : Barrier := SMap.get {} s.curG.bars b
    (x.phases % 2 ≠ n → ∃ u, exec (.promiseReached s.curWg s.curWarp) s = .next (u.syncs s.curWg s.curWarp s.curW.unexited true) ∧
      WaitsEnd s u s.curWg s.curWarp s.curW.unexited) ∧
    (x.phases % 2 = n → canTrap s → ∃ t, exec (.promiseReached s.curWg s.curWarp) s = .next t ∧
      Trapped s t 10 0 (s.curW.lane (s.curW.unexited.headD 0)).pc (BitVec.ofNat 80 (b + n * 16)) (maskOf s.curW.unexited)))) ∧
  (∀ (f : Fields) (s : State),
    let l := (s.trueLanes f).headD 0
    let base := (s.curW.reg f.a.toNat l).toNat
    let size := (s.curW.reg f.b.toNat l).toNat
    let ok : Prop := f.c.toNat < (s.packet s.curWg).nbar ∧ base % 256 = 0 ∧ size % 256 = 0 ∧ 0 < size ∧ size ≤ 2 ^ 20
    let fits : Prop := base + size ≤ (s.packet s.curWg).scratch
    let old : Landing := SMap.get {} s.curG.landing f.d.toNat
    let entry (x : Landing) (u : State) : State := u.updCurG fun g => { g with landing := SMap.set {} g.landing f.d.toNat x }
    (s.trueLanes f = [] → Completes (.land f) s {} ∧ Completes (.unland f) s {}) ∧
    (s.trueLanes f ≠ [] →
      (ok → fits → CompletesWith (.land f) s {} (entry { base, bar := f.c.toNat, valid := true, size })) ∧
      (canTrap s → ¬(ok ∧ fits) → Runs (.land f) s → ∃ t detail, exec (.land f) s = .next t ∧
        Trapped (s.charge f) t 7 detail s.curPc 0 (maskOf (s.trueLanes f))) ∧
      CompletesWith (.unland f) s {} (entry { old with valid := false })))

/-! ### Solve regions -/

/-- What a thread waits for in its program: in a handler, what it takes up again on `eret` (R389). -/
def Sys2Proof.Machine.waitIn (s : State) (k v j : Nat) : Option Wait :=
  if (s.warp k v).handler = false then (s.lane k v j).wait
  else if (s.warp k v).fltmask.getLsbD j then none else (s.lane k v j).frozenWait

/-- A thread that waits in its program goes on at an address, or past its instruction; in a handler its frozen state does (R389). -/
def Sys2Proof.Machine.GoesOn (s t : State) (k v j : Nat) (at_ : Option DWord) : Prop :=
  ∀ what n, waitIn s k v j = some ⟨what, n⟩ → t.lane k v j =
    let x := s.lane k v j
    if (s.warp k v).handler = true then { x with frozenPc := at_.getD (x.frozenPc + BitVec.ofNat 64 n), frozenWait := none }
    else { x with pc := at_.getD (x.pc + BitVec.ofNat 64 n), wait := none }

/-- R369: the history and the next iterate that `Mix()` leaves, from the carried values `z` and the residual `r` of `size` elements, where
`g` is the workgroup before and `h` the one after: the newest pair goes to the slots of HPOS; the triangular solves of the history's Gram
matrix give gamma; a pivot that is not positive gives the damped step, with FALLBK. -/
def Sys2Proof.Machine.Mixed (g h : Workgroup) (size : Nat) (z r z' : Nat → Nat) : Prop :=
  let x := g.region
  let code (v : Nat) : Val := fp32.decode v
  let add (a b : Nat) : Nat := (addVal fp32 .rne (code a) (code b)).1
  let sub (a b : Nat) : Nat := (addVal fp32 .rne (code a) (code b).neg).1
  let mul (a b : Nat) : Nat := (mulVal fp32 .rne (code a) (code b)).1
  let sum (a b : Nat → Nat) : Nat :=
    (List.range size).foldl (fun s n => (fmaVal fp32 .rne (code (a n)) (code (b n)) (code s)).1) 0
  let beta := x.beta.toNat * 65536
  let lambda := x.lambda.toNat * 65536
  let p := bits g.svstat.toNat 9 8
  let store : Prop := g.svstat.getLsbD 4 = true ∧ 0 < x.m
  let held := bits h.svstat.toNat 7 5
  let hpos := bits h.svstat.toNat 9 8
  x.m ≤ 4 →
  (store → hpos = (p + 1) % x.m ∧ held = min (bits g.svstat.toNat 7 5 + 1) x.m ∧
    (∀ n, n < size → (h.hsAt (2 * p) n).toNat = sub (z n) (SMap.get (0 : Word) g.zp n).toNat ∧
      (h.hsAt (2 * p + 1) n).toNat = sub (r n) (SMap.get (0 : Word) g.rp n).toNat) ∧
    ∀ q n, q ≠ 2 * p → q ≠ 2 * p + 1 → h.hsAt q n = g.hsAt q n) ∧
  (¬store → hpos = p ∧ held = bits g.svstat.toNat 7 5 ∧ ∀ q n, h.hsAt q n = g.hsAt q n) ∧
  (∀ n, n < size → (SMap.get (0 : Word) h.zp n).toNat = z n ∧ (SMap.get (0 : Word) h.rp n).toNat = r n) ∧
  let pair (i : Nat) : Nat := (hpos + x.m - held + i) % max 1 x.m
  let dz (i n : Nat) : Nat := (h.hsAt (2 * pair i) n).toNat
  let dr (i n : Nat) : Nat := (h.hsAt (2 * pair i + 1) n).toNat
  let gram (i j : Nat) : Nat :=
    let s := sum (dr (max i j)) (dr (min i j))
    if i = j then add s (mul lambda s) else s
  let base (n : Nat) : Nat := add (z n) (mul beta (r n))
  ∃ (w l : Nat → Nat → Nat) (d u y gam : Nat → Nat),
    let less (n : Nat) (a b : Nat → Nat) (s : Nat) : Nat := (List.range n).foldl (fun v q => sub v (mul (a q) (b q))) s
    let ok : Prop := 0 < held ∧ ∀ j, j < held → (code (d j)).isNan = false ∧ (code (d j)).cmp (code 0) = .gt
    (∀ j, j < held → d j = less j (w j) (l j) (gram j j) ∧
      ∀ i, j < i → i < held → w i j = less j (w i) (l j) (gram i j) ∧ l i j = (divVal fp32 .rne (code (w i j)) (code (d j))).1) ∧
    (ok → ∀ i, i < held → u i = less i (l i) u (sum (dr i) r) ∧ y i = (divVal fp32 .rne (code (u i)) (code (d i))).1 ∧
      gam i = ((List.range held).filter (i < ·)).foldl (fun v q => sub v (mul (l q i) (gam q))) (y i)) ∧
    (h.svstat.getLsbD 3 = true ↔ g.svstat.getLsbD 3 = true ∨ (0 < held ∧ ¬ok)) ∧
    (¬ok → ∀ n, n < size → z' n = base n) ∧
    (ok → ∀ n, n < size →
      z' n = (List.range held).foldl (fun v i => sub v (mul (gam i) (add (dz i n) (mul beta (dr i n))))) (base n))

/-- R368 to R370, R389: an evaluation subtracts the carried values from the image element by element, and takes the norm of the residual:
the largest magnitude, the canonical NaN where an element is a NaN, or the root of the fused sum of squares. Within the tolerance the
carried tiles receive the image, CONV is set and OPEN cleared, and every thread goes on; at the ceiling the lead warp takes NO_CONVERGE
with TRAPVA SVITER (after a handler that it is in: the model's choice, log 96); otherwise SVITER rises, every thread goes to the body, and
the history and the carried values become R369's. A thread that a trap has frozen in its `svend` has arrived too. R373: the writes of a
step may still be in progress when copies and windows access its tiles and history slots (the model's next choice is not 0, log 4); the
step is then over at the next evaluation. -/
def Obligations.SolveEvaluations : Prop :=
  ∀ (s : State) (k w l : Nat),
    let g := s.wg k
    let x := g.region
    let arrived : Prop := ∀ v ∈ s.liveWarps k, ∀ j ∈ (s.warp k v).unexited, ∃ n, waitIn s k v j = some ⟨.svend, n⟩
    let waiting : Prop := g.status = .resident ∧ g.svstat.getLsbD 0 = true ∧ arrived ∧
      (s.liveWarps k).head? = some w ∧ (s.warp k w).unexited.head? = some l ∧
      (∀ v, v < (s.packet k).warps → (s.warp k v).tlc = 0) ∧
      s.abroad k w x.tolReg l = false ∧ s.abroad k w x.ceilReg l = false ∧ g.mixing = none
    let atOnce : Prop := s.choices.headD 0 = 0
    let size := if x.two then 8192 else 4096
    let el (h : Workgroup) (t n : Nat) : Word := h.accAt (t + n / 4096) (n % 4096)
    let res (n : Nat) : Nat := (addVal fp32 .rne (fp32.decode (el g x.image n).toNat) (fp32.decode (el g x.carried n).toNat).neg).1
    let norm := (solveNorm x.l2 ((List.range size).map res)).1
    let tol := fp32.decode ((s.warp k w).regIn false x.tolReg l).toNat
    let small : Prop := (fp32.decode norm).isNan = false ∧ tol.isNan = false ∧ (fp32.decode norm).cmp tol ≠ .gt
    let ceil := max 1 (min 4096 ((s.warp k w).regIn false x.ceilReg l).toNat)
    let onward (t : State) (at_ : Option DWord) : Prop := ∀ v ∈ s.liveWarps k, ∀ j ∈ (s.warp k v).unexited, GoesOn s t k v j at_
    (x.l2 = false → (∃ n, n < size ∧ (fp32.decode (res n)).isNan = true) → norm = 0x7FC00000) ∧
    (x.l2 = false → (∀ n, n < size → (fp32.decode (res n)).isNan = false) →
      (∃ n, n < size ∧ norm = res n % 2 ^ 31) ∧ ∀ n, n < size → res n % 2 ^ 31 ≤ norm) ∧
    (x.l2 = true → ∃ sum : Nat → Nat, sum 0 = 0 ∧ norm = (applyFn .sqrt (sum size)).1 ∧ ∀ n, n < size →
      sum (n + 1) = (fmaVal fp32 .rne (fp32.decode (res n)) (fp32.decode (res n)) (fp32.decode (sum n))).1) ∧
    (∀ m, g.mixing = some m → g.status = .resident → (∃ v, v ∈ s.liveWarps k) → arrived →
      ∃ t, exec (.svendEvaluation k) s = .next t ∧ (t.wg k).mixing = none ∧ (t.wg k).acc = g.acc ∧ (t.wg k).hs = g.hs ∧
        (t.wg k).svstat = g.svstat ∧ t.mem = s.mem ∧ onward t m.next) ∧
    (waiting →
    (small → ¬atOnce → ∃ t, exec (.svendEvaluation k) s = .next t ∧
      (t.wg k).mixing = some { tiles := (List.range (if x.two then 2 else 1)).map (x.carried + ·), acc := g.acc, hs := g.hs } ∧
      (∀ n, n < size → el (t.wg k) x.carried n = el g x.image n) ∧ (∀ v j, t.lane k v j = s.lane k v j) ∧
      (t.wg k).svstat.getLsbD 0 = false ∧ (t.wg k).svstat.getLsbD 1 = true) ∧
    (¬small → g.sviter.toNat < ceil → ¬atOnce → ∃ t m, exec (.svendEvaluation k) s = .next t ∧ (t.wg k).mixing = some m ∧
      m.tiles = (List.range (if x.two then 2 else 1)).map (x.carried + ·) ∧ m.acc = g.acc ∧ m.hs = g.hs ∧ m.next = some x.body ∧
      (∀ v j, t.lane k v j = s.lane k v j) ∧ (t.wg k).sviter = g.sviter + 1 ∧
      Mixed g (t.wg k) size (fun n => (el g x.carried n).toNat) res fun n => (el (t.wg k) x.carried n).toNat) ∧
    (small → atOnce → ∃ t, exec (.svendEvaluation k) s = .next t ∧
      (t.wg k).svstat.getLsbD 0 = false ∧ (t.wg k).svstat.getLsbD 1 = true ∧ (t.wg k).svnorm = BitVec.ofNat 32 norm ∧
      (t.wg k).sviter = g.sviter ∧ (t.coreAt g.core).engine ≠ some k ∧
      (∀ n, n < size → el (t.wg k) x.carried n = el g x.image n) ∧ onward t none) ∧
    (¬small → ceil ≤ g.sviter.toNat → (s.warp k w).handler = true →
      exec (.svendEvaluation k) s = .refused (.notEnabled "SVEND_EVALUATION")) ∧
    (¬small → ceil ≤ g.sviter.toNat → k = s.curWg → w = s.curWarp → canTrap s →
      ∃ t, exec (.svendEvaluation k) s = .next t ∧ t.curW.trapc = BitVec.ofNat 32 (11 + 256) ∧
        t.curW.trapva = g.sviter.setWidth 80 ∧ t.curW.trappc = (s.lane k w l).pc ∧
        t.curW.fltmask = maskOf s.curW.unexited ∧ t.curW.handler = true ∧ t.curG.svstat.getLsbD 0 = true ∧
        t.curG.acc = g.acc ∧ t.curG.svnorm = BitVec.ofNat 32 norm) ∧
    (¬small → g.sviter.toNat < ceil → atOnce → ∃ t, exec (.svendEvaluation k) s = .next t ∧
      (t.wg k).sviter = g.sviter + 1 ∧ (t.wg k).svnorm = BitVec.ofNat 32 norm ∧ (t.wg k).svstat.getLsbD 0 = true ∧
      (t.wg k).svstat.getLsbD 4 = true ∧ onward t (some x.body) ∧
      Mixed g (t.wg k) size (fun n => (el g x.carried n).toNat) res fun n => (el (t.wg k) x.carried n).toNat))

/-- R365 to R367, R371, R389: a whole warp's `solve` waits for the region to open; in an open region it is a precise PROT with
TRAPVA 0. The region opens once every unexited thread of the workgroup waits, no tile operation is outstanding and the engine is
free: the parameters are the lead thread's (where its lanes wait at different solves too, the model's choice, log 64), SVSTAT has
OPEN alone, SVITER and SVNORM are 0, and every thread goes to the body; a thread that a trap has frozen in its `solve` counts, and
goes there on `eret`. A whole warp's `svend` waits for the evaluation, or goes on if no region is open. `svabort` closes the
region, sets ABORT, frees the engine, and threads that wait in `svend` go on. R372: `svrd` and its `.zp` and `.rp` forms read
history elements; `svhs.clr` clears HIST and HPOS; of the lanes of one `svhs.wr` that name an element, the highest one's value
remains. -/
def Obligations.SolveRegions : Prop :=
  ((∀ (f : Fields) (s : State),
    let isOpen := s.curG.svstat.getLsbD 0
    (isOpen = false → WholeWarp (.solve f) s → Completes (.solve f) s (waitsFor s f fun _ => .solve (.solve f))) ∧
    (isOpen = true → canTrap s → Runs (.solve f) s → ∃ t detail, exec (.solve f) s = .next t ∧
      Trapped (s.charge f) t 7 detail s.curPc 0 s.curMask) ∧
    (isOpen = false → WholeWarp (.svend f) s → Completes (.svend f) s goesOn) ∧
    (isOpen = true → WholeWarp (.svend f) s → CompletesWith (.svend f) s (waitsFor s f fun _ => .svend) fun u =>
      u.updCurG fun g => { g with svArrived := g.svArrived ||| BitVec.ofNat 64 (2 ^ s.curWarp) }) ∧
    (isOpen = false ∨ s.trueLanes f = [] → Completes (.svabort f) s {}) ∧
    (isOpen = true → s.trueLanes f ≠ [] → (∀ l ∈ s.group, (s.curW.lane l).wait = none) → Runs (.svabort f) s →
      ∃ t, exec (.svabort f) s = .next t ∧ t.curG.svstat = (s.curG.svstat &&& ~~~ 1) ||| 4 ∧
        (t.coreAt s.curG.core).engine ≠ some s.curWg ∧ t.curG.acc = s.curG.acc ∧ t.curG.mixing = none ∧ t.mem = s.mem ∧
        (∀ l ∈ s.group, (t.curW.lane l).pc = (s.curW.lane l).pc + BitVec.ofNat 64 f.len) ∧
        (∀ w l len, w < (s.packet s.curWg).warps → (s.lane s.curWg w l).exited = false → l < 64 →
          (s.lane s.curWg w l).wait = some ⟨.svend, len⟩ →
          (t.lane s.curWg w l).wait = none ∧ (t.lane s.curWg w l).pc = (s.lane s.curWg w l).pc + BitVec.ofNat 64 len))) ∧
  (∀ (s : State) (k w l len : Nat) (f : Fields),
    (s.wg k).status = .resident → (∀ v ∈ s.liveWarps k, ∀ j ∈ (s.warp k v).unexited, ∃ i n, waitIn s k v j = some ⟨.solve i, n⟩) →
    (s.liveWarps k).head? = some w → (s.warp k w).unexited.head? = some l → waitIn s k w l = some ⟨.solve (.solve f), len⟩ →
    (∀ v, v < (s.packet k).warps → (s.warp k v).tlc = 0) → (s.coreAt (s.wg k).core).engine = none →
    ∃ t, exec (.solveRegionOpen k) s = .next t ∧
      let body := (if (s.warp k w).handler = true then (s.lane k w l).frozenPc else (s.lane k w l).pc) + BitVec.ofNat 64 len
      let imm : Word := if f.isImm then f.immWord else 0x3F80
      t.wg k = { s.wg k with
        warps := (t.wg k).warps, svstat := 1, sviter := 0, svnorm := 0, svArrived := 0
        region := { m := f.mod.toNat % 8, two := f.mbit 3, l2 := f.mbit 4, beta := imm.setWidth 16
                    lambda := (imm >>> 16).setWidth 16, carried := f.d.toNat, image := f.c.toNat, tolReg := f.a.toNat
                    ceilReg := f.b.toNat, body } } ∧
      t.coreAt (s.wg k).core = { s.coreAt (s.wg k).core with engine := some k } ∧
      (∀ v ∈ s.liveWarps k, ∀ j ∈ (s.warp k v).unexited, GoesOn s t k v j (some body)) ∧
      ∀ v r j, (t.warp k v).reg r j = (s.warp k v).reg r j)) ∧
  (∀ (f : Fields) (s : State),
    let at_ (l : Nat) : Nat := (s.curW.reg f.b.toNat l).toNat % 8192
    let held : Prop := s.curG.svstat.getLsbD 0 = true ∧ s.curG.svstat.getLsbD 4 = true
    Completes (.svrd f) s (toD f s fun l => SMap.get 0 (SMap.get [] s.curG.hs f.a.toNat) (at_ l)) ∧
    (held → Completes (.svrdZp f) s (toD f s fun l => SMap.get 0 s.curG.zp (at_ l)) ∧
      Completes (.svrdRp f) s (toD f s fun l => SMap.get 0 s.curG.rp (at_ l))) ∧
    (¬held → Completes (.svrdZp f) s (toD f s fun _ => 0) ∧ Completes (.svrdRp f) s (toD f s fun _ => 0)) ∧
    (s.trueLanes f = [] → Completes (.svhsClr f) s {}) ∧
    (s.trueLanes f ≠ [] → CompletesWith (.svhsClr f) s {} fun u =>
      u.updCurG fun g => { g with svstat := g.svstat &&& ~~~ 0x3E0 }) ∧
    (∃ hs : SMap (SMap Word), CompletesWith (.svhsWr f) s {} (fun u => u.updCurG fun g => { g with hs }) ∧
      (∀ l ∈ s.trueLanes f, (∀ j ∈ s.trueLanes f, l < j → at_ j ≠ at_ l) →
        SMap.get 0 (SMap.get [] hs f.d.toNat) (at_ l) = s.curW.reg f.a.toNat l) ∧
      (∀ q n, (q ≠ f.d.toNat ∨ ∀ l ∈ s.trueLanes f, at_ l ≠ n) →
        SMap.get 0 (SMap.get [] hs q) n = SMap.get 0 (SMap.get [] s.curG.hs q) n)))

/-! ### Queues and collectives -/

/-- R111, R112, R334 to R336: `qpoll` tells whether the queue holds a message; `qpoll.send` puts one message of the guard-true
threads' words on its way, with PROT and TRAPVA the index for a target outside the grid or one that has exited or was discarded;
`qpoll.recv` gives each guard-true thread the word of its own lane number, or waits for a message; a releasing message is acquired
by a reader in the sender's unit at its scope. R112, R113, R260: a message arrives in send order, a releasing one once what its
sender's threads did before is performed and visible at its scope, and to a workgroup that has been admitted; before that it does
not arrive: it is appended to the queue of a workgroup that is there, in its image too where it is saved, and the time of each
`sleep.wake` thread, one that a trap has frozen too, becomes now at the latest; at one that has exited or was discarded it is
dropped. -/
def Obligations.QueuesAndMessages : Prop :=
  (∀ (f : Fields) (s : State),
    let l := (s.trueLanes f).headD 0
    let i := (s.curW.reg f.b.toNat l).toNat
    let target := keyLaunch s.curWg * 2 ^ 32 + i
    let p := s.packet s.curWg
    let q : List Message := SMap.get [] s.curG.queues f.a.toNat
    Completes (.qpoll f) s (toPred f s fun _ => decide (q ≠ [])) ∧
    (s.trueLanes f = [] → Completes (.qpollSend f) s {} ∧ Completes (.qpollRecv f) s {}) ∧
    (s.trueLanes f ≠ [] →
      (i < p.nx * p.ny * p.nz → (s.wg target).status ≠ .exited → (s.wg target).status ≠ .discarded → ∃ m : Message,
        CompletesWith (.qpollSend f) s {} (fun u =>
          { u with tag := u.tag + 1
                   flights := u.flights ++ [{ id := s.tag, wg := s.curWg, warp := s.curWarp, target, queue := f.d.toNat
                                              msg := m, bound := s.tag }] }) ∧
        m.mask = maskOf (s.trueLanes f) ∧ m.scope = f.mod.toNat / 4 ∧ m.core = s.curG.core ∧
        ∀ j, SMap.get 0 m.words j = if j ∈ s.trueLanes f then s.curW.reg f.a.toNat j else 0) ∧
      (p.nx * p.ny * p.nz ≤ i ∨ (s.wg target).status = .exited ∨ (s.wg target).status = .discarded →
        canTrap s → Runs (.qpollSend f) s → ∃ t detail, exec (.qpollSend f) s = .next t ∧
        Trapped (s.charge f) t 7 detail s.curPc (BitVec.ofNat 80 i) (maskOf (s.trueLanes f))) ∧
      (q = [] → Completes (.qpollRecv f) s
        { lane := fun j x => if j ∈ s.trueLanes f then
            { x with pc := (s.curW.lane j).pc, wait := some ⟨.message f.a.toNat f.d.toNat (maskOf (s.trueLanes f)), f.len⟩ }
            else x }) ∧
      (∀ m ms, q = m :: ms → CompletesWith (.qpollRecv f) s
        { reg := fun r j => if r = f.d.toNat ∧ r ≠ 255 ∧ j ∈ s.trueLanes f then some (SMap.get 0 m.words j) else none }
        fun u => (if 2 ≤ m.scope ∧ sameUnit m.scope m.core s.curG.core = true then u.updCore s.curG.core fun c => { c with l1 := [] } else u).updCurG
          fun g => { g with queues := SMap.set [] g.queues f.a.toNat ms }))) ∧
  (∀ (s : State) (x : Flight), s.flights.find? (fun y => y.id == x.id) = some x →
    let turn : Prop := ∀ y ∈ s.flights, y.id < x.id → ¬(y.wg = x.wg ∧ y.target = x.target ∧ y.queue = x.queue)
    let released : Prop := x.msg.scope = 0 ∨
      ((∀ l, l < 64 → x.msg.mask.getLsbD l = true → s.shownAt (s.wg x.wg).core (x.wg, x.warp) l x.bound x.msg.scope = true) ∧
        ∀ r ∈ s.reqs ++ (s.wg x.wg).recReqs, r.wg = x.wg → r.warp = x.warp → r.fetch = false → r.group < x.bound →
          ∀ y ∈ r.slots, x.msg.mask.getLsbD y.lane = true → r.didSlot y = true)
    (¬turn ∨ ¬released ∨ (s.wg x.target).status = .waiting →
      exec (.queueMessageArrival x.id) s = .refused (.notEnabled "QUEUE_MESSAGE_ARRIVAL")) ∧
    (turn → released →
    let wake (y : Option Wait) : Option Wait := y.map fun z =>
      match z with
      | ⟨.sleep time true, len⟩ => ⟨.sleep (min time s.cyc.toNat) true, len⟩
      | z => z
    let lands (t : State) : Prop := t.flights = s.flights.filter (fun y => y.id != x.id) ∧
      t.wg x.target = { s.wg x.target with queues := (t.wg x.target).queues, warps := (t.wg x.target).warps } ∧
      (∀ k, k ≠ x.target → t.wg k = s.wg k) ∧
      (∀ q, SMap.get [] (t.wg x.target).queues q =
        SMap.get [] (s.wg x.target).queues q ++ (if q = x.queue then [x.msg] else [])) ∧
      (∀ w, t.warp x.target w = { s.warp x.target w with lanes := (t.warp x.target w).lanes }) ∧
      ∀ w l, t.lane x.target w l =
        { s.lane x.target w l with wait := wake (s.lane x.target w l).wait, frozenWait := wake (s.lane x.target w l).frozenWait }
    ((s.wg x.target).status = .resident ∨ (s.wg x.target).status = .ending →
      ∃ t, exec (.queueMessageArrival x.id) s = .next t ∧ lands t ∧ t = { s with flights := t.flights, wgs := t.wgs }) ∧
    ((s.wg x.target).status = .saved → ∃ t, exec (.queueMessageArrival x.id) s = .next t ∧ lands t) ∧
    ((s.wg x.target).status = .exited ∨ (s.wg x.target).status = .discarded →
      ∃ t, exec (.queueMessageArrival x.id) s = .next t ∧ t.wgs = s.wgs ∧ t.flights = s.flights.filter (fun y => y.id != x.id))))

/-- R337, R338, R340: `coll` adds the workgroup's part to its next occurrence of the group and gives the handle; a misaligned
address is MISALIGN and a group without the workgroup PROT; `collw` gives the status word and ORs its flags into FSTAT, or waits;
a handle that names none of the workgroup's last 64 occurrences has status 4. A workgroup that was discarded and runs again joins
in place of its earlier part (R396), and its status is that of the rank it joined with, whatever its group has become since. R223,
R339, R340: an occurrence that every member has joined completes: with status 1 and no effect where the parts disagree; parked, in
the replay pool or the miss queue, where a page is not present or an earlier request is parked on it (it parks as a whole, the
model's reading, log 48); with status 3 where a translation fails; with status 2 where a member is lost; else with status 0, and
then each destination element holds its result, made of the sources as they were: the reduction over the ranks' elements, rank 0's
element (its own buffer is not written where it is the source), or each rank's elements at that rank's place; no other byte
changes. An all-reduce adds integers modulo 2^32 or 2^64 whatever the tree. The instances of a group count afresh when it is
created or changed (the model's choice, log 86). -/
def Obligations.Collectives : Prop :=
  (∀ (f : Fields) (s : State),
    let ls := s.trueLanes f
    let l := ls.headD 0
    let ctx := s.ctxNo s.curWg
    let c := (s.curW.reg f.c.toNat l).toNat
    let n := c / 2 ^ 26
    let src := s.curW.address f 0 l
    let dst := s.curW.segnum f * 2 ^ 64 + (pairB f s l).toNat
    let type := f.mod.toNat / 4 % 4
    let size := if type = 1 then 2 else if type = 3 then 8 else 4
    let next := SMap.get 0 s.curG.collNext n
    let h := (s.curW.reg f.a.toNat l).toNat
    let members := (s.group? ctx n).members
    let me := (s.pkg, keyLaunch s.curWg, keyWgid s.curWg)
    let part : CollPart := { kind := f.mod.toNat % 4, type, max := f.mbit 4, n := c % 2 ^ 26, src, dst, wg := some s.curWg }
    let joined (u : State) : State :=
      { u with occs := SMap.upd {} u.occs (occKey ctx n (s.group? ctx n).gen next) fun (o : Occ) =>
          { o with parts := (o.parts.filter fun q => q.1 != members.idxOf me) ++ [(members.idxOf me, part)] } }
    (ls = [] → Completes (.coll f) s {} ∧ Completes (.collw f) s {}) ∧
    (ls ≠ [] →
      (src % size = 0 → dst % size = 0 → me ∈ members →
        CompletesWith (.coll f) s (toD f s fun _ => BitVec.ofNat 32 (n + next % 2 ^ 26 * 64)) fun u =>
          (joined u).updCurG fun g => { g with collNext := SMap.set 0 g.collNext n (next + 1),
                                                collLog := (occKey ctx n (s.group? ctx n).gen next :: g.collLog).take 64 }) ∧
      (¬(src % size = 0 ∧ dst % size = 0) → canTrap s → Runs (.coll f) s → ∃ t, exec (.coll f) s = .next t ∧
        Trapped (s.charge f) t 5 0 s.curPc (BitVec.ofNat 80 (if src % size = 0 then dst else src)) (maskOf [l])) ∧
      (src % size = 0 → dst % size = 0 → me ∉ members → canTrap s → Runs (.coll f) s → ∃ t detail, exec (.coll f) s = .next t ∧
        Trapped (s.charge f) t 7 detail s.curPc 0 (maskOf ls)) ∧
      (∀ v, s.collStatus s.curWg h = some v → CompletesWith (.collw f) s
        { reg := toReg f s (BitVec.ofNat 32 v), flags := BitVec.ofNat 32 (v / 256 % 128) }
        fun u => u.updCore s.curG.core fun k => { k with l1 := [] }) ∧
      (s.collStatus s.curWg h = none → Completes (.collw f) s
        { lane := fun j x => if j ∈ ls then
            { x with pc := (s.curW.lane j).pc, wait := some ⟨.collective (s.curW.reg f.a.toNat l) f.d.toNat, f.len⟩ } else x }) ∧
      (∀ key r st fl, s.handleOcc s.curWg h = some key → let o : Occ := SMap.get {} s.occs key
        (o.parts.find? fun p => p.2.wg == some s.curWg).map (·.1) = some r → o.done.find? (fun d => d.1 == r) = some (r, st, fl) →
          s.collStatus s.curWg h = some (st + fl * 256)) ∧
      ((∀ key ∈ s.curG.collLog, ¬(occGroup key = ctx * 64 + h % 64 ∧ occNum key % 2 ^ 26 = h / 64 % 2 ^ 26)) →
        s.collStatus s.curWg h = some 4))) ∧
  ((∀ (s : State) (ctx group occ : Nat),
    let key := occKey ctx group (s.group? ctx group).gen occ
    let o : Occ := SMap.get {} s.occs key
    let ms := (s.group? ctx group).members
    let ps := sortBy (fun a b => a.1 < b.1) o.parts
    let core (r : Nat) : Nat :=
      (s.wg ((ms.getD r (0, 0, 0)).2.1 * 2 ^ 32 + (ms.getD r (0, 0, 0)).2.2)).core
    let tr := s.collTranslate core ctx (collPages ps)
    let done (t : State) (status fl : Nat) : Prop :=
      (SMap.get {} t.occs key : Occ) = { o with done := (List.range ms.length).map fun r => (r, status, fl) }
    ctx < 2 ^ 16 → group < 64 → ms ≠ [] → o.parts.length = ms.length → o.done = [] → o.parked = none → s.occLost key = false →
    let same : Prop := ∀ p ∈ ps, ∀ q ∈ ps, p.2.kind = q.2.kind ∧ p.2.type = q.2.type ∧ p.2.max = q.2.max ∧ p.2.n = q.2.n
    (¬same → ∃ t, exec (.collectiveInstance ctx group occ) s = .next t ∧ done t 1 0 ∧ t.mem = s.mem) ∧
    (same → tr.2 = none → ∃ t fl, exec (.collectiveInstance ctx group occ) s = .next t ∧ done t 0 fl) ∧
    (∀ r va wr level, same → tr.2 = some (r, va, wr, .absent level) → ∃ t, exec (.collectiveInstance ctx group occ) s = .next t ∧
      (SMap.get {} t.occs key : Occ) =
        { o with parked := some (if tr.1.poolShut (quadOf (core r)) = true then .miss else .parked)
                 id := tr.1.tag, order := tr.1.seq + 1, page := va / 2 ^ 18, level, core := core r }) ∧
    (∀ r va wr d, same → tr.2 = some (r, va, wr, .prot d) → ∃ t, exec (.collectiveInstance ctx group occ) s = .next t ∧
      done t 3 0) ∧
    (same → tr.2 = none → ps.map (·.1) = List.range ms.length → (∀ p ∈ ps, p.2.given = none) → ∀ p0, ps.head? = some p0 →
      let b := if p0.2.type = 1 then 2 else if p0.2.type = 3 then 8 else 4
      let part (r : Nat) : CollPart := (ps.map (·.2)).getD r p0.2
      let at_ (r va : Nat) (wr : Bool) : Nat := tr.1.canon (tr.1.collAddr (core r) ctx va wr)
      let src (r i : Nat) : Nat := tr.1.mem.read (at_ r ((part r).src + i * b) false) b
      let value (j : Nat) : Nat :=
        if p0.2.kind = 0 then (reduceElem p0.2.type p0.2.max ((List.range ms.length).map fun q => src q j)).1
        else if p0.2.kind = 1 then src 0 j
        else src (j / p0.2.n) (j % p0.2.n)
      let written (r j : Nat) : Prop := r < ms.length ∧
        (p0.2.kind < 2 → j < p0.2.n) ∧ (2 ≤ p0.2.kind → j < p0.2.n * ms.length) ∧
        ¬(p0.2.kind = 1 ∧ r = 0 ∧ p0.2.src = p0.2.dst)
      let place (r j : Nat) : Nat := at_ r ((part r).dst + j * b) true
      ∃ t, exec (.collectiveInstance ctx group occ) s = .next t ∧
        (∀ r j, written r j →
          (∀ r' j', written r' j' → (r', j') ≠ (r, j) → place r' j' + b ≤ place r j ∨ place r j + b ≤ place r' j') →
          t.mem.read (place r j) b = value j % 2 ^ (8 * b)) ∧
        ∀ a, (∀ r j, written r j → a < place r j ∨ place r j + b ≤ a) → t.mem.byte a = tr.1.mem.byte a)) ∧
  (∀ (s : State) (key : Nat), s.occLost key = true →
    ∀ k h, s.handleOcc k h = some key → s.collStatus k h = some 2) ∧
  (∀ (vs : List Nat), vs ≠ [] → vs.length ≤ 4096 → (∀ v ∈ vs, v < 2 ^ 32) → (reduceElem 2 false vs).1 = vs.sum % 2 ^ 32) ∧
  (∀ (vs : List Nat), vs ≠ [] → vs.length ≤ 4096 → (∀ v ∈ vs, v < 2 ^ 64) → (reduceElem 3 false vs).1 = vs.sum % 2 ^ 64))

/-! ### The matrix engine -/

/-- R189, R190, R342, R347, R349, R350: an operation is issued once for the group, by its lowest guard-true thread: TLC rises, and it is
accepted with the thread's operands and parameter block as they are at issue (R163), and, so that a use may have the old or the new
value of an operand that is written meanwhile (R164), with scratch and the slots as they are then (the model's choice, log 17) and
with free values of its own (log 5); or, with A in registers, held until its last contributor, which its block address finds (R350), has issued it. A check that fails (`matFails`) is a precise trap of that thread: among them a block address that is not a multiple of
64, one beyond the declared scratch, a block that holds an uncorrectable error (R306; that it is found at issue is log 44), and a
reduction length that is not a multiple of 32 from 32 to 4096. -/
def Obligations.MatrixOperationsIssue : Prop :=
  ∀ (i : Instr) (f : Fields) (s : State),
    i ∈ [Instr.mxi f, .mxs f, .mxv f, .mxn f, .mxsa f, .mxz f, .mxmvSt f, .mxmvLd f, .mxmvTt f, .wbinv f] →
    let takesBlock : Prop := i ∈ [Instr.mxi f, .mxs f, .mxv f]
    let k := s.curWg
    let p := s.packet k
    let l := (s.trueLanes f).headD 0
    let a := s.curW.reg f.a.toNat l
    let m (block : List Word) : MatOp :=
      { id := s.tag, insn := i, warp := s.curWarp, counted := [s.curWarp], pc := s.curPc, va := a
        vb := s.curW.reg f.b.toNat l, vc := s.curW.reg f.c.toNat l, block }
    let words : List Word := (List.range 16).map fun n => BitVec.ofNat 32 (s.curG.scratchRead (a.toNat + 4 * n) 4)
    let issued : Effects := { rest := fun w => { w with tlc := w.tlc + 1, tileErrs := w.tileErrs.map fun e => (e.1, e.2 + 1) } }
    let numbered (u : State) : State := { u with tag := s.tag + 1 }
    let accepted (op : MatOp) (u : State) : State :=
      { numbered u with
        matOps := u.matOps ++ [{ op with was := { op.was with scratch := s.curG.scratch, wb := s.curG.wb }, free := s.free
                                         since := op.since.map fun o => { o with scratch := s.curG.scratch, wb := s.curG.wb } }]
        matWg := SMap.set 0 u.matWg op.id k, free := s.free + usesPerOp }
    let holds (ops : List MatOp) (u : State) : State := u.updCurG fun g => { g with held := ops }
    let trapped (cause detail va : Nat) : Prop := canTrap s → Runs i s → ∃ t, exec i s = .next t ∧
      Trapped (s.charge f) t cause detail s.curPc (BitVec.ofNat 80 va) (maskOf [l])
    (s.trueLanes f = [] → Completes i s {}) ∧
    (s.trueLanes f ≠ [] →
      (¬takesBlock → s.matFails i l = none → CompletesWith i s issued (accepted (m []))) ∧
      (takesBlock → s.matFails i l = none →
        let x := blockOf words
        let lead := p.ncopy + x.ridx0
        let others := ((List.range (x.j + 1)).map fun r => lead + r).filter (· != s.curWarp)
        let first : MatOp := { m words with warp := lead, missing := others, was := s.supplied k s.curWarp x f.mod.toNat {} }
        let mine (q : MatOp) : Prop := q.va = a ∧ s.curWarp ∈ q.missing
        (x.areg = false → CompletesWith i s issued (accepted (m words))) ∧
        (x.areg = true → (∀ q ∈ s.curG.held, ¬mine q) →
          (others = [] → CompletesWith i s issued (accepted first)) ∧
          (others ≠ [] → CompletesWith i s issued fun u => holds (s.curG.held ++ [first]) (numbered u))) ∧
        (x.areg = true → ∀ h, s.curG.held.find? (fun q => q.va == a && q.missing.contains s.curWarp) = some h →
          let joined : MatOp :=
            { h with missing := h.missing.filter (· != s.curWarp), counted := h.counted ++ [s.curWarp]
                     was := s.supplied k s.curWarp x (fmtOf h.insn) h.was }
          (joined.missing = [] → CompletesWith i s issued fun u =>
            accepted joined (holds (s.curG.held.filter fun q => q.id != h.id) u)) ∧
          (joined.missing ≠ [] → CompletesWith i s issued fun u =>
            holds (s.curG.held.map fun q => if q.id = h.id then joined else q) (numbered u)))) ∧
      (∀ cause detail va, s.matFails i l = some (cause, detail, va) → trapped cause detail va) ∧
      (takesBlock → a.toNat % 64 ≠ 0 → trapped 5 0 a.toNat) ∧
      (takesBlock → a.toNat % 64 = 0 → p.scratch < a.toNat + 64 → trapped 7 8 a.toNat) ∧
      let off := 2 ^ 24 + s.curG.scratchBase + a.toNat
      let unread : Prop := ∃ u ∈ (s.coreAt s.curG.core).storeBad, off / 8 ≤ u ∧ u ≤ (off + 63) / 8
      (takesBlock → a.toNat % 64 = 0 → a.toNat + 64 ≤ p.scratch → unread → trapped 9 0 a.toNat) ∧
      (takesBlock → a.toNat % 64 = 0 → a.toNat + 64 ≤ p.scratch → ¬unread →
        let len := s.curG.scratchRead (a.toNat + 16) 4 % 2 ^ 13
        (len < 32 ∨ 4096 < len ∨ len % 32 ≠ 0) → trapped 7 9 a.toNat))

/-- R341, R348, R350: element n of row i of operand A of a block operation, with its format violation: from packed words in scratch, or
from the registers of its contributors. -/
def Sys2Proof.Machine.operandA (g : Workgroup) (p : Packet) (x : MatBlock) (fmt i n : Nat) : Val × Flags :=
  let code := [3, 2, 0, 5, 4, 6, 7, 9, 5].getD fmt 9
  let e := [2, 2, 1, 4, 4, 5, 5, 8, 4].getD fmt 8
  let kw := x.k / (x.j + 1)
  if x.areg then elemVal code ((g.warp (p.ncopy + x.ridx0 + n / kw)).regIn false (x.asrc + n % kw / e) i).toNat (n % kw % e)
  else elemVal code (g.scratchRead (x.asrc + i * x.astride + 4 * (n / e)) 4) (n % e)

/-- R78 to R80: the 64 elements of the WBZ segment at byte `start` of a slot, with their violations, and the byte at which the next one
begins. An element is stored where its mask bit is set, a couple of I4X where all four are; C4 takes its values from the segment's own
codebook; what lies past the end of the slot, and a couple of which only some bits are set, reads as zero with FMTV. -/
structure Sys2Proof.Machine.Segment (g : Workgroup) (slot code start next : Nat) (v : Nat → Val × Flags) : Prop where
  elems : let field (pos n : Nat) : Nat :=
      ((List.range n).map fun i => if (g.wbAt slot ((pos + i) / 8)).getLsbD ((pos + i) % 8) then 2 ^ i else 0).sum
    let whole : Prop := 8 * start + 64 ≤ 2 ^ 19
    let mask (i : Nat) : Bool := decide whole && (g.wbAt slot (start + i / 8)).getLsbD (i % 8)
    let head := if code = 10 then 40 else 8
    let width := if code = 4 ∨ code = 5 then 8 else if code = 6 ∨ code = 7 then 6 else if code = 10 then 4 else 16
    let held (u : Nat) : Bool := if code = 9 then mask (4 * u) && mask (4 * u + 1) && mask (4 * u + 2) && mask (4 * u + 3) else mask u
    let before (u : Nat) : Nat := ((List.range u).filter held).length
    let pos (u : Nat) : Nat := 8 * (start + head) + width * before u
    next = start + (head + (width * before (if code = 9 then 16 else 64) + 7) / 8 + 7) / 8 * 8 ∧
    ∀ i, i < 64 →
      let u := if code = 9 then i / 4 else i
      (¬whole → v i = (.fin false 0 0, 32)) ∧
      (whole → held u = false → v i = (.fin false 0 0, if code = 9 ∧ (mask (4 * u) || mask (4 * u + 1) || mask (4 * u + 2) || mask (4 * u + 3)) = true then 32 else 0)) ∧
      (held u = true → 2 ^ 19 < pos u + width → v i = (.fin false 0 0, 32)) ∧
      (held u = true → pos u + width ≤ 2 ^ 19 → v i =
        if code = 9 then elemVal 9 (field (pos u) 16) (i % 4)
        else if code = 10 then (bf16.decode (field (8 * (start + 8) + 16 * field (pos u) 4) 16), 0)
        else match codeFmt code with
          | some fm => (fm.decode (field (pos u) width), 0)
          | none => (.fin false 0 0, 32))

/-- R77, R341, R348: `v n j` is element n of column j of operand B: from packed words in scratch, or from the column segments of a
weight-buffer slot, one after another. -/
def Sys2Proof.Machine.OperandB (g : Workgroup) (x : MatBlock) (fmt : Nat) (v : Nat → Nat → Val × Flags) : Prop :=
  let code := [3, 2, 0, 5, 4, 6, 7, 9].getD fmt 10
  let e := [2, 2, 1, 4, 4, 5, 5, 8].getD fmt 0
  (x.bwb = false → ∀ n j, n < x.k → j < 64 →
    v n j = elemVal code (g.scratchRead (x.bsrc + n * x.bstride + 4 * (j / e)) 4) (j % e)) ∧
  (x.bwb = true → ∃ (start : Nat → Nat) (el : Nat → Nat → Val × Flags), start 0 = x.bstride ∧
    (∀ q, q < (x.k + 63) / 64 * 64 → Segment g x.bsrc code (start q) (start (q + 1)) (el q)) ∧
    ∀ n j, n < x.k → j < 64 → v n j = el (64 * (n / 64) + j) (n % 64))

/-- R353: the row steps of `mxs`, from the side values and the row's scores to the new side values, the rescale factor and P. -/
def Sys2Proof.Machine.SoftmaxRow (mx sm : Nat) (score : Nat → Nat) (m s c : Nat) (p : Nat → Nat) : Prop :=
  let code (v : Nat) : Val := fp32.decode v
  let greater (a b : Nat) : Nat :=
    let x : Word := BitVec.ofNat 32 a
    let y : Word := BitVec.ofNat 32 b
    if nan32 x = true then (if nan32 y = true then 0x7FC00000 else b)
    else if nan32 y = true then a else if zkey32 x < zkey32 y then b else a
  let less (a b : Nat) : Nat := (addVal fp32 .rne (code a) (code b).neg).1
  (∃ run : Nat → Nat, run 0 = mx ∧ run 64 = m ∧ ∀ j, j < 64 → run (j + 1) = greater (run j) (score j)) ∧
  (m = 0xFF800000 → c = 0x3F800000 ∧ ∀ j, j < 64 → p j = 0) ∧
  (m ≠ 0xFF800000 → c = (applyFn .exp (less mx m)).1 ∧
    ∀ j, j < 64 → p j = (narrow bf16 .rne true (code (applyFn .exp (less (score j) m)).1)).1) ∧
  ∃ sum : Nat → Nat, sum 0 = (mulVal fp32 .rne (code sm) (code c)).1 ∧ sum 64 = s ∧
    ∀ j, j < 64 → sum (j + 1) = (addVal fp32 .rne (code (sum j)) (bf16.decode (p j))).1

/-- R221, R343, R344, R348, R352 to R359: the oldest accepted operation of a workgroup completes: its tile, scratch or slot receives
the results, the flags go to the warp that issued it, TLC falls in each warp that counted it, and nothing else of the workgroup
changes, the other tiles' side registers among it; what it has written whole holds no uncorrectable error any more (log 44), and hides
what copies had left there (R162). A product's elements are chains of fused multiply-adds in FP32, in ascending k, of operands decoded as
R77 to R80, R348 and R350 say. Its
operands have not changed since its issue, no thread has written its tile meanwhile, no copy into the slot that it clears is incomplete,
and it reads no uncorrectable error: the values that R164, R345 and R359 leave open otherwise are no part of this statement, but that a
`wbinv` leaves each byte of its slot zero or as it was, where a copy into it is incomplete (R359, log 5). The later operations read what
it wrote (R344). -/
def Obligations.MatrixOperationsComplete : Prop :=
  (∀ (s : State) (m : MatOp) (rest : List MatOp),
    let k := SMap.get 0 s.matWg m.id
    let g := s.wg k
    let p := s.packet k
    s.opsOf k = m :: rest → g.status = .resident → s.opBad k m = none → m.overlay = [] → s.opWaits k m = false →
    (∀ o ∈ m.was :: m.since, o = g.operands o) → (∀ slot, m.stores.2 = some slot → s.slotCopies k slot = []) →
    ∃ (t : State) (b : Nat → Nat → Val × Flags), exec (.matrixOperationComplete m.id) s = .next t ∧
      OperandB g (blockOf m.block) m.insn.fields.mod.toNat b ∧
      let h := t.wg k
      let x := blockOf m.block
      let code (c : Word) : Val := fp32.decode c.toNat
      let word (r : Nat × Flags) : Word := BitVec.ofNat 32 r.1
      let tile (d : Nat) (v : Nat → Nat → Word) : Prop :=
        (∀ a b, a < 64 → b < 64 → h.accAt d (64 * a + b) = v a b) ∧ (∀ c n, c ≠ d → h.accAt c n = g.accAt c n)
      let chain (fmt : Nat) (start : Nat → Nat → Nat) (i j : Nat) : Word :=
        BitVec.ofNat 32 ((List.range x.k).foldl (fun acc n =>
          (fmaVal fp32 .rne (operandA g p x fmt i n).1 (b n j).1 (fp32.decode acc)).1) (start i j))
      let held (a b : Nat) : Nat := if x.ovw then 0 else (g.accAt x.acc (64 * a + b)).toNat
      t = { s with wgs := t.wgs, matOps := t.matOps, matWg := t.matWg, late := t.late, cores := t.cores } ∧
      (m.stores.1 = [] → t.late = s.late) ∧ (s.late = [] → t.late = []) ∧
      (∀ c, t.coreAt c = { s.coreAt c with storeBad := (t.coreAt c).storeBad } ∧ (t.coreAt c).storeBad.Sublist (s.coreAt c).storeBad) ∧
      t.matOps = ((s.matOps.filter fun q => q.id != m.id).map fun q =>
        if SMap.get 0 s.matWg q.id = k then q.after h m.stores else q) ∧
      (∀ j, j ≠ k → t.wg j = s.wg j) ∧
      h = { g with warps := h.warps, acc := h.acc, mx := h.mx, sm := h.sm, scratch := h.scratch, wb := h.wb } ∧
      (∀ w, (t.warp k w).tlc = (s.warp k w).tlc - m.counted.count w ∧ (t.warp k w).regs = (s.warp k w).regs ∧
        (t.warp k w).lanes = (s.warp k w).lanes ∧
        (t.warp k w).fstat = (s.warp k w).fstat ||| (if w = m.warp then BitVec.ofNat 32 ((g.runOp p m).2 % 128) else 0)) ∧
      match m.insn with
      | .mxi f => tile x.acc (chain (f.mod.toNat) held) ∧ h.scratch = g.scratch ∧ h.mx = g.mx ∧ h.sm = g.sm ∧ h.wb = g.wb
      | .mxv f => tile x.acc (chain (f.mod.toNat) fun a b => if x.ovw then 0 else
          (mulVal fp32 .rne (fp32.decode (held a b)) (fp32.decode (g.scratchRead (x.pbuf + 8192 + 4 * a) 4))).1) ∧
        h.scratch = g.scratch ∧ h.mx = g.mx ∧ h.sm = g.sm ∧ h.wb = g.wb
      | .mxs f =>
        let score := chain (f.mod.toNat) held
        tile x.acc score ∧ h.wb = g.wb ∧ (∀ c n, c ≠ x.side → h.mxAt c n = g.mxAt c n ∧ h.smAt c n = g.smAt c n) ∧
        (∀ a, a < 64 → ∃ m s c p,
          SoftmaxRow (if x.chain then (g.mxAt x.side a).toNat else 0xFF800000) (if x.chain then (g.smAt x.side a).toNat else 0)
            (fun j => (score a j).toNat) m s c p ∧
          h.mxAt x.side a = BitVec.ofNat 32 m ∧ h.smAt x.side a = BitVec.ofNat 32 s ∧
          h.scratchRead (x.pbuf + 8192 + 4 * a) 4 = c % 2 ^ 32 ∧
          ∀ j, j < 64 → h.scratchRead (x.pbuf + 128 * a + 2 * j) 2 = p j % 2 ^ 16) ∧
        (∀ n, n < x.pbuf ∨ x.pbuf + 8448 ≤ n → h.scratchAt n = g.scratchAt n)
      | .mxn f => tile f.d.toNat (fun a b => word (divVal fp32 .rne (code (g.accAt f.d.toNat (64 * a + b))) (code (g.smAt f.a.toNat a)))) ∧
        h.mx = g.mx ∧ h.sm = g.sm ∧ h.scratch = g.scratch ∧ h.wb = g.wb
      | .mxsa f =>
        let scale (base : Word) (n : Nat) : Val :=
          if f.mbit 0 then e8m0Val (g.scratchAt (base.toNat + n)).toNat else fp32.decode (g.scratchRead (base.toNat + 4 * n) 4)
        tile f.d.toNat (fun a b => word (fmaVal fp32 .rne (code (g.accAt f.a.toNat (64 * a + b)))
          (fp32.decode (mulVal fp32 .rne (scale m.vb a) (scale m.vc b)).1) (code (g.accAt f.d.toNat (64 * a + b))))) ∧
        h.mx = g.mx ∧ h.sm = g.sm ∧ h.scratch = g.scratch ∧ h.wb = g.wb
      | .mxz f =>
        (if f.mod.toNat % 4 = 1 then h.acc = g.acc else tile f.d.toNat fun _ _ => 0) ∧
        (∀ a, a < 64 → h.mxAt f.d.toNat a = (if f.mod.toNat % 4 = 0 then g.mxAt f.d.toNat a else 0xFF800000) ∧
          h.smAt f.d.toNat a = (if f.mod.toNat % 4 = 0 then g.smAt f.d.toNat a else 0)) ∧
        (∀ c n, c ≠ f.d.toNat → h.mxAt c n = g.mxAt c n ∧ h.smAt c n = g.smAt c n) ∧ h.scratch = g.scratch ∧ h.wb = g.wb
      | .mxmvSt f =>
        let n (a b : Nat) : Nat := 64 * a + b
        h.acc = g.acc ∧ h.mx = g.mx ∧ h.sm = g.sm ∧ h.wb = g.wb ∧
        (∀ a b, a < 64 → b < 64 →
          (f.mod.toNat / 8 = 0 → h.scratchRead (m.vb.toNat + 4 * n a b) 4 = (g.accAt f.a.toNat (n a b)).toNat) ∧
          (f.mod.toNat / 8 ≠ 0 → h.scratchRead (m.vb.toNat + 2 * n a b) 2 =
            (narrow (if f.mod.toNat / 8 = 1 then bf16 else fp16) .rne false (code (g.accAt f.a.toNat (n a b)))).1)) ∧
        (∀ c, c < m.vb.toNat ∨ m.vb.toNat + (if f.mod.toNat / 8 = 0 then 16384 else 8192) ≤ c → h.scratchAt c = g.scratchAt c)
      | .mxmvLd f => tile f.d.toNat (fun a b =>
          if f.mod.toNat / 8 = 0 then BitVec.ofNat 32 (g.scratchRead (m.vb.toNat + 4 * (64 * a + b)) 4)
          else word (toF32 ((if f.mod.toNat / 8 = 1 then bf16 else fp16).decode (g.scratchRead (m.vb.toNat + 2 * (64 * a + b)) 2)))) ∧
        h.mx = g.mx ∧ h.sm = g.sm ∧ h.scratch = g.scratch ∧ h.wb = g.wb
      | .mxmvTt f => tile f.d.toNat (fun a b => g.accAt f.a.toNat (64 * a + b)) ∧
        (∀ a, h.mxAt f.d.toNat a = g.mxAt (if f.mbit 2 then f.a.toNat else f.d.toNat) a ∧
          h.smAt f.d.toNat a = g.smAt (if f.mbit 2 then f.a.toNat else f.d.toNat) a) ∧
        (∀ c n, c ≠ f.d.toNat → h.mxAt c n = g.mxAt c n ∧ h.smAt c n = g.smAt c n) ∧ h.scratch = g.scratch ∧ h.wb = g.wb
      | .wbinv f => h.acc = g.acc ∧ h.mx = g.mx ∧ h.sm = g.sm ∧ h.scratch = g.scratch ∧
        ∀ c n, h.wbAt c n = if c = f.d.toNat then 0 else g.wbAt c n
      | _ => h.acc = g.acc) ∧
  (∀ (s : State) (m : MatOp) (rest : List MatOp) (f : Fields),
    let k := SMap.get 0 s.matWg m.id
    s.opsOf k = m :: rest → (s.wg k).status = .resident → m.insn = .wbinv f →
    ∃ t, exec (.matrixOperationComplete m.id) s = .next t ∧
      (∀ n, (t.wg k).wbAt f.d.toNat n = 0 ∨ (t.wg k).wbAt f.d.toNat n = (s.wg k).wbAt f.d.toNat n) ∧
      ∀ c n, c ≠ f.d.toNat → (t.wg k).wbAt c n = (s.wg k).wbAt c n)

/-- R164, R360: `mxrd` gives each guard-true thread its tile or side element, `mxwr` writes them, the highest lane's value remaining
where lanes name one element. While an operation that writes the tile is outstanding, or the mixing engine writes it, they still
complete, as R164 and R373 permit: a read gives what the element holds, or, where the oldest operation writes it, a partial sum of its
chain or its result (for a side element, the value after the row's update), or the value before the mixing step; an element that a lane
writes holds the lane's value, or keeps the operation's or the engine's, the lane's value then standing, if at all, after one of the
operations that write the tile (`overlay`). Every other element stays as it is. -/
def Obligations.TileElementAccess : Prop :=
  ∀ (f : Fields) (s : State),
    let sel := f.mod.toNat % 4
    let b (l : Nat) : Nat := (s.curW.reg f.b.toNat l).toNat % 64
    let at_ (l : Nat) : Nat := if sel = 0 then 64 * b l + l else if sel = 1 then 64 * l + b l else b l
    let elem (g : Workgroup) (t n : Nat) : Word := if sel < 2 then g.accAt t n else if sel = 2 then g.mxAt t n else g.smAt t n
    let gives (v : Nat → Word) : Effects :=
      { reg := fun r l => if r = f.d.toNat ∧ r ≠ 255 ∧ l ∈ s.trueLanes f then some (v l) else none }
    let put (h : Workgroup) (u : State) : State := u.updCurG fun g => { g with acc := h.acc, mx := h.mx, sm := h.sm }
    let quiet : Prop := s.opsOf s.curWg = [] ∧ (s.curG.mixing = none ∨ 2 ≤ sel)
    (quiet → Completes (.mxrd f) s (gives fun l => elem s.curG f.a.toNat (at_ l))) ∧
    (∃ v n, CompletesWith (.mxrd f) s (gives v) (fun u => { u with free := n }) ∧ ∀ l ∈ s.trueLanes f,
      v l = elem s.curG f.a.toNat (at_ l) ∨
      (∃ m rest, s.opsOf s.curWg = m :: rest ∧
        ((sel < 2 ∧ m.tile = some f.a.toNat ∧ ∃ r, v l = s.opElem s.curWg m (at_ l) r) ∨
         (2 ≤ sel ∧ m.sideTile = some f.a.toNat ∧ v l = elem (s.curG.runOp (s.packet s.curWg) m).1 f.a.toNat (at_ l)))) ∨
      (sel < 2 ∧ s.opsOf s.curWg = [] ∧ ∃ x, s.curG.mixing = some x ∧ f.a.toNat ∈ x.tiles ∧
        v l = SMap.get 0 (SMap.get [] x.acc f.a.toNat) (at_ l))) ∧
    (∀ (m : MatOp) (t n r : Nat), m.tile = some t → n < 4096 → s.opBad s.curWg m = none →
      (∀ o ∈ m.was :: m.since, o = s.curG.operands o) →
      let g := s.curG
      let p := s.packet s.curWg
      let x := blockOf m.block
      ∃ b, OperandB g x m.insn.fields.mod.toNat b ∧
        let start : Nat := if x.ovw then 0 else match m.insn with
          | .mxv _ => (mulVal fp32 .rne (fp32.decode (g.accAt t n).toNat)
              (fp32.decode (g.scratchRead (x.pbuf + 8192 + 4 * (n / 64)) 4))).1
          | _ => (g.accAt t n).toNat
        let partial_ (q : Nat) : Nat := (List.range q).foldl (fun acc j =>
          (fmaVal fp32 .rne (operandA g p x m.insn.fields.mod.toNat (n / 64) j).1 (b j (n % 64)).1 (fp32.decode acc)).1) start
        let block : Prop := m.insn ∈ [Instr.mxi m.insn.fields, .mxs m.insn.fields, .mxv m.insn.fields]
        s.opElem s.curWg m n r = g.accAt t n ∨ (block ∧ ∃ q, q ≤ x.k ∧ s.opElem s.curWg m n r = BitVec.ofNat 32 (partial_ q)) ∨
        (¬block ∧ s.opElem s.curWg m n r = (g.runOp p m).1.accAt t n)) ∧
    (quiet → ∃ h : Workgroup, CompletesWith (.mxwr f) s {} (put h) ∧
      (∀ l ∈ s.trueLanes f, (∀ j ∈ s.trueLanes f, l < j → at_ j ≠ at_ l) →
        elem h f.d.toNat (at_ l) = s.curW.reg f.a.toNat l) ∧
      (∀ t n, (t ≠ f.d.toNat ∨ ∀ l ∈ s.trueLanes f, at_ l ≠ n) → elem h t n = elem s.curG t n) ∧
      (∀ t n, (2 ≤ sel → h.accAt t n = s.curG.accAt t n) ∧ (sel ≠ 2 → h.mxAt t n = s.curG.mxAt t n) ∧
        (sel ≠ 3 → h.smAt t n = s.curG.smAt t n))) ∧
    (∃ (h : Workgroup) (more : Nat → List (Nat × Nat × Word)) (n : Nat),
      CompletesWith (.mxwr f) s {} (fun u => { put h u with
        matOps := s.matOps.map fun q => { q with overlay := q.overlay ++ more q.id }, free := n }) ∧
      (∀ q, ∀ o ∈ more q, sel < 2 ∧ (∃ m ∈ s.opsOf s.curWg, m.id = q ∧ m.tile = some f.d.toNat) ∧
        ∃ l ∈ s.trueLanes f, (∀ j ∈ s.trueLanes f, l < j → at_ j ≠ at_ l) ∧ o = (f.d.toNat, at_ l, s.curW.reg f.a.toNat l)) ∧
      (∀ l ∈ s.trueLanes f, (∀ j ∈ s.trueLanes f, l < j → at_ j ≠ at_ l) →
        elem h f.d.toNat (at_ l) = s.curW.reg f.a.toNat l ∨
        (sel < 2 ∧ elem h f.d.toNat (at_ l) = elem s.curG f.d.toNat (at_ l) ∧
          ((∃ m ∈ s.opsOf s.curWg, m.tile = some f.d.toNat) ∨ ∃ x, s.curG.mixing = some x ∧ f.d.toNat ∈ x.tiles))) ∧
      (∀ t n, (t ≠ f.d.toNat ∨ ∀ l ∈ s.trueLanes f, at_ l ≠ n) → elem h t n = elem s.curG t n) ∧
      ∀ t n, (2 ≤ sel → h.accAt t n = s.curG.accAt t n) ∧ (sel ≠ 2 → h.mxAt t n = s.curG.mxAt t n) ∧
        (sel ≠ 3 → h.smAt t n = s.curG.smAt t n))

/-! ### Memory instructions -/

/-- The path of a lane's access, for the checks of a home package made at issue (R304; log 73): the one chosen for its line, if any. -/
def Sys2Proof.Machine.pathOf (s : State) (i : Instr) (va : Nat) : Option Nat :=
  some ((pathAt (s.linePaths i (s.trueLanes i.fields)).1 va).getD 4)

/-- What an access to memory adds to its group: a request's lanes, all in one 128-byte line. -/
structure Sys2Proof.Machine.Sent (s u : State) (i : Instr) (ls : List Nat) (va : Nat → Nat) (new : List Req) : Prop where
  own : ∀ r ∈ new, r.wg = s.curWg ∧ r.warp = s.curWarp ∧ r.core = s.curG.core ∧ r.insn = i ∧ r.pc = s.curPc ∧ r.fetch = false ∧
    r.group = s.tag ∧ r.hop2 = false ∧ r.handler = s.curW.handler
  phase : ∀ r ∈ new, r.phase = if (memOf i).space = 3 then .window else .translate
  lanes : ∀ l ∈ ls, ∃ r ∈ new, l ∈ r.lanes
  slots : ∀ r ∈ new, r.slots ≠ [] ∧ ∀ x ∈ r.slots, x.lane ∈ ls ∧ x.addr = va x.lane ∧ (x.x, x.y) = operandsOf i s.curW x.lane ∧
    x.did = [] ∧ ∀ f, i = .ldi f → x.addr2 = (pairC f s x.lane).toNat
  line : ∀ r ∈ new, ∀ q ∈ new, (r = q ↔ ∃ x ∈ r.slots, ∃ y ∈ q.slots, x.addr / 128 = y.addr / 128)
  room : ∀ r ∈ new, r.noEsc = u.noRoom i ls ∧ r.escBase = i.fields.escBase ∧ r.escCount = i.fields.escCount
  hampers : ∀ r ∈ new, r.hampers = r.hamperSizes.map fun _ =>
    if (memOf i).space = 3 ∧ s.targetWaits r = true then .base else .packet
  ids : new.map (·.id) = (List.range new.length).map (s.tag + ·)
  paths : ∀ r ∈ new, let p := pathAt (s.linePaths i ls).1 r.va
    r.path = p.getD 0 ∧ r.routed = p.isSome

/-- R95, R101, R151, R160, R190, R303, R304: `ld`, `st`, `ldi`, `atom`, `red` and `cas` in the translated and window spaces. When every
guard-true lane passes its checks, one request per 128-byte line is sent, the class counter rises by one, and the group goes on; the
lanes of an acquire, and of a checked access while the checker traps (the model's reading, log 36), wait for the reply. The requests to
other packages take the paths chosen at issue (log 73). With no guard true nothing happens. If some
lane fails a check nothing is sent, and all failing lanes trap together, with the lowest one's address: MISALIGN if some address (or
the data base of an `ldi`) is misaligned (that the data base is checked at issue, with TRAPVA the first hop's address, is the model's
reading, log 45), else the lowest failing lane's cause. -/
def Obligations.MemoryInstructionsSend : Prop :=
  ∀ (i : Instr) (f : Fields) (s : State), i ∈ [Instr.ld f, .st f, .ldi f, .atom f, .red f, .cas f] →
    let m := memOf i
    let ls := s.trueLanes f
    let va (l : Nat) : Nat := s.curW.address f m.space l
    let skewed (l : Nat) : Bool := decide (i = .ldi f) && (pairC f s l).toNat % (if f.mbit 2 then 8 else 4) != 0
    let check (l : Nat) : Option Failure := s.laneCheck s.curWg m (va l) (pathOf s i (va l))
    let bad := ls.filter fun l => skewed l || (check l).isSome
    let waits : Prop := m.scope ≠ 0 ∧ (m.acq = true ∨ s.checkMode (s.ctxNo s.curWg) = 0)
    let loads : Prop := i = .ld f ∨ i = .ldi f ∨ i = .atom f ∨ i = .cas f
    (ls = [] → Completes i s {}) ∧
    (ls ≠ [] → m.space ≠ 1 → (∀ l ∈ ls, check l = none ∧ skewed l = false) → Runs i s →
      ∃ u new, Sent s u i ls va new ∧
        exec i s = .next (
          let v : State := { u with reqs := s.reqs ++ new, tag := s.tag + new.length, paths := (s.linePaths i ls).2.paths }
          if u.noRoom i ls then v.count s.curWg s.curWarp 3 1 else v) ∧
        (loads → waits → Executed s u f
          { lane := fun l x => if l ∈ ls then { x with pc := (s.curW.lane l).pc, wait := some ⟨.reply s.tag, f.len⟩ } else x
            rest := fun w => { w with ldc := w.ldc + 1 } }) ∧
        (loads → ¬waits → Executed s u f { rest := fun w => { w with ldc := w.ldc + 1 } }) ∧
        (¬loads → waits → Executed s u f
          { lane := fun l x => if l ∈ ls then { x with pc := (s.curW.lane l).pc, wait := some ⟨.reply s.tag, f.len⟩ } else x
            rest := fun w => { w with stc := w.stc + 1 } }) ∧
        (¬loads → ¬waits → Executed s u f { rest := fun w => { w with stc := w.stc + 1 } })) ∧
    (canTrap s → Runs i s →
      let trapped (cause detail : Nat) : Prop := ∃ s' t, exec i s = .next t ∧
        Trapped s' t cause detail s.curPc (BitVec.ofNat 80 (va (bad.headD 0))) (maskOf bad) ∧ s'.wgs = (s.charge f).wgs ∧
        s'.reqs = s.reqs ∧ ((∀ l ∈ ls, va l % m.size ≠ 0) → s' = s.charge f)
      ((∃ l ∈ ls, va l % m.size ≠ 0 ∨ skewed l = true) → trapped 5 0) ∧
      ((∀ l ∈ ls, va l % m.size = 0 ∧ skewed l = false) → bad ≠ [] →
        ∃ x, check (bad.headD 0) = some x ∧ x.cause = 7 ∧ trapped 7 x.detail))

/-- R316: what an atomic of `w` bits leaves at its location. -/
def Sys2Proof.Machine.atomicNew (code w old b : Nat) : Nat :=
  let signed (v : Nat) : Int := if v % 2 ^ w < 2 ^ (w - 1) then (v % 2 ^ w : Nat) else (v % 2 ^ w : Nat) - 2 ^ w
  match code with
  | 0 => (old + b) % 2 ^ w
  | 1 => if signed old ≤ signed b then old else b
  | 2 => if signed b ≤ signed old then old else b
  | 3 => min old b
  | 4 => max old b
  | 5 => old &&& b
  | 6 => old ||| b
  | 7 => old ^^^ b
  | 8 => b
  | 9 => if b ≤ old then 0 else old + 1
  | 10 => if old = 0 ∨ b < old then b else old - 1
  | 16 => (addVal fp32 .rne (fp32.decode old) (fp32.decode b)).1
  | 17 => (fminCode fp32 false old b).1
  | 18 => (fminCode fp32 true old b).1
  | _ => (addVal fp64 .rne (fp64.decode old) (fp64.decode b)).1

/-- R67 to R69, R71, R305, R308 to R310, R316, R317: accesses to scratch are performed in the issuing step; one whose lanes need
several slots of a bank may instead, by the model's next choice (log 4), perform its first slot and leave the others for later. A
load gives each guard-true lane the value at its address, as its thread sees it (R162); of the lanes of one store that write a
byte, the highest one's remains; an atomic of one lane gives the newest value and leaves the new one. What the model notes of
writes that not every thread sees (logs 69, 85) may change. An access beyond the declared scratch is a precise PROT. R72 to R75,
R94, R190, R314: `ldfe` of a full word takes its value and empties it, and its thread waits for the reply (as for any acquire,
R151); of an empty word it waits in the waiter table. `stfe` of an empty word fills it at once; of a full word it waits. For one
guard-true lane at an aligned address of the declared scratch, with no request outstanding. Of several lanes each goes on or
waits. -/
def Obligations.ScratchAndFullEmptyWords : Prop :=
  (∀ (f : Fields) (s : State), (s.coreAt s.curG.core).storeBad = [] → s.trueLanes f ≠ [] →
    let ls := s.trueLanes f
    let at_ (l : Nat) : Nat := (pairA f s l + f.disp).toNat % 2 ^ 32
    let size (width : Nat) : Nat := if width = 0 then 4 else if width = 1 then 8 else if width = 2 then 16
      else if width = 3 ∨ width = 4 then 1 else 2
    let n := size (f.mod.toNat / 4)
    let end_ := (s.packet s.curWg).scratch
    let fits (n : Nat) : Prop := ∀ l ∈ ls, at_ l % n = 0 ∧ at_ l + n ≤ end_
    let oneSlot : Prop := ∀ l ∈ ls, ∀ j ∈ ls, at_ l / 16 % 32 = at_ j / 16 % 32 → at_ l / 512 = at_ j / 512
    let whole : Prop := oneSlot ∨ s.choices = []
    let words (n v : Nat) : Nat → Nat → Option Word := fun r l =>
      if l ∈ ls ∧ r ≠ 255 ∧ f.d.toNat ≤ r ∧ r < f.d.toNat + n then some (BitVec.ofNat 32 (v / 2 ^ (32 * (r - f.d.toNat)))) else none
    let put (sc : SMap Byte) (late : List Late) (chains : List Chain) (u : State) : State :=
      { u.updCurG fun g => { g with scratch := sc } with late, chains }
    let wide := f.mbit 2
    let w : Nat := if wide then 64 else 32
    let new := atomicNew f.c.toNat w
    (f.mod.toNat % 4 = 1 → fits n → whole → ∃ (v : Nat → Nat) (chains : List Chain), (s.chains = [] → chains = []) ∧
      CompletesWith (.ld f) s { reg := fun r l => words (if f.mod.toNat / 4 = 1 then 2 else if f.mod.toNat / 4 = 2 then 4 else 1) (v l) r l }
        (fun u => { u with chains }) ∧
      ∀ l, let x := if s.late = [] then s.curG.scratchRead (at_ l) n
            else s.scratchSeen s.curWg s.curG.core (s.curWg, s.curWarp) (at_ l) n
        v l = (if f.mod.toNat / 4 = 4 ∧ 2 ^ 7 ≤ x then x + (2 ^ 32 - 2 ^ 8)
          else if f.mod.toNat / 4 = 6 ∧ 2 ^ 15 ≤ x then x + (2 ^ 32 - 2 ^ 16) else x)) ∧
    (f.mod.toNat % 4 = 1 → fits n → whole → ∃ sc late chains, CompletesWith (.st f) s {} (put sc late chains) ∧
      (s.late = [] → late = []) ∧
      ∀ c, let writes (l : Nat) : Prop := l ∈ ls ∧ at_ l ≤ c ∧ c < at_ l + n
        ((∀ l, ¬writes l) → SMap.get 0 sc c = s.curG.scratchAt c) ∧
        ∀ l, writes l → (∀ j, l < j → ¬writes j) → SMap.get 0 sc c = BitVec.ofNat 8
          ((if f.mod.toNat / 4 = 1 ∨ f.mod.toNat / 4 = 2 then s.curW.reg (f.b.toNat + (c - at_ l) / 4) l
            else s.curW.srcB f l).toNat / 256 ^ ((c - at_ l) % 4))) ∧
    (f.mod.toNat % 4 = 1 → fits n → ¬oneSlot → s.choices.headD 0 ≠ 0 → ∀ i ∈ [Instr.ld f, .st f], Runs i s →
      ∃ t r, exec i s = .next t ∧ r ∈ t.reqs ∧ r.id = s.tag ∧ r.phase = .scratch ∧ r.slots ≠ [] ∧
        (∀ x ∈ r.slots, x.lane ∈ ls ∧ x.addr = at_ x.lane) ∧ t.curW.ldc + t.curW.stc = s.curW.ldc + s.curW.stc + 1) ∧
    (f.mod.toNat % 4 = 1 → (∀ l ∈ ls, at_ l % n = 0) → (∃ l ∈ ls, end_ < at_ l + n) →
      canTrap s → ∀ i ∈ [Instr.ld f, .st f], Runs i s → ∃ t, exec i s = .next t ∧
        let bad := ls.filter fun l => decide (end_ < at_ l + n)
        Trapped (s.charge f) t 7 8 s.curPc (BitVec.ofNat 80 (at_ (bad.headD 0))) (maskOf bad)) ∧
    (∀ l, f.mbit 3 = true → fits (w / 8) → ls = [l] →
      let old := s.curG.scratchRead (at_ l) (w / 8)
      let b : Nat := if wide then (pairB f s l).toNat else (s.curW.srcB f l).toNat
      let c : Nat := if wide then (pairC f s l).toNat else (s.curW.srcC f l).toNat
      let leaves (v : Nat) (sc : SMap Byte) : Prop :=
        (s.curG.scratchWrite (at_ l) (w / 8) v).scratch = sc
      (∃ sc late chains, CompletesWith (.atom f) s { reg := words (w / 32) old } (put sc late chains) ∧ leaves (new old b) sc) ∧
      (∃ sc late chains, CompletesWith (.red f) s {} (put sc late chains) ∧ leaves (new old b) sc) ∧
      (∃ sc late chains, CompletesWith (.cas f) s { reg := words (w / 32) old } (put sc late chains) ∧
        (if old = b then leaves c sc else sc = s.curG.scratch)))) ∧
  (∀ (f : Fields) (s : State),
    (s.trueLanes f = [] → Completes (.ldfe f) s {} ∧ Completes (.stfe f) s {}) ∧
    (∀ l, s.trueLanes f = [l] → s.reqs = [] → (s.coreAt s.curG.core).storeBad = [] →
      let a := (pairA f s l + f.disp).toNat % 2 ^ 32
      a % 4 = 0 → a + 4 ≤ (s.packet s.curWg).scratch →
      let full := SMap.get false s.curG.fe (a / 4)
      let waits : Effects :=
        { lane := fun j x => if j = l then { x with pc := (s.curW.lane l).pc, wait := some ⟨.word, f.len⟩ } else x }
      let takes (e : Effects) : Effects := { e with rest := fun w => { w with ldc := w.ldc + 1 } }
      let fills (e : Effects) : Effects := { e with rest := fun w => { w with stc := w.stc + 1 } }
      let one (i : Instr) (r : Req) : Prop := r.insn = i ∧ r.wg = s.curWg ∧ r.warp = s.curWarp ∧ r.lanes = [l] ∧ r.va = a
      (Runs (.ldfe f) s → ∃ u r late chains, (s.late = [] → late = []) ∧ one (.ldfe f) r ∧ Executed s u f (takes waits) ∧
        let sent (v : State) : State := if u.noRoom (.ldfe f) [l] then v.count s.curWg s.curWarp 3 1 else v
        (full = true → r.phase = .performed ∧ r.slots.map (·.reply) = [s.curG.scratchRead a 4] ∧
          exec (.ldfe f) s = .next (sent ({ u with reqs := [r], tag := s.tag + 1, late, chains }.updCurG
            fun g => { g with fe := SMap.set false g.fe (a / 4) false }))) ∧
        (full = false → r.phase = .waiter ∧
          exec (.ldfe f) s = .next (sent { u with reqs := [r], tag := s.tag + 1, seq := s.seq + 1 }))) ∧
      (full = false → ∃ late chains, (s.late = [] → late = []) ∧ CompletesWith (.stfe f) s {} fun u =>
        { u with tag := s.tag + 1, late, chains }.updCurG fun g =>
          { g.scratchWrite a 4 (s.curW.srcB f l).toNat with fe := SMap.set false g.fe (a / 4) true }) ∧
      (full = true → ∃ r, one (.stfe f) r ∧ r.phase = .waiter ∧
        CompletesWith (.stfe f) s (fills waits) fun u => { u with reqs := [r], tag := s.tag + 1, seq := s.seq + 1 })) ∧
    ((∀ l ∈ s.trueLanes f, s.laneCheck s.curWg (memOf (.ldfe f)) (s.curW.address f 1 l) none = none) →
      ∀ i ∈ [Instr.ldfe f, .stfe f], Runs i s → ∃ t, exec i s = .next t ∧ t.mem = s.mem ∧ (∀ k, k ≠ s.curWg → t.wg k = s.wg k) ∧
        (∀ l ∈ s.group, ((t.curW.lane l).pc = (s.curW.lane l).pc + BitVec.ofNat 64 f.len ∨
          (t.curW.lane l).wait = some ⟨.word, f.len⟩ ∧ l ∈ s.trueLanes f))))

/-- R82, R84, R149, R151 to R154, R163, R318 to R321: a fence lets each guard-true thread go on whose earlier accesses it covers are done,
and the others wait for theirs: `fence` for every access to be performed, and visible at its scope; `fence.ack` for every store of its own to be
performed and seen by all; `fence.opr` for every register to be written and every store that a matrix engine of the core could read to
be performed. A `fence` wider than the core that a thread passes empties the core's L1. `cctl.invall` empties it,
and `cctl.inv1`, `cctl.dem` and `pref` act on
the line of a present page, each guard-true lane's in turn: memory and the TLBs change only as the lanes' translations leave them (R40), and
the L1 and the LLC as the instruction says; a line whose translation the connection matrix refuses is entered in the audit log (R32). -/
def Obligations.FencesAndCacheControl : Prop :=
  ∀ (f : Fields) (s : State),
    let ls := s.trueLanes f
    let core := s.curG.core
    let mine (l : Nat) (r : Req) : Prop :=
      r ∈ s.reqs ∧ r.wg = s.curWg ∧ r.warp = s.curWarp ∧ r.fetch = false ∧ r.group < s.tag ∧ l ∈ r.lanes
    let who := (s.curWg, s.curWarp)
    let did (l : Nat) (r : Req) : Prop := ∀ x ∈ r.slots, x.lane = l → r.didSlot x = true
    let performed (l : Nat) : Prop := (∀ r, mine l r → did l r) ∧ s.shownAt core who l s.tag f.scope.toNat = true
    let stored (l : Nat) : Prop := (∀ r, mine l r → did l r ∨ ∀ g, r.insn ∉ [Instr.st g, .red g, .atom g, .cas g]) ∧
      ∀ x ∈ s.late, x.madeBy who l s.tag = false
    let loaded (l : Nat) : Prop := (∀ r, mine l r → destsOf r.insn = [] ∧ s.engineStore r core = false) ∧
      ∀ x ∈ s.sfus, ¬(x.wg = s.curWg ∧ x.warp = s.curWarp ∧ l ∈ x.lanes)
    let fence (kind : Nat) (done : Nat → Prop) (e : Effects) : Prop :=
      ∀ l x, e.lane l x = x ∧ (l ∉ ls ∨ done l) ∨
        e.lane l x = { x with pc := (s.curW.lane l).pc, wait := some ⟨.tags s.tag kind, f.len⟩ } ∧ l ∈ ls ∧ ¬done l
    let clear (u : State) : State := u.updCore core fun c => { c with l1 := [] }
    let only (e : Effects) : Prop := e.reg = ({} : Effects).reg ∧ e.uni = ({} : Effects).uni ∧ e.flags = 0 ∧ e.rest = ({} : Effects).rest
    (∃ e, only e ∧ fence f.scope.toNat performed e ∧ 
      ((∃ l ∈ ls, performed l) → 2 ≤ f.scope.toNat → CompletesWith (.fence f) s e clear) ∧
      (¬((∃ l ∈ ls, performed l) ∧ 2 ≤ f.scope.toNat) → Completes (.fence f) s e)) ∧
    (∃ e, only e ∧ fence 16 stored e ∧ Completes (.fenceAck f) s e) ∧
    (∃ e, only e ∧ fence 17 loaded e ∧ Completes (.fenceOpr f) s e) ∧
    (ls = [] → ∀ i ∈ [Instr.cctlInvall f, .cctlInv1 f, .cctlDem f, .pref f], Completes i s {}) ∧
    (ls ≠ [] → CompletesWith (.cctlInvall f) s {} clear) ∧
    (∀ i ∈ [Instr.cctlInv1 f, .cctlDem f, .pref f], Runs i s → ∃ t, exec i s = .next t ∧
      Executed s { t with cores := s.cores, quads := s.quads, llc := s.llc, mem := s.mem, late := s.late, former := s.former
                          cregs := s.cregs, audit := s.audit, auditSigned := s.auditSigned, choices := s.choices } f {} ∧
      (∃ u : Nat → State, u 0 = s.charge f ∧ t = { u ls.length with wgs := t.wgs } ∧ ∀ q l, ls[q]? = some l →
        let y := ((u q).translate core (s.ctxNo s.curWg) (s.curW.address f 0 l) .read false).1
        let v := u (q + 1)
        v = { y with cores := v.cores, llc := v.llc, cregs := v.cregs, audit := v.audit, auditSigned := v.auditSigned } ∧
        ∀ c, v.coreAt c = if c = core then { y.coreAt c with l1 := (v.coreAt c).l1 } else y.coreAt c) ∧
      s.audit <+: t.audit ∧ (t.audit = s.audit → t.cregs = s.cregs ∧ t.auditSigned = s.auditSigned) ∧
      ∀ a, a < audHead ∨ audHead + 48 ≤ a → t.creg a = s.creg a) ∧
    (∀ l g cpol, ls = [l] →
      (let y := s.translate core (s.ctxNo s.curWg) (s.curW.address f 0 l) .read false
       y.1.homeTr y.2.1 y.2.2 4 = .ok g cpol) →
      (Runs (.cctlInv1 f) s → ∃ t, exec (.cctlInv1 f) s = .next t ∧ (t.coreAt core).l1 =
        (s.coreAt core).l1.filter fun p => p != s.lineOf g) ∧
      (Runs (.pref f) s → (s.homeDie g).isSome = true → cpol = 0 → f.mbit 2 = false → f.ch.toNat < 3 →
        (∀ n ∈ granules (s.lineOf g) 128, n ∉ s.badMem) → ∃ t, exec (.pref f) s = .next t ∧
          s.lineOf g ∈ (t.coreAt core).l1 ∧ ∃ x, t.llcLine g (t.ctxPart (t.ctxNo s.curWg)) = some x))

/-! ### Requests in flight -/

/-- R40, R49 to R52, R57, R103: TRANSLATED_ACCESS of a request that is first to its page: a page that is not present parks it, with its
page and level, in the replay pool, or in the miss queue where the pool is full or older requests wait for it; a failing check ends it,
and its instruction with it while nothing of that has been performed (R304), with a PROT of its lanes, to be taken when it reaches the warp; otherwise it goes to its home, or is answered by the core's L1. A
fetch that succeeds ends its threads' wait for it. When the pool has room, the oldest request of the miss queue enters it. -/
def Obligations.RequestsAreTranslated : Prop :=
  ∀ (s : State) (r : Req), s.reqs.find? (fun q => q.id == r.id) = some r →
    let ctx := s.ctxNo r.wg
    let tr := if r.hop2 then s.translateHop r.core ctx r.va r.access
      else s.translate r.core ctx r.va r.access (!r.fetch && r.mi.atomic)
    let stands (t : State) (p : Req → Prop) : Prop := ∃ q ∈ t.reqs, q.id = r.id ∧ q.insn = r.insn ∧ q.lanes = r.lanes ∧ p q
    let quad := quadOf r.core
    let parkedAs : Phase := if s.poolShut quad then .miss else .parked
    let fetches (w : Option Wait) : Prop := ∃ n, w = some ⟨.fetch, n⟩
    (s.mayTranslate r = true → s.pageHeld r.core ctx (r.va / 2 ^ 18) = none →
      (∀ level, tr.2.1 = .absent level → ∃ t, exec (.translatedAccess r.id) s = .next t ∧
        stands t fun q => q.phase = parkedAs ∧ q.page = r.va / 2 ^ 18 ∧ q.level = level) ∧
      (∀ d, tr.2.1 = .prot d → ∃ t, exec (.translatedAccess r.id) s = .next t ∧ (∀ q ∈ t.reqs, q.id ≠ r.id) ∧
        ((s.wg r.wg).status = .resident → ∃ x ∈ (t.warp r.wg r.warp).pendTraps, x.cause = 7 ∧ x.pc = r.pc ∧
          ∀ l ∈ r.lanes, l < 64 → x.mask.getLsbD l = true)) ∧
      (∀ g cpol, tr.2.1 = .ok g cpol → ∃ t, exec (.translatedAccess r.id) s = .next t ∧
        (r.fetch = false → stands t fun q => (q.phase = .home ∨ q.phase = .performed) ∧ q.pa = g - g % 128 ∧ q.cpol = cpol) ∧
        (r.fetch = true → r.lanes.Nodup → (∀ q ∈ t.reqs, q.id ≠ r.id) ∧ ∀ l ∈ r.lanes,
          let x := s.lane r.wg r.warp l
          (fetches x.wait → t.lane r.wg r.warp l = { x with wait := none }) ∧
          (¬fetches x.wait → fetches x.frozenWait → t.lane r.wg r.warp l = { x with frozenWait := none })))) ∧
    (s.mayTranslate r = true → ∀ level, s.pageHeld r.core ctx (r.va / 2 ^ 18) = some level →
      ∃ t, exec (.translatedAccess r.id) s = .next t ∧ stands t fun q => q.phase = parkedAs) ∧
    (r.phase = .miss → s.poolUse quad < 1024 →
      (∀ q ∈ s.reqs, q.phase = .miss → quadOf q.core = quad → r.order ≤ q.order) →
      (∀ x ∈ s.xfers, x.phase = .miss → quadOf (s.xferCore x) = quad → r.order ≤ x.order) →
      (∀ o ∈ s.occs, o.2.parked = some .miss → quadOf o.2.core = quad → r.order ≤ o.2.order) →
      ∃ t, exec (.missQueueToPool r.id) s = .next t ∧ stands t fun q => q.phase = .parked)

/-- R109, R114, R141, R146, R305, R306, R310, R313, R316, R317: an access that its home performs, for a request of one lane, the only one
of its instruction still to be performed. Where no data has an error: a load takes the bytes at its address as its core sees them, and the newest ones where the home alone answers it; a store
writes its bytes and no other, an atomic takes the old value and leaves the new one. An `ldi`'s index hop sends the element's request. A
remote store is counted in DONE. A request that the home package's checks refuse ends with nothing performed. A load or an
atomic one of whose granules of 8 bytes holds an uncorrectable error changes no memory, its lane is marked as bad, and its line is retired
(a row counts as a line: the model's reading, log 44); `RepliesAndAcknowledgements` says what that lane then has. -/
def Obligations.HomesPerformAccesses : Prop :=
  ∀ (s : State) (r : Req) (x : Slot), s.reqs.find? (fun q => q.id == r.id) = some r → r.slots = [x] → r.phase = .home →
    r.fetch = false → r.sync = false → r.mi.ord = false → s.turn r = true → x.did = [] → x.reply = 0 → x.bad = false →
    r.arrived = false → s.mates r = [r] →
    let a := s.canon (r.pa + x.addr % 128)
    let event : Instr := if r.pa / 2 ^ 52 ≠ s.pkg ∧ r.stores = true then .remoteStorePerformed r.id else .homeSliceRequest r.id
    let reads (n : Nat) : Nat :=
      if s.late = [] ∨ r.mi.scope ≠ 0 ∨ r.insn.fields.ch = 3 ∨ r.cpol = 2 then s.mem.read a n else bytesVal (s.bytesFor r.core a n)
    let performs (mem : Memory) (reply : Option Nat) : Prop := ∃ t, exec event s = .next t ∧ t.mem = mem ∧
      (∃ q ∈ t.reqs, q.id = r.id ∧ q.phase = .performed ∧
        ∀ v, reply = some v → ∃ y, q.slots = [y] ∧ y.lane = x.lane ∧ y.reply = v ∧ y.esc = x.esc ∧ y.bad = false) ∧
      (∀ k w, (t.warp k w).regs = (s.warp k w).regs ∧ (t.warp k w).lanes = (s.warp k w).lanes) ∧
      ∀ key, SMap.get 0 t.done key = SMap.get 0 s.done key +
        (if r.pa / 2 ^ 52 ≠ s.pkg ∧ r.stores = true ∧ key = pathKey r.core (r.pa / 2 ^ 52) r.path then 1 else 0)
    (∀ d, s.homeChecks r.pa r.leaf r.path = some d → ∃ t, exec event s = .next t ∧ t.mem = s.mem ∧ (∀ q ∈ t.reqs, q.id ≠ r.id) ∧
      ((s.wg r.wg).status = .resident → ∃ y ∈ (t.warp r.wg r.warp).pendTraps, y.cause = 7 ∧ y.pc = r.pc ∧
        (x.lane < 64 → y.mask.getLsbD x.lane = true))) ∧
    let bad : Prop := ∃ u ∈ s.badMem, a / 8 ≤ u ∧ u ≤ (a + r.size - 1) / 8
    (s.homeChecks r.pa r.leaf r.path = none → r.pieces.length = 1 → bad →
      (∃ f, r.insn = .ld f ∨ r.insn = .atom f ∨ r.insn = .red f ∨ r.insn = .cas f ∨ (r.insn = .ldi f ∧ r.hop2 = true)) →
      ∃ t, exec event s = .next t ∧ t.mem = s.mem ∧ (∀ k w, (t.warp k w).regs = (s.warp k w).regs) ∧
        ((r.pa + x.addr % 128) / 2 ^ 52 = s.pkg → a / 128 * 128 ∈ t.retired) ∧
        ∃ q ∈ t.reqs, ∃ y, q.id = r.id ∧ q.phase = .performed ∧ q.slots = [y] ∧ y.lane = x.lane ∧ y.esc = x.esc ∧ y.bad = true) ∧
    (s.homeChecks r.pa r.leaf r.path = none → s.badMem = [] →
      (r.pieces.length = 1 →
        (∀ f, r.insn = .ld f → performs s.mem (some (reads (memOf r.insn).size))) ∧
        (∀ f, r.insn = .st f → performs (s.mem.write a (memOf r.insn).size (x.x + x.y * 2 ^ 64)) none)) ∧
      (∀ f, r.insn = .atom f → let n := if f.mbit 2 then 8 else 4
        performs (s.mem.write a n (atomicNew f.c.toNat (8 * n) (s.mem.read a n) x.x)) (some (s.mem.read a n))) ∧
      (∀ f, r.insn = .red f → let n := if f.mbit 2 then 8 else 4
        performs (s.mem.write a n (atomicNew f.c.toNat (8 * n) (s.mem.read a n) x.x)) none) ∧
      (∀ f, r.insn = .cas f → let n := if f.mbit 2 then 8 else 4
        (s.mem.read a n = x.y → performs (s.mem.write a n x.x) (some x.y)) ∧
        (s.mem.read a n ≠ x.y → performs s.mem (some (s.mem.read a n)))) ∧
      (∀ f, r.insn = .ldi f → r.hop2 = true → performs s.mem (some (reads (if f.mbit 2 then 8 else 4)))) ∧
      (∀ f, r.insn = .ldi f → r.hop2 = false → ∃ t, exec event s = .next t ∧ t.mem = s.mem ∧
        ∃ q ∈ t.reqs, ∃ y, q.id = s.tag ∧ q.slots = [y] ∧ q.hop2 = true ∧ q.phase = .translate ∧ q.group = r.group ∧ y.lane = x.lane ∧
          let index := BitVec.ofNat 32 (reads 4)
          let off : DWord := if f.mbit 3 then index.signExtend 64 else index.setWidth 64
          y.addr = x.addr / 2 ^ 64 * 2 ^ 64 + (BitVec.ofNat 64 x.addr2 + off * (if f.mbit 2 then 8 else 4)).toNat))

/-- R94, R103, R108, R190, R304, R306, R309, R313, R317: a reply writes the lane's destination and its escort together; a lane that read an
uncorrectable error has its escort written back, its destination unwritten, and takes DATA_ERR at its instruction, with the address in
TRAPVA. LDC falls when the instruction's last request ends, those recorded for an image among them; an acknowledgement lowers STC. An
answer of L1 waits until the other requests of the load have passed the checks where they arrive. For a workgroup that is no longer
resident nothing is written. -/
def Obligations.RepliesAndAcknowledgements : Prop :=
  ∀ (s : State) (r : Req) (x : Slot), s.reqs.find? (fun q => q.id == r.id) = some r → r.slots = [x] → r.fetch = false →
    r.phase = .performed → (r.noEsc = true ∨ x.esc.length = r.escCount) →
    let last : Prop := (∀ q ∈ s.reqs, q.id ≠ r.id → q.fetch = false → q.group ≠ r.group) ∧
      ∀ q ∈ (s.wg r.wg).recReqs, q.fetch = false → q.group ≠ r.group
    let due : Prop := r.fromL1 = true → ∀ q ∈ s.reqs, q.group = r.group → q.fetch = false → q.phase ≠ .performed → q.fromL1 = false →
      q.arrived = true ∨ q.phase = .parked ∨ q.phase = .miss
    let v := loadValue r.insn x.reply
    let words := destsOf r.insn
    let ends (t : State) : Prop := t.reqs = s.reqs.filter (fun q => q.id != r.id) ∧ t.mem = s.mem ∧
      (∀ k, k ≠ r.wg → t.wg k = s.wg k) ∧ (∀ w, w ≠ r.warp → t.warp r.wg w = s.warp r.wg w) ∧
      (t.warp r.wg r.warp).lanes = (s.warp r.wg r.warp).lanes ∧ (t.warp r.wg r.warp).fstat = (s.warp r.wg r.warp).fstat ∧
      (x.bad = true → (s.wg r.wg).status = .resident → ∃ y ∈ (t.warp r.wg r.warp).pendTraps, y.cause = 9 ∧ y.pc = r.pc ∧
        (x.lane < 64 → y.mask.getLsbD x.lane = true) ∧
        ((s.warp r.wg r.warp).pendTraps = [] → y.va = BitVec.ofNat 80 x.addr ∧ y.mask = maskOf [x.lane])) ∧
      (x.bad = false ∨ (s.wg r.wg).status ≠ .resident → (t.warp r.wg r.warp).pendTraps = (s.warp r.wg r.warp).pendTraps)
    (counterOf r.insn = .ldc → ¬due → exec (.loadReply r.id) s = .refused (.notEnabled "LOAD_REPLY")) ∧
    (counterOf r.insn = .ldc → due → ∃ t, exec (.loadReply r.id) s = .next t ∧ ends t ∧
      (¬last → (t.warp r.wg r.warp).ldc = (s.warp r.wg r.warp).ldc) ∧
      (last → (t.warp r.wg r.warp).ldc = (s.warp r.wg r.warp).ldc - 1) ∧
      ((s.wg r.wg).status ≠ .resident → ∀ h n l, (t.warp r.wg r.warp).regIn h n l = (s.warp r.wg r.warp).regIn h n l) ∧
      ((s.wg r.wg).status = .resident →
        (∀ h n l, (l ≠ x.lane ∨ ((n ∉ words ∨ x.bad = true) ∧ n ∉ r.escorted)) →
          (t.warp r.wg r.warp).regIn h n l = (s.warp r.wg r.warp).regIn h n l) ∧
        (x.bad = false → ∀ j, j < words.length → words.getD j 0 ≠ 255 → words.getD j 0 ∉ r.escorted →
          (t.warp r.wg r.warp).regIn r.handler (words.getD j 0) x.lane = BitVec.ofNat 32 (v / 2 ^ (32 * j))) ∧
        (r.noEsc = false → r.escBase + r.escCount ≤ 248 → ∀ j, j < r.escCount →
          (t.warp r.wg r.warp).regIn false (r.escBase + j) x.lane = x.esc.getD j 0))) ∧
    (counterOf r.insn = .stc → ∃ t, exec (.storeAck r.id) s = .next t ∧ ends t ∧
      (∀ h n l, (t.warp r.wg r.warp).regIn h n l = (s.warp r.wg r.warp).regIn h n l) ∧
      (¬last → (t.warp r.wg r.warp).stc = (s.warp r.wg r.warp).stc) ∧
      (last → (t.warp r.wg r.warp).stc = (s.warp r.wg r.warp).stc - 1))

/-- R114 to R117, R158 to R160: a synchronising request is performed at its home and leaves its scope and core in the line's record; a
failing check in trap mode performs nothing of the instruction and gives its lanes SCOPE (a flag is checked when it is held, before what
it orders is performed: the model's reading, log 36). While another core's access has passed the checker on the line and is not performed, this one
waits. A `st.ord` is held at its destination (sent again when 256 are
held there), and is performed once every store that it orders is: DONE has reached the SENT values it carries on all four paths, the
earlier-issued stores of its core that may go to its package are performed, and so are the later-issued ones that were injected before
it. -/
def Obligations.SynchronisingRequests : Prop :=
  ∀ (s : State) (r : Req), s.reqs.find? (fun q => q.id == r.id) = some r → r.fetch = false → r.mi.scope ≠ 0 →
    s.homeChecks r.pa r.leaf r.path = none → r.slots ≠ [] → (∀ x ∈ r.slots, x.did = []) →
    s.reqs.filter (fun q => q.group == r.group) = [r] → r.arrived = false → r.checked = false →
    let busy : Prop := ∃ q ∈ s.reqs, q.checked = true ∧ q.group ≠ r.group ∧ q.core ≠ r.core ∧ (q.phase = .home ∨ q.phase = .held) ∧
      (s.homeDie q.pa).isSome = true ∧ q.cpol ≠ 2 ∧ s.lineOf q.pa = s.lineOf r.pa
    let part := s.reqPart r
    let line (t : State) : Option Line :=
      (SMap.get [] t.llc (s.llcKey r.pa part) : List Line).find? fun l => l.addr == s.lineOf r.pa
    let kept : Prop := (s.homeDie r.pa).isSome = true ∧ r.cpol ≠ 2
    let mode := (s.ctx (s.ctxNo r.wg)).scopechk.toNat % 4
    let trapMode : Prop := mode = 0 ∨ mode = 3
    let traps : Prop := trapMode ∧ s.scopeFails r = true
    let performed (t : State) : Prop := (∃ q ∈ t.reqs, q.id = r.id ∧ q.phase = .performed) ∧
      (kept → ∀ l, line t = some l → l.record = some (r.mi.scope, s.pkg * 4096 + r.core)) ∧
      (∀ f x, r.insn = .st f → r.slots = [x] → r.pieces.length = 1 → s.badMem = [] →
        t.mem = s.mem.write (s.canon (r.pa + x.addr % 128)) (memOf r.insn).size (x.x + x.y * 2 ^ 64))
    let refused (t : State) : Prop := t.mem = s.mem ∧ (∀ q ∈ t.reqs, q.id ≠ r.id) ∧ ((s.wg r.wg).status = .resident →
      ∃ x ∈ (t.warp r.wg r.warp).pendTraps, x.cause = 8 ∧ x.pc = r.pc ∧ ∀ l ∈ r.lanes, l < 64 → x.mask.getLsbD l = true)
    let atOnce : Prop := s.choices = [] ∨ (r.slots.length = 1 ∧ r.pieces.length = 1)
    let away : Prop := r.pa / 2 ^ 52 ≠ s.pkg
    let orders (q : Req) : Prop := q.core = r.core ∧ q.stores = true ∧ q.mi.ord = false ∧ q.phase ≠ .performed ∧
      (q.id ∈ r.behind ∨ (q.group < r.group ∧ q.space ≠ 1 ∧ q.space ≠ 3 ∧ (q.phase = .home → q.pa / 2 ^ 52 = r.pa / 2 ^ 52)))
    (r.phase = .home → r.mi.ord = false → s.turn r = true →
      let e : Instr := if away ∧ r.stores = true then .remoteStorePerformed r.id else .homeSliceRequest r.id
      (busy → exec e s = .refused (.notEnabled (if away ∧ r.stores = true then "REMOTE_STORE_PERFORMED" else "HOME_SLICE_REQUEST"))) ∧
      (¬busy → ¬traps → atOnce → ∃ t, exec e s = .next t ∧ performed t) ∧
      (¬busy → traps → ∃ t, exec e s = .next t ∧ refused t)) ∧
    (r.phase = .home → r.mi.ord = true →
      let heldThere := (s.reqs.filter fun q => q.phase == .held && q.pa / 2 ^ 52 == r.pa / 2 ^ 52).length
      (heldThere < 256 → ∃ t, exec (.orderedFlagArrival r.id) s = .next t ∧ t = { s with reqs := t.reqs } ∧
        ∃ q ∈ t.reqs, q = { r with phase := .held, arrived := true }) ∧
      (256 ≤ heldThere → exec (.orderedFlagArrival r.id) s = .next s)) ∧
    (r.phase = .held → r.mi.ord = true → busy →
      exec (.orderedFlagPerform r.id) s = .refused (.notEnabled "ORDERED_FLAG_PERFORM")) ∧
    (r.phase = .held → r.mi.ord = true → ¬busy →
      (¬traps → (∃ q ∈ s.reqs, orders q) → exec (.orderedFlagPerform r.id) s = .refused (.notEnabled "ORDERED_FLAG_PERFORM")) ∧
      (¬traps → (∀ q ∈ s.reqs, ¬orders q) → s.turn r = true → s.flagShown r = true →
        (away → ∀ n, n < 4 → (SMap.get 0 s.done (pathKey r.core (r.pa / 2 ^ 52) n) - r.sentAt.getD n 0).toNat < 2 ^ 31) →
        atOnce → ∃ t, exec (.orderedFlagPerform r.id) s = .next t ∧ performed t) ∧
      (traps → s.turn r = true → ∃ t, exec (.orderedFlagPerform r.id) s = .next t ∧ refused t))

/-- R22, R25 to R28, R73, R74, R96, R99, R104, R105, R108, R307: what else may happen to a request of one lane. A window access reads or
writes the target's object, or ends with PROT where the target has exited or was discarded. A lane of the overflow queue steps when
the waiter table has room. An error in a resting hamper zeroes the destination and escort registers, gives DATA_ERR and retires the
row (that a request that has not performed is removed too is the model's choice, log 71; that a whole bank counts as the row is its
reading, log 44). A recall moves the request to the workgroup's records, but one whose lane has read an uncorrectable error
takes DATA_ERR there, with its escort back, and is not recorded (that it is then is the model's reading, log 90); the end of its launch
drops it. -/
def Obligations.RequestsElsewhere : Prop :=
  ∀ (s : State) (r : Req) (x : Slot), s.reqs.find? (fun q => q.id == r.id) = some r → r.slots = [x] → r.fetch = false →
    let target := keyLaunch r.wg * 2 ^ 32 + x.addr / 2 ^ 32 % 2 ^ 32
    let g := s.wg target
    let kind := x.addr / 2 ^ 28 % 16
    let off := x.addr % 2 ^ 28
    let size := r.size
    let gone (t : State) : Prop := ∀ q ∈ t.reqs, q.id ≠ r.id
    let trapped (t : State) (cause : Nat) : Prop := (s.wg r.wg).status = .resident →
      ∃ y ∈ (t.warp r.wg r.warp).pendTraps, y.cause = cause ∧ (x.lane < 64 → y.mask.getLsbD x.lane = true)
    (r.phase = .window → x.did = [] → r.pa = 0 → r.arrived = false →
      (g.status = .exited ∨ g.status = .discarded → ∃ t, exec (.windowAccess r.id) s = .next t ∧ gone t ∧ trapped t 7) ∧
      (g.status = .resident → (∀ q ∈ s.winArrivals r, s.winFate q = none) → (∀ u ∈ s.late, u.owed = none) → s.winSlotFree r target x = true →
        s.opsOf target = [] → g.mixing = none → (kind = 3 → off + size ≤ 8192) → (s.coreAt g.core).storeBad = [] →
        (∀ f, r.insn = .ld f → ∃ t y, exec (.windowAccess r.id) s = .next t ∧ t = { s with reqs := t.reqs, chains := t.chains } ∧
          (∃ q ∈ t.reqs, q.id = r.id ∧ q.phase = .performed ∧ q.slots = [y]) ∧ y.lane = x.lane ∧ y.esc = x.esc ∧
          y.reply = if kind = 1 then (if s.late = [] then g.scratchRead off size
            else s.scratchSeen target r.core (r.wg, r.warp) off size) else g.objRead kind off (size / 4)) ∧
        (∀ f, r.insn = .st f → ∃ t, exec (.windowAccess r.id) s = .next t ∧
          t = { s with reqs := t.reqs, wgs := t.wgs, late := t.late, chains := t.chains } ∧ (kind ≠ 1 ∨ s.late = [] → t.late = s.late) ∧
          t.wg target = (if kind = 1 then g.scratchWrite off size (x.x + x.y * 2 ^ 64)
            else g.objWrite kind off (x.x + x.y * 2 ^ 64) (size / 4)) ∧ (∀ k, k ≠ target → t.wg k = s.wg k) ∧
          ∃ q ∈ t.reqs, q.id = r.id ∧ q.phase = .performed))) ∧
    (r.phase = .overflow → (s.reqs.filter fun q => q.phase == .waiter && q.core == r.core).length < 256 →
      (∀ q ∈ s.reqs, q.phase = .overflow → q.core = r.core → r.order ≤ q.order) → (∀ q ∈ s.reqs, q.phase ≠ .waiter) →
      (s.coreAt (s.wg r.wg).core).storeBad = [] →
      let full := SMap.get false (s.wg r.wg).fe (x.addr / 4)
      (∀ f, r.insn = .ldfe f → ∃ t, exec (.waiterOverflowStep r.id) s = .next t ∧
        (full = true → SMap.get false (t.wg r.wg).fe (x.addr / 4) = false ∧ ∃ q ∈ t.reqs, q.id = r.id ∧ q.phase = .performed ∧
          q.slots = [{ x with reply := (s.wg r.wg).scratchRead x.addr 4, bad := false }]) ∧
        (full = false → ∃ q ∈ t.reqs, q.id = r.id ∧ q.phase = .waiter)) ∧
      (∀ f, r.insn = .stfe f → ∃ t, exec (.waiterOverflowStep r.id) s = .next t ∧
        (full = false → SMap.get false (t.wg r.wg).fe (x.addr / 4) = true ∧ gone t ∧
          (t.wg r.wg).scratchRead x.addr 4 = x.x % 2 ^ 32) ∧
        (full = true → ∃ q ∈ t.reqs, q.id = r.id ∧ q.phase = .waiter))) ∧
    (r.noEsc = false → 0 < r.escCount →
      let struck (row : Row) (t : State) : Prop := gone t ∧ row ∈ t.rows ∧
        (∃ y ∈ (t.warp r.wg r.warp).pendTraps, y.cause = 9 ∧ y.pc = (s.lane r.wg r.warp x.lane).pc ∧
          (x.lane < 64 → y.mask.getLsbD x.lane = true)) ∧
        (∀ n ∈ destsOf r.insn, (t.warp r.wg r.warp).regIn r.handler n x.lane = 0) ∧
        (∀ j, j < r.escCount → (t.warp r.wg r.warp).regIn false (r.escBase + j) x.lane = 0)
      (∀ die bank, r.hampers = [.rest die bank] →
        ∃ t, exec (.hamperEccError r.id) s = .next t ∧ struck (.restStop die bank) t ∧ t.cores = s.cores) ∧
      (r.hampers = [.base] → ∃ t, exec (.hamperEccError r.id) s = .next t ∧ struck (.baseCamp r.core) t ∧
        s.ptimeNs.toNat ∈ (t.coreAt r.core).errorTimes) ∧
      (r.hampers = [.packet] ∨ r.hampers = [.table] →
        exec (.hamperEccError r.id) s = .refused (.notEnabled "HAMPER_ECC_ERROR"))) ∧
    (s.saving r.wg = true → s.allStopped r.wg = true → r.recordable = true → s.recordTurn r = true →
      ∃ t, exec (.recall r.id) s = .next t ∧ gone t ∧ t.mem = s.mem ∧
        (r.phase ≠ .performed ∨ x.bad = false → (t.wg r.wg).recs = (s.wg r.wg).recs ++ [.inl r]) ∧
        (r.phase = .performed → x.bad = true → (t.wg r.wg).recs = (s.wg r.wg).recs ∧
          (∃ y ∈ (t.warp r.wg r.warp).pendTraps, y.cause = 9 ∧ y.pc = r.pc ∧ (x.lane < 64 → y.mask.getLsbD x.lane = true)) ∧
          (s.takes r = true → r.noEsc = false → x.esc.length = r.escCount → r.escBase + r.escCount ≤ 248 → ∀ j, j < r.escCount →
            (t.warp r.wg r.warp).regIn false (r.escBase + j) x.lane = x.esc.getD j 0))) ∧
    ((s.wg r.wg).status = .ending → ∃ t, exec (.contextEnd r.id) s = .next t ∧
      t = { s with reqs := s.reqs.filter fun q => q.id != r.id })

/-! ### Copies -/

/-- R118 to R124, R190, R322 to R326: a copy whose lanes pass their checks is accepted: every lane receives one promise, at most 2^30
cycles ahead and not before the copy unit's last promise; CPC rises; and its transfer operations hold each guard-true lane's move
once. A failing check is a precise trap (the source's checks come before the destination's, and a failed `land` check has TRAPVA 0: the
model's reading, log 46), and with no guard true nothing happens. -/
def Obligations.CopiesAreAccepted : Prop :=
  ∀ (i : Instr) (f : Fields) (s : State), i ∈ [Instr.cpy f, .cpym f, .cpyw f] →
    let ls := s.trueLanes f
    let l := ls.headD 0
    let core := s.curG.core
    let c : Word := s.cyc.setWidth 32
    let unit : Nat := if i = .cpym f then 4 else if i = .cpyw f then 5 else f.c.toNat / 32 % 4
    (ls = [] → Completes i s {}) ∧
    (ls ≠ [] → s.copyFailures i ls = [] → s.landFails i l = false → ∃ (p : Word) (copy : Copy) (xs : List Xfer),
      CompletesWith i s { toD f s (fun _ => p) with rest := fun w => { w with cpc := w.cpc + 1 } } (fun u =>
        { u with copies := u.copies ++ [copy], xfers := u.xfers ++ xs, tag := s.tag + 1 + xs.length }.updCore core
          fun k => { k with lastPromise := some p.toNat }) ∧
      (p - c).toNat ≤ 2 ^ 30 ∧
      (∀ q, (s.coreAt core).lastPromise = some q → 2 ^ 31 ≤ (c - BitVec.ofNat 32 q).toNat →
        min (2 ^ 30) (BitVec.ofNat 32 q - c).toNat ≤ (p - c).toNat) ∧
      copy.id = s.tag ∧ copy.wg = s.curWg ∧ copy.warp = s.curWarp ∧ copy.insn = i ∧ copy.left = xs.length ∧ copy.bar = f.c.toNat % 16 ∧
      copy.arr = f.mbit 4 ∧ copy.owed = (f.mbit 4 && (SMap.get {} s.curG.bars (f.c.toNat % 16) : Barrier).cu) ∧ copy.wrote = [] ∧
      (∀ x ∈ xs, x.copy = s.tag ∧ x.phase = .ready ∧ x.isRead = false ∧ x.dstSpace = unit ∧ x.srcSpace = f.mod.toNat % 4 ∧
        ∀ m ∈ x.moves, m.lane ∈ ls ∧ m.src = s.curW.copySrc f m.lane ∧ m.dst = s.curW.copyDest i f m.lane ∧
          ∀ n ∈ x.moves, n.src / 128 = m.src / 128 ∧ n.dst / 128 = m.dst / 128) ∧
      ∀ j ∈ ls, (xs.flatMap (·.moves)).countP (fun m => m.lane == j) = 1) ∧
    (ls ≠ [] → canTrap s → Runs i s →
      (∀ x, failTrap s.curPc (s.copyFailures i ls) = some x → ∃ s' t, exec i s = .next t ∧
        Trapped s' t x.cause x.detail s.curPc x.va x.mask ∧ s'.wgs = (s.charge f).wgs ∧ s'.xfers = s.xfers) ∧
      (s.copyFailures i ls = [] → s.landFails i l = true → ∃ t detail, exec i s = .next t ∧
        Trapped (s.charge f) t 7 detail s.curPc 0 (maskOf ls)))

/-- R120 to R122, R130, R131, R134 to R137: a transfer operation of one move reads its source (scratch, memory, or an object of a
resident workgroup in the window space), then writes its destination: scratch, weight slot, memory, or such an object; counted bytes
leave the BYTES of the destination's barrier; CPC falls with the copy's last operation. A multicast delivery writes at BASE +
offset of a receiver's valid entry and leaves its barrier's BYTES; at a receiver that has exited, or beyond the entry, it is dropped
and marks the sender's barrier. That a byte of an operation is read whole, and whether others see its write at once (the model's
choices), are logs 75 and 69; `copyReleased` (R121) and `xferTurn` (R107) say when it may move. -/
def Obligations.TransfersMoveBytes : Prop :=
  ∀ (s : State) (x : Xfer) (c : Copy) (m : Move), s.xfers.find? (fun y => y.id == x.id) = some x →
    s.copies.find? (fun y => y.id == x.copy) = some c → x.moves = [m] → (s.wg c.wg).status = .resident → c.wrote = [] →
    let g := s.wg c.wg
    let data := x.data.headD []
    let counted (h : Workgroup) (n : Nat) : Prop := (SMap.get {} h.bars n : Barrier).bytes =
      (SMap.get {} g.bars n : Barrier).bytes - (if c.cnt = true ∧ n = c.bar then BitVec.ofNat 32 x.size else 0)
    let ends (t : State) : Prop := (∀ y ∈ t.xfers, y.id ≠ x.id) ∧
      (t.warp c.wg c.warp).cpc = (s.warp c.wg c.warp).cpc - (if c.left ≤ 1 then 1 else 0)
    let window (a : Nat) : Nat := keyLaunch c.wg * 2 ^ 32 + a / 2 ^ 32 % 2 ^ 32
    let reachable (a : Nat) : Prop := (s.wg (window a)).status = .resident ∧ s.objConnected c.core (window a) a = true ∧
      s.winHeld (window a) a x.size = false ∧ (s.coreAt (s.wg (window a)).core).storeBad = [] ∧ s.opsOf (window a) = [] ∧
      (s.wg (window a)).mixing = none ∧ s.late = [] ∧ x.size ∈ [4, 8, 16] ∧ a % x.size = 0 ∧
      windowValid (s.packet (window a)) (a / 2 ^ 28 % 16) (a % 2 ^ 28) x.size = true
    let holds (t : State) (bytes : List Byte) : Prop :=
      ∃ y ∈ t.xfers, y = { x with isRead := true, data := [bytes], phase := .ready, order := 0 }
    (x.phase = .ready → s.copyReleased c x = true → s.xferTurn c x = true →
      (x.isRead = false → x.srcSpace = 1 → (s.coreAt g.core).storeBad = [] → (x.dstSpace = 4 → x.members ≠ []) →
        ∃ t, exec (.transferOperation x.id) s = .next t ∧ t = { s with xfers := t.xfers } ∧
          holds t (bytesOf x.size (if s.late = [] then g.scratchRead m.src x.size
            else s.scratchSeen c.wg c.core (c.wg, c.warp) m.src x.size))) ∧
      (∀ page cpol, x.isRead = false → x.srcSpace = 0 ∨ x.srcSpace = 2 → (x.dstSpace = 4 → x.members ≠ []) →
        s.pageHeld c.core (s.ctxNo c.wg) (m.src / 2 ^ 18) = none → s.badMem = [] →
        let tr := s.translate c.core (s.ctxNo c.wg) m.src .read false
        tr.2.1 = .ok page cpol → (∀ path, tr.1.homeChecks page tr.2.2 path = none) →
        ∃ t, exec (.transferOperation x.id) s = .next t ∧ t.mem = tr.1.mem ∧ t.wgs = s.wgs ∧
          holds t (bytesOf x.size (bytesVal (tr.1.bytesFor c.core (s.canon (page - page % 128 + m.src % 128)) x.size)))) ∧
      (x.isRead = false → x.srcSpace = 3 → (x.dstSpace = 4 → x.members ≠ []) → reachable m.src →
        ∃ t, exec (.transferOperation x.id) s = .next t ∧ t = { s with xfers := t.xfers } ∧
          holds t (bytesOf x.size ((s.wg (window m.src)).objRead (m.src / 2 ^ 28 % 16) (m.src % 2 ^ 28) (x.size / 4)))) ∧
      (x.isRead = true → x.dstSpace = 3 → x.data = [data] → data.length = x.size → reachable m.dst →
        (c.cnt = true → c.bar < (s.packet (window m.dst)).nbar) → m.dst / 2 ^ 28 % 16 = 1 ∨ s.choices = [] →
        let h := (s.wg (window m.dst)).objWrite (m.dst / 2 ^ 28 % 16) (m.dst % 2 ^ 28) (bytesVal data) (x.size / 4)
        ∃ t, exec (.transferOperation x.id) s = .next t ∧ ends t ∧ t.mem = s.mem ∧
          (∀ n, (SMap.get {} (t.wg (window m.dst)).bars n : Barrier).bytes = (SMap.get {} (s.wg (window m.dst)).bars n : Barrier).bytes -
            (if c.cnt = true ∧ n = c.bar then BitVec.ofNat 32 x.size else 0)) ∧
          ∀ n a l, (t.wg (window m.dst)).scratchAt a = h.scratchAt a ∧ (t.wg (window m.dst)).accAt n a = h.accAt n a ∧
            (t.wg (window m.dst)).mxAt n a = h.mxAt n a ∧ (t.wg (window m.dst)).smAt n a = h.smAt n a ∧
            (t.wg (window m.dst)).wbAt n a = h.wbAt n a ∧ (t.wg (window m.dst)).hsAt n a = h.hsAt n a ∧
            (t.wg (window m.dst)).regAt n a l = h.regAt n a l) ∧
      (x.isRead = true → x.dstSpace = 1 → x.data = [data] → data.length = x.size →
        ∃ t, exec (.transferOperation x.id) s = .next t ∧ ends t ∧ t.mem = s.mem ∧ (∀ n, counted (t.wg c.wg) n) ∧
          ∀ a, (t.wg c.wg).scratchAt a = if m.dst ≤ a ∧ a < m.dst + x.size then data.getD (a - m.dst) 0 else g.scratchAt a) ∧
      (x.isRead = true → x.dstSpace = 5 → x.data = [data] → x.zeroed = false →
        ∃ t, exec (.transferOperation x.id) s = .next t ∧ ends t ∧ t.mem = s.mem ∧ (∀ n, counted (t.wg c.wg) n) ∧
          ∀ q a, (t.wg c.wg).wbAt q a =
            if q = c.insn.fields.c.toNat / 32 ∧ m.dst ≤ a ∧ a < m.dst + x.size then data.getD (a - m.dst) 0 else g.wbAt q a) ∧
      (∀ page cpol, x.isRead = true → x.dstSpace = 0 → x.data = [data] → data.length = x.size →
        s.pageHeld c.core (s.ctxNo c.wg) (m.dst / 2 ^ 18) = none →
        let tr := s.translate c.core (s.ctxNo c.wg) m.dst .write false
        tr.2.1 = .ok page cpol → (∀ path, tr.1.homeChecks page tr.2.2 path = none) →
        ∃ t, exec (.transferOperation x.id) s = .next t ∧ ends t ∧ (∀ n, counted (t.wg c.wg) n) ∧
          t.mem = tr.1.mem.write (s.canon (page - page % 128 + m.dst % 128)) x.size (bytesVal data))) ∧
    (∀ member, x.isRead = true → x.dstSpace = 4 → member ∈ x.members → x.data = [data] → data.length = x.size →
      let q := max 1 (s.packet c.wg).qgroup
      let k := keyLaunch c.wg * 2 ^ 32 + (keyWgid c.wg / q * q + member)
      let h := s.wg k
      let e : Landing := SMap.get {} h.landing c.entry
      (h.status = .resident → e.valid = true → m.dst + x.size ≤ e.size →
          s.objConnected c.core k (e.base + 2 ^ 28 + m.dst) = true → ∃ t, exec (.multicastDelivery x.id member) s = .next t ∧
        (∀ a, (t.wg k).scratchAt a =
          if e.base + m.dst ≤ a ∧ a < e.base + m.dst + x.size then data.getD (a - (e.base + m.dst)) 0 else h.scratchAt a) ∧
        (SMap.get {} (t.wg k).bars e.bar : Barrier).bytes =
          (SMap.get {} h.bars e.bar : Barrier).bytes - BitVec.ofNat 32 x.size ∧
        ∀ y ∈ t.xfers, y.id = x.id → y.members = x.members.filter (· != member)) ∧
      ((h.status = .exited ∨ h.status = .discarded ∨ (h.status = .resident ∧ (e.valid = false ∨ e.size < m.dst + x.size))) →
        ∃ t, exec (.multicastDelivery x.id member) s = .next t ∧ (∀ a, (t.wg k).scratchAt a = h.scratchAt a) ∧
          (SMap.get {} (t.wg c.wg).bars c.bar : Barrier).refused = true))

/-! ### Translation commands, and instructions that wait at issue -/

/-- A command of a partition has begun (R55 to R57, R60): BUSY is set and the command has its number; a replay that finds nothing
parked clears VALID of the partition's quads; a cancel leaves nothing of its pages parked (where no transfer operation exists); an
invalidation leaves no TLB or walk-cache entry of the range. -/
structure Sys2Proof.Machine.CommandBegun (u t : State) (part op first n : Nat) : Prop where
  cmd : SMap.get {} t.cmds part = { u.cmd part with op, bound := u.tag, first, pages := n, issued := (u.cmd part).issued + 1 }
  others : ∀ q, q ≠ part → t.cmd q = u.cmd q
  replay : op = 1 → u.parkedOf part = [] → t.busy part = true ∧ t.mem = u.mem ∧ t.reqs = u.reqs ∧
    ∀ q ∈ u.quadsOf part, t.field (faultBlock q) 7 0 = 0
  cancel : op = 2 ∨ op = 3 → u.xfers = [] → t.busy part = true ∧ t.mem = u.mem ∧
    ∀ p ∈ t.parkedOf part, op = 3 ∧ ∀ r, p = .req r → r.page ≠ first
  invalidate : op = 4 → t.busy part = true ∧ t.mem = u.mem ∧ t.reqs = u.reqs ∧
    ∀ c, (∀ e ∈ (t.coreAt c).tlb, e.part = part → e.overlaps first n = false) ∧
      (∀ e ∈ (u.coreAt c).tlb, e.part ≠ part → e ∈ (t.coreAt c).tlb) ∧
      (∀ e ∈ (t.quad c).tlb ++ (t.quad c).walks, e.part = part → e.overlaps first n = false)

/-- R53 to R60, R272 to R274: the privileged instructions and the fault agent's writes. A command instruction issues its command once
for the group, whose guard-true threads wait for it, or, where its quad's row does not permit the control registers, is entered in the
audit log and takes PROT with DETAIL 6 (R31; TRAPVA 0: log 24); `harvest` goes through the pages of its lanes one after another: each gives the D of its sound leaf, which is
cleared in its entry once for the lane, a page without such a leaf (`pteSound`: log 102) reports 0 and is not changed, and the TLBs forget
their D for it. FLTCMD written
while BUSY sets CMDERR alone. A command that is done clears BUSY and raises DONECNT modulo 65,536. A write by a requester that may not
write the register only enters the audit log. -/
def Obligations.TranslationCommands : Prop :=
  (∀ (f : Fields) (s : State),
    let l := (s.trueLanes f).headD 0
    let part := s.curPart
    let page := s.curW.pageA f l
    let size := (s.curW.reg f.b.toNat l).toNat
    let waits : Effects :=
      { lane := fun j x => if j ∈ s.trueLanes f then
          { x with pc := (s.curW.lane j).pc, wait := some ⟨.command part ((s.cmd part).issued + 1), f.len⟩ } else x }
    (s.trueLanes f = [] → ∀ i ∈ [Instr.tlbinv f, .harvest f, .replay f, .replayCancel f, .replayPage f], Completes i s {}) ∧
    (s.trueLanes f ≠ [] → s.reachesRegs = false → canTrap s →
      ∀ i ∈ [Instr.tlbinv f, .replay f, .replayCancel f, .replayPage f], Runs i s → ∃ t, exec i s = .next t ∧
        Trapped ((s.charge f).auditEvent 1 (s.ctxNo s.curWg) (cregBase + cmdBlock part)) t 7 6 s.curPc 0 (maskOf (s.trueLanes f))) ∧
    (s.trueLanes f ≠ [] →
      (s.reachesRegs = true →
        CompletesWith (.tlbinv f) s waits (fun u => u.startCmd part 4 page size) ∧
        CompletesWith (.replay f) s waits (fun u => u.startCmd part 1 0 1) ∧
        CompletesWith (.replayCancel f) s waits (fun u => u.startCmd part 2 0 1) ∧
        CompletesWith (.replayPage f) s waits (fun u => u.startCmd part 3 page 1)) ∧
      (Runs (.harvest f) s → ∃ (t : State) (map : Nat → Word), exec (.harvest f) s = .next t ∧
        Executed s { t with mem := s.mem, late := s.late, former := s.former, cores := s.cores, quads := s.quads } f
          { reg := fun r j => if r = f.d.toNat ∧ r ≠ 255 ∧ j ∈ s.trueLanes f then some (map j) else none
            lane := fun j x => if j ∈ s.trueLanes f then
              { x with pc := (s.curW.lane j).pc, wait := some ⟨.writes part s.tag, f.len⟩ } else x } ∧
        ∃ h : Nat → Nat → Memory, h 0 0 = s.mem ∧ t.mem = h (s.trueLanes f).length 0 ∧ ∀ q j, (s.trueLanes f)[q]? = some j →
          let n := min (s.curW.reg f.b.toNat j).toNat 32
          let va (i : Nat) : Nat := (SMap.get (0 : Word) s.curW.segs 0).toNat % 65536 * 2 ^ 64 +
            ((s.curW.pairA f j).toNat / 2 ^ 18 * 2 ^ 18 + i * 2 ^ 18) % 2 ^ 64
          let finds (i e at_ : Nat) : Prop :=
            ∃ level, ({ s with mem := h q i } : State).walk (s.ctxNo s.curWg) (va i) = .leaf e level at_ ∧ pteSound e = true
          h (q + 1) 0 = h q n ∧ (∀ i, n ≤ i → (map j).getLsbD i = false) ∧
          ∀ i, i < n →
            ((¬∃ e at_, finds i e at_) → (map j).getLsbD i = false ∧ h q (i + 1) = h q i) ∧
            (∀ e at_, finds i e at_ →
              ((∀ i' e', i' < i → ¬finds i' e' at_) → (map j).getLsbD i = pteD e ∧
                h q (i + 1) = if pteD e then (h q i).write (s.canon at_) 16 (setBits e 6 6 0) else h q i) ∧
              ∀ i' e', i' < i → finds i' e' at_ → (map j).getLsbD i = (map j).getLsbD i' ∧ h q (i + 1) = h q i) ∧
            ∀ c, ∀ x ∈ (t.coreAt c).tlb ++ (t.quad c).tlb, x.part = part → 3 ≤ x.level → x.overlaps (va i / 2 ^ 18) 1 = true →
              x.dirty = false))) ∧
  (∀ (u : State) (part op first n : Nat), part < 16 → 1 ≤ op → op ≤ 4 → CommandBegun u (u.startCmd part op first n) part op first n) ∧
  (∀ (s : State) (agent part : Nat), part < 16 → s.mayWrite agent (cmdBlock part) = true →
    let first := s.creg (cmdBlock part + 8) + s.creg (cmdBlock part + 12) % 2 ^ 30 * 2 ^ 32
    ∀ c ∈ [(Instr.replayAll agent part, 1, 1), (.cancelAll agent part, 2, 1), (.cancelPage agent part, 3, 1),
        (.invalidateRange agent part, 4, s.creg (cmdBlock part + 16))],
      (s.busy part = false → exec c.1 s = .next (s.startCmd part c.2.1 first c.2.2)) ∧
      (s.busy part = true → ∃ t, exec c.1 s = .next t ∧ t = { s with cregs := t.cregs } ∧ t.field (cmdBlock part + 0x14) 0 0 = 1 ∧
        ∀ off, off ≠ cmdBlock part + 0x14 → t.creg off = s.creg off)) ∧
  (∀ (s : State) (part : Nat), s.cmdReady part = true → part < 16 → ∃ t, exec (.faultCommandComplete part) s = .next t ∧
    t = { s with cregs := t.cregs, cmds := t.cmds } ∧ t.busy part = false ∧
    t.field (cmdBlock part + 0x14) 31 16 = (s.field (cmdBlock part + 0x14) 31 16 + 1) % 65536 ∧
    (t.cmd part).completed = (s.cmd part).issued) ∧
  (∀ (s : State) (agent quad part : Nat) (v : Word), quad < 288 → part < 16 →
    let only (i : Instr) (off new : Nat) : Prop := s.mayWrite agent off = true →
      ∃ t, exec i s = .next t ∧ t = { s with cregs := t.cregs } ∧ t.creg off = new ∧ ∀ o, o ≠ off → t.creg o = s.creg o
    let clears (old : Word) (m : Word) : Nat := (old &&& ~~~(v &&& m)).toNat
    only (.fbovfWrite agent quad v) (faultBlock quad + 4) 0 ∧
    only (.fbstatWrite agent quad v) (faultBlock quad) (clears (BitVec.ofNat 32 (s.creg (faultBlock quad))) 0x300) ∧
    only (.fltstatWrite agent part v) (cmdBlock part + 0x14) (clears (BitVec.ofNat 32 (s.creg (cmdBlock part + 0x14))) 1)) ∧
  (∀ (s : State) (agent part quad : Nat) (v : Word), part < 16 → quad < 288 →
    ∀ p ∈ [(Instr.replayAll agent part, cmdBlock part), (.cancelAll agent part, cmdBlock part), (.cancelPage agent part, cmdBlock part),
        (.invalidateRange agent part, cmdBlock part), (.fltstatWrite agent part v, cmdBlock part + 0x14),
        (.fbstatWrite agent quad v, faultBlock quad), (.fbovfWrite agent quad v, faultBlock quad + 4)],
      s.mayWrite agent p.2 = false → exec p.1 s = .next (s.auditEvent 2 agent p.2))

/-- R55, R112, R122, R190, R220, R337, R342: an instruction that passes its checks but may not issue yet waits at issue: its group
waits for it, is not charged, and nothing else happens. A class counter at 63 is such a wait. -/
def Obligations.InstructionsWaitAtIssue : Prop :=
  (∀ (i : Instr) (f : Fields) (s : State), i.fields? = some f → s.canIssue = true → s.spent = none → precheck i s = none →
    heldNow i s = true → ∃ t, exec i s = .next t ∧ t = { s with wgs := t.wgs } ∧ (∀ k, k ≠ s.curWg → t.wg k = s.wg k) ∧
      t.curG = { s.curG with warps := t.curG.warps } ∧ (∀ w, w ≠ s.curWarp → t.curG.warp w = s.curG.warp w) ∧
      t.curW = { s.curW with lanes := t.curW.lanes } ∧
      ∀ l, t.curW.lane l = if l ∈ s.group then { s.curW.lane l with wait := some ⟨.atIssue i, f.len⟩ } else s.curW.lane l) ∧
  (∀ (f : Fields) (s : State), s.trueLanes f ≠ [] →
    (63 ≤ s.curW.ldc → ∀ i ∈ [Instr.ld f, .ldi f, .ldfe f, .atom f, .cas f], heldNow i s = true) ∧
    (63 ≤ s.curW.stc → ∀ i ∈ [Instr.st f, .red f, .stfe f], heldNow i s = true) ∧
    (63 ≤ s.curW.sfc → ∀ i ∈ [Instr.rcp f, .rsq f, .sqrt f, .ex2 f, .lg2 f, .exp f, .sinpi f, .cospi f, .tanh f], heldNow i s = true) ∧
    (s.reachesRegs = true → s.busy s.curPart = true → ∀ i ∈ [Instr.tlbinv f, .harvest f, .replay f, .replayCancel f, .replayPage f], heldNow i s = true) ∧
    (s.curW.sfc ≠ 0 → (f.a = 9 → heldNow (.movs f) s = true) ∧ (f.d = 9 → heldNow (.movsw f) s = true)))

/-! ### Launches -/

/-- The checks 1 to 7 of R380 that a packet fails, read at pod-global address `g`, of a queue whose context is in a partition. -/
def Sys2Proof.Machine.failsCheck (s : State) (g : Nat) (p : Packet) (part : Nat) : Nat → Prop
  | 1 => p.entry.toNat % 4 ≠ 0 ∨ (s.memRead (g + 10) 2).testBit 3 = true ∨ 256 ≤ s.memRead (g + 10) 2 ∨ 16 ≤ s.memRead (g + 0x26) 1 ∨
      s.memRead (g + 0x27) 1 ≠ 0 ∨ s.memRead (g + 0x60) 32 ≠ 0
  | 2 => p.nx = 0 ∨ p.ny = 0 ∨ p.nz = 0 ∨ 2 ^ 32 < p.nx * p.ny * p.nz
  | 3 => p.warps = 0 ∨ 64 < p.warps ∨ p.ncopy + p.nmat + p.nvec ≠ p.warps
  | 4 => p.home < 2 ∨ 255 < p.home + p.travel
  | 5 => p.scratch % 256 ≠ 0 ∨ 2 ^ 20 < p.scratch
  | 6 => 16 < p.nbar ∨ 4 < p.nring ∨ 16 < p.nacc ∨ 8 < p.nwb ∨ 8 < p.nhist ∨ p.qgroup = 0 ∨ 4 < p.qgroup ∨ 2 ^ p.nbar ≤ p.cumask ∨
      ∃ r, r < 4 ∧
        let c := p.ringcfg.getD r 0
        let stages := c % 16
        let gives := c / 16 % 128
        let takes := c / 2 ^ 11 % 128
        if r < p.nring then stages = 0 ∨ 8 < stages ∨ gives = 0 ∨ 64 < gives ∨ takes = 0 ∨ 64 < takes ∨ c / 2 ^ 18 % 2 ^ 14 ≠ 0 else c ≠ 0
  | 7 => p.part ≠ part
  | _ => False

/-- R376 to R382: a doorbell write sets VQTAIL, and signals a queue that has no slot, which then waits for binding; a cancel discards
the unstarted packets and ends every launch of the queue; a resumption skips a packet refused with code 1 to 10 and reads again one with
code 11 or 12. The packet at VQHEAD halts the queue with the code of its first failing check, or becomes a launch and VQHEAD advances.
STATE: 4 while halted, 5 while a cancelled launch has not ended, 3 while a saved workgroup of the queue waits for restore capacity
(`waitsRestore`, log 55), else by binding and work. A packet that the dispatcher may not read (its requester port: log 77) is audited.
A requester that may not write the page changes nothing but the audit log. -/
def Obligations.QueuesStartLaunches : Prop :=
  ∀ (s : State) (vq agent : Nat) (v : Word), vq < 4096 →
    let b := doorbell vq
    let idle (t : State) : Prop := t.vqHead vq = t.vqTail vq ∧ ∀ l ∈ t.launchesOf vq, (t.launch l).dispatched = true
    let unended (t : State) : Prop := ∃ l ∈ t.launchesOf vq, (t.launch l).finished = false
    let settled (t : State) : Prop :=
      (t.waitsRestore vq = true → t.vqState vq = 3) ∧
      (t.waitsRestore vq = false → (idle t → t.vqState vq = 0) ∧ (¬idle t → t.vqState vq = if (s.slotOf vq).isSome then 1 else 2))
    (s.mayWrite agent b = true → ∃ t, exec (.doorbellWrite agent vq v) s = .next t ∧
      t = { s with cregs := t.cregs, signals := t.signals } ∧ t.creg b = v.toNat ∧
      (∀ o, o ≠ b → o ≠ b + 8 → t.creg o = s.creg o) ∧
      t.signals = s.signals ++ (if (s.slotOf vq).isNone then [Signal.queueUnbound vq] else []) ∧
      (s.vqState vq = 4 ∨ (s.vqState vq = 5 ∧ unended s) → t.vqState vq = s.vqState vq) ∧
      (¬(s.vqState vq = 4 ∨ (s.vqState vq = 5 ∧ unended s)) →
        ((s.slotOf vq).isSome = true → settled t) ∧
        ((s.slotOf vq).isSome = false → t.vqState vq = if s.waitsRestore vq then 3 else 2))) ∧
    (s.mayWrite agent (b + 12) = true →
      (∃ t, exec (.launchCancel agent vq) s = .next t ∧ t.mem = s.mem ∧ t.vqHead vq = s.vqTail vq ∧ t.vqTail vq = s.vqTail vq ∧
        (∀ l ∈ s.launchesOf vq, (t.launch l).ending = true ∨ (t.launch l).finished = true) ∧
        (unended t → t.vqState vq = 5) ∧
        (¬unended t → t.vqState vq = if t.waitsRestore vq then 3 else 0)) ∧
      (s.vqState vq ≠ 4 → exec (.resumeAfterRefusal agent vq) s = .next s) ∧
      (s.vqState vq = 4 → ∃ t, exec (.resumeAfterRefusal agent vq) s = .next t ∧ t = { s with cregs := t.cregs } ∧ settled t ∧
        t.vqTail vq = s.vqTail vq ∧
        t.vqHead vq = if s.field (b + 8) 11 8 ≤ 10 then (s.vqHead vq + 1) % 2 ^ 32 else s.vqHead vq)) ∧
    (∀ p ∈ [(Instr.doorbellWrite agent vq v, b), (.launchCancel agent vq, b + 12), (.resumeAfterRefusal agent vq, b + 12)],
      s.mayWrite agent p.2 = false → exec p.1 s = .next (s.auditEvent 2 agent p.2)) ∧
    (∀ slot, s.slotOf vq = some slot → s.mayStart vq = true →
      let q := queueSlot slot
      let ctx := s.field (q + 12) 15 0
      let halts (u : State) (code : Nat) : Prop := ∃ t, exec (.packetStart vq) s = .next t ∧ t = { u with cregs := t.cregs } ∧
        t.vqState vq = 4 ∧ t.field (b + 8) 11 8 = code ∧ t.vqHead vq = s.vqHead vq ∧ ∀ o, o ≠ b + 8 → t.creg o = u.creg o
      let read := s.deviceTr (s.dispatchPort ctx) ctx (s.packetVa slot vq) .read
      (∀ code, s.packetAt slot vq = .error code →
        (read.1 = .prot 6 → halts (s.auditEvent 1 ctx (s.packetVa slot vq)) code) ∧ (read.1 ≠ .prot 6 → halts s code)) ∧
      (∀ level, read.1 = .absent level → s.packetAt slot vq = .error 11) ∧
      (∀ detail, read.1 = .prot detail → s.packetAt slot vq = .error 12) ∧
      (∀ g, s.packetAt slot vq = .ok g →
        let x : Launch := { packet := s.readPacket g (s.creg (q + 16)) (s.creg (q + 20)), vq, ctx }
        let check := packetCode x.packet (s.packetReserved g) (s.ctxPart ctx)
        let fails := failsCheck s g x.packet (s.ctxPart ctx)
        (∀ code, fails code → (∀ c, c < code → ¬fails c) → check = some code) ∧ ((∀ code, ¬fails code) → check = none) ∧
        (∀ code, check = some code → halts s code) ∧
        (∀ code, check = none → s.capacityCode x = some code → halts s code) ∧
        (check = none → s.capacityCode x = none → (x.packet.flags.testBit 2 = true → ∀ l ∈ s.launchesOf vq, (s.launch l).finished = true) →
          ∃ t, exec (.packetStart vq) s = .next t ∧ t = { s with cregs := t.cregs, launches := t.launches, tag := s.tag + 1 } ∧
            t.launch s.tag = x ∧ (∀ l, l ≠ s.tag → t.launch l = s.launch l) ∧
            t.vqState vq = (if t.waitsRestore vq then 3 else 1) ∧
            t.vqHead vq = (s.vqHead vq + 1) % 2 ^ 32)))

/-- R65, R127, R192, R193, R195, R217, R384, R386 to R388, R410: a dispatch makes each workgroup of the next quad group resident, its threads
unexited at ENTRY with YDIST 65,536, SEED by warp and lane, ARGPTR in `g0` and `g1`, and its barriers expecting MEMB arrivals. A
co-resident launch that can be placed is dispatched whole. A workgroup whose threads have exited and of which nothing is in flight
ends. An exchange brings the ready warp that has waited longest into its active set and takes the leavers out. A group that finds
no place keeps the die chosen for it. A control interval whose quad's measured energy exceeds its share parks warps of the quad, those
unparked longest, and unparks its others; the slack of quad 0's interval is the part of it in which a `collw` waited only for others.
How many warps it parks, at least one where its limit binds and another runs, and the energy and ballast are the interval's arguments;
the number is one with which the coolers hold the warps that are left, if there is one (the model's choice, log 52). -/
def Obligations.WorkgroupsStartAndEnd : Prop :=
  (∀ (s : State) (l : Nat), s.mayDispatch l = true →
    let x := s.launch l
    let p := x.packet
    (∀ u, p.coResident = false → s.dispatchOne l = some u → (∀ w ∈ x.nextGroup, w < 2 ^ 32) →
      ∃ t, exec (.workgroupDispatch l) s = .next t ∧ t.mem = s.mem ∧
        ((x.returned = [] → (t.launch l).nextWg = x.nextWg + x.nextGroup.length) ∧
         (x.returned ≠ [] → (t.launch l).returned = x.returned.filter fun w => !x.nextGroup.contains w)) ∧
        ∀ w ∈ x.nextGroup, let k := wgKey l w
          (t.wg k).status = .resident ∧
          (∀ b, b < p.nbar →
            (SMap.get {} (t.wg k).bars b : Barrier).memb = p.warps + (if p.cumask.testBit b then 1 else 0) ∧
            (SMap.get {} (t.wg k).bars b : Barrier).pend = p.warps + (if p.cumask.testBit b then 1 else 0)) ∧
          ∀ n, n < p.warps →
            (∀ i, i < 8 → (SMap.get 0 (t.warp k n).segs i).toNat = s.memRead (s.own ((s.ctx x.ctx).root + 0x400 + 2 * i)) 2) ∧
            (∀ r j, j < 64 → (t.warp k n).regIn false r j =
              if r = 0 then p.argptr.setWidth 32 else if r = 1 then (p.argptr >>> 32).setWidth 32 else 0) ∧
            ∀ j, j < 64 → t.lane k n j = { pc := p.entry, exited := false, ydist := 65536
                                           seed := BitVec.ofNat 32 (0xACE10000 + n * 64 + j) }) ∧
    (p.coResident = false → s.dispatchOne l = none → ∀ t, exec (.workgroupDispatch l) s = .next t →
      t.wgs = s.wgs ∧ SMap.get none (t.launch l).dies x.groupNo = some (s.chosenDie l)) ∧
    (∀ u, p.coResident = true → (s.dispatchAll l x.dies (p.grid + 1)).1 = some u →
      ∃ t, exec (.workgroupDispatch l) s = .next t ∧ t.wgs = u.wgs ∧ t.cores = u.cores ∧
        t.launch l = { u.launch l with dies := [] } ∧ ∀ j, j ≠ l → t.launch j = u.launch j) ∧
    (p.coResident = true → (s.dispatchAll l x.dies (p.grid + 1)).1 = none → ∀ t, exec (.workgroupDispatch l) s = .next t →
      t.wgs = s.wgs ∧ t.cores = s.cores)) ∧
  (∀ (s : State) (k : Nat), (s.wg k).status = .resident → s.liveWarps k = [] → s.quiet k = true →
    s.xfers = [] →
    ∃ t, exec (.workgroupEnd k) s = .next t ∧ (t.wg k).status = .exited ∧ (∀ j, j ≠ k → t.wg j = s.wg j) ∧ t.mem = s.mem ∧
      (t.launch (keyLaunch k)).ended = (s.launch (keyLaunch k)).ended + 1 ∧ (t.coreAt (s.wg k).core).engine ≠ some k) ∧
  (∀ (s t : State) (core part : Nat) (x : Nat × Nat) (xs out : List (Nat × Nat)),
    s.byTime (fun w => w.readySince.getD 0) ((s.pendingIn core part).filter fun y => s.ready y.1 y.2) = x :: xs →
    s.exchange core part x out = some t →
    let act := s.activeIn core part
    let entered : Prop := t = { s with wgs := t.wgs, cores := t.cores } ∧ (t.warp x.1 x.2).active = true ∧
      (∀ y ∈ out, y ≠ x → (t.warp y.1 y.2).active = false) ∧
      (∀ y : Nat × Nat, y ≠ x → y ∉ out → t.warp y.1 y.2 = s.warp y.1 y.2) ∧
      ∀ k w r j, (t.warp k w).regs = (s.warp k w).regs ∧ (t.warp k w).lane j = (s.warp k w).lane j ∧ (t.warp k w).reg r j = (s.warp k w).reg r j
    (act = [] → out = [] → exec (.warpExchange core part) s = .next t ∧ entered) ∧
    (∀ y ys, s.byTime (fun w => w.stalledSince.getD 0) (act.filter fun y => s.stalled y.1 y.2) = y :: ys →
      (s.leavers x (act.filter fun y => !s.stalled y.1 y.2) ys).map (y :: ·) = some out →
      exec (.warpExchange core part) s = .next t ∧ entered) ∧
    (∀ y ys, s.byTime (·.lastIssue) act = y :: ys → (s.leavers x [] ys).map (y :: ·) = some out →
      max ((s.warp x.1 x.2).readySince.getD 0) (SMap.get 0 (s.coreAt core).lastExch part) + 2048 ≤ s.cyc.toNat →
      exec (.forcedExchange core part) s = .next t ∧ entered)) ∧
  (∀ (s : State) (quad parked ballast energy pace : Nat) (announced : Bool), quad < 288 → s.halted = false →
    let all := ((List.range 4).flatMap fun c => s.warpsOn (4 * quad + c)).filter fun x => !(s.warp x.1 x.2).unexited.isEmpty
    let share := s.budget quad (s.capOf s.band)
    let since (x : Nat × Nat) : Nat := if (s.warp x.1 x.2).parked then s.cyc.toNat else (s.warp x.1 x.2).unparked
    let n := s.cyc.toNat - s.slack.began
    let binds : Prop := (share < energy ∨ 4 * share < energy + sumOf id ((s.quad quad).energies.take 3)) ∧ 2 ≤ all.length
    let measured := s.updQuad quad fun q => { q with capBand := s.band, energies := (energy :: q.energies).take 4 }
    let room (m : Nat) : Prop := ∀ i, i < 16 → (measured.parkFor quad m).coolerHolds (4 * quad + i / 4) (i % 4) = true
    (binds → 1 ≤ parked ∧ parked < all.length ∧ (room parked ∨ ∀ m, 1 ≤ m → m < all.length → ¬room m)) → (¬binds → parked = 0) →
    ∃ t, exec (.controlInterval quad parked ballast energy pace announced) s = .next t ∧
      t.creg (energyBlock quad + 16) = parked % 65536 ∧ t.creg (energyBlock quad + 12) = ballast % 2 ^ 32 ∧
      (t.quad quad).capBand = s.band ∧ (t.quad quad).energies = energy :: (s.quad quad).energies.take 3 ∧
      (∃ chosen : List (Nat × Nat), chosen.length ≤ parked ∧ (s.wgs.keys.Nodup → chosen.length = min parked all.length) ∧
        (∀ x ∈ all, (t.warp x.1 x.2).parked = decide (x ∈ chosen)) ∧
        ((∀ x ∈ all, (s.warp x.1 x.2).slot < 256) → ∀ x ∈ chosen, ∀ y ∈ all, y ∉ chosen → since x ≤ since y)) ∧
      (quad ≠ 0 → t.creg slkCtl = s.creg slkCtl ∧ t.signals = s.signals) ∧
      (quad = 0 → t.slack.began = s.cyc.toNat ∧ t.slack.waited = 0 ∧
        t.field slkCtl 23 16 = if n = 0 then 0 else min 255 (s.slack.waited * 256 / n)))

/-! ### Pre-emption and restore -/

/-- R394 to R396: PREEMPT with GO, to a quad that is not busy, makes the quad refuse the context, records the estimates and the choice of
R395, and ends the workgroups of a discard; LIFT lets the quad admit the context again; a drain past its deadline becomes a save or a
discard. When all workgroups of the context have left, been saved or been discarded, BUSY falls and, after a save or a discard, no TLB
entry of the context is left. `eSave` is R395's estimate with the remaining array time that R346 counts (the model's choice, log 78).
What a section holds is said by SavedSectionsHoldTheWorkgroup. -/
def Obligations.PreemptionRuns : Prop :=
  ∀ (s : State) (quad agent ctx : Nat), quad < 288 → ctx < 65536 →
    let b := preemptBlock quad
    let mode := s.field (b + 8) 1 0
    let fixed (ks : List Nat) : Prop := ∃ k ∈ ks, s.restartable (keyLaunch k) = false
    (∀ i ∈ [Instr.preemptGo agent quad ctx, .preemptLift agent quad ctx],
      s.mayWrite agent b = false → exec i s = .next (s.auditEvent 2 agent b)) ∧
    (s.mayWrite agent b = true → ∃ t, exec (.preemptLift agent quad ctx) s = .next t ∧
      t = { s with cregs := t.cregs, quads := t.quads } ∧ t.field b 15 0 = ctx ∧ (∀ o, o ≠ b → t.creg o = s.creg o) ∧
      t.quad quad = { s.quad quad with refusing := (s.quad quad).refusing.filter fun c => c != ctx } ∧
      ∀ q, q ≠ quad → t.quad q = s.quad q) ∧
    (s.mayWrite agent b = true → bits (s.creg (b + 12)) 4 4 = 1 → exec (.preemptGo agent quad ctx) s = .next s) ∧
    (s.mayWrite agent b = true → bits (s.creg (b + 12)) 4 4 = 0 →
      let ks := s.preemptees quad ctx
      let es := s.eSave ks (sumOf s.sectionLength ks)
      let drains : Prop := ∃ e, s.eDrain quad ks = some e ∧ e ≤ s.creg (b + 4)
      ∃ t, exec (.preemptGo agent quad ctx) s = .next t ∧ t.mem = s.mem ∧ t.reqs = s.reqs ∧ ctx ∈ (t.quad quad).refusing ∧
        t.field b 15 0 = ctx ∧ t.field (b + 12) 4 4 = 1 ∧ t.field (b + 12) 31 16 = min ks.length 65535 ∧
        t.creg (b + 0x10) = min ((s.eDrain quad ks).getD 0xFFFFFFFF) 0xFFFFFFFF ∧ t.creg (b + 0x14) = min es 0xFFFFFFFF ∧
        ∃ p, (t.quad quad).preempt = some p ∧ p.ctx = ctx ∧ p.deadline = s.creg (b + 4) ∧ p.started = s.cyc.toNat ∧
          t.field (b + 12) 1 0 = p.choice ∧
          (mode ≠ 0 → p.choice = mode) ∧ (mode = 0 → drains → p.choice = 1) ∧
          (mode = 0 → ¬drains → (es ≤ s.creg (b + 4) ∨ fixed ks) → p.choice = 2) ∧
          (mode = 0 → ¬drains → s.creg (b + 4) < es → ¬fixed ks → p.choice = 3) ∧
          (p.choice ≠ 3 → t.wgs = s.wgs) ∧
          (p.choice = 3 → ∀ k ∈ ks, (s.restartable (keyLaunch k) = true → (t.wg k).status ≠ .resident) ∧
            (s.restartable (keyLaunch k) = false → t.wg k = s.wg k))) ∧
    (∀ p, (s.quad quad).preempt = some p →
      (p.choice = 1 → s.preemptees quad p.ctx ≠ [] → p.started + p.deadline ≤ s.cyc.toNat → mode = 0 →
        ∃ t c, exec (.drainDeadline quad) s = .next t ∧ (t.quad quad).preempt = some { p with choice := c } ∧
          (fixed (s.preemptees quad p.ctx) → c = 2) ∧ (¬fixed (s.preemptees quad p.ctx) → c = 3)) ∧
      let ks := (s.wgsOnQuad quad).filter fun k => s.ctxNo k == p.ctx
      let done (t : State) : Prop := (t.quad quad).preempt = none ∧ t.field (b + 12) 4 4 = 0
      let clean (t : State) : Prop := ∀ c, (∀ e ∈ (t.coreAt c).tlb, e.ctx ≠ p.ctx) ∧
        ∀ e ∈ (t.quad c).tlb ++ (t.quad c).walks, e.ctx ≠ p.ctx
      (p.choice = 1 → ks = [] → ∃ t, exec (.preemptComplete quad) s = .next t ∧ done t ∧ t.wgs = s.wgs) ∧
      (∀ k, p.choice = 2 → ks = [k] → s.saving k = true → s.saveReady k = true →
        ∃ t, exec (.preemptComplete quad) s = .next t ∧ done t ∧ clean t ∧ (t.wg k).status = .saved ∧
          (t.wg k).image = s.pointer (b + 0x20) ∧ (t.wg k).recs = (s.wg k).recs ∧ ∀ j, j ≠ k → t.wg j = s.wg j) ∧
      (∀ k, p.choice = 3 → ks = [k] → (s.wg k).status = .ending → s.discarding k = true → s.discardReady k = true →
        ∃ t, exec (.preemptComplete quad) s = .next t ∧ done t ∧ clean t ∧ (t.wg k).status = .discarded ∧ t.mem = s.mem ∧
          (t.launch (keyLaunch k)).returned = (s.launch (keyLaunch k)).returned ++ [keyWgid k] ∧ ∀ j, j ≠ k → t.wg j = s.wg j))

/-- The section of R398 and R399 that a save of workgroup `k` in state `s` leaves at pod-global address `a` of the memory of `t`: header,
warp records, registers (zero where abroad or `gz`), synchronisation, queues (their headers: log 16), scratch, full/empty bits, tiles and
side registers, slots, history, the open region, the held joint operations (their layout: log 21), and the first of the records of R106,
or their terminator. Each part begins at the next multiple of 256, and the length in the header counts the records of R106. -/
structure Sys2Proof.Machine.SavedSection (s t : State) (k a : Nat) : Prop where
  parts : let g := s.wg k
    let p := s.packet k
    let o (i : Nat) : Nat := (imgOffsets p (g.svstat.getLsbD 0) g.held.length).getD i 0
    o 0 = 0 ∧ ∀ i, i < 12 → o (i + 1) = (o i + [256, p.warps * 4096, p.warps * (p.home + p.travel) * 256, 1024, 17408, p.scratch,
      p.scratch / 32, p.nacc * 16384 + p.nacc * 512, p.nwb * 65536, p.nhist * 32768, if g.svstat.getLsbD 0 then 65792 else 0,
      64 * g.held.length].getD i 0 + 255) / 256 * 256
  length : let g := s.wg k
    let slots (n : Nat) : Nat := 48 + 32 * n
    let size (x : Req ⊕ Xfer) : Nat := match x with
      | .inl r => (slots r.slots.length +
          (if r.noEsc = true ∨ r.escCount = 0 then 0 else 4 * r.insn.fields.escCount * r.slots.length) + 15) / 16 * 16
      | .inr y => (slots y.moves.length + 15) / 16 * 16
    (∀ y, .inr y ∈ g.recs → ∃ c ∈ s.copies, c.id = y.copy ∧ c.wg = k) →
      t.memRead (a + 0x0C) 4 =
        ((imgOffsets (s.packet k) (g.svstat.getLsbD 0) g.held.length).getD 12 0 + (g.recs.map size).sum + 16) % 2 ^ 32
  header : let g := s.wg k
    let p := s.packet k
    t.memRead a 4 = 0x4E395345 ∧ t.memRead (a + 4) 4 = 64 ∧ t.memRead (a + 8) 4 = g.wgid % 2 ^ 32 ∧
    t.memRead (a + 0x10) 4 = s.ctxNo k % 2 ^ 32 ∧ t.memRead (a + 0x14) 4 = (s.ctx (s.ctxNo k)).scopechk.toNat ∧
    (∀ q ∈ [(0x18, 1, p.warps), (0x19, 1, p.ncopy), (0x1A, 1, p.nmat), (0x1B, 1, p.nvec), (0x1C, 1, p.home), (0x1D, 1, p.travel),
        (0x1E, 1, p.nbar), (0x1F, 1, p.nring), (0x20, 2, p.cumask), (0x22, 1, p.nacc), (0x23, 1, p.nwb), (0x24, 1, p.nhist),
        (0x25, 1, p.qgroup), (0x26, 1, p.part), (0x27, 1, 0), (0x28, 4, p.scratch), (0x2C, 4, p.tag.toNat)],
      t.memRead (a + q.1) q.2.1 = q.2.2 % 256 ^ q.2.1) ∧
    (∀ i, i < 13 → t.memRead (a + 0x30 + 4 * i) 4 = (imgOffsets p (g.svstat.getLsbD 0) g.held.length).getD i 0 % 2 ^ 32) ∧
    t.memRead (a + 0x64) 4 = ((if g.svstat.getLsbD 0 then 1 else 0) + g.wgid % max 1 p.qgroup * 256) % 2 ^ 32 ∧
    ∀ i, i < 152 → t.memRead (a + 0x68 + i) 1 = 0
  lanes : let o := (imgOffsets (s.packet k) ((s.wg k).svstat.getLsbD 0) (s.wg k).held.length).getD 1 0
    ∀ w l, w < (s.packet k).warps → l < 64 →
      let x := s.lane k w l
      let h := (s.warp k w).handler
      let b := a + o + 4096 * w
      t.memRead (b + 8 * l) 8 = (if x.exited then 2 ^ 64 - 1 else if h then x.frozenPc.toNat else x.pc.toNat) ∧
      t.memRead (b + 0x200 + 4 * l) 4 = x.ydist % 2 ^ 32 ∧ t.memRead (b + 0x300 + 4 * l) 4 = x.seed.toNat ∧
      t.memRead (b + 0x400 + l) 1 = x.preds.toNat ∧
      (t.memRead (b + 0x440) 8).testBit l = (!x.exited && (if h then x.frozenWait else x.wait).isSome) ∧
      t.memRead (b + 0xE00 + 8 * l) 8 = (if h then x.pc.toNat else 0) ∧
      ∀ r, r < 7 → t.memRead (b + 0x700 + 256 * r + 4 * l) 4 = ((s.warp k w).regIn true (248 + r) l).toNat
  warps : let o := (imgOffsets (s.packet k) ((s.wg k).svstat.getLsbD 0) (s.wg k).held.length).getD 1 0
    ∀ w, w < (s.packet k).warps →
      let x := s.warp k w
      let b := a + o + 4096 * w
      t.memRead (b + 0x448) 8 = x.fltmask.toNat ∧ t.memRead (b + 0x450) 4 = x.trapc.toNat ∧
      t.memRead (b + 0x458) 8 = x.trappc.toNat ∧ t.memRead (b + 0x460) 16 = x.trapva.toNat ∧ t.memRead (b + 0x470) 4 = x.fstat.toNat ∧
      t.memRead (b + 0x474) 4 = (let p := s.packet k
        if w < p.ncopy then w * 256 else if w < p.ncopy + p.nmat then 1 + (w - p.ncopy) * 256
        else 2 + (w - p.ncopy - p.nmat) * 256) % 2 ^ 32 ∧
      (∀ q ∈ [(0, x.ldc), (1, x.stc), (2, x.cpc), (3, x.tlc), (4, x.sfc)], t.memRead (b + 0x478 + q.1) 1 = q.2 % 256) ∧
      (∀ i, i < 8 → t.memRead (b + 0x480 + 2 * i) 2 = (SMap.get (0 : Word) x.segs i).toNat % 65536) ∧
      (∀ i, i < 4 → let c : Cursor := SMap.get {} x.cursors i
        t.memRead (b + 0x490 + i) 1 = (c.cur + if c.lap then 16 else 0) % 256) ∧
      t.memRead (b + 0x4A8) 4 = (if x.handler then 1 else 0) ∧
      (∀ i, i < 64 → t.memRead (b + 0x500 + 4 * i) 4 = (SMap.get (0 : Word) x.uni i).toNat ∧
        t.memRead (b + 0x600 + 2 * i) 2 = (SMap.get (0 : BitVec 16) x.books i).toNat) ∧
      ∀ i, i < 16 → t.memRead (b + 0x680 + 8 * i) 8 = (SMap.get (0 : DWord) x.perf i).toNat
  registers : let g := s.wg k
    let p := s.packet k
    ∀ w r l, w < p.warps → r < p.home + p.travel → l < 64 →
      t.memRead (a + (imgOffsets p (g.svstat.getLsbD 0) g.held.length).getD 2 0 + ((w * (p.home + p.travel) + r) * 256 + 4 * l)) 4 =
        if r = 255 ∨ g.recAbroad w r l then 0 else ((s.warp k w).regIn false r l).toNat
  sync : let g := s.wg k
    let b := a + (imgOffsets (s.packet k) (g.svstat.getLsbD 0) g.held.length).getD 3 0
    (∀ i, i < 16 → let x : Barrier := SMap.get {} g.bars i
      t.memRead (b + 8 * i) 8 = x.word.toNat ∧ t.memRead (b + 0x240 + 8 * i) 8 = x.arrived.toNat ∧
      t.memRead (b + 0x340 + 2 * i) 2 =
        (x.cuWait + s.copies.countP fun c => c.wg == k && c.bar == i && c.owed && c.left == 0) % 2 ^ 16 ∧
      t.memRead (b + 0x2C0 + 8 * i) 8 = x.queued.toNat) ∧
    (∀ i, i < 4 → t.memRead (b + 0x80 + 4 * i) 4 = (s.packet k).ringcfg.getD i 0 % 2 ^ 32) ∧
    (∀ i, i < 32 → let x : Stage := SMap.get {} g.stages i
      t.memRead (b + 0x90 + 4 * i) 4 =
        ((if x.full then 1 else 0) + (if x.ph then 2 else 0) + x.gleft * 4 + x.fleft * 512) % 2 ^ 32) ∧
    ∀ i, i < 8 → let x : Landing := SMap.get {} g.landing i
      t.memRead (b + 0x200 + 8 * i) 8 = (x.base + x.bar * 2 ^ 20 + (if x.valid then 2 ^ 31 else 0) + x.size * 2 ^ 32) % 2 ^ 64
  queues : let g := s.wg k
    let b := a + (imgOffsets (s.packet k) (g.svstat.getLsbD 0) g.held.length).getD 4 0
    ∀ (q i : Nat), q < 4 → i < 16 →
      (∀ m, (SMap.get ([] : List Message) g.queues q)[i]? = some m → t.memRead (b + (q * 16 + i) * 272) 8 = m.mask.toNat ∧
        t.memRead (b + (q * 16 + i) * 272 + 8) 1 = 1 ∧
        ∀ l, l < 64 → t.memRead (b + (q * 16 + i) * 272 + 16 + 4 * l) 4 = (SMap.get (0 : Word) m.words l).toNat) ∧
      ((SMap.get ([] : List Message) g.queues q)[i]? = none → t.memRead (b + (q * 16 + i) * 272 + 8) 1 = 0)
  storage : let g := s.wg k
    let p := s.packet k
    let o (i : Nat) : Nat := a + (imgOffsets p (g.svstat.getLsbD 0) g.held.length).getD i 0
    (∀ i, i < p.scratch → t.memRead (o 5 + i) 1 = (g.scratchAt i).toNat) ∧
    (∀ i, i < p.scratch / 32 * 8 → (t.memRead (o 6 + i / 8) 1).testBit (i % 8) = SMap.get false g.fe i) ∧
    (∀ n i, n < p.nacc → i < 4096 → t.memRead (o 7 + 16384 * n + 4 * i) 4 = (g.accAt n i).toNat) ∧
    (∀ n i, n < p.nacc → i < 64 → t.memRead (o 7 + 16384 * p.nacc + 256 * n + 4 * i) 4 = (g.mxAt n i).toNat ∧
      t.memRead (o 7 + 16640 * p.nacc + 256 * n + 4 * i) 4 = (g.smAt n i).toNat) ∧
    (∀ n i, n < p.nwb → i < 65536 → t.memRead (o 8 + 65536 * n + i) 1 = (g.wbAt n i).toNat) ∧
    ∀ n i, n < p.nhist → i < 8192 → t.memRead (o 9 + 32768 * n + 4 * i) 4 = (g.hsAt n i).toNat
  region : let g := s.wg k
    let r := g.region
    let b := a + (imgOffsets (s.packet k) (g.svstat.getLsbD 0) g.held.length).getD 10 0
    g.svstat.getLsbD 0 = true → t.memRead b 4 = g.svstat.toNat ∧ t.memRead (b + 4) 4 = g.sviter.toNat ∧
      t.memRead (b + 8) 4 = g.svnorm.toNat ∧ t.memRead (b + 0x10) 8 = g.svArrived.toNat ∧ t.memRead (b + 0x18) 8 = r.body.toNat ∧
      t.memRead (b + 0x20) 1 = r.carried % 256 ∧ t.memRead (b + 0x21) 1 = r.image % 256 ∧
      t.memRead (b + 0x22) 1 = (r.m + (if r.two then 8 else 0) + if r.l2 then 16 else 0) % 256 ∧
      t.memRead (b + 0x24) 2 = r.beta.toNat ∧ t.memRead (b + 0x26) 2 = r.lambda.toNat ∧ t.memRead (b + 0x28) 1 = r.tolReg % 256 ∧
      t.memRead (b + 0x29) 1 = r.ceilReg % 256 ∧
      ∀ i, i < 8192 → t.memRead (b + 256 + 4 * i) 4 = (SMap.get (0 : Word) g.zp i).toNat ∧
        t.memRead (b + 33024 + 4 * i) 4 = (SMap.get (0 : Word) g.rp i).toNat
  held : let g := s.wg k
    let b := a + (imgOffsets (s.packet k) (g.svstat.getLsbD 0) g.held.length).getD 11 0
    ∀ (i : Nat) (m : MatOp), g.held[i]? = some m → t.memRead (b + 64 * i) 8 = m.va.toNat ∧
      (∀ w, w < 64 → (t.memRead (b + 64 * i + 8) 8).testBit w = m.counted.contains w) ∧
      ∀ j, j < 48 → t.memRead (b + 64 * i + 16 + j) 1 = 0
  abroad : let g := s.wg k
    let b := a + (imgOffsets (s.packet k) (g.svstat.getLsbD 0) g.held.length).getD 12 0
    (g.recs = [] → t.memRead b 16 = 0) ∧
    ∀ r rest, g.recs = .inl r :: rest → r.warp < 64 → r.slots.length ≤ 64 →
      t.memRead b 4 % 8 = (if r.phase = .performed then 2 else 1) + (if r.noEsc || r.escCount == 0 then 4 else 0) ∧
      t.memRead b 4 / 65536 = 0 ∧ t.memRead (b + 4) 1 = r.warp ∧ t.memRead (b + 5) 1 = r.slots.length ∧
      (∀ l, l < 64 → (t.memRead (b + 8) 8).testBit l = r.slots.any (·.lane == l)) ∧
      (r.phase ≠ .performed → r.hop2 = false → ∀ (i : Nat) (x : Slot), r.slots[i]? = some x →
        t.memRead (b + 0x30 + 32 * i) 8 = x.addr % 2 ^ 64)

/-- R396, R398, R399, R431: the completion of the save of one workgroup whose warps have stopped, and of which nothing is in flight, writes its
section at SAVEPTR. -/
def Obligations.SavedSectionsHoldTheWorkgroup : Prop :=
  ∀ (s : State) (quad k : Nat) (p : Preempt), quad < 288 → (s.quad quad).preempt = some p → p.choice = 2 →
    ((s.wgsOnQuad quad).filter fun j => s.ctxNo j == p.ctx) = [k] → s.saving k = true → s.saveReady k = true → s.late = [] →
    (∀ q, (SMap.get ([] : List Message) (s.wg k).queues q).length ≤ 16) →
    s.pointer (preemptBlock quad + 0x20) +
      ((s.wg k).sectionBytes (s.packet k) (s.ctxNo k) (s.ctx (s.ctxNo k)).scopechk (s.copiesOf k)).length ≤ 9 * 2 ^ 37 →
    ∃ t, exec (.preemptComplete quad) s = .next t ∧ SavedSection s t k (s.own (s.pointer (preemptBlock quad + 0x20)))

/-- R399 to R402: a restore that passes its checks makes the saved workgroup resident, its registers holding what the section holds;
one that fails writes its code to RSTSTAT and nothing to a core, and with FORCE it sets RCAP and signals. The queue of a refused
section's launch then reads STATE 3 (log 55), if it is not halted or cancelling. RCAP is cleared by writing 1. -/
def Obligations.RestoresRun : Prop :=
  ∀ (s : State) (quad agent : Nat) (cmd : Word), quad < 288 →
    let b := preemptBlock quad
    let core := 4 * quad + cmd.toNat % 4
    let at_ := s.pointer (b + 0x2C)
    let n := cmd.toNat / 4 % 4 + 1
    (s.mayWrite agent (b + 0x28) = false → exec (.restoreGo agent quad cmd) s = .next (s.auditEvent 2 agent (b + 0x28))) ∧
    (s.mayWrite agent (b + 0x28) = true → cmd.getLsbD 31 = false → exec (.restoreGo agent quad cmd) s = .next s) ∧
    (s.mayWrite agent (b + 0x28) = true → cmd.getLsbD 31 = true →
      (∀ code, s.tryRestore quad core n at_ = .error code → ∃ t, exec (.restoreGo agent quad cmd) s = .next t ∧
        ((∀ l, (s.launch l).vq < 4096) → t.field (b + 0x34) 3 0 = code) ∧ t.cores = s.cores ∧ t.reqs = s.reqs ∧
        (∀ k, t.wg k = { s.wg k with refused := (t.wg k).refused }) ∧
        (∀ l k a, s.sectionsAt n at_ = some l → (k, a) ∈ l → (s.launch (keyLaunch k)).vq < 4096 →
          let vq := (s.launch (keyLaunch k)).vq
          s.vqState vq ≠ 4 → s.vqState vq ≠ 5 → t.vqState vq = 3) ∧
        (cmd.getLsbD 8 = true → t.field (b + 0x34) 4 4 = 1 ∧ Signal.restoreRefused ∈ t.signals) ∧
        (cmd.getLsbD 8 = false → t.mem = s.mem ∧ t.signals = s.signals)) ∧
      (∀ k a, n = 1 → s.sectionsAt 1 at_ = some [(k, a)] → s.checkCore k a core = none →
        let p := s.packet k
        ∃ t, exec (.restoreGo agent quad cmd) s = .next t ∧ t.mem = s.mem ∧
          ((s.launch (keyLaunch k)).vq < 4096 → t.field (b + 0x34) 3 0 = 0) ∧ (t.wg k).refused = false ∧
          (t.wg k).status = .resident ∧ (t.wg k).core = core ∧ (∀ j, j ≠ k → t.wg j = s.wg j) ∧
          s.ctxNo k ∉ (t.quad quad).refusing ∧
          (∀ w r l, w < p.warps → r < p.home + p.travel → r ≠ 255 → l < 64 → (t.warp k w).regIn false r l =
            s.wordAt (a + s.memRead (a + 0x38) 4 + ((w * (p.home + p.travel) + r) * 256 + 4 * l))) ∧
          ∀ w l, w < p.warps → l < 64 → (t.lane k w l).exited =
            (s.memRead (a + s.memRead (a + 0x34) 4 + 4096 * w + 8 * l) 8 == 2 ^ 64 - 1))) ∧
    (s.mayWrite agent (b + 0x34) = true → ∃ t, exec (.rststatWrite agent quad cmd) s = .next t ∧
      t = { s with cregs := t.cregs } ∧
      t.creg (b + 0x34) = (BitVec.ofNat 32 (s.creg (b + 0x34)) &&& ~~~(cmd &&& 0x10)).toNat ∧
      ∀ o, o ≠ b + 0x34 → t.creg o = s.creg o) ∧
    (s.mayWrite agent (b + 0x34) = false → exec (.rststatWrite agent quad cmd) s = .next (s.auditEvent 2 agent (b + 0x34)))

/-! ### Bands, health and the root of trust -/

/-- R411, R413 to R417: a sample sets a stack's temperature, band (up at the upper bound, down at 5 K below the lower one) and VALID; then
the first exit of the state's row that applies is taken, and the operating band is the state's (in the states whose band follows the
stacks, where some stack has a sample). The compute dies stop issuing at TRIP,
until every stack is at or below 325 K. Commands that a state does not list set
CMDERR and do nothing else. -/
def Obligations.ThermalStates : Prop :=
  (∀ (s : State) (i : Nat) (temp : BitVec 16), i < 27 → sensorDie i < s.nact s.pkg → s.halted = false → ∃ t, exec (.sensorSample [(i, temp)]) s = .next t ∧
    let x := temp.toNat
    let b := s.field (tsens i) 17 16
    let n := t.field (tsens i) 17 16
    let upper : Nat := if x ≤ 95 * 16 then 0 else if x ≤ 150 * 16 then 1 else if x ≤ 330 * 16 then 2 else 3
    let leave (m : Nat) : Nat := if m = 1 then 90 * 16 else if m = 2 then 145 * 16 else 325 * 16
    t.field (tsens i) 15 0 = x ∧ t.field (tsens i) 18 18 = 1 ∧
    (s.field (tsens i) 18 18 = 0 ∨ b < upper → n = upper) ∧
    (s.field (tsens i) 18 18 = 1 → upper ≤ b → n ≤ b ∧ (n = 0 ∨ leave n < x) ∧ ∀ m, n < m → m ≤ b → x ≤ leave m)) ∧
  (∀ (s : State) (temps : List (Nat × BitVec 16)), s.halted = false → ∃ t, exec (.sensorSample temps) s = .next t ∧ t.mem = s.mem ∧ t.wgs = s.wgs ∧
    let valid := (List.range 27).filter fun i => t.field (tsens i) 18 18 == 1
    let band (i : Nat) : Nat := t.field (tsens i) 17 16
    let cold : Prop := valid ≠ [] ∧ ∀ i ∈ valid, band i = 0
    let uncold : Prop := ∃ i ∈ valid, band i ≠ 0
    let someWarm : Prop := ∃ i ∈ valid, 2 ≤ band i
    let allWarm : Prop := valid ≠ [] ∧ ∀ i ∈ valid, 2 ≤ band i
    let low : Prop := valid ≠ [] ∧ ∀ i ∈ valid, t.field (tsens i) 15 0 ≤ 90 * 16
    let since (p : Prop) (old new : Option Nat) : Prop := (p → new = some (old.getD s.cyc.toNat)) ∧ (¬p → new = none)
    let past (o : Option Nat) (secs : Nat) : Prop := ∃ x, o = some x ∧ max x s.thermal.entered + secs * 2000000000 ≤ s.cyc.toNat
    let goes (n b : Nat) : Prop := t.thermalState = n ∧ t.band = b
    let follows (n : Nat) : Prop := t.thermalState = n ∧ (someWarm → t.band = 2) ∧ (valid ≠ [] → ¬someWarm → t.band = 1)
    since low s.thermal.lowSince t.thermal.lowSince ∧ since someWarm s.thermal.warmSince t.thermal.warmSince ∧
    (t.field cdStat 9 9 = 1 ↔ ∃ i ∈ valid, band i = 3) ∧
    (t.thermal.stopped = true ↔
      (∃ i ∈ valid, band i = 3) ∨ (s.thermal.stopped = true ∧ ∃ i ∈ valid, 325 * 16 < t.field (tsens i) 15 0)) ∧
    (s.thermalState = 0 → goes 0 s.band) ∧
    (s.thermalState = 1 → (cold → goes 2 1) ∧ (¬cold → follows 1)) ∧
    (s.thermalState = 2 → (uncold → follows 1) ∧
      (¬uncold → past t.thermal.lowSince (max 1 (s.field soakT 15 0)) → goes 3 1) ∧
      (¬uncold → ¬past t.thermal.lowSince (max 1 (s.field soakT 15 0)) → goes 2 s.band)) ∧
    (s.thermalState = 3 ∨ s.thermalState = 4 → (uncold → follows 5) ∧ (¬uncold → goes s.thermalState s.band)) ∧
    (s.thermalState = 5 → (past t.thermal.warmSince 1 → follows 6) ∧
      (¬past t.thermal.warmSince 1 → past t.thermal.lowSince 60 → goes 3 1) ∧
      (¬past t.thermal.warmSince 1 → ¬past t.thermal.lowSince 60 → follows 5)) ∧
    (s.thermalState = 6 → (allWarm → goes 0 2) ∧ (¬allWarm → follows 6))) ∧
  (∀ (s : State) (agent : Nat) (op : BitVec 4) (v : Word),
    let st := s.thermalState
    let enters (i : Instr) (n : Nat) : Prop := ∃ t, exec i s = .next t ∧ t.thermalState = n ∧ 1 ≤ t.band ∧ t.band ≤ 2 ∧
      t.thermal.entered = s.cyc.toNat ∧ t.mem = s.mem ∧ t.wgs = s.wgs ∧ ∀ o, o ≠ cdStat → t.creg o = s.creg o
    let refused (i : Instr) : Prop := ∃ t, exec i s = .next t ∧ t = { s with cregs := t.cregs } ∧ t.field cdStat 10 10 = 1 ∧
      t.thermalState = st ∧ t.band = s.band ∧ ∀ o, o ≠ cdStat → t.creg o = s.creg o
    (s.mayWrite agent cdCtl = true →
      (st = 0 → enters (.beginCooldown agent) 1) ∧ (st ≠ 0 → refused (.beginCooldown agent)) ∧
      (1 ≤ st → st ≤ 5 → enters (.beginWarmup agent) 6) ∧ (st = 0 ∨ 6 ≤ st → refused (.beginWarmup agent)) ∧
      (3 ≤ op.toNat → refused (.cdctlRefusedOp agent op))) ∧
    (s.mayWrite agent cdCtl = false → ∀ i ∈ [Instr.beginCooldown agent, .beginWarmup agent, .cdctlRefusedOp agent op],
      exec i s = .next (s.auditEvent 2 agent cdCtl)) ∧
    (st = 3 → s.halted = false → ∃ t, exec .calibrationComplete s = .next t ∧ t.thermalState = 4 ∧ t.band = 0 ∧ t.mem = s.mem ∧ t.wgs = s.wgs) ∧
    (s.mayWrite agent cdStat = true → ∃ t, exec (.cdstatWrite agent v) s = .next t ∧ t = { s with cregs := t.cregs } ∧
      t.creg cdStat = (BitVec.ofNat 32 (s.creg cdStat) &&& ~~~(v &&& 0x500)).toNat ∧ ∀ o, o ≠ cdStat → t.creg o = s.creg o)) ∧
  (∀ (s : State) (pa : Nat), s.halted = false → pa < pkgSpan → (s.homeDie (s.own pa)).isSome = true → ∃ t, exec (.patrolScrub pa) s = .next t ∧
    t = { s with retired := t.retired, cregs := t.cregs, retiredChannels := t.retiredChannels, signals := t.signals } ∧
    (s.retired.length < 4096 → t = { s with retired := t.retired }) ∧
    (s.badAt (s.lineOf (s.own pa)) 128 = true → s.lineOf (s.own pa) ∈ t.retired) ∧
    (s.badAt (s.lineOf (s.own pa)) 128 = false → t = s))

/-- R422 to R429: a package reset keeps memory, ends everything that runs, measures the image, and records the first step that fails;
the audit log numbers, dates and chains its entries, and the engine signs its head after every 65,536; MESHCFG of a busy region is
refused with CFGERR; a release scrubs the context's translations and the storage it has left; a failed core's index goes to a spare, or
is disabled; a pseudo-channel is retired to spare rows. After a failed boot these units are not active. What the spec leaves open: that a
package reset keeps memory, the package's number and the retired pseudo-channels, which PCCNT counts, is log 59; the layout of a signed
head log 7; the region of a MESHCFG register log 26; a core's two stages and the capacity of the spare rows log 56. -/
def Obligations.BootAuditAndSparing : Prop :=
  (∀ (s : State) (image : Option (List Byte)) (signed : Bool) (ok : BitVec 9) (started : Bool),
    ∃ t, exec (.packageReset image signed ok started) s = .next t ∧ t.mem = s.mem ∧ t.wgs = [] ∧ t.launches = [] ∧ t.ctxs = [] ∧
      t.reqs = [] ∧ t.copies = [] ∧ t.cores = [] ∧ t.quads = [] ∧ t.cyc = 0 ∧ t.ptimeNs = 0 ∧ t.pkg = s.pkg ∧
      t.retiredChannels = s.retiredChannels ∧ t.field health 23 16 = min 255 s.retiredChannels.length ∧
      (image = none → t.field bootStat 3 0 = 1) ∧
      ∀ img, image = some img → (∀ i, i < 12 → t.creg (meas0 + 4 * i) = (Config.sha384 img).toNat / 2 ^ (32 * i) % 2 ^ 32) ∧
        (signed = false → t.field bootStat 3 0 = 2) ∧
        (signed = true → t.field bootStat 3 0 = (if started then 0 else 3) ∧ t.field bootStat 12 4 = ok.toNat ∧
          t.nact t.pkg = ((List.range 9).filter fun i => ok.getLsbD i).length)) ∧
  (∀ (s : State) (agent : Nat) (b : Byte),
    let appends (i : Instr) (body : Nat → Byte) : Prop := ∃ t e, exec i s = .next t ∧ t.audit = s.audit ++ [e] ∧ e.length = 64 ∧
      e.take 16 = bytesOf 8 s.audit.length ++ bytesOf 8 s.ptimeNs.toNat ∧ (∀ n, 16 ≤ n → n < 64 → e.getD n 0 = body n) ∧
      (∀ n, n < 12 → t.creg (audHead + 4 * n) = (Config.sha384 (s.auditHead ++ e)).toNat / 2 ^ (32 * n) % 2 ^ 32) ∧
      t.mem = s.mem ∧ t.wgs = s.wgs
    (s.mayWrite agent (auditWindow + 60) = true → (s.audit.length + 1) % 65536 = 0 → ∃ t e h,
      exec (.auditEntryCommit agent b) s = .next t ∧ t.audit = s.audit ++ [e, h] ∧ t.auditSigned = s.cyc.toNat) ∧
    (s.mayWrite agent (auditWindow + 60) = true → (s.audit.length + 1) % 65536 ≠ 0 →
      appends (.auditEntryCommit agent b) fun n => if n = 63 then b else s.auditPart.getD n 0) ∧
    (s.mayWrite agent (auditWindow + 60) = false →
      exec (.auditEntryCommit agent b) s = .next (s.auditEvent 2 agent (auditWindow + 60))) ∧
    (s.halted = true → exec .auditHeadSign s = .refused (.notEnabled "AUDIT_HEAD_SIGN")) ∧
    (s.halted = false → ∃ body, appends .auditHeadSign body ∧ ∀ n, n < 44 → body (20 + n) =
      BitVec.ofNat 8 ((Config.signHead (BitVec.ofNat 384 (bytesVal s.auditHead))).toNat / 256 ^ n))) ∧
  (∀ (s : State) (agent region part : Nat) (v : Word), region < 9 → part < 16 →
    let only (i : Instr) (off : Nat) (new : Word) : Prop := s.mayWrite agent off = true →
      ∃ t, exec i s = .next t ∧ t = { s with cregs := t.cregs } ∧ t.creg off = new.toNat ∧ ∀ o, o ≠ off → t.creg o = s.creg o
    let old (off : Nat) : Word := BitVec.ofNat 32 (s.creg off)
    only (.healthWrite agent v) health (old health &&& ~~~(v &&& 0x20)) ∧
    only (.evstatWrite agent part v) (eventBlock part + 0x14) (old (eventBlock part + 0x14) &&& ~~~(v &&& 1)) ∧
    (s.regionBusy region = false → only (.meshcfgWrite agent region v) (meshCfg region) (v &&& 0xFFFF0003)) ∧
    (s.regionBusy region = true → s.mayWrite agent (meshCfg region) = true →
      ∃ t, exec (.meshcfgWrite agent region v) s = .next t ∧ t = { s with cregs := t.cregs } ∧
        t.creg health = (old health ||| 0x20).toNat ∧ ∀ o, o ≠ health → t.creg o = s.creg o)) ∧
  (∀ (s : State) (ctx : Nat), (∀ k ∈ s.wgs.keys, s.ctxNo k = ctx → (s.wg k).status = .exited ∨ (s.wg k).status = .waiting) →
    ∃ t, exec (.scrubOnRelease ctx) s = .next t ∧ t.mem = s.mem ∧ t.ctx ctx = {} ∧ (∀ c, c ≠ ctx → t.ctx c = s.ctx c) ∧
      t.audit.length = s.audit.length + (if s.halted then 0 else if (s.audit.length + 1) % 65536 = 0 then 2 else 1) ∧
      (∀ c o, SMap.get 0 (s.coreAt c).looseOf o = ctx + 1 → SMap.get 0 (t.coreAt c).loose o = 0) ∧
      ∀ c, (∀ e ∈ (t.coreAt c).tlb, e.ctx ≠ ctx) ∧ (∀ e ∈ (t.quad c).tlb ++ (t.quad c).walks, e.ctx ≠ ctx) ∧
        ctx ∉ (t.quad c).refusing) ∧
  (∀ (s : State) (core : Nat), s.halted = false → core < 128 * s.nact s.pkg → (s.coreAt core).disabled = false →
    (s.ctxs = [] ∨ (s.coreAt core).failing = true) →
    let off := coreStat (dieOf core)
    ∃ t, exec (.coreFailure core) s = .next t ∧ t.mem = s.mem ∧ t.wgs = s.wgs ∧ (∀ c, c ≠ core → t.coreAt c = s.coreAt c) ∧
      (s.wgsOn core ≠ [] → t.coreAt core = { s.coreAt core with failing := true }) ∧
      (s.wgsOn core = [] → s.field off 2 0 ≠ 0 → t.coreAt core = {} ∧ t.field off 2 0 = s.field off 2 0 - 1) ∧
      (s.wgsOn core = [] → s.field off 2 0 = 0 → (t.coreAt core).disabled = true ∧ t.field health 2 2 = 1 ∧ t.field health 0 0 = 1 ∧
        t.field off 15 8 = min 255 (s.field off 15 8 + 1))) ∧
  (∀ (s : State) (stack channel : Nat), s.halted = false → stack < 18 → channel < 160 → stack * 160 + channel ∉ s.retiredChannels →
    let mine := (s.retiredChannels.filter fun c => c / 160 == stack).length
    (6 ≤ mine → exec (.pseudoChannelRetire stack channel) s = .next s) ∧
    (mine < 6 → ∃ t, exec (.pseudoChannelRetire stack channel) s = .next t ∧
      t.retiredChannels = s.retiredChannels ++ [stack * 160 + channel] ∧ t.mem = s.mem ∧
      t.field health 23 16 = min 255 (s.field health 23 16 + 1) ∧
      (64 < s.field health 23 16 + 1 → t.field health 3 3 = 1 ∧ t.field health 0 0 = 1)))

/-! ### The outside of the package -/

/-- `t` is `s` after a write by physical address: only memory, its errors, and what threads may still see of it have changed. -/
def Sys2Proof.Machine.written (s t : State) : Prop :=
  t = { s with mem := t.mem, badMem := t.badMem, late := t.late, former := t.former } ∧ (s.late = [] → t.late = [])

/-- PTIME in units of 2^-16 ns (R270). -/
def Sys2Proof.Machine.ptime (s : State) : Nat := s.ptimeNs.toNat * 65536 + s.ptimeFrac.toNat

/-- R5, R18, R22, R31, R32, R270, R404 to R409, R422: an access by physical address reads and writes memory and registers; a reserved or
forbidden one reads as all ones for the host, as zero for the cluster, writes nothing, and is recorded. A register write changes the bits
that its Access column makes writable. PTIME never steps: once it runs, a discipline gives its
distance from the reference, it slews by at most 100 ppm, and LOCK is set only within 50 ns of it. A failed path leaves the others, and
with none left its package's outstanding accesses end: a load or an atomic, a `red` among them, with DATA_ERR, and the threads of a lost
store are told of it when they wait. A collective group
is written while no occurrence of it is outstanding; the cluster's watchdog resets the cluster alone. What the spec leaves open: how the
first discipline sets PTIME is log 19; that a lost store is noted in its warp log 29; that a write of a read-only or unlisted register is
ignored and not logged log 61; what a forbidden access of the cluster does log 58; the type numbers of audited events log 7; which
bus-error address stays log 30; what a change of a group does to its instances log 86. -/
def Obligations.OutsideAccesses : Prop :=
  (∀ (s : State) (bar addr size pa : Nat) (v : QWord), accessOk addr size = true → s.barAddr bar addr = some pa →
    let g := s.own pa
    let dead : Prop := s.reservedAccess pa size = true ∨ s.reaches hostPort pa = false ∨
      (s.halted = true ∧ pa / 4 * 4 ≠ cregBase + bootStat)
    let dram : Prop := (s.homeDie g).isSome = true ∧ s.badAt g size = false
    (dead → exec (.hostRequest bar addr size none) s =
        .next ((s.auditEvent 1 hostPort pa).signal (.replyToHost (2 ^ (8 * size) - 1))) ∧
      exec (.hostRequest bar addr size (some v)) s = .next (s.auditEvent 1 hostPort pa)) ∧
    (¬dead → dram → pa < pkgSpan →
      exec (.hostRequest bar addr size none) s = .next (s.signal (.replyToHost (s.mem.read (s.canon g) size))) ∧
      ∃ t, exec (.hostRequest bar addr size (some v)) s = .next t ∧ written s t ∧
        t.mem = s.mem.write (s.canon g) size v.toNat) ∧
    (¬dead → bar = 0 → size = 4 → exec (.hostRequest bar addr size none) s = .next (s.signal (.replyToHost (s.creg addr))))) ∧
  (∀ (s : State) (pa size : Nat) (v : QWord), accessOk pa size = true → pa < pkgSpan →
    let g := s.own pa
    let reached : Prop := s.halted = false ∧ s.reservedAccess pa size = false ∧ s.reaches clusterPort pa = true
    let dram : Prop := (s.homeDie g).isSome = true ∧ s.badAt g size = false
    (s.halted = true → ∀ w, exec (.managementClusterAccess pa size w) s = .refused (.notEnabled "MANAGEMENT_CLUSTER_ACCESS")) ∧
    (s.halted = false → s.reservedAccess pa size = true →
      exec (.managementClusterAccess pa size none) s = .next ({ s with busError := true, busAddr := pa }.signal (.replyToCluster 0)) ∧
      exec (.managementClusterAccess pa size (some v)) s = .next { s with busError := true, busAddr := pa }) ∧
    (s.halted = false → s.reservedAccess pa size = false → s.reaches clusterPort pa = false →
      exec (.managementClusterAccess pa size none) s = .next ((s.auditEvent 1 clusterPort pa).signal (.replyToCluster 0)) ∧
      exec (.managementClusterAccess pa size (some v)) s = .next (s.auditEvent 1 clusterPort pa)) ∧
    (reached → dram → exec (.managementClusterAccess pa size none) s = .next (s.signal (.replyToCluster (s.mem.read (s.canon g) size))) ∧
      ∃ t, exec (.managementClusterAccess pa size (some v)) s = .next t ∧ written s t ∧
        t.mem = s.mem.write (s.canon g) size v.toNat)) ∧
  (∀ (s : State) (agent off : Nat) (v : Word), off % 4 = 0 → off < 2 ^ 32 →
    (∀ w m, cregAccess off = some (w, m) → w ≠ .nobody →
      (s.mayWrite agent off = false → exec (.registerWrite agent off v) s = .next (s.auditEvent 2 agent off)) ∧
      (s.mayWrite agent off = true → s.regCommand agent off v = none → s.rowGone off = false → ∃ t, exec (.registerWrite agent off v) s = .next t ∧
        t = { s with cregs := t.cregs } ∧ t.creg off = ((v &&& m) ||| (BitVec.ofNat 32 (s.creg off) &&& ~~~m)).toNat ∧
        ∀ o, o ≠ off → t.creg o = s.creg o)) ∧
    (∀ m, cregAccess off = some (.nobody, m) ∨ cregAccess off = none → s.connected s.pkg agent 576 = true →
      exec (.registerWrite agent off v) s = .next s)) ∧
  (∀ (s : State) (ns : DWord) (frac : BitVec 16) (lock : Bool),
    (s.halted = true → exec (.timeBaseDiscipline ns frac lock) s = .refused (.notEnabled "TIME_BASE_DISCIPLINE")) ∧
    (s.halted = false → ∃ t, exec (.timeBaseDiscipline ns frac lock) s = .next t ∧
      t = { s with cregs := t.cregs, ptimeNs := t.ptimeNs, ptimeFrac := t.ptimeFrac, ptimeBehind := t.ptimeBehind } ∧
      t.field ptStat 0 0 = (if lock = true ∧ t.ptimeBehind.natAbs ≤ 50 * 65536 then 1 else 0) ∧ (∀ o, o ≠ ptStat → t.creg o = s.creg o) ∧
      (ptime s = 0 → t.ptimeNs = ns ∧ t.ptimeFrac = frac ∧ t.ptimeBehind = 0) ∧
      (ptime s ≠ 0 → t.ptimeNs = s.ptimeNs ∧ t.ptimeFrac = s.ptimeFrac ∧
        t.ptimeBehind = (ns.toNat * 65536 + frac.toNat : Nat) - (ptime s : Int)))) ∧
  (∀ (s t : State), let n := s.ticks.headD 1
    thenPass (.next s) = .next t → ptime s ≠ 0 → ptime s + 2 * n * 32768 < 2 ^ 80 →
      ptime s + n * 32768 ≤ ptime t + n * 32768 / 10000 ∧ ptime t ≤ ptime s + n * 32768 + n * 32768 / 10000) ∧
  (∀ (s : State) (pkg path : Nat), (∃ r ∈ s.pathsTo pkg, r.path = path) →
    let left := (s.pathsTo pkg).filter fun r => r.path != path
    ∃ t, exec (.pathFailure pkg path) s = .next t ∧ t.pathsTo pkg = left ∧
      (left ≠ [] → t = { s with routes := t.routes }) ∧
      (left = [] → ∀ r ∈ s.reqs, s.outOn pkg r = true → (∀ q ∈ t.reqs, q.id ≠ r.id) ∧
        ((r.stores = false ∨ r.mi.atomic = true) → (s.wg r.wg).status = .resident → ∃ y ∈ (t.warp r.wg r.warp).pendTraps, y.cause = 9 ∧
          y.pc = r.pc ∧ ∀ x ∈ r.slots, x.lane < 64 → y.mask.getLsbD x.lane = true) ∧
        (r.stores = true → r.mi.atomic = false → (s.wg r.wg).status = .resident → ∀ x ∈ r.slots,
          s.waitsForStore r.wg r.warp x.lane r.group = false →
            (x.lane, x.addr) ∈ (t.warp r.wg r.warp).lost))) ∧
  (∀ s : State, exec .clusterWatchdogReset s = .next { s with busError := false, busAddr := 0 }) ∧
  (∀ (s : State) (ctx n : Nat) (l : List (Nat × Nat × Nat)), n < 64 →
    (s.groupBusy ctx n = true → s.perform (.group ctx n (some l)) = .refused (.notEnabled "GROUP")) ∧
    (s.halted = false → s.groupBusy ctx n = false → l.length ≤ 4096 → l.Nodup → (∀ m ∈ l, s.inPod m.1 = true) →
      ∃ t, s.perform (.group ctx n (some l)) = .next t ∧ t.mem = s.mem ∧
        t.group? ctx n = { members := l, gen := (s.group? ctx n).gen + 1 } ∧
        (∀ c m, m < 64 → (c, m) ≠ (ctx, n) → t.group? c m = s.group? c m) ∧
        ∀ k, (k ∈ s.wgs.keys → s.ctxNo k = ctx → SMap.get 0 (t.wg k).collNext n = 0) ∧
          ∀ m, m ≠ n → SMap.get 0 (t.wg k).collNext m = SMap.get 0 (s.wg k).collNext m))

/-! ### The machine -/

/-- R183, R225, R236: when the next act is the issue of a warp whose fetch finds an instruction, the step executes that instruction in the
state that the fetch leaves, and then time passes. The instruction is what the decoder reads from the bytes at the group's PC. -/
def Obligations.StepRunsTheDecodedInstruction : Prop :=
  (∀ (s t : State) (k w : Nat) (as : List Act) (i : Instr), s.sched = .issue k w :: as →
    { s with sched := as }.attempt k w = .run t i → step s = thenPass (exec i t) ∧ t.curWg = k ∧ t.curWarp = w) ∧
  (∀ (s t : State) (i : Instr), s.fetchGroup = .run t i →
    ∃ g cpol n, (s.translate s.curG.core (s.ctxNo s.curWg) (s.codeVa s.curWg s.curPc) .fetch false).2.1 = .ok g cpol ∧
      decode (t.bytesAt (keyLaunch s.curWg) g) = .ok (i, n) ∧
      (s.stale = [] → t.bytesAt (keyLaunch s.curWg) g = (List.range 16).map fun j => t.mem.byte (t.canon (g + j)))) ∧
  (∀ (s t : State), thenPass (.next s) = .next t → (∀ u ∈ s.late, u.owed = none) →
    t.cyc = s.cyc + BitVec.ofNat 64 (s.ticks.headD 1) ∧ t.mem = s.mem ∧
    (t.cyc.toNat < s.auditSigned + 2000000000 → t.cregs = s.cregs) ∧ ∀ k w r l, (t.warp k w).reg r l = (s.warp k w).reg r l)

/-- R225, R227, R233, R234, R239: instruction words of the manual's own examples, one of each form at least. -/
def Obligations.WordsDecode : Prop :=
  decodeTableWord 64 0x000000000007762C = some (.nop plainFields) ∧
  decodeTableWord 64 0x000030102047720C = some (.ffma { plainFields with d := 4, a := 2, b := 1, c := 3 }) ∧
  decodeTableWord 96 0x0000006400000000605A1005 = some (.add { plainFields with ga := ⟨1, false⟩, gb := ⟨2, true⟩, d := 5, a := 6, ext := .imm 100 }) ∧
  decodeTableWord 96 0x000800000000000000177701 = some (.ld { plainFields with d := 1, ext := .k 0 0 0 8 }) ∧
  decodeTableWord 128 0x00200000FFFFFFC00000000040777702 = some (.ld { plainFields with d := 7, a := 4, ext := .wide 0xFFFFFFC0 0 0 0 0 2 }) ∧
  decodeTableWord 128 0x00000818000000400000000081477702 = some (.ld { plainFields with d := 20, a := 8, ext := .wide 64 24 8 0 0 0 }) ∧
  decodeTableWord 64 0x08000FF06017707C = some (.icmp { plainFields with d := 1, a := 6, b := 255, mod := 1 }) ∧
  decodeTableWord 96 0x000000400000000000077601 = some (.bra { plainFields with ext := .imm 64 }) ∧
  decodeTableWord 64 0x2000302010577304 = some (.pack { plainFields with d := 5, a := 1, b := 2, c := 3, mod := 4 }) ∧
  decodeTableWord 96 0x000040001800002060177721 = some (.atom { plainFields with d := 1, a := 6, b := 2, mod := 3, ext := .k 0 0 4 0 }) ∧
  decodeTableWord 96 0x000050000800000000077741 = some (.fenceAck { plainFields with mod := 1, ext := .k 0 0 5 0 }) ∧
  decodeTableWord 64 0x0800000010077920 = some (.barSync { plainFields with a := 1, mod := 1 }) ∧
  decodeTableWord 64 0x4000009010077A20 = some (.mxmvSt { plainFields with a := 1, b := 9, mod := 8 }) ∧
  decodeTableWord 96 0x3C243F00D000615140477B01 = some (.solve { plainFields with d := 4, a := 20, b := 21, c := 6, mod := 26, ext := .imm 0x3C243F00 }) ∧
  decodeTableWord 64 0x080000C090077B0C = some (.svhsWr { plainFields with a := 9, b := 12, mod := 1 })

/-- R225, R227, R233, R234: every well-formed instruction is read back from its own words, with every operand as it was, whatever bytes
follow. -/
def Obligations.DecodeInvertsEncode : Prop :=
  ∀ (i : Instr) (rest : List Byte), i.wf = true → decode (encodeBytes i ++ rest) = .ok (i, i.fields.len)

/-- Memory keeps its canonical form (no byte is listed twice or with the value of an unlisted one), so that equal memories are equal
data; it is the model's own invariant (log 2). -/
def Obligations.StepsKeepMemoryCanonical : Prop :=
  ∀ (s t : State), s.memOk → step s = .next t → t.memOk

/-- R42, R193, R270, R385, R408, R414, R415, R420, R422: what a package reset leaves: nothing resident, CYC and PTIME 0, and the control
registers at their Reset columns; and memory in its canonical form. -/
def Obligations.ResetState : Prop :=
  State.reset.memOk ∧ State.reset.cyc = 0 ∧ State.reset.ptimeNs = 0 ∧ State.reset.ptimeFrac = 0 ∧ State.reset.wgs = [] ∧
  State.reset.launches = [] ∧ State.reset.ctxs = [] ∧ State.reset.reqs = [] ∧ State.reset.copies = [] ∧
  State.reset.thermalState = 0 ∧ State.reset.band = 2 ∧ State.reset.field ptStat 0 0 = 0 ∧ State.reset.creg stripeCfg = 0x918 ∧
  State.reset.creg soakT = 600 ∧ State.reset.creg pkgCap = 0x02580E10 ∧ State.reset.creg llcPCfg = 4 ∧
  (∀ q, q < 288 → State.reset.creg (energyBlock q) = 125000 ∧ State.reset.creg (energyBlock q + 4) = 18000 ∧
    State.reset.creg (energyBlock q + 8) = 2000 ∧ State.reset.creg (qpart q) = 0 ∧ State.reset.creg (faultBlock q) = 0) ∧
  (∀ n w, n < 297 → w < 19 → State.reset.creg (connRow n w) = 0) ∧
  (∀ v, v < 4096 → State.reset.creg (doorbell v) = 0 ∧ State.reset.creg (doorbell v + 4) = 0 ∧ State.reset.creg (doorbell v + 8) = 0)

/-- R44: the die and the window offset of a byte of the striped view. R66: the halves of a pair, and the upper half of `e254`, which
reads as zero and discards writes. R217: one advance of SEED is 32 steps of the LFSR; zero stays zero, and with it SR truncates. -/
def Obligations.StripedViewPairsAndSeed : Prop :=
  (∀ (s : State) (pa : Nat), 0x0100000000000 ≤ pa → pa < 0x0100000000000 + 2 ^ 40 → 0 < s.nact s.pkg →
    let b := (pa - 0x0100000000000) / 4096
    s.canon (s.own pa) = s.own (b % s.nact s.pkg * 2 ^ 37 + (s.stripeBase s.pkg * 2 ^ 32 + b / s.nact s.pkg * 4096 + pa % 4096)) ∧
    s.homeDie (s.own pa) = some (b % s.nact s.pkg)) ∧
  (∀ (w : Warp) (n l : Nat) (v : DWord), n < 255 →
    (w.pair n l).setWidth 32 = w.reg n l ∧ (w.pair n l >>> 32).setWidth 32 = (if n = 254 then 0 else w.reg (n + 1) l) ∧
    ∀ r j, r < 256 → (w.setPair n l v).reg r j =
      if r = 255 ∨ j ≠ l then w.reg r j
      else if r = n then v.setWidth 32 else if r = n + 1 then (v >>> 32).setWidth 32 else w.reg r j) ∧
  (∀ (x : Word), let step (y : Word) : Word := if y.getLsbD 0 then (y >>> 1) ^^^ 0x80200003 else y >>> 1
    seedAdvance x = step^[32] x ∧ seedAdvance 0 = 0) ∧
  (∀ (fm : Fmt) (neg : Bool) (m i : Nat) (e : Int), fm ∈ arithFmts → (narrow fm .rz false (.fin neg m e)).2 &&& flOF = 0 →
    (narrow fm (rmOf 4 0 i) false (.fin neg m e)).1 = (narrow fm .rz false (.fin neg m e)).1)

/-! ### Completion -/

/-- The group has issued its instruction, and the instruction has had its own effect: ISSUED has risen by one, no trap has been
taken, the workgroup stays as it is scheduled, and no other workgroup has changed. -/
structure Sys2Proof.Machine.Ran (s t : State) : Prop where
  issued : SMap.get 0 t.curW.perf 0 = SMap.get 0 s.curW.perf 0 + 1
  trapc : t.curW.trapc = s.curW.trapc
  handler : t.curW.handler = s.curW.handler
  status : t.curG.status = s.curG.status
  wgs : ∀ k, k ≠ s.curWg → t.wg k = s.wg k

/-- R236, R248, R304: every instruction of a listed form completes, whatever its operands, in every state in which it runs; a memory
access, a matrix operation or a copy does so when its checks pass, `waitc` where no matrix operation has left it an error, a command
instruction where its quad reaches the control registers, and the events and register writes of these units where they are due. The forms of registers alone change nothing but D (at most eight
registers from it, or its uniform register), predicates and SEED of guard-true lanes, and FSTAT: no value of an operand stops or traps
one of them. -/
def Obligations.FormsComplete : Prop :=
  ∀ (f : Fields) (s : State),
    (∀ i ∈ [Instr.add f, .sub f, .mul f, .mulhi f, .mad f, .madw f, .div f, .rem f, .min f, .max f, .abs f, .neg f, .and f, .or f,
        .xor f, .andn f, .not f, .popc f, .clz f, .brev f, .shl f, .shr f, .sar f, .rot f, .fsh f, .bfx f, .bfi f, .bsel f, .lea f,
        .sel f, .icmp f, .mov f, .movi f, .add64 f, .sub64 f, .shl64 f, .shr64 f, .pand f, .por f, .pxor f, .pnot f, .pmov f,
        .pmovPack f, .pmovUnpack f, .fadd f, .fsub f, .fmul f, .ffma f, .fmin f, .fmax f, .fcmp f, .fcls f, .frnd f, .hadd2 f,
        .hmul2 f, .hfma2 f, .hmin2 f, .hmax2 f, .bfma2 f, .dadd f, .dmul f, .dfma f, .dcmp f, .cvt f, .pack f, .unpk f, .ndot f,
        .cbenc f, .cbdec f, .shfl f, .vote f, .redl f, .scanl f, .matchL f, .nop f, .movs f, .perf f, .qpoll f, .svrd f, .svrdZp f,
        .svrdRp f],
      ∃ e, Completes i s e ∧ e.rest s.curW = s.curW ∧
        (∀ l x, ∃ preds seed, e.lane l x = { x with preds, seed }) ∧ (∀ l x, l ∉ s.trueLanes f → e.lane l x = x) ∧
        (∀ r v, e.uni r = some v → r = f.d.toNat) ∧
        ∀ r l v, e.reg r l = some v → l ∈ s.trueLanes f ∧ r ≠ 255 ∧ f.d.toNat ≤ r ∧ r < f.d.toNat + 8) ∧
    (∀ i ∈ [Instr.cbld f, .rcp f, .rsq f, .sqrt f, .ex2 f, .lg2 f, .exp f, .sinpi f, .cospi f, .tanh f, .bra f, .brx f, .call f,
        .ret f, .yield f, .sleep f, .sleept f, .join f, .movsw f, .fence f, .fenceAck f, .fenceOpr f, .cctlDem f, .cctlInv1 f,
        .cctlInvall f, .pref f, .barArr f, .barSync f, .barWait f, .barExp f, .barInit f, .barRd f, .barRdClr f, .rgive f, .rtake f,
        .rfree f, .wsync f, .waitp f],
      Runs i s → ∃ t, exec i s = .next t ∧ Ran s t) ∧
    (∀ i ∈ [Instr.ld f, .st f, .ldi f, .atom f, .red f, .cas f, .ldfe f, .stfe f],
      let m := memOf i
      (∀ l ∈ s.trueLanes f, s.laneCheck s.curWg m (s.curW.address f m.space l)
        (pathOf s i (s.curW.address f m.space l)) = none) →
      (i = .ldi f → ∀ l ∈ s.trueLanes f, (pairC f s l).toNat % (if f.mbit 2 then 8 else 4) = 0) →
      (m.space = 1 → (s.coreAt s.curG.core).storeBad = []) →
      Runs i s → ∃ t, exec i s = .next t ∧ Ran s t ∧ t.mem = s.mem) ∧
    (∀ i ∈ [Instr.mxi f, .mxs f, .mxv f, .mxn f, .mxsa f, .mxz f, .mxmvSt f, .mxmvLd f, .mxmvTt f, .wbinv f],
      s.trueLanes f ≠ [] → s.matFails i ((s.trueLanes f).headD 0) = none →
      Runs i s → ∃ t, exec i s = .next t ∧ Ran s t ∧ t.mem = s.mem) ∧
    (∀ i ∈ [Instr.cpy f, .cpym f, .cpyw f],
      s.trueLanes f ≠ [] → s.copyFailures i (s.trueLanes f) = [] → s.landFails i ((s.trueLanes f).headD 0) = false →
      Runs i s → ∃ t, exec i s = .next t ∧ Ran s t ∧ t.mem = s.mem) ∧
    (∀ i ∈ [Instr.waitc f, .mxrd f, .mxwr f, .harvest f], (i = .waitc f → s.curW.tileErrs = []) →
      Runs i s → ∃ t, exec i s = .next t ∧ Ran s t) ∧
    (∀ i ∈ [Instr.tlbinv f, .replay f, .replayCancel f, .replayPage f], s.trueLanes f ≠ [] → s.reachesRegs = true →
      Runs i s → ∃ t, exec i s = .next t ∧ (t.cmd s.curPart).issued = (s.cmd s.curPart).issued + 1) ∧
    (∀ (id : Nat) (x : Sfu), s.sfus.find? (fun y => y.id == id) = some x →
      ∃ t, exec (.sfuResult id) s = .next t ∧ t.sfus = s.sfus.filter fun y => y.id != x.id) ∧
    (∀ (k w l time len : Nat) (wake : Bool), (s.lane k w l).wait = some ⟨.sleep time wake, len⟩ → (s.wg k).status = .resident →
      time ≤ s.cyc.toNat → ∃ t, exec (.sleepExpiry k w l) s = .next t ∧ (t.lane k w l).wait = none) ∧
    (∀ agent part, part < 16 → s.mayWrite agent (cmdBlock part) = true → s.busy part = false →
      ∀ i ∈ [Instr.replayAll agent part, .cancelAll agent part, .cancelPage agent part, .invalidateRange agent part],
        ∃ t, exec i s = .next t ∧ (t.cmd part).issued = (s.cmd part).issued + 1) ∧
    (∀ part, s.cmdReady part = true → ∃ t, exec (.faultCommandComplete part) s = .next t ∧ (t.cmd part).completed = (s.cmd part).issued) ∧
    ∀ (agent quad part : Nat) (v : Word), quad < 288 → part < 16 →
      ∀ p ∈ [(Instr.fbovfWrite agent quad v, faultBlock quad + 4), (.fbstatWrite agent quad v, faultBlock quad),
          (.fltstatWrite agent part v, cmdBlock part + 0x14)],
        s.mayWrite agent p.2 = true → ∃ t, exec p.1 s = .next t ∧ t = { s with cregs := t.cregs }
end

