-- ==== Sys2Proof/Laws/Maps.lean ====
section
/-! SUPPORT. Laws of the sparse maps and of memory: a read after a write, other keys left alone, the canonical form kept. -/

namespace Sys2Proof

variable {α : Type}

@[simp] theorem SMap.get_nil (d : α) (i : Nat) : SMap.get d [] i = d := rfl

theorem SMap.get_erase (d : α) (m : SMap α) (k i : Nat) :
    SMap.get d (m.erase k) i = if i = k then d else SMap.get d m i := by
  unfold SMap.erase
  induction m with
  | nil => simp
  | cons p m ih =>
    obtain ⟨a, v⟩ := p
    by_cases h : a = k
    · subst h
      by_cases hi : i = a
      · subst hi; simpa using ih
      · simp [SMap.get, ih, hi, Ne.symm hi]
    · by_cases hi : a = i
      · subst hi; simp [SMap.get, h]
      · simp [SMap.get, ih, h, hi]

theorem SMap.get_insert (d : α) (m : SMap α) (k i : Nat) (v : α) (hk : ∀ p ∈ m, p.1 ≠ k) :
    SMap.get d (m.insert k v) i = if i = k then v else SMap.get d m i := by
  induction m with
  | nil => simp [SMap.insert, SMap.get, eq_comm]
  | cons p m ih =>
    rw [List.forall_mem_cons] at hk
    unfold SMap.insert
    split
    · simp [SMap.get, eq_comm (a := k)]
    · show (if p.1 = i then p.2 else SMap.get d (SMap.insert k v m) i) = if i = k then v else if p.1 = i then p.2 else SMap.get d m i
      rw [ih hk.2]
      have := hk.1
      split <;> split <;> first | rfl | omega

theorem SMap.not_mem_erase (m : SMap α) (k : Nat) : ∀ p ∈ m.erase k, p.1 ≠ k := by
  simp [SMap.erase]

/-- A read after a write of a sparse map. -/
theorem SMap.get_set [DecidableEq α] (d : α) (m : SMap α) (k i : Nat) (v : α) :
    SMap.get d (SMap.set d m k v) i = if i = k then v else SMap.get d m i := by
  unfold SMap.set
  split
  · next h => subst h; exact SMap.get_erase v m k i
  · rw [SMap.get_insert _ _ _ _ _ (SMap.not_mem_erase m k), SMap.get_erase]
    split <;> rfl

@[simp] theorem SMap.get_set_same [DecidableEq α] (d : α) (m : SMap α) (k : Nat) (v : α) :
    SMap.get d (SMap.set d m k v) k = v := by simp [SMap.get_set]

theorem SMap.get_set_other [DecidableEq α] (d : α) (m : SMap α) {k i : Nat} (v : α) (h : i ≠ k) :
    SMap.get d (SMap.set d m k v) i = SMap.get d m i := by simp [SMap.get_set, h]

/-- A read after a change of one value of a sparse map. -/
theorem SMap.get_upd [DecidableEq α] (d : α) (m : SMap α) (k i : Nat) (g : α → α) :
    SMap.get d (SMap.upd d m k g) i = if i = k then g (SMap.get d m k) else SMap.get d m i := by
  simp [SMap.upd, SMap.get_set]

/-- A key below the first key of a rising list is below all of them. -/
theorem SMap.below_all {k j : Nat} {u : α} {m : SMap α} (hm : ((j, u) :: m).Pairwise fun p q => p.1 < q.1) (hk : k < j) :
    ∀ q ∈ (j, u) :: m, k < q.1 := by
  rw [List.pairwise_cons] at hm
  simpa [hk] using fun i v (hq : (i, v) ∈ m) => hk.trans (hm.1 (i, v) hq)

/-- The canonical form, said of the list as a whole. -/
theorem SMap.wf_iff [DecidableEq α] (d : α) (m : SMap α) :
    SMap.wf d m = true ↔ m.Pairwise (fun p q => p.1 < q.1) ∧ ∀ p ∈ m, p.2 ≠ d := by
  induction m with
  | nil => simp [SMap.wf]
  | cons p m ih =>
    match m, ih with
    | [], _ => simp [SMap.wf]
    | (j, u) :: m, ih =>
      simp only [SMap.wf, Bool.and_eq_true, decide_eq_true_eq, ih, List.forall_mem_cons (p := fun x : Nat × α => x.2 ≠ d) (a := p)]
      have first : ((j, u) :: m).Pairwise (fun p q => p.1 < q.1) → (p.1 < j ↔ ∀ q ∈ (j, u) :: m, p.1 < q.1) := fun rising =>
        ⟨SMap.below_all rising, fun all => all _ (List.mem_cons_self ..)⟩
      rw [List.pairwise_cons (a := p)]
      tauto

theorem SMap.wf_erase [DecidableEq α] (d : α) (m : SMap α) (k : Nat) (h : SMap.wf d m = true) :
    SMap.wf d (m.erase k) = true := by
  rw [SMap.wf_iff] at *
  exact ⟨h.1.filter _, fun p hp => h.2 p (List.mem_of_mem_filter hp)⟩

theorem SMap.mem_insert (m : SMap α) (k : Nat) (v : α) (p : Nat × α) :
    p ∈ m.insert k v ↔ p = (k, v) ∨ p ∈ m := by
  induction m with
  | nil => simp [SMap.insert]
  | cons q m ih =>
    obtain ⟨j, u⟩ := q
    unfold SMap.insert
    split
    · simp
    · simp only [List.mem_cons, ih]; tauto

theorem SMap.wf_insert [DecidableEq α] (d : α) (m : SMap α) (k : Nat) (v : α) (hv : v ≠ d)
    (hk : ∀ p ∈ m, p.1 ≠ k) (h : SMap.wf d m = true) : SMap.wf d (m.insert k v) = true := by
  rw [SMap.wf_iff] at *
  refine ⟨?_, fun p hp => (SMap.mem_insert m k v p).1 hp |>.elim (fun e => e ▸ hv) (h.2 p)⟩
  replace h := h.1
  induction m with
  | nil => simp [SMap.insert]
  | cons q m ih =>
    unfold SMap.insert
    split
    · next below => exact .cons (SMap.below_all h below) h
    · next notBelow =>
      have above : q.1 < k := by have := hk q (List.mem_cons_self ..); omega
      rw [List.pairwise_cons] at h
      refine .cons (fun x hx => ?_) (ih (fun x hx => hk x (List.mem_cons_of_mem _ hx)) h.2)
      exact ((SMap.mem_insert m k v x).1 hx).elim (fun e => e ▸ above) (h.1 x)

/-- A write keeps the canonical form of a sparse map. -/
theorem SMap.wf_set [DecidableEq α] (d : α) (m : SMap α) (k : Nat) (v : α) (h : SMap.wf d m = true) :
    SMap.wf d (SMap.set d m k v) = true := by
  unfold SMap.set
  split
  · exact SMap.wf_erase d m k h
  · next hv => exact SMap.wf_insert d _ k v hv (SMap.not_mem_erase m k) (SMap.wf_erase d m k h)

theorem SMap.wf_upd [DecidableEq α] (d : α) (m : SMap α) (k : Nat) (g : α → α) (h : SMap.wf d m = true) :
    SMap.wf d (SMap.upd d m k g) = true := SMap.wf_set d m k _ h

theorem SMap.erase_insert (m : SMap α) (k : Nat) (v : α) : (m.insert k v).erase k = m.erase k := by
  unfold SMap.erase
  induction m with
  | nil => simp [SMap.insert]
  | cons p m ih =>
    obtain ⟨j, u⟩ := p
    unfold SMap.insert
    split
    · simp
    · by_cases h : j = k <;> simp [h, ih]

@[simp] theorem SMap.erase_erase (m : SMap α) (k : Nat) : (m.erase k).erase k = m.erase k := by
  simp [SMap.erase, List.filter_filter]

@[simp] theorem SMap.erase_set [DecidableEq α] (d : α) (m : SMap α) (k : Nat) (v : α) :
    (SMap.set d m k v).erase k = m.erase k := by
  unfold SMap.set; split <;> simp [SMap.erase_insert]

/-- Of two writes of one key the second counts. -/
@[simp] theorem SMap.set_set [DecidableEq α] (d : α) (m : SMap α) (k : Nat) (u v : α) :
    SMap.set d (SMap.set d m k u) k v = SMap.set d m k v := by
  show (if v = d then _ else _) = if v = d then _ else _
  rw [SMap.erase_set]

/-- Two changes of one value are one change. -/
theorem SMap.upd_upd [DecidableEq α] (d : α) (m : SMap α) (k : Nat) (g h : α → α) :
    SMap.upd d (SMap.upd d m k g) k h = SMap.upd d m k (fun x => h (g x)) := by
  simp [SMap.upd]

namespace Machine

/-- A byte written reads back; every other byte is as before. -/
theorem Memory.byte_setByte (m : Memory) (a i : Nat) (v : Byte) :
    (m.setByte a v).byte i = if i = a then v else m.byte i := SMap.get_set _ m a i v

theorem Memory.wf_setByte (m : Memory) (a : Nat) (v : Byte) (h : m.wf = true) : (m.setByte a v).wf = true :=
  SMap.wf_set _ m a v h

/-- Every write of memory keeps its canonical form. -/
theorem Memory.wf_write (m : Memory) (a n v : Nat) (h : m.wf = true) : (m.write a n v).wf = true := by
  induction n generalizing m a v with
  | zero => exact h
  | succ n ih => exact ih _ _ _ (Memory.wf_setByte m a _ h)

/-- A byte outside the bytes of a write is as before. -/
theorem Memory.byte_write_outside (m : Memory) (a n v i : Nat) (h : i < a ∨ a + n ≤ i) :
    (m.write a n v).byte i = m.byte i := by
  induction n generalizing m a v with
  | zero => rfl
  | succ n ih =>
    show ((m.setByte a _).write (a + 1) n _).byte i = _
    rw [ih _ _ _ (by omega), Memory.byte_setByte, if_neg (by omega)]

/-- A byte of a write reads as the number's byte (R4). -/
theorem Memory.byte_write_inside (m : Memory) (a n v j : Nat) (h : j < n) :
    (m.write a n v).byte (a + j) = BitVec.ofNat 8 (v / 256 ^ j) := by
  induction n generalizing m a v j with
  | zero => omega
  | succ n ih =>
    show ((m.setByte a _).write (a + 1) n _).byte (a + j) = _
    cases j with
    | zero =>
      rw [Memory.byte_write_outside _ _ _ _ _ (by omega), Memory.byte_setByte]
      simp
    | succ j =>
      rw [show a + (j + 1) = a + 1 + j by omega, ih _ _ _ _ (by omega), pow_succ', Nat.div_div_eq_div_mul]

theorem Memory.wf_nil : Memory.wf [] = true := rfl

end Machine

end Sys2Proof
end

