-- ==== Sys2Proof/Laws/State.lean ====
section
/-! SUPPORT. What each update of State leaves alone: one lemma per field per update. -/

namespace Sys2Proof.Machine

variable (s : State)

@[simp] theorem updWg_pkg (k : Nat) (g : Workgroup → Workgroup) : (s.updWg k g).pkg = s.pkg := rfl
@[simp] theorem updWg_cyc (k : Nat) (g : Workgroup → Workgroup) : (s.updWg k g).cyc = s.cyc := rfl
@[simp] theorem updWg_ptimeNs (k : Nat) (g : Workgroup → Workgroup) : (s.updWg k g).ptimeNs = s.ptimeNs := rfl
@[simp] theorem updWg_ptimeFrac (k : Nat) (g : Workgroup → Workgroup) : (s.updWg k g).ptimeFrac = s.ptimeFrac := rfl
@[simp] theorem updWg_ptimeBehind (k : Nat) (g : Workgroup → Workgroup) : (s.updWg k g).ptimeBehind = s.ptimeBehind := rfl
@[simp] theorem updWg_mem (k : Nat) (g : Workgroup → Workgroup) : (s.updWg k g).mem = s.mem := rfl
@[simp] theorem updWg_badMem (k : Nat) (g : Workgroup → Workgroup) : (s.updWg k g).badMem = s.badMem := rfl
@[simp] theorem updWg_retired (k : Nat) (g : Workgroup → Workgroup) : (s.updWg k g).retired = s.retired := rfl
@[simp] theorem updWg_rows (k : Nat) (g : Workgroup → Workgroup) : (s.updWg k g).rows = s.rows := rfl
@[simp] theorem updWg_late (k : Nat) (g : Workgroup → Workgroup) : (s.updWg k g).late = s.late := rfl
@[simp] theorem updWg_chains (k : Nat) (g : Workgroup → Workgroup) : (s.updWg k g).chains = s.chains := rfl
@[simp] theorem updWg_former (k : Nat) (g : Workgroup → Workgroup) : (s.updWg k g).former = s.former := rfl
@[simp] theorem updWg_stale (k : Nat) (g : Workgroup → Workgroup) : (s.updWg k g).stale = s.stale := rfl
@[simp] theorem updWg_cregs (k : Nat) (g : Workgroup → Workgroup) : (s.updWg k g).cregs = s.cregs := rfl
@[simp] theorem updWg_busError (k : Nat) (g : Workgroup → Workgroup) : (s.updWg k g).busError = s.busError := rfl
@[simp] theorem updWg_busAddr (k : Nat) (g : Workgroup → Workgroup) : (s.updWg k g).busAddr = s.busAddr := rfl
@[simp] theorem updWg_routes (k : Nat) (g : Workgroup → Workgroup) : (s.updWg k g).routes = s.routes := rfl
@[simp] theorem updWg_sent (k : Nat) (g : Workgroup → Workgroup) : (s.updWg k g).sent = s.sent := rfl
@[simp] theorem updWg_done (k : Nat) (g : Workgroup → Workgroup) : (s.updWg k g).done = s.done := rfl
@[simp] theorem updWg_dieMap (k : Nat) (g : Workgroup → Workgroup) : (s.updWg k g).dieMap = s.dieMap := rfl
@[simp] theorem updWg_ctxs (k : Nat) (g : Workgroup → Workgroup) : (s.updWg k g).ctxs = s.ctxs := rfl
@[simp] theorem updWg_launches (k : Nat) (g : Workgroup → Workgroup) : (s.updWg k g).launches = s.launches := rfl
@[simp] theorem updWg_cores (k : Nat) (g : Workgroup → Workgroup) : (s.updWg k g).cores = s.cores := rfl
@[simp] theorem updWg_quads (k : Nat) (g : Workgroup → Workgroup) : (s.updWg k g).quads = s.quads := rfl
@[simp] theorem updWg_llc (k : Nat) (g : Workgroup → Workgroup) : (s.updWg k g).llc = s.llc := rfl
@[simp] theorem updWg_reqs (k : Nat) (g : Workgroup → Workgroup) : (s.updWg k g).reqs = s.reqs := rfl
@[simp] theorem updWg_copies (k : Nat) (g : Workgroup → Workgroup) : (s.updWg k g).copies = s.copies := rfl
@[simp] theorem updWg_xfers (k : Nat) (g : Workgroup → Workgroup) : (s.updWg k g).xfers = s.xfers := rfl
@[simp] theorem updWg_matOps (k : Nat) (g : Workgroup → Workgroup) : (s.updWg k g).matOps = s.matOps := rfl
@[simp] theorem updWg_matWg (k : Nat) (g : Workgroup → Workgroup) : (s.updWg k g).matWg = s.matWg := rfl
@[simp] theorem updWg_sfus (k : Nat) (g : Workgroup → Workgroup) : (s.updWg k g).sfus = s.sfus := rfl
@[simp] theorem updWg_flights (k : Nat) (g : Workgroup → Workgroup) : (s.updWg k g).flights = s.flights := rfl
@[simp] theorem updWg_netBars (k : Nat) (g : Workgroup → Workgroup) : (s.updWg k g).netBars = s.netBars := rfl
@[simp] theorem updWg_groups (k : Nat) (g : Workgroup → Workgroup) : (s.updWg k g).groups = s.groups := rfl
@[simp] theorem updWg_occs (k : Nat) (g : Workgroup → Workgroup) : (s.updWg k g).occs = s.occs := rfl
@[simp] theorem updWg_thermal (k : Nat) (g : Workgroup → Workgroup) : (s.updWg k g).thermal = s.thermal := rfl
@[simp] theorem updWg_slack (k : Nat) (g : Workgroup → Workgroup) : (s.updWg k g).slack = s.slack := rfl
@[simp] theorem updWg_audit (k : Nat) (g : Workgroup → Workgroup) : (s.updWg k g).audit = s.audit := rfl
@[simp] theorem updWg_auditPart (k : Nat) (g : Workgroup → Workgroup) : (s.updWg k g).auditPart = s.auditPart := rfl
@[simp] theorem updWg_auditSigned (k : Nat) (g : Workgroup → Workgroup) : (s.updWg k g).auditSigned = s.auditSigned := rfl
@[simp] theorem updWg_signals (k : Nat) (g : Workgroup → Workgroup) : (s.updWg k g).signals = s.signals := rfl
@[simp] theorem updWg_retiredChannels (k : Nat) (g : Workgroup → Workgroup) : (s.updWg k g).retiredChannels = s.retiredChannels := rfl
@[simp] theorem updWg_softErrors (k : Nat) (g : Workgroup → Workgroup) : (s.updWg k g).softErrors = s.softErrors := rfl
@[simp] theorem updWg_cmds (k : Nat) (g : Workgroup → Workgroup) : (s.updWg k g).cmds = s.cmds := rfl
@[simp] theorem updWg_tag (k : Nat) (g : Workgroup → Workgroup) : (s.updWg k g).tag = s.tag := rfl
@[simp] theorem updWg_seq (k : Nat) (g : Workgroup → Workgroup) : (s.updWg k g).seq = s.seq := rfl
@[simp] theorem updWg_sched (k : Nat) (g : Workgroup → Workgroup) : (s.updWg k g).sched = s.sched := rfl
@[simp] theorem updWg_ticks (k : Nat) (g : Workgroup → Workgroup) : (s.updWg k g).ticks = s.ticks := rfl
@[simp] theorem updWg_paths (k : Nat) (g : Workgroup → Workgroup) : (s.updWg k g).paths = s.paths := rfl
@[simp] theorem updWg_choices (k : Nat) (g : Workgroup → Workgroup) : (s.updWg k g).choices = s.choices := rfl
@[simp] theorem updWg_free (k : Nat) (g : Workgroup → Workgroup) : (s.updWg k g).free = s.free := rfl
@[simp] theorem updWg_curWg (k : Nat) (g : Workgroup → Workgroup) : (s.updWg k g).curWg = s.curWg := rfl
@[simp] theorem updWg_curWarp (k : Nat) (g : Workgroup → Workgroup) : (s.updWg k g).curWarp = s.curWarp := rfl
@[simp] theorem updWg_curMask (k : Nat) (g : Workgroup → Workgroup) : (s.updWg k g).curMask = s.curMask := rfl

@[simp] theorem updWarp_pkg (k w : Nat) (g : Warp → Warp) : (s.updWarp k w g).pkg = s.pkg := rfl
@[simp] theorem updWarp_cyc (k w : Nat) (g : Warp → Warp) : (s.updWarp k w g).cyc = s.cyc := rfl
@[simp] theorem updWarp_ptimeNs (k w : Nat) (g : Warp → Warp) : (s.updWarp k w g).ptimeNs = s.ptimeNs := rfl
@[simp] theorem updWarp_ptimeFrac (k w : Nat) (g : Warp → Warp) : (s.updWarp k w g).ptimeFrac = s.ptimeFrac := rfl
@[simp] theorem updWarp_ptimeBehind (k w : Nat) (g : Warp → Warp) : (s.updWarp k w g).ptimeBehind = s.ptimeBehind := rfl
@[simp] theorem updWarp_mem (k w : Nat) (g : Warp → Warp) : (s.updWarp k w g).mem = s.mem := rfl
@[simp] theorem updWarp_badMem (k w : Nat) (g : Warp → Warp) : (s.updWarp k w g).badMem = s.badMem := rfl
@[simp] theorem updWarp_retired (k w : Nat) (g : Warp → Warp) : (s.updWarp k w g).retired = s.retired := rfl
@[simp] theorem updWarp_rows (k w : Nat) (g : Warp → Warp) : (s.updWarp k w g).rows = s.rows := rfl
@[simp] theorem updWarp_late (k w : Nat) (g : Warp → Warp) : (s.updWarp k w g).late = s.late := rfl
@[simp] theorem updWarp_chains (k w : Nat) (g : Warp → Warp) : (s.updWarp k w g).chains = s.chains := rfl
@[simp] theorem updWarp_former (k w : Nat) (g : Warp → Warp) : (s.updWarp k w g).former = s.former := rfl
@[simp] theorem updWarp_stale (k w : Nat) (g : Warp → Warp) : (s.updWarp k w g).stale = s.stale := rfl
@[simp] theorem updWarp_cregs (k w : Nat) (g : Warp → Warp) : (s.updWarp k w g).cregs = s.cregs := rfl
@[simp] theorem updWarp_busError (k w : Nat) (g : Warp → Warp) : (s.updWarp k w g).busError = s.busError := rfl
@[simp] theorem updWarp_busAddr (k w : Nat) (g : Warp → Warp) : (s.updWarp k w g).busAddr = s.busAddr := rfl
@[simp] theorem updWarp_routes (k w : Nat) (g : Warp → Warp) : (s.updWarp k w g).routes = s.routes := rfl
@[simp] theorem updWarp_sent (k w : Nat) (g : Warp → Warp) : (s.updWarp k w g).sent = s.sent := rfl
@[simp] theorem updWarp_done (k w : Nat) (g : Warp → Warp) : (s.updWarp k w g).done = s.done := rfl
@[simp] theorem updWarp_dieMap (k w : Nat) (g : Warp → Warp) : (s.updWarp k w g).dieMap = s.dieMap := rfl
@[simp] theorem updWarp_ctxs (k w : Nat) (g : Warp → Warp) : (s.updWarp k w g).ctxs = s.ctxs := rfl
@[simp] theorem updWarp_launches (k w : Nat) (g : Warp → Warp) : (s.updWarp k w g).launches = s.launches := rfl
@[simp] theorem updWarp_cores (k w : Nat) (g : Warp → Warp) : (s.updWarp k w g).cores = s.cores := rfl
@[simp] theorem updWarp_quads (k w : Nat) (g : Warp → Warp) : (s.updWarp k w g).quads = s.quads := rfl
@[simp] theorem updWarp_llc (k w : Nat) (g : Warp → Warp) : (s.updWarp k w g).llc = s.llc := rfl
@[simp] theorem updWarp_reqs (k w : Nat) (g : Warp → Warp) : (s.updWarp k w g).reqs = s.reqs := rfl
@[simp] theorem updWarp_copies (k w : Nat) (g : Warp → Warp) : (s.updWarp k w g).copies = s.copies := rfl
@[simp] theorem updWarp_xfers (k w : Nat) (g : Warp → Warp) : (s.updWarp k w g).xfers = s.xfers := rfl
@[simp] theorem updWarp_matOps (k w : Nat) (g : Warp → Warp) : (s.updWarp k w g).matOps = s.matOps := rfl
@[simp] theorem updWarp_matWg (k w : Nat) (g : Warp → Warp) : (s.updWarp k w g).matWg = s.matWg := rfl
@[simp] theorem updWarp_sfus (k w : Nat) (g : Warp → Warp) : (s.updWarp k w g).sfus = s.sfus := rfl
@[simp] theorem updWarp_flights (k w : Nat) (g : Warp → Warp) : (s.updWarp k w g).flights = s.flights := rfl
@[simp] theorem updWarp_netBars (k w : Nat) (g : Warp → Warp) : (s.updWarp k w g).netBars = s.netBars := rfl
@[simp] theorem updWarp_groups (k w : Nat) (g : Warp → Warp) : (s.updWarp k w g).groups = s.groups := rfl
@[simp] theorem updWarp_occs (k w : Nat) (g : Warp → Warp) : (s.updWarp k w g).occs = s.occs := rfl
@[simp] theorem updWarp_thermal (k w : Nat) (g : Warp → Warp) : (s.updWarp k w g).thermal = s.thermal := rfl
@[simp] theorem updWarp_slack (k w : Nat) (g : Warp → Warp) : (s.updWarp k w g).slack = s.slack := rfl
@[simp] theorem updWarp_audit (k w : Nat) (g : Warp → Warp) : (s.updWarp k w g).audit = s.audit := rfl
@[simp] theorem updWarp_auditPart (k w : Nat) (g : Warp → Warp) : (s.updWarp k w g).auditPart = s.auditPart := rfl
@[simp] theorem updWarp_auditSigned (k w : Nat) (g : Warp → Warp) : (s.updWarp k w g).auditSigned = s.auditSigned := rfl
@[simp] theorem updWarp_signals (k w : Nat) (g : Warp → Warp) : (s.updWarp k w g).signals = s.signals := rfl
@[simp] theorem updWarp_retiredChannels (k w : Nat) (g : Warp → Warp) : (s.updWarp k w g).retiredChannels = s.retiredChannels := rfl
@[simp] theorem updWarp_softErrors (k w : Nat) (g : Warp → Warp) : (s.updWarp k w g).softErrors = s.softErrors := rfl
@[simp] theorem updWarp_cmds (k w : Nat) (g : Warp → Warp) : (s.updWarp k w g).cmds = s.cmds := rfl
@[simp] theorem updWarp_tag (k w : Nat) (g : Warp → Warp) : (s.updWarp k w g).tag = s.tag := rfl
@[simp] theorem updWarp_seq (k w : Nat) (g : Warp → Warp) : (s.updWarp k w g).seq = s.seq := rfl
@[simp] theorem updWarp_sched (k w : Nat) (g : Warp → Warp) : (s.updWarp k w g).sched = s.sched := rfl
@[simp] theorem updWarp_ticks (k w : Nat) (g : Warp → Warp) : (s.updWarp k w g).ticks = s.ticks := rfl
@[simp] theorem updWarp_paths (k w : Nat) (g : Warp → Warp) : (s.updWarp k w g).paths = s.paths := rfl
@[simp] theorem updWarp_choices (k w : Nat) (g : Warp → Warp) : (s.updWarp k w g).choices = s.choices := rfl
@[simp] theorem updWarp_free (k w : Nat) (g : Warp → Warp) : (s.updWarp k w g).free = s.free := rfl
@[simp] theorem updWarp_curWg (k w : Nat) (g : Warp → Warp) : (s.updWarp k w g).curWg = s.curWg := rfl
@[simp] theorem updWarp_curWarp (k w : Nat) (g : Warp → Warp) : (s.updWarp k w g).curWarp = s.curWarp := rfl
@[simp] theorem updWarp_curMask (k w : Nat) (g : Warp → Warp) : (s.updWarp k w g).curMask = s.curMask := rfl

@[simp] theorem updCur_pkg (g : Warp → Warp) : (s.updCur g).pkg = s.pkg := rfl
@[simp] theorem updCur_cyc (g : Warp → Warp) : (s.updCur g).cyc = s.cyc := rfl
@[simp] theorem updCur_ptimeNs (g : Warp → Warp) : (s.updCur g).ptimeNs = s.ptimeNs := rfl
@[simp] theorem updCur_ptimeFrac (g : Warp → Warp) : (s.updCur g).ptimeFrac = s.ptimeFrac := rfl
@[simp] theorem updCur_ptimeBehind (g : Warp → Warp) : (s.updCur g).ptimeBehind = s.ptimeBehind := rfl
@[simp] theorem updCur_mem (g : Warp → Warp) : (s.updCur g).mem = s.mem := rfl
@[simp] theorem updCur_badMem (g : Warp → Warp) : (s.updCur g).badMem = s.badMem := rfl
@[simp] theorem updCur_retired (g : Warp → Warp) : (s.updCur g).retired = s.retired := rfl
@[simp] theorem updCur_rows (g : Warp → Warp) : (s.updCur g).rows = s.rows := rfl
@[simp] theorem updCur_late (g : Warp → Warp) : (s.updCur g).late = s.late := rfl
@[simp] theorem updCur_chains (g : Warp → Warp) : (s.updCur g).chains = s.chains := rfl
@[simp] theorem updCur_former (g : Warp → Warp) : (s.updCur g).former = s.former := rfl
@[simp] theorem updCur_stale (g : Warp → Warp) : (s.updCur g).stale = s.stale := rfl
@[simp] theorem updCur_cregs (g : Warp → Warp) : (s.updCur g).cregs = s.cregs := rfl
@[simp] theorem updCur_busError (g : Warp → Warp) : (s.updCur g).busError = s.busError := rfl
@[simp] theorem updCur_busAddr (g : Warp → Warp) : (s.updCur g).busAddr = s.busAddr := rfl
@[simp] theorem updCur_routes (g : Warp → Warp) : (s.updCur g).routes = s.routes := rfl
@[simp] theorem updCur_sent (g : Warp → Warp) : (s.updCur g).sent = s.sent := rfl
@[simp] theorem updCur_done (g : Warp → Warp) : (s.updCur g).done = s.done := rfl
@[simp] theorem updCur_dieMap (g : Warp → Warp) : (s.updCur g).dieMap = s.dieMap := rfl
@[simp] theorem updCur_ctxs (g : Warp → Warp) : (s.updCur g).ctxs = s.ctxs := rfl
@[simp] theorem updCur_launches (g : Warp → Warp) : (s.updCur g).launches = s.launches := rfl
@[simp] theorem updCur_cores (g : Warp → Warp) : (s.updCur g).cores = s.cores := rfl
@[simp] theorem updCur_quads (g : Warp → Warp) : (s.updCur g).quads = s.quads := rfl
@[simp] theorem updCur_llc (g : Warp → Warp) : (s.updCur g).llc = s.llc := rfl
@[simp] theorem updCur_reqs (g : Warp → Warp) : (s.updCur g).reqs = s.reqs := rfl
@[simp] theorem updCur_copies (g : Warp → Warp) : (s.updCur g).copies = s.copies := rfl
@[simp] theorem updCur_xfers (g : Warp → Warp) : (s.updCur g).xfers = s.xfers := rfl
@[simp] theorem updCur_matOps (g : Warp → Warp) : (s.updCur g).matOps = s.matOps := rfl
@[simp] theorem updCur_matWg (g : Warp → Warp) : (s.updCur g).matWg = s.matWg := rfl
@[simp] theorem updCur_sfus (g : Warp → Warp) : (s.updCur g).sfus = s.sfus := rfl
@[simp] theorem updCur_flights (g : Warp → Warp) : (s.updCur g).flights = s.flights := rfl
@[simp] theorem updCur_netBars (g : Warp → Warp) : (s.updCur g).netBars = s.netBars := rfl
@[simp] theorem updCur_groups (g : Warp → Warp) : (s.updCur g).groups = s.groups := rfl
@[simp] theorem updCur_occs (g : Warp → Warp) : (s.updCur g).occs = s.occs := rfl
@[simp] theorem updCur_thermal (g : Warp → Warp) : (s.updCur g).thermal = s.thermal := rfl
@[simp] theorem updCur_slack (g : Warp → Warp) : (s.updCur g).slack = s.slack := rfl
@[simp] theorem updCur_audit (g : Warp → Warp) : (s.updCur g).audit = s.audit := rfl
@[simp] theorem updCur_auditPart (g : Warp → Warp) : (s.updCur g).auditPart = s.auditPart := rfl
@[simp] theorem updCur_auditSigned (g : Warp → Warp) : (s.updCur g).auditSigned = s.auditSigned := rfl
@[simp] theorem updCur_signals (g : Warp → Warp) : (s.updCur g).signals = s.signals := rfl
@[simp] theorem updCur_retiredChannels (g : Warp → Warp) : (s.updCur g).retiredChannels = s.retiredChannels := rfl
@[simp] theorem updCur_softErrors (g : Warp → Warp) : (s.updCur g).softErrors = s.softErrors := rfl
@[simp] theorem updCur_cmds (g : Warp → Warp) : (s.updCur g).cmds = s.cmds := rfl
@[simp] theorem updCur_tag (g : Warp → Warp) : (s.updCur g).tag = s.tag := rfl
@[simp] theorem updCur_seq (g : Warp → Warp) : (s.updCur g).seq = s.seq := rfl
@[simp] theorem updCur_sched (g : Warp → Warp) : (s.updCur g).sched = s.sched := rfl
@[simp] theorem updCur_ticks (g : Warp → Warp) : (s.updCur g).ticks = s.ticks := rfl
@[simp] theorem updCur_paths (g : Warp → Warp) : (s.updCur g).paths = s.paths := rfl
@[simp] theorem updCur_choices (g : Warp → Warp) : (s.updCur g).choices = s.choices := rfl
@[simp] theorem updCur_free (g : Warp → Warp) : (s.updCur g).free = s.free := rfl
@[simp] theorem updCur_curWg (g : Warp → Warp) : (s.updCur g).curWg = s.curWg := rfl
@[simp] theorem updCur_curWarp (g : Warp → Warp) : (s.updCur g).curWarp = s.curWarp := rfl
@[simp] theorem updCur_curMask (g : Warp → Warp) : (s.updCur g).curMask = s.curMask := rfl

@[simp] theorem updCurG_pkg (g : Workgroup → Workgroup) : (s.updCurG g).pkg = s.pkg := rfl
@[simp] theorem updCurG_cyc (g : Workgroup → Workgroup) : (s.updCurG g).cyc = s.cyc := rfl
@[simp] theorem updCurG_ptimeNs (g : Workgroup → Workgroup) : (s.updCurG g).ptimeNs = s.ptimeNs := rfl
@[simp] theorem updCurG_ptimeFrac (g : Workgroup → Workgroup) : (s.updCurG g).ptimeFrac = s.ptimeFrac := rfl
@[simp] theorem updCurG_ptimeBehind (g : Workgroup → Workgroup) : (s.updCurG g).ptimeBehind = s.ptimeBehind := rfl
@[simp] theorem updCurG_mem (g : Workgroup → Workgroup) : (s.updCurG g).mem = s.mem := rfl
@[simp] theorem updCurG_badMem (g : Workgroup → Workgroup) : (s.updCurG g).badMem = s.badMem := rfl
@[simp] theorem updCurG_retired (g : Workgroup → Workgroup) : (s.updCurG g).retired = s.retired := rfl
@[simp] theorem updCurG_rows (g : Workgroup → Workgroup) : (s.updCurG g).rows = s.rows := rfl
@[simp] theorem updCurG_late (g : Workgroup → Workgroup) : (s.updCurG g).late = s.late := rfl
@[simp] theorem updCurG_chains (g : Workgroup → Workgroup) : (s.updCurG g).chains = s.chains := rfl
@[simp] theorem updCurG_former (g : Workgroup → Workgroup) : (s.updCurG g).former = s.former := rfl
@[simp] theorem updCurG_stale (g : Workgroup → Workgroup) : (s.updCurG g).stale = s.stale := rfl
@[simp] theorem updCurG_cregs (g : Workgroup → Workgroup) : (s.updCurG g).cregs = s.cregs := rfl
@[simp] theorem updCurG_busError (g : Workgroup → Workgroup) : (s.updCurG g).busError = s.busError := rfl
@[simp] theorem updCurG_busAddr (g : Workgroup → Workgroup) : (s.updCurG g).busAddr = s.busAddr := rfl
@[simp] theorem updCurG_routes (g : Workgroup → Workgroup) : (s.updCurG g).routes = s.routes := rfl
@[simp] theorem updCurG_sent (g : Workgroup → Workgroup) : (s.updCurG g).sent = s.sent := rfl
@[simp] theorem updCurG_done (g : Workgroup → Workgroup) : (s.updCurG g).done = s.done := rfl
@[simp] theorem updCurG_dieMap (g : Workgroup → Workgroup) : (s.updCurG g).dieMap = s.dieMap := rfl
@[simp] theorem updCurG_ctxs (g : Workgroup → Workgroup) : (s.updCurG g).ctxs = s.ctxs := rfl
@[simp] theorem updCurG_launches (g : Workgroup → Workgroup) : (s.updCurG g).launches = s.launches := rfl
@[simp] theorem updCurG_cores (g : Workgroup → Workgroup) : (s.updCurG g).cores = s.cores := rfl
@[simp] theorem updCurG_quads (g : Workgroup → Workgroup) : (s.updCurG g).quads = s.quads := rfl
@[simp] theorem updCurG_llc (g : Workgroup → Workgroup) : (s.updCurG g).llc = s.llc := rfl
@[simp] theorem updCurG_reqs (g : Workgroup → Workgroup) : (s.updCurG g).reqs = s.reqs := rfl
@[simp] theorem updCurG_copies (g : Workgroup → Workgroup) : (s.updCurG g).copies = s.copies := rfl
@[simp] theorem updCurG_xfers (g : Workgroup → Workgroup) : (s.updCurG g).xfers = s.xfers := rfl
@[simp] theorem updCurG_matOps (g : Workgroup → Workgroup) : (s.updCurG g).matOps = s.matOps := rfl
@[simp] theorem updCurG_matWg (g : Workgroup → Workgroup) : (s.updCurG g).matWg = s.matWg := rfl
@[simp] theorem updCurG_sfus (g : Workgroup → Workgroup) : (s.updCurG g).sfus = s.sfus := rfl
@[simp] theorem updCurG_flights (g : Workgroup → Workgroup) : (s.updCurG g).flights = s.flights := rfl
@[simp] theorem updCurG_netBars (g : Workgroup → Workgroup) : (s.updCurG g).netBars = s.netBars := rfl
@[simp] theorem updCurG_groups (g : Workgroup → Workgroup) : (s.updCurG g).groups = s.groups := rfl
@[simp] theorem updCurG_occs (g : Workgroup → Workgroup) : (s.updCurG g).occs = s.occs := rfl
@[simp] theorem updCurG_thermal (g : Workgroup → Workgroup) : (s.updCurG g).thermal = s.thermal := rfl
@[simp] theorem updCurG_slack (g : Workgroup → Workgroup) : (s.updCurG g).slack = s.slack := rfl
@[simp] theorem updCurG_audit (g : Workgroup → Workgroup) : (s.updCurG g).audit = s.audit := rfl
@[simp] theorem updCurG_auditPart (g : Workgroup → Workgroup) : (s.updCurG g).auditPart = s.auditPart := rfl
@[simp] theorem updCurG_auditSigned (g : Workgroup → Workgroup) : (s.updCurG g).auditSigned = s.auditSigned := rfl
@[simp] theorem updCurG_signals (g : Workgroup → Workgroup) : (s.updCurG g).signals = s.signals := rfl
@[simp] theorem updCurG_retiredChannels (g : Workgroup → Workgroup) : (s.updCurG g).retiredChannels = s.retiredChannels := rfl
@[simp] theorem updCurG_softErrors (g : Workgroup → Workgroup) : (s.updCurG g).softErrors = s.softErrors := rfl
@[simp] theorem updCurG_cmds (g : Workgroup → Workgroup) : (s.updCurG g).cmds = s.cmds := rfl
@[simp] theorem updCurG_tag (g : Workgroup → Workgroup) : (s.updCurG g).tag = s.tag := rfl
@[simp] theorem updCurG_seq (g : Workgroup → Workgroup) : (s.updCurG g).seq = s.seq := rfl
@[simp] theorem updCurG_sched (g : Workgroup → Workgroup) : (s.updCurG g).sched = s.sched := rfl
@[simp] theorem updCurG_ticks (g : Workgroup → Workgroup) : (s.updCurG g).ticks = s.ticks := rfl
@[simp] theorem updCurG_paths (g : Workgroup → Workgroup) : (s.updCurG g).paths = s.paths := rfl
@[simp] theorem updCurG_choices (g : Workgroup → Workgroup) : (s.updCurG g).choices = s.choices := rfl
@[simp] theorem updCurG_free (g : Workgroup → Workgroup) : (s.updCurG g).free = s.free := rfl
@[simp] theorem updCurG_curWg (g : Workgroup → Workgroup) : (s.updCurG g).curWg = s.curWg := rfl
@[simp] theorem updCurG_curWarp (g : Workgroup → Workgroup) : (s.updCurG g).curWarp = s.curWarp := rfl
@[simp] theorem updCurG_curMask (g : Workgroup → Workgroup) : (s.updCurG g).curMask = s.curMask := rfl

@[simp] theorem advance_pkg (n : Nat) : (s.advance n).pkg = s.pkg := rfl
@[simp] theorem advance_cyc (n : Nat) : (s.advance n).cyc = s.cyc := rfl
@[simp] theorem advance_ptimeNs (n : Nat) : (s.advance n).ptimeNs = s.ptimeNs := rfl
@[simp] theorem advance_ptimeFrac (n : Nat) : (s.advance n).ptimeFrac = s.ptimeFrac := rfl
@[simp] theorem advance_ptimeBehind (n : Nat) : (s.advance n).ptimeBehind = s.ptimeBehind := rfl
@[simp] theorem advance_mem (n : Nat) : (s.advance n).mem = s.mem := rfl
@[simp] theorem advance_badMem (n : Nat) : (s.advance n).badMem = s.badMem := rfl
@[simp] theorem advance_retired (n : Nat) : (s.advance n).retired = s.retired := rfl
@[simp] theorem advance_rows (n : Nat) : (s.advance n).rows = s.rows := rfl
@[simp] theorem advance_late (n : Nat) : (s.advance n).late = s.late := rfl
@[simp] theorem advance_chains (n : Nat) : (s.advance n).chains = s.chains := rfl
@[simp] theorem advance_former (n : Nat) : (s.advance n).former = s.former := rfl
@[simp] theorem advance_stale (n : Nat) : (s.advance n).stale = s.stale := rfl
@[simp] theorem advance_cregs (n : Nat) : (s.advance n).cregs = s.cregs := rfl
@[simp] theorem advance_busError (n : Nat) : (s.advance n).busError = s.busError := rfl
@[simp] theorem advance_busAddr (n : Nat) : (s.advance n).busAddr = s.busAddr := rfl
@[simp] theorem advance_routes (n : Nat) : (s.advance n).routes = s.routes := rfl
@[simp] theorem advance_sent (n : Nat) : (s.advance n).sent = s.sent := rfl
@[simp] theorem advance_done (n : Nat) : (s.advance n).done = s.done := rfl
@[simp] theorem advance_dieMap (n : Nat) : (s.advance n).dieMap = s.dieMap := rfl
@[simp] theorem advance_ctxs (n : Nat) : (s.advance n).ctxs = s.ctxs := rfl
@[simp] theorem advance_launches (n : Nat) : (s.advance n).launches = s.launches := rfl
@[simp] theorem advance_cores (n : Nat) : (s.advance n).cores = s.cores := rfl
@[simp] theorem advance_quads (n : Nat) : (s.advance n).quads = s.quads := rfl
@[simp] theorem advance_llc (n : Nat) : (s.advance n).llc = s.llc := rfl
@[simp] theorem advance_reqs (n : Nat) : (s.advance n).reqs = s.reqs := rfl
@[simp] theorem advance_copies (n : Nat) : (s.advance n).copies = s.copies := rfl
@[simp] theorem advance_xfers (n : Nat) : (s.advance n).xfers = s.xfers := rfl
@[simp] theorem advance_matOps (n : Nat) : (s.advance n).matOps = s.matOps := rfl
@[simp] theorem advance_matWg (n : Nat) : (s.advance n).matWg = s.matWg := rfl
@[simp] theorem advance_sfus (n : Nat) : (s.advance n).sfus = s.sfus := rfl
@[simp] theorem advance_flights (n : Nat) : (s.advance n).flights = s.flights := rfl
@[simp] theorem advance_netBars (n : Nat) : (s.advance n).netBars = s.netBars := rfl
@[simp] theorem advance_groups (n : Nat) : (s.advance n).groups = s.groups := rfl
@[simp] theorem advance_occs (n : Nat) : (s.advance n).occs = s.occs := rfl
@[simp] theorem advance_thermal (n : Nat) : (s.advance n).thermal = s.thermal := rfl
@[simp] theorem advance_slack (n : Nat) : (s.advance n).slack = s.slack := rfl
@[simp] theorem advance_audit (n : Nat) : (s.advance n).audit = s.audit := rfl
@[simp] theorem advance_auditPart (n : Nat) : (s.advance n).auditPart = s.auditPart := rfl
@[simp] theorem advance_auditSigned (n : Nat) : (s.advance n).auditSigned = s.auditSigned := rfl
@[simp] theorem advance_signals (n : Nat) : (s.advance n).signals = s.signals := rfl
@[simp] theorem advance_retiredChannels (n : Nat) : (s.advance n).retiredChannels = s.retiredChannels := rfl
@[simp] theorem advance_softErrors (n : Nat) : (s.advance n).softErrors = s.softErrors := rfl
@[simp] theorem advance_cmds (n : Nat) : (s.advance n).cmds = s.cmds := rfl
@[simp] theorem advance_tag (n : Nat) : (s.advance n).tag = s.tag := rfl
@[simp] theorem advance_seq (n : Nat) : (s.advance n).seq = s.seq := rfl
@[simp] theorem advance_sched (n : Nat) : (s.advance n).sched = s.sched := rfl
@[simp] theorem advance_ticks (n : Nat) : (s.advance n).ticks = s.ticks := rfl
@[simp] theorem advance_paths (n : Nat) : (s.advance n).paths = s.paths := rfl
@[simp] theorem advance_choices (n : Nat) : (s.advance n).choices = s.choices := rfl
@[simp] theorem advance_free (n : Nat) : (s.advance n).free = s.free := rfl
@[simp] theorem advance_curWg (n : Nat) : (s.advance n).curWg = s.curWg := rfl
@[simp] theorem advance_curWarp (n : Nat) : (s.advance n).curWarp = s.curWarp := rfl
@[simp] theorem advance_curMask (n : Nat) : (s.advance n).curMask = s.curMask := rfl

@[simp] theorem waitLanes_pkg (ls : List Nat) (x : WaitFor) (n : Nat) : (s.waitLanes ls x n).pkg = s.pkg := rfl
@[simp] theorem waitLanes_cyc (ls : List Nat) (x : WaitFor) (n : Nat) : (s.waitLanes ls x n).cyc = s.cyc := rfl
@[simp] theorem waitLanes_ptimeNs (ls : List Nat) (x : WaitFor) (n : Nat) : (s.waitLanes ls x n).ptimeNs = s.ptimeNs := rfl
@[simp] theorem waitLanes_ptimeFrac (ls : List Nat) (x : WaitFor) (n : Nat) : (s.waitLanes ls x n).ptimeFrac = s.ptimeFrac := rfl
@[simp] theorem waitLanes_ptimeBehind (ls : List Nat) (x : WaitFor) (n : Nat) : (s.waitLanes ls x n).ptimeBehind = s.ptimeBehind := rfl
@[simp] theorem waitLanes_mem (ls : List Nat) (x : WaitFor) (n : Nat) : (s.waitLanes ls x n).mem = s.mem := rfl
@[simp] theorem waitLanes_badMem (ls : List Nat) (x : WaitFor) (n : Nat) : (s.waitLanes ls x n).badMem = s.badMem := rfl
@[simp] theorem waitLanes_retired (ls : List Nat) (x : WaitFor) (n : Nat) : (s.waitLanes ls x n).retired = s.retired := rfl
@[simp] theorem waitLanes_rows (ls : List Nat) (x : WaitFor) (n : Nat) : (s.waitLanes ls x n).rows = s.rows := rfl
@[simp] theorem waitLanes_late (ls : List Nat) (x : WaitFor) (n : Nat) : (s.waitLanes ls x n).late = s.late := rfl
@[simp] theorem waitLanes_chains (ls : List Nat) (x : WaitFor) (n : Nat) : (s.waitLanes ls x n).chains = s.chains := rfl
@[simp] theorem waitLanes_former (ls : List Nat) (x : WaitFor) (n : Nat) : (s.waitLanes ls x n).former = s.former := rfl
@[simp] theorem waitLanes_stale (ls : List Nat) (x : WaitFor) (n : Nat) : (s.waitLanes ls x n).stale = s.stale := rfl
@[simp] theorem waitLanes_cregs (ls : List Nat) (x : WaitFor) (n : Nat) : (s.waitLanes ls x n).cregs = s.cregs := rfl
@[simp] theorem waitLanes_busError (ls : List Nat) (x : WaitFor) (n : Nat) : (s.waitLanes ls x n).busError = s.busError := rfl
@[simp] theorem waitLanes_busAddr (ls : List Nat) (x : WaitFor) (n : Nat) : (s.waitLanes ls x n).busAddr = s.busAddr := rfl
@[simp] theorem waitLanes_routes (ls : List Nat) (x : WaitFor) (n : Nat) : (s.waitLanes ls x n).routes = s.routes := rfl
@[simp] theorem waitLanes_sent (ls : List Nat) (x : WaitFor) (n : Nat) : (s.waitLanes ls x n).sent = s.sent := rfl
@[simp] theorem waitLanes_done (ls : List Nat) (x : WaitFor) (n : Nat) : (s.waitLanes ls x n).done = s.done := rfl
@[simp] theorem waitLanes_dieMap (ls : List Nat) (x : WaitFor) (n : Nat) : (s.waitLanes ls x n).dieMap = s.dieMap := rfl
@[simp] theorem waitLanes_ctxs (ls : List Nat) (x : WaitFor) (n : Nat) : (s.waitLanes ls x n).ctxs = s.ctxs := rfl
@[simp] theorem waitLanes_launches (ls : List Nat) (x : WaitFor) (n : Nat) : (s.waitLanes ls x n).launches = s.launches := rfl
@[simp] theorem waitLanes_cores (ls : List Nat) (x : WaitFor) (n : Nat) : (s.waitLanes ls x n).cores = s.cores := rfl
@[simp] theorem waitLanes_quads (ls : List Nat) (x : WaitFor) (n : Nat) : (s.waitLanes ls x n).quads = s.quads := rfl
@[simp] theorem waitLanes_llc (ls : List Nat) (x : WaitFor) (n : Nat) : (s.waitLanes ls x n).llc = s.llc := rfl
@[simp] theorem waitLanes_reqs (ls : List Nat) (x : WaitFor) (n : Nat) : (s.waitLanes ls x n).reqs = s.reqs := rfl
@[simp] theorem waitLanes_copies (ls : List Nat) (x : WaitFor) (n : Nat) : (s.waitLanes ls x n).copies = s.copies := rfl
@[simp] theorem waitLanes_xfers (ls : List Nat) (x : WaitFor) (n : Nat) : (s.waitLanes ls x n).xfers = s.xfers := rfl
@[simp] theorem waitLanes_matOps (ls : List Nat) (x : WaitFor) (n : Nat) : (s.waitLanes ls x n).matOps = s.matOps := rfl
@[simp] theorem waitLanes_matWg (ls : List Nat) (x : WaitFor) (n : Nat) : (s.waitLanes ls x n).matWg = s.matWg := rfl
@[simp] theorem waitLanes_sfus (ls : List Nat) (x : WaitFor) (n : Nat) : (s.waitLanes ls x n).sfus = s.sfus := rfl
@[simp] theorem waitLanes_flights (ls : List Nat) (x : WaitFor) (n : Nat) : (s.waitLanes ls x n).flights = s.flights := rfl
@[simp] theorem waitLanes_netBars (ls : List Nat) (x : WaitFor) (n : Nat) : (s.waitLanes ls x n).netBars = s.netBars := rfl
@[simp] theorem waitLanes_groups (ls : List Nat) (x : WaitFor) (n : Nat) : (s.waitLanes ls x n).groups = s.groups := rfl
@[simp] theorem waitLanes_occs (ls : List Nat) (x : WaitFor) (n : Nat) : (s.waitLanes ls x n).occs = s.occs := rfl
@[simp] theorem waitLanes_thermal (ls : List Nat) (x : WaitFor) (n : Nat) : (s.waitLanes ls x n).thermal = s.thermal := rfl
@[simp] theorem waitLanes_slack (ls : List Nat) (x : WaitFor) (n : Nat) : (s.waitLanes ls x n).slack = s.slack := rfl
@[simp] theorem waitLanes_audit (ls : List Nat) (x : WaitFor) (n : Nat) : (s.waitLanes ls x n).audit = s.audit := rfl
@[simp] theorem waitLanes_auditPart (ls : List Nat) (x : WaitFor) (n : Nat) : (s.waitLanes ls x n).auditPart = s.auditPart := rfl
@[simp] theorem waitLanes_auditSigned (ls : List Nat) (x : WaitFor) (n : Nat) : (s.waitLanes ls x n).auditSigned = s.auditSigned := rfl
@[simp] theorem waitLanes_signals (ls : List Nat) (x : WaitFor) (n : Nat) : (s.waitLanes ls x n).signals = s.signals := rfl
@[simp] theorem waitLanes_retiredChannels (ls : List Nat) (x : WaitFor) (n : Nat) : (s.waitLanes ls x n).retiredChannels = s.retiredChannels := rfl
@[simp] theorem waitLanes_softErrors (ls : List Nat) (x : WaitFor) (n : Nat) : (s.waitLanes ls x n).softErrors = s.softErrors := rfl
@[simp] theorem waitLanes_cmds (ls : List Nat) (x : WaitFor) (n : Nat) : (s.waitLanes ls x n).cmds = s.cmds := rfl
@[simp] theorem waitLanes_tag (ls : List Nat) (x : WaitFor) (n : Nat) : (s.waitLanes ls x n).tag = s.tag := rfl
@[simp] theorem waitLanes_seq (ls : List Nat) (x : WaitFor) (n : Nat) : (s.waitLanes ls x n).seq = s.seq := rfl
@[simp] theorem waitLanes_sched (ls : List Nat) (x : WaitFor) (n : Nat) : (s.waitLanes ls x n).sched = s.sched := rfl
@[simp] theorem waitLanes_ticks (ls : List Nat) (x : WaitFor) (n : Nat) : (s.waitLanes ls x n).ticks = s.ticks := rfl
@[simp] theorem waitLanes_paths (ls : List Nat) (x : WaitFor) (n : Nat) : (s.waitLanes ls x n).paths = s.paths := rfl
@[simp] theorem waitLanes_choices (ls : List Nat) (x : WaitFor) (n : Nat) : (s.waitLanes ls x n).choices = s.choices := rfl
@[simp] theorem waitLanes_free (ls : List Nat) (x : WaitFor) (n : Nat) : (s.waitLanes ls x n).free = s.free := rfl
@[simp] theorem waitLanes_curWg (ls : List Nat) (x : WaitFor) (n : Nat) : (s.waitLanes ls x n).curWg = s.curWg := rfl
@[simp] theorem waitLanes_curWarp (ls : List Nat) (x : WaitFor) (n : Nat) : (s.waitLanes ls x n).curWarp = s.curWarp := rfl
@[simp] theorem waitLanes_curMask (ls : List Nat) (x : WaitFor) (n : Nat) : (s.waitLanes ls x n).curMask = s.curMask := rfl

@[simp] theorem finishLanes_pkg (k w : Nat) (ls : List Nat) : (s.finishLanes k w ls).pkg = s.pkg := rfl
@[simp] theorem finishLanes_cyc (k w : Nat) (ls : List Nat) : (s.finishLanes k w ls).cyc = s.cyc := rfl
@[simp] theorem finishLanes_ptimeNs (k w : Nat) (ls : List Nat) : (s.finishLanes k w ls).ptimeNs = s.ptimeNs := rfl
@[simp] theorem finishLanes_ptimeFrac (k w : Nat) (ls : List Nat) : (s.finishLanes k w ls).ptimeFrac = s.ptimeFrac := rfl
@[simp] theorem finishLanes_ptimeBehind (k w : Nat) (ls : List Nat) : (s.finishLanes k w ls).ptimeBehind = s.ptimeBehind := rfl
@[simp] theorem finishLanes_mem (k w : Nat) (ls : List Nat) : (s.finishLanes k w ls).mem = s.mem := rfl
@[simp] theorem finishLanes_badMem (k w : Nat) (ls : List Nat) : (s.finishLanes k w ls).badMem = s.badMem := rfl
@[simp] theorem finishLanes_retired (k w : Nat) (ls : List Nat) : (s.finishLanes k w ls).retired = s.retired := rfl
@[simp] theorem finishLanes_rows (k w : Nat) (ls : List Nat) : (s.finishLanes k w ls).rows = s.rows := rfl
@[simp] theorem finishLanes_late (k w : Nat) (ls : List Nat) : (s.finishLanes k w ls).late = s.late := rfl
@[simp] theorem finishLanes_chains (k w : Nat) (ls : List Nat) : (s.finishLanes k w ls).chains = s.chains := rfl
@[simp] theorem finishLanes_former (k w : Nat) (ls : List Nat) : (s.finishLanes k w ls).former = s.former := rfl
@[simp] theorem finishLanes_stale (k w : Nat) (ls : List Nat) : (s.finishLanes k w ls).stale = s.stale := rfl
@[simp] theorem finishLanes_cregs (k w : Nat) (ls : List Nat) : (s.finishLanes k w ls).cregs = s.cregs := rfl
@[simp] theorem finishLanes_busError (k w : Nat) (ls : List Nat) : (s.finishLanes k w ls).busError = s.busError := rfl
@[simp] theorem finishLanes_busAddr (k w : Nat) (ls : List Nat) : (s.finishLanes k w ls).busAddr = s.busAddr := rfl
@[simp] theorem finishLanes_routes (k w : Nat) (ls : List Nat) : (s.finishLanes k w ls).routes = s.routes := rfl
@[simp] theorem finishLanes_sent (k w : Nat) (ls : List Nat) : (s.finishLanes k w ls).sent = s.sent := rfl
@[simp] theorem finishLanes_done (k w : Nat) (ls : List Nat) : (s.finishLanes k w ls).done = s.done := rfl
@[simp] theorem finishLanes_dieMap (k w : Nat) (ls : List Nat) : (s.finishLanes k w ls).dieMap = s.dieMap := rfl
@[simp] theorem finishLanes_ctxs (k w : Nat) (ls : List Nat) : (s.finishLanes k w ls).ctxs = s.ctxs := rfl
@[simp] theorem finishLanes_launches (k w : Nat) (ls : List Nat) : (s.finishLanes k w ls).launches = s.launches := rfl
@[simp] theorem finishLanes_cores (k w : Nat) (ls : List Nat) : (s.finishLanes k w ls).cores = s.cores := rfl
@[simp] theorem finishLanes_quads (k w : Nat) (ls : List Nat) : (s.finishLanes k w ls).quads = s.quads := rfl
@[simp] theorem finishLanes_llc (k w : Nat) (ls : List Nat) : (s.finishLanes k w ls).llc = s.llc := rfl
@[simp] theorem finishLanes_reqs (k w : Nat) (ls : List Nat) : (s.finishLanes k w ls).reqs = s.reqs := rfl
@[simp] theorem finishLanes_copies (k w : Nat) (ls : List Nat) : (s.finishLanes k w ls).copies = s.copies := rfl
@[simp] theorem finishLanes_xfers (k w : Nat) (ls : List Nat) : (s.finishLanes k w ls).xfers = s.xfers := rfl
@[simp] theorem finishLanes_matOps (k w : Nat) (ls : List Nat) : (s.finishLanes k w ls).matOps = s.matOps := rfl
@[simp] theorem finishLanes_matWg (k w : Nat) (ls : List Nat) : (s.finishLanes k w ls).matWg = s.matWg := rfl
@[simp] theorem finishLanes_sfus (k w : Nat) (ls : List Nat) : (s.finishLanes k w ls).sfus = s.sfus := rfl
@[simp] theorem finishLanes_flights (k w : Nat) (ls : List Nat) : (s.finishLanes k w ls).flights = s.flights := rfl
@[simp] theorem finishLanes_netBars (k w : Nat) (ls : List Nat) : (s.finishLanes k w ls).netBars = s.netBars := rfl
@[simp] theorem finishLanes_groups (k w : Nat) (ls : List Nat) : (s.finishLanes k w ls).groups = s.groups := rfl
@[simp] theorem finishLanes_occs (k w : Nat) (ls : List Nat) : (s.finishLanes k w ls).occs = s.occs := rfl
@[simp] theorem finishLanes_thermal (k w : Nat) (ls : List Nat) : (s.finishLanes k w ls).thermal = s.thermal := rfl
@[simp] theorem finishLanes_slack (k w : Nat) (ls : List Nat) : (s.finishLanes k w ls).slack = s.slack := rfl
@[simp] theorem finishLanes_audit (k w : Nat) (ls : List Nat) : (s.finishLanes k w ls).audit = s.audit := rfl
@[simp] theorem finishLanes_auditPart (k w : Nat) (ls : List Nat) : (s.finishLanes k w ls).auditPart = s.auditPart := rfl
@[simp] theorem finishLanes_auditSigned (k w : Nat) (ls : List Nat) : (s.finishLanes k w ls).auditSigned = s.auditSigned := rfl
@[simp] theorem finishLanes_signals (k w : Nat) (ls : List Nat) : (s.finishLanes k w ls).signals = s.signals := rfl
@[simp] theorem finishLanes_retiredChannels (k w : Nat) (ls : List Nat) : (s.finishLanes k w ls).retiredChannels = s.retiredChannels := rfl
@[simp] theorem finishLanes_softErrors (k w : Nat) (ls : List Nat) : (s.finishLanes k w ls).softErrors = s.softErrors := rfl
@[simp] theorem finishLanes_cmds (k w : Nat) (ls : List Nat) : (s.finishLanes k w ls).cmds = s.cmds := rfl
@[simp] theorem finishLanes_tag (k w : Nat) (ls : List Nat) : (s.finishLanes k w ls).tag = s.tag := rfl
@[simp] theorem finishLanes_seq (k w : Nat) (ls : List Nat) : (s.finishLanes k w ls).seq = s.seq := rfl
@[simp] theorem finishLanes_sched (k w : Nat) (ls : List Nat) : (s.finishLanes k w ls).sched = s.sched := rfl
@[simp] theorem finishLanes_ticks (k w : Nat) (ls : List Nat) : (s.finishLanes k w ls).ticks = s.ticks := rfl
@[simp] theorem finishLanes_paths (k w : Nat) (ls : List Nat) : (s.finishLanes k w ls).paths = s.paths := rfl
@[simp] theorem finishLanes_choices (k w : Nat) (ls : List Nat) : (s.finishLanes k w ls).choices = s.choices := rfl
@[simp] theorem finishLanes_free (k w : Nat) (ls : List Nat) : (s.finishLanes k w ls).free = s.free := rfl
@[simp] theorem finishLanes_curWg (k w : Nat) (ls : List Nat) : (s.finishLanes k w ls).curWg = s.curWg := rfl
@[simp] theorem finishLanes_curWarp (k w : Nat) (ls : List Nat) : (s.finishLanes k w ls).curWarp = s.curWarp := rfl
@[simp] theorem finishLanes_curMask (k w : Nat) (ls : List Nat) : (s.finishLanes k w ls).curMask = s.curMask := rfl

@[simp] theorem charge_pkg (f : Fields) : (s.charge f).pkg = s.pkg := rfl
@[simp] theorem charge_cyc (f : Fields) : (s.charge f).cyc = s.cyc := rfl
@[simp] theorem charge_ptimeNs (f : Fields) : (s.charge f).ptimeNs = s.ptimeNs := rfl
@[simp] theorem charge_ptimeFrac (f : Fields) : (s.charge f).ptimeFrac = s.ptimeFrac := rfl
@[simp] theorem charge_ptimeBehind (f : Fields) : (s.charge f).ptimeBehind = s.ptimeBehind := rfl
@[simp] theorem charge_mem (f : Fields) : (s.charge f).mem = s.mem := rfl
@[simp] theorem charge_badMem (f : Fields) : (s.charge f).badMem = s.badMem := rfl
@[simp] theorem charge_retired (f : Fields) : (s.charge f).retired = s.retired := rfl
@[simp] theorem charge_rows (f : Fields) : (s.charge f).rows = s.rows := rfl
@[simp] theorem charge_late (f : Fields) : (s.charge f).late = s.late := rfl
@[simp] theorem charge_chains (f : Fields) : (s.charge f).chains = s.chains := rfl
@[simp] theorem charge_former (f : Fields) : (s.charge f).former = s.former := rfl
@[simp] theorem charge_stale (f : Fields) : (s.charge f).stale = s.stale := rfl
@[simp] theorem charge_cregs (f : Fields) : (s.charge f).cregs = s.cregs := rfl
@[simp] theorem charge_busError (f : Fields) : (s.charge f).busError = s.busError := rfl
@[simp] theorem charge_busAddr (f : Fields) : (s.charge f).busAddr = s.busAddr := rfl
@[simp] theorem charge_routes (f : Fields) : (s.charge f).routes = s.routes := rfl
@[simp] theorem charge_sent (f : Fields) : (s.charge f).sent = s.sent := rfl
@[simp] theorem charge_done (f : Fields) : (s.charge f).done = s.done := rfl
@[simp] theorem charge_dieMap (f : Fields) : (s.charge f).dieMap = s.dieMap := rfl
@[simp] theorem charge_ctxs (f : Fields) : (s.charge f).ctxs = s.ctxs := rfl
@[simp] theorem charge_launches (f : Fields) : (s.charge f).launches = s.launches := rfl
@[simp] theorem charge_cores (f : Fields) : (s.charge f).cores = s.cores := rfl
@[simp] theorem charge_quads (f : Fields) : (s.charge f).quads = s.quads := rfl
@[simp] theorem charge_llc (f : Fields) : (s.charge f).llc = s.llc := rfl
@[simp] theorem charge_reqs (f : Fields) : (s.charge f).reqs = s.reqs := rfl
@[simp] theorem charge_copies (f : Fields) : (s.charge f).copies = s.copies := rfl
@[simp] theorem charge_xfers (f : Fields) : (s.charge f).xfers = s.xfers := rfl
@[simp] theorem charge_matOps (f : Fields) : (s.charge f).matOps = s.matOps := rfl
@[simp] theorem charge_matWg (f : Fields) : (s.charge f).matWg = s.matWg := rfl
@[simp] theorem charge_sfus (f : Fields) : (s.charge f).sfus = s.sfus := rfl
@[simp] theorem charge_flights (f : Fields) : (s.charge f).flights = s.flights := rfl
@[simp] theorem charge_netBars (f : Fields) : (s.charge f).netBars = s.netBars := rfl
@[simp] theorem charge_groups (f : Fields) : (s.charge f).groups = s.groups := rfl
@[simp] theorem charge_occs (f : Fields) : (s.charge f).occs = s.occs := rfl
@[simp] theorem charge_thermal (f : Fields) : (s.charge f).thermal = s.thermal := rfl
@[simp] theorem charge_slack (f : Fields) : (s.charge f).slack = s.slack := rfl
@[simp] theorem charge_audit (f : Fields) : (s.charge f).audit = s.audit := rfl
@[simp] theorem charge_auditPart (f : Fields) : (s.charge f).auditPart = s.auditPart := rfl
@[simp] theorem charge_auditSigned (f : Fields) : (s.charge f).auditSigned = s.auditSigned := rfl
@[simp] theorem charge_signals (f : Fields) : (s.charge f).signals = s.signals := rfl
@[simp] theorem charge_retiredChannels (f : Fields) : (s.charge f).retiredChannels = s.retiredChannels := rfl
@[simp] theorem charge_softErrors (f : Fields) : (s.charge f).softErrors = s.softErrors := rfl
@[simp] theorem charge_cmds (f : Fields) : (s.charge f).cmds = s.cmds := rfl
@[simp] theorem charge_tag (f : Fields) : (s.charge f).tag = s.tag := rfl
@[simp] theorem charge_seq (f : Fields) : (s.charge f).seq = s.seq := rfl
@[simp] theorem charge_sched (f : Fields) : (s.charge f).sched = s.sched := rfl
@[simp] theorem charge_ticks (f : Fields) : (s.charge f).ticks = s.ticks := rfl
@[simp] theorem charge_paths (f : Fields) : (s.charge f).paths = s.paths := rfl
@[simp] theorem charge_choices (f : Fields) : (s.charge f).choices = s.choices := rfl
@[simp] theorem charge_free (f : Fields) : (s.charge f).free = s.free := rfl
@[simp] theorem charge_curWg (f : Fields) : (s.charge f).curWg = s.curWg := rfl
@[simp] theorem charge_curWarp (f : Fields) : (s.charge f).curWarp = s.curWarp := rfl
@[simp] theorem charge_curMask (f : Fields) : (s.charge f).curMask = s.curMask := rfl

@[simp] theorem addTrap_pkg (k w : Nat) (t : Trap) : (s.addTrap k w t).pkg = s.pkg := rfl
@[simp] theorem addTrap_cyc (k w : Nat) (t : Trap) : (s.addTrap k w t).cyc = s.cyc := rfl
@[simp] theorem addTrap_ptimeNs (k w : Nat) (t : Trap) : (s.addTrap k w t).ptimeNs = s.ptimeNs := rfl
@[simp] theorem addTrap_ptimeFrac (k w : Nat) (t : Trap) : (s.addTrap k w t).ptimeFrac = s.ptimeFrac := rfl
@[simp] theorem addTrap_ptimeBehind (k w : Nat) (t : Trap) : (s.addTrap k w t).ptimeBehind = s.ptimeBehind := rfl
@[simp] theorem addTrap_mem (k w : Nat) (t : Trap) : (s.addTrap k w t).mem = s.mem := rfl
@[simp] theorem addTrap_badMem (k w : Nat) (t : Trap) : (s.addTrap k w t).badMem = s.badMem := rfl
@[simp] theorem addTrap_retired (k w : Nat) (t : Trap) : (s.addTrap k w t).retired = s.retired := rfl
@[simp] theorem addTrap_rows (k w : Nat) (t : Trap) : (s.addTrap k w t).rows = s.rows := rfl
@[simp] theorem addTrap_late (k w : Nat) (t : Trap) : (s.addTrap k w t).late = s.late := rfl
@[simp] theorem addTrap_chains (k w : Nat) (t : Trap) : (s.addTrap k w t).chains = s.chains := rfl
@[simp] theorem addTrap_former (k w : Nat) (t : Trap) : (s.addTrap k w t).former = s.former := rfl
@[simp] theorem addTrap_stale (k w : Nat) (t : Trap) : (s.addTrap k w t).stale = s.stale := rfl
@[simp] theorem addTrap_cregs (k w : Nat) (t : Trap) : (s.addTrap k w t).cregs = s.cregs := rfl
@[simp] theorem addTrap_busError (k w : Nat) (t : Trap) : (s.addTrap k w t).busError = s.busError := rfl
@[simp] theorem addTrap_busAddr (k w : Nat) (t : Trap) : (s.addTrap k w t).busAddr = s.busAddr := rfl
@[simp] theorem addTrap_routes (k w : Nat) (t : Trap) : (s.addTrap k w t).routes = s.routes := rfl
@[simp] theorem addTrap_sent (k w : Nat) (t : Trap) : (s.addTrap k w t).sent = s.sent := rfl
@[simp] theorem addTrap_done (k w : Nat) (t : Trap) : (s.addTrap k w t).done = s.done := rfl
@[simp] theorem addTrap_dieMap (k w : Nat) (t : Trap) : (s.addTrap k w t).dieMap = s.dieMap := rfl
@[simp] theorem addTrap_ctxs (k w : Nat) (t : Trap) : (s.addTrap k w t).ctxs = s.ctxs := rfl
@[simp] theorem addTrap_launches (k w : Nat) (t : Trap) : (s.addTrap k w t).launches = s.launches := rfl
@[simp] theorem addTrap_cores (k w : Nat) (t : Trap) : (s.addTrap k w t).cores = s.cores := rfl
@[simp] theorem addTrap_quads (k w : Nat) (t : Trap) : (s.addTrap k w t).quads = s.quads := rfl
@[simp] theorem addTrap_llc (k w : Nat) (t : Trap) : (s.addTrap k w t).llc = s.llc := rfl
@[simp] theorem addTrap_reqs (k w : Nat) (t : Trap) : (s.addTrap k w t).reqs = s.reqs := rfl
@[simp] theorem addTrap_copies (k w : Nat) (t : Trap) : (s.addTrap k w t).copies = s.copies := rfl
@[simp] theorem addTrap_xfers (k w : Nat) (t : Trap) : (s.addTrap k w t).xfers = s.xfers := rfl
@[simp] theorem addTrap_matOps (k w : Nat) (t : Trap) : (s.addTrap k w t).matOps = s.matOps := rfl
@[simp] theorem addTrap_matWg (k w : Nat) (t : Trap) : (s.addTrap k w t).matWg = s.matWg := rfl
@[simp] theorem addTrap_sfus (k w : Nat) (t : Trap) : (s.addTrap k w t).sfus = s.sfus := rfl
@[simp] theorem addTrap_flights (k w : Nat) (t : Trap) : (s.addTrap k w t).flights = s.flights := rfl
@[simp] theorem addTrap_netBars (k w : Nat) (t : Trap) : (s.addTrap k w t).netBars = s.netBars := rfl
@[simp] theorem addTrap_groups (k w : Nat) (t : Trap) : (s.addTrap k w t).groups = s.groups := rfl
@[simp] theorem addTrap_occs (k w : Nat) (t : Trap) : (s.addTrap k w t).occs = s.occs := rfl
@[simp] theorem addTrap_thermal (k w : Nat) (t : Trap) : (s.addTrap k w t).thermal = s.thermal := rfl
@[simp] theorem addTrap_slack (k w : Nat) (t : Trap) : (s.addTrap k w t).slack = s.slack := rfl
@[simp] theorem addTrap_audit (k w : Nat) (t : Trap) : (s.addTrap k w t).audit = s.audit := rfl
@[simp] theorem addTrap_auditPart (k w : Nat) (t : Trap) : (s.addTrap k w t).auditPart = s.auditPart := rfl
@[simp] theorem addTrap_auditSigned (k w : Nat) (t : Trap) : (s.addTrap k w t).auditSigned = s.auditSigned := rfl
@[simp] theorem addTrap_signals (k w : Nat) (t : Trap) : (s.addTrap k w t).signals = s.signals := rfl
@[simp] theorem addTrap_retiredChannels (k w : Nat) (t : Trap) : (s.addTrap k w t).retiredChannels = s.retiredChannels := rfl
@[simp] theorem addTrap_softErrors (k w : Nat) (t : Trap) : (s.addTrap k w t).softErrors = s.softErrors := rfl
@[simp] theorem addTrap_cmds (k w : Nat) (t : Trap) : (s.addTrap k w t).cmds = s.cmds := rfl
@[simp] theorem addTrap_tag (k w : Nat) (t : Trap) : (s.addTrap k w t).tag = s.tag := rfl
@[simp] theorem addTrap_seq (k w : Nat) (t : Trap) : (s.addTrap k w t).seq = s.seq := rfl
@[simp] theorem addTrap_sched (k w : Nat) (t : Trap) : (s.addTrap k w t).sched = s.sched := rfl
@[simp] theorem addTrap_ticks (k w : Nat) (t : Trap) : (s.addTrap k w t).ticks = s.ticks := rfl
@[simp] theorem addTrap_paths (k w : Nat) (t : Trap) : (s.addTrap k w t).paths = s.paths := rfl
@[simp] theorem addTrap_choices (k w : Nat) (t : Trap) : (s.addTrap k w t).choices = s.choices := rfl
@[simp] theorem addTrap_free (k w : Nat) (t : Trap) : (s.addTrap k w t).free = s.free := rfl
@[simp] theorem addTrap_curWg (k w : Nat) (t : Trap) : (s.addTrap k w t).curWg = s.curWg := rfl
@[simp] theorem addTrap_curWarp (k w : Nat) (t : Trap) : (s.addTrap k w t).curWarp = s.curWarp := rfl
@[simp] theorem addTrap_curMask (k w : Nat) (t : Trap) : (s.addTrap k w t).curMask = s.curMask := rfl

@[simp] theorem updCore_pkg (c : Nat) (g : Core → Core) : (s.updCore c g).pkg = s.pkg := rfl
@[simp] theorem updCore_cyc (c : Nat) (g : Core → Core) : (s.updCore c g).cyc = s.cyc := rfl
@[simp] theorem updCore_ptimeNs (c : Nat) (g : Core → Core) : (s.updCore c g).ptimeNs = s.ptimeNs := rfl
@[simp] theorem updCore_ptimeFrac (c : Nat) (g : Core → Core) : (s.updCore c g).ptimeFrac = s.ptimeFrac := rfl
@[simp] theorem updCore_ptimeBehind (c : Nat) (g : Core → Core) : (s.updCore c g).ptimeBehind = s.ptimeBehind := rfl
@[simp] theorem updCore_mem (c : Nat) (g : Core → Core) : (s.updCore c g).mem = s.mem := rfl
@[simp] theorem updCore_badMem (c : Nat) (g : Core → Core) : (s.updCore c g).badMem = s.badMem := rfl
@[simp] theorem updCore_retired (c : Nat) (g : Core → Core) : (s.updCore c g).retired = s.retired := rfl
@[simp] theorem updCore_rows (c : Nat) (g : Core → Core) : (s.updCore c g).rows = s.rows := rfl
@[simp] theorem updCore_late (c : Nat) (g : Core → Core) : (s.updCore c g).late = s.late := rfl
@[simp] theorem updCore_chains (c : Nat) (g : Core → Core) : (s.updCore c g).chains = s.chains := rfl
@[simp] theorem updCore_former (c : Nat) (g : Core → Core) : (s.updCore c g).former = s.former := rfl
@[simp] theorem updCore_stale (c : Nat) (g : Core → Core) : (s.updCore c g).stale = s.stale := rfl
@[simp] theorem updCore_cregs (c : Nat) (g : Core → Core) : (s.updCore c g).cregs = s.cregs := rfl
@[simp] theorem updCore_busError (c : Nat) (g : Core → Core) : (s.updCore c g).busError = s.busError := rfl
@[simp] theorem updCore_busAddr (c : Nat) (g : Core → Core) : (s.updCore c g).busAddr = s.busAddr := rfl
@[simp] theorem updCore_routes (c : Nat) (g : Core → Core) : (s.updCore c g).routes = s.routes := rfl
@[simp] theorem updCore_sent (c : Nat) (g : Core → Core) : (s.updCore c g).sent = s.sent := rfl
@[simp] theorem updCore_done (c : Nat) (g : Core → Core) : (s.updCore c g).done = s.done := rfl
@[simp] theorem updCore_dieMap (c : Nat) (g : Core → Core) : (s.updCore c g).dieMap = s.dieMap := rfl
@[simp] theorem updCore_ctxs (c : Nat) (g : Core → Core) : (s.updCore c g).ctxs = s.ctxs := rfl
@[simp] theorem updCore_launches (c : Nat) (g : Core → Core) : (s.updCore c g).launches = s.launches := rfl
@[simp] theorem updCore_wgs (c : Nat) (g : Core → Core) : (s.updCore c g).wgs = s.wgs := rfl
@[simp] theorem updCore_quads (c : Nat) (g : Core → Core) : (s.updCore c g).quads = s.quads := rfl
@[simp] theorem updCore_llc (c : Nat) (g : Core → Core) : (s.updCore c g).llc = s.llc := rfl
@[simp] theorem updCore_reqs (c : Nat) (g : Core → Core) : (s.updCore c g).reqs = s.reqs := rfl
@[simp] theorem updCore_copies (c : Nat) (g : Core → Core) : (s.updCore c g).copies = s.copies := rfl
@[simp] theorem updCore_xfers (c : Nat) (g : Core → Core) : (s.updCore c g).xfers = s.xfers := rfl
@[simp] theorem updCore_matOps (c : Nat) (g : Core → Core) : (s.updCore c g).matOps = s.matOps := rfl
@[simp] theorem updCore_matWg (c : Nat) (g : Core → Core) : (s.updCore c g).matWg = s.matWg := rfl
@[simp] theorem updCore_sfus (c : Nat) (g : Core → Core) : (s.updCore c g).sfus = s.sfus := rfl
@[simp] theorem updCore_flights (c : Nat) (g : Core → Core) : (s.updCore c g).flights = s.flights := rfl
@[simp] theorem updCore_netBars (c : Nat) (g : Core → Core) : (s.updCore c g).netBars = s.netBars := rfl
@[simp] theorem updCore_groups (c : Nat) (g : Core → Core) : (s.updCore c g).groups = s.groups := rfl
@[simp] theorem updCore_occs (c : Nat) (g : Core → Core) : (s.updCore c g).occs = s.occs := rfl
@[simp] theorem updCore_thermal (c : Nat) (g : Core → Core) : (s.updCore c g).thermal = s.thermal := rfl
@[simp] theorem updCore_slack (c : Nat) (g : Core → Core) : (s.updCore c g).slack = s.slack := rfl
@[simp] theorem updCore_audit (c : Nat) (g : Core → Core) : (s.updCore c g).audit = s.audit := rfl
@[simp] theorem updCore_auditPart (c : Nat) (g : Core → Core) : (s.updCore c g).auditPart = s.auditPart := rfl
@[simp] theorem updCore_auditSigned (c : Nat) (g : Core → Core) : (s.updCore c g).auditSigned = s.auditSigned := rfl
@[simp] theorem updCore_signals (c : Nat) (g : Core → Core) : (s.updCore c g).signals = s.signals := rfl
@[simp] theorem updCore_retiredChannels (c : Nat) (g : Core → Core) : (s.updCore c g).retiredChannels = s.retiredChannels := rfl
@[simp] theorem updCore_softErrors (c : Nat) (g : Core → Core) : (s.updCore c g).softErrors = s.softErrors := rfl
@[simp] theorem updCore_cmds (c : Nat) (g : Core → Core) : (s.updCore c g).cmds = s.cmds := rfl
@[simp] theorem updCore_tag (c : Nat) (g : Core → Core) : (s.updCore c g).tag = s.tag := rfl
@[simp] theorem updCore_seq (c : Nat) (g : Core → Core) : (s.updCore c g).seq = s.seq := rfl
@[simp] theorem updCore_sched (c : Nat) (g : Core → Core) : (s.updCore c g).sched = s.sched := rfl
@[simp] theorem updCore_ticks (c : Nat) (g : Core → Core) : (s.updCore c g).ticks = s.ticks := rfl
@[simp] theorem updCore_paths (c : Nat) (g : Core → Core) : (s.updCore c g).paths = s.paths := rfl
@[simp] theorem updCore_choices (c : Nat) (g : Core → Core) : (s.updCore c g).choices = s.choices := rfl
@[simp] theorem updCore_free (c : Nat) (g : Core → Core) : (s.updCore c g).free = s.free := rfl
@[simp] theorem updCore_curWg (c : Nat) (g : Core → Core) : (s.updCore c g).curWg = s.curWg := rfl
@[simp] theorem updCore_curWarp (c : Nat) (g : Core → Core) : (s.updCore c g).curWarp = s.curWarp := rfl
@[simp] theorem updCore_curMask (c : Nat) (g : Core → Core) : (s.updCore c g).curMask = s.curMask := rfl

@[simp] theorem updQuad_pkg (c : Nat) (g : Quad → Quad) : (s.updQuad c g).pkg = s.pkg := rfl
@[simp] theorem updQuad_cyc (c : Nat) (g : Quad → Quad) : (s.updQuad c g).cyc = s.cyc := rfl
@[simp] theorem updQuad_ptimeNs (c : Nat) (g : Quad → Quad) : (s.updQuad c g).ptimeNs = s.ptimeNs := rfl
@[simp] theorem updQuad_ptimeFrac (c : Nat) (g : Quad → Quad) : (s.updQuad c g).ptimeFrac = s.ptimeFrac := rfl
@[simp] theorem updQuad_ptimeBehind (c : Nat) (g : Quad → Quad) : (s.updQuad c g).ptimeBehind = s.ptimeBehind := rfl
@[simp] theorem updQuad_mem (c : Nat) (g : Quad → Quad) : (s.updQuad c g).mem = s.mem := rfl
@[simp] theorem updQuad_badMem (c : Nat) (g : Quad → Quad) : (s.updQuad c g).badMem = s.badMem := rfl
@[simp] theorem updQuad_retired (c : Nat) (g : Quad → Quad) : (s.updQuad c g).retired = s.retired := rfl
@[simp] theorem updQuad_rows (c : Nat) (g : Quad → Quad) : (s.updQuad c g).rows = s.rows := rfl
@[simp] theorem updQuad_late (c : Nat) (g : Quad → Quad) : (s.updQuad c g).late = s.late := rfl
@[simp] theorem updQuad_chains (c : Nat) (g : Quad → Quad) : (s.updQuad c g).chains = s.chains := rfl
@[simp] theorem updQuad_former (c : Nat) (g : Quad → Quad) : (s.updQuad c g).former = s.former := rfl
@[simp] theorem updQuad_stale (c : Nat) (g : Quad → Quad) : (s.updQuad c g).stale = s.stale := rfl
@[simp] theorem updQuad_cregs (c : Nat) (g : Quad → Quad) : (s.updQuad c g).cregs = s.cregs := rfl
@[simp] theorem updQuad_busError (c : Nat) (g : Quad → Quad) : (s.updQuad c g).busError = s.busError := rfl
@[simp] theorem updQuad_busAddr (c : Nat) (g : Quad → Quad) : (s.updQuad c g).busAddr = s.busAddr := rfl
@[simp] theorem updQuad_routes (c : Nat) (g : Quad → Quad) : (s.updQuad c g).routes = s.routes := rfl
@[simp] theorem updQuad_sent (c : Nat) (g : Quad → Quad) : (s.updQuad c g).sent = s.sent := rfl
@[simp] theorem updQuad_done (c : Nat) (g : Quad → Quad) : (s.updQuad c g).done = s.done := rfl
@[simp] theorem updQuad_dieMap (c : Nat) (g : Quad → Quad) : (s.updQuad c g).dieMap = s.dieMap := rfl
@[simp] theorem updQuad_ctxs (c : Nat) (g : Quad → Quad) : (s.updQuad c g).ctxs = s.ctxs := rfl
@[simp] theorem updQuad_launches (c : Nat) (g : Quad → Quad) : (s.updQuad c g).launches = s.launches := rfl
@[simp] theorem updQuad_wgs (c : Nat) (g : Quad → Quad) : (s.updQuad c g).wgs = s.wgs := rfl
@[simp] theorem updQuad_cores (c : Nat) (g : Quad → Quad) : (s.updQuad c g).cores = s.cores := rfl
@[simp] theorem updQuad_llc (c : Nat) (g : Quad → Quad) : (s.updQuad c g).llc = s.llc := rfl
@[simp] theorem updQuad_reqs (c : Nat) (g : Quad → Quad) : (s.updQuad c g).reqs = s.reqs := rfl
@[simp] theorem updQuad_copies (c : Nat) (g : Quad → Quad) : (s.updQuad c g).copies = s.copies := rfl
@[simp] theorem updQuad_xfers (c : Nat) (g : Quad → Quad) : (s.updQuad c g).xfers = s.xfers := rfl
@[simp] theorem updQuad_matOps (c : Nat) (g : Quad → Quad) : (s.updQuad c g).matOps = s.matOps := rfl
@[simp] theorem updQuad_matWg (c : Nat) (g : Quad → Quad) : (s.updQuad c g).matWg = s.matWg := rfl
@[simp] theorem updQuad_sfus (c : Nat) (g : Quad → Quad) : (s.updQuad c g).sfus = s.sfus := rfl
@[simp] theorem updQuad_flights (c : Nat) (g : Quad → Quad) : (s.updQuad c g).flights = s.flights := rfl
@[simp] theorem updQuad_netBars (c : Nat) (g : Quad → Quad) : (s.updQuad c g).netBars = s.netBars := rfl
@[simp] theorem updQuad_groups (c : Nat) (g : Quad → Quad) : (s.updQuad c g).groups = s.groups := rfl
@[simp] theorem updQuad_occs (c : Nat) (g : Quad → Quad) : (s.updQuad c g).occs = s.occs := rfl
@[simp] theorem updQuad_thermal (c : Nat) (g : Quad → Quad) : (s.updQuad c g).thermal = s.thermal := rfl
@[simp] theorem updQuad_slack (c : Nat) (g : Quad → Quad) : (s.updQuad c g).slack = s.slack := rfl
@[simp] theorem updQuad_audit (c : Nat) (g : Quad → Quad) : (s.updQuad c g).audit = s.audit := rfl
@[simp] theorem updQuad_auditPart (c : Nat) (g : Quad → Quad) : (s.updQuad c g).auditPart = s.auditPart := rfl
@[simp] theorem updQuad_auditSigned (c : Nat) (g : Quad → Quad) : (s.updQuad c g).auditSigned = s.auditSigned := rfl
@[simp] theorem updQuad_signals (c : Nat) (g : Quad → Quad) : (s.updQuad c g).signals = s.signals := rfl
@[simp] theorem updQuad_retiredChannels (c : Nat) (g : Quad → Quad) : (s.updQuad c g).retiredChannels = s.retiredChannels := rfl
@[simp] theorem updQuad_softErrors (c : Nat) (g : Quad → Quad) : (s.updQuad c g).softErrors = s.softErrors := rfl
@[simp] theorem updQuad_cmds (c : Nat) (g : Quad → Quad) : (s.updQuad c g).cmds = s.cmds := rfl
@[simp] theorem updQuad_tag (c : Nat) (g : Quad → Quad) : (s.updQuad c g).tag = s.tag := rfl
@[simp] theorem updQuad_seq (c : Nat) (g : Quad → Quad) : (s.updQuad c g).seq = s.seq := rfl
@[simp] theorem updQuad_sched (c : Nat) (g : Quad → Quad) : (s.updQuad c g).sched = s.sched := rfl
@[simp] theorem updQuad_ticks (c : Nat) (g : Quad → Quad) : (s.updQuad c g).ticks = s.ticks := rfl
@[simp] theorem updQuad_paths (c : Nat) (g : Quad → Quad) : (s.updQuad c g).paths = s.paths := rfl
@[simp] theorem updQuad_choices (c : Nat) (g : Quad → Quad) : (s.updQuad c g).choices = s.choices := rfl
@[simp] theorem updQuad_free (c : Nat) (g : Quad → Quad) : (s.updQuad c g).free = s.free := rfl
@[simp] theorem updQuad_curWg (c : Nat) (g : Quad → Quad) : (s.updQuad c g).curWg = s.curWg := rfl
@[simp] theorem updQuad_curWarp (c : Nat) (g : Quad → Quad) : (s.updQuad c g).curWarp = s.curWarp := rfl
@[simp] theorem updQuad_curMask (c : Nat) (g : Quad → Quad) : (s.updQuad c g).curMask = s.curMask := rfl

@[simp] theorem updCtx_pkg (c : Nat) (g : Ctx → Ctx) : (s.updCtx c g).pkg = s.pkg := rfl
@[simp] theorem updCtx_cyc (c : Nat) (g : Ctx → Ctx) : (s.updCtx c g).cyc = s.cyc := rfl
@[simp] theorem updCtx_ptimeNs (c : Nat) (g : Ctx → Ctx) : (s.updCtx c g).ptimeNs = s.ptimeNs := rfl
@[simp] theorem updCtx_ptimeFrac (c : Nat) (g : Ctx → Ctx) : (s.updCtx c g).ptimeFrac = s.ptimeFrac := rfl
@[simp] theorem updCtx_ptimeBehind (c : Nat) (g : Ctx → Ctx) : (s.updCtx c g).ptimeBehind = s.ptimeBehind := rfl
@[simp] theorem updCtx_mem (c : Nat) (g : Ctx → Ctx) : (s.updCtx c g).mem = s.mem := rfl
@[simp] theorem updCtx_badMem (c : Nat) (g : Ctx → Ctx) : (s.updCtx c g).badMem = s.badMem := rfl
@[simp] theorem updCtx_retired (c : Nat) (g : Ctx → Ctx) : (s.updCtx c g).retired = s.retired := rfl
@[simp] theorem updCtx_rows (c : Nat) (g : Ctx → Ctx) : (s.updCtx c g).rows = s.rows := rfl
@[simp] theorem updCtx_late (c : Nat) (g : Ctx → Ctx) : (s.updCtx c g).late = s.late := rfl
@[simp] theorem updCtx_chains (c : Nat) (g : Ctx → Ctx) : (s.updCtx c g).chains = s.chains := rfl
@[simp] theorem updCtx_former (c : Nat) (g : Ctx → Ctx) : (s.updCtx c g).former = s.former := rfl
@[simp] theorem updCtx_stale (c : Nat) (g : Ctx → Ctx) : (s.updCtx c g).stale = s.stale := rfl
@[simp] theorem updCtx_cregs (c : Nat) (g : Ctx → Ctx) : (s.updCtx c g).cregs = s.cregs := rfl
@[simp] theorem updCtx_busError (c : Nat) (g : Ctx → Ctx) : (s.updCtx c g).busError = s.busError := rfl
@[simp] theorem updCtx_busAddr (c : Nat) (g : Ctx → Ctx) : (s.updCtx c g).busAddr = s.busAddr := rfl
@[simp] theorem updCtx_routes (c : Nat) (g : Ctx → Ctx) : (s.updCtx c g).routes = s.routes := rfl
@[simp] theorem updCtx_sent (c : Nat) (g : Ctx → Ctx) : (s.updCtx c g).sent = s.sent := rfl
@[simp] theorem updCtx_done (c : Nat) (g : Ctx → Ctx) : (s.updCtx c g).done = s.done := rfl
@[simp] theorem updCtx_dieMap (c : Nat) (g : Ctx → Ctx) : (s.updCtx c g).dieMap = s.dieMap := rfl
@[simp] theorem updCtx_launches (c : Nat) (g : Ctx → Ctx) : (s.updCtx c g).launches = s.launches := rfl
@[simp] theorem updCtx_wgs (c : Nat) (g : Ctx → Ctx) : (s.updCtx c g).wgs = s.wgs := rfl
@[simp] theorem updCtx_cores (c : Nat) (g : Ctx → Ctx) : (s.updCtx c g).cores = s.cores := rfl
@[simp] theorem updCtx_quads (c : Nat) (g : Ctx → Ctx) : (s.updCtx c g).quads = s.quads := rfl
@[simp] theorem updCtx_llc (c : Nat) (g : Ctx → Ctx) : (s.updCtx c g).llc = s.llc := rfl
@[simp] theorem updCtx_reqs (c : Nat) (g : Ctx → Ctx) : (s.updCtx c g).reqs = s.reqs := rfl
@[simp] theorem updCtx_copies (c : Nat) (g : Ctx → Ctx) : (s.updCtx c g).copies = s.copies := rfl
@[simp] theorem updCtx_xfers (c : Nat) (g : Ctx → Ctx) : (s.updCtx c g).xfers = s.xfers := rfl
@[simp] theorem updCtx_matOps (c : Nat) (g : Ctx → Ctx) : (s.updCtx c g).matOps = s.matOps := rfl
@[simp] theorem updCtx_matWg (c : Nat) (g : Ctx → Ctx) : (s.updCtx c g).matWg = s.matWg := rfl
@[simp] theorem updCtx_sfus (c : Nat) (g : Ctx → Ctx) : (s.updCtx c g).sfus = s.sfus := rfl
@[simp] theorem updCtx_flights (c : Nat) (g : Ctx → Ctx) : (s.updCtx c g).flights = s.flights := rfl
@[simp] theorem updCtx_netBars (c : Nat) (g : Ctx → Ctx) : (s.updCtx c g).netBars = s.netBars := rfl
@[simp] theorem updCtx_groups (c : Nat) (g : Ctx → Ctx) : (s.updCtx c g).groups = s.groups := rfl
@[simp] theorem updCtx_occs (c : Nat) (g : Ctx → Ctx) : (s.updCtx c g).occs = s.occs := rfl
@[simp] theorem updCtx_thermal (c : Nat) (g : Ctx → Ctx) : (s.updCtx c g).thermal = s.thermal := rfl
@[simp] theorem updCtx_slack (c : Nat) (g : Ctx → Ctx) : (s.updCtx c g).slack = s.slack := rfl
@[simp] theorem updCtx_audit (c : Nat) (g : Ctx → Ctx) : (s.updCtx c g).audit = s.audit := rfl
@[simp] theorem updCtx_auditPart (c : Nat) (g : Ctx → Ctx) : (s.updCtx c g).auditPart = s.auditPart := rfl
@[simp] theorem updCtx_auditSigned (c : Nat) (g : Ctx → Ctx) : (s.updCtx c g).auditSigned = s.auditSigned := rfl
@[simp] theorem updCtx_signals (c : Nat) (g : Ctx → Ctx) : (s.updCtx c g).signals = s.signals := rfl
@[simp] theorem updCtx_retiredChannels (c : Nat) (g : Ctx → Ctx) : (s.updCtx c g).retiredChannels = s.retiredChannels := rfl
@[simp] theorem updCtx_softErrors (c : Nat) (g : Ctx → Ctx) : (s.updCtx c g).softErrors = s.softErrors := rfl
@[simp] theorem updCtx_cmds (c : Nat) (g : Ctx → Ctx) : (s.updCtx c g).cmds = s.cmds := rfl
@[simp] theorem updCtx_tag (c : Nat) (g : Ctx → Ctx) : (s.updCtx c g).tag = s.tag := rfl
@[simp] theorem updCtx_seq (c : Nat) (g : Ctx → Ctx) : (s.updCtx c g).seq = s.seq := rfl
@[simp] theorem updCtx_sched (c : Nat) (g : Ctx → Ctx) : (s.updCtx c g).sched = s.sched := rfl
@[simp] theorem updCtx_ticks (c : Nat) (g : Ctx → Ctx) : (s.updCtx c g).ticks = s.ticks := rfl
@[simp] theorem updCtx_paths (c : Nat) (g : Ctx → Ctx) : (s.updCtx c g).paths = s.paths := rfl
@[simp] theorem updCtx_choices (c : Nat) (g : Ctx → Ctx) : (s.updCtx c g).choices = s.choices := rfl
@[simp] theorem updCtx_free (c : Nat) (g : Ctx → Ctx) : (s.updCtx c g).free = s.free := rfl
@[simp] theorem updCtx_curWg (c : Nat) (g : Ctx → Ctx) : (s.updCtx c g).curWg = s.curWg := rfl
@[simp] theorem updCtx_curWarp (c : Nat) (g : Ctx → Ctx) : (s.updCtx c g).curWarp = s.curWarp := rfl
@[simp] theorem updCtx_curMask (c : Nat) (g : Ctx → Ctx) : (s.updCtx c g).curMask = s.curMask := rfl

@[simp] theorem updLaunch_pkg (c : Nat) (g : Launch → Launch) : (s.updLaunch c g).pkg = s.pkg := rfl
@[simp] theorem updLaunch_cyc (c : Nat) (g : Launch → Launch) : (s.updLaunch c g).cyc = s.cyc := rfl
@[simp] theorem updLaunch_ptimeNs (c : Nat) (g : Launch → Launch) : (s.updLaunch c g).ptimeNs = s.ptimeNs := rfl
@[simp] theorem updLaunch_ptimeFrac (c : Nat) (g : Launch → Launch) : (s.updLaunch c g).ptimeFrac = s.ptimeFrac := rfl
@[simp] theorem updLaunch_ptimeBehind (c : Nat) (g : Launch → Launch) : (s.updLaunch c g).ptimeBehind = s.ptimeBehind := rfl
@[simp] theorem updLaunch_mem (c : Nat) (g : Launch → Launch) : (s.updLaunch c g).mem = s.mem := rfl
@[simp] theorem updLaunch_badMem (c : Nat) (g : Launch → Launch) : (s.updLaunch c g).badMem = s.badMem := rfl
@[simp] theorem updLaunch_retired (c : Nat) (g : Launch → Launch) : (s.updLaunch c g).retired = s.retired := rfl
@[simp] theorem updLaunch_rows (c : Nat) (g : Launch → Launch) : (s.updLaunch c g).rows = s.rows := rfl
@[simp] theorem updLaunch_late (c : Nat) (g : Launch → Launch) : (s.updLaunch c g).late = s.late := rfl
@[simp] theorem updLaunch_chains (c : Nat) (g : Launch → Launch) : (s.updLaunch c g).chains = s.chains := rfl
@[simp] theorem updLaunch_former (c : Nat) (g : Launch → Launch) : (s.updLaunch c g).former = s.former := rfl
@[simp] theorem updLaunch_stale (c : Nat) (g : Launch → Launch) : (s.updLaunch c g).stale = s.stale := rfl
@[simp] theorem updLaunch_cregs (c : Nat) (g : Launch → Launch) : (s.updLaunch c g).cregs = s.cregs := rfl
@[simp] theorem updLaunch_busError (c : Nat) (g : Launch → Launch) : (s.updLaunch c g).busError = s.busError := rfl
@[simp] theorem updLaunch_busAddr (c : Nat) (g : Launch → Launch) : (s.updLaunch c g).busAddr = s.busAddr := rfl
@[simp] theorem updLaunch_routes (c : Nat) (g : Launch → Launch) : (s.updLaunch c g).routes = s.routes := rfl
@[simp] theorem updLaunch_sent (c : Nat) (g : Launch → Launch) : (s.updLaunch c g).sent = s.sent := rfl
@[simp] theorem updLaunch_done (c : Nat) (g : Launch → Launch) : (s.updLaunch c g).done = s.done := rfl
@[simp] theorem updLaunch_dieMap (c : Nat) (g : Launch → Launch) : (s.updLaunch c g).dieMap = s.dieMap := rfl
@[simp] theorem updLaunch_ctxs (c : Nat) (g : Launch → Launch) : (s.updLaunch c g).ctxs = s.ctxs := rfl
@[simp] theorem updLaunch_wgs (c : Nat) (g : Launch → Launch) : (s.updLaunch c g).wgs = s.wgs := rfl
@[simp] theorem updLaunch_cores (c : Nat) (g : Launch → Launch) : (s.updLaunch c g).cores = s.cores := rfl
@[simp] theorem updLaunch_quads (c : Nat) (g : Launch → Launch) : (s.updLaunch c g).quads = s.quads := rfl
@[simp] theorem updLaunch_llc (c : Nat) (g : Launch → Launch) : (s.updLaunch c g).llc = s.llc := rfl
@[simp] theorem updLaunch_reqs (c : Nat) (g : Launch → Launch) : (s.updLaunch c g).reqs = s.reqs := rfl
@[simp] theorem updLaunch_copies (c : Nat) (g : Launch → Launch) : (s.updLaunch c g).copies = s.copies := rfl
@[simp] theorem updLaunch_xfers (c : Nat) (g : Launch → Launch) : (s.updLaunch c g).xfers = s.xfers := rfl
@[simp] theorem updLaunch_matOps (c : Nat) (g : Launch → Launch) : (s.updLaunch c g).matOps = s.matOps := rfl
@[simp] theorem updLaunch_matWg (c : Nat) (g : Launch → Launch) : (s.updLaunch c g).matWg = s.matWg := rfl
@[simp] theorem updLaunch_sfus (c : Nat) (g : Launch → Launch) : (s.updLaunch c g).sfus = s.sfus := rfl
@[simp] theorem updLaunch_flights (c : Nat) (g : Launch → Launch) : (s.updLaunch c g).flights = s.flights := rfl
@[simp] theorem updLaunch_netBars (c : Nat) (g : Launch → Launch) : (s.updLaunch c g).netBars = s.netBars := rfl
@[simp] theorem updLaunch_groups (c : Nat) (g : Launch → Launch) : (s.updLaunch c g).groups = s.groups := rfl
@[simp] theorem updLaunch_occs (c : Nat) (g : Launch → Launch) : (s.updLaunch c g).occs = s.occs := rfl
@[simp] theorem updLaunch_thermal (c : Nat) (g : Launch → Launch) : (s.updLaunch c g).thermal = s.thermal := rfl
@[simp] theorem updLaunch_slack (c : Nat) (g : Launch → Launch) : (s.updLaunch c g).slack = s.slack := rfl
@[simp] theorem updLaunch_audit (c : Nat) (g : Launch → Launch) : (s.updLaunch c g).audit = s.audit := rfl
@[simp] theorem updLaunch_auditPart (c : Nat) (g : Launch → Launch) : (s.updLaunch c g).auditPart = s.auditPart := rfl
@[simp] theorem updLaunch_auditSigned (c : Nat) (g : Launch → Launch) : (s.updLaunch c g).auditSigned = s.auditSigned := rfl
@[simp] theorem updLaunch_signals (c : Nat) (g : Launch → Launch) : (s.updLaunch c g).signals = s.signals := rfl
@[simp] theorem updLaunch_retiredChannels (c : Nat) (g : Launch → Launch) : (s.updLaunch c g).retiredChannels = s.retiredChannels := rfl
@[simp] theorem updLaunch_softErrors (c : Nat) (g : Launch → Launch) : (s.updLaunch c g).softErrors = s.softErrors := rfl
@[simp] theorem updLaunch_cmds (c : Nat) (g : Launch → Launch) : (s.updLaunch c g).cmds = s.cmds := rfl
@[simp] theorem updLaunch_tag (c : Nat) (g : Launch → Launch) : (s.updLaunch c g).tag = s.tag := rfl
@[simp] theorem updLaunch_seq (c : Nat) (g : Launch → Launch) : (s.updLaunch c g).seq = s.seq := rfl
@[simp] theorem updLaunch_sched (c : Nat) (g : Launch → Launch) : (s.updLaunch c g).sched = s.sched := rfl
@[simp] theorem updLaunch_ticks (c : Nat) (g : Launch → Launch) : (s.updLaunch c g).ticks = s.ticks := rfl
@[simp] theorem updLaunch_paths (c : Nat) (g : Launch → Launch) : (s.updLaunch c g).paths = s.paths := rfl
@[simp] theorem updLaunch_choices (c : Nat) (g : Launch → Launch) : (s.updLaunch c g).choices = s.choices := rfl
@[simp] theorem updLaunch_free (c : Nat) (g : Launch → Launch) : (s.updLaunch c g).free = s.free := rfl
@[simp] theorem updLaunch_curWg (c : Nat) (g : Launch → Launch) : (s.updLaunch c g).curWg = s.curWg := rfl
@[simp] theorem updLaunch_curWarp (c : Nat) (g : Launch → Launch) : (s.updLaunch c g).curWarp = s.curWarp := rfl
@[simp] theorem updLaunch_curMask (c : Nat) (g : Launch → Launch) : (s.updLaunch c g).curMask = s.curMask := rfl

@[simp] theorem memWrite_pkg (g n v : Nat) : (s.memWrite g n v).pkg = s.pkg := rfl
@[simp] theorem memWrite_cyc (g n v : Nat) : (s.memWrite g n v).cyc = s.cyc := rfl
@[simp] theorem memWrite_ptimeNs (g n v : Nat) : (s.memWrite g n v).ptimeNs = s.ptimeNs := rfl
@[simp] theorem memWrite_ptimeFrac (g n v : Nat) : (s.memWrite g n v).ptimeFrac = s.ptimeFrac := rfl
@[simp] theorem memWrite_ptimeBehind (g n v : Nat) : (s.memWrite g n v).ptimeBehind = s.ptimeBehind := rfl
@[simp] theorem memWrite_badMem (g n v : Nat) : (s.memWrite g n v).badMem = s.badMem := rfl
@[simp] theorem memWrite_retired (g n v : Nat) : (s.memWrite g n v).retired = s.retired := rfl
@[simp] theorem memWrite_rows (g n v : Nat) : (s.memWrite g n v).rows = s.rows := rfl
@[simp] theorem memWrite_chains (g n v : Nat) : (s.memWrite g n v).chains = s.chains := rfl
@[simp] theorem memWrite_stale (g n v : Nat) : (s.memWrite g n v).stale = s.stale := rfl
@[simp] theorem memWrite_cregs (g n v : Nat) : (s.memWrite g n v).cregs = s.cregs := rfl
@[simp] theorem memWrite_busError (g n v : Nat) : (s.memWrite g n v).busError = s.busError := rfl
@[simp] theorem memWrite_busAddr (g n v : Nat) : (s.memWrite g n v).busAddr = s.busAddr := rfl
@[simp] theorem memWrite_routes (g n v : Nat) : (s.memWrite g n v).routes = s.routes := rfl
@[simp] theorem memWrite_sent (g n v : Nat) : (s.memWrite g n v).sent = s.sent := rfl
@[simp] theorem memWrite_done (g n v : Nat) : (s.memWrite g n v).done = s.done := rfl
@[simp] theorem memWrite_dieMap (g n v : Nat) : (s.memWrite g n v).dieMap = s.dieMap := rfl
@[simp] theorem memWrite_ctxs (g n v : Nat) : (s.memWrite g n v).ctxs = s.ctxs := rfl
@[simp] theorem memWrite_launches (g n v : Nat) : (s.memWrite g n v).launches = s.launches := rfl
@[simp] theorem memWrite_wgs (g n v : Nat) : (s.memWrite g n v).wgs = s.wgs := rfl
@[simp] theorem memWrite_cores (g n v : Nat) : (s.memWrite g n v).cores = s.cores := rfl
@[simp] theorem memWrite_quads (g n v : Nat) : (s.memWrite g n v).quads = s.quads := rfl
@[simp] theorem memWrite_llc (g n v : Nat) : (s.memWrite g n v).llc = s.llc := rfl
@[simp] theorem memWrite_reqs (g n v : Nat) : (s.memWrite g n v).reqs = s.reqs := rfl
@[simp] theorem memWrite_copies (g n v : Nat) : (s.memWrite g n v).copies = s.copies := rfl
@[simp] theorem memWrite_xfers (g n v : Nat) : (s.memWrite g n v).xfers = s.xfers := rfl
@[simp] theorem memWrite_matOps (g n v : Nat) : (s.memWrite g n v).matOps = s.matOps := rfl
@[simp] theorem memWrite_matWg (g n v : Nat) : (s.memWrite g n v).matWg = s.matWg := rfl
@[simp] theorem memWrite_sfus (g n v : Nat) : (s.memWrite g n v).sfus = s.sfus := rfl
@[simp] theorem memWrite_flights (g n v : Nat) : (s.memWrite g n v).flights = s.flights := rfl
@[simp] theorem memWrite_netBars (g n v : Nat) : (s.memWrite g n v).netBars = s.netBars := rfl
@[simp] theorem memWrite_groups (g n v : Nat) : (s.memWrite g n v).groups = s.groups := rfl
@[simp] theorem memWrite_occs (g n v : Nat) : (s.memWrite g n v).occs = s.occs := rfl
@[simp] theorem memWrite_thermal (g n v : Nat) : (s.memWrite g n v).thermal = s.thermal := rfl
@[simp] theorem memWrite_slack (g n v : Nat) : (s.memWrite g n v).slack = s.slack := rfl
@[simp] theorem memWrite_audit (g n v : Nat) : (s.memWrite g n v).audit = s.audit := rfl
@[simp] theorem memWrite_auditPart (g n v : Nat) : (s.memWrite g n v).auditPart = s.auditPart := rfl
@[simp] theorem memWrite_auditSigned (g n v : Nat) : (s.memWrite g n v).auditSigned = s.auditSigned := rfl
@[simp] theorem memWrite_signals (g n v : Nat) : (s.memWrite g n v).signals = s.signals := rfl
@[simp] theorem memWrite_retiredChannels (g n v : Nat) : (s.memWrite g n v).retiredChannels = s.retiredChannels := rfl
@[simp] theorem memWrite_softErrors (g n v : Nat) : (s.memWrite g n v).softErrors = s.softErrors := rfl
@[simp] theorem memWrite_cmds (g n v : Nat) : (s.memWrite g n v).cmds = s.cmds := rfl
@[simp] theorem memWrite_tag (g n v : Nat) : (s.memWrite g n v).tag = s.tag := rfl
@[simp] theorem memWrite_seq (g n v : Nat) : (s.memWrite g n v).seq = s.seq := rfl
@[simp] theorem memWrite_sched (g n v : Nat) : (s.memWrite g n v).sched = s.sched := rfl
@[simp] theorem memWrite_ticks (g n v : Nat) : (s.memWrite g n v).ticks = s.ticks := rfl
@[simp] theorem memWrite_paths (g n v : Nat) : (s.memWrite g n v).paths = s.paths := rfl
@[simp] theorem memWrite_choices (g n v : Nat) : (s.memWrite g n v).choices = s.choices := rfl
@[simp] theorem memWrite_free (g n v : Nat) : (s.memWrite g n v).free = s.free := rfl
@[simp] theorem memWrite_curWg (g n v : Nat) : (s.memWrite g n v).curWg = s.curWg := rfl
@[simp] theorem memWrite_curWarp (g n v : Nat) : (s.memWrite g n v).curWarp = s.curWarp := rfl
@[simp] theorem memWrite_curMask (g n v : Nat) : (s.memWrite g n v).curMask = s.curMask := rfl

@[simp] theorem setCreg_pkg (off v : Nat) : (s.setCreg off v).pkg = s.pkg := rfl
@[simp] theorem setCreg_cyc (off v : Nat) : (s.setCreg off v).cyc = s.cyc := rfl
@[simp] theorem setCreg_ptimeNs (off v : Nat) : (s.setCreg off v).ptimeNs = s.ptimeNs := rfl
@[simp] theorem setCreg_ptimeFrac (off v : Nat) : (s.setCreg off v).ptimeFrac = s.ptimeFrac := rfl
@[simp] theorem setCreg_ptimeBehind (off v : Nat) : (s.setCreg off v).ptimeBehind = s.ptimeBehind := rfl
@[simp] theorem setCreg_mem (off v : Nat) : (s.setCreg off v).mem = s.mem := rfl
@[simp] theorem setCreg_badMem (off v : Nat) : (s.setCreg off v).badMem = s.badMem := rfl
@[simp] theorem setCreg_retired (off v : Nat) : (s.setCreg off v).retired = s.retired := rfl
@[simp] theorem setCreg_rows (off v : Nat) : (s.setCreg off v).rows = s.rows := rfl
@[simp] theorem setCreg_late (off v : Nat) : (s.setCreg off v).late = s.late := rfl
@[simp] theorem setCreg_chains (off v : Nat) : (s.setCreg off v).chains = s.chains := rfl
@[simp] theorem setCreg_former (off v : Nat) : (s.setCreg off v).former = s.former := rfl
@[simp] theorem setCreg_stale (off v : Nat) : (s.setCreg off v).stale = s.stale := rfl
@[simp] theorem setCreg_busError (off v : Nat) : (s.setCreg off v).busError = s.busError := rfl
@[simp] theorem setCreg_busAddr (off v : Nat) : (s.setCreg off v).busAddr = s.busAddr := rfl
@[simp] theorem setCreg_routes (off v : Nat) : (s.setCreg off v).routes = s.routes := rfl
@[simp] theorem setCreg_sent (off v : Nat) : (s.setCreg off v).sent = s.sent := rfl
@[simp] theorem setCreg_done (off v : Nat) : (s.setCreg off v).done = s.done := rfl
@[simp] theorem setCreg_dieMap (off v : Nat) : (s.setCreg off v).dieMap = s.dieMap := rfl
@[simp] theorem setCreg_ctxs (off v : Nat) : (s.setCreg off v).ctxs = s.ctxs := rfl
@[simp] theorem setCreg_launches (off v : Nat) : (s.setCreg off v).launches = s.launches := rfl
@[simp] theorem setCreg_wgs (off v : Nat) : (s.setCreg off v).wgs = s.wgs := rfl
@[simp] theorem setCreg_cores (off v : Nat) : (s.setCreg off v).cores = s.cores := rfl
@[simp] theorem setCreg_quads (off v : Nat) : (s.setCreg off v).quads = s.quads := rfl
@[simp] theorem setCreg_llc (off v : Nat) : (s.setCreg off v).llc = s.llc := rfl
@[simp] theorem setCreg_reqs (off v : Nat) : (s.setCreg off v).reqs = s.reqs := rfl
@[simp] theorem setCreg_copies (off v : Nat) : (s.setCreg off v).copies = s.copies := rfl
@[simp] theorem setCreg_xfers (off v : Nat) : (s.setCreg off v).xfers = s.xfers := rfl
@[simp] theorem setCreg_matOps (off v : Nat) : (s.setCreg off v).matOps = s.matOps := rfl
@[simp] theorem setCreg_matWg (off v : Nat) : (s.setCreg off v).matWg = s.matWg := rfl
@[simp] theorem setCreg_sfus (off v : Nat) : (s.setCreg off v).sfus = s.sfus := rfl
@[simp] theorem setCreg_flights (off v : Nat) : (s.setCreg off v).flights = s.flights := rfl
@[simp] theorem setCreg_netBars (off v : Nat) : (s.setCreg off v).netBars = s.netBars := rfl
@[simp] theorem setCreg_groups (off v : Nat) : (s.setCreg off v).groups = s.groups := rfl
@[simp] theorem setCreg_occs (off v : Nat) : (s.setCreg off v).occs = s.occs := rfl
@[simp] theorem setCreg_thermal (off v : Nat) : (s.setCreg off v).thermal = s.thermal := rfl
@[simp] theorem setCreg_slack (off v : Nat) : (s.setCreg off v).slack = s.slack := rfl
@[simp] theorem setCreg_audit (off v : Nat) : (s.setCreg off v).audit = s.audit := rfl
@[simp] theorem setCreg_auditPart (off v : Nat) : (s.setCreg off v).auditPart = s.auditPart := rfl
@[simp] theorem setCreg_auditSigned (off v : Nat) : (s.setCreg off v).auditSigned = s.auditSigned := rfl
@[simp] theorem setCreg_signals (off v : Nat) : (s.setCreg off v).signals = s.signals := rfl
@[simp] theorem setCreg_retiredChannels (off v : Nat) : (s.setCreg off v).retiredChannels = s.retiredChannels := rfl
@[simp] theorem setCreg_softErrors (off v : Nat) : (s.setCreg off v).softErrors = s.softErrors := rfl
@[simp] theorem setCreg_cmds (off v : Nat) : (s.setCreg off v).cmds = s.cmds := rfl
@[simp] theorem setCreg_tag (off v : Nat) : (s.setCreg off v).tag = s.tag := rfl
@[simp] theorem setCreg_seq (off v : Nat) : (s.setCreg off v).seq = s.seq := rfl
@[simp] theorem setCreg_sched (off v : Nat) : (s.setCreg off v).sched = s.sched := rfl
@[simp] theorem setCreg_ticks (off v : Nat) : (s.setCreg off v).ticks = s.ticks := rfl
@[simp] theorem setCreg_paths (off v : Nat) : (s.setCreg off v).paths = s.paths := rfl
@[simp] theorem setCreg_choices (off v : Nat) : (s.setCreg off v).choices = s.choices := rfl
@[simp] theorem setCreg_free (off v : Nat) : (s.setCreg off v).free = s.free := rfl
@[simp] theorem setCreg_curWg (off v : Nat) : (s.setCreg off v).curWg = s.curWg := rfl
@[simp] theorem setCreg_curWarp (off v : Nat) : (s.setCreg off v).curWarp = s.curWarp := rfl
@[simp] theorem setCreg_curMask (off v : Nat) : (s.setCreg off v).curMask = s.curMask := rfl

@[simp] theorem signal_pkg (x : Signal) : (s.signal x).pkg = s.pkg := rfl
@[simp] theorem signal_cyc (x : Signal) : (s.signal x).cyc = s.cyc := rfl
@[simp] theorem signal_ptimeNs (x : Signal) : (s.signal x).ptimeNs = s.ptimeNs := rfl
@[simp] theorem signal_ptimeFrac (x : Signal) : (s.signal x).ptimeFrac = s.ptimeFrac := rfl
@[simp] theorem signal_ptimeBehind (x : Signal) : (s.signal x).ptimeBehind = s.ptimeBehind := rfl
@[simp] theorem signal_mem (x : Signal) : (s.signal x).mem = s.mem := rfl
@[simp] theorem signal_badMem (x : Signal) : (s.signal x).badMem = s.badMem := rfl
@[simp] theorem signal_retired (x : Signal) : (s.signal x).retired = s.retired := rfl
@[simp] theorem signal_rows (x : Signal) : (s.signal x).rows = s.rows := rfl
@[simp] theorem signal_late (x : Signal) : (s.signal x).late = s.late := rfl
@[simp] theorem signal_chains (x : Signal) : (s.signal x).chains = s.chains := rfl
@[simp] theorem signal_former (x : Signal) : (s.signal x).former = s.former := rfl
@[simp] theorem signal_stale (x : Signal) : (s.signal x).stale = s.stale := rfl
@[simp] theorem signal_cregs (x : Signal) : (s.signal x).cregs = s.cregs := rfl
@[simp] theorem signal_busError (x : Signal) : (s.signal x).busError = s.busError := rfl
@[simp] theorem signal_busAddr (x : Signal) : (s.signal x).busAddr = s.busAddr := rfl
@[simp] theorem signal_routes (x : Signal) : (s.signal x).routes = s.routes := rfl
@[simp] theorem signal_sent (x : Signal) : (s.signal x).sent = s.sent := rfl
@[simp] theorem signal_done (x : Signal) : (s.signal x).done = s.done := rfl
@[simp] theorem signal_dieMap (x : Signal) : (s.signal x).dieMap = s.dieMap := rfl
@[simp] theorem signal_ctxs (x : Signal) : (s.signal x).ctxs = s.ctxs := rfl
@[simp] theorem signal_launches (x : Signal) : (s.signal x).launches = s.launches := rfl
@[simp] theorem signal_wgs (x : Signal) : (s.signal x).wgs = s.wgs := rfl
@[simp] theorem signal_cores (x : Signal) : (s.signal x).cores = s.cores := rfl
@[simp] theorem signal_quads (x : Signal) : (s.signal x).quads = s.quads := rfl
@[simp] theorem signal_llc (x : Signal) : (s.signal x).llc = s.llc := rfl
@[simp] theorem signal_reqs (x : Signal) : (s.signal x).reqs = s.reqs := rfl
@[simp] theorem signal_copies (x : Signal) : (s.signal x).copies = s.copies := rfl
@[simp] theorem signal_xfers (x : Signal) : (s.signal x).xfers = s.xfers := rfl
@[simp] theorem signal_matOps (x : Signal) : (s.signal x).matOps = s.matOps := rfl
@[simp] theorem signal_matWg (x : Signal) : (s.signal x).matWg = s.matWg := rfl
@[simp] theorem signal_sfus (x : Signal) : (s.signal x).sfus = s.sfus := rfl
@[simp] theorem signal_flights (x : Signal) : (s.signal x).flights = s.flights := rfl
@[simp] theorem signal_netBars (x : Signal) : (s.signal x).netBars = s.netBars := rfl
@[simp] theorem signal_groups (x : Signal) : (s.signal x).groups = s.groups := rfl
@[simp] theorem signal_occs (x : Signal) : (s.signal x).occs = s.occs := rfl
@[simp] theorem signal_thermal (x : Signal) : (s.signal x).thermal = s.thermal := rfl
@[simp] theorem signal_slack (x : Signal) : (s.signal x).slack = s.slack := rfl
@[simp] theorem signal_audit (x : Signal) : (s.signal x).audit = s.audit := rfl
@[simp] theorem signal_auditPart (x : Signal) : (s.signal x).auditPart = s.auditPart := rfl
@[simp] theorem signal_auditSigned (x : Signal) : (s.signal x).auditSigned = s.auditSigned := rfl
@[simp] theorem signal_retiredChannels (x : Signal) : (s.signal x).retiredChannels = s.retiredChannels := rfl
@[simp] theorem signal_softErrors (x : Signal) : (s.signal x).softErrors = s.softErrors := rfl
@[simp] theorem signal_cmds (x : Signal) : (s.signal x).cmds = s.cmds := rfl
@[simp] theorem signal_tag (x : Signal) : (s.signal x).tag = s.tag := rfl
@[simp] theorem signal_seq (x : Signal) : (s.signal x).seq = s.seq := rfl
@[simp] theorem signal_sched (x : Signal) : (s.signal x).sched = s.sched := rfl
@[simp] theorem signal_ticks (x : Signal) : (s.signal x).ticks = s.ticks := rfl
@[simp] theorem signal_paths (x : Signal) : (s.signal x).paths = s.paths := rfl
@[simp] theorem signal_choices (x : Signal) : (s.signal x).choices = s.choices := rfl
@[simp] theorem signal_free (x : Signal) : (s.signal x).free = s.free := rfl
@[simp] theorem signal_curWg (x : Signal) : (s.signal x).curWg = s.curWg := rfl
@[simp] theorem signal_curWarp (x : Signal) : (s.signal x).curWarp = s.curWarp := rfl
@[simp] theorem signal_curMask (x : Signal) : (s.signal x).curMask = s.curMask := rfl

@[simp] theorem fresh_pkg : (s.fresh).pkg = s.pkg := rfl
@[simp] theorem fresh_cyc : (s.fresh).cyc = s.cyc := rfl
@[simp] theorem fresh_ptimeNs : (s.fresh).ptimeNs = s.ptimeNs := rfl
@[simp] theorem fresh_ptimeFrac : (s.fresh).ptimeFrac = s.ptimeFrac := rfl
@[simp] theorem fresh_ptimeBehind : (s.fresh).ptimeBehind = s.ptimeBehind := rfl
@[simp] theorem fresh_mem : (s.fresh).mem = s.mem := rfl
@[simp] theorem fresh_badMem : (s.fresh).badMem = s.badMem := rfl
@[simp] theorem fresh_retired : (s.fresh).retired = s.retired := rfl
@[simp] theorem fresh_rows : (s.fresh).rows = s.rows := rfl
@[simp] theorem fresh_late : (s.fresh).late = s.late := rfl
@[simp] theorem fresh_chains : (s.fresh).chains = s.chains := rfl
@[simp] theorem fresh_former : (s.fresh).former = s.former := rfl
@[simp] theorem fresh_stale : (s.fresh).stale = s.stale := rfl
@[simp] theorem fresh_cregs : (s.fresh).cregs = s.cregs := rfl
@[simp] theorem fresh_busError : (s.fresh).busError = s.busError := rfl
@[simp] theorem fresh_busAddr : (s.fresh).busAddr = s.busAddr := rfl
@[simp] theorem fresh_routes : (s.fresh).routes = s.routes := rfl
@[simp] theorem fresh_sent : (s.fresh).sent = s.sent := rfl
@[simp] theorem fresh_done : (s.fresh).done = s.done := rfl
@[simp] theorem fresh_dieMap : (s.fresh).dieMap = s.dieMap := rfl
@[simp] theorem fresh_ctxs : (s.fresh).ctxs = s.ctxs := rfl
@[simp] theorem fresh_launches : (s.fresh).launches = s.launches := rfl
@[simp] theorem fresh_wgs : (s.fresh).wgs = s.wgs := rfl
@[simp] theorem fresh_cores : (s.fresh).cores = s.cores := rfl
@[simp] theorem fresh_quads : (s.fresh).quads = s.quads := rfl
@[simp] theorem fresh_llc : (s.fresh).llc = s.llc := rfl
@[simp] theorem fresh_reqs : (s.fresh).reqs = s.reqs := rfl
@[simp] theorem fresh_copies : (s.fresh).copies = s.copies := rfl
@[simp] theorem fresh_xfers : (s.fresh).xfers = s.xfers := rfl
@[simp] theorem fresh_matOps : (s.fresh).matOps = s.matOps := rfl
@[simp] theorem fresh_matWg : (s.fresh).matWg = s.matWg := rfl
@[simp] theorem fresh_sfus : (s.fresh).sfus = s.sfus := rfl
@[simp] theorem fresh_flights : (s.fresh).flights = s.flights := rfl
@[simp] theorem fresh_netBars : (s.fresh).netBars = s.netBars := rfl
@[simp] theorem fresh_groups : (s.fresh).groups = s.groups := rfl
@[simp] theorem fresh_occs : (s.fresh).occs = s.occs := rfl
@[simp] theorem fresh_thermal : (s.fresh).thermal = s.thermal := rfl
@[simp] theorem fresh_slack : (s.fresh).slack = s.slack := rfl
@[simp] theorem fresh_audit : (s.fresh).audit = s.audit := rfl
@[simp] theorem fresh_auditPart : (s.fresh).auditPart = s.auditPart := rfl
@[simp] theorem fresh_auditSigned : (s.fresh).auditSigned = s.auditSigned := rfl
@[simp] theorem fresh_signals : (s.fresh).signals = s.signals := rfl
@[simp] theorem fresh_retiredChannels : (s.fresh).retiredChannels = s.retiredChannels := rfl
@[simp] theorem fresh_softErrors : (s.fresh).softErrors = s.softErrors := rfl
@[simp] theorem fresh_cmds : (s.fresh).cmds = s.cmds := rfl
@[simp] theorem fresh_seq : (s.fresh).seq = s.seq := rfl
@[simp] theorem fresh_sched : (s.fresh).sched = s.sched := rfl
@[simp] theorem fresh_ticks : (s.fresh).ticks = s.ticks := rfl
@[simp] theorem fresh_paths : (s.fresh).paths = s.paths := rfl
@[simp] theorem fresh_choices : (s.fresh).choices = s.choices := rfl
@[simp] theorem fresh_free : (s.fresh).free = s.free := rfl
@[simp] theorem fresh_curWg : (s.fresh).curWg = s.curWg := rfl
@[simp] theorem fresh_curWarp : (s.fresh).curWarp = s.curWarp := rfl
@[simp] theorem fresh_curMask : (s.fresh).curMask = s.curMask := rfl

@[simp] theorem readChain_pkg (p : Option Nat) (c : Nat) (q : Nat × Nat) (l a n : Nat) : (s.readChain p c q l a n).pkg = s.pkg := rfl
@[simp] theorem readChain_cyc (p : Option Nat) (c : Nat) (q : Nat × Nat) (l a n : Nat) : (s.readChain p c q l a n).cyc = s.cyc := rfl
@[simp] theorem readChain_ptimeNs (p : Option Nat) (c : Nat) (q : Nat × Nat) (l a n : Nat) : (s.readChain p c q l a n).ptimeNs = s.ptimeNs := rfl
@[simp] theorem readChain_ptimeFrac (p : Option Nat) (c : Nat) (q : Nat × Nat) (l a n : Nat) : (s.readChain p c q l a n).ptimeFrac = s.ptimeFrac := rfl
@[simp] theorem readChain_ptimeBehind (p : Option Nat) (c : Nat) (q : Nat × Nat) (l a n : Nat) : (s.readChain p c q l a n).ptimeBehind = s.ptimeBehind := rfl
@[simp] theorem readChain_mem (p : Option Nat) (c : Nat) (q : Nat × Nat) (l a n : Nat) : (s.readChain p c q l a n).mem = s.mem := rfl
@[simp] theorem readChain_badMem (p : Option Nat) (c : Nat) (q : Nat × Nat) (l a n : Nat) : (s.readChain p c q l a n).badMem = s.badMem := rfl
@[simp] theorem readChain_retired (p : Option Nat) (c : Nat) (q : Nat × Nat) (l a n : Nat) : (s.readChain p c q l a n).retired = s.retired := rfl
@[simp] theorem readChain_rows (p : Option Nat) (c : Nat) (q : Nat × Nat) (l a n : Nat) : (s.readChain p c q l a n).rows = s.rows := rfl
@[simp] theorem readChain_late (p : Option Nat) (c : Nat) (q : Nat × Nat) (l a n : Nat) : (s.readChain p c q l a n).late = s.late := rfl
@[simp] theorem readChain_former (p : Option Nat) (c : Nat) (q : Nat × Nat) (l a n : Nat) : (s.readChain p c q l a n).former = s.former := rfl
@[simp] theorem readChain_stale (p : Option Nat) (c : Nat) (q : Nat × Nat) (l a n : Nat) : (s.readChain p c q l a n).stale = s.stale := rfl
@[simp] theorem readChain_cregs (p : Option Nat) (c : Nat) (q : Nat × Nat) (l a n : Nat) : (s.readChain p c q l a n).cregs = s.cregs := rfl
@[simp] theorem readChain_busError (p : Option Nat) (c : Nat) (q : Nat × Nat) (l a n : Nat) : (s.readChain p c q l a n).busError = s.busError := rfl
@[simp] theorem readChain_busAddr (p : Option Nat) (c : Nat) (q : Nat × Nat) (l a n : Nat) : (s.readChain p c q l a n).busAddr = s.busAddr := rfl
@[simp] theorem readChain_routes (p : Option Nat) (c : Nat) (q : Nat × Nat) (l a n : Nat) : (s.readChain p c q l a n).routes = s.routes := rfl
@[simp] theorem readChain_sent (p : Option Nat) (c : Nat) (q : Nat × Nat) (l a n : Nat) : (s.readChain p c q l a n).sent = s.sent := rfl
@[simp] theorem readChain_done (p : Option Nat) (c : Nat) (q : Nat × Nat) (l a n : Nat) : (s.readChain p c q l a n).done = s.done := rfl
@[simp] theorem readChain_dieMap (p : Option Nat) (c : Nat) (q : Nat × Nat) (l a n : Nat) : (s.readChain p c q l a n).dieMap = s.dieMap := rfl
@[simp] theorem readChain_ctxs (p : Option Nat) (c : Nat) (q : Nat × Nat) (l a n : Nat) : (s.readChain p c q l a n).ctxs = s.ctxs := rfl
@[simp] theorem readChain_launches (p : Option Nat) (c : Nat) (q : Nat × Nat) (l a n : Nat) : (s.readChain p c q l a n).launches = s.launches := rfl
@[simp] theorem readChain_wgs (p : Option Nat) (c : Nat) (q : Nat × Nat) (l a n : Nat) : (s.readChain p c q l a n).wgs = s.wgs := rfl
@[simp] theorem readChain_cores (p : Option Nat) (c : Nat) (q : Nat × Nat) (l a n : Nat) : (s.readChain p c q l a n).cores = s.cores := rfl
@[simp] theorem readChain_quads (p : Option Nat) (c : Nat) (q : Nat × Nat) (l a n : Nat) : (s.readChain p c q l a n).quads = s.quads := rfl
@[simp] theorem readChain_llc (p : Option Nat) (c : Nat) (q : Nat × Nat) (l a n : Nat) : (s.readChain p c q l a n).llc = s.llc := rfl
@[simp] theorem readChain_reqs (p : Option Nat) (c : Nat) (q : Nat × Nat) (l a n : Nat) : (s.readChain p c q l a n).reqs = s.reqs := rfl
@[simp] theorem readChain_copies (p : Option Nat) (c : Nat) (q : Nat × Nat) (l a n : Nat) : (s.readChain p c q l a n).copies = s.copies := rfl
@[simp] theorem readChain_xfers (p : Option Nat) (c : Nat) (q : Nat × Nat) (l a n : Nat) : (s.readChain p c q l a n).xfers = s.xfers := rfl
@[simp] theorem readChain_matOps (p : Option Nat) (c : Nat) (q : Nat × Nat) (l a n : Nat) : (s.readChain p c q l a n).matOps = s.matOps := rfl
@[simp] theorem readChain_matWg (p : Option Nat) (c : Nat) (q : Nat × Nat) (l a n : Nat) : (s.readChain p c q l a n).matWg = s.matWg := rfl
@[simp] theorem readChain_sfus (p : Option Nat) (c : Nat) (q : Nat × Nat) (l a n : Nat) : (s.readChain p c q l a n).sfus = s.sfus := rfl
@[simp] theorem readChain_flights (p : Option Nat) (c : Nat) (q : Nat × Nat) (l a n : Nat) : (s.readChain p c q l a n).flights = s.flights := rfl
@[simp] theorem readChain_netBars (p : Option Nat) (c : Nat) (q : Nat × Nat) (l a n : Nat) : (s.readChain p c q l a n).netBars = s.netBars := rfl
@[simp] theorem readChain_groups (p : Option Nat) (c : Nat) (q : Nat × Nat) (l a n : Nat) : (s.readChain p c q l a n).groups = s.groups := rfl
@[simp] theorem readChain_occs (p : Option Nat) (c : Nat) (q : Nat × Nat) (l a n : Nat) : (s.readChain p c q l a n).occs = s.occs := rfl
@[simp] theorem readChain_thermal (p : Option Nat) (c : Nat) (q : Nat × Nat) (l a n : Nat) : (s.readChain p c q l a n).thermal = s.thermal := rfl
@[simp] theorem readChain_slack (p : Option Nat) (c : Nat) (q : Nat × Nat) (l a n : Nat) : (s.readChain p c q l a n).slack = s.slack := rfl
@[simp] theorem readChain_audit (p : Option Nat) (c : Nat) (q : Nat × Nat) (l a n : Nat) : (s.readChain p c q l a n).audit = s.audit := rfl
@[simp] theorem readChain_auditPart (p : Option Nat) (c : Nat) (q : Nat × Nat) (l a n : Nat) : (s.readChain p c q l a n).auditPart = s.auditPart := rfl
@[simp] theorem readChain_auditSigned (p : Option Nat) (c : Nat) (q : Nat × Nat) (l a n : Nat) : (s.readChain p c q l a n).auditSigned = s.auditSigned := rfl
@[simp] theorem readChain_signals (p : Option Nat) (c : Nat) (q : Nat × Nat) (l a n : Nat) : (s.readChain p c q l a n).signals = s.signals := rfl
@[simp] theorem readChain_retiredChannels (p : Option Nat) (c : Nat) (q : Nat × Nat) (l a n : Nat) : (s.readChain p c q l a n).retiredChannels = s.retiredChannels := rfl
@[simp] theorem readChain_softErrors (p : Option Nat) (c : Nat) (q : Nat × Nat) (l a n : Nat) : (s.readChain p c q l a n).softErrors = s.softErrors := rfl
@[simp] theorem readChain_cmds (p : Option Nat) (c : Nat) (q : Nat × Nat) (l a n : Nat) : (s.readChain p c q l a n).cmds = s.cmds := rfl
@[simp] theorem readChain_tag (p : Option Nat) (c : Nat) (q : Nat × Nat) (l a n : Nat) : (s.readChain p c q l a n).tag = s.tag := rfl
@[simp] theorem readChain_seq (p : Option Nat) (c : Nat) (q : Nat × Nat) (l a n : Nat) : (s.readChain p c q l a n).seq = s.seq := rfl
@[simp] theorem readChain_sched (p : Option Nat) (c : Nat) (q : Nat × Nat) (l a n : Nat) : (s.readChain p c q l a n).sched = s.sched := rfl
@[simp] theorem readChain_ticks (p : Option Nat) (c : Nat) (q : Nat × Nat) (l a n : Nat) : (s.readChain p c q l a n).ticks = s.ticks := rfl
@[simp] theorem readChain_paths (p : Option Nat) (c : Nat) (q : Nat × Nat) (l a n : Nat) : (s.readChain p c q l a n).paths = s.paths := rfl
@[simp] theorem readChain_choices (p : Option Nat) (c : Nat) (q : Nat × Nat) (l a n : Nat) : (s.readChain p c q l a n).choices = s.choices := rfl
@[simp] theorem readChain_free (p : Option Nat) (c : Nat) (q : Nat × Nat) (l a n : Nat) : (s.readChain p c q l a n).free = s.free := rfl
@[simp] theorem readChain_curWg (p : Option Nat) (c : Nat) (q : Nat × Nat) (l a n : Nat) : (s.readChain p c q l a n).curWg = s.curWg := rfl
@[simp] theorem readChain_curWarp (p : Option Nat) (c : Nat) (q : Nat × Nat) (l a n : Nat) : (s.readChain p c q l a n).curWarp = s.curWarp := rfl
@[simp] theorem readChain_curMask (p : Option Nat) (c : Nat) (q : Nat × Nat) (l a n : Nat) : (s.readChain p c q l a n).curMask = s.curMask := rfl

@[simp] theorem syncs_pkg (k w : Nat) (ls : List Nat) (b : Bool) : (s.syncs k w ls b).pkg = s.pkg := rfl
@[simp] theorem syncs_cyc (k w : Nat) (ls : List Nat) (b : Bool) : (s.syncs k w ls b).cyc = s.cyc := rfl
@[simp] theorem syncs_ptimeNs (k w : Nat) (ls : List Nat) (b : Bool) : (s.syncs k w ls b).ptimeNs = s.ptimeNs := rfl
@[simp] theorem syncs_ptimeFrac (k w : Nat) (ls : List Nat) (b : Bool) : (s.syncs k w ls b).ptimeFrac = s.ptimeFrac := rfl
@[simp] theorem syncs_ptimeBehind (k w : Nat) (ls : List Nat) (b : Bool) : (s.syncs k w ls b).ptimeBehind = s.ptimeBehind := rfl
@[simp] theorem syncs_mem (k w : Nat) (ls : List Nat) (b : Bool) : (s.syncs k w ls b).mem = s.mem := rfl
@[simp] theorem syncs_badMem (k w : Nat) (ls : List Nat) (b : Bool) : (s.syncs k w ls b).badMem = s.badMem := rfl
@[simp] theorem syncs_retired (k w : Nat) (ls : List Nat) (b : Bool) : (s.syncs k w ls b).retired = s.retired := rfl
@[simp] theorem syncs_rows (k w : Nat) (ls : List Nat) (b : Bool) : (s.syncs k w ls b).rows = s.rows := rfl
@[simp] theorem syncs_late (k w : Nat) (ls : List Nat) (b : Bool) : (s.syncs k w ls b).late = s.late := rfl
@[simp] theorem syncs_former (k w : Nat) (ls : List Nat) (b : Bool) : (s.syncs k w ls b).former = s.former := rfl
@[simp] theorem syncs_stale (k w : Nat) (ls : List Nat) (b : Bool) : (s.syncs k w ls b).stale = s.stale := rfl
@[simp] theorem syncs_cregs (k w : Nat) (ls : List Nat) (b : Bool) : (s.syncs k w ls b).cregs = s.cregs := rfl
@[simp] theorem syncs_busError (k w : Nat) (ls : List Nat) (b : Bool) : (s.syncs k w ls b).busError = s.busError := rfl
@[simp] theorem syncs_busAddr (k w : Nat) (ls : List Nat) (b : Bool) : (s.syncs k w ls b).busAddr = s.busAddr := rfl
@[simp] theorem syncs_routes (k w : Nat) (ls : List Nat) (b : Bool) : (s.syncs k w ls b).routes = s.routes := rfl
@[simp] theorem syncs_sent (k w : Nat) (ls : List Nat) (b : Bool) : (s.syncs k w ls b).sent = s.sent := rfl
@[simp] theorem syncs_done (k w : Nat) (ls : List Nat) (b : Bool) : (s.syncs k w ls b).done = s.done := rfl
@[simp] theorem syncs_dieMap (k w : Nat) (ls : List Nat) (b : Bool) : (s.syncs k w ls b).dieMap = s.dieMap := rfl
@[simp] theorem syncs_ctxs (k w : Nat) (ls : List Nat) (b : Bool) : (s.syncs k w ls b).ctxs = s.ctxs := rfl
@[simp] theorem syncs_launches (k w : Nat) (ls : List Nat) (b : Bool) : (s.syncs k w ls b).launches = s.launches := rfl
@[simp] theorem syncs_wgs (k w : Nat) (ls : List Nat) (b : Bool) : (s.syncs k w ls b).wgs = s.wgs := rfl
@[simp] theorem syncs_cores (k w : Nat) (ls : List Nat) (b : Bool) : (s.syncs k w ls b).cores = s.cores := rfl
@[simp] theorem syncs_quads (k w : Nat) (ls : List Nat) (b : Bool) : (s.syncs k w ls b).quads = s.quads := rfl
@[simp] theorem syncs_llc (k w : Nat) (ls : List Nat) (b : Bool) : (s.syncs k w ls b).llc = s.llc := rfl
@[simp] theorem syncs_reqs (k w : Nat) (ls : List Nat) (b : Bool) : (s.syncs k w ls b).reqs = s.reqs := rfl
@[simp] theorem syncs_copies (k w : Nat) (ls : List Nat) (b : Bool) : (s.syncs k w ls b).copies = s.copies := rfl
@[simp] theorem syncs_xfers (k w : Nat) (ls : List Nat) (b : Bool) : (s.syncs k w ls b).xfers = s.xfers := rfl
@[simp] theorem syncs_matOps (k w : Nat) (ls : List Nat) (b : Bool) : (s.syncs k w ls b).matOps = s.matOps := rfl
@[simp] theorem syncs_matWg (k w : Nat) (ls : List Nat) (b : Bool) : (s.syncs k w ls b).matWg = s.matWg := rfl
@[simp] theorem syncs_sfus (k w : Nat) (ls : List Nat) (b : Bool) : (s.syncs k w ls b).sfus = s.sfus := rfl
@[simp] theorem syncs_flights (k w : Nat) (ls : List Nat) (b : Bool) : (s.syncs k w ls b).flights = s.flights := rfl
@[simp] theorem syncs_netBars (k w : Nat) (ls : List Nat) (b : Bool) : (s.syncs k w ls b).netBars = s.netBars := rfl
@[simp] theorem syncs_groups (k w : Nat) (ls : List Nat) (b : Bool) : (s.syncs k w ls b).groups = s.groups := rfl
@[simp] theorem syncs_occs (k w : Nat) (ls : List Nat) (b : Bool) : (s.syncs k w ls b).occs = s.occs := rfl
@[simp] theorem syncs_thermal (k w : Nat) (ls : List Nat) (b : Bool) : (s.syncs k w ls b).thermal = s.thermal := rfl
@[simp] theorem syncs_slack (k w : Nat) (ls : List Nat) (b : Bool) : (s.syncs k w ls b).slack = s.slack := rfl
@[simp] theorem syncs_audit (k w : Nat) (ls : List Nat) (b : Bool) : (s.syncs k w ls b).audit = s.audit := rfl
@[simp] theorem syncs_auditPart (k w : Nat) (ls : List Nat) (b : Bool) : (s.syncs k w ls b).auditPart = s.auditPart := rfl
@[simp] theorem syncs_auditSigned (k w : Nat) (ls : List Nat) (b : Bool) : (s.syncs k w ls b).auditSigned = s.auditSigned := rfl
@[simp] theorem syncs_signals (k w : Nat) (ls : List Nat) (b : Bool) : (s.syncs k w ls b).signals = s.signals := rfl
@[simp] theorem syncs_retiredChannels (k w : Nat) (ls : List Nat) (b : Bool) : (s.syncs k w ls b).retiredChannels = s.retiredChannels := rfl
@[simp] theorem syncs_softErrors (k w : Nat) (ls : List Nat) (b : Bool) : (s.syncs k w ls b).softErrors = s.softErrors := rfl
@[simp] theorem syncs_cmds (k w : Nat) (ls : List Nat) (b : Bool) : (s.syncs k w ls b).cmds = s.cmds := rfl
@[simp] theorem syncs_tag (k w : Nat) (ls : List Nat) (b : Bool) : (s.syncs k w ls b).tag = s.tag := rfl
@[simp] theorem syncs_seq (k w : Nat) (ls : List Nat) (b : Bool) : (s.syncs k w ls b).seq = s.seq := rfl
@[simp] theorem syncs_sched (k w : Nat) (ls : List Nat) (b : Bool) : (s.syncs k w ls b).sched = s.sched := rfl
@[simp] theorem syncs_ticks (k w : Nat) (ls : List Nat) (b : Bool) : (s.syncs k w ls b).ticks = s.ticks := rfl
@[simp] theorem syncs_paths (k w : Nat) (ls : List Nat) (b : Bool) : (s.syncs k w ls b).paths = s.paths := rfl
@[simp] theorem syncs_choices (k w : Nat) (ls : List Nat) (b : Bool) : (s.syncs k w ls b).choices = s.choices := rfl
@[simp] theorem syncs_free (k w : Nat) (ls : List Nat) (b : Bool) : (s.syncs k w ls b).free = s.free := rfl
@[simp] theorem syncs_curWg (k w : Nat) (ls : List Nat) (b : Bool) : (s.syncs k w ls b).curWg = s.curWg := rfl
@[simp] theorem syncs_curWarp (k w : Nat) (ls : List Nat) (b : Bool) : (s.syncs k w ls b).curWarp = s.curWarp := rfl
@[simp] theorem syncs_curMask (k w : Nat) (ls : List Nat) (b : Bool) : (s.syncs k w ls b).curMask = s.curMask := rfl

@[simp] theorem dropChains_pkg : (s.dropChains).pkg = s.pkg := rfl
@[simp] theorem dropChains_cyc : (s.dropChains).cyc = s.cyc := rfl
@[simp] theorem dropChains_ptimeNs : (s.dropChains).ptimeNs = s.ptimeNs := rfl
@[simp] theorem dropChains_ptimeFrac : (s.dropChains).ptimeFrac = s.ptimeFrac := rfl
@[simp] theorem dropChains_ptimeBehind : (s.dropChains).ptimeBehind = s.ptimeBehind := rfl
@[simp] theorem dropChains_mem : (s.dropChains).mem = s.mem := rfl
@[simp] theorem dropChains_badMem : (s.dropChains).badMem = s.badMem := rfl
@[simp] theorem dropChains_retired : (s.dropChains).retired = s.retired := rfl
@[simp] theorem dropChains_rows : (s.dropChains).rows = s.rows := rfl
@[simp] theorem dropChains_late : (s.dropChains).late = s.late := rfl
@[simp] theorem dropChains_former : (s.dropChains).former = s.former := rfl
@[simp] theorem dropChains_stale : (s.dropChains).stale = s.stale := rfl
@[simp] theorem dropChains_cregs : (s.dropChains).cregs = s.cregs := rfl
@[simp] theorem dropChains_busError : (s.dropChains).busError = s.busError := rfl
@[simp] theorem dropChains_busAddr : (s.dropChains).busAddr = s.busAddr := rfl
@[simp] theorem dropChains_routes : (s.dropChains).routes = s.routes := rfl
@[simp] theorem dropChains_sent : (s.dropChains).sent = s.sent := rfl
@[simp] theorem dropChains_done : (s.dropChains).done = s.done := rfl
@[simp] theorem dropChains_dieMap : (s.dropChains).dieMap = s.dieMap := rfl
@[simp] theorem dropChains_ctxs : (s.dropChains).ctxs = s.ctxs := rfl
@[simp] theorem dropChains_launches : (s.dropChains).launches = s.launches := rfl
@[simp] theorem dropChains_wgs : (s.dropChains).wgs = s.wgs := rfl
@[simp] theorem dropChains_cores : (s.dropChains).cores = s.cores := rfl
@[simp] theorem dropChains_quads : (s.dropChains).quads = s.quads := rfl
@[simp] theorem dropChains_llc : (s.dropChains).llc = s.llc := rfl
@[simp] theorem dropChains_reqs : (s.dropChains).reqs = s.reqs := rfl
@[simp] theorem dropChains_copies : (s.dropChains).copies = s.copies := rfl
@[simp] theorem dropChains_xfers : (s.dropChains).xfers = s.xfers := rfl
@[simp] theorem dropChains_matOps : (s.dropChains).matOps = s.matOps := rfl
@[simp] theorem dropChains_matWg : (s.dropChains).matWg = s.matWg := rfl
@[simp] theorem dropChains_sfus : (s.dropChains).sfus = s.sfus := rfl
@[simp] theorem dropChains_flights : (s.dropChains).flights = s.flights := rfl
@[simp] theorem dropChains_netBars : (s.dropChains).netBars = s.netBars := rfl
@[simp] theorem dropChains_groups : (s.dropChains).groups = s.groups := rfl
@[simp] theorem dropChains_occs : (s.dropChains).occs = s.occs := rfl
@[simp] theorem dropChains_thermal : (s.dropChains).thermal = s.thermal := rfl
@[simp] theorem dropChains_slack : (s.dropChains).slack = s.slack := rfl
@[simp] theorem dropChains_audit : (s.dropChains).audit = s.audit := rfl
@[simp] theorem dropChains_auditPart : (s.dropChains).auditPart = s.auditPart := rfl
@[simp] theorem dropChains_auditSigned : (s.dropChains).auditSigned = s.auditSigned := rfl
@[simp] theorem dropChains_signals : (s.dropChains).signals = s.signals := rfl
@[simp] theorem dropChains_retiredChannels : (s.dropChains).retiredChannels = s.retiredChannels := rfl
@[simp] theorem dropChains_softErrors : (s.dropChains).softErrors = s.softErrors := rfl
@[simp] theorem dropChains_cmds : (s.dropChains).cmds = s.cmds := rfl
@[simp] theorem dropChains_tag : (s.dropChains).tag = s.tag := rfl
@[simp] theorem dropChains_seq : (s.dropChains).seq = s.seq := rfl
@[simp] theorem dropChains_sched : (s.dropChains).sched = s.sched := rfl
@[simp] theorem dropChains_ticks : (s.dropChains).ticks = s.ticks := rfl
@[simp] theorem dropChains_paths : (s.dropChains).paths = s.paths := rfl
@[simp] theorem dropChains_choices : (s.dropChains).choices = s.choices := rfl
@[simp] theorem dropChains_free : (s.dropChains).free = s.free := rfl
@[simp] theorem dropChains_curWg : (s.dropChains).curWg = s.curWg := rfl
@[simp] theorem dropChains_curWarp : (s.dropChains).curWarp = s.curWarp := rfl
@[simp] theorem dropChains_curMask : (s.dropChains).curMask = s.curMask := rfl

@[simp] theorem moveSight_pkg (k n c d : Nat) : (s.moveSight k n c d).pkg = s.pkg := rfl
@[simp] theorem moveSight_cyc (k n c d : Nat) : (s.moveSight k n c d).cyc = s.cyc := rfl
@[simp] theorem moveSight_ptimeNs (k n c d : Nat) : (s.moveSight k n c d).ptimeNs = s.ptimeNs := rfl
@[simp] theorem moveSight_ptimeFrac (k n c d : Nat) : (s.moveSight k n c d).ptimeFrac = s.ptimeFrac := rfl
@[simp] theorem moveSight_ptimeBehind (k n c d : Nat) : (s.moveSight k n c d).ptimeBehind = s.ptimeBehind := rfl
@[simp] theorem moveSight_mem (k n c d : Nat) : (s.moveSight k n c d).mem = s.mem := rfl
@[simp] theorem moveSight_badMem (k n c d : Nat) : (s.moveSight k n c d).badMem = s.badMem := rfl
@[simp] theorem moveSight_retired (k n c d : Nat) : (s.moveSight k n c d).retired = s.retired := rfl
@[simp] theorem moveSight_rows (k n c d : Nat) : (s.moveSight k n c d).rows = s.rows := rfl
@[simp] theorem moveSight_chains (k n c d : Nat) : (s.moveSight k n c d).chains = s.chains := rfl
@[simp] theorem moveSight_former (k n c d : Nat) : (s.moveSight k n c d).former = s.former := rfl
@[simp] theorem moveSight_stale (k n c d : Nat) : (s.moveSight k n c d).stale = s.stale := rfl
@[simp] theorem moveSight_cregs (k n c d : Nat) : (s.moveSight k n c d).cregs = s.cregs := rfl
@[simp] theorem moveSight_busError (k n c d : Nat) : (s.moveSight k n c d).busError = s.busError := rfl
@[simp] theorem moveSight_busAddr (k n c d : Nat) : (s.moveSight k n c d).busAddr = s.busAddr := rfl
@[simp] theorem moveSight_routes (k n c d : Nat) : (s.moveSight k n c d).routes = s.routes := rfl
@[simp] theorem moveSight_sent (k n c d : Nat) : (s.moveSight k n c d).sent = s.sent := rfl
@[simp] theorem moveSight_done (k n c d : Nat) : (s.moveSight k n c d).done = s.done := rfl
@[simp] theorem moveSight_dieMap (k n c d : Nat) : (s.moveSight k n c d).dieMap = s.dieMap := rfl
@[simp] theorem moveSight_ctxs (k n c d : Nat) : (s.moveSight k n c d).ctxs = s.ctxs := rfl
@[simp] theorem moveSight_launches (k n c d : Nat) : (s.moveSight k n c d).launches = s.launches := rfl
@[simp] theorem moveSight_wgs (k n c d : Nat) : (s.moveSight k n c d).wgs = s.wgs := rfl
@[simp] theorem moveSight_cores (k n c d : Nat) : (s.moveSight k n c d).cores = s.cores := rfl
@[simp] theorem moveSight_quads (k n c d : Nat) : (s.moveSight k n c d).quads = s.quads := rfl
@[simp] theorem moveSight_llc (k n c d : Nat) : (s.moveSight k n c d).llc = s.llc := rfl
@[simp] theorem moveSight_reqs (k n c d : Nat) : (s.moveSight k n c d).reqs = s.reqs := rfl
@[simp] theorem moveSight_copies (k n c d : Nat) : (s.moveSight k n c d).copies = s.copies := rfl
@[simp] theorem moveSight_xfers (k n c d : Nat) : (s.moveSight k n c d).xfers = s.xfers := rfl
@[simp] theorem moveSight_matOps (k n c d : Nat) : (s.moveSight k n c d).matOps = s.matOps := rfl
@[simp] theorem moveSight_matWg (k n c d : Nat) : (s.moveSight k n c d).matWg = s.matWg := rfl
@[simp] theorem moveSight_sfus (k n c d : Nat) : (s.moveSight k n c d).sfus = s.sfus := rfl
@[simp] theorem moveSight_flights (k n c d : Nat) : (s.moveSight k n c d).flights = s.flights := rfl
@[simp] theorem moveSight_netBars (k n c d : Nat) : (s.moveSight k n c d).netBars = s.netBars := rfl
@[simp] theorem moveSight_groups (k n c d : Nat) : (s.moveSight k n c d).groups = s.groups := rfl
@[simp] theorem moveSight_occs (k n c d : Nat) : (s.moveSight k n c d).occs = s.occs := rfl
@[simp] theorem moveSight_thermal (k n c d : Nat) : (s.moveSight k n c d).thermal = s.thermal := rfl
@[simp] theorem moveSight_slack (k n c d : Nat) : (s.moveSight k n c d).slack = s.slack := rfl
@[simp] theorem moveSight_audit (k n c d : Nat) : (s.moveSight k n c d).audit = s.audit := rfl
@[simp] theorem moveSight_auditPart (k n c d : Nat) : (s.moveSight k n c d).auditPart = s.auditPart := rfl
@[simp] theorem moveSight_auditSigned (k n c d : Nat) : (s.moveSight k n c d).auditSigned = s.auditSigned := rfl
@[simp] theorem moveSight_signals (k n c d : Nat) : (s.moveSight k n c d).signals = s.signals := rfl
@[simp] theorem moveSight_retiredChannels (k n c d : Nat) : (s.moveSight k n c d).retiredChannels = s.retiredChannels := rfl
@[simp] theorem moveSight_softErrors (k n c d : Nat) : (s.moveSight k n c d).softErrors = s.softErrors := rfl
@[simp] theorem moveSight_cmds (k n c d : Nat) : (s.moveSight k n c d).cmds = s.cmds := rfl
@[simp] theorem moveSight_tag (k n c d : Nat) : (s.moveSight k n c d).tag = s.tag := rfl
@[simp] theorem moveSight_seq (k n c d : Nat) : (s.moveSight k n c d).seq = s.seq := rfl
@[simp] theorem moveSight_sched (k n c d : Nat) : (s.moveSight k n c d).sched = s.sched := rfl
@[simp] theorem moveSight_ticks (k n c d : Nat) : (s.moveSight k n c d).ticks = s.ticks := rfl
@[simp] theorem moveSight_paths (k n c d : Nat) : (s.moveSight k n c d).paths = s.paths := rfl
@[simp] theorem moveSight_choices (k n c d : Nat) : (s.moveSight k n c d).choices = s.choices := rfl
@[simp] theorem moveSight_free (k n c d : Nat) : (s.moveSight k n c d).free = s.free := rfl
@[simp] theorem moveSight_curWg (k n c d : Nat) : (s.moveSight k n c d).curWg = s.curWg := rfl
@[simp] theorem moveSight_curWarp (k n c d : Nat) : (s.moveSight k n c d).curWarp = s.curWarp := rfl
@[simp] theorem moveSight_curMask (k n c d : Nat) : (s.moveSight k n c d).curMask = s.curMask := rfl

/-- Noting a write changes nothing but the notes. -/
theorem noteChain_eq (v : State) (p : Option Nat) (a n : Nat) (q : Nat × Nat) (l b : Nat) (ns : List Nat) :
    ∃ cs, s.noteChain v p a n q l b ns = { s with chains := cs } := by
  simp only [State.noteChain]
  generalize (if _ = 0 then ([] : List Nat) else _) = x
  split
  · exact ⟨s.chains, rfl⟩
  · exact ⟨_, rfl⟩

@[simp] theorem noteChain_pkg (v : State) (p : Option Nat) (a n : Nat) (q : Nat × Nat) (l b : Nat) (ns : List Nat) :
    (s.noteChain v p a n q l b ns).pkg = s.pkg := by
  obtain ⟨_, h⟩ := noteChain_eq s v p a n q l b ns; rw [h]
@[simp] theorem noteChain_cyc (v : State) (p : Option Nat) (a n : Nat) (q : Nat × Nat) (l b : Nat) (ns : List Nat) :
    (s.noteChain v p a n q l b ns).cyc = s.cyc := by
  obtain ⟨_, h⟩ := noteChain_eq s v p a n q l b ns; rw [h]
@[simp] theorem noteChain_ptimeNs (v : State) (p : Option Nat) (a n : Nat) (q : Nat × Nat) (l b : Nat) (ns : List Nat) :
    (s.noteChain v p a n q l b ns).ptimeNs = s.ptimeNs := by
  obtain ⟨_, h⟩ := noteChain_eq s v p a n q l b ns; rw [h]
@[simp] theorem noteChain_ptimeFrac (v : State) (p : Option Nat) (a n : Nat) (q : Nat × Nat) (l b : Nat) (ns : List Nat) :
    (s.noteChain v p a n q l b ns).ptimeFrac = s.ptimeFrac := by
  obtain ⟨_, h⟩ := noteChain_eq s v p a n q l b ns; rw [h]
@[simp] theorem noteChain_ptimeBehind (v : State) (p : Option Nat) (a n : Nat) (q : Nat × Nat) (l b : Nat) (ns : List Nat) :
    (s.noteChain v p a n q l b ns).ptimeBehind = s.ptimeBehind := by
  obtain ⟨_, h⟩ := noteChain_eq s v p a n q l b ns; rw [h]
@[simp] theorem noteChain_mem (v : State) (p : Option Nat) (a n : Nat) (q : Nat × Nat) (l b : Nat) (ns : List Nat) :
    (s.noteChain v p a n q l b ns).mem = s.mem := by
  obtain ⟨_, h⟩ := noteChain_eq s v p a n q l b ns; rw [h]
@[simp] theorem noteChain_badMem (v : State) (p : Option Nat) (a n : Nat) (q : Nat × Nat) (l b : Nat) (ns : List Nat) :
    (s.noteChain v p a n q l b ns).badMem = s.badMem := by
  obtain ⟨_, h⟩ := noteChain_eq s v p a n q l b ns; rw [h]
@[simp] theorem noteChain_retired (v : State) (p : Option Nat) (a n : Nat) (q : Nat × Nat) (l b : Nat) (ns : List Nat) :
    (s.noteChain v p a n q l b ns).retired = s.retired := by
  obtain ⟨_, h⟩ := noteChain_eq s v p a n q l b ns; rw [h]
@[simp] theorem noteChain_rows (v : State) (p : Option Nat) (a n : Nat) (q : Nat × Nat) (l b : Nat) (ns : List Nat) :
    (s.noteChain v p a n q l b ns).rows = s.rows := by
  obtain ⟨_, h⟩ := noteChain_eq s v p a n q l b ns; rw [h]
@[simp] theorem noteChain_late (v : State) (p : Option Nat) (a n : Nat) (q : Nat × Nat) (l b : Nat) (ns : List Nat) :
    (s.noteChain v p a n q l b ns).late = s.late := by
  obtain ⟨_, h⟩ := noteChain_eq s v p a n q l b ns; rw [h]
@[simp] theorem noteChain_former (v : State) (p : Option Nat) (a n : Nat) (q : Nat × Nat) (l b : Nat) (ns : List Nat) :
    (s.noteChain v p a n q l b ns).former = s.former := by
  obtain ⟨_, h⟩ := noteChain_eq s v p a n q l b ns; rw [h]
@[simp] theorem noteChain_stale (v : State) (p : Option Nat) (a n : Nat) (q : Nat × Nat) (l b : Nat) (ns : List Nat) :
    (s.noteChain v p a n q l b ns).stale = s.stale := by
  obtain ⟨_, h⟩ := noteChain_eq s v p a n q l b ns; rw [h]
@[simp] theorem noteChain_cregs (v : State) (p : Option Nat) (a n : Nat) (q : Nat × Nat) (l b : Nat) (ns : List Nat) :
    (s.noteChain v p a n q l b ns).cregs = s.cregs := by
  obtain ⟨_, h⟩ := noteChain_eq s v p a n q l b ns; rw [h]
@[simp] theorem noteChain_busError (v : State) (p : Option Nat) (a n : Nat) (q : Nat × Nat) (l b : Nat) (ns : List Nat) :
    (s.noteChain v p a n q l b ns).busError = s.busError := by
  obtain ⟨_, h⟩ := noteChain_eq s v p a n q l b ns; rw [h]
@[simp] theorem noteChain_busAddr (v : State) (p : Option Nat) (a n : Nat) (q : Nat × Nat) (l b : Nat) (ns : List Nat) :
    (s.noteChain v p a n q l b ns).busAddr = s.busAddr := by
  obtain ⟨_, h⟩ := noteChain_eq s v p a n q l b ns; rw [h]
@[simp] theorem noteChain_routes (v : State) (p : Option Nat) (a n : Nat) (q : Nat × Nat) (l b : Nat) (ns : List Nat) :
    (s.noteChain v p a n q l b ns).routes = s.routes := by
  obtain ⟨_, h⟩ := noteChain_eq s v p a n q l b ns; rw [h]
@[simp] theorem noteChain_sent (v : State) (p : Option Nat) (a n : Nat) (q : Nat × Nat) (l b : Nat) (ns : List Nat) :
    (s.noteChain v p a n q l b ns).sent = s.sent := by
  obtain ⟨_, h⟩ := noteChain_eq s v p a n q l b ns; rw [h]
@[simp] theorem noteChain_done (v : State) (p : Option Nat) (a n : Nat) (q : Nat × Nat) (l b : Nat) (ns : List Nat) :
    (s.noteChain v p a n q l b ns).done = s.done := by
  obtain ⟨_, h⟩ := noteChain_eq s v p a n q l b ns; rw [h]
@[simp] theorem noteChain_dieMap (v : State) (p : Option Nat) (a n : Nat) (q : Nat × Nat) (l b : Nat) (ns : List Nat) :
    (s.noteChain v p a n q l b ns).dieMap = s.dieMap := by
  obtain ⟨_, h⟩ := noteChain_eq s v p a n q l b ns; rw [h]
@[simp] theorem noteChain_ctxs (v : State) (p : Option Nat) (a n : Nat) (q : Nat × Nat) (l b : Nat) (ns : List Nat) :
    (s.noteChain v p a n q l b ns).ctxs = s.ctxs := by
  obtain ⟨_, h⟩ := noteChain_eq s v p a n q l b ns; rw [h]
@[simp] theorem noteChain_launches (v : State) (p : Option Nat) (a n : Nat) (q : Nat × Nat) (l b : Nat) (ns : List Nat) :
    (s.noteChain v p a n q l b ns).launches = s.launches := by
  obtain ⟨_, h⟩ := noteChain_eq s v p a n q l b ns; rw [h]
@[simp] theorem noteChain_wgs (v : State) (p : Option Nat) (a n : Nat) (q : Nat × Nat) (l b : Nat) (ns : List Nat) :
    (s.noteChain v p a n q l b ns).wgs = s.wgs := by
  obtain ⟨_, h⟩ := noteChain_eq s v p a n q l b ns; rw [h]
@[simp] theorem noteChain_cores (v : State) (p : Option Nat) (a n : Nat) (q : Nat × Nat) (l b : Nat) (ns : List Nat) :
    (s.noteChain v p a n q l b ns).cores = s.cores := by
  obtain ⟨_, h⟩ := noteChain_eq s v p a n q l b ns; rw [h]
@[simp] theorem noteChain_quads (v : State) (p : Option Nat) (a n : Nat) (q : Nat × Nat) (l b : Nat) (ns : List Nat) :
    (s.noteChain v p a n q l b ns).quads = s.quads := by
  obtain ⟨_, h⟩ := noteChain_eq s v p a n q l b ns; rw [h]
@[simp] theorem noteChain_llc (v : State) (p : Option Nat) (a n : Nat) (q : Nat × Nat) (l b : Nat) (ns : List Nat) :
    (s.noteChain v p a n q l b ns).llc = s.llc := by
  obtain ⟨_, h⟩ := noteChain_eq s v p a n q l b ns; rw [h]
@[simp] theorem noteChain_reqs (v : State) (p : Option Nat) (a n : Nat) (q : Nat × Nat) (l b : Nat) (ns : List Nat) :
    (s.noteChain v p a n q l b ns).reqs = s.reqs := by
  obtain ⟨_, h⟩ := noteChain_eq s v p a n q l b ns; rw [h]
@[simp] theorem noteChain_copies (v : State) (p : Option Nat) (a n : Nat) (q : Nat × Nat) (l b : Nat) (ns : List Nat) :
    (s.noteChain v p a n q l b ns).copies = s.copies := by
  obtain ⟨_, h⟩ := noteChain_eq s v p a n q l b ns; rw [h]
@[simp] theorem noteChain_xfers (v : State) (p : Option Nat) (a n : Nat) (q : Nat × Nat) (l b : Nat) (ns : List Nat) :
    (s.noteChain v p a n q l b ns).xfers = s.xfers := by
  obtain ⟨_, h⟩ := noteChain_eq s v p a n q l b ns; rw [h]
@[simp] theorem noteChain_matOps (v : State) (p : Option Nat) (a n : Nat) (q : Nat × Nat) (l b : Nat) (ns : List Nat) :
    (s.noteChain v p a n q l b ns).matOps = s.matOps := by
  obtain ⟨_, h⟩ := noteChain_eq s v p a n q l b ns; rw [h]
@[simp] theorem noteChain_matWg (v : State) (p : Option Nat) (a n : Nat) (q : Nat × Nat) (l b : Nat) (ns : List Nat) :
    (s.noteChain v p a n q l b ns).matWg = s.matWg := by
  obtain ⟨_, h⟩ := noteChain_eq s v p a n q l b ns; rw [h]
@[simp] theorem noteChain_sfus (v : State) (p : Option Nat) (a n : Nat) (q : Nat × Nat) (l b : Nat) (ns : List Nat) :
    (s.noteChain v p a n q l b ns).sfus = s.sfus := by
  obtain ⟨_, h⟩ := noteChain_eq s v p a n q l b ns; rw [h]
@[simp] theorem noteChain_flights (v : State) (p : Option Nat) (a n : Nat) (q : Nat × Nat) (l b : Nat) (ns : List Nat) :
    (s.noteChain v p a n q l b ns).flights = s.flights := by
  obtain ⟨_, h⟩ := noteChain_eq s v p a n q l b ns; rw [h]
@[simp] theorem noteChain_netBars (v : State) (p : Option Nat) (a n : Nat) (q : Nat × Nat) (l b : Nat) (ns : List Nat) :
    (s.noteChain v p a n q l b ns).netBars = s.netBars := by
  obtain ⟨_, h⟩ := noteChain_eq s v p a n q l b ns; rw [h]
@[simp] theorem noteChain_groups (v : State) (p : Option Nat) (a n : Nat) (q : Nat × Nat) (l b : Nat) (ns : List Nat) :
    (s.noteChain v p a n q l b ns).groups = s.groups := by
  obtain ⟨_, h⟩ := noteChain_eq s v p a n q l b ns; rw [h]
@[simp] theorem noteChain_occs (v : State) (p : Option Nat) (a n : Nat) (q : Nat × Nat) (l b : Nat) (ns : List Nat) :
    (s.noteChain v p a n q l b ns).occs = s.occs := by
  obtain ⟨_, h⟩ := noteChain_eq s v p a n q l b ns; rw [h]
@[simp] theorem noteChain_thermal (v : State) (p : Option Nat) (a n : Nat) (q : Nat × Nat) (l b : Nat) (ns : List Nat) :
    (s.noteChain v p a n q l b ns).thermal = s.thermal := by
  obtain ⟨_, h⟩ := noteChain_eq s v p a n q l b ns; rw [h]
@[simp] theorem noteChain_slack (v : State) (p : Option Nat) (a n : Nat) (q : Nat × Nat) (l b : Nat) (ns : List Nat) :
    (s.noteChain v p a n q l b ns).slack = s.slack := by
  obtain ⟨_, h⟩ := noteChain_eq s v p a n q l b ns; rw [h]
@[simp] theorem noteChain_audit (v : State) (p : Option Nat) (a n : Nat) (q : Nat × Nat) (l b : Nat) (ns : List Nat) :
    (s.noteChain v p a n q l b ns).audit = s.audit := by
  obtain ⟨_, h⟩ := noteChain_eq s v p a n q l b ns; rw [h]
@[simp] theorem noteChain_auditPart (v : State) (p : Option Nat) (a n : Nat) (q : Nat × Nat) (l b : Nat) (ns : List Nat) :
    (s.noteChain v p a n q l b ns).auditPart = s.auditPart := by
  obtain ⟨_, h⟩ := noteChain_eq s v p a n q l b ns; rw [h]
@[simp] theorem noteChain_auditSigned (v : State) (p : Option Nat) (a n : Nat) (q : Nat × Nat) (l b : Nat) (ns : List Nat) :
    (s.noteChain v p a n q l b ns).auditSigned = s.auditSigned := by
  obtain ⟨_, h⟩ := noteChain_eq s v p a n q l b ns; rw [h]
@[simp] theorem noteChain_signals (v : State) (p : Option Nat) (a n : Nat) (q : Nat × Nat) (l b : Nat) (ns : List Nat) :
    (s.noteChain v p a n q l b ns).signals = s.signals := by
  obtain ⟨_, h⟩ := noteChain_eq s v p a n q l b ns; rw [h]
@[simp] theorem noteChain_retiredChannels (v : State) (p : Option Nat) (a n : Nat) (q : Nat × Nat) (l b : Nat) (ns : List Nat) :
    (s.noteChain v p a n q l b ns).retiredChannels = s.retiredChannels := by
  obtain ⟨_, h⟩ := noteChain_eq s v p a n q l b ns; rw [h]
@[simp] theorem noteChain_softErrors (v : State) (p : Option Nat) (a n : Nat) (q : Nat × Nat) (l b : Nat) (ns : List Nat) :
    (s.noteChain v p a n q l b ns).softErrors = s.softErrors := by
  obtain ⟨_, h⟩ := noteChain_eq s v p a n q l b ns; rw [h]
@[simp] theorem noteChain_cmds (v : State) (p : Option Nat) (a n : Nat) (q : Nat × Nat) (l b : Nat) (ns : List Nat) :
    (s.noteChain v p a n q l b ns).cmds = s.cmds := by
  obtain ⟨_, h⟩ := noteChain_eq s v p a n q l b ns; rw [h]
@[simp] theorem noteChain_tag (v : State) (p : Option Nat) (a n : Nat) (q : Nat × Nat) (l b : Nat) (ns : List Nat) :
    (s.noteChain v p a n q l b ns).tag = s.tag := by
  obtain ⟨_, h⟩ := noteChain_eq s v p a n q l b ns; rw [h]
@[simp] theorem noteChain_seq (v : State) (p : Option Nat) (a n : Nat) (q : Nat × Nat) (l b : Nat) (ns : List Nat) :
    (s.noteChain v p a n q l b ns).seq = s.seq := by
  obtain ⟨_, h⟩ := noteChain_eq s v p a n q l b ns; rw [h]
@[simp] theorem noteChain_sched (v : State) (p : Option Nat) (a n : Nat) (q : Nat × Nat) (l b : Nat) (ns : List Nat) :
    (s.noteChain v p a n q l b ns).sched = s.sched := by
  obtain ⟨_, h⟩ := noteChain_eq s v p a n q l b ns; rw [h]
@[simp] theorem noteChain_ticks (v : State) (p : Option Nat) (a n : Nat) (q : Nat × Nat) (l b : Nat) (ns : List Nat) :
    (s.noteChain v p a n q l b ns).ticks = s.ticks := by
  obtain ⟨_, h⟩ := noteChain_eq s v p a n q l b ns; rw [h]
@[simp] theorem noteChain_paths (v : State) (p : Option Nat) (a n : Nat) (q : Nat × Nat) (l b : Nat) (ns : List Nat) :
    (s.noteChain v p a n q l b ns).paths = s.paths := by
  obtain ⟨_, h⟩ := noteChain_eq s v p a n q l b ns; rw [h]
@[simp] theorem noteChain_choices (v : State) (p : Option Nat) (a n : Nat) (q : Nat × Nat) (l b : Nat) (ns : List Nat) :
    (s.noteChain v p a n q l b ns).choices = s.choices := by
  obtain ⟨_, h⟩ := noteChain_eq s v p a n q l b ns; rw [h]
@[simp] theorem noteChain_free (v : State) (p : Option Nat) (a n : Nat) (q : Nat × Nat) (l b : Nat) (ns : List Nat) :
    (s.noteChain v p a n q l b ns).free = s.free := by
  obtain ⟨_, h⟩ := noteChain_eq s v p a n q l b ns; rw [h]
@[simp] theorem noteChain_curWg (v : State) (p : Option Nat) (a n : Nat) (q : Nat × Nat) (l b : Nat) (ns : List Nat) :
    (s.noteChain v p a n q l b ns).curWg = s.curWg := by
  obtain ⟨_, h⟩ := noteChain_eq s v p a n q l b ns; rw [h]
@[simp] theorem noteChain_curWarp (v : State) (p : Option Nat) (a n : Nat) (q : Nat × Nat) (l b : Nat) (ns : List Nat) :
    (s.noteChain v p a n q l b ns).curWarp = s.curWarp := by
  obtain ⟨_, h⟩ := noteChain_eq s v p a n q l b ns; rw [h]
@[simp] theorem noteChain_curMask (v : State) (p : Option Nat) (a n : Nat) (q : Nat × Nat) (l b : Nat) (ns : List Nat) :
    (s.noteChain v p a n q l b ns).curMask = s.curMask := by
  obtain ⟨_, h⟩ := noteChain_eq s v p a n q l b ns; rw [h]

end Sys2Proof.Machine
end

