-- ==== Sys2Proof/Laws/Warp.lean ====
section
/-! SUPPORT. What the updates of workgroups, warps, lanes and registers do to every other one; several updates of the
issuing warp are one. -/

namespace Sys2Proof.Machine

theorem wg_updWg (s : State) (k j : Nat) (g : Workgroup → Workgroup) :
    (s.updWg k g).wg j = if j = k then g (s.wg k) else s.wg j := SMap.get_upd _ s.wgs k j g

@[simp] theorem wg_updWg_same (s : State) (k : Nat) (g : Workgroup → Workgroup) : (s.updWg k g).wg k = g (s.wg k) := by
  simp [wg_updWg]

theorem wg_updWg_other (s : State) {k j : Nat} (g : Workgroup → Workgroup) (h : j ≠ k) : (s.updWg k g).wg j = s.wg j := by
  simp [wg_updWg, h]

theorem warp_updWarp (s : State) (k w j v : Nat) (g : Warp → Warp) :
    (s.updWarp k w g).warp j v = if j = k ∧ v = w then g (s.warp k w) else s.warp j v := by
  unfold State.updWarp State.warp
  rw [wg_updWg]
  by_cases h : j = k
  · subst h
    simp only [Workgroup.warp, if_true, true_and, SMap.get_upd]
  · simp [h]

@[simp] theorem warp_updWarp_same (s : State) (k w : Nat) (g : Warp → Warp) :
    (s.updWarp k w g).warp k w = g (s.warp k w) := by simp [warp_updWarp]

@[simp] theorem curW_updCur (s : State) (g : Warp → Warp) : (s.updCur g).curW = g s.curW :=
  warp_updWarp_same s s.curWg s.curWarp g

@[simp] theorem group_updCur (s : State) (g : Warp → Warp) : (s.updCur g).group = s.group := rfl

theorem curG_updCur (s : State) (g : Warp → Warp) :
    (s.updCur g).curG = { s.curG with warps := SMap.upd {} s.curG.warps s.curWarp g } :=
  wg_updWg_same s s.curWg fun x => { x with warps := SMap.upd {} x.warps s.curWarp g }

theorem updWg_updWg (s : State) (k : Nat) (g h : Workgroup → Workgroup) :
    (s.updWg k g).updWg k h = s.updWg k (fun x => h (g x)) := by
  simp [State.updWg, SMap.upd_upd]

theorem updWarp_updWarp (s : State) (k w : Nat) (g h : Warp → Warp) :
    (s.updWarp k w g).updWarp k w h = s.updWarp k w (fun x => h (g x)) := by
  simp [State.updWarp, updWg_updWg, SMap.upd_upd]

/-- Two changes of the issuing warp are one change. -/
theorem updCur_updCur (s : State) (g h : Warp → Warp) : (s.updCur g).updCur h = s.updCur (fun x => h (g x)) :=
  updWarp_updWarp s s.curWg s.curWarp g h

theorem lane_updLane (w : Warp) (l j : Nat) (g : Lane → Lane) :
    (w.updLane l g).lane j = if j = l then g (w.lane l) else w.lane j := SMap.get_upd _ w.lanes l j g

/-- A change of each of some lanes, none named twice. -/
theorem lane_updLanes (w : Warp) (ls : List Nat) (g : Nat → Lane → Lane) (l : Nat) (h : ls.Nodup) :
    (w.updLanes ls g).lane l = if l ∈ ls then g l (w.lane l) else w.lane l := by
  unfold Warp.updLanes
  induction ls generalizing w with
  | nil => simp
  | cons a ls ih =>
    have ha := List.nodup_cons.1 h
    rw [List.foldl_cons, ih _ ha.2, lane_updLane]
    by_cases hl : l = a
    · subst hl; simp [ha.1]
    · simp [hl]

theorem updLanes_other (w : Warp) (ls : List Nat) (g : Nat → Lane → Lane) :
    w.updLanes ls g = { w with lanes := (w.updLanes ls g).lanes } := by
  unfold Warp.updLanes
  induction ls generalizing w with
  | nil => rfl
  | cons a ls ih => rw [List.foldl_cons, ih]; rfl

theorem lanesOf_nodup (m : BitVec 64) : (lanesOf m).Nodup := (List.nodup_range).filter _

theorem group_nodup (s : State) : s.group.Nodup := lanesOf_nodup _

theorem trueLanes_nodup (s : State) (f : Fields) : (s.trueLanes f).Nodup := (group_nodup s).filter _

theorem trueLanes_sub (s : State) (f : Fields) : ∀ l ∈ s.trueLanes f, l ∈ s.group := fun _ h => List.mem_of_mem_filter h

/-! ### Registers -/

@[simp] theorem reg_gz (w : Warp) (l : Nat) : w.reg 255 l = 0 := rfl

theorem setReg_other (w : Warp) (r l : Nat) (v : Word) :
    w.setReg r l v = { w with regs := (w.setReg r l v).regs, hrows := (w.setReg r l v).hrows } := by
  unfold Warp.setReg Warp.setRegIn
  split
  · rfl
  · split <;> rfl

@[simp] theorem setReg_handler (w : Warp) (r l : Nat) (v : Word) : (w.setReg r l v).handler = w.handler := by
  rw [setReg_other]

/-- A register written reads back, `gz` discards, and every other register of every lane is as before. -/
theorem reg_setReg (w : Warp) (r l : Nat) (v : Word) (q j : Nat) :
    (w.setReg r l v).reg q j = if q = r ∧ j = l ∧ q ≠ 255 then v else w.reg q j := by
  by_cases hr : r = 255
  · subst hr
    by_cases hq : q = 255
    · subst hq; simp
    · simp [Warp.setReg, Warp.setRegIn, hq]
  · by_cases hq : q = 255
    · subst hq; simp
    · by_cases hh : w.handler = true ∧ 248 ≤ r
      · unfold Warp.setReg Warp.setRegIn
        rw [if_neg hr, if_pos hh]
        unfold Warp.reg
        simp only [hq, if_false]
        by_cases h2 : w.handler = true ∧ 248 ≤ q
        · simp only [h2, and_self, if_true, SMap.get_upd]
          by_cases h3 : q = r
          · subst h3
            simp only [if_true, true_and, SMap.get_set]
            by_cases h4 : j = l <;> simp [h4, hq]
          · simp [h3]
        · have : q ≠ r := fun e => h2 (e ▸ hh)
          rw [if_neg h2]; simp [this, h2]
      · unfold Warp.setReg Warp.setRegIn
        rw [if_neg hr, if_neg hh]
        unfold Warp.reg
        simp only [hq, if_false]
        by_cases h2 : w.handler = true ∧ 248 ≤ q
        · have : q ≠ r := fun e => hh (e ▸ h2)
          simp [h2, this]
        · simp only [h2, if_false, SMap.get_upd]
          by_cases h3 : q = r
          · subst h3
            simp only [if_true, true_and, SMap.get_set]
            by_cases h4 : j = l <;> simp [h4, hq]
          · simp [h3]

theorem regIn_setReg_hidden (w : Warp) (r l : Nat) (v : Word) (q j : Nat) (hq : 248 ≤ q) :
    (w.setReg r l v).regIn (!w.handler) q j = w.regIn (!w.handler) q j := by
  by_cases hr : r = 255
  · subst hr; simp [Warp.setReg, Warp.setRegIn]
  unfold Warp.regIn Warp.setReg Warp.setRegIn
  rw [if_neg hr]
  cases hh : w.handler
  · simp [Warp.reg, hq]
  · by_cases h : 248 ≤ r
    · simp [Warp.reg, h]
    · have hqr : q ≠ r := by omega
      simp [Warp.reg, h, SMap.get_upd, hqr]

/-- Registers written in several lanes. -/
theorem reg_foldl_setReg (ls : List Nat) (w : Warp) (r : Nat) (g : Nat → Word) (q j : Nat) :
    (ls.foldl (fun w l => w.setReg r l (g l)) w).reg q j = if q = r ∧ q ≠ 255 ∧ j ∈ ls then g j else w.reg q j := by
  induction ls generalizing w with
  | nil => simp
  | cons a ls ih =>
    rw [List.foldl_cons, ih, reg_setReg]
    by_cases hq : q = r ∧ q ≠ 255
    · by_cases hj : j ∈ ls
      · rw [if_pos ⟨hq.1, hq.2, hj⟩, if_pos ⟨hq.1, hq.2, List.mem_cons_of_mem _ hj⟩]
      · rw [if_neg (fun h => hj h.2.2)]
        by_cases ha : j = a
        · subst ha
          rw [if_pos ⟨hq.1, rfl, hq.2⟩, if_pos ⟨hq.1, hq.2, List.mem_cons_self ..⟩]
        · rw [if_neg (fun h => ha h.2.1), if_neg fun h => (List.mem_cons.1 h.2.2).elim ha hj]
    · have h1 : ¬(q = r ∧ q ≠ 255 ∧ j ∈ ls) := fun h => hq ⟨h.1, h.2.1⟩
      have h2 : ¬(q = r ∧ j = a ∧ q ≠ 255) := fun h => hq ⟨h.1, h.2.2⟩
      have h3 : ¬(q = r ∧ q ≠ 255 ∧ j ∈ a :: ls) := fun h => hq ⟨h.1, h.2.1⟩
      rw [if_neg h1, if_neg h2, if_neg h3]

/-- A warp that differs from another in registers only, with the rows that its mode does not name unchanged. -/
structure Warp.RegsOnly (w v : Warp) : Prop where
  rest : v = { w with regs := v.regs, hrows := v.hrows }
  hidden : ∀ q j, 248 ≤ q → v.regIn (!w.handler) q j = w.regIn (!w.handler) q j

theorem regsOnly_refl (w : Warp) : w.RegsOnly w := ⟨rfl, fun _ _ _ => rfl⟩

theorem regsOnly_setReg (w v : Warp) (r l : Nat) (x : Word) (h : w.RegsOnly v) : w.RegsOnly (v.setReg r l x) := by
  have hh : v.handler = w.handler := by rw [h.rest]
  constructor
  · have h1 := setReg_other v r l x
    have h2 := h.rest
    rw [h1, h2]
  · intro q j hq
    rw [← hh, regIn_setReg_hidden _ _ _ _ _ _ hq, hh]
    exact h.hidden q j hq

theorem regsOnly_foldl {β : Type} (ls : List β) (w v : Warp) (g : Warp → β → Warp) (h : w.RegsOnly v)
    (hg : ∀ u x, w.RegsOnly u → w.RegsOnly (g u x)) : w.RegsOnly (ls.foldl g v) := by
  induction ls generalizing v with
  | nil => exact h
  | cons a ls ih => exact ih _ (hg v a h)

end Sys2Proof.Machine
end

