-- ==== Sys2Proof/Laws/Issue.lean ====
section
/-! SUPPORT. What the issue of an instruction answers, and the effects of the shared result writes (R184, R190, R195, R236,
R248). -/

namespace Sys2Proof.Machine

/-- Everything the issue of an instruction can answer. -/
theorem issueHeld_cases (i : Instr) (held : Bool) (s : State) (k : State → State) :
    (s.canIssue = false ∧ issueHeld i held s k = .refused .noThread) ∨
    (s.canIssue = true ∧ precheck i s = none ∧ held = true ∧
      issueHeld i held s k = .next (s.waitLanes s.group (.atIssue i) i.fields.len)) ∨
    (s.canIssue = true ∧ (held = true → precheck i s ≠ none) ∧ (∃ l, s.spent = some l) ∧
      issueHeld i held s k = .next s.watchdogEnd) ∨
    (s.canIssue = true ∧ s.spent = none ∧ ∃ t, precheck i s = some t ∧
      issueHeld i held s k = .next ((s.charge i.fields).takeTrap s.curWg s.curWarp t)) ∨
    (s.canIssue = true ∧ s.spent = none ∧ precheck i s = none ∧ held = false ∧
      issueHeld i held s k = .next (k (s.charge i.fields))) := by
  unfold issueHeld
  cases s.canIssue <;> cases s.spent <;> cases precheck i s <;> cases held <;> simp

/-- The issue of an instruction that runs is its own effect on the charged state. -/
theorem issueHeld_runs {i : Instr} {held : Bool} {s : State} (k : State → State) (h : Runs i s)
    (hh : held = heldNow i s) : issueHeld i held s k = .next (k (s.charge i.fields)) := by
  unfold issueHeld
  rw [if_pos h.can, h.fresh, h.legal, hh, h.free]
  rfl

/-! ### The charge of one issue -/

/-- The issuing warp after the charge. -/
def Warp.charged (w : Warp) (s : State) (f : Fields) : Warp :=
  { w.updLanes s.group fun _ x => { x with ydist := x.ydist - 1, held := false } with
    perf := SMap.upd 0 w.perf 0 (· + 1), lastIssue := s.nextTurn, swapped := f.swap }

theorem charge_eq (s : State) (f : Fields) : s.charge f = s.updCur fun w => w.charged s f := rfl

theorem charged_eq (w : Warp) (s : State) (f : Fields) :
    w.charged s f = { w with lanes := (w.charged s f).lanes, perf := SMap.upd 0 w.perf 0 (· + 1)
                             lastIssue := s.nextTurn, swapped := f.swap } := by
  unfold Warp.charged; rw [updLanes_other]

@[simp] theorem charged_reg (w : Warp) (s : State) (f : Fields) (r l : Nat) : (w.charged s f).reg r l = w.reg r l := by
  rw [charged_eq]; rfl
@[simp] theorem charged_pair (w : Warp) (s : State) (f : Fields) (r l : Nat) : (w.charged s f).pair r l = w.pair r l := by
  simp [Warp.pair]
@[simp] theorem charged_uni (w : Warp) (s : State) (f : Fields) : (w.charged s f).uni = w.uni := by rw [charged_eq]
@[simp] theorem charged_handler (w : Warp) (s : State) (f : Fields) : (w.charged s f).handler = w.handler := by rw [charged_eq]
@[simp] theorem charged_fstat (w : Warp) (s : State) (f : Fields) : (w.charged s f).fstat = w.fstat := by rw [charged_eq]
@[simp] theorem charged_books (w : Warp) (s : State) (f : Fields) : (w.charged s f).books = w.books := by rw [charged_eq]
@[simp] theorem charged_segs (w : Warp) (s : State) (f : Fields) : (w.charged s f).segs = w.segs := by rw [charged_eq]

theorem charged_lane (w : Warp) (s : State) (f : Fields) (l : Nat) :
    (w.charged s f).lane l =
      if l ∈ s.group then { w.lane l with ydist := (w.lane l).ydist - 1, held := false } else w.lane l := by
  have := lane_updLanes w s.group (fun _ x => { x with ydist := x.ydist - 1, held := false }) l (group_nodup s)
  exact this

@[simp] theorem charged_preds (w : Warp) (s : State) (f : Fields) (l : Nat) :
    ((w.charged s f).lane l).preds = (w.lane l).preds := by rw [charged_lane]; split <;> rfl
@[simp] theorem charged_pc (w : Warp) (s : State) (f : Fields) (l : Nat) :
    ((w.charged s f).lane l).pc = (w.lane l).pc := by rw [charged_lane]; split <;> rfl
@[simp] theorem charged_seed (w : Warp) (s : State) (f : Fields) (l : Nat) :
    ((w.charged s f).lane l).seed = (w.lane l).seed := by rw [charged_lane]; split <;> rfl
@[simp] theorem charged_exited (w : Warp) (s : State) (f : Fields) (l : Nat) :
    ((w.charged s f).lane l).exited = (w.lane l).exited := by rw [charged_lane]; split <;> rfl
@[simp] theorem charged_wait (w : Warp) (s : State) (f : Fields) (l : Nat) :
    ((w.charged s f).lane l).wait = (w.lane l).wait := by rw [charged_lane]; split <;> rfl
@[simp] theorem charged_pred (w : Warp) (s : State) (f : Fields) (l i : Nat) :
    ((w.charged s f).lane l).pred i = (w.lane l).pred i := by simp [Lane.pred]
@[simp] theorem charged_guards (w : Warp) (s : State) (f g : Fields) (l : Nat) :
    ((w.charged s f).lane l).guardsTrue g = (w.lane l).guardsTrue g := by simp [Lane.guardsTrue]
@[simp] theorem charged_src (w : Warp) (s : State) (f : Fields) (u : Bool) (r : BitVec 8) (l : Nat) :
    (w.charged s f).src u r l = w.src u r l := by simp [Warp.src]
@[simp] theorem charged_srcA (w : Warp) (s : State) (f g : Fields) (l : Nat) : (w.charged s f).srcA g l = w.srcA g l := by
  simp [Warp.srcA]
@[simp] theorem charged_srcB (w : Warp) (s : State) (f g : Fields) (l : Nat) : (w.charged s f).srcB g l = w.srcB g l := by
  simp [Warp.srcB]
@[simp] theorem charged_srcC (w : Warp) (s : State) (f g : Fields) (l : Nat) : (w.charged s f).srcC g l = w.srcC g l := by
  simp [Warp.srcC]
@[simp] theorem charged_pairA (w : Warp) (s : State) (f g : Fields) (l : Nat) : (w.charged s f).pairA g l = w.pairA g l := by
  simp [Warp.pairA]
@[simp] theorem charged_pairB (w : Warp) (s : State) (f g : Fields) (l : Nat) : (w.charged s f).pairB g l = w.pairB g l := by
  simp [Warp.pairB]
@[simp] theorem charged_pairC (w : Warp) (s : State) (f g : Fields) (l : Nat) : (w.charged s f).pairC g l = w.pairC g l := by
  simp [Warp.pairC]
@[simp] theorem charged_wideB (w : Warp) (s : State) (f g : Fields) (l : Nat) : (w.charged s f).wideB g l = w.wideB g l := by
  simp [Warp.wideB]
@[simp] theorem charged_rm (w : Warp) (s : State) (f : Fields) (c l i : Nat) : (w.charged s f).rm c l i = w.rm c l i := by
  simp [Warp.rm]
@[simp] theorem charged_predA (w : Warp) (s : State) (f g : Fields) (l : Nat) : (w.charged s f).predA g l = w.predA g l := by
  simp [Warp.predA]
@[simp] theorem charged_predB (w : Warp) (s : State) (f g : Fields) (l : Nat) : (w.charged s f).predB g l = w.predB g l := by
  simp [Warp.predB]

@[simp] theorem curW_charge (s : State) (f : Fields) : (s.charge f).curW = s.curW.charged s f := by
  rw [charge_eq, curW_updCur]

@[simp] theorem group_charge (s : State) (f : Fields) : (s.charge f).group = s.group := rfl

@[simp] theorem trueLanes_charge (s : State) (f g : Fields) : (s.charge f).trueLanes g = s.trueLanes g := by
  simp [State.trueLanes]

/-- A group's move past an instruction. -/
def Warp.moved (w : Warp) (s : State) (n : Nat) : Warp :=
  w.updLanes s.group fun _ x => { x with pc := x.pc + BitVec.ofNat 64 n }

theorem advance_eq (s : State) (n : Nat) : s.advance n = s.updCur fun w => w.moved s n := rfl

/-! ### Effects -/

/-- What a warp must be for the state with it in place of the issuing warp to be the state after an instruction. -/
theorem executed_updCur {s : State} {f : Fields} {e : Effects} {F : Warp → Warp}
    (warp : F s.curW =
      { e.rest s.curW with
        lanes := (F s.curW).lanes, regs := (F s.curW).regs, hrows := (F s.curW).hrows, uni := (F s.curW).uni
        perf := (F s.curW).perf, fstat := (e.rest s.curW).fstat ||| e.flags, lastIssue := s.nextTurn, swapped := f.swap })
    (perf : ∀ n, SMap.get 0 (F s.curW).perf n = SMap.get 0 s.curW.perf n + (if n = 0 then 1 else 0))
    (others : ∀ l, l ∉ s.group → (F s.curW).lane l = s.curW.lane l)
    (lanes : ∀ l, l ∈ s.group → (F s.curW).lane l =
      e.lane l { s.curW.lane l with pc := (s.curW.lane l).pc + BitVec.ofNat 64 f.len
                                    ydist := (s.curW.lane l).ydist - 1, held := false })
    (regs : ∀ r l, (F s.curW).reg r l = (e.reg r l).getD (s.curW.reg r l))
    (hidden : ∀ r l, 248 ≤ r → (F s.curW).regIn (!s.curW.handler) r l = s.curW.regIn (!s.curW.handler) r l)
    (unis : ∀ r, SMap.get 0 (F s.curW).uni r = (e.uni r).getD (SMap.get 0 s.curW.uni r)) :
    Executed s (s.updCur F) f e where
  outside := rfl
  wgs k hk := wg_updWg_other s _ hk
  objects := by
    rw [curG_updCur]
  warps w hw := by
    rw [curG_updCur]
    show SMap.get {} (SMap.upd {} s.curG.warps s.curWarp F) w = _
    rw [SMap.get_upd, if_neg hw]; rfl
  warp := by simpa using warp
  issued := by simpa using perf
  others := by simpa using others
  lanes := by simpa using lanes
  regs := by simpa using regs
  hidden := by simpa using hidden
  unis := by simpa using unis

/-- The issuing warp after an instruction that changes it from its charged form `c` to `v` and then moves on. -/
theorem executed_act {s : State} {f : Fields} {e : Effects} {P : Warp → Warp}
    (warp : P (s.curW.charged s f) =
      { e.rest s.curW with
        lanes := (P (s.curW.charged s f)).lanes, regs := (P (s.curW.charged s f)).regs
        hrows := (P (s.curW.charged s f)).hrows, uni := (P (s.curW.charged s f)).uni
        perf := (s.curW.charged s f).perf, fstat := (e.rest s.curW).fstat ||| e.flags
        lastIssue := s.nextTurn, swapped := f.swap })
    (others : ∀ l, l ∉ s.group → (P (s.curW.charged s f)).lane l = (s.curW.charged s f).lane l)
    (lanes : ∀ l, l ∈ s.group →
      { (P (s.curW.charged s f)).lane l with pc := ((P (s.curW.charged s f)).lane l).pc + BitVec.ofNat 64 f.len } =
      e.lane l { s.curW.lane l with pc := (s.curW.lane l).pc + BitVec.ofNat 64 f.len
                                    ydist := (s.curW.lane l).ydist - 1, held := false })
    (regs : ∀ r l, (P (s.curW.charged s f)).reg r l = (e.reg r l).getD (s.curW.reg r l))
    (hidden : ∀ r l, 248 ≤ r →
      (P (s.curW.charged s f)).regIn (!s.curW.handler) r l = s.curW.regIn (!s.curW.handler) r l)
    (unis : ∀ r, SMap.get 0 (P (s.curW.charged s f)).uni r = (e.uni r).getD (SMap.get 0 s.curW.uni r)) :
    Executed s (((s.charge f).updCur P).advance f.len) f e := by
  have h1 : ((s.charge f).updCur P).advance f.len = s.updCur fun w => (P (w.charged s f)).moved s f.len := by
    rw [charge_eq, updCur_updCur, advance_eq, updCur_updCur]; rfl
  rw [h1]
  have hm (v : Warp) : v.moved s f.len = { v with lanes := (v.moved s f.len).lanes } := updLanes_other _ _ _
  have hl (v : Warp) (l : Nat) : (v.moved s f.len).lane l =
      if l ∈ s.group then { v.lane l with pc := (v.lane l).pc + BitVec.ofNat 64 f.len } else v.lane l :=
    lane_updLanes v s.group _ l (group_nodup s)
  apply executed_updCur
  · rw [hm, warp]
  · intro n
    rw [hm, warp]
    show SMap.get 0 (SMap.upd 0 s.curW.perf 0 (· + 1)) n = _
    rw [SMap.get_upd]
    by_cases h0 : n = 0
    · subst h0; rw [if_pos rfl, if_pos rfl]
    · rw [if_neg h0, if_neg h0]; exact (BitVec.add_zero _).symm
  · intro l hn
    rw [hl, if_neg hn, others l hn, charged_lane, if_neg hn]
  · intro l hi
    rw [hl, if_pos hi]
    exact lanes l hi
  · intro r l; rw [hm]; exact regs r l
  · intro r l h; rw [hm]; exact hidden r l h
  · intro r; rw [hm]; exact unis r

theorem putD_cases (w : Warp) (f : Fields) (ls : List Nat) (g : Nat → Word) :
    (f.kinds.getLsbD 0 = true ∧ w.putD f ls g =
      { w with uni := match ls with | [] => w.uni | l :: _ => SMap.set 0 w.uni f.d.toNat (g l) }) ∨
    (f.kinds.getLsbD 0 = false ∧ w.putD f ls g = ls.foldl (fun w l => w.setReg f.d.toNat l (g l)) w) := by
  unfold Warp.putD
  cases f.kinds.getLsbD 0
  · exact .inr ⟨rfl, rfl⟩
  · exact .inl ⟨rfl, by cases ls <;> rfl⟩

theorem regsOnly_foldl_setReg (w : Warp) (r : Nat) (ls : List Nat) (g : Nat → Word) :
    w.RegsOnly (ls.foldl (fun w l => w.setReg r l (g l)) w) :=
  regsOnly_foldl ls w w _ (regsOnly_refl w) fun _ _ h => regsOnly_setReg _ _ _ _ _ h

@[simp] theorem charged_regIn (w : Warp) (s : State) (f : Fields) (h : Bool) (r l : Nat) :
    (w.charged s f).regIn h r l = w.regIn h r l := by
  unfold Warp.regIn; rw [charged_eq]; rfl

/-- A warp that differs in registers, uniform registers and FSTAT has the same lanes. -/
theorem lane_congr {w v : Warp} (h : v.lanes = w.lanes) (l : Nat) : v.lane l = w.lane l := by
  unfold Warp.lane; rw [h]

@[simp] theorem orFlags_zero (w : Warp) : w.orFlags 0 = w := by simp [Warp.orFlags]

theorem advanceSeed_eq (w : Warp) (sr : Bool) (ls : List Nat) :
    w.advanceSeed sr ls = { w with lanes := (w.advanceSeed sr ls).lanes } := by
  unfold Warp.advanceSeed
  split
  · exact updLanes_other _ _ _
  · rfl

theorem lane_advanceSeed (w : Warp) (sr : Bool) (ls : List Nat) (l : Nat) (h : ls.Nodup) :
    (w.advanceSeed sr ls).lane l =
      if sr = true ∧ l ∈ ls then { w.lane l with seed := seedAdvance (w.lane l).seed } else w.lane l := by
  unfold Warp.advanceSeed
  cases sr
  · simp
  · rw [if_pos rfl, lane_updLanes _ _ _ _ h]; simp

/-- SEED advances in each guard-true lane under SR (R218, R277). -/
def Effects.seeding (e : Effects) (f : Fields) (s : State) (sr : Bool) : Effects :=
  { e with lane := fun l x => if sr = true ∧ l ∈ s.trueLanes f then { x with seed := seedAdvance x.seed } else x }

/-- A result write: registers or uniform registers, flags, SEED, and the move past the instruction. -/
theorem executed_result {s : State} {f : Fields} {Q : Warp → Warp} {fl : Warp → Nat} {sr : Bool}
    {reg : Nat → Nat → Option Word} {uni : Nat → Option Word}
    (hQ : Q (s.curW.charged s f) = { s.curW.charged s f with
      regs := (Q (s.curW.charged s f)).regs, hrows := (Q (s.curW.charged s f)).hrows, uni := (Q (s.curW.charged s f)).uni })
    (hreg : ∀ r l, (Q (s.curW.charged s f)).reg r l = (reg r l).getD (s.curW.reg r l))
    (hhid : ∀ r l, 248 ≤ r →
      (Q (s.curW.charged s f)).regIn (!s.curW.handler) r l = s.curW.regIn (!s.curW.handler) r l)
    (huni : ∀ r, SMap.get 0 (Q (s.curW.charged s f)).uni r = (uni r).getD (SMap.get 0 s.curW.uni r)) :
    Executed s (((s.charge f).updCur fun w =>
        ((Q w).orFlags (fl w)).advanceSeed sr (s.trueLanes f)).advance f.len) f
      (Effects.seeding { reg, uni, flags := BitVec.ofNat 32 (fl (s.curW.charged s f) % 128) } f s sr) := by
  generalize hc : s.curW.charged s f = c at *
  have hv : ((Q c).orFlags (fl c)).advanceSeed sr (s.trueLanes f) =
      { Q c with fstat := (Q c).fstat ||| BitVec.ofNat 32 (fl c % 128)
                 lanes := (((Q c).orFlags (fl c)).advanceSeed sr (s.trueLanes f)).lanes } := by
    rw [advanceSeed_eq]; rfl
  have hl (l : Nat) : (((Q c).orFlags (fl c)).advanceSeed sr (s.trueLanes f)).lane l =
      if sr = true ∧ l ∈ s.trueLanes f then { c.lane l with seed := seedAdvance (c.lane l).seed } else c.lane l := by
    rw [lane_advanceSeed _ _ _ _ (trueLanes_nodup s f)]
    have : ((Q c).orFlags (fl c)).lane l = c.lane l := lane_congr (by rw [hQ]; rfl) l
    rw [this]
  apply executed_act <;> rw [hc]
  · rw [hv, hQ]
    simp only [Effects.seeding]
    rw [← hc, charged_eq]
  · intro l hn
    rw [hl, if_neg fun h => hn (trueLanes_sub s f l h.2)]
  · intro l hi
    rw [hl, ← hc, charged_lane, if_pos hi]
    simp only [Effects.seeding]
    split <;> rfl
  · intro r l; rw [hv]; exact hreg r l
  · intro r l h; rw [hv]; exact hhid r l h
  · intro r; rw [hv]; exact huni r

/-- The result write of most instructions, with flags: D, FSTAT, SEED, and the move past the instruction. -/
theorem writeDRm_executed (s : State) (f : Fields) (code : Nat) (g : Warp → Nat → Word × Flags) :
    Executed s ((s.charge f).writeDRm f code g) f
      (((toD f s fun l => (g (s.curW.charged s f) l).1).raising f s fun l => (g (s.curW.charged s f) l).2).seeding f s
        (code == 4)) := by
  have hfin (reg uni) (h1 : (toD f s fun l => (g (s.curW.charged s f) l).1).reg = reg)
      (h2 : (toD f s fun l => (g (s.curW.charged s f) l).1).uni = uni) :
      (((toD f s fun l => (g (s.curW.charged s f) l).1).raising f s fun l => (g (s.curW.charged s f) l).2).seeding f s
        (code == 4)) =
      let fl := flagsOver (s.trueLanes f) fun l => (g (s.curW.charged s f) l).2
      Effects.seeding { reg, uni, flags := BitVec.ofNat 32 (fl % 128) } f s (code == 4) := by
    subst h1 h2; unfold toD; split <;> rfl
  rw [hfin _ _ rfl rfl]
  unfold State.writeDRm
  rw [trueLanes_charge]
  refine executed_result (Q := fun w => w.putD f (s.trueLanes f) fun l => (g w l).1)
    (fl := fun w => flagsOver (s.trueLanes f) fun l => (g w l).2) ?_ ?_ ?_ ?_ <;>
    generalize hc : s.curW.charged s f = c <;>
    rcases putD_cases c f (s.trueLanes f) fun l => (g c l).1 with ⟨hk, h⟩ | ⟨hk, h⟩ <;> rw [h] <;>
    try simp only [toD, hk, if_true, Bool.false_eq_true, if_false]
  · exact (regsOnly_foldl_setReg c f.d.toNat (s.trueLanes f) fun l => (g c l).1).rest.trans (by
      rw [(regsOnly_foldl_setReg c f.d.toNat (s.trueLanes f) fun l => (g c l).1).rest])
  · intro r l; rw [← hc]; exact charged_reg s.curW s f r l
  · intro r l
    rw [reg_foldl_setReg, ← hc, charged_reg]
    by_cases hh : r = f.d.toNat ∧ r ≠ 255 ∧ l ∈ s.trueLanes f
    · rw [if_pos hh, if_pos hh]; rfl
    · rw [if_neg hh, if_neg hh]; rfl
  · intro r l _; rw [← hc]; exact charged_regIn s.curW s f _ r l
  · intro r l hr
    have h1 := (regsOnly_foldl_setReg c f.d.toNat (s.trueLanes f) fun l => (g c l).1).hidden r l hr
    have h2 : c.handler = s.curW.handler := by rw [← hc]; exact charged_handler ..
    rw [h2] at h1
    rw [h1, ← hc, charged_regIn]
  · intro r
    have hu : c.uni = s.curW.uni := by rw [← hc]; exact charged_uni ..
    cases s.trueLanes f with
    | nil => simp [hu]
    | cons a ls => simp only [List.head?_cons, Option.map_some, hu, SMap.get_set]; split <;> rfl
  · intro r
    rw [(regsOnly_foldl_setReg c f.d.toNat (s.trueLanes f) fun l => (g c l).1).rest, ← hc]
    simp

theorem seeding_false (e : Effects) (f : Fields) (s : State) (h : e.lane = fun _ x => x) : e.seeding f s false = e := by
  obtain ⟨_, _, lane, _, _⟩ := e
  simp only at h
  subst h
  simp [Effects.seeding]

theorem toD_lane (f : Fields) (s : State) (v : Nat → Word) : (toD f s v).lane = fun _ x => x := by
  unfold toD; split <;> rfl

theorem writeDFl_executed (s : State) (f : Fields) (g : Warp → Nat → Word × Flags) :
    Executed s ((s.charge f).writeDFl f g) f
      ((toD f s fun l => (g (s.curW.charged s f) l).1).raising f s fun l => (g (s.curW.charged s f) l).2) := by
  have h := writeDRm_executed s f 0 g
  rw [show ((0 : Nat) == 4) = false from rfl, seeding_false] at h
  · exact h
  · exact toD_lane ..

theorem flagsOver_zero (ls : List Nat) : flagsOver ls (fun _ => 0) = 0 := by
  unfold flagsOver
  induction ls with
  | nil => rfl
  | cons a ls ih => simp

theorem raising_zero (e : Effects) (f : Fields) (s : State) (h : e.flags = 0) : e.raising f s (fun _ => 0) = e := by
  obtain ⟨_, _, _, flags, _⟩ := e
  simp only at h
  subst h
  simp [Effects.raising]

theorem toD_flags (f : Fields) (s : State) (v : Nat → Word) : (toD f s v).flags = 0 := by
  unfold toD; split <;> rfl

theorem writeD_executed (s : State) (f : Fields) (g : Warp → Nat → Word) :
    Executed s ((s.charge f).writeD f g) f (toD f s fun l => g (s.curW.charged s f) l) := by
  have h := writeDFl_executed s f fun w l => (g w l, 0)
  rw [raising_zero _ _ _ (toD_flags ..)] at h
  have h2 : (s.charge f).writeDFl f (fun w l => (g w l, 0)) = (s.charge f).writeD f g := by
    simp [State.writeDFl, State.writeD, flagsOver_zero]
  rwa [h2] at h

/-! ### Pairs -/

theorem pair_setPair_regs (w : Warp) (r l : Nat) (v : DWord) (q j : Nat) :
    (w.setPair r l v).reg q j =
      if j = l ∧ q ≠ 255 ∧ q = r + 1 then (v >>> 32).setWidth 32
      else if j = l ∧ q ≠ 255 ∧ q = r then v.setWidth 32 else w.reg q j := by
  unfold Warp.setPair
  rw [reg_setReg, reg_setReg]
  by_cases h1 : j = l ∧ q ≠ 255 ∧ q = r + 1
  · rw [if_pos ⟨h1.2.2, h1.1, h1.2.1⟩, if_pos h1]
  · rw [if_neg fun h => h1 ⟨h.2.1, h.2.2, h.1⟩, if_neg h1]
    by_cases h2 : j = l ∧ q ≠ 255 ∧ q = r
    · rw [if_pos ⟨h2.2.2, h2.1, h2.2.1⟩, if_pos h2]
    · rw [if_neg fun h => h2 ⟨h.2.1, h.2.2, h.1⟩, if_neg h2]

theorem regsOnly_setPair (w v : Warp) (r l : Nat) (x : DWord) (h : w.RegsOnly v) : w.RegsOnly (v.setPair r l x) :=
  regsOnly_setReg _ _ _ _ _ (regsOnly_setReg _ _ _ _ _ h)

/-- Pairs written in several lanes. -/
theorem reg_foldl_setPair (ls : List Nat) (w : Warp) (r : Nat) (g : Nat → DWord) (q j : Nat) :
    (ls.foldl (fun w l => w.setPair r l (g l)) w).reg q j =
      if j ∈ ls ∧ q ≠ 255 ∧ q = r + 1 then (g j >>> 32).setWidth 32
      else if j ∈ ls ∧ q ≠ 255 ∧ q = r then (g j).setWidth 32 else w.reg q j := by
  induction ls generalizing w with
  | nil => simp
  | cons a ls ih =>
    rw [List.foldl_cons, ih, pair_setPair_regs]
    by_cases hj : j ∈ ls
    · have hj2 : j ∈ a :: ls := List.mem_cons_of_mem _ hj
      by_cases h1 : q ≠ 255 ∧ q = r + 1
      · rw [if_pos ⟨hj, h1⟩, if_pos ⟨hj2, h1⟩]
      · rw [if_neg fun h => h1 h.2, if_neg (c := j ∈ a :: ls ∧ q ≠ 255 ∧ q = r + 1) fun h => h1 h.2]
        by_cases h2 : q ≠ 255 ∧ q = r
        · rw [if_pos ⟨hj, h2⟩, if_pos ⟨hj2, h2⟩]
        · rw [if_neg fun h => h2 h.2, if_neg fun h => h1 h.2, if_neg fun h => h2 h.2,
            if_neg (c := j ∈ a :: ls ∧ q ≠ 255 ∧ q = r) fun h => h2 h.2]
    · rw [if_neg fun h => hj h.1, if_neg fun h => hj h.1]
      by_cases ha : j = a
      · subst ha; simp
      · have : j ∉ a :: ls := by simp [ha, hj]
        simp [ha, this]

theorem regsOnly_foldl_setPair (w : Warp) (r : Nat) (ls : List Nat) (g : Nat → DWord) :
    w.RegsOnly (ls.foldl (fun w l => w.setPair r l (g l)) w) :=
  regsOnly_foldl ls w w _ (regsOnly_refl w) fun _ _ h => regsOnly_setPair _ _ _ _ _ h

/-- A result write that changes general registers only, from what is known of those registers. -/
theorem executed_regs {s : State} {f : Fields} {Q : Warp → Warp} {fl : Warp → Nat} {sr : Bool}
    {reg : Nat → Nat → Option Word} (hQ : (s.curW.charged s f).RegsOnly (Q (s.curW.charged s f)))
    (hreg : ∀ r l, (Q (s.curW.charged s f)).reg r l = (reg r l).getD (s.curW.reg r l)) :
    Executed s (((s.charge f).updCur fun w =>
        ((Q w).orFlags (fl w)).advanceSeed sr (s.trueLanes f)).advance f.len) f
      (Effects.seeding { reg, flags := BitVec.ofNat 32 (fl (s.curW.charged s f) % 128) } f s sr) := by
  refine executed_result (hQ.rest.trans (by rw [hQ.rest])) hreg ?_ ?_
  · intro r l hr
    have h1 := hQ.hidden r l hr
    rwa [charged_handler, charged_regIn] at h1
  · intro r
    rw [hQ.rest]
    simp

theorem writePairRm_executed (s : State) (f : Fields) (code : Nat) (g : Warp → Nat → DWord × Flags) :
    Executed s ((s.charge f).writePairRm f code g) f
      (((toPair f s fun l => (g (s.curW.charged s f) l).1).raising f s fun l => (g (s.curW.charged s f) l).2).seeding f s
        (code == 4)) := by
  unfold State.writePairRm
  rw [trueLanes_charge]
  refine executed_regs (Q := fun w => w.putPair f (s.trueLanes f) fun l => (g w l).1)
    (fl := fun w => flagsOver (s.trueLanes f) fun l => (g w l).2) (regsOnly_foldl_setPair ..) ?_
  intro r l
  show (List.foldl _ _ _ : Warp).reg r l = _
  rw [reg_foldl_setPair, charged_reg]
  by_cases h0 : l ∉ s.trueLanes f ∨ r = 255
  · rw [if_neg fun h => h0.elim (fun x => x h.1) h.2.1, if_neg fun h => h0.elim (fun x => x h.1) h.2.1]
    simp only [toPair]; rw [if_pos h0]; rfl
  · have h1 : l ∈ s.trueLanes f ∧ r ≠ 255 := ⟨by_contra fun h => h0 (.inl h), fun h => h0 (.inr h)⟩
    simp only [toPair]; rw [if_neg h0]
    by_cases h2 : r = f.d.toNat
    · rw [if_neg fun h => by omega, if_pos ⟨h1.1, h1.2, h2⟩, if_pos h2]; rfl
    · rw [if_neg h2]
      by_cases h3 : r = f.d.toNat + 1
      · rw [if_pos ⟨h1.1, h1.2, h3⟩, if_pos h3]; rfl
      · rw [if_neg fun h => h3 h.2.2, if_neg fun h => h2 h.2.2, if_neg h3]; rfl

theorem writePair_executed (s : State) (f : Fields) (g : Warp → Nat → DWord) :
    Executed s ((s.charge f).writePair f g) f (toPair f s fun l => g (s.curW.charged s f) l) := by
  have h := writePairRm_executed s f 0 fun w l => (g w l, 0)
  rw [show ((0 : Nat) == 4) = false from rfl, seeding_false, raising_zero] at h
  · have h2 : (s.charge f).writePairRm f 0 (fun w l => (g w l, 0)) = (s.charge f).writePair f g := by
      simp [State.writePairRm, State.writePair, flagsOver_zero, Warp.advanceSeed]
    rwa [h2] at h
  · rfl
  · rfl

/-! ### Predicates -/

/-- A predicate written reads back; `pt` discards; every other predicate is as before (R227, R232). -/
theorem pred_setPred (x : Lane) (i j : Nat) (v : Bool) :
    (x.setPred i v).pred j = if j = i ∧ i < 7 then v else x.pred j := by
  unfold Lane.setPred
  by_cases hi : i ≥ 7
  · rw [if_pos hi, if_neg (by omega)]
  · have hi7 : i < 7 := by omega
    rw [if_neg hi]
    have hb (k : Nat) : (BitVec.ofNat 7 (2 ^ i)).getLsbD k = (decide (k < 7) && decide (i = k)) := by
      rw [BitVec.getLsbD_ofNat, Nat.testBit_two_pow]
    generalize BitVec.ofNat 7 (2 ^ i) = b at hb
    unfold Lane.pred
    by_cases h : j = i
    · subst h
      have h7 : j ≠ 7 := by omega
      cases v <;> simp [hb, hi7, h7]
    · have h2 : ¬(j = i ∧ i < 7) := fun e => h e.1
      have h3 : ¬i = j := fun e => h e.symm
      rw [if_neg h2]
      by_cases hj : j < 7
      · cases v <;> simp [hb, h3, decide_eq_true hj]
      · simp [BitVec.getLsbD_of_ge _ _ (by omega : 7 ≤ j)]

theorem writePredFl_executed (s : State) (f : Fields) (g : Warp → Nat → Bool × Flags) :
    Executed s ((s.charge f).writePredFl f g) f
      ((toPred f s fun l => (g (s.curW.charged s f) l).1).raising f s fun l => (g (s.curW.charged s f) l).2) := by
  unfold State.writePredFl
  rw [trueLanes_charge]
  have hp (c : Warp) : (c.putPred f (s.trueLanes f) fun l => (g c l).1).orFlags
      (flagsOver (s.trueLanes f) fun l => (g c l).2) =
      { c with lanes := (c.putPred f (s.trueLanes f) fun l => (g c l).1).lanes
               fstat := c.fstat ||| BitVec.ofNat 32 (flagsOver (s.trueLanes f) (fun l => (g c l).2) % 128) } := by
    unfold Warp.putPred Warp.orFlags; rw [updLanes_other]
  have hl (c : Warp) (l : Nat) : ((c.putPred f (s.trueLanes f) fun l => (g c l).1).orFlags
      (flagsOver (s.trueLanes f) fun l => (g c l).2)).lane l =
      if l ∈ s.trueLanes f then (c.lane l).setPred f.d.toNat (g c l).1 else c.lane l :=
    lane_updLanes c (s.trueLanes f) _ l (trueLanes_nodup s f)
  apply executed_act
  · rw [hp, charged_eq]; rfl
  · intro l hn
    rw [hl, if_neg fun h => hn (trueLanes_sub s f l h)]
  · intro l hi
    rw [hl, charged_lane, if_pos hi]
    simp only [Effects.raising, toPred, Lane.setPred]
    split
    · split <;> rfl
    · rfl
  · intro r l; rw [hp]; exact charged_reg s.curW s f r l
  · intro r l h; rw [hp]; exact charged_regIn s.curW s f _ r l
  · intro r; rw [hp, charged_eq]; rfl

theorem writePred_executed (s : State) (f : Fields) (g : Warp → Nat → Bool) :
    Executed s ((s.charge f).writePred f g) f (toPred f s fun l => g (s.curW.charged s f) l) := by
  have h := writePredFl_executed s f fun w l => (g w l, 0)
  rw [raising_zero _ _ _ rfl] at h
  have h2 : (s.charge f).writePredFl f (fun w l => (g w l, 0)) = (s.charge f).writePred f g := by
    simp [State.writePredFl, State.writePred, flagsOver_zero]
  rwa [h2] at h

/-- An instruction that changes only lanes of its group beside their move past it. -/
theorem executed_lanes {s : State} {f : Fields} {ls : List Nat} {g : Nat → Lane → Lane} (hn : ls.Nodup)
    (hs : ∀ l ∈ ls, l ∈ s.group)
    (hg : ∀ l x n, { g l x with pc := (g l x).pc + n } = g l { x with pc := x.pc + n }) :
    Executed s (((s.charge f).updCur fun w => w.updLanes ls g).advance f.len) f
      { lane := fun l x => if l ∈ ls then g l x else x } := by
  apply executed_act
  · rw [updLanes_other, charged_eq]; simp
  · intro l h
    rw [lane_updLanes _ _ _ _ hn, if_neg fun e => h (hs l e)]
  · intro l h
    rw [lane_updLanes _ _ _ _ hn, charged_lane, if_pos h]
    by_cases hl : l ∈ ls
    · simp only [hl, if_true, hg]
    · simp only [hl, if_false]
  · intro r l; rw [updLanes_other]; exact charged_reg s.curW s f r l
  · intro r l h; rw [updLanes_other]; exact charged_regIn s.curW s f _ r l
  · intro r; rw [updLanes_other, charged_eq]; rfl

/-- An instruction that changes nothing beside the move past it. -/
theorem advance_executed (s : State) (f : Fields) : Executed s ((s.charge f).advance f.len) f {} := by
  have h := executed_lanes (s := s) (f := f) (ls := []) (g := fun _ x => x) (by simp) (by simp) (fun _ _ _ => rfl)
  have h2 : ((s.charge f).updCur fun w => w.updLanes [] fun _ x => x) = s.charge f := by
    rw [charge_eq, updCur_updCur]; rfl
  rw [h2] at h
  simpa using h

/-- An instruction completes with the effects of its own meaning on the charged state. -/
theorem completes_of {i : Instr} {s : State} {e : Effects} {held : Bool} (k : State → State)
    (hx : exec i s = issueHeld i held s k) (hh : held = heldNow i s)
    (h : Executed s (k (s.charge i.fields)) i.fields e) : Completes i s e :=
  fun hr => ⟨_, hx.trans (issueHeld_runs k hr hh), h⟩

end Sys2Proof.Machine
end

