-- ==== Sys2Proof/Tests/Slice0.lean ====
section
/-! SUPPORT. Tests: example words and worked values of the manual, ill-formed encodings that are refused, and a witness for the
hypotheses of each statement. -/

namespace Sys2Proof.Tests

-- one theorem after another, so that the memory of the check stays small
set_option Elab.async false

open Sys2Proof.Machine

/-- The fields of an instruction with both guards `pt` and every other field zero. -/
abbrev pt : Fields := plainFields

/-- Declarations of every kind of object, for one warp of a role: 0 copy, 1 matrix, 2 vector. -/
def decl (role : Nat) : Packet :=
  { nx := 1, ny := 1, nz := 1, warps := 1, ncopy := b2n (role == 0), nmat := b2n (role == 1), nvec := b2n (role == 2),
    home := 32, travel := 8, nbar := 2, nring := 1, nacc := 4, nwb := 1, nhist := 1, qgroup := 1, scratch := 32768,
    ringcfg := [0x811] }

/-- An unexited lane at PC 0x40. -/
def at40 : Lane := { pc := 0x40, exited := false, ydist := 9, seed := 0xD000 }

/-- A warp with lanes 0 and 1 at PC 0x40; registers of these lanes as given: register, lane, value. -/
def warpWith (vals : List (Nat × Nat × Word)) : Warp :=
  vals.foldl (fun w x => w.setReg x.1 x.2.1 x.2.2) { lanes := [(0, at40), (1, at40)], active := true }

/-- One resident workgroup of one warp, whose lanes 0 and 1 issue. -/
def demo (role : Nat) (vals : List (Nat × Nat × Word)) : State :=
  { State.reset with
    launches := [(0, { packet := decl role, ctx := 1, nextWg := 1 })]
    wgs := [(0, { status := .resident, warps := [(0, warpWith vals)], bars := startBars (decl role), stages := startStages (decl role),
                  tileNos := [0, 1, 2, 3], wbNos := [0], hsNos := [0] })]
    curMask := 3, tag := 100 }

/-- The same values in lanes 0 and 1. -/
def both (vals : List (Nat × Word)) : List (Nat × Nat × Word) := vals.flatMap fun x => [(x.1, 0, x.2), (x.1, 1, x.2)]

/-- The state after an instruction; the same state where it answers none. -/
def ran (i : Instr) (s : State) : State :=
  match exec i s with
  | .next t => t
  | _ => s

/-- Register d of lane 0, and FSTAT, after an instruction of a vector warp whose lanes hold some values. -/
def gives (i : Instr) (vals : List (Nat × Word)) (d : Nat) : Word × Word :=
  let t := ran i (demo 2 (both vals))
  (t.curW.reg d 0, t.curW.fstat)

/-- Predicate p1 of lane 0 after an instruction. -/
def tests (i : Instr) (vals : List (Nat × Word)) : Bool := ((ran i (demo 2 (both vals))).curW.lane 0).pred 1

/-- D 3, A 1, B 2, with a MOD. -/
def ab (mod : BitVec 5) : Fields := { pt with d := 3, a := 1, b := 2, mod }

/-! ### Decoding: the manual's own example words (chapters 10 to 15) -/

theorem test_decode_integer :
    [decodeTableWord 96 0x0000006400000000605A1005,
     decodeTableWord 64 0x08000FF06017707C] =
    [some (.add { pt with ga := ⟨1, false⟩, gb := ⟨2, true⟩, d := 5, a := 6, ext := .imm 100 }),
     some (.icmp { pt with d := 1, a := 6, b := 255, mod := 1 })] := by decide

theorem test_wellFormed_integer :
    [.add { pt with ga := ⟨1, false⟩, gb := ⟨2, true⟩, d := 5, a := 6, ext := .imm 100 },
     .icmp { pt with d := 1, a := 6, b := 255, mod := 1 }].all (fun i => (i : Instr).wf) = true := by decide

theorem test_decode_float :
    [decodeTableWord 64 0x000030102047720C,
     decodeTableWord 64 0x0000003020F77208,
     decodeTableWord 96 0x3F0000001000000020177219] =
    [some (.ffma { pt with d := 4, a := 2, b := 1, c := 3 }),
     some (.fmul { pt with d := 15, a := 2, b := 3 }),
     some (.fcmp { pt with d := 1, a := 2, mod := 2, ext := .imm 0x3F000000 })] := by decide

theorem test_wellFormed_float :
    [.ffma { pt with d := 4, a := 2, b := 1, c := 3 },
     .fmul { pt with d := 15, a := 2, b := 3 },
     .fcmp { pt with d := 1, a := 2, mod := 2, ext := .imm 0x3F000000 }].all (fun i => (i : Instr).wf) = true := by decide

theorem test_decode_narrow :
    [decodeTableWord 64 0x0000025020177300,
     decodeTableWord 64 0x2000302010577304,
     decodeTableWord 64 0x000FF010C0E77320,
     decodeTableWord 64 0x000891A181E77304] =
    [some (.cvt { pt with d := 1, a := 2, b := 0x25 }),
     some (.pack { pt with d := 5, a := 1, b := 2, c := 3, mod := 4 }),
     some (.ndot { pt with d := 14, a := 12, b := 1, c := 255 }),
     some (.pack { pt with d := 30, a := 24, b := 26, c := 0x89 })] := by decide

theorem test_wellFormed_narrow :
    [.cvt { pt with d := 1, a := 2, b := 0x25 },
     .pack { pt with d := 5, a := 1, b := 2, c := 3, mod := 4 },
     .ndot { pt with d := 14, a := 12, b := 1, c := 255 },
     .pack { pt with d := 30, a := 24, b := 26, c := 0x89 }].all (fun i => (i : Instr).wf) = true := by decide

theorem test_decode_cross_lane :
    [decodeTableWord 96 0x000000013800000010177501,
     decodeTableWord 64 0x4000000010277508] =
    [some (.shfl { pt with d := 1, a := 1, mod := 7, ext := .imm 1 }),
     some (.redl { pt with d := 2, a := 1, mod := 8 })] := by decide

theorem test_wellFormed_cross_lane :
    [.shfl { pt with d := 1, a := 1, mod := 7, ext := .imm 1 },
     .redl { pt with d := 2, a := 1, mod := 8 }].all (fun i => (i : Instr).wf) = true := by decide

theorem test_decode_control :
    [decodeTableWord 96 0x000000400000000000077601,
     decodeTableWord 96 0x000000400000000000071601,
     decodeTableWord 96 0x3FFFFFC00000000000077621,
     decodeTableWord 64 0x0000000000077610,
     decodeTableWord 64 0x3000000000077614,
     decodeTableWord 64 0x000000000007762C,
     decodeTableWord 64 0x0000000040677680] =
    [some (.bra { pt with ext := .imm 64 }),
     some (.bra { pt with ga := ⟨1, false⟩, ext := .imm 64 }),
     some (.waitc { pt with ext := .imm 0x3FFFFFC0 }),
     some (.exit pt),
     some (.yield { pt with mod := 6 }),
     some (.nop pt),
     some (.movs { pt with d := 6, a := 4 })] := by decide

theorem test_wellFormed_control :
    [.bra { pt with ext := .imm 64 },
     .bra { pt with ga := ⟨1, false⟩, ext := .imm 64 },
     .waitc { pt with ext := .imm 0x3FFFFFC0 },
     .exit pt,
     .yield { pt with mod := 6 },
     .nop pt,
     .movs { pt with d := 6, a := 4 }].all (fun i => (i : Instr).wf) = true := by decide

theorem test_decode_memory :
    [decodeTableWord 96 0x000800000000000000177701,
     decodeTableWord 128 0x00200000FFFFFFC00000000040777702,
     decodeTableWord 128 0x00000818000000400000000081477702,
     decodeTableWord 64 0x2000000000277700,
     decodeTableWord 96 0x000C00000000004000077705,
     decodeTableWord 96 0x04005000000000A000171705,
     decodeTableWord 64 0x080000004017770C,
     decodeTableWord 128 0x00000818000000000000A0008147770A,
     decodeTableWord 96 0x000040001800002060177721] =
    [some (.ld { pt with d := 1, ext := .k 0 0 0 8 }),
     some (.ld { pt with d := 7, a := 4, ext := .wide 0xFFFFFFC0 0 0 0 0 2 }),
     some (.ld { pt with d := 20, a := 8, ext := .wide 64 24 8 0 0 0 }),
     some (.ld { pt with d := 2, mod := 4 }),
     some (.st { pt with b := 4, ext := .k 0 0 0 12 }),
     some (.st { pt with ga := ⟨1, false⟩, d := 1, b := 10, ext := .k 0 0 5 1024 }),
     some (.ldfe { pt with d := 1, a := 4, mod := 1 }),
     some (.ldi { pt with d := 20, a := 8, c := 10, ext := .wide 0 24 8 0 0 0 }),
     some (.atom { pt with d := 1, a := 6, b := 2, mod := 3, ext := .k 0 0 4 0 })] := by decide

theorem test_wellFormed_memory :
    [.ld { pt with d := 1, ext := .k 0 0 0 8 },
     .ld { pt with d := 7, a := 4, ext := .wide 0xFFFFFFC0 0 0 0 0 2 },
     .ld { pt with d := 20, a := 8, ext := .wide 64 24 8 0 0 0 },
     .ld { pt with d := 2, mod := 4 },
     .st { pt with b := 4, ext := .k 0 0 0 12 },
     .st { pt with ga := ⟨1, false⟩, d := 1, b := 10, ext := .k 0 0 5 1024 },
     .ldfe { pt with d := 1, a := 4, mod := 1 },
     .ldi { pt with d := 20, a := 8, c := 10, ext := .wide 0 24 8 0 0 0 },
     .atom { pt with d := 1, a := 6, b := 2, mod := 3, ext := .k 0 0 4 0 }].all (fun i => (i : Instr).wf) = true := by decide

theorem test_decode_fences :
    [decodeTableWord 96 0x000040000000000000077741,
     decodeTableWord 96 0x000050000800000000077741,
     decodeTableWord 96 0x000000001000000000077741] =
    [some (.fence { pt with ext := .k 0 0 4 0 }),
     some (.fenceAck { pt with mod := 1, ext := .k 0 0 5 0 }),
     some (.fenceOpr { pt with mod := 2, ext := .k 0 0 0 0 })] := by decide

theorem test_wellFormed_fences :
    [.fence { pt with ext := .k 0 0 4 0 },
     .fenceAck { pt with mod := 1, ext := .k 0 0 5 0 },
     .fenceOpr { pt with mod := 2, ext := .k 0 0 0 0 }].all (fun i => (i : Instr).wf) = true := by decide

theorem test_decode_synchronisation :
    [decodeTableWord 96 0x000800008002000040777901,
     decodeTableWord 64 0x000000007007790C,
     decodeTableWord 64 0x0000000000077920,
     decodeTableWord 64 0x0800000010077920,
     decodeTableWord 96 0x000040000800000000077925,
     decodeTableWord 64 0x0000000000777940,
     decodeTableWord 64 0x0000000000077948,
     decodeTableWord 64 0x1000000010277960] =
    [some (.cpy { pt with d := 7, a := 4, c := 0x20, mod := 16, ext := .k 0 0 0 8 }),
     some (.waitp { pt with a := 7 }),
     some (.barArr pt),
     some (.barSync { pt with a := 1, mod := 1 }),
     some (.bargSync { pt with mod := 1, ext := .k 0 0 4 0 }),
     some (.rgive { pt with d := 7 }),
     some (.rfree pt),
     some (.qpollRecv { pt with d := 2, a := 1, mod := 2 })] := by decide

theorem test_wellFormed_synchronisation :
    [.cpy { pt with d := 7, a := 4, c := 0x20, mod := 16, ext := .k 0 0 0 8 },
     .waitp { pt with a := 7 },
     .barArr pt,
     .barSync { pt with a := 1, mod := 1 },
     .bargSync { pt with mod := 1, ext := .k 0 0 4 0 },
     .rgive { pt with d := 7 },
     .rfree pt,
     .qpollRecv { pt with d := 2, a := 1, mod := 2 }].all (fun i => (i : Instr).wf) = true := by decide

theorem test_decode_matrix :
    [decodeTableWord 64 0x1800000090077A00,
     decodeTableWord 64 0x0000000FF0077A04,
     decodeTableWord 64 0x0000000090077A08,
     decodeTableWord 64 0x0000000010177A0C,
     decodeTableWord 64 0x0800504030277A10,
     decodeTableWord 64 0x1000000000177A14,
     decodeTableWord 64 0x00000FF010177A18,
     decodeTableWord 64 0x4000009010077A20,
     decodeTableWord 64 0x0000000000377A24] =
    [some (.mxi { pt with a := 9, mod := 3 }),
     some (.mxs { pt with a := 255 }),
     some (.mxv { pt with a := 9 }),
     some (.mxn { pt with d := 1, a := 1 }),
     some (.mxsa { pt with d := 2, a := 3, b := 4, c := 5, mod := 1 }),
     some (.mxz { pt with d := 1, mod := 2 }),
     some (.mxrd { pt with d := 1, a := 1, b := 255 }),
     some (.mxmvSt { pt with a := 1, b := 9, mod := 8 }),
     some (.wbinv { pt with d := 3 })] := by decide

theorem test_wellFormed_matrix :
    [.mxi { pt with a := 9, mod := 3 },
     .mxs { pt with a := 255 },
     .mxv { pt with a := 9 },
     .mxn { pt with d := 1, a := 1 },
     .mxsa { pt with d := 2, a := 3, b := 4, c := 5, mod := 1 },
     .mxz { pt with d := 1, mod := 2 },
     .mxrd { pt with d := 1, a := 1, b := 255 },
     .mxmvSt { pt with a := 1, b := 9, mod := 8 },
     .wbinv { pt with d := 3 }].all (fun i => (i : Instr).wf) = true := by decide

theorem test_decode_solve :
    [decodeTableWord 64 0x08003060D0277B00,
     decodeTableWord 96 0x3C243F00D000615140477B01,
     decodeTableWord 64 0x0000000000077B04,
     decodeTableWord 64 0x000000C010977B08,
     decodeTableWord 64 0x0000000000077B0C,
     decodeTableWord 64 0x080000C090077B0C,
     decodeTableWord 64 0x0000000000077B10] =
    [some (.solve { pt with d := 2, a := 13, b := 6, c := 3, mod := 1 }),
     some (.solve { pt with d := 4, a := 20, b := 21, c := 6, mod := 26, ext := .imm 0x3C243F00 }),
     some (.svend pt),
     some (.svrd { pt with d := 9, a := 1, b := 12 }),
     some (.svhsClr pt),
     some (.svhsWr { pt with a := 9, b := 12, mod := 1 }),
     some (.svabort pt)] := by decide

theorem test_wellFormed_solve :
    [.solve { pt with d := 2, a := 13, b := 6, c := 3, mod := 1 },
     .solve { pt with d := 4, a := 20, b := 21, c := 6, mod := 26, ext := .imm 0x3C243F00 },
     .svend pt,
     .svrd { pt with d := 9, a := 1, b := 12 },
     .svhsClr pt,
     .svhsWr { pt with a := 9, b := 12, mod := 1 },
     .svabort pt].all (fun i => (i : Instr).wf) = true := by decide
/-! ### Encodings that R236 refuses -/

theorem test_refuses_len3 : (decode (List.replicate 16 0xFF)).toOption = none := by decide
theorem test_refuses_opcode : decodeTableWord 64 0 = none := by decide
theorem test_refuses_form : (Instr.movi { pt with d := 1 }).wf = false ∧ (Instr.bra pt).wf = false := by decide
theorem test_refuses_reserved_bits : decodeTableWord 128 0x80000000000000000000000000017702 = none := by decide
theorem test_wf_mod : (Instr.add (ab 4)).wf = false ∧ (Instr.fadd (ab 4)).wf = false ∧ (Instr.not { pt with d := 3, a := 1, mod := 1 }).wf = false := by
  decide
theorem test_wf_odd_pair : (Instr.add64 { pt with d := 2, a := 4, b := 7 }).wf = false := by decide
theorem test_wf_unused_field : (Instr.exit { pt with d := 1 }).wf = false ∧ (Instr.add { ab 0 with c := 1 }).wf = false := by decide
theorem test_wf_predicate : (Instr.icmp { pt with d := 8, a := 1, b := 2 }).wf = false := by decide
theorem test_wf_barrier : (Instr.barArr { pt with a := 16 }).wf = false := by decide
theorem test_wf_immediate : (Instr.nop { pt with ext := .imm 1 }).wf = false ∧ (Instr.nop { pt with ext := .imm 0 }).wf = true := by decide
theorem test_wf_segment : (Instr.ld { pt with d := 1, mod := 1, ext := .wide 0 0 0 0 0 1 }).wf = false := by decide
theorem test_wf_escort : (Instr.ld { pt with d := 1, mod := 1, ext := .wide 0 24 8 0 0 0 }).wf = false := by decide
theorem test_wf_scope : (Instr.fence { pt with ext := .k 0 0 0 0 }).wf = false := by decide
theorem test_wf_kinds : (Instr.fence { pt with ext := .k 0 1 4 0 }).wf = false := by decide
theorem test_wf_atom_code : (Instr.red { pt with b := 2, c := 8 }).wf = false := by decide
theorem test_wf_special_register : (Instr.movs { pt with d := 1, a := 21 }).wf = false := by decide
theorem test_wf_event : (Instr.packetStart 0).wf = false := by decide
/-! ### Worked values -/

-- R250: wrap, and clamp with SATF.
theorem test_add_wraps : gives (.add (ab 0)) [(1, 0x7FFFFFFF), (2, 1)] 3 = (0x80000000, 0) := by decide
theorem test_add_saturates : gives (.add (ab 2)) [(1, 0x7FFFFFFF), (2, 1)] 3 = (0x7FFFFFFF, 64) := by decide
theorem test_sub_unsigned_saturates : gives (.sub (ab 3)) [(1, 1), (2, 2)] 3 = (0, 64) := by decide
theorem test_mulhi_signed : gives (.mulhi (ab 0)) [(1, 0xFFFFFFFF), (2, 2)] 3 = (0xFFFFFFFF, 0) := by decide
theorem test_mulhi_unsigned : gives (.mulhi (ab 1)) [(1, 0xFFFFFFFF), (2, 2)] 3 = (1, 0) := by decide
theorem test_mad : gives (.mad { ab 0 with c := 4 }) [(1, 3), (2, 5), (4, 7)] 3 = (22, 0) := by decide
-- R251: its four cases.
theorem test_div_zero : gives (.div (ab 0)) [(1, 7), (2, 0)] 3 = (0xFFFFFFFF, 0) := by decide
theorem test_div_overflow : gives (.div (ab 0)) [(1, 0x80000000), (2, 0xFFFFFFFF)] 3 = (0x80000000, 0) := by decide
theorem test_rem_sign_of_dividend : gives (.rem (ab 0)) [(1, 0xFFFFFFF9), (2, 2)] 3 = (0xFFFFFFFF, 0) := by decide
theorem test_rem_zero : gives (.rem (ab 1)) [(1, 7), (2, 0)] 3 = (7, 0) := by decide
theorem test_abs_most_negative : gives (.abs { ab 2 with b := 0 }) [(1, 0x80000000)] 3 = (0x7FFFFFFF, 64) := by decide
theorem test_clz_zero : gives (.clz { ab 0 with b := 0 }) [(1, 0)] 3 = (32, 0) := by decide
theorem test_brev : gives (.brev { ab 0 with b := 0 }) [(1, 1)] 3 = (0x80000000, 0) := by decide
-- R252: a shift by 33 is a shift by 1.
theorem test_shl_33 : gives (.shl (ab 0)) [(1, 3), (2, 33)] 3 = (6, 0) := by decide
theorem test_sar : gives (.sar (ab 0)) [(1, 0x80000000), (2, 4)] 3 = (0xF8000000, 0) := by decide
theorem test_fsh_left : gives (.fsh { ab 0 with c := 4 }) [(1, 1), (2, 0x80000000), (4, 1)] 3 = (3, 0) := by decide
theorem test_bfx_signed : gives (.bfx (ab 0)) [(1, 0x00F0), (2, 0x404)] 3 = (0xFFFFFFFF, 0) := by decide
theorem test_bfi : gives (.bfi { ab 0 with c := 4 }) [(1, 0xFF), (2, 0x808), (4, 0)] 3 = (0xFF00, 0) := by decide
-- R253: a pair sum carries.
theorem test_add64_carries : gives (.add64 { pt with d := 8, a := 2, b := 4 }) [(2, 0xFFFFFFFF), (3, 0), (4, 1), (5, 0)] 9 = (1, 0) := by
  decide
-- R254: signed and unsigned order.
theorem test_icmp_lt_signed : tests (.icmp { pt with d := 1, a := 1, b := 2, mod := 2 }) [(1, 0xFFFFFFFF), (2, 1)] = true := by decide
theorem test_icmp_lt_unsigned : tests (.icmp { pt with d := 1, a := 1, b := 2, mod := 10 }) [(1, 0xFFFFFFFF), (2, 1)] = false := by decide
-- R248: `gz` discards.
theorem test_gz_discards : gives (.movi { pt with d := 255, ext := .imm 5 }) [] 255 = (0, 0) := by decide
-- R278: 1.0 + 2^-24 is a tie; R203: infinity minus infinity is invalid.
theorem test_fadd_tie : gives (.fadd (ab 0)) [(1, 0x3F800000), (2, 0x33800000)] 3 = (0x3F800000, 16) := by decide
theorem test_fsub_invalid : gives (.fsub (ab 0)) [(1, 0x7F800000), (2, 0x7F800000)] 3 = (0x7FC00000, 1) := by decide
theorem test_fmul : gives (.fmul (ab 0)) [(1, 0x40000000), (2, 0x40400000)] 3 = (0x40C00000, 0) := by decide
-- R279: -0.0 below +0.0; a quiet NaN gives way.
theorem test_fmin_zeros : gives (.fmin (ab 0)) [(1, 0), (2, 0x80000000)] 3 = (0x80000000, 0) := by decide
theorem test_fmax_nan : gives (.fmax (ab 0)) [(1, 0x7FC00001), (2, 0x3F800000)] 3 = (0x3F800000, 0) := by decide
-- R281: positive infinity is class 9.
theorem test_fcls_infinity : tests (.fcls { pt with d := 1, a := 1, b := 2 }) [(1, 0x7F800000), (2, 0x200)] = true := by decide
-- R282: `frnd` of -0.3 gives -0.0.
theorem test_frnd : gives (.frnd { pt with d := 3, a := 1 }) [(1, 0xBE99999A)] 3 = (0x80000000, 0) := by decide
-- R288, row by row.
theorem test_cvt_half_even : gives (.cvt { pt with d := 3, a := 1, c := 18 }) [(1, 0x40200000)] 3 = (2, 16) := by decide
theorem test_cvt_toward_zero : gives (.cvt { pt with d := 3, a := 1, c := 18, mod := 1 }) [(1, 0xC06CCCCD)] 3 = (0xFFFFFFFD, 16) := by decide
theorem test_cvt_above : gives (.cvt { pt with d := 3, a := 1, c := 18 }) [(1, 0x4F32D05E)] 3 = (0x7FFFFFFF, 84) := by decide
theorem test_cvt_below : gives (.cvt { pt with d := 3, a := 1, c := 22 }) [(1, 0xBF800000)] 3 = (0, 84) := by decide
theorem test_cvt_nan : gives (.cvt { pt with d := 3, a := 1, c := 18 }) [(1, 0x7FC00000)] 3 = (0, 1) := by decide
theorem test_cvt_bf16 : gives (.cvt { pt with d := 3, a := 1, c := 3 }) [(1, 0x3F808000)] 3 = (0x3F80, 16) := by decide
theorem test_cvt_e8m0 : gives (.cvt { pt with d := 3, a := 1, c := 8 }) [(1, 0x40400000)] 3 = (0x80, 16) := by decide
theorem test_cvt_e8m0_up : gives (.cvt { pt with d := 3, a := 1, c := 8, mod := 2 }) [(1, 0x40400000)] 3 = (0x81, 16) := by decide
theorem test_cvt_i4x : gives (.cvt { pt with d := 3, a := 1, c := 9 }) [(1, 0x4119999A)] 3 = (7, 84) := by decide
theorem test_cvt_e4m3_nan : gives (.cvt { pt with d := 3, a := 1, b := 0x25 }) [(1, 0x7F00)] 3 = (0x7FC00000, 0) := by decide
-- R218, R289: two elements under SR, and SEED after it.
theorem test_pack_sr : gives (.pack { pt with d := 5, a := 1, b := 2, c := 3, mod := 4 }) [(1, 0x3F804000), (2, 0x3F804000)] 5 =
    (0x3F803F81, 16) := by decide
theorem test_pack_sr_seed : ((ran (.pack { pt with d := 5, a := 1, b := 2, c := 3, mod := 4 })
    (demo 2 (both [(1, 0x3F804000), (2, 0x3F804000)]))).curW.lane 0).seed = 0x6DAD9DBD := by decide +kernel
-- R215: FP32 to E4M3.
theorem test_e4m3 : [narrow e4m3 .rne true (fp32.decode 0x3E99999A), narrow e4m3 .rne true (fp32.decode 0x43E80000),
    narrow e4m3 .rne true (fp32.decode 0x43EB0000), narrow e4m3 .rne false (fp32.decode 0x43EB0000),
    narrow e4m3 .rz true (fp32.decode 0x43EB0000), narrow e4m3 .rz true (fp32.decode 0x43FA0000),
    narrow e4m3 .rne true (fp32.decode 0x3A800000), narrow e4m3 .rne true (fp32.decode 0xFF800000),
    narrow e4m3 .rne false (fp32.decode 0xFF800000), narrow e4m3 .rne false (fp32.decode 0x7FC00000)] =
    [(0x2A, 16), (0x7E, 16), (0x7E, 84), (0x7F, 20), (0x7E, 16), (0x7E, 84), (0, 24), (0xFE, 64), (0xFF, 1), (0x7F, 0)] := by decide +kernel
-- R222: exact results.
theorem test_special_functions : [applyFn .rcp 0x40000000, applyFn .sqrt 0x40800000, applyFn .ex2 0x40000000, applyFn .lg2 0x41000000] =
    [(0x3F000000, 0), (0x40000000, 0), (0x40800000, 0), (0x40400000, 0)] := by decide +kernel

/-! ### Witnesses: a state and operands that meet the hypotheses of each statement

`runs_all`, `trap_of` and `whole_of` turn a check by evaluation into the hypothesis that it checks. -/

/-- The conditions of `Runs`, as a check. -/
def runsB (i : Instr) (s : State) : Bool := s.canIssue && s.spent.isNone && (precheck i s).isNone && !heldNow i s
theorem runs_of {i : Instr} {s : State} (h : runsB i s = true) : Runs i s := by
  simp only [runsB, Bool.and_eq_true, Option.isNone_iff_eq_none, Bool.not_eq_true'] at h
  exact ⟨h.1.1.1, h.1.1.2, h.1.2, h.2⟩
theorem runs_all {is : List Instr} {s : State} (h : is.all (runsB · s) = true) : ∀ i ∈ is, Runs i s :=
  fun i hi => runs_of (List.all_eq_true.mp h i hi)

/-- The conditions of `canTrap`, as a check. -/
def trapB (s : State) : Bool :=
  !s.curW.handler && (s.ctx (s.ctxNo s.curWg)).root % 4096 == 0 && s.trapVec (s.ctxNo s.curWg) != 0 &&
    s.sfus.all fun x => !(x.wg == s.curWg && x.warp == s.curWarp)
theorem trap_of {s : State} (h : trapB s = true) : canTrap s := by
  simp only [trapB, Bool.and_eq_true, Bool.not_eq_true', beq_iff_eq, bne_iff_ne, List.all_eq_true, Bool.and_eq_false_iff,
    beq_eq_false_iff_ne] at h
  exact ⟨h.1.1.1, h.1.1.2, h.1.2, fun x hx hw => (h.2 x hx).elim (· hw.1) (· hw.2)⟩

/-- The conditions of `WholeWarp`, as a check. -/
def wholeB (i : Instr) (s : State) : Bool :=
  s.curW.unexited.all s.group.contains && (s.group.all fun l => (s.curW.lane l).pc == s.curPc) &&
    (!gatherReleases i (s.curG.svstat.getLsbD 0) || s.released s.curWg s.curWarp s.curW.unexited (gatherScope i))
theorem whole_of {i : Instr} {s : State} (h : wholeB i s = true) : WholeWarp i s := by
  simp only [wholeB, Bool.and_eq_true, List.all_eq_true, beq_iff_eq, List.contains_iff_mem, Bool.or_eq_true, Bool.not_eq_true'] at h
  refine ⟨h.1.1, h.1.2, fun g => h.2.resolve_left fun n => ?_⟩
  rw [g] at n
  cases n
theorem whole_all {is : List Instr} {s : State} (h : is.all (wholeB · s) = true) : ∀ i ∈ is, WholeWarp i s :=
  fun i hi => whole_of (List.all_eq_true.mp h i hi)

/-- A guard that is false in every lane. -/
def off : Fields := { pt with ga := ⟨7, true⟩ }

/-- A demonstration state whose context has a trap handler. -/
def armed (role : Nat) (vals : List (Nat × Nat × Word)) : State :=
  let s := demo role vals
  { s with mem := s.mem.write 0x418 8 0x1000 }

theorem witness_SumsAndProducts : ∀ i ∈ [Instr.add (ab 3), .sub (ab 2), .abs { ab 2 with b := 0 }, .neg { ab 0 with b := 0 }, .mul (ab 1),
    .mulhi (ab 1), .mad { ab 0 with c := 4 }, .madw { ab 1 with d := 4, c := 6 }], Runs i (demo 2 (both [(1, 0x80000000)])) :=
  runs_all (by decide +kernel)
theorem witness_DivisionTruncatesAndNeverTraps : ∀ v ∈ [(0x80000000, 0xFFFFFFFF), (7, 0), (7, 2)], ∀ i ∈ [Instr.div (ab 0), .rem (ab 0), .div (ab 1),
    .rem (ab 1)], Runs i (demo 2 (both [(1, v.1), (2, v.2)])) := by
  intro v hv
  fin_cases hv <;> exact runs_all (by decide +kernel)
theorem witness_BitwiseSelectionsAndCounts : ∀ i ∈ [Instr.min (ab 0), .max (ab 1), .and (ab 0), .or (ab 0), .xor (ab 0), .andn (ab 0),
    .not { ab 0 with b := 0 }, .popc { ab 0 with b := 0 }, .clz { ab 0 with b := 0 }, .brev { ab 0 with b := 0 }], Runs i (demo 2 (both [(1, 0)])) :=
  runs_all (by decide +kernel)
theorem witness_ShiftsFieldsAndPairs : (∀ i ∈ [Instr.shl (ab 0), .shr (ab 0), .sar (ab 0), .rot (ab 0), .fsh { ab 1 with c := 4 }, .bfx (ab 1),
    .bfi { ab 0 with c := 4 }, .bsel { ab 0 with c := 4 }], Runs i (demo 2 (both [(1, 3), (2, 31), (4, 32)]))) ∧
    ∀ i ∈ [Instr.add64 { pt with d := 8, a := 2, b := 4 }, .sub64 { pt with d := 8, a := 2, b := 4 },
    .shl64 { pt with d := 8, a := 2, b := 4 }, .shr64 { pt with d := 8, a := 2, b := 4, mod := 1 }, .lea { pt with d := 8, a := 2, b := 4, mod := 15 }],
    Runs i (demo 2 []) := ⟨runs_all (by decide +kernel), runs_all (by decide +kernel)⟩
theorem witness_MovesComparesAndPredicates : ∀ i ∈ [Instr.icmp { pt with d := 7, a := 1, b := 2, mod := 5 }, .icmp { pt with d := 6, a := 2, b := 4, mod := 24 },
    .sel { ab 1 with c := 7 }, .mov { pt with d := 3, a := 1 }, .mov { pt with d := 4, a := 2, mod := 1 }, .movi { pt with d := 3, ext := .imm 5 },
    .pand { pt with d := 1, a := 2, b := 7, mod := 3 }, .por { pt with d := 1, a := 2, b := 3 }, .pxor { pt with d := 7, a := 2, b := 3 },
    .pnot { pt with d := 1, a := 2 }, .pmov { pt with d := 1, a := 2, mod := 1 }, .pmovPack { pt with d := 3, mod := 4 },
    .pmovUnpack { pt with a := 3, mod := 8 }], Runs i (demo 2 []) := runs_all (by decide +kernel)
theorem witness_FloatArithmeticRoundsOnce : ∀ i ∈ [Instr.fadd (ab 3), .fsub (ab 0), .fmul (ab 1), .ffma { ab 2 with c := 4 }, .hadd2 (ab 4), .hmul2 (ab 12),
    .hfma2 { ab 8 with c := 4 }, .bfma2 { ab 3 with d := 4, c := 6 }, .dadd { pt with d := 8, a := 2, b := 4, mod := 3 },
    .dmul { pt with d := 8, a := 2, b := 4 }, .dfma { pt with d := 8, a := 2, b := 4, c := 6 },
    .dadd { pt with d := 8, a := 2, ext := .wide 0x3FF00000 0 0 0 0 0 }], Runs i (demo 2 []) := runs_all (by decide +kernel)
-- the smallest subnormal and the largest number, of each format
theorem witness_RoundingIsNearest : ∀ x ∈ [(fp64, -1074), (fp32, -149), (fp16, -24), (bf16, -133)], x.1 ∈ arithFmts ∧
    (narrow x.1 .rne false (.fin false 1 x.2)).2 &&& flOF = 0 ∧ (x.1.decode 0).isFin = true := by decide +kernel
theorem witness_DirectedRounding : ∀ fm ∈ arithFmts, ∀ rm ∈ [Rm.rz, .ru, .rd, .sr 65535],
    (narrow fm rm false (.fin true 3 (-2))).2 &&& flOF = 0 := by decide +kernel
theorem witness_InvalidOperations : fp64 ∈ arithFmts ∧ (fp64.decode 0x7FF0000000000001).isNan = true ∧ (fp64.decode 0x7FF0000000000000) = .inf false ∧
    fp64.decode 0xFFF0000000000000 = .inf true ∧ fp64.decode 0x8000000000000000 = .fin true 0 (-1074) := by decide
-- an infinity against a quiet NaN in one half of each operand
theorem witness_FloatChoices : (∀ i ∈ [Instr.fmin (ab 0), .fmax (ab 0), .hmin2 (ab 8), .hmax2 (ab 0)], Runs i (demo 2 (both [(1, 0x7FC07F80), (2, 0x7F807FC0)]))) ∧
    (bf16.decode 0x7FC0).isNan = true ∧ (bf16.decode 0x7F80).isNan = false ∧ (fp16.decode 0x7FC0).isNan = true ∧ (fp16.decode 0x7C00).isNan = false :=
  ⟨runs_all (by decide +kernel), by decide⟩
theorem witness_FloatTests : ∀ i ∈ [Instr.fcmp { pt with d := 1, a := 1, b := 2, mod := 13 }, .dcmp { pt with d := 1, a := 2, b := 4, mod := 13 },
    .fcls { pt with d := 1, a := 1, b := 2 }], Runs i (demo 2 (both [(1, 0x7F800001)])) := runs_all (by decide +kernel)
theorem witness_RoundToIntegral : (∀ m ∈ [0, 1, 2, 3], Runs (.frnd { pt with d := 3, a := 1, mod := m }) (demo 2 (both [(1, 0x7F7FFFFF)]))) ∧
    nan32 0x7F800001 = true ∧ mag32 0xFF800000 = 0x7F800000 ∧ mag32 0x80000000 = 0 ∧ mag32 0x7F7FFFFF < 0x7F800000 ∧
    ∃ k : Int, (fp32.decode 0x7F7FFFFF).rat = k := by
  refine ⟨?_, by decide, by decide, by decide, ?_, 0xFFFFFF * 2 ^ 104, ?_⟩
  · intro m hm
    fin_cases hm <;> exact runs_of (by decide +kernel)
  · decide
  · have : fp32.decode 0x7F7FFFFF = .fin false 0xFFFFFF 104 := by decide
    rw [this]; norm_num [Val.rat]
theorem witness_ConversionsComplete : ∀ i ∈ [Instr.cvt { pt with d := 3, a := 1, c := 18 }, .cvt { pt with d := 4, a := 2, b := 1, c := 23, mod := 12 },
    .pack { ab 4 with c := 2 }, .pack { ab 11 with c := 3 }, .pack { pt with d := 4, a := 2, b := 6, c := 0x89 }, .pack { pt with d := 4, a := 2, b := 6, c := 7 }, .unpk { pt with d := 8, a := 1, b := 9 }], Runs i (demo 2 []) :=
  runs_all (by decide +kernel)
theorem witness_NarrowDotsAndCodebooks : ∀ i ∈ [Instr.ndot { ab 5 with c := 4 }, .ndot { ab 7 with c := 4 }, .cbld { pt with d := 3, a := 1 },
    .cbenc { pt with d := 3, a := 1, c := 3 }, .cbdec { pt with d := 3, a := 1, mod := 7 }], Runs i (demo 2 (both [(1, 0x7F80)])) :=
  runs_all (by decide +kernel)

/-- The special functions with given fields. -/
def sfuInsns (f : Fields) : List Instr := [.rcp f, .rsq f, .sqrt f, .ex2 f, .lg2 f, .exp f, .sinpi f, .cospi f, .tanh f]
theorem witness_SpecialFunctionsAreOutstanding : (∀ i ∈ sfuInsns { pt with d := 3, a := 1 }, Runs i (demo 2 [])) ∧
    (demo 2 []).trueLanes { pt with d := 3, a := 1 } ≠ [] ∧ (∀ i ∈ sfuInsns { off with d := 3, a := 1 }, Runs i (demo 2 [])) ∧
    (demo 2 []).trueLanes { off with d := 3, a := 1 } = [] ∧
    (ran (.rcp { pt with d := 3, a := 1 }) (demo 2 (both [(1, 0x40000000)]))).sfus.find? (fun y => y.id == 100) =
      some { id := 100, wg := 0, warp := 0, d := 3, values := [(0, 0x3F000000), (1, 0x3F000000)], lanes := [0, 1], flags := 0 } := by
  refine ⟨runs_all ?_, ?_, runs_all ?_, ?_⟩ <;> decide +kernel

/-- Three lanes of one warp. -/
def three : State := { demo 2 [(1, 0, 5), (1, 1, 6), (1, 2, 7)] with curMask := 7 }.updCur fun w => { w with lanes := [(0, at40), (1, at40), (2, at40)] }
theorem witness_LanesExchangeAndReduce : (∀ i ∈ [Instr.shfl (ab 3), .shfl (ab 6), .shfl (ab 0), .vote { pt with d := 1, a := 7 }, .vote { pt with d := 1, a := 7, mod := 5 },
    .vote { pt with d := 1, a := 2, mod := 2 }, .vote { pt with d := 4, a := 7, mod := 3 }, .matchL { pt with d := 4, a := 1 }, .matchL { pt with d := 4, a := 2, mod := 1 },
    .redl { pt with d := 3, a := 1, mod := 7 }, .redl { pt with d := 3, a := 1, mod := 8 }, .redl { pt with d := 3, a := 1, mod := 10 }, .scanl { pt with d := 3, a := 1, mod := 10 },
    .scanl { pt with d := 3, a := 1, mod := 16 }], Runs i three) ∧ three.trueLanes pt = [0, 1, 2] := ⟨runs_all (by decide +kernel), by decide +kernel⟩
theorem witness_BranchesExitsAndYields : ∀ i ∈ [Instr.bra { pt with ext := .imm 64 }, .brx { pt with a := 2 }, .ret { pt with a := 2 },
    .call { pt with d := 4, ext := .imm 0xFFFFFFC0 }, .exit pt, .yield { pt with mod := 15 }, .join pt, .nop pt], Runs i (demo 2 []) :=
  runs_all (by decide +kernel)
-- sleept to a time reached, one cycle ahead, and 2^31 cycles ahead
theorem witness_SleepsAndCounterWaits : (∀ i ∈ [Instr.sleep { pt with a := 1, mod := 1 }, .sleep { pt with ext := .imm 0xFFFFFFFF }, .sleept { pt with a := 1 },
    .waitc { pt with ext := .imm 0 }, .waitc { pt with ext := .imm 0x3FFFFFFF }], Runs i (demo 2 (both [(1, 1)]))) ∧
    (demo 2 []).curW.tileErrs = [] ∧ (demo 2 []).curW.ldc = 0 ∧ ((demo 2 []).updCur fun w => { w with ldc := 63 }).curW.ldc = 63 ∧
    (let s := (demo 2 []).updCur fun w => { w with lanes := [(0, { at40 with wait := some ⟨.sleep 0 true, 8⟩ })] }
     (s.lane 0 0 0).wait = some ⟨.sleep 0 true, 8⟩ ∧ (s.wg 0).status = .resident ∧ 0 ≤ s.cyc.toNat) :=
  ⟨runs_all (by decide +kernel), by decide +kernel⟩
theorem witness_SpecialRegisters : (∀ n, n ≤ 20 ∨ (24 ≤ n ∧ n ≤ 31) → n < 32 → Runs (.movs { pt with d := 3, a := BitVec.ofNat 8 n }) (demo 2 [])) ∧
    (∀ i ∈ [Instr.movs { pt with d := 4, a := 1, mod := 4 }, .movs { pt with d := 3, a := 12, mod := 2 }, .movsw { pt with d := 8, a := 1 }, .movsw { pt with d := 9, a := 1 },
      .movsw { pt with d := 20, a := 1 }, .movsw { pt with d := 24, a := 1 }, .movsw { pt with d := 31, a := 1 }, .movsw { off with d := 9, a := 1 },
      .perf { ab 0 with a := 0 }, .perf { ab 1 with a := 0 }], Runs i (demo 2 (both [(2, 8)]))) ∧
    (demo 2 []).trueLanes pt = [0, 1] ∧ (demo 2 []).trueLanes off = [] := by
  refine ⟨?_, runs_all (by decide +kernel), by decide +kernel, by decide +kernel⟩
  intro n h hn
  interval_cases n <;> first | exact runs_of (by decide +kernel) | omega

/-- A privileged context. -/
def privileged (s : State) : State := { s with mem := s.mem.write 0x410 4 1 }
/-- The warp in a handler that it entered with TRAPC. -/
def inHandler (trapc : Word) : State :=
  (armed 2 []).updCur fun w => { w with handler := true, trapc, trappc := 0x80, fltmask := 1 }
/-- A cached translation of the first 256 KiB of context 1 by a leaf entry. -/
def leafOf (e : Nat) : TlbEntry := { ctx := 1, part := 0, page := 0, level := 4, leaf := BitVec.ofNat 128 e, at_ := 0x10000, dirty := true }
/-- The state with that page, and with quad 0 connected to every port. -/
def paged (e : Nat) (s : State) : State :=
  { (List.range 19).foldl (fun (s : State) w => s.setCreg (connRow 0 w) 0xFFFFFFFF) s with cores := [(0, { tlb := [leafOf e] })] }
/-- A page that may be read and written. -/
def rw : Nat := 0x7F
/-- Reset with `nop` placed. -/
def placed : State := State.reset.withFetchWord 64 0x000000000007762C
/-- The placed machine with its first byte of code, and nothing scheduled. -/
def codeDemo (b : Nat) : State := { placed with sched := [], mem := placed.mem.write (5 * 2 ^ 18) 1 b }
/-- The same, with a handler. -/
def fetchDemo (at_ b : Nat) : State :=
  { placed with sched := [], mem := (placed.mem.write (5 * 2 ^ 18 + at_) 1 b).write 0x418 8 0x1000 }.updWarp 0 0 fun w =>
    w.updLane 0 fun l => { l with pc := BitVec.ofNat 64 at_ }
/-- The placed machine, its thread's yield distance used up. -/
def spentDemo : State :=
  { placed with sched := [] }.updWarp 0 0 fun w => w.updLane 0 fun l => { l with ydist := 0 }
/-- What thread 0 is about to issue, with its yield distance: an instruction, a failed fetch with its cause and DETAIL, or nothing. -/
inductive Soon where
  | run (ydist : Nat)
  | fails (ydist cause detail : Nat)
  | none
deriving DecidableEq, Repr
def soon (s : State) : Soon :=
  match s.attempt 0 0 with
  | .run u _ => if 0 ∈ u.group then .run (u.lane 0 0 0).ydist else .none
  | .fails u c d => if 0 ∈ u.group then .fails (u.lane 0 0 0).ydist c d else .none
  | _ => .none
abbrev issuing (s : State) (x : Soon) : Prop := soon s = x
/-- The kind of an attempt; the cause and DETAIL of a failed fetch. -/
def outcomeOf : Attempt → Nat × Nat × Nat
  | .idle _ => (0, 0, 0)
  | .trap _ _ => (1, 0, 0)
  | .parks _ _ => (2, 0, 0)
  | .fails _ c d => (3, c, d)
  | .run _ _ => (4, 0, 0)
/-- A step that issues thread 0 takes a fetch trap: none is spent, and its context has a handler. -/
abbrev trapReady (s : State) (cause : Nat) : Prop :=
  (match s.attempt 0 0 with
    | .fails u c _ => u.spent.isNone && trapB u && c == cause
    | _ => false) = true
/-- An instruction's checks end in a trap. -/
abbrev fails (i : Instr) (s : State) (cause : Nat) : Prop :=
  (s.canIssue && s.spent.isNone && (precheck i s).any (·.cause == cause)) = true
theorem witness_FailedChecksTrap : (canTrap (armed 2 []) ∧ fails (.add (ab 4)) (armed 2 []) 1 ∧ fails (.add { ab 0 with d := 40 }) (armed 2 []) 1 ∧
    fails (.mxz pt) (armed 2 []) 4 ∧ fails (.replay pt) (armed 2 []) 3) ∧
    -- fetches: a page that is there, that is not, and that may not be executed; LEN 3; at 0x18, 8 bytes and 12
    (let s := paged 0x5F (demo 2 [])
     s.pageHeld 0 1 0 = none ∧ (s.translate 0 1 0x18 .fetch false).2.1 = .ok 0x18 0 ∧ s.homeChecks 0x18 (s.translate 0 1 0x18 .fetch false).2.2 4 = none ∧
       outcomeOf (paged 0x5F (demo 2 [])).fetchGroup = (3, 1, 0)) ∧
    (demo 2 []).fetchGroup.isParks = true ∧ outcomeOf (paged 0x4F (demo 2 [])).fetchGroup = (3, 7, 3) ∧
    trapReady (fetchDemo 0 0xFF) 1 ∧ trapReady (fetchDemo 0x18 1) 2 := by
  refine ⟨⟨trap_of ?_, ?_⟩, ?_⟩ <;> decide +kernel
theorem witness_WatchdogAndTrapEntry :
    (let s := (demo 2 []).updCur fun w => { w with lanes := [(0, at40), (1, { at40 with ydist := 0 })] }
     (Instr.nop pt).fields? = some pt ∧ s.canIssue = true ∧ s.spent = some 1 ∧ (s.wg 0).status = .resident ∧ (heldNow (.nop pt) s = false) ∧
       (s.lane 0 0 1).ydist = 0 ∧ 0 ∈ s.wgs.keys) ∧
    -- two instructions about to issue: one decodes, and one of LEN 3 does not; nothing is about to issue in a warp with no code page
    issuing spentDemo (.run 0) ∧ issuing (codeDemo 0xFF) (.fails 65536 1 0) ∧ issuing { codeDemo 0 with cores := [], mem := [] } .none ∧
    (let s := (armed 2 []).updCur fun w => { w with pendTraps := [{ cause := 7, mask := 3 }] }
     s.curW.pendTraps = [{ cause := 7, mask := 3 }] ∧ s.curG.status = .resident ∧ canTrap s ∧
       (∀ l ∈ lanesOf 3, (s.curW.lane l).exited = false ∧ (s.curW.lane l).wait = none)) := by
  refine ⟨by decide +kernel, ?_, ?_, ?_, rfl, rfl, trap_of (by decide +kernel), ?_⟩ <;> decide +kernel
theorem witness_SoftwareTrapsAndReturn : (∀ c ∈ [(0x10E : Word), 0x10B, 7], Runs (.eret pt) (inHandler c) ∧ WholeWarp (.eret pt) (inHandler c)) ∧
    canTrap (armed 2 []) ∧ (∀ i ∈ [Instr.trap { pt with ext := .imm 7 }, .bkpt pt, .trap { off with ext := .imm 7 }, .bkpt off], Runs i (armed 2 [])) ∧
    (demo 2 []).curW.handler = false ∧ (0x10B : Word).getLsbD 8 = true ∧ (7 : Word).getLsbD 8 = false ∧ (inHandler 7).curW.unexited = [0, 1] ∧
    (inHandler 7).curW.fltmask.getLsbD 0 = true := by
  refine ⟨?_, trap_of (by decide +kernel), runs_all (by decide +kernel), by decide +kernel⟩
  intro c hc
  fin_cases hc <;> exact ⟨runs_of (by decide +kernel), whole_of (by decide +kernel)⟩

/-- The instructions that act once per warp. -/
def onceInsns : List Instr := [.wsync pt, .waitp { pt with a := 1, b := 1, mod := 1 }, .barArr { pt with a := 1 }, .barSync { pt with a := 1, mod := 1 },
  .barWait { pt with a := 1, mod := 10 }, .barExp { pt with a := 1, b := 2, mod := 3 }, .barInit { pt with a := 1, b := 2, mod := 4 },
  .barRd { pt with d := 4, a := 1, mod := 5 }, .barRdClr { pt with d := 4, a := 1, mod := 6 }, .bargArr { pt with mod := 24 }, .bargSync { pt with mod := 1 },
  .bargWait { pt with mod := 6 }, .rgive { pt with d := 3, a := 0 }, .rtake { pt with d := 3, a := 0 }, .rfree { pt with a := 0 },
  .solve { pt with d := 0, a := 1, b := 2, c := 1, mod := 16 }, .svend pt]
-- one lane of two issues
theorem witness_ThreadsWaitForTheirWarp : let s := { demo 2 [] with curMask := 1 }
    (∀ i ∈ onceInsns, Runs i s ∧ oncePerWarp i) ∧ (1 ∈ s.curW.unexited ∧ 1 ∉ s.group ∧ (s.curW.lane 1).wait = none) ∧ s.curG.svstat.getLsbD 0 = false ∧
    Runs (.eret pt) { inHandler 7 with curMask := 1 } := by
  refine ⟨fun i hi => ⟨runs_all (is := onceInsns) (by decide +kernel) i hi, ?_⟩, by decide +kernel, by decide +kernel, runs_of (by decide +kernel)⟩
  revert i
  simp [onceInsns, oncePerWarp]

/-- A barrier 1 of the demonstration workgroup. -/
def withBar1 (x : Barrier) : State := (demo 2 []).withBar 1 x
theorem witness_BarriersOfACore : (∀ x ∈ [({ memb := 2, pend := 2 } : Barrier), { memb := 2, pend := 1, arrived := 1 }, { memb := 2, pend := 2, arrived := 1, queued := 1, qarr := 1 },
      { memb := 2, pend := 2, phases := 1 }], (∀ i ∈ [Instr.barArr { pt with a := 1 }, .barSync { pt with a := 1, mod := 1 }, .barWait { pt with a := 1, mod := 10 }, .barExp { pt with a := 1, b := 2, mod := 3 },
      .barInit { pt with a := 1, b := 2, mod := 4 }, .barRd { pt with d := 4, a := 1, mod := 5 }, .barRdClr { pt with d := 4, a := 1, mod := 6 }], WholeWarp i (withBar1 x)) ∧
      ∀ i ∈ [Instr.barArr { pt with a := 1 }, .barSync { pt with a := 1, mod := 1 },
      .barWait { pt with a := 1, mod := 10 }, .barWait { pt with a := 1, mod := 2 }, .barExp { pt with a := 1, b := 2, mod := 3 }, .barInit { pt with a := 1, b := 2, mod := 4 },
      .barExp { off with a := 1, b := 2, mod := 3 }, .barInit { off with a := 1, b := 2, mod := 4 }, .barRd { pt with d := 4, a := 1, mod := 5 },
      .barRdClr { pt with d := 4, a := 1, mod := 6 }], Runs i (withBar1 x)) ∧
    ((demo 2 []).wg 0).status = .resident ∧ (1 < ((demo 2 []).packet 0).nbar ∧ (withBar1 { memb := 2, pend := 0, bytes := 0 }).curG.bar 1 = { memb := 2, pend := 0, bytes := 0 }) ∧
    (let x : Barrier := { memb := 2, pend := 1, cuWait := 1 }; 0 < x.cuWait ∧ x.cuHere = false ∧ x.pend ≠ 0 ∧ x.qcu = false) ∧
    (let x : Barrier := { memb := 2, pend := 0, cuWait := 1 }; 0 < x.cuWait ∧ x.qcu = false ∧ x.pend = 0) ∧
    ({ demo 2 [] with copies := [{ id := 5, wg := 0, warp := 0, core := 0, insn := .nop pt, pc := 0, arr := true, cnt := false, bar := 1, left := 0, owed := true }] }).dueArrival 0 1 ≠ none := by
  refine ⟨?_, by decide +kernel⟩
  intro x hx
  fin_cases hx <;> exact ⟨whole_all (by decide +kernel), runs_all (by decide +kernel)⟩

/-- `barg` in the quad, package and pod scopes. -/
def bargs (mod : BitVec 5) (g : Fields) : List Fields := [{ g with mod }, { g with mod, ext := .k 0 0 4 0 }, { g with mod, ext := .k 1 0 5 0 }]
/-- The demonstration launch as a co-resident one, a member of group 3, with a network barrier. -/
def netDemo (x : NetBar) : State :=
  let s := armed 2 (both [(1, 3)])
  { s with launches := [(0, { packet := { decl 2 with flags := 2 }, ctx := 1, nextWg := 1 })], groups := [(67, { members := [(0, 0, 0)] })]
           netBars := [0, 2, podBarKey 1 3 0].map fun k => (k, x) }
theorem witness_NetworkBarriers : (∀ x ∈ [({} : NetBar), { arrived := [(0, 0)] }, { queued := [(0, 0)] }, { phases := 1 }], (∀ i ∈ [Instr.bargArr pt, .bargSync { pt with ext := .k 0 0 4 0 }, .bargWait { pt with ext := .k 1 0 5 0 }], WholeWarp i (netDemo x)) ∧ canTrap (netDemo x) ∧
      (∀ f ∈ bargs 0 pt ++ bargs 0 off, Runs (.bargArr f) (netDemo x)) ∧ (∀ f ∈ bargs 1 pt, Runs (.bargSync f) (netDemo x)) ∧
      (∀ f ∈ bargs 2 pt ++ bargs 6 pt, Runs (.bargWait f) (netDemo x))) ∧
    (0, 0, 0) ∈ ((netDemo {}).group? 1 3).members ∧ (0, 0, 0) ∉ ((netDemo {}).group? 1 2).members ∧ (netDemo {}).netBroken (podBarKey 1 3 0) = false ∧
    ({ netDemo {} with launches := [(0, { packet := { decl 2 with flags := 2 }, ctx := 1, nextWg := 1, ending := true })] }).netBroken (podBarKey 1 3 0) = true ∧ (∀ l ∈ (netDemo {}).group, ((netDemo {}).curW.lane l).wait = none) := by
  refine ⟨?_, by decide +kernel⟩
  intro x hx
  fin_cases hx <;> exact ⟨whole_all (by decide +kernel), trap_of (by decide +kernel), fun f hf => runs_of (List.all_eq_true.mp (by decide +kernel :
    (bargs 0 pt ++ bargs 0 off).all (fun f => runsB (.bargArr f) _) = true) f hf), fun f hf => runs_of (List.all_eq_true.mp (by decide +kernel :
    (bargs 1 pt).all (fun f => runsB (.bargSync f) _) = true) f hf), fun f hf => runs_of (List.all_eq_true.mp (by decide +kernel :
    (bargs 2 pt ++ bargs 6 pt).all (fun f => runsB (.bargWait f) _) = true) f hf)⟩

/-- Ring 0's stage 0 in the demonstration workgroup. -/
def withStage0 (x : Stage) : State := (demo 2 []).updCurG fun g => { g with stages := SMap.set {} g.stages 0 x }
theorem witness_RingsAndWarpSync : ∀ x ∈ [({ gleft := 1, fleft := 1 } : Stage), { full := true, gleft := 1, fleft := 1 }, { full := true, ph := true, gleft := 1, fleft := 1 }],
    ∀ i ∈ [Instr.rgive { pt with d := 3, a := 0 }, .rtake { pt with d := 3, a := 0 }, .rfree { pt with a := 0 }, .wsync pt], WholeWarp i (withStage0 x) ∧ Runs i (withStage0 x) := by
  intro x hx
  fin_cases hx <;> exact fun i hi => ⟨whole_all (by decide +kernel) i hi, runs_all (by decide +kernel) i hi⟩

/-- Both lanes wait in `waitp` for phase bit `n` of barrier 1, which has completed `p` phases. -/
def promised (n p : Nat) : State :=
  ((armed 2 []).withBar 1 { memb := 1, pend := 1, phases := p }).updCur fun w =>
    { w with lanes := [(0, { at40 with wait := some ⟨.promise 1 n 0, 8⟩ }), (1, { at40 with wait := some ⟨.promise 1 n 0, 8⟩ })] }
theorem witness_PromisesAndLandings : WholeWarp (.waitp { pt with a := 1, b := 1, mod := 1 }) (demo 2 []) ∧ Runs (.waitp { pt with a := 1, b := 1, mod := 1 }) (demo 2 []) ∧
    (∀ x ∈ [(0, 1), (1, 0), (1, 1), (0, 0)], let s := promised x.1 x.2
      ((s.curG.status = .resident ∧ s.curW.unexited = [0, 1]) ∧ ∀ l ∈ s.curW.unexited, (s.curW.lane l).wait = some ⟨.promise 1 x.1 0, 8⟩) ∧ canTrap s) ∧
    canTrap (armed 2 []) ∧ (∀ v ∈ [(256, 0x7F00), (0, 256), (128, 256), (0, 0), (0, 0x100100), (0x7F00, 512)],
      ∀ i ∈ [Instr.land { pt with d := 7, a := 1, b := 2, c := 1 }, .unland { pt with d := 7 }],
        Runs i (armed 2 (both [(1, v.1), (2, v.2)]))) ∧
    -- a barrier not declared
    Runs (.land { pt with d := 7, a := 1, b := 2, c := 2 }) (armed 2 (both [(1, 256), (2, 0x7F00)])) ∧
    Runs (.land { off with d := 7, a := 1, b := 2, c := 1 }) (demo 2 []) := by
  refine ⟨whole_of (by decide +kernel), runs_of (by decide +kernel), ?_, trap_of (by decide +kernel), ?_, runs_of (by decide +kernel), runs_of (by decide +kernel)⟩
  · intro x hx
    fin_cases hx <;> exact ⟨⟨by decide +kernel, by decide +kernel⟩, trap_of (by decide +kernel)⟩
  · intro v hv
    fin_cases hv <;> exact runs_all (by decide +kernel)

/-! #### Solve regions -/

/-- An open region at whose `svend` both lanes wait; r1 the tolerance, r2 the ceiling. -/
def evalDemo (tol sviter : Word) : State :=
  let wait : Option Wait := some ⟨.svend, 8⟩
  ((armed 1 (both [(1, tol), (2, 1)])).updCurG fun g =>
    { g with svstat := 1, sviter, region := { carried := 0, image := 1, tolReg := 1, ceilReg := 2, body := 0x40 } }).updCur
      fun w => { w with lanes := [(0, { at40 with wait }), (1, { at40 with wait })] }
/-- Element n of the residual. -/
def evalRes (s : State) (n : Nat) : Nat :=
  (addVal fp32 .rne (fp32.decode ((s.wg 0).accAt (1 + n / 4096) (n % 4096)).toNat)
    (fp32.decode ((s.wg 0).accAt (0 + n / 4096) (n % 4096)).toNat).neg).1
theorem norm_of_zeros (n : Nat) : solveNorm false (List.replicate n 0) = (0, 0) := by
  have h (n : Nat) : (List.replicate n 0).foldl (fun m x => Nat.max m (x % 2 ^ 31)) 0 = 0 := by
    induction n with
    | zero => rfl
    | succ n ih => simpa [List.replicate_succ] using ih
  have z : (fp32.decode 0).isNan = false := by decide
  simpa [solveNorm, z] using h n
theorem witness_SolveEvaluations_norm (tol sviter : Word) : (solveNorm false ((List.range 4096).map (evalRes (evalDemo tol sviter)))).1 = 0 := by
  have h : evalRes (evalDemo tol sviter) = fun _ => 0 := by
    funext n
    have z (t n : Nat) : ((evalDemo tol sviter).wg 0).accAt t n = 0 := rfl
    rw [evalRes, z, z]
    decide
  rw [h, List.map_const', List.length_range, norm_of_zeros]
theorem witness_SolveEvaluations : ∀ x ∈ [((0 : Word), (0 : Word)), (0x7FC00000, 1), (0x7FC00000, 0)], let s := evalDemo x.1 x.2
    ((s.wg 0).status = .resident ∧ (s.wg 0).svstat.getLsbD 0 = true ∧ s.liveWarps 0 = [0] ∧ (s.warp 0 0).unexited = [0, 1] ∧
    (∀ j ∈ (s.warp 0 0).unexited, waitIn s 0 0 j = some ⟨.svend, 8⟩) ∧ (∀ v, v < (s.packet 0).warps → (s.warp 0 v).tlc = 0) ∧
    s.abroad 0 0 1 0 = false ∧ s.abroad 0 0 2 0 = false ∧ (s.wg 0).mixing = none ∧ s.choices.headD 0 = 0 ∧
    ({ s with choices := [1] } : State).choices.headD 0 ≠ 0 ∧ s.curWg = 0 ∧ s.curWarp = 0) ∧ canTrap s := by
  intro x hx
  fin_cases hx <;> exact ⟨by decide +kernel, trap_of (by decide +kernel)⟩
/-- The same, with both lanes frozen there by a trap that marks none of them. -/
def frozenEval : State := (evalDemo 0x7FC00000 1).updCur fun w =>
  { w with handler := true, lanes := [(0, { at40 with frozenPc := 0x40, frozenWait := some ⟨.svend, 8⟩ }), (1, { at40 with frozenPc := 0x40, frozenWait := some ⟨.svend, 8⟩ })] }
theorem witness_SolveEvaluations_handler : (∀ v ∈ frozenEval.liveWarps 0, ∀ j ∈ (frozenEval.warp 0 v).unexited, waitIn frozenEval 0 v j = some ⟨.svend, 8⟩) ∧
    (frozenEval.warp 0 0).handler = true ∧ (frozenEval.warp 0 0).unexited = [0, 1] ∧ (frozenEval.wg 0).svstat.getLsbD 0 = true ∧ (frozenEval.wg 0).sviter = 1 := by
  decide +kernel
-- the step is over at the next evaluation
theorem witness_SolveEvaluations_mixing : let s := (evalDemo 0 0).updCurG fun g => { g with mixing := some { tiles := [0], acc := [], hs := [], next := some 0x40 } }
    (s.wg 0).mixing = some { tiles := [0], acc := [], hs := [], next := some 0x40 } ∧ (s.wg 0).status = .resident ∧ 0 ∈ s.liveWarps 0 ∧
    (∀ v ∈ s.liveWarps 0, ∀ j ∈ (s.warp 0 v).unexited, waitIn s 0 v j = some ⟨.svend, 8⟩) := by decide +kernel
theorem witness_SolveEvaluations_tolerance : (fp32.decode 0).isNan = false ∧ (fp32.decode 0).cmp (fp32.decode 0) ≠ .gt ∧ (fp32.decode 0x7FC00000).isNan = true := by
  decide

/-- A one-tile `solve` of carried tile 0 and image tile 1. -/
def solve1 : Fields := { pt with d := 0, a := 1, b := 2, c := 1, mod := 16 }
/-- Both lanes wait for the region to open. -/
def openDemo : State :=
  let wait : Option Wait := some ⟨.solve (.solve solve1), 8⟩
  (demo 1 []).updCur fun w => { w with lanes := [(0, { at40 with wait }), (1, { at40 with wait })] }
/-- An open region, with the previous iterate. -/
def regionDemo : State := (armed 1 []).updCurG fun g => { g with svstat := 0x11 }
theorem witness_SolveRegions : ((armed 1 []).curG.svstat.getLsbD 0 = false ∧ (∀ i ∈ [Instr.solve solve1, .svend pt], WholeWarp i (armed 1 [])) ∧ ∀ i ∈ [Instr.solve solve1, .svend pt, .svabort pt], Runs i (armed 1 [])) ∧
    ((regionDemo.curG.svstat.getLsbD 0 = true ∧ regionDemo.curG.svstat.getLsbD 4 = true) ∧ canTrap regionDemo ∧ WholeWarp (.svend pt) regionDemo ∧
      ∀ i ∈ [Instr.solve solve1, .svend pt, .svabort pt, .svabort off, .svrd { pt with d := 3, a := 0, b := 2 }, .svrdZp { pt with d := 3, b := 2, mod := 1 },
        .svrdRp { pt with d := 3, b := 2, mod := 2 }, .svhsClr pt, .svhsClr off, .svhsWr { pt with d := 0, a := 1, b := 2, mod := 1 }], Runs i regionDemo) ∧
    (∀ l ∈ regionDemo.group, (regionDemo.curW.lane l).wait = none) ∧
    ((openDemo.wg 0).status = .resident ∧ openDemo.liveWarps 0 = [0] ∧ (openDemo.warp 0 0).unexited = [0, 1] ∧
      (∀ j ∈ (openDemo.warp 0 0).unexited, waitIn openDemo 0 0 j = some ⟨.solve (.solve solve1), 8⟩) ∧ (openDemo.warp 0 0).tlc = 0 ∧
      (openDemo.coreAt (openDemo.wg 0).core).engine = none) :=
  ⟨⟨by decide +kernel, whole_all (by decide +kernel), runs_all (by decide +kernel)⟩, ⟨by decide +kernel, trap_of (by decide +kernel),
    whole_of (by decide +kernel), runs_all (by decide +kernel)⟩, by decide +kernel⟩

/-! #### Queues and collectives -/

/-- A message of both lanes. -/
def msg1 : Message := { mask := 3, words := [(0, 5), (1, 6)] }
/-- A flight of `msg1` to queue 1 of the workgroup. -/
def flight1 : Flight := { id := 7, wg := 0, warp := 0, target := 0, queue := 1, msg := msg1, bound := 7 }
/-- A demonstration state with messages in queue 1. -/
def queued (ms : List Message) : State := (armed 2 (both [(5, 1)])).updCurG fun g => { g with queues := [(1, ms)] }
theorem witness_QueuesAndMessages : (∀ ms ∈ [[], [msg1], [{ msg1 with scope := 2 }]], canTrap (queued ms) ∧
      ∀ i ∈ [Instr.qpoll { pt with d := 1, a := 1 }, .qpollSend { pt with d := 3, a := 1, b := 2, mod := 1 }, .qpollSend { pt with d := 3, a := 1, b := 5, mod := 25 },
        .qpollSend { off with d := 3, a := 1, b := 2, mod := 1 }, .qpollRecv { pt with d := 3, a := 1, mod := 2 }, .qpollRecv { off with d := 3, a := 1, mod := 2 }],
        Runs i (queued ms)) ∧
    ((queued []).packet 0).grid = 1 ∧
    (let s := { demo 2 [] with flights := [flight1] }
     s.flights.find? (fun y => y.id == 7) = some flight1 ∧ (∀ y ∈ s.flights, ¬y.id < 7) ∧ flight1.msg.scope = 0 ∧ (s.wg 0).status = .resident) ∧
    -- an earlier message to the queue is on its way; a releasing one is held by a store of its thread
    (let s := { demo 2 [] with flights := [{ flight1 with id := 6 }, flight1] }
     s.flights.find? (fun y => y.id == 7) = some flight1 ∧ ∃ y ∈ s.flights, y.id < 7 ∧ y.wg = 0 ∧ y.target = 0 ∧ y.queue = 1) ∧
    (let x := { flight1 with msg := { msg1 with scope := 4 } }
     let s := { demo 2 [] with flights := [x], reqs := [{ id := 5, group := 5, wg := 0, warp := 0, core := 0, insn := .st { pt with a := 4, b := 2 }, pc := 0x40, space := 0, slots := [{ lane := 0, addr := 0x8000 }], phase := .home }] }
     s.flights.find? (fun y => y.id == 7) = some x ∧ ∃ r ∈ s.reqs, r.wg = 0 ∧ r.warp = 0 ∧ r.fetch = false ∧ r.group < x.bound ∧ ∃ y ∈ r.slots, x.msg.mask.getLsbD y.lane = true ∧ r.didSlot y = false) ∧
    (let s : State := { State.reset with wgs := [(0, { status := .exited })], flights := [flight1] }
     s.flights.find? (fun y => y.id == 7) = some flight1 ∧ (s.wg 0).status = .exited) := by
  refine ⟨?_, by decide +kernel⟩
  intro ms hm
  fin_cases hm <;> exact ⟨trap_of (by decide +kernel), runs_all (by decide +kernel)⟩

/-- An occurrence of group 3 of context 1 with these parts. -/
def collDemo (e : Nat) (parts : List (Nat × CollPart)) : State :=
  let s := paged e (demo 2 [])
  { s with groups := [(67, { members := parts.map fun p => (0, 0, p.1) })], occs := [(occKey 1 3 0 0, { parts })] }
/-- A part of one word. -/
def part1 (n src : Nat) : CollPart := { kind := 0, type := 2, max := false, n, src, dst := 0x8000 }
theorem witness_Collectives : (∀ v ∈ [((0x8000 : Word), (0x0C000001 : Word)), (0x8002, 0x0C000001), (0x8000, 0x08000001)], canTrap (netDemo {}) ∧
      ∀ i ∈ [Instr.coll { pt with d := 3, a := 4, b := 6, c := 1, mod := 8, ext := .k 0 0 5 0 }, .coll { off with d := 3, a := 4, b := 6, c := 1, mod := 8, ext := .k 0 0 5 0 },
        .collw { pt with d := 3, a := 1, ext := .k 0 0 5 0 }, .collw { off with d := 3, a := 1, ext := .k 0 0 5 0 }],
        Runs i ((netDemo {}).updCur fun w => ((w.setReg 4 0 v.1).setReg 4 1 v.1).setReg 1 0 v.2)) ∧
    (let s := collDemo rw [(0, part1 1 0x8000)]
     s.collStatus 0 3 = some 4 ∧ (s.updCurG fun g => { g with collNext := [(3, 1)], collLog := [occKey 1 3 0 0] }).collStatus 0 3 = none) ∧
    (let s := collDemo rw [(0, part1 1 0x8000), (1, part1 2 0x8000)]
     let o : Occ := SMap.get {} s.occs (occKey 1 3 0 0)
     (s.group? 1 3).members.length = o.parts.length ∧ o.done = [] ∧ o.parked = none ∧ s.occLost (occKey 1 3 0 0) = false ∧ (part1 1 0x8000).n ≠ (part1 2 0x8000).n) ∧
    ((collDemo rw [(0, part1 1 0x8000)]).collTranslate (fun _ => 0) 1 (collPages [(0, part1 1 0x8000)])).2 = none ∧
    ((collDemo rw [(0, part1 1 0x80000)]).collTranslate (fun _ => 0) 1 (collPages [(0, part1 1 0x80000)])).2 = some (0, 0x80000, false, .absent 0) ∧
    ((collDemo 0x77 [(0, part1 1 0x8000)]).collTranslate (fun _ => 0) 1 (collPages [(0, part1 1 0x8000)])).2 = some (0, 0x8000, true, .prot 3) ∧
    ([2 ^ 32 - 1, 1] : List Nat).length ≤ 4096 := by
  refine ⟨?_, by decide +kernel⟩
  intro v hv
  fin_cases hv <;> exact ⟨trap_of (by decide +kernel), runs_all (by decide +kernel)⟩

/-! #### The matrix engine -/

/-- A parameter block at scratch 0: a reduction length, and bytes 3 and 23 (A in registers, contributors less one). -/
def blockBytes (k a j : Byte) : SMap Byte := [(3, a), (16, k), (23, j)]
/-- A matrix warp with that block; r1 its address. -/
def matDemo (va : Word) (k a j : Byte) : State := (armed 1 (both [(1, va)])).updCurG fun g => { g with scratch := blockBytes k a j }
/-- The matrix operations on tile 0 and slot 0. -/
def matInsns (f : Fields) : List Instr := [.mxi { f with a := 1 }, .mxs { f with a := 1 }, .mxv { f with a := 1 }, .mxn f, .mxsa { f with b := 2, c := 3 },
  .mxz { f with mod := 2 }, .mxmvSt { f with b := 2, mod := 16 }, .mxmvLd { f with b := 2, mod := 1 }, .mxmvTt { f with mod := 6 }, .wbinv f]
theorem witness_MatrixOperationsIssue : (∀ i ∈ matInsns pt, Runs i (matDemo 0 32 0 0) ∧ (matDemo 0 32 0 0).matFails i 0 = none) ∧
    (∀ i ∈ matInsns off, Runs i (matDemo 0 32 0 0) ∧ (matDemo 0 32 0 0).trueLanes i.fields = []) ∧ canTrap (matDemo 0 32 0 0) := by
  refine ⟨fun i hi => ⟨runs_all (by decide +kernel) i hi, ?_⟩, fun i hi => ⟨runs_all (by decide +kernel) i hi, ?_⟩, trap_of (by decide +kernel)⟩
  · revert i hi; decide +kernel
  · revert i hi; decide +kernel
-- A in registers: one contributor, two, and the second of two
theorem witness_MatrixOperationsIssue_joint : (∀ x ∈ [((32 : Byte), (0 : Byte)), (64, 1)], let s := matDemo 0 x.1 0x80 x.2
      Runs (.mxi { pt with a := 1 }) s ∧ s.matFails (.mxi { pt with a := 1 }) 0 = none ∧ s.curG.held = []) ∧
    (let s := (matDemo 0 64 0x80 1).updCurG fun g => { g with held := [{ id := 5, insn := .mxi { pt with a := 1 }, warp := 0, counted := [1], missing := [0], pc := 0, va := 0, vb := 0, vc := 0 }] }
     Runs (.mxi { pt with a := 1 }) s ∧ s.matFails (.mxi { pt with a := 1 }) 0 = none ∧
       (s.curG.held.find? fun q => q.va == s.curW.reg 1 0 && q.missing.contains s.curWarp).isSome) := by
  refine ⟨?_, runs_of (by decide +kernel), by decide +kernel, by decide +kernel⟩
  intro x hx
  fin_cases hx <;> exact ⟨runs_of (by decide +kernel), by decide +kernel, by decide +kernel⟩
-- a misaligned block, one that ends past the scratch, and lengths outside 32 to 4096 or no multiple of 32
theorem witness_MatrixOperationsIssue_traps : ∀ x ∈ [((32 : Word), (32 : Byte)), (32768 - 63, 32), (32768, 32), (0, 0), (0, 31), (0, 33)], let s := matDemo x.1 x.2 0 0
    canTrap s ∧ Runs (.mxi { pt with a := 1 }) s ∧ (s.matFails (.mxi { pt with a := 1 }) 0).isSome = true := by
  intro x hx
  fin_cases hx <;> exact ⟨trap_of (by decide +kernel), runs_of (by decide +kernel), by decide +kernel⟩
-- an uncorrectable error in the block's last granule
theorem witness_MatrixOperationsIssue_unread : let s := (matDemo 0 32 0 0).updCore 0 fun c => { c with storeBad := [(2 ^ 24 + 56) / 8] }
    canTrap s ∧ Runs (.mxi { pt with a := 1 }) s ∧ s.curG.core = 0 ∧ s.curG.scratchBase = 0 :=
  ⟨trap_of (by decide +kernel), runs_of (by decide +kernel), by decide +kernel, by decide +kernel⟩
/-- An accepted operation with a block of length 32 at `pbuf` 0. -/
def opDemo (i : Instr) : MatOp := { id := 9, insn := i, warp := 0, counted := [0], pc := 0, va := 0, vb := 0, vc := 0, block := [0, 0, 0, 0, 32] }
theorem witness_MatrixOperationsComplete : ∀ i ∈ matInsns pt, let s := { demo 1 [] with matOps := [opDemo i], matWg := [(9, 0)] }
    s.opsOf 0 = [opDemo i] ∧ (s.wg 0).status = .resident ∧ s.opBad 0 (opDemo i) = none ∧ (opDemo i).overlay = [] ∧ s.opWaits 0 (opDemo i) = false ∧ (opDemo i).was = (s.wg 0).operands (opDemo i).was := by
  decide +kernel
theorem witness_TileElementAccess : (∀ m ∈ [(0 : BitVec 5), 1, 2, 3], ∀ i ∈ [Instr.mxrd { pt with d := 3, a := 0, b := 2, mod := m },
    .mxwr { pt with d := 0, a := 1, b := 2, mod := m }], Runs i (demo 1 [(2, 0, 5), (2, 1, 6)])) ∧ (demo 1 []).opsOf 0 = [] ∧ (demo 1 []).curG.mixing = none ∧
    -- an operation that writes tile 0 is outstanding
    (let s := { demo 1 [] with matOps := [opDemo (.mxi pt)], matWg := [(9, 0)] }
     (∀ i ∈ [Instr.mxrd { pt with d := 3, a := 0, b := 2 }, .mxwr { pt with d := 0, a := 1, b := 2 }], Runs i s) ∧
       s.opsOf 0 = [opDemo (.mxi pt)] ∧ (opDemo (.mxi pt)).tile = some 0 ∧ s.opBad 0 (opDemo (.mxi pt)) = none ∧ (opDemo (.mxi pt)).was = s.curG.operands (opDemo (.mxi pt)).was) := by
  refine ⟨?_, by decide +kernel, rfl, runs_all (by decide +kernel), by decide +kernel⟩
  intro m hm
  fin_cases hm <;> exact runs_all (by decide +kernel)

/-! #### Memory -/

/-- Loads, stores and atomics in a space, at a scope. -/
def memInsns (g : Fields) (space : BitVec 5) (scope : BitVec 4) : List Instr :=
  let ext : Ext := .k 0 0 scope 0
  [.ld { g with d := 3, a := 4, mod := space, ext }, .st { g with a := 4, b := 2, mod := space, ext },
   .atom { g with d := 3, a := 4, b := 2, mod := if scope = 0 then 0 else 3, ext }, .red { g with a := 4, b := 2, mod := if scope = 0 then 0 else 2, ext },
   .cas { g with d := 3, a := 4, b := 2, c := 6, mod := if scope = 0 then 0 else 1, ext }]
theorem witness_MemoryInstructionsSend : (∀ i ∈ memInsns pt 0 0 ++ memInsns pt 0 4 ++ memInsns off 0 4 ++ memInsns pt 3 0 ++ [.ldi { pt with d := 3, a := 4, c := 6 }],
      Runs i (paged rw (demo 2 (both [(4, 0x8000), (6, 0x8000)])))) ∧
    ((∀ i ∈ memInsns pt 0 0 ++ memInsns pt 0 4, ∀ path ∈ [none, some 0, some 4], (paged rw (demo 2 (both [(4, 0x8000)]))).laneCheck 0 (memOf i) 0x8000 path = none) ∧
      (paged rw (demo 2 [])).checkMode 1 = 0) ∧
    (canTrap (paged rw (armed 2 (both [(4, 0x8002)]))) ∧ ∀ i ∈ memInsns pt 0 0, Runs i (paged rw (armed 2 (both [(4, 0x8002)])))) :=
  ⟨runs_all (by decide +kernel), ⟨by decide +kernel, by decide +kernel⟩, trap_of (by decide +kernel), runs_all (by decide +kernel)⟩
-- the last word of the declared scratch, and the first address past it
theorem witness_ScratchAccess : ∀ a ∈ [(0 : Word), 32764, 32768], canTrap (armed 2 (both [(4, a)])) ∧ ((armed 2 (both [(4, a)])).coreAt 0).storeBad = [] ∧
    (armed 2 []).choices = [] ∧ ∀ i ∈ [Instr.ld { pt with d := 3, a := 4, mod := 1 }, .ld { pt with d := 3, a := 4, mod := 17 }, .ld { pt with d := 3, a := 4, mod := 25 }, .ld { pt with d := 8, a := 4, mod := 9 },
      .st { pt with a := 4, b := 2, mod := 1 }, .st { pt with a := 4, b := 8, mod := 9 }, .atom { pt with d := 3, a := 4, b := 2, c := 10, mod := 8, ext := .k 0 0 0 0 },
      .red { pt with a := 4, b := 2, c := 18, mod := 8, ext := .k 0 0 0 0 }, .cas { pt with d := 8, a := 4, b := 10, c := 12, mod := 12, ext := .k 0 0 0 0 }],
      Runs i (armed 2 (both [(4, a)])) := by
  intro a ha
  fin_cases ha <;> exact ⟨trap_of (by decide +kernel), by decide +kernel, rfl, runs_all (by decide +kernel)⟩
-- two lanes name one bank in two rows
theorem witness_ScratchAccess_slots : let s := { demo 2 [(4, 0, 0), (4, 1, 512)] with choices := [1] }
    (s.trueLanes pt = [0, 1] ∧ 0 / 16 % 32 = 512 / 16 % 32 ∧ 0 / 512 ≠ 512 / 512 ∧ s.choices.headD 0 ≠ 0) ∧
    ∀ i ∈ [Instr.ld { pt with d := 3, a := 4, mod := 1 }, .st { pt with a := 4, b := 2, mod := 1 }], Runs i s :=
  ⟨⟨by decide +kernel, by decide⟩, runs_all (by decide +kernel)⟩
theorem witness_FullEmptyWords : (∀ fe ∈ [([] : SMap Bool), [(0, true)]], let s := { demo 2 [] with curMask := 1 }.updCurG fun g => { g with fe }
      (s.trueLanes pt = [0] ∧ s.reqs = [] ∧ (s.coreAt s.curG.core).storeBad = []) ∧
      ∀ i ∈ [Instr.ldfe { pt with d := 3, a := 4, mod := 1 }, .stfe { pt with a := 4, b := 2, mod := 1 }, .ldfe { off with d := 3, a := 4, mod := 1 }], Runs i s) ∧
    (∀ l ∈ [0, 1], (demo 2 []).laneCheck 0 (memOf (.ldfe { pt with d := 3, a := 4, mod := 1 })) ((demo 2 []).curW.address { pt with d := 3, a := 4, mod := 1 } 1 l) none = none) ∧
    Runs (.stfe { pt with a := 4, b := 2, mod := 1 }) (demo 2 []) := by
  refine ⟨?_, by decide +kernel, runs_of (by decide +kernel)⟩
  intro fe hf
  fin_cases hf <;> exact ⟨by decide +kernel, runs_all (by decide +kernel)⟩
theorem witness_FencesAndCacheControl : let s := { paged rw (demo 2 (both [(4, 0x8000)])) with curMask := 1 }
    (∀ i ∈ [Instr.fence { pt with ext := .k 0 0 1 0 }, .fence { pt with ext := .k 0 0 6 0 }, .fenceAck { pt with mod := 1, ext := .k 0 0 5 0 },
      .fenceOpr { pt with mod := 2, ext := .k 0 0 0 0 }, .cctlInvall { pt with mod := 2 }, .cctlInvall { off with mod := 2 }, .cctlInv1 { pt with a := 4, mod := 1 },
      .cctlDem { pt with a := 4 }, .pref { pt with a := 4 }], Runs i s) ∧ s.trueLanes pt = [0] ∧
    (let y := s.translate 0 1 (s.curW.address { pt with a := 4 } 0 0) .read false; y.1.homeTr y.2.1 y.2.2 4 = .ok 0x8000 0) ∧ (s.homeDie 0x8000).isSome = true ∧ s.badMem = [] :=
  ⟨runs_all (by decide +kernel), by decide +kernel⟩

/-! #### Requests -/

/-- A request of lane 0 for an instruction, number 50. -/
def reqOf (i : Instr) (phase : Phase) : Req :=
  { id := 50, group := 50, wg := 0, warp := 0, core := 0, insn := i, pc := 0x40, space := (memOf i).space, slots := [{ lane := 0, addr := 0x8000 }], phase }
/-- The demonstration state with a page and requests. -/
def reqDemo (e : Nat) (rs : List Req) : State := { paged e (demo 2 []) with reqs := rs }
/-- A load of one word. -/
def load1 : Instr := .ld { pt with d := 3, a := 4 }
theorem witness_RequestsAreTranslated : (∀ x ∈ [(rw, (0x8000 : Nat)), (0x77, 0x8000), (rw, 0x80000)], let r := { reqOf load1 .translate with slots := [{ lane := 0, addr := x.2 }] }
      let s := reqDemo x.1 [r]
      s.reqs.find? (fun q => q.id == 50) = some r ∧ s.mayTranslate r = true ∧ s.pageHeld 0 1 (r.va / 2 ^ 18) = none ∧ (s.wg 0).status = .resident) ∧
    ((reqDemo rw []).translate 0 1 0x8000 .read false).2.1 = .ok 0x8000 0 ∧ ((reqDemo 0x7B []).translate 0 1 0x8000 .read false).2.1 = .prot 3 ∧
    ((reqDemo rw []).translate 0 1 0x80000 .read false).2.1 = .absent 0 ∧
    (let s := reqDemo rw [reqOf load1 .translate, { reqOf load1 .parked with id := 40, group := 40, level := 2 }]
     s.mayTranslate (reqOf load1 .translate) = true ∧ s.pageHeld 0 1 0 = some 2) ∧
    ((reqDemo rw [reqOf load1 .miss]).poolUse 0 < 1024) ∧
    (let r := { reqOf load1 .translate with fetch := true }; (reqDemo 0x5F [r]).mayTranslate r = true ∧ ((reqDemo 0x5F []).translate 0 1 0x8000 .fetch false).2.1 = .ok 0x8000 0) := by
  decide +kernel
/-- Loads, stores and atomics without order, of both widths. -/
def homeInsns : List Instr := [load1, .ld { pt with d := 8, a := 4, mod := 8 }, .st { pt with a := 4, b := 2 }, .atom { pt with d := 3, a := 4, b := 2 },
  .atom { pt with d := 8, a := 4, b := 2, c := 19, mod := 4 }, .red { pt with a := 4, b := 2, c := 10 }, .cas { pt with d := 3, a := 4, b := 2, c := 6 }, .ldi { pt with d := 3, a := 4, c := 6 }]
theorem witness_HomesPerformAccesses : (∀ i ∈ homeInsns, let r := reqOf i .home
      let s := reqDemo rw [r]
      s.reqs.find? (fun q => q.id == 50) = some r ∧ r.sync = false ∧ r.mi.ord = false ∧ s.turn r = true ∧ s.homeChecks r.pa r.leaf r.path = none ∧ s.badMem = [] ∧ r.pieces.length = 1 ∧ r.arrived = false ∧ s.mates r = [r] ∧
        r.slots.map (fun x => (x.did, x.reply, x.bad)) = [([], 0, false)]) ∧
    -- the granule of the access is bad
    (∃ u ∈ ({ reqDemo rw [reqOf load1 .home] with badMem := [0x1000] } : State).badMem, 0x8000 / 8 ≤ u ∧ u ≤ (0x8000 + 4 - 1) / 8) ∧ (reqDemo rw []).canon 0x8000 = 0x8000 ∧
    -- a page of another package whose die it does not have
    (let r := { reqOf load1 .home with pa := 2 ^ 52 + 0x8000, leaf := 0x40007F }; ((reqDemo rw [r]).homeChecks r.pa r.leaf r.path).isSome = true ∧ (reqDemo rw [r]).turn r = true) ∧
    (let r := { reqOf (.ldi { pt with d := 3, a := 4, c := 6 }) .home with hop2 := true }; (reqDemo rw [r]).turn r = true ∧ r.sync = false) ∧
    -- a remote store: package 1 maps the page's die and connects the ingress port
    (let r := { reqOf (.st { pt with a := 4, b := 2 }) .home with pa := 2 ^ 52 + 0x8000, leaf := 0x40007F }
     let s := (List.range 19).foldl (fun (s : State) w => s.setCregOf 1 (connRow 288 w) 0xFFFFFFFF) (reqDemo rw [r])
     s.turn r = true ∧ s.homeChecks r.pa r.leaf r.path = none ∧ r.pa / 2 ^ 52 ≠ s.pkg ∧ r.stores = true) := by decide +kernel
theorem witness_RepliesAndAcknowledgements : (∀ i ∈ homeInsns, ∀ n ∈ [0, 2], ∀ b ∈ [true, false],
      let r := { reqOf i .performed with escBase := 32, escCount := n, noEsc := b, slots := [{ lane := 0, addr := 0x8000, esc := List.replicate n 5 }] }
      let s := reqDemo rw [r]
      s.reqs.find? (fun q => q.id == 50) = some r ∧ r.slots.length = 1 ∧ (r.slots.map (·.esc.length)) = [r.escCount] ∧ (s.wg 0).status = .resident) ∧
    -- an answer of L1 beside a request still on its way; one recorded for an image
    (let r := { reqOf load1 .performed with fromL1 := true }
     let q := { reqOf load1 .home with id := 51 }
     (reqDemo rw [r, q]).reqs.find? (fun y => y.id == 50) = some r ∧ q.group = r.group ∧ q.arrived = false) ∧
    (((reqDemo rw [reqOf load1 .performed]).updCurG fun g => { g with recs := [.inl { reqOf load1 .home with id := 51 }] }).wg 0).recReqs.map (·.group) = [50] ∧
    (∀ i ∈ homeInsns, counterOf i = .ldc ∨ counterOf i = .stc) ∧ counterOf load1 = .ldc ∧ counterOf (.red { pt with a := 4, b := 2, c := 10 }) = .stc := by decide +kernel
/-- An access at the device scope; `st.ord`. -/
def syncInsns : List Instr := [.ld { pt with d := 3, a := 4, ext := .k 0 0 4 0 }, .st { pt with a := 4, b := 2, ext := .k 0 0 4 0 }, .red { pt with a := 4, b := 2, mod := 2, ext := .k 0 0 4 0 }]
/-- A store with `.ord`. -/
def flag1 : Instr := .st { pt with d := 1, a := 4, b := 2, ext := .k 0 0 5 0 }
theorem witness_SynchronisingRequests : (∀ i ∈ syncInsns, let r := reqOf i .home
      let s := reqDemo rw [r]
      s.reqs.find? (fun q => q.id == 50) = some r ∧ r.mi.scope ≠ 0 ∧ s.homeChecks r.pa r.leaf r.path = none ∧ r.slots.map (·.did) = [[]] ∧ s.choices = [] ∧ r.mi.ord = false ∧ s.turn r = true ∧
        s.reqs.filter (fun q => q.group == r.group) = [r] ∧ s.scopeFails r = false ∧ r.arrived = false ∧ r.checked = false) ∧
    -- a record of the core scope, made by core 1
    (let r := reqOf (syncInsns.headD load1) .home
     let s := reqDemo rw [r]
     let t := { s with llc := [(s.llcKey r.pa 0, [{ addr := s.lineOf r.pa, record := some (1, 1) }])] }
     t.scopeFails r = true ∧ (t.ctx 1).scopechk.toNat % 4 = 0) ∧
    -- another core's access has passed the checker on the line
    (let r := reqOf (syncInsns.headD load1) .home
     let q := { reqOf (syncInsns.headD load1) .home with id := 51, group := 51, core := 1, checked := true }
     q.group ≠ r.group ∧ q.core ≠ r.core ∧ ((reqDemo rw [r, q]).homeDie q.pa).isSome = true ∧ q.cpol ≠ 2) ∧
    (let r := reqOf flag1 .home
     r.mi.ord = true ∧ r.mi.scope ≠ 0 ∧ ((reqDemo rw [r]).reqs.filter fun q => q.phase == .held && q.pa / 2 ^ 52 == r.pa / 2 ^ 52).length < 256 ∧
       (reqDemo rw (r :: List.replicate 256 { reqOf flag1 .held with id := 51 })).reqs.length = 257) ∧
    (let r := reqOf flag1 .held
     (reqDemo rw [r]).turn r = true ∧ r.behind = [] ∧ (∀ q ∈ (reqDemo rw [r]).reqs, ¬q.group < r.group) ∧ (reqDemo rw [r]).flagShown r = true ∧ r.arrived = false ∧
       -- an earlier store of the core orders it
       (let q := { reqOf (.st { pt with a := 4, b := 2 }) .home with id := 40, group := 40 }; q.core = r.core ∧ q.stores = true ∧ q.mi.ord = false ∧ q.phase ≠ .performed ∧ q.group < r.group ∧ q.pa / 2 ^ 52 = r.pa / 2 ^ 52)) := by decide +kernel
/-- A window access to the demonstration workgroup itself, in a space with an object. -/
def winReq (i : Instr) (kind : Nat) : Req := { reqOf i .window with slots := [{ lane := 0, addr := kind * 2 ^ 28 + 8 }] }
theorem witness_RequestsElsewhere : (∀ kind ∈ [0, 1, 2, 3, 4, 5], ∀ i ∈ [Instr.ld { pt with d := 3, a := 4, mod := 3 }, .st { pt with a := 4, b := 2, mod := 3 }], let r := winReq i kind
      let s : State := let t := reqDemo rw [r]; { t with mem := t.mem }
      s.reqs.find? (fun q => q.id == 50) = some r ∧ r.slots.map (fun x => (x.did, s.winSlotFree r 0 x)) = [([], true)] ∧ r.pa = 0 ∧ r.arrived = false ∧ (∀ q ∈ s.winArrivals r, s.winFate q = none) ∧ s.late = [] ∧ (s.wg 0).status = .resident ∧ s.winConnected 0 0 = true ∧
        (s.wg 0).mixing = none ∧ s.opsOf 0 = [] ∧ 8 + r.size ≤ 8192 ∧ (s.coreAt 0).storeBad = []) ∧
    (let r := winReq (.ld { pt with d := 3, a := 4, mod := 3 }) 1
     ({ State.reset with wgs := [(0, { status := .discarded })], reqs := [r] }.wg 0).status = .discarded) ∧
    (∀ i ∈ [Instr.ldfe { pt with d := 3, a := 4, mod := 1 }, .stfe { pt with a := 4, b := 2, mod := 1 }], let r := { reqOf i .overflow with slots := [{ lane := 0, addr := 64 }] }
      (reqDemo rw [r]).reqs.find? (fun q => q.id == 50) = some r ∧ ∀ q ∈ (reqDemo rw [r]).reqs, q.phase ≠ .waiter ∧ r.order ≤ q.order) ∧
    (∀ h ∈ [HamperAt.rest 0 1, .base, .packet, .table], let r := { reqOf load1 .home with escBase := 32, escCount := 1, slots := [{ lane := 0, addr := 0x8000, esc := [7] }], hampers := [h] }
      r.noEsc = false ∧ 0 < r.escCount ∧ (reqDemo rw [r]).reqs = [r]) ∧
    (let r := reqOf load1 .performed
     let t := reqDemo rw [r]
     let s := { t with quads := [(0, { preempt := some { ctx := 1, deadline := 0, started := 0, choice := 2 } })] }.updCur fun w => { w with stopped := true }
     s.saving 0 = true ∧ s.allStopped 0 = true ∧ r.recordable = true ∧ s.recordTurn r = true ∧ s.takes r = true ∧
       ({ r with slots := [{ lane := 0, addr := 0x8000, bad := true }] } : Req).recordable = true) ∧
    ({ State.reset with wgs := [(0, { status := .ending })], reqs := [reqOf load1 .home] }.wg 0).status = .ending := by decide +kernel

/-! #### Copies -/

/-- A copy unit warp: a copy to scratch, a multicast to member 0's landing entry, a copy to a weight slot; counted, with `.arr`. -/
def copyInsns (f : Fields) : List Instr := [.cpy { f with d := 3, a := 4, b := 6, c := 0x31, mod := 16 }, .cpy { f with d := 3, a := 4, b := 6, mod := 9 },
  .cpym { f with d := 3, a := 8, b := 6, c := 1, mod := 17 }, .cpyw { f with d := 3, a := 4, b := 6, c := 0x11, mod := 1 }]
/-- Registers for these: scratch 0 to 256, and member 0 in bits 39:36. -/
def copyDemo (dst : Word) : State := paged rw (armed 0 [(4, 0, dst), (4, 1, 260), (6, 0, 0x8000), (6, 1, 0x8004), (8, 0, 0), (9, 0, 16), (8, 1, 4), (9, 1, 16)])
theorem witness_CopiesAreAccepted : (∀ i ∈ copyInsns pt, Runs i (copyDemo 256) ∧ (copyDemo 256).landFails i 0 = false) ∧
    (∀ i ∈ copyInsns off, Runs i (copyDemo 256)) ∧ (canTrap (copyDemo 257) ∧ ∀ i ∈ copyInsns pt, Runs i (copyDemo 257)) ∧
    (∀ i ∈ (copyInsns pt).take 1, (copyDemo 256).copyFailures i [0, 1] = []) ∧ (∀ i ∈ (copyInsns pt).take 1, ((failTrap 0x40 ((copyDemo 257).copyFailures i [0, 1])).map (·.cause)) = some 5) ∧
    (let s := (copyDemo 256).updCur fun w => w.setReg 9 0 0x100
     let i : Instr := .cpym { pt with d := 3, a := 8, b := 6, c := 1, mod := 16 }
     (canTrap s ∧ Runs i s) ∧ s.copyFailures i [0, 1] = [] ∧ s.landFails i 0 = true) := by
  refine ⟨fun i hi => ⟨runs_all (is := copyInsns pt) ?_ i hi, ?_⟩, runs_all ?_, ⟨trap_of ?_, runs_all ?_⟩, ?_, ?_, ⟨trap_of ?_, runs_of ?_⟩, ?_⟩
  case refine_2 => revert i hi; decide +kernel
  all_goals decide +kernel
/-- A counted copy with one operation left. -/
def copy1 (i : Instr) : Copy := { id := 60, wg := 0, warp := 0, core := 0, insn := i, pc := 0x40, arr := true, cnt := true, bar := 1, left := 1, owed := true }
/-- Its operation of one move of four bytes. -/
def xfer1 (src dst : Nat) (isRead : Bool) : Xfer :=
  { id := 61, copy := 60, moves := [{ lane := 0, src := 0, dst := 64 }], size := 4, srcSpace := src, dstSpace := dst, srcSeg := 0, phase := .ready,
    data := if isRead then [[1, 2, 3, 4]] else [], members := if dst = 4 then [0] else [], isRead }
theorem witness_TransfersMoveBytes : (∀ x ∈ [xfer1 1 1 false, xfer1 1 4 false, xfer1 0 1 true, xfer1 0 5 true, xfer1 1 0 true, xfer1 1 4 true],
      let c := copy1 (.cpyw { pt with d := 3, a := 4, b := 6, c := 0x11, mod := 1 })
      let s := { paged rw (demo 0 []) with copies := [c], xfers := [x] }
      s.xfers.find? (fun y => y.id == 61) = some x ∧ s.copies.find? (fun y => y.id == 60) = some c ∧ (s.wg 0).status = .resident ∧ s.copyReleased c x = true ∧
        x.moves.length = 1 ∧ (x.isRead = true → x.data.map (·.length) = [4]) ∧ s.pageHeld 0 1 0 = none ∧ (s.translate 0 1 64 .write false).2.1 = .ok 64 0 ∧ s.xferTurn c x = true ∧ x.zeroed = false ∧ s.choices = [] ∧
        (∀ path ∈ [0, 4], s.homeChecks 64 0 path = none) ∧ c.wrote = [] ∧ (s.coreAt 0).storeBad = [] ∧ (x.dstSpace = 4 → 0 ∈ x.members)) ∧
    -- reads of global memory and of a window, and a write of a window
    (∀ x ∈ [xfer1 0 1 false, xfer1 2 1 false, { xfer1 3 1 false with moves := [{ lane := 0, src := 2 ^ 28 + 8, dst := 64 }] },
        { xfer1 1 3 true with moves := [{ lane := 0, src := 0, dst := 2 ^ 28 + 64 }] }],
      let c := copy1 (.cpy { pt with d := 3, a := 4, b := 6, c := 0x61 })
      let s := { paged rw (demo 0 []) with copies := [c], xfers := [x] }
      s.copyReleased c x = true ∧ s.xferTurn c x = true ∧ (s.translate 0 1 0 .read false).2.1 = .ok 0 0 ∧ s.badMem = [] ∧
        ∀ a ∈ [2 ^ 28 + 8, 2 ^ 28 + 64], s.objConnected 0 0 a = true ∧ s.winHeld 0 a 4 = false ∧ s.opsOf 0 = [] ∧ (s.wg 0).mixing = none ∧ s.late = [] ∧
          windowValid (s.packet 0) (a / 2 ^ 28 % 16) (a % 2 ^ 28) 4 = true) ∧
    (let s := (demo 0 []).updCurG fun g => { g with landing := [(0, { base := 256, bar := 1, valid := true, size := 256 })] }
     (SMap.get {} s.curG.landing 0 : Landing).valid = true ∧ (64 : Nat) + 4 ≤ (SMap.get {} s.curG.landing 0 : Landing).size ∧ (paged rw s).objConnected 0 0 (256 + 2 ^ 28 + 64) = true) ∧
    (SMap.get {} (demo 0 []).curG.landing 0 : Landing).valid = false := by decide +kernel

/-! #### Translation commands -/

/-- The host may write every register. -/
def hosted (s : State) : State := (List.range 19).foldl (fun (s : State) w => (s.setCreg (connRow hostPort w) 0xFFFFFFFF).setCreg (connRow clusterPort w) 0xFFFFFFFF) s
/-- The privileged instructions. -/
def privInsns (f : Fields) : List Instr := [.tlbinv { f with a := 4, b := 2 }, .harvest { f with d := 3, a := 4, b := 2 }, .replay f, .replayCancel { f with mod := 1 }, .replayPage { f with a := 4, mod := 2 }]
theorem witness_TranslationCommands : (paged rw (privileged (demo 2 []))).reachesRegs = true ∧ (privileged (armed 2 [])).reachesRegs = false ∧
    (canTrap (privileged (armed 2 (both [(2, 1)]))) ∧ ∀ i ∈ privInsns pt, Runs i (privileged (armed 2 (both [(2, 1)])))) ∧ (∀ i ∈ privInsns pt, Runs i (privileged (demo 2 (both [(2, 1)])))) ∧ (∀ i ∈ privInsns off, Runs i (privileged (demo 2 []))) ∧
    -- a page table of five levels whose leaf entry has D set
    (let s := { privileged (demo 2 (both [(2, 1)])) with curMask := 1, mem := [(0, 1), (8, 4), (0x410, 1), (0x100000, 1), (0x100008, 8), (0x200000, 1), (0x200008, 12),
        (0x300000, 1), (0x300008, 16), (0x400000, 0x7F)] }
     s.trueLanes pt = [0] ∧ s.walk 1 0 = .leaf 0x7F 4 0x400000 ∧ pteSound 0x7F = true ∧ pteD 0x7F = true) ∧
    ((hosted State.reset).mayWrite hostPort (cmdBlock 15) = true ∧ (hosted State.reset).busy 15 = false ∧ ((hosted State.reset).setCreg (cmdBlock 15) (2 ^ 31)).busy 15 = true ∧
      ((hosted State.reset).setCreg (cmdBlock 15) (2 ^ 31)).cmdReady 15 = true ∧ (hosted State.reset).mayWrite hostPort (faultBlock 287) = true ∧
      (hosted State.reset).mayWrite hostPort (faultBlock 287 + 4) = true ∧ (hosted State.reset).mayWrite hostPort (cmdBlock 15 + 0x14) = true ∧
      State.reset.mayWrite 0 (cmdBlock 15) = false) ∧ State.reset.parkedOf 15 = [] ∧ State.reset.xfers = [] :=
  ⟨by decide +kernel, by decide +kernel, ⟨trap_of (by decide +kernel), runs_all (by decide +kernel)⟩, runs_all (by decide +kernel),
    runs_all (by decide +kernel), by decide +kernel⟩
theorem witness_InstructionsWaitAtIssue : (let s := (demo 2 []).updCur fun w => { w with ldc := 63, stc := 63, sfc := 63 }
      s.canIssue = true ∧ s.spent = none ∧ precheck load1 s = none ∧ heldNow load1 s = true ∧ s.trueLanes pt ≠ [] ∧ s.curW.ldc = 63 ∧ s.curW.stc = 63 ∧ s.curW.sfc = 63) ∧
    (let s := (paged rw (demo 2 [])).setCreg (cmdBlock 0) (2 ^ 31); s.busy s.curPart = true ∧ s.reachesRegs = true) := by decide +kernel

/-! #### Launches -/

/-- The bytes of a packet that are not zero: a grid of one workgroup of one vector warp with two home registers; its energy's top byte. -/
def packetBytes (e : Byte) : List (Nat × Byte) := [(12, 1), (16, 1), (20, 1), (24, 1), (27, 1), (28, 2), (37, 1), (0x5B, e)]
/-- Page tables of VA 0, whose page is frame 17. -/
def tables (leaf : Byte) : Memory :=
  [(0, 1), (8, 4), (0x100000, 1), (0x100008, 8), (0x200000, 1), (0x200008, 12), (0x300000, 1), (0x300008, 16), (0x400000, leaf), (0x400008, 17)]
/-- Queue 4095, bound to slot 47, with that packet; quad 0 in partition 0 and connected; the host may write. -/
def queueDemo (leaf e : Byte) : State :=
  let s := { State.reset with mem := tables leaf ++ (packetBytes e).filterMap fun (p : Nat × Byte) => if p.2 = 0 then none else some (0x440000 + p.1, p.2) }
  hosted <| (List.range 19).foldl (fun (s : State) w => s.setCreg (connRow 0 w) 0xFFFFFFFF) ((((s.setCreg (queueSlot 47 + 12) (2 ^ 31 + 1)).setCreg (queueSlot 47 + 8) (4095 * 2 ^ 20)).setCreg (doorbell 4095) 1).setCreg (qpart 0) (2 ^ 31))
/-- The launch that the packet gives. -/
def launchOf (s : State) : Launch := { packet := s.readPacket 0x440000 (s.creg (queueSlot 47 + 16)) (s.creg (queueSlot 47 + 20)), vq := 4095, ctx := 1 }
/-- The address that a packet's read gives, or its code. -/
def packetRead (s : State) : Nat × Nat := match s.packetAt 47 4095 with
  | .ok g => (g, 0)
  | .error c => (0, c)
theorem witness_QueuesStartLaunches : (let s := queueDemo 0x7F 0
      s.mayWrite hostPort (doorbell 4095) = true ∧ s.mayWrite hostPort (doorbell 4095 + 12) = true ∧ s.slotOf 4095 = some 47 ∧ s.mayStart 4095 = true ∧ s.vqState 4095 < 3 ∧
        packetRead s = (0x440000, 0) ∧ packetCode (launchOf s).packet (s.packetReserved 0x440000) (s.ctxPart 1) = none ∧ s.capacityCode (launchOf s) = none ∧
        s.launchesOf 4095 = [] ∧ (s.setCreg (doorbell 4095 + 8) 4).vqState 4095 = 4 ∧ State.reset.slotOf 4095 = none ∧ State.reset.mayWrite 0 (doorbell 4095) = false ∧
        (s.setCreg (doorbell 4095 + 8) 0xB04).field (doorbell 4095 + 8) 11 8 = 11) ∧
    (packetRead (queueDemo 0 0)).2 = 11 ∧ (packetRead (queueDemo 0x7B 0)).2 = 12 ∧ (queueDemo 0x7F 1).capacityCode (launchOf (queueDemo 0x7F 1)) = some 10 ∧
    packetCode { (launchOf (queueDemo 0x7F 0)).packet with entry := 2 } false 0 = some 1 ∧
    -- a packet that breaks each of the checks 1 to 7
    (let p := (launchOf (queueDemo 0x7F 0)).packet
     [packetCode { p with nx := 0 } false 0, packetCode { p with warps := 65 } false 0, packetCode { p with home := 1 } false 0,
       packetCode { p with scratch := 1 } false 0, packetCode { p with ringcfg := [1] } false 0, packetCode p false 1, packetCode p true 0] =
     [some 2, some 3, some 4, some 5, some 6, some 7, some 1]) := by decide +kernel
-- a workgroup of the queue whose restore was refused
theorem witness_QueuesStartLaunches_restore : let s := { queueDemo 0x7F 0 with launches := [(0, launchOf (queueDemo 0x7F 0))], wgs := [(0, { status := .saved, refused := true })] }
    s.waitsRestore 4095 = true ∧ (s.launch 0).finished = false ∧ 0 ∈ s.launchesOf 4095 ∧ (queueDemo 0x7F 0).waitsRestore 4095 = false := by decide +kernel
/-- The launch 0 of `queueDemo`. -/
def launched (flags : Nat) (returned : List Nat) (nextWg : Nat) : State :=
  let s := queueDemo 0x7F 0
  { s with launches := [(0, { launchOf s with packet := { (launchOf s).packet with flags }, returned, nextWg })], tag := 1 }
theorem witness_WorkgroupsStartAndEnd : (launched 0 [] 0).mayDispatch 0 = true ∧ ((launched 0 [] 0).dispatchOne 0).isSome = true ∧ ((launched 0 [] 0).launch 0).nextGroup = [0] ∧
    (launched 0 [0] 1).mayDispatch 0 = true ∧ ((launched 0 [0] 1).dispatchOne 0).isSome = true ∧
    (launched 2 [] 0).mayDispatch 0 = true ∧ ((launched 2 [] 0).launch 0).packet.coResident = true ∧ ((launched 2 [] 0).dispatchAll 0 [] 2).1.isSome = true ∧
    -- no quad of the partition, so that a group waits for the die chosen
    (let s := (launched 0 [] 0).setCreg (qpart 0) 0; s.mayDispatch 0 = true ∧ s.dispatchOne 0 = none ∧ ((launched 0 [] 0).launch 0).packet.coResident = false) ∧
    (let s := (launched 2 [] 0).setCreg (qpart 0) 0; s.mayDispatch 0 = true ∧ (s.dispatchAll 0 [] 2).1 = none) ∧
    (let s := (demo 2 []).updCur fun w => { w with lanes := [] }
     (s.wg 0).status = .resident ∧ s.liveWarps 0 = [] ∧ s.quiet 0 = true ∧ s.xfers = [] ∧ s.copies = []) ∧
    (let s := paged 0x5F ((demo 2 []).updCur fun w => { w with active := false, readySince := some 0 })
     s.byTime (fun w => w.readySince.getD 0) ((s.pendingIn 0 0).filter fun y => s.ready y.1 y.2) = [(0, 0)] ∧ (s.exchange 0 0 (0, 0) []).isSome = true ∧
       s.activeIn 0 0 = []) ∧ State.reset.wgs.keys.Nodup := by decide +kernel
-- two workgroups of one warp on core 0: the second's warp is pending, and the first's leaves
def exchangeDemo : State :=
  let s := paged 0x5F (demo 2 [])
  let g := s.wg 0
  let p : Launch := { packet := { decl 2 with home := 128, travel := 127 }, ctx := 1 }
  let wg (active : Bool) (n : Nat) : Workgroup := { g with warps := [(0, { warpWith [] with active, slot := n, readySince := if active then none else some 0 })] }
  { s with launches := [(0, p)], wgs := [(0, wg true 0), (1, wg true 1), (2, wg true 2), (3, wg true 3), (4, wg false 4)], cyc := 2048 }
theorem witness_ForcedExchange : let s := exchangeDemo
    s.byTime (fun w => w.readySince.getD 0) ((s.pendingIn 0 0).filter fun y => s.ready y.1 y.2) = [(4, 0)] ∧ s.activeIn 0 0 = [(0, 0), (1, 0), (2, 0), (3, 0)] ∧
    s.byTime (·.lastIssue) (s.activeIn 0 0) = [(0, 0), (1, 0), (2, 0), (3, 0)] ∧
    (s.leavers (4, 0) [] [(1, 0), (2, 0), (3, 0)]).map ((0, 0) :: ·) = some [(0, 0)] ∧ (s.exchange 0 0 (4, 0) [(0, 0)]).isSome = true ∧
    max ((s.warp 4 0).readySince.getD 0) (SMap.get 0 (s.coreAt 0).lastExch 0) + 2048 ≤ s.cyc.toNat := by decide +kernel
-- one warp parked, where the energy measured is above the quad's share, or the last four intervals' mean is; none parked
theorem witness_ControlInterval : (1 : Nat) < (((List.range 4).flatMap fun c => exchangeDemo.warpsOn (4 * 0 + c)).filter fun x => !(exchangeDemo.warp x.1 x.2).unexited.isEmpty).length ∧
    exchangeDemo.budget 0 (exchangeDemo.capOf exchangeDemo.band) < 1000000 ∧ (∀ i, i < 16 → (exchangeDemo.parkFor 0 1).coolerHolds (4 * 0 + i / 4) (i % 4) = true) ∧ exchangeDemo.halted = false ∧
    (exchangeDemo.updQuad 0 fun q => { q with energies := [1000000] }).budget 0 (exchangeDemo.capOf exchangeDemo.band) * 4 < 0 + sumOf id [1000000] ∧
    State.reset.wgs.keys.Nodup ∧ (∀ x ∈ (List.range 4).flatMap fun c => exchangeDemo.warpsOn (4 * 0 + c), (exchangeDemo.warp x.1 x.2).slot < 256) := by
  decide +kernel

/-! #### Pre-emption and restore -/

/-- The demonstration workgroup, restartable or not, with a request at quad 0; deadline D and mode of a new request. -/
def preemptDemo (flags choice d mode : Nat) : State :=
  let s := hosted (demo 2 [])
  let t := { s with launches := [(0, { packet := { decl 2 with flags }, ctx := 1, nextWg := 1 })], quads := if choice = 0 then [] else
      [(0, { preempt := some { ctx := 1, deadline := 0, started := 0, choice } }), (1, { preempt := some { ctx := 1, deadline := 0, started := 0, choice } })] }
  (t.setCreg (preemptBlock 0 + 4) d).setCreg (preemptBlock 0 + 8) mode
theorem witness_PreemptionRuns : (∀ d ∈ [0, 0xFFFFFFFF], ∀ flags ∈ [0, 1], ∀ mode ∈ [0, 3], let s := preemptDemo flags 0 d mode
      s.mayWrite clusterPort (preemptBlock 0) = true ∧ bits (s.creg (preemptBlock 0 + 12)) 4 4 = 0 ∧ s.preemptees 0 1 = [0] ∧ s.eDrain 0 [0] = none ∧
        (s.eSave [0] (sumOf s.sectionLength [0]) ≤ s.creg (preemptBlock 0 + 4) ↔ d ≠ 0) ∧ s.restartable 0 = decide (flags = 1)) ∧
    (let s := preemptDemo 0 0 0 0
     let t := { s with quads := [(0, { runs := [(0, (1, 0))] })] }
     t.eDrain 0 [0] = some 0 ∧ bits ((s.setCreg (preemptBlock 0 + 12) 16).creg (preemptBlock 0 + 12)) 4 4 = 1 ∧ State.reset.mayWrite 0 (preemptBlock 287) = false) ∧
    (let s := preemptDemo 0 1 0 0
     (s.quad 0).preempt = some { ctx := 1, deadline := 0, started := 0, choice := 1 } ∧ s.preemptees 0 1 ≠ [] ∧ s.field (preemptBlock 0 + 8) 1 0 = 0 ∧ 0 ≤ s.cyc.toNat ∧
       (s.wgsOnQuad 1).filter (fun k => s.ctxNo k == 1) = []) ∧
    (let s := (preemptDemo 0 2 0 0).updCur fun w => { w with stopped := true }
     (s.wgsOnQuad 0).filter (fun k => s.ctxNo k == 1) = [0] ∧ s.saving 0 = true ∧ s.saveReady 0 = true) ∧
    (let s := (preemptDemo 1 3 0 0).updCurG fun g => { g with status := .ending }
     (s.wgsOnQuad 0).filter (fun k => s.ctxNo k == 1) = [0] ∧ s.discarding 0 = true ∧ s.discardReady 0 = true) := by decide +kernel
/-- A saved workgroup without memory objects, and the header of its section at physical address 2^20; `v`: the format version. -/
def savedDemo (v : Nat) : State :=
  let p : Packet := { nx := 1, ny := 1, nz := 1, warps := 1, nvec := 1, home := 2, qgroup := 1 }
  let offs := imgOffsets p false 0
  let a := 2 ^ 20
  let m0 := ((((State.reset.mem.write a 4 0x4E395345).write (a + 4) 4 v).write (a + 12) 4 (offs.getD 12 0 + 16)).write (a + 16) 4 1).write (a + 0x18) 24 (bytesVal p.declBytes)
  let m := (List.range 13).foldl (fun (m : Memory) i => m.write (a + 0x30 + 4 * i) 4 (offs.getD i 0)) m0
  let s := { State.reset with mem := m, launches := [(0, { packet := p, ctx := 1, nextWg := 1 })], wgs := [(0, { status := .saved, warps := [(0, {})] })] }
  ((hosted s).setCreg (preemptBlock 0 + 0x2C) a).setCreg (qpart 0) (2 ^ 31)
/-- The code of a restore that fails; 0 for one that succeeds. -/
def restoreCode (s : State) (at_ : Nat) : Nat := match s.tryRestore 0 0 1 at_ with
  | .error c => c
  | .ok _ => 0
-- the section lies in package memory, at physical address 0
theorem witness_SavedSectionsHoldTheWorkgroup : let p : Packet := { nx := 1, ny := 1, nz := 1, warps := 1, nvec := 1, home := 2, qgroup := 1 }
    let s := { preemptDemo 0 2 0 0 with launches := [(0, { packet := p, ctx := 1, nextWg := 1 })] }.updCur fun w => { w with stopped := true }
    (s.wgsOnQuad 0).filter (fun k => s.ctxNo k == 1) = [0] ∧ s.saving 0 = true ∧ s.saveReady 0 = true ∧ s.late = [] ∧ (s.wg 0).queues = [] ∧
    s.pointer (preemptBlock 0 + 0x20) + ((s.wg 0).sectionBytes (s.packet 0) (s.ctxNo 0) (s.ctx (s.ctxNo 0)).scopechk (s.copiesOf 0)).length ≤ 9 * 2 ^ 37 := by
  decide +kernel
theorem witness_RestoresRun : (let s := savedDemo 64
      s.mayWrite clusterPort (preemptBlock 0 + 0x28) = true ∧ s.mayWrite clusterPort (preemptBlock 0 + 0x34) = true ∧ s.pointer (preemptBlock 0 + 0x2C) = 2 ^ 20 ∧
        s.sectionsAt 1 (2 ^ 20) = some [(0, 2 ^ 20)] ∧ s.checkCore 0 (2 ^ 20) 0 = none) ∧
    restoreCode (savedDemo 65) (2 ^ 20) = 2 ∧ restoreCode (savedDemo 64) 0 = 5 ∧ (0x80000100 : Word).getLsbD 31 = true ∧ (0x80000100 : Word).getLsbD 8 = true ∧
    State.reset.mayWrite 0 (preemptBlock 287 + 0x34) = false ∧ ((savedDemo 65).launch 0).vq < 4096 ∧ (savedDemo 65).vqState 0 = 0 ∧
    (savedDemo 65).sectionsAt 1 (2 ^ 20) = some [(0, 2 ^ 20)] := by decide +kernel

/-! #### Bands, health, the root of trust, the outside -/

/-- Reset, with the host allowed to write, in a thermal state, stack 0 valid at a band and temperature. -/
def thermalDemo (st band temp : Nat) : State :=
  hosted ((State.reset.setField cdStat 2 0 st).setCreg (tsens 0) (2 ^ 18 + band * 2 ^ 16 + temp))
theorem witness_ThermalStates : sensorDie 0 < State.reset.nact 0 ∧ sensorDie 26 < State.reset.nact 0 ∧ State.reset.field (tsens 26) 18 18 = 0 ∧
    -- the bounds of the bands
    (∀ x ∈ [(1440, 0), (1520, 0), (1521, 1), (2400, 1), (2401, 2), (5280, 2), (5281, 3)], (if x.1 ≤ 95 * 16 then 0 else if x.1 ≤ 150 * 16 then 1 else if x.1 ≤ 330 * 16 then 2 else 3) = x.2) ∧
    (∀ st ∈ [0, 1, 2, 3, 4, 5, 6], (thermalDemo st 1 1600).thermalState = st ∧ (thermalDemo st 1 1600).field (tsens 0) 18 18 = 1 ∧ (thermalDemo st 1 1600).field (tsens 0) 17 16 = 1) ∧
    (thermalDemo 0 0 0).mayWrite clusterPort cdCtl = true ∧ (thermalDemo 0 0 0).mayWrite clusterPort cdStat = true ∧ State.reset.mayWrite 0 cdCtl = false ∧
    (State.reset.homeDie 0).isSome = true ∧ State.reset.badAt (State.reset.lineOf 0) 128 = false ∧ { State.reset with badMem := [0] }.badAt (State.reset.lineOf 0) 128 = true := by
  decide +kernel
theorem witness_BootAuditAndSparing : ((List.replicate 65535 ([] : List Byte)).length + 1) % 65536 = 0 ∧ (let s := hosted State.reset
      s.mayWrite clusterPort (auditWindow + 60) = true ∧ s.mayWrite clusterPort health = true ∧ s.mayWrite hostPort (eventBlock 15 + 0x14) = true ∧ s.mayWrite clusterPort (meshCfg 8) = true ∧
        s.regionBusy 8 = false) ∧ State.reset.mayWrite 0 (auditWindow + 60) = false ∧ (demo 2 []).regionBusy 0 = true ∧ State.reset.wgs = [] ∧
    (0 : Nat) < 128 * State.reset.nact State.reset.pkg ∧ (State.reset.coreAt 0).disabled = false ∧ State.reset.ctxs = [] ∧ State.reset.wgsOn 0 = [] ∧ (demo 2 []).wgsOn 0 = [0] ∧
    (State.reset.setField (coreStat 0) 2 0 3).field (coreStat 0) 2 0 ≠ 0 ∧ (State.reset.setField (coreStat 0) 2 0 0).field (coreStat 0) 2 0 = 0 ∧ State.reset.halted = false ∧ (State.reset.setField bootStat 3 0 2).halted = true ∧ 17 * 160 + 159 ∉ State.reset.retiredChannels ∧
    (State.reset.audit.length + 1) % 65536 ≠ 0 := by
  constructor
  · rw [List.length_replicate]
  · decide +kernel
theorem witness_OutsideAccesses : (let s := hosted State.reset
      accessOk 8 8 = true ∧ s.barAddr 2 8 = some 8 ∧ s.barAddr 0 0xFFFFFFFC = some (cregBase + 0xFFFFFFFC) ∧ s.reservedPa 8 = false ∧ s.reaches hostPort 8 = true ∧
        s.field bootStat 3 0 = 0 ∧ s.reaches clusterPort 8 = true ∧ (s.homeDie (s.own 8)).isSome = true ∧ s.badAt (s.own 8) 8 = false ∧
        s.reservedPa (cregBase + 0xFFFFFFFC) = true ∧ cregAccess (qpart 287) ≠ none ∧ s.mayWrite clusterPort (qpart 287) = true ∧ s.regCommand clusterPort (qpart 287) 1 = none ∧
        s.connected s.pkg hostPort 576 = true ∧ cregAccess 0xFFFFFFFC = none) ∧ State.reset.reaches hostPort 8 = false ∧ ((List.range 19).foldl (fun (s : State) w => s.setCreg (connRow clusterPort w) 0) State.reset).reaches clusterPort 8 = false ∧
    (let s : State := { State.reset with routes := [(3, [{ path := 1, port := 288, neighbour := 3, lands := 0 }, { path := 2, port := 289, neighbour := 3, lands := 1 }])] }
     (∃ r ∈ s.pathsTo 3, r.path = 1) ∧ (s.pathsTo 3).filter (fun r => r.path != 1) ≠ [] ∧
       (let u : State := { s with routes := [(3, [{ path := 1, port := 288, neighbour := 3, lands := 0 }])] }; (∃ r ∈ u.pathsTo 3, r.path = 1) ∧ (u.pathsTo 3).filter (fun r => r.path != 1) = []) ∧
       (let r : Req := { id := 5, group := 5, wg := 0, warp := 0, core := 0, insn := .red { pt with a := 4, b := 2, c := 10 }, pc := 0x40, space := 0, slots := [{ lane := 0, addr := 0x8000 }], phase := .home, pa := 3 * 2 ^ 52 }
        s.outOn 3 r = true ∧ r.stores = true ∧ r.mi.atomic = true)) ∧
    (let s := hosted State.reset; s.halted = false ∧ (s.setField bootStat 3 0 1).halted = true ∧ s.rowGone (qpart 287) = false ∧ s.reservedAccess (cregBase + 0xFFFFFFFC) 4 = true ∧
       s.reservedAccess 8 8 = false) ∧
    ptime State.reset = 0 ∧ ptime { State.reset with ptimeNs := 1 } = 65536 ∧ State.reset.groupBusy 1 63 = false ∧ State.reset.inPod 0 = true ∧
    ({ State.reset with occs := [(occKey 1 3 0 0, { parts := [(0, part1 1 0x8000)] })] }.groupBusy 1 3) = true := by decide +kernel

/-! #### The machine -/

theorem witness_StepRunsTheDecodedInstruction : ∃ (s t : State) (as : List Act) (i : Instr), s.sched = .issue 0 0 :: as ∧
    { s with sched := as }.attempt 0 0 = .run t i ∧ i = .nop pt := by
  have h : (match { placed with sched := [] }.attempt 0 0 with | .run _ i => decide (i = .nop pt) | _ => false) = true := by decide +kernel
  revert h
  cases e : { placed with sched := [] }.attempt 0 0 with
  | run t i => intro h; exact ⟨placed, t, [], i, by decide +kernel, e, of_decide_eq_true h⟩
  | _ => intro h; cases h
theorem witness_DecodeInvertsEncode : (Instr.ld { pt with d := 20, a := 8, ext := .wide 64 24 8 0 0 0 }).wf = true := by decide
/-- Whether an outcome is a next state. -/
def isNext : Host.Outcome State Fault Refusal → Bool
  | .next _ => true
  | _ => false
theorem next_of : ∀ o, isNext o = true → ∃ t, o = .next t
  | .next t, _ => ⟨t, rfl⟩
theorem witness_StepsKeepMemoryCanonical : placed.memOk ∧ ∃ t, step placed = .next t :=
  have h : placed.mem.wf = true := by decide +kernel
  ⟨h, next_of _ (by decide +kernel)⟩
theorem witness_StripedViewPairsAndSeed : 0 < State.reset.nact State.reset.pkg ∧ (∀ fm ∈ arithFmts, (narrow fm .rz false (.fin false 1 0)).2 &&& flOF = 0) := by decide +kernel
theorem witness_FormsComplete : (∀ i ∈ [Instr.add (ab 0), .unpk { pt with d := 8, a := 1, b := 9 }, .fence { pt with ext := .k 0 0 5 0 }, .rgive { pt with d := 3, a := 0 }], Runs i (demo 2 [])) ∧
    (∀ i ∈ memInsns pt 0 4 ++ [.ldi { pt with d := 3, a := 4, c := 6 }, .ldfe { pt with d := 3, a := 6, mod := 1 }, .stfe { pt with a := 6, b := 2, mod := 1 }],
      let s := paged rw (demo 2 (both [(4, 0x8000), (6, 64)]))
      Runs i s ∧ (∀ l ∈ s.trueLanes i.fields, s.laneCheck s.curWg (memOf i) (s.curW.address i.fields (memOf i).space l) (pathOf s i (s.curW.address i.fields (memOf i).space l)) = none) ∧ (s.coreAt s.curG.core).storeBad = []) ∧
    (∀ i ∈ matInsns pt, let s := matDemo 0 32 0 0
      Runs i s ∧ s.trueLanes i.fields ≠ [] ∧ s.matFails i ((s.trueLanes i.fields).headD 0) = none) ∧
    (∀ i ∈ (copyInsns pt).take 1, Runs i (copyDemo 256) ∧ (copyDemo 256).trueLanes i.fields ≠ [] ∧ (copyDemo 256).copyFailures i ((copyDemo 256).trueLanes i.fields) = [] ∧
      (copyDemo 256).landFails i (((copyDemo 256).trueLanes i.fields).headD 0) = false) ∧
    ((demo 2 []).curW.tileErrs = [] ∧ ∀ i ∈ [Instr.waitc { pt with ext := .imm 0 }, .mxrd { pt with d := 3, a := 0, b := 2 }, .mxwr { pt with d := 0, a := 1, b := 2 }], Runs i (demo 1 [])) ∧
    (let s := paged rw (privileged (demo 2 (both [(2, 1)]))); (∀ i ∈ privInsns pt, Runs i s) ∧ s.reachesRegs = true ∧ s.trueLanes pt ≠ []) :=
  ⟨runs_all (by decide +kernel), fun i hi => ⟨runs_all (by decide +kernel) i hi, by revert i hi; decide +kernel⟩,
    fun i hi => ⟨runs_all (by decide +kernel) i hi, by revert i hi; decide +kernel⟩, fun i hi => ⟨runs_all (by decide +kernel) i hi, by revert i hi; decide +kernel⟩,
    ⟨rfl, runs_all (by decide +kernel)⟩, runs_all (by decide +kernel), by decide +kernel⟩

end Sys2Proof.Tests
end

section

/-!
# The frame of memory and its canonical form

`State.putBytes` is the only function of the model that writes bytes. So the lemmas come in two layers, each in the order of
the model's modules: `X_mem` says that `X` leaves `mem` as it is, and `X_wf` that `X` keeps `mem` in canonical form.
-/

namespace Sys2Proof.Machine

/-! ### Functions that leave memory as it is -/

@[simp] theorem ite_mem (c : Prop) [Decidable c] (s t : State) : (if c then s else t).mem = if c then s.mem else t.mem :=
  apply_ite ..

/-- Every step of a fold leaves memory as it is. It is a name, and not the `∀` itself, so that `simp` can discharge it. -/
def KeepsMem {α : Type} (g : State → α → State) : Prop := ∀ s a, (g s a).mem = s.mem

@[simp] theorem keepsMem_iff {α : Type} (g : State → α → State) : KeepsMem g ↔ ∀ s a, (g s a).mem = s.mem := Iff.rfl

@[simp] theorem foldl_mem {α : Type} (g : State → α → State) (l : List α) (s : State) (hg : KeepsMem g) :
    (l.foldl g s).mem = s.mem := by
  induction l generalizing s with
  | nil => rfl
  | cons a l ih => exact (ih _).trans (hg s a)

section
variable (s : State)

/-! #### Creg -/

@[simp] theorem setCregOf_mem (pkg off : Nat) (v : Nat) : (s.setCregOf pkg off v).mem = s.mem := by simp [State.setCregOf]
@[simp] theorem setField_mem (off hi lo v : Nat) : (s.setField off hi lo v).mem = s.mem := by simp [State.setField]
@[simp] theorem plainWrite_mem (off : Nat) (v : Word) : (s.plainWrite off v).mem = s.mem := by
  unfold State.plainWrite; split <;> simp

/-! #### Translate -/

@[simp] theorem settled_mem (place : Option Nat) (a n : Nat) : (s.settled place a n).mem = s.mem := by simp [State.settled]
@[simp] theorem sawAll_mem (place : Option Nat) (core a n : Nat) : (s.sawAll place core a n).mem = s.mem := by simp [State.sawAll]
@[simp] theorem showLate_mem (n scope core : Nat) : (s.showLate n scope core).mem = s.mem := by
  unfold State.showLate; split <;> simp
@[simp] theorem keepWords_mem (a n : Nat) : (s.keepWords a n).mem = s.mem := by simp [State.keepWords]
@[simp] theorem takeChoice_mem : (s.takeChoice).2.mem = s.mem := by
  unfold State.takeChoice; split <;> simp
@[simp] theorem takeMember_mem (e level at_ : Nat) : (s.takeMember e level at_).2.mem = s.mem := by
  unfold State.takeMember; split <;> simp

/-! #### Ops -/

@[simp] theorem updLanes_mem (k w : Nat) (ls : List Nat) (g : Nat → Lane → Lane) :
    (s.updLanes k w ls g).mem = s.mem := by simp [State.updLanes]
@[simp] theorem advanceLanes_mem (k w : Nat) (ls : List Nat) (len : Nat) :
    (s.advanceLanes k w ls len).mem = s.mem := by simp [State.advanceLanes]
@[simp] theorem count_mem (k w n add : Nat) : (s.count k w n add).mem = s.mem := by simp [State.count]
@[simp] theorem takeFree_mem : (s.takeFree).2.mem = s.mem := by simp [State.takeFree]
@[simp] theorem coreError_mem (core : Nat) : (s.coreError core).mem = s.mem := by simp [State.coreError]
@[simp] theorem signalAgent_mem (part vec : Nat) (cluster : Signal) :
    (s.signalAgent part vec cluster).mem = s.mem := by simp [State.signalAgent]
@[simp] theorem auditPush_mem (body : List Byte) : (s.auditPush body).mem = s.mem := by simp [State.auditPush]
@[simp] theorem auditHeadSign_mem : (s.auditHeadSign).mem = s.mem := by simp [State.auditHeadSign]
@[simp] theorem auditAppend_mem (body : List Byte) : (s.auditAppend body).mem = s.mem := by simp [State.auditAppend]
@[simp] theorem auditEvent_mem (type ctx v : Nat) : (s.auditEvent type ctx v).mem = s.mem := by simp [State.auditEvent]
@[simp] theorem auditTr_mem (t : Tr) (ctx va : Nat) : (s.auditTr t ctx va).mem = s.mem := by simp [State.auditTr]
@[simp] theorem freeEngine_mem (k : Nat) : (s.freeEngine k).mem = s.mem := by simp [State.freeEngine]
@[simp] theorem endWg_mem (k : Nat) : (s.endWg k).mem = s.mem := by simp [State.endWg]
@[simp] theorem forgetWords_mem : (s.forgetWords).mem = s.mem := by simp [State.forgetWords]
@[simp] theorem settleLaunch_mem (l : Nat) : (s.settleLaunch l).mem = s.mem := by simp [State.settleLaunch]
@[simp] theorem setVq_mem (v st refuse : Nat) : (s.setVq v st refuse).mem = s.mem := by simp [State.setVq]
@[simp] theorem vqRefresh_mem (v : Nat) : (s.vqRefresh v).mem = s.mem := by simp [State.vqRefresh]
@[simp] theorem endLaunch_mem (l : Nat) : (s.endLaunch l).mem = s.mem := by simp [State.endLaunch]
@[simp] theorem writeSfu_mem (x : Sfu) : (s.writeSfu x).mem = s.mem := by simp [State.writeSfu]
@[simp] theorem drainSfu_mem (k w : Nat) : (s.drainSfu k w).mem = s.mem := by simp [State.drainSfu]

/-! #### Operands -/

@[simp] theorem writeD_mem (f : Fields) (g : Warp → Nat → Word) : (s.writeD f g).mem = s.mem := by simp [State.writeD]
@[simp] theorem writePair_mem (f : Fields) (g : Warp → Nat → DWord) : (s.writePair f g).mem = s.mem := by simp [State.writePair]
@[simp] theorem writePred_mem (f : Fields) (g : Warp → Nat → Bool) : (s.writePred f g).mem = s.mem := by simp [State.writePred]

/-! #### Flags -/

@[simp] theorem raise_mem (fl : Flags) : (s.raise fl).mem = s.mem := by simp [State.raise]
@[simp] theorem writeDFl_mem (f : Fields) (g : Warp → Nat → Word × Flags) : (s.writeDFl f g).mem = s.mem := by
  simp [State.writeDFl]
@[simp] theorem writeDRm_mem (f : Fields) (code : Nat) (g : Warp → Nat → Word × Flags) :
    (s.writeDRm f code g).mem = s.mem := by simp [State.writeDRm]
@[simp] theorem writePairRm_mem (f : Fields) (code : Nat) (g : Warp → Nat → DWord × Flags) :
    (s.writePairRm f code g).mem = s.mem := by simp [State.writePairRm]
@[simp] theorem writePredFl_mem (f : Fields) (g : Warp → Nat → Bool × Flags) :
    (s.writePredFl f g).mem = s.mem := by simp [State.writePredFl]

/-! #### Waits -/

@[simp] theorem rewaitCur_mem (ls : List Nat) (what : WaitFor) : (s.rewaitCur ls what).mem = s.mem := by simp [State.rewaitCur]
@[simp] theorem allGoOn_mem : (s.allGoOn).mem = s.mem := by simp [State.allGoOn]
@[simp] theorem allWait_mem (what : WaitFor) : (s.allWait what).mem = s.mem := by simp [State.allWait]

/-! #### Control -/

@[simp] theorem branch_mem (f : Fields) (target : Warp → Nat → DWord) : (s.branch f target).mem = s.mem := by simp [State.branch]
@[simp] theorem regionLeft_mem (k : Nat) : (s.regionLeft k).mem = s.mem := by simp [State.regionLeft]
@[simp] theorem sleepFor_mem (f : Fields) (cycles : Warp → Nat → Nat) : (s.sleepFor f cycles).mem = s.mem := by
  simp [State.sleepFor]
@[simp] theorem wsyncEffect_mem (u0 : List Nat) : (wsyncEffect u0 s).mem = s.mem := by simp [wsyncEffect]

/-! #### Space -/

@[simp] theorem auditRefusals_mem (k : Nat) (m : MemInfo) (fails : List (Nat × Nat × Failure)) :
    (s.auditRefusals k m fails).mem = s.mem := by simp [State.auditRefusals]

/-! #### Cache -/

@[simp] theorem llcTouch_mem (g part cpol ch : Nat) : (s.llcTouch g part cpol ch).mem = s.mem := by
  unfold State.llcTouch; split <;> simp
@[simp] theorem updLine_mem (g part : Nat) (f : Line → Line) : (s.updLine g part f).mem = s.mem := by simp [State.updLine]
@[simp] theorem countScope_mem (ctx n : Nat) : (s.countScope ctx n).mem = s.mem := by simp [State.countScope]
@[simp] theorem l1Use_mem (core line : Nat) : (s.l1Use core line).mem = s.mem := by simp [State.l1Use]
@[simp] theorem l1Drop_mem (core line : Nat) : (s.l1Drop core line).mem = s.mem := by simp [State.l1Drop]
@[simp] theorem l1Clear_mem (core : Nat) : (s.l1Clear core).mem = s.mem := by simp [State.l1Clear]
@[simp] theorem l1Fill_mem (core line hint : Nat) : (s.l1Fill core line hint).mem = s.mem := by simp [State.l1Fill]
@[simp] theorem restHamper_mem (r : Req) (die bank : Nat) : (s.restHamper r die bank).1.mem = s.mem := by simp [State.restHamper]

/-! #### Requests -/

@[simp] theorem setReq_mem (r : Req) : (s.setReq r).mem = s.mem := by simp [State.setReq]
@[simp] theorem retire_mem (r : Req) : (s.retire r).mem = s.mem := by simp [State.retire]
@[simp] theorem returnEscort_mem (r : Req) : (s.returnEscort r).mem = s.mem := by simp [State.returnEscort]
@[simp] theorem endFetch_mem (r : Req) : (s.endFetch r).mem = s.mem := by simp [State.endFetch]
@[simp] theorem failReq_mem (r : Req) (cause detail : Nat) (cancel : Nat) :
    (s.failReq r cause detail cancel).mem = s.mem := by simp [State.failReq]
@[simp] theorem takePath_mem (pkg : Nat) : (s.takePath pkg).2.mem = s.mem := by
  unfold State.takePath; split <;> simp
@[simp] theorem linePaths_mem (i : Instr) (ls : List Nat) : (s.linePaths i ls).2.mem = s.mem := by
  unfold State.linePaths
  dsimp only
  split
  · rfl
  · refine List.foldlRecOn (motive := fun acc : List (Nat × Nat) × State => acc.2.mem = s.mem) _ _ rfl fun acc ih xs _ => ?_
    split
    · split
      · exact ih
      · simpa using ih
    · exact ih
@[simp] theorem sendReqs_mem (i : Instr) (ls : List Nat) (phase : Phase) (perLane : Bool) (paths : List (Nat × Nat)) :
    (s.sendReqs i ls phase perLane paths).mem = s.mem := by simp [State.sendReqs]
@[simp] theorem recountPool_mem (q : Nat) : (s.recountPool q).mem = s.mem := by simp [State.recountPool]
@[simp] theorem notifyFault_mem (part : Nat) : (s.notifyFault part).mem = s.mem := by simp [State.notifyFault]
@[simp] theorem faultEntry_mem (core ctx part page level abit : Nat) :
    (s.faultEntry core ctx part page level abit).mem = s.mem := by
  unfold State.faultEntry
  dsimp only
  split
  · rw [setCreg_mem]
  split
  · rw [notifyFault_mem, setCreg_mem, setCreg_mem, setCreg_mem, setCreg_mem, setCreg_mem]
  · split <;> split
    · rw [setCreg_mem]
    · rw [setCreg_mem, updQuad_mem, setCreg_mem]
    · rw [notifyFault_mem, setCreg_mem]
    · rw [notifyFault_mem, setCreg_mem, updQuad_mem, setCreg_mem]
@[simp] theorem parkReq_mem (r : Req) (level : Nat) : (s.parkReq r level).mem = s.mem := by simp [State.parkReq]
@[simp] theorem endGroup_mem (r : Req) (fails : List Req) (cause detail : Nat) :
    (s.endGroup r fails cause detail).mem = s.mem := by simp [State.endGroup]
@[simp] theorem refuseGroup_mem (r : Req) (detail : Nat) : (s.refuseGroup r detail).mem = s.mem := by simp [State.refuseGroup]
@[simp] theorem sendHome_mem (r : Req) (g cpol leaf : Nat) : (s.sendHome r g cpol leaf).mem = s.mem := by
  fun_cases State.sendHome
  · simp
  all_goals grind [setReq_mem, count_mem, takePath_mem, restHamper_mem]
@[simp] theorem cleanMem_mem (g n : Nat) : (s.cleanMem g n).mem = s.mem := by simp [State.cleanMem]
@[simp] theorem serviceRequest_mem (n : Nat) : (s.serviceRequest n).mem = s.mem := by simp [State.serviceRequest]
@[simp] theorem retireChannel_mem (key : Nat) : (s.retireChannel key).mem = s.mem := by simp [State.retireChannel]
@[simp] theorem retireLine_mem (g : Nat) : (s.retireLine g).mem = s.mem := by simp [State.retireLine]
@[simp] theorem l1Load_mem (r : Req) (g : Nat) : (s.l1Load r g).mem = s.mem := by
  unfold State.l1Load; split <;> simp
@[simp] theorem countDone_mem (r : Req) : (s.countDone r).mem = s.mem := by simp [State.countDone]
theorem waitsAt_mem (id : Nat) (controller : Bool) {t : State} (e : s.waitsAt id controller = some t) : t.mem = s.mem := by
  unfold State.waitsAt at e
  split at e
  · split at e
    · split at e
      · cases e
      · cases e; simp
    · cases e
  · cases e
@[simp] theorem markArrived_mem (r : Req) : (s.markArrived r).mem = s.mem := by simp [State.markArrived]
@[simp] theorem markChecked_mem (r : Req) : (s.markChecked r).mem = s.mem := by simp [State.markChecked]
@[simp] theorem dataErr_mem (r : Req) : (s.dataErr r).mem = s.mem := by
  unfold State.dataErr; split <;> simp
@[simp] theorem deliver_mem (r : Req) : (s.deliver r).mem = s.mem := by simp [State.deliver]
@[simp] theorem acknowledge_mem (r : Req) : (s.acknowledge r).mem = s.mem := by simp [State.acknowledge]
@[simp] theorem retireRow_mem (row : Row) : (s.retireRow row).mem = s.mem := by simp [State.retireRow]
@[simp] theorem retireHamper_mem (r : Req) (i : Nat) : (s.retireHamper r i).mem = s.mem := by
  unfold State.retireHamper; split <;> simp

/-! #### Mem -/

@[simp] theorem cleanStore_mem (core off n : Nat) : (s.cleanStore core off n).mem = s.mem := by simp [State.cleanStore]
@[simp] theorem cleanScratch_mem (k a n : Nat) : (s.cleanScratch k a n).mem = s.mem := by simp [State.cleanScratch]
@[simp] theorem scratchPut_mem (k a n v : Nat) : (s.scratchPut k a n v).mem = s.mem := by simp [State.scratchPut]
@[simp] theorem storeError_mem (core off : Nat) : (s.storeError core off).mem = s.mem := by simp [State.storeError]
@[simp] theorem scratchError_mem (k a : Nat) : (s.scratchError k a).mem = s.mem := by simp [State.scratchError]
@[simp] theorem scratchStore_mem (k : Nat) (who : Nat × Nat) (l b a n v : Nat) :
    (s.scratchStore k who l b a n v).mem = s.mem := by simp [State.scratchStore]
@[simp] theorem scratchLane_mem (k w : Nat) (i : Instr)
    (h : Bool) (b l a x y : Nat) : (s.scratchLane k w i h b l a x y).mem = s.mem := by
  unfold State.scratchLane; split
  · simp
  · simp
  · dsimp only; split <;> simp
@[simp] theorem scratchLanes_mem (k w : Nat) (i : Instr) (h : Bool) (b : Nat) (xs : List Slot) :
    (s.scratchLanes k w i h b xs).mem = s.mem := by simp [State.scratchLanes]
@[simp] theorem scratchSlot_mem (r : Req) : (s.scratchSlot r).mem = s.mem := by
  unfold State.scratchSlot
  dsimp only
  split <;> split <;> simp
@[simp] theorem afterSend_mem (i : Instr) (ls : List Nat) (group : Nat) : (s.afterSend i ls group).mem = s.mem := by
  simp [State.afterSend]
@[simp] theorem setFe_mem (k a : Nat) (full : Bool) : (s.setFe k a full).mem = s.mem := by simp [State.setFe]
@[simp] theorem takeWord_mem (r : Req) : (s.takeWord r).mem = s.mem := by simp [State.takeWord]
@[simp] theorem fillWord_mem (r : Req) : (s.fillWord r).mem = s.mem := by simp [State.fillWord]
@[simp] theorem serveWord_mem (k a : Nat) (x : Nat) : (s.serveWord k a x).mem = s.mem := by
  induction x generalizing s with
  | zero => rfl
  | succ n ih => unfold State.serveWord; split <;> split <;> simp [ih]
@[simp] theorem blockWord_mem (r : Req) : (s.blockWord r).mem = s.mem := by simp [State.blockWord]
@[simp] theorem stepWord_mem (r : Req) : (s.stepWord r).mem = s.mem := by simp [State.stepWord]
@[simp] theorem wordSlot_mem (group : Nat) : (s.wordSlot group).mem = s.mem := by simp [State.wordSlot]
@[simp] theorem wordSlots_mem (group : Nat) (x : Nat) : (s.wordSlots group x).mem = s.mem := by
  induction x generalizing s with
  | zero => rfl
  | succ n ih => simp [State.wordSlots, ih]
theorem nextScratchSlot_mem (id : Nat) {t : State} (e : s.nextScratchSlot id = some t) : t.mem = s.mem := by
  unfold State.nextScratchSlot at e
  split at e
  · split at e
    · cases e
      split <;> simp
    · cases e
  · cases e
@[simp] theorem fenceEnds_mem (core kind : Nat) : (s.fenceEnds core kind).mem = s.mem := by simp [State.fenceEnds]
@[simp] theorem fence_mem (f : Fields) (kind : Nat) : (s.fence f kind).mem = s.mem := by simp [State.fence]

/-! #### Matrix -/

@[simp] theorem accept_mem (k : Nat) (m : MatOp) : (s.accept k m).mem = s.mem := by simp [State.accept]
@[simp] theorem matIssue_mem (i : Instr) (l : Nat) : (s.matIssue i l).mem = s.mem := by
  fun_cases State.matIssue <;> simp +zetaDelta
@[simp] theorem mixRead_mem (mixed : Bool) (before : Option Word) (held : Word) :
    (s.mixRead mixed before held).2.mem = s.mem := by
  unfold State.mixRead; split <;> simp
@[simp] theorem mixWrite_mem (mixed : Bool) (k : Nat) (put : Workgroup → Workgroup) :
    (s.mixWrite mixed k put).mem = s.mem := by simp [State.mixWrite]
@[simp] theorem tileRead_mem (k t n : Nat) (side : Bool) : (s.tileRead k t n side).2.mem = s.mem := by
  fun_cases State.tileRead <;> simp +zetaDelta
@[simp] theorem tileWrite_mem (k t n : Nat) (v : Word) : (s.tileWrite k t n v).mem = s.mem := by
  fun_cases State.tileWrite <;> simp +zetaDelta
@[simp] theorem opWrote_mem (k : Nat) (m : MatOp) : (s.opWrote k m).mem = s.mem := by simp [State.opWrote]
@[simp] theorem opResult_mem (k : Nat) (m : MatOp) : (s.opResult k m).1.mem = s.mem := by
  fun_cases State.opResult <;> simp
theorem sampleOp_mem (id : Nat) {t : State} (e : s.sampleOp id = some t) : t.mem = s.mem := by
  unfold State.sampleOp at e
  dsimp only at e
  split at e
  · cases e; rfl
  · obtain ⟨k, -, rfl⟩ := Option.map_eq_some_iff.1 e
    rfl
@[simp] theorem raceSlot_mem (k slot : Nat) (was : Workgroup) : (s.raceSlot k slot was).mem = s.mem := by simp [State.raceSlot]
@[simp] theorem tileDone_mem (k : Nat) (m : MatOp) : (s.tileDone k m).mem = s.mem := by simp [State.tileDone]

/-! #### Sync -/

@[simp] theorem barWaitEffect_mem (f : Fields) (u1 : List Nat) : (barWaitEffect f u1 s).mem = s.mem := by simp [barWaitEffect]
@[simp] theorem updNet_mem (key : Nat) (f : NetBar → NetBar) : (s.updNet key f).mem = s.mem := by simp [State.updNet]
@[simp] theorem updStage_mem (k r i : Nat) (f : Stage → Stage) : (s.updStage k r i f).mem = s.mem := by simp [State.updStage]
@[simp] theorem ringWait_mem (give : Bool) (r d : Nat) (acts : List Nat) :
    (s.ringWait give r d acts).mem = s.mem := by simp [State.ringWait]
@[simp] theorem ringTry_mem (k w : Nat) (give : Bool) (r d : Nat) : (s.ringTry k w give r d).mem = s.mem := by
  simp [State.ringTry]
@[simp] theorem rgiveEffect_mem (f : Fields) (acts : List Nat) : (rgiveEffect f acts s).mem = s.mem := by simp [rgiveEffect]
@[simp] theorem rtakeEffect_mem (f : Fields) (acts : List Nat) : (rtakeEffect f acts s).mem = s.mem := by simp [rtakeEffect]
@[simp] theorem rfreeEffect_mem (f : Fields) (u1 : List Nat) : (rfreeEffect f u1 s).mem = s.mem := by simp [rfreeEffect]

/-! #### Copies -/

@[simp] theorem acceptCopy_mem (i : Instr) (ls : List Nat) (l0 : Nat) : (s.acceptCopy i ls l0).mem = s.mem := by
  unfold State.acceptCopy
  dsimp only
  rw [advance_mem, updCur_mem, updCore_mem]
@[simp] theorem setXfer_mem (x : Xfer) : (s.setXfer x).mem = s.mem := by simp [State.setXfer]
@[simp] theorem endXfer_mem (c : Copy) (x : Xfer) : (s.endXfer c x).mem = s.mem := by simp [State.endXfer]
@[simp] theorem payArrival_mem (c : Copy) : (s.payArrival c).mem = s.mem := by simp [State.payArrival]
@[simp] theorem parkXfer_mem (c : Copy) (x : Xfer) (va level : Nat) (acc : Access) :
    (s.parkXfer c x va level acc).mem = s.mem := by simp [State.parkXfer]
@[simp] theorem winError_mem (t addr : Nat) : (s.winError t addr).mem = s.mem := by
  fun_cases State.winError <;> simp
@[simp] theorem engineWord_mem (t kind off : Nat) : (s.engineWord t kind off).2.mem = s.mem := by
  unfold State.engineWord; split <;> simp
@[simp] theorem objGet_mem (t kind off x : Nat) : (s.objGet t kind off x).2.mem = s.mem := by
  induction x generalizing s off with
  | zero => rfl
  | succ n ih => simp [State.objGet, ih]
@[simp] theorem setEngineWord_mem (t kind off : Nat) (v : Word) : (s.setEngineWord t kind off v).mem = s.mem := by
  unfold State.setEngineWord; split <;> simp
@[simp] theorem objPut_mem (t kind off v : Nat) (x : Nat) : (s.objPut t kind off v x).mem = s.mem := by
  induction x generalizing s off v with
  | zero => rfl
  | succ n ih => simp [State.objPut, ih]
@[simp] theorem winGet_mem (core : Nat) (who : Nat × Nat) (t addr size : Nat) :
    (s.winGet core who t addr size).2.mem = s.mem := by
  fun_cases State.winGet <;> simp +zetaDelta
@[simp] theorem noteWrites_mem (c : Copy) (x : Xfer) (member : Nat) : (s.noteWrites c x member).mem = s.mem := by
  simp [State.noteWrites]
@[simp] theorem noteCopy_mem (was : State) (c : Copy) (place : Option Nat) (a n : Nat) :
    (s.noteCopy was c place a n).mem = s.mem := by simp [State.noteCopy]
@[simp] theorem copyPut_mem (c : Copy) (t : Nat) (bars : List (Nat × Nat)) (a n v : Nat) :
    (s.copyPut c t bars a n v).mem = s.mem := by simp [State.copyPut]
@[simp] theorem slotPut_mem (k slot : Nat) (zeroed : Bool) (at_ : Nat) (bs : List Byte) :
    (s.slotPut k slot zeroed at_ bs).mem = s.mem := by simp [State.slotPut]
@[simp] theorem waitpEffect_mem (f : Fields) (acts : List Nat) : (waitpEffect f acts s).mem = s.mem := by simp [waitpEffect]

/-! #### Queues -/

@[simp] theorem takeMessage_mem (k w q d : Nat) (ls : List Nat) : (s.takeMessage k w q d ls).mem = s.mem := by
  unfold State.takeMessage; split <;> simp
@[simp] theorem wakeAll_mem (t : Nat) : (s.wakeAll t).mem = s.mem := by simp [State.wakeAll]
@[simp] theorem collDone_mem (k w d v : Nat) (ls : List Nat) : (s.collDone k w d v ls).mem = s.mem := by simp [State.collDone]
@[simp] theorem parkOcc_mem (key core va level : Nat) (wr : Bool) : (s.parkOcc key core va level wr).mem = s.mem := by
  simp [State.parkOcc]
@[simp] theorem collComplete_mem (key n status fl : Nat) : (s.collComplete key n status fl).mem = s.mem := by
  simp [State.collComplete]
@[simp] theorem loseOcc_mem (key : Nat) : (s.loseOcc key).mem = s.mem := by simp [State.loseOcc]
theorem remotePart_mem (key rank : Nat) (part : Option CollPart) {t : State} (e : s.remotePart key rank part = some t) :
    t.mem = s.mem := by
  unfold State.remotePart at e
  dsimp only at e
  split at e
  · cases e
  · split at e
    · split at e
      · cases e
      · cases e; rfl
    · cases e; rfl

/-! #### Privileged -/

@[simp] theorem agentWrite_mem (agent off : Nat) (k : State → State) (hk : (k s).mem = s.mem) :
    (s.agentWrite agent off k).mem = s.mem := by
  unfold State.agentWrite; split
  · exact hk
  · simp
@[simp] theorem clearFaults_mem (q : Nat) : (s.clearFaults q).mem = s.mem := by simp [State.clearFaults]
@[simp] theorem unpark_mem (p : Parked) : (unpark s p).mem = s.mem := by
  unfold unpark; split <;> simp
@[simp] theorem clearEntries_mem (q : Nat) (page : Nat → Bool) : (s.clearEntries q page).mem = s.mem := by
  simp [State.clearEntries]
@[simp] theorem mapTlbs_mem (part : Nat) (g : TlbEntry → Option TlbEntry) : (s.mapTlbs part g).mem = s.mem := by
  simp [State.mapTlbs]
@[simp] theorem discardRange_mem (part first n : Nat) : (s.discardRange part first n).mem = s.mem := by simp [State.discardRange]

/-! #### Solve -/

@[simp] theorem restartAll_mem (k : Nat) (at_ : Option DWord) : (s.restartAll k at_).mem = s.mem := by simp [State.restartAll]
@[simp] theorem solveEffect_mem (u0 : List Nat) : (solveEffect u0 s).mem = s.mem := by simp [solveEffect]
@[simp] theorem svendEffect_mem (u0 : List Nat) : (svendEffect u0 s).mem = s.mem := by simp [svendEffect]
@[simp] theorem mixStep_mem (k : Nat) (g : Workgroup) (slots : List Nat) (next : Option DWord) :
    (s.mixStep k g slots next).mem = s.mem := by simp [State.mixStep]
@[simp] theorem mixDone_mem (k : Nat) (m : Mixing) : (s.mixDone k m).mem = s.mem := by simp [State.mixDone]
@[simp] theorem abortRegion_mem (k : Nat) : (s.abortRegion k).mem = s.mem := by simp [State.abortRegion]

/-! #### Window -/

@[simp] theorem winArrived_mem (r : Req) : (s.winArrived r).mem = s.mem := by simp [State.winArrived]

/-! #### Issue -/

@[simp] theorem focus_mem (k w : Nat) (ls : List Nat) : (s.focus k w ls).mem = s.mem := by simp [State.focus]
@[simp] theorem settlePlain_mem (k w : Nat) : (s.settlePlain k w).mem = s.mem := by
  unfold State.settlePlain
  dsimp only
  rw [finishLanes_mem]
  refine foldl_mem _ _ _ fun s l => ?_
  split <;> simp
@[simp] theorem settleOther_mem (k w l : Nat) : (s.settleOther k w l).mem = s.mem := by
  fun_cases State.settleOther <;> simp
@[simp] theorem settleHeld_mem (k w l : Nat) : (s.settleHeld k w l).mem = s.mem := by
  fun_cases State.settleHeld <;> simp
@[simp] theorem holdGroups_mem (k w : Nat) : (s.holdGroups k w).mem = s.mem := by
  refine foldl_mem _ _ _ fun s g => ?_
  split
  · rfl
  · split <;> simp
@[simp] theorem letGo_mem (k w : Nat) : (s.letGo k w).mem = s.mem := by simp [State.letGo]
theorem vote_mem (k w : Nat) {ls : List Nat} {t : State} (e : s.vote k w = some (ls, t)) : t.mem = s.mem := by
  unfold State.vote at e
  dsimp only at e
  split at e
  · cases e; simp
  · split at e
    · cases e
    · cases e; simp
@[simp] theorem issueSyncs_mem (i : Instr) : (s.issueSyncs i).mem = s.mem := by
  fun_cases State.issueSyncs <;> simp

/-! #### Launch -/

@[simp] theorem enterActive_mem (x : Nat × Nat) : (s.enterActive x).mem = s.mem := by simp [State.enterActive]
@[simp] theorem leaveActive_mem (x : Nat × Nat) : (s.leaveActive x).mem = s.mem := by simp [State.leaveActive]
@[simp] theorem joinActive_mem (k : Nat) : (s.joinActive k).mem = s.mem := by simp [State.joinActive]
@[simp] theorem occupy_mem (k core : Nat) (g : Workgroup) : (s.occupy k core g).mem = s.mem := by simp [State.occupy]
@[simp] theorem startWg_mem (l wgid core : Nat) : (s.startWg l wgid core).mem = s.mem := by simp [State.startWg]
theorem placeOn_mem (q l : Nat) (x : List Nat) {t : State} (e : s.placeOn q l x = some t) : t.mem = s.mem := by
  induction x generalizing s with
  | nil => cases e; rfl
  | cons wgid ms ih =>
    unfold State.placeOn at e
    split at e
    · simpa using ih _ e
    · cases e
theorem quadAdmits_mem (q l : Nat) (ms : List Nat) {t : State} (e : s.quadAdmits q l ms = some t) : t.mem = s.mem := by
  unfold State.quadAdmits at e
  split at e
  · exact placeOn_mem s q l ms e
  · cases e
theorem placeGroup_mem (l : Nat) (ms : List Nat) (x : List Nat) {t : State} (e : s.placeGroup l ms x = some t) :
    t.mem = s.mem := by
  induction x with
  | nil => cases e
  | cons q qs ih =>
    unfold State.placeGroup at e
    split at e
    · next placed => cases e; exact quadAdmits_mem s q l ms placed
    · exact ih e
@[simp] theorem bindDie_mem (l : Nat) : (s.bindDie l).mem = s.mem := by simp [State.bindDie]
theorem dispatchOne_mem (l : Nat) {t : State} (e : s.dispatchOne l = some t) : t.mem = s.mem := by
  unfold State.dispatchOne at e
  dsimp only at e
  split at e
  · cases e
  · obtain ⟨u, placed, rfl⟩ := Option.map_eq_some_iff.1 e
    simpa using placeGroup_mem _ _ _ _ placed
theorem dispatchAll_mem (l : Nat) (dies : SMap (Option Nat)) (x : Nat)
    {t : State} (e : (s.dispatchAll l dies x).1 = some t) : t.mem = s.mem := by
  induction x generalizing s dies with
  | zero => simp only [State.dispatchAll, Option.some.injEq] at e; rw [← e]
  | succ n ih =>
    unfold State.dispatchAll at e
    split at e
    · cases e; rfl
    · dsimp only at e
      split at e
      · next placed => exact (ih _ _ e).trans (dispatchOne_mem s l placed)
      · cases e
@[simp] theorem tryDispatch_mem (l : Nat) : (s.tryDispatch l).mem = s.mem := by
  unfold State.tryDispatch
  dsimp only
  split
  · split
    · next e => simpa using dispatchAll_mem _ _ _ _ (congrArg Prod.fst e)
    · rfl
  · cases e : s.dispatchOne l with
    | none => simp
    | some t => simpa using dispatchOne_mem _ _ e
@[simp] theorem emptied_mem (x : Launch) : (s.emptied x).mem = s.mem := by simp [State.emptied]
theorem fill_mem (q l n : Nat) (cap : Bool) {t : State} (e : s.fill q l n cap = some t) : t.mem = s.mem := by
  unfold State.fill at e
  dsimp only at e
  split at e
  · obtain ⟨u, placed, rfl⟩ := Option.map_eq_some_iff.1 e
    simpa using placeOn_mem _ _ _ _ placed
  · cases e
@[simp] theorem auditPacket_mem (slot v : Nat) : (s.auditPacket slot v).mem = s.mem := by simp [State.auditPacket]
@[simp] theorem vacate_mem (k : Nat) (st : WgStatus) : (s.vacate k st).mem = s.mem := by simp [State.vacate]
theorem exchange_mem (core part : Nat) (x : Nat × Nat) (out : List (Nat × Nat))
    {t : State} (e : s.exchange core part x out = some t) : t.mem = s.mem := by
  unfold State.exchange at e
  dsimp only at e
  split at e
  · cases e; simp
  · cases e
@[simp] theorem slackControl_mem (waited cycles : Nat) (pace : Option Nat) (capBound : Bool) :
    (s.slackControl waited cycles pace capBound).mem = s.mem := by
  unfold State.slackControl
  dsimp only
  rw [setCreg_mem]
@[simp] theorem refill_mem (core part : Nat) (x : Nat) : (s.refill core part x).mem = s.mem := by
  induction x generalizing s with
  | zero => rfl
  | succ n ih =>
    unfold State.refill
    split
    · rfl
    · split
      · simp [ih]
      · rfl
@[simp] theorem parkFor_mem (q n : Nat) : (s.parkFor q n).mem = s.mem := by simp [State.parkFor]

/-! #### Save -/

@[simp] theorem uncount_mem (core ctx page : Nat) : (s.uncount core ctx page).mem = s.mem := by
  fun_cases State.uncount <;> simp
@[simp] theorem recallBad_mem (r : Req) : (s.recallBad r).mem = s.mem := by simp [State.recallBad]
@[simp] theorem recallReq_mem (r : Req) : (s.recallReq r).mem = s.mem := by simp [State.recallReq]
@[simp] theorem recallXfer_mem (c : Copy) (x : Xfer) : (s.recallXfer c x).mem = s.mem := by simp [State.recallXfer]
@[simp] theorem carryOut_mem (q ctx : Nat) (p : Preempt) : (s.carryOut q ctx p).mem = s.mem := by simp [State.carryOut]
@[simp] theorem scrubTlbs_mem (ctx : Nat) : (s.scrubTlbs ctx).mem = s.mem := by simp [State.scrubTlbs]
@[simp] theorem scrubLlc_mem (part : Nat) : (s.scrubLlc part).mem = s.mem := by simp [State.scrubLlc]
@[simp] theorem scrub_mem (ctx : Nat) : (s.scrub ctx).mem = s.mem := by simp [State.scrub]

/-! #### Restore -/

@[simp] theorem reissueAll_mem (recs : List (Req ⊕ Xfer)) (at_ : List Nat) (core : Nat) :
    (s.reissueAll recs at_ core).mem = s.mem := by simp [State.reissueAll]
@[simp] theorem restoreOn_mem (k a core : Nat) : (s.restoreOn k a core).mem = s.mem := by simp [State.restoreOn]
theorem restoreAll_mem (q : Nat) (core : Option Nat) (x : List (Nat × Nat))
    {t : State} (e : s.restoreAll q core x = .ok t) : t.mem = s.mem := by
  induction x generalizing s core with
  | nil => cases e; rfl
  | cons y l ih =>
    unfold State.restoreAll at e
    dsimp only at e
    split at e
    · simpa using ih _ _ e
    · cases e
theorem tryRestore_mem (q core n at_ : Nat) {t : State} (e : s.tryRestore q core n at_ = .ok t) : t.mem = s.mem := by
  unfold State.tryRestore at e
  split at e
  · cases e
  · split at e
    · cases e
    · exact restoreAll_mem _ _ _ _ e

/-! #### Thermal -/

@[simp] theorem sampleOne_mem (i t : Nat) : (s.sampleOne i t).mem = s.mem := by
  unfold State.sampleOne
  split
  · rfl
  · dsimp only
    rw [setCreg_mem]
@[simp] theorem setBand_mem (b : Nat) : (s.setBand b).mem = s.mem := by simp [State.setBand]
@[simp] theorem countExcursions_mem : (s.countExcursions).mem = s.mem := by simp [State.countExcursions]
@[simp] theorem enterState_mem (n : Nat) : (s.enterState n).mem = s.mem := by
  fun_cases State.enterState <;> simp +zetaDelta
@[simp] theorem noteSince_mem : (s.noteSince).mem = s.mem := by simp [State.noteSince]
@[simp] theorem noteTrip_mem : (s.noteTrip).mem = s.mem := by simp [State.noteTrip]
@[simp] theorem noteSlew_mem : (s.noteSlew).mem = s.mem := by simp [State.noteSlew]
@[simp] theorem cdctl_mem (agent op : Nat) : (s.cdctl agent op).mem = s.mem := by
  simp only [State.cdctl]
  apply agentWrite_mem
  split
  · rfl
  · split
    · simp
    · split <;> simp

/-! #### Trust -/

@[simp] theorem auditByte_mem (i : Nat) (b : Byte) : (s.auditByte i b).mem = s.mem := by simp [State.auditByte]
@[simp] theorem afterReset_mem : (s.afterReset).mem = s.mem := by simp [State.afterReset]
@[simp] theorem mapDies_mem (ok : BitVec 9) : (s.mapDies ok).mem = s.mem := by simp [State.mapDies]
@[simp] theorem isolate_mem (ok : BitVec 9) : (s.isolate ok).mem = s.mem := by simp [State.isolate]
@[simp] theorem countSoft_mem (n : Nat) : (s.countSoft n).mem = s.mem := by simp [State.countSoft]
@[simp] theorem scrubStores_mem (ctx : Nat) : (s.scrubStores ctx).mem = s.mem := by simp [State.scrubStores]
@[simp] theorem spareCore_mem (core : Nat) : (s.spareCore core).mem = s.mem := by simp [State.spareCore]

/-! #### Fabric -/

@[simp] theorem setChipWord_mem (off v : Nat) : (s.setChipWord off v).mem = s.mem := by
  fun_cases State.setChipWord <;> simp
@[simp] theorem auditWord_mem (off : Nat) (v : Word) : (s.auditWord off v).mem = s.mem := by simp [State.auditWord]
@[simp] theorem writeSlot_mem (slot off : Nat) (v : Word) : (s.writeSlot slot off v).mem = s.mem := by simp [State.writeSlot]
@[simp] theorem writeSlk_mem (v : Word) : (s.writeSlk v).mem = s.mem := by simp [State.writeSlk]
@[simp] theorem devRead_mem (pa size : Nat) : (s.devRead pa size).2.mem = s.mem := by
  fun_cases State.devRead <;> simp
@[simp] theorem hostAtomic_mem : (s.hostAtomic).mem = s.mem := by simp [State.hostAtomic]
@[simp] theorem lostWaiters_mem (r : Req) : (s.lostWaiters r).mem = s.mem := by simp [State.lostWaiters]
@[simp] theorem noteLost_mem (r : Req) : (s.noteLost r).mem = s.mem := by simp [State.noteLost]
@[simp] theorem recountGroup_mem (ctx n : Nat) : (s.recountGroup ctx n).mem = s.mem := by simp [State.recountGroup]

/-! #### Special -/

@[simp] theorem special_mem (f : Fields) (fn : Fn) : (s.special f fn).mem = s.mem := by simp [State.special]

/-! #### Cycle -/

@[simp] theorem parkFetch_mem (level : Nat) : (s.parkFetch level).mem = s.mem := by simp [State.parkFetch]
theorem slotDue_mem {t : State} (e : s.slotDue = some t) : t.mem = s.mem := by
  unfold State.slotDue at e
  split at e
  · exact nextScratchSlot_mem s _ e
  · cases e
@[simp] theorem takeTicks_mem : (s.takeTicks).2.mem = s.mem := by
  unfold State.takeTicks; split <;> simp
@[simp] theorem passPtime_mem (n : Nat) : (s.passPtime n).mem = s.mem := by simp [State.passPtime]
@[simp] theorem noteSlack_mem (n : Nat) : (s.noteSlack n).mem = s.mem := by simp [State.noteSlack]
@[simp] theorem noteAudit_mem : (s.noteAudit).mem = s.mem := by simp [State.noteAudit]

end

/-! ### Functions that keep memory in canonical form -/

@[simp] theorem ite_wf (c : Prop) [Decidable c] (m n : Memory) : (if c then m else n).wf = if c then m.wf else n.wf :=
  apply_ite ..
@[simp] theorem ite_snd {α : Type} (c : Prop) [Decidable c] (a b : α × State) :
    (if c then a else b).2 = if c then a.2 else b.2 :=
  apply_ite ..
@[simp] theorem ite_fst {α : Type} (c : Prop) [Decidable c] (a b : State × α) :
    (if c then a else b).1 = if c then a.1 else b.1 :=
  apply_ite ..

/-- Every step of a fold keeps memory in canonical form. -/
def KeepsWf {α : Type} (g : State → α → State) : Prop := ∀ s, s.mem.wf = true → ∀ a, (g s a).mem.wf = true

@[simp] theorem keepsWf_iff {α : Type} (g : State → α → State) :
    KeepsWf g ↔ ∀ s, s.mem.wf = true → ∀ a, (g s a).mem.wf = true := Iff.rfl

/-- If the outcome is a next state, its memory is in canonical form. -/
def NextWf (o : Host.Outcome State Fault Refusal) : Prop := ∀ t, o = .next t → t.mem.wf = true

@[simp] theorem nextWf_next (t : State) : NextWf (.next t) ↔ t.mem.wf = true := by simp [NextWf]
@[simp] theorem nextWf_refused (r : Refusal) : NextWf (.refused r) := nofun
@[simp] theorem nextWf_ite (c : Prop) [Decidable c] (o p : Host.Outcome State Fault Refusal) :
    NextWf (if c then o else p) ↔ if c then NextWf o else NextWf p := by split <;> rfl

/-- If there is a state, its memory is in canonical form. -/
def SomeWf (o : Option State) : Prop := ∀ t, o = some t → t.mem.wf = true

@[simp] theorem someWf_some (t : State) : SomeWf (some t) ↔ t.mem.wf = true := by simp [SomeWf]
@[simp] theorem someWf_none : SomeWf none := nofun
@[simp] theorem someWf_ite (c : Prop) [Decidable c] (o p : Option State) :
    SomeWf (if c then o else p) ↔ if c then SomeWf o else SomeWf p := by split <;> rfl

section
variable {s : State}

@[simp] theorem foldl_wf {α : Type} {g : State → α → State} {l : List α} (hg : KeepsWf g) (h : s.mem.wf = true) :
    (l.foldl g s).mem.wf = true := by
  induction l generalizing s with
  | nil => exact h
  | cons a l ih => exact ih (hg s h a)
@[simp] theorem event_wf {n : String} {c : Bool} {t : State} (h : t.mem.wf = true) : NextWf (event n c t) := by
  unfold event; split <;> simp [h]
@[simp] theorem nextOr_wf {o : Host.Outcome State Fault Refusal} (h : s.mem.wf = true) (ho : NextWf o) :
    (nextOr s o).mem.wf = true := by
  unfold nextOr; split
  · exact ho _ rfl
  · exact h
@[simp] theorem orRefused_wf {n : String} {o : Option State} (h : ∀ t, o = some t → t.mem.wf = true) :
    NextWf (orRefused n o) := by
  cases o with
  | none => simp [orRefused]
  | some t => simp [orRefused, h t]
@[simp] theorem agentWrite_wf (agent off : Nat) {k : State → State} (h : s.mem.wf = true) (hk : (k s).mem.wf = true) :
    (s.agentWrite agent off k).mem.wf = true := by
  unfold State.agentWrite; split <;> simp [h, hk]

/-- The state that a transfer's attempt leaves, where it leaves one, has its memory in canonical form. -/
@[simp] def XferOut.memWf : XferOut → Prop
  | .wait => True
  | .park s .. | .refuse s .. | .go s _ => s.mem.wf = true

/-- The state that an attempt to issue leaves. -/
def Attempt.state : Attempt → State
  | .idle s | .trap s _ | .parks s _ | .fails s .. | .run s _ => s

/-! #### Translate -/

@[simp] theorem putBytes_wf (g n v : Nat) (h : s.mem.wf = true) : (s.putBytes g n v).mem.wf = true := Memory.wf_write _ _ _ _ h
@[simp] theorem memWrite_wf (g n v : Nat) (h : s.mem.wf = true) : (s.memWrite g n v).mem.wf = true := by simp [State.memWrite, h]
@[simp] theorem markEntry_wf (at_ : Nat) (setD : Bool) (h : s.mem.wf = true) : (s.markEntry at_ setD).mem.wf = true := by
  simp [State.markEntry, h]
@[simp] theorem fillTlb_wf (core ctx va e level at_ : Nat) (setD : Bool) (member : Option (Nat × Nat))
    (h : s.mem.wf = true) : (s.fillTlb core ctx va e level at_ setD member).mem.wf = true := by
  simp [State.fillTlb, h]
@[simp] theorem translate_wf (core ctx va : Nat) (acc : Access) (atomic : Bool)
    (h : s.mem.wf = true) : (s.translate core ctx va acc atomic).1.mem.wf = true := by
  unfold State.translate
  split
  · exact h
  · exact h
  · next e level at_ _ =>
    have hm : (if (s.tlbHit core ctx va acc).isSome then ((none : Option (Nat × Nat)), s)
        else s.takeMember e level at_).2.mem.wf = true := by
      simp [h]
    dsimp only
    split
    · exact hm
    · split
      · split
        · exact markEntry_wf _ _ hm
        · exact hm
      · exact fillTlb_wf _ _ _ _ _ _ _ _ hm
@[simp] theorem translateHop_wf (core ctx va : Nat) (acc : Access)
    (h : s.mem.wf = true) : (s.translateHop core ctx va acc).1.mem.wf = true := by
  simp [State.translateHop, h]

/-! #### Ops -/

@[simp] theorem memWriteBytes_wf (g : Nat) (x : List Byte) (h : s.mem.wf = true) : (s.memWriteBytes g x).mem.wf = true := by
  induction x generalizing s g with
  | nil => exact h
  | cons b l ih => exact ih _ (memWrite_wf _ _ _ h)
@[simp] theorem logEvent_wf (part type ctx vq wgid : Nat) (data : List Byte)
    (h : s.mem.wf = true) : (s.logEvent part type ctx vq wgid data).mem.wf = true := by
  simp [State.logEvent, h]
@[simp] theorem faultRecord_wf (k w : Nat) (why : Nat) (h : s.mem.wf = true) : (s.faultRecord k w why).mem.wf = true := by
  unfold State.faultRecord
  dsimp only
  rw [signal_mem]
  apply logEvent_wf
  split <;> simp [h]
@[simp] theorem trapStat_wf (ctx cause : Nat) (h : s.mem.wf = true) : (s.trapStat ctx cause).mem.wf = true := by
  simp [State.trapStat, h]
@[simp] theorem takeTrap_wf (k w : Nat) (t : Trap) (h : s.mem.wf = true) : (s.takeTrap k w t).mem.wf = true := by
  simp [State.takeTrap, h]
@[simp] theorem returnTrap_wf (k w : Nat) (h : s.mem.wf = true) : (s.returnTrap k w).mem.wf = true := by
  simp [State.returnTrap, h]
@[simp] theorem watchdogEnd_wf (h : s.mem.wf = true) : (s.watchdogEnd).mem.wf = true := by simp [State.watchdogEnd, h]
@[simp] theorem issueHeld_wf (i : Instr) (held : Bool) (k : State → State)
    (h : s.mem.wf = true) (hk : ∀ t, t.mem.wf = true → (k t).mem.wf = true) : NextWf (issueHeld i held s k) := by
  unfold issueHeld
  split
  · split
    · simp [h]
    · split
      · simp [h]
      · split
        · simp [h]
        · simp [hk, h]
  · simp
@[simp] theorem issue_wf (i : Instr) (k : State → State)
    (h : s.mem.wf = true) (hk : ∀ t, t.mem.wf = true → (k t).mem.wf = true) : NextWf (issue i s k) :=
  issueHeld_wf _ _ _ h hk
@[simp] theorem trapHere_wf (t : Trap) (h : s.mem.wf = true) : (s.trapHere t).mem.wf = true := by simp [State.trapHere, h]

/-! #### Control -/

@[simp] theorem execSleepExpiry_wf (wg warp lane : Nat) (h : s.mem.wf = true) : NextWf (execSleepExpiry wg warp lane s) := by
  unfold execSleepExpiry; split <;> simp [h]
theorem waitcEnds_wf (k w : Nat) (ls : List Nat) (pc : DWord) (limits : Word)
    (h : s.mem.wf = true) {t : State} (e : s.waitcEnds k w ls pc limits = some t) : t.mem.wf = true := by
  unfold State.waitcEnds at e
  split at e
  · cases e; exact takeTrap_wf _ _ _ h
  · cases e
@[simp] theorem softTrap_wf (f : Fields) (cause : Nat) (va : BitVec 80)
    (h : s.mem.wf = true) : (s.softTrap f cause va).mem.wf = true := by
  simp [State.softTrap, h]
@[simp] theorem eretEffect_wf (u0 : List Nat) (h : s.mem.wf = true) : (eretEffect u0 s).mem.wf = true := by simp [eretEffect, h]

/-! #### Requests -/

@[simp] theorem translateReq_wf (r : Req) (h : s.mem.wf = true) : (s.translateReq r).mem.wf = true := by
  unfold State.translateReq
  dsimp only
  split
  · simp [h]
  · have ht : (if r.hop2 then s.translateHop r.core (s.ctxNo r.wg) r.va r.access
        else s.translate r.core (s.ctxNo r.wg) r.va r.access (!r.fetch && r.mi.atomic)).1.mem.wf = true := by simp [h]
    split
    · rw [parkReq_mem, ht]
    · rw [refuseGroup_mem, auditTr_mem, ht]
    · split
      · rw [endFetch_mem, ht]
      · rw [sendHome_mem, ht]
@[simp] theorem putMem_wf (core : Nat) (who : Nat × Nat) (access : Option (Nat × Nat × Nat)) (cached : Bool)
    (bars : List (Nat × Nat)) (stored : Bool) (g n v : Nat) (h : s.mem.wf = true) :
    (s.putMem core who access cached bars stored g n v).mem.wf = true := by
  unfold State.putMem; split <;> simp [h]
@[simp] theorem putFor_wf (r : Req) (lane g n v : Nat) (h : s.mem.wf = true) : (s.putFor r lane g n v).mem.wf = true := by
  simp [State.putFor, h]
@[simp] theorem performPiece_wf (r : Req) (x : Slot) (off n : Nat)
    (h : s.mem.wf = true) : (s.performPiece r x off n).1.mem.wf = true := by
  unfold State.performPiece
  dsimp only
  split
  · simp [h]
  case h_2 | h_3 | h_4 =>
    split
    · simp [h]
    · split <;> simp [h]
  · split <;> simp [h]
@[simp] theorem performAt_wf (r : Req) (lane i : Nat) (h : s.mem.wf = true) : (s.performAt r lane i).1.mem.wf = true := by
  unfold State.performAt; split <;> simp [h]
@[simp] theorem performLanes_wf (r : Req) (x : List (Nat × Nat))
    (h : s.mem.wf = true) : (s.performLanes r x).1.mem.wf = true := by
  induction x generalizing s r with
  | nil => exact h
  | cons y l ih => exact ih _ (performAt_wf _ _ _ h)
@[simp] theorem performSome_wf (r : Req) (h : s.mem.wf = true) : (s.performSome r).1.mem.wf = true := by
  have hc : (if r.pending.length ≤ 1 then (0, s) else s.takeChoice).2.mem.wf = true := by simp [h]
  unfold State.performSome
  generalize (if r.pending.length ≤ 1 then (0, s) else s.takeChoice) = c at hc
  dsimp only
  split
  · exact performLanes_wf _ _ hc
  · exact performAt_wf _ _ _ hc
@[simp] theorem performReq_wf (r : Req) (h : s.mem.wf = true) : (s.performReq r).mem.wf = true := by
  unfold State.performReq; split <;> simp [h]
@[simp] theorem hopOn_wf (r : Req) (h : s.mem.wf = true) : (s.hopOn r).mem.wf = true := by
  have h1 := performSome_wf r h
  unfold State.hopOn
  generalize s.performSome r = y at h1 ⊢
  refine foldl_wf (fun t ht p => ?_) (by simpa using h1)
  dsimp only
  split
  · split
    · exact ht
    · split <;> simp [ht]
  · exact ht
@[simp] theorem performSync_wf (r : Req) (h : s.mem.wf = true) : (s.performSync r).mem.wf = true := by simp [State.performSync, h]
@[simp] theorem access1_wf (r : Req) (h : s.mem.wf = true) : (s.access1 r).mem.wf = true := by simp [State.access1, h]
@[simp] theorem homeStep_wf (r : Req) (h : s.mem.wf = true) : (s.homeStep r).mem.wf = true := by
  unfold State.homeStep; split <;> simp [h]
@[simp] theorem execTranslatedAccess_wf (id : Nat) (h : s.mem.wf = true) : NextWf (execTranslatedAccess id s) := by
  unfold execTranslatedAccess; split <;> simp [h]
@[simp] theorem execMissQueueToPool_wf (id : Nat) (h : s.mem.wf = true) : NextWf (execMissQueueToPool id s) := by
  fun_cases execMissQueueToPool <;> simp [h]
@[simp] theorem execHomeSliceRequest_wf (id : Nat) (h : s.mem.wf = true) : NextWf (execHomeSliceRequest id s) := by
  unfold execHomeSliceRequest; split <;> simp [h]
@[simp] theorem execRemoteStorePerformed_wf (id : Nat) (h : s.mem.wf = true) : NextWf (execRemoteStorePerformed id s) := by
  unfold execRemoteStorePerformed; split <;> simp [h]
@[simp] theorem execOrderedFlagArrival_wf (id : Nat) (h : s.mem.wf = true) : NextWf (execOrderedFlagArrival id s) := by
  fun_cases execOrderedFlagArrival <;> simp [h]
@[simp] theorem execOrderedFlagPerform_wf (id : Nat) (h : s.mem.wf = true) : NextWf (execOrderedFlagPerform id s) := by
  unfold execOrderedFlagPerform; split <;> simp [h]
@[simp] theorem execLoadReply_wf (id : Nat) (h : s.mem.wf = true) : NextWf (execLoadReply id s) := by
  unfold execLoadReply; split <;> simp [h]
@[simp] theorem execStoreAck_wf (id : Nat) (h : s.mem.wf = true) : NextWf (execStoreAck id s) := by
  unfold execStoreAck; split <;> simp [h]
@[simp] theorem execHamperEccError_wf (id : Nat) (h : s.mem.wf = true) : NextWf (execHamperEccError id s) := by
  unfold execHamperEccError; split <;> simp [h]

/-! #### Mem -/

@[simp] theorem scratchAccess_wf (i : Instr) (ls : List Nat) (h : s.mem.wf = true) : (s.scratchAccess i ls).mem.wf = true := by
  fun_cases State.scratchAccess <;> simp +zetaDelta [h]
@[simp] theorem cacheOnly_wf (i : Instr) (ls : List Nat) (h : s.mem.wf = true) : (s.cacheOnly i ls).mem.wf = true := by
  unfold State.cacheOnly
  dsimp only
  split
  · exact h
  · refine foldl_wf (fun t ht l => ?_) h
    split
    · split <;> simp [ht]
    · exact ht
@[simp] theorem withChecks_wf (i : Instr) (k : List Nat → List (Nat × Nat) → State → State)
    (h : s.mem.wf = true) (hk : ∀ ls ps t, t.mem.wf = true → (k ls ps t).mem.wf = true) : (s.withChecks i k).mem.wf = true := by
  unfold State.withChecks
  dsimp only
  split
  · simp [h]
  · split
    · simp [h]
    · exact hk _ _ _ (by simp [h])
@[simp] theorem access_wf (i : Instr) (h : s.mem.wf = true) : (s.access i).mem.wf = true := by
  refine withChecks_wf _ _ h fun ls ps t ht => ?_
  dsimp only
  split <;> simp [ht]
@[simp] theorem accessWords_wf (i : Instr) (h : s.mem.wf = true) : (s.accessWords i).mem.wf = true := by
  refine withChecks_wf _ _ h fun ls ps t ht => ?_
  simp [ht]
@[simp] theorem execWaiterOverflowStep_wf (id : Nat) (h : s.mem.wf = true) : NextWf (execWaiterOverflowStep id s) := by
  unfold execWaiterOverflowStep; split <;> simp [h]
@[simp] theorem eachLine_wf (f : Fields) (op : Nat → Nat → State → State)
    (h : s.mem.wf = true) (hop : ∀ g cpol t, t.mem.wf = true → (op g cpol t).mem.wf = true) :
    (s.eachLine f op).mem.wf = true := by
  unfold State.eachLine
  dsimp only
  rw [advance_mem]
  refine List.foldlRecOn (motive := fun a : State × List Nat => a.1.mem.wf = true) _ _ h fun a ha l _ => ?_
  split
  · split
    · simp [ha]
    · exact hop _ _ _ (by simp [ha])
  · simp [ha]

/-! #### Matrix -/

@[simp] theorem matrix_wf (i : Instr) (h : s.mem.wf = true) : (s.matrix i).mem.wf = true := by
  fun_cases State.matrix <;> simp [h]
@[simp] theorem execMatrixOperationComplete_wf (id : Nat) (h : s.mem.wf = true) : NextWf (execMatrixOperationComplete id s) := by
  unfold execMatrixOperationComplete
  dsimp only
  split
  · split
    · simp
    · rw [nextWf_next]
      dsimp only
      split <;> split <;> simp [h]
  · simp

/-! #### Sync -/

@[simp] theorem updBar_wf (k b : Nat) (f : Barrier → Barrier) (h : s.mem.wf = true) : (s.updBar k b f).mem.wf = true := by
  simp [State.updBar, h]
@[simp] theorem advanceBar_wf (k b : Nat) (h : s.mem.wf = true) : (s.advanceBar k b).mem.wf = true := by
  simp [State.advanceBar, h]
@[simp] theorem evalBars_wf (h : s.mem.wf = true) : (s.evalBars).mem.wf = true := by simp +contextual [State.evalBars, h]
@[simp] theorem execBarrierPhaseAdvance_wf (wg b : Nat) (h : s.mem.wf = true) : NextWf (execBarrierPhaseAdvance wg b s) := by
  simp [execBarrierPhaseAdvance, h]
@[simp] theorem barArrEffect_wf (f : Fields) (u1 : List Nat) (h : s.mem.wf = true) : (barArrEffect f u1 s).mem.wf = true := by
  simp [barArrEffect, h]
@[simp] theorem barSyncEffect_wf (f : Fields) (u1 : List Nat) (h : s.mem.wf = true) : (barSyncEffect f u1 s).mem.wf = true := by
  simp [barSyncEffect, h]
@[simp] theorem barExpEffect_wf (f : Fields) (acts : List Nat) (h : s.mem.wf = true) : (barExpEffect f acts s).mem.wf = true := by
  unfold barExpEffect; split <;> simp [h]
@[simp] theorem barInitEffect_wf (f : Fields) (acts : List Nat)
    (h : s.mem.wf = true) : (barInitEffect f acts s).mem.wf = true := by
  unfold barInitEffect; split <;> simp [h]
@[simp] theorem barRdEffect_wf (f : Fields) (clear : Bool) (acts : List Nat)
    (h : s.mem.wf = true) : (barRdEffect f clear acts s).mem.wf = true := by
  simp [barRdEffect, h]
@[simp] theorem bargProt_wf (h : s.mem.wf = true) : (s.bargProt).mem.wf = true := by simp [State.bargProt, h]
@[simp] theorem bargEffect_wf (f : Fields) (op : Nat) (acts : List Nat)
    (h : s.mem.wf = true) : (bargEffect f op acts s).mem.wf = true := by
  simp [bargEffect, h]
@[simp] theorem protHere_wf (f : Fields) (detail va : Nat) (h : s.mem.wf = true) : (s.protHere f detail va).mem.wf = true := by
  simp [State.protHere, h]

/-! #### Copies -/

@[simp] theorem copyIssue_wf (i : Instr) (h : s.mem.wf = true) : (s.copyIssue i).mem.wf = true := by
  fun_cases State.copyIssue <;> simp [h]
@[simp] theorem refuseXfer_wf (c : Copy) (x : Xfer) (type : Nat) (data : List Byte)
    (h : s.mem.wf = true) : (s.refuseXfer c x type data).mem.wf = true := by
  simp [State.refuseXfer, h]
@[simp] theorem execCopyUnitArrival_wf (wg b : Nat) (h : s.mem.wf = true) : NextWf (execCopyUnitArrival wg b s) := by
  unfold execCopyUnitArrival; split <;> simp [h]
@[simp] theorem winPut_wf (t addr size v : Nat) (h : s.mem.wf = true) : (s.winPut t addr size v).mem.wf = true := by
  fun_cases State.winPut <;> simp [h]
@[simp] theorem payOwed_wf (u : Late) (h : s.mem.wf = true) : (s.payOwed u).mem.wf = true := by
  unfold State.payOwed; split <;> simp [h]
@[simp] theorem payShown_wf (h : s.mem.wf = true) : (s.payShown).mem.wf = true := by simp +contextual [State.payShown, h]
@[simp] theorem payAt_wf (t : Nat) (range : Option (Nat × Nat)) (h : s.mem.wf = true) : (s.payAt t range).mem.wf = true := by
  simp +contextual [State.payAt, h]
@[simp] theorem makeVisible_wf (n scope core : Nat) (h : s.mem.wf = true) : (s.makeVisible n scope core).mem.wf = true := by
  unfold State.makeVisible; split <;> simp [h]
@[simp] theorem objCopyPut_wf (c : Copy) (t : Nat) (bars : List (Nat × Nat)) (addr n v : Nat)
    (h : s.mem.wf = true) : (s.objCopyPut c t bars addr n v).mem.wf = true := by
  simp [State.objCopyPut, h]
@[simp] theorem countBytes_wf (c : Copy) (x : Xfer) (owner : Nat) (h : s.mem.wf = true) : (s.countBytes c x owner).mem.wf = true := by
  simp [State.countBytes, h]
theorem foldl_snd_mem {α β : Type} {g : β × State → α → β × State} (hg : ∀ a m, (g a m).2.mem = a.2.mem) (l : List α) (a : β × State) :
    (l.foldl g a).2.mem = a.2.mem :=
  List.foldlRecOn (motive := fun b : β × State => b.2.mem = a.2.mem) l g rfl fun b hb m _ => (hg b m).trans hb
theorem xferSide_wf (c : Copy) (va : Nat) (acc : Access) {k : State → Nat → Nat → XferOut} (h : s.mem.wf = true)
    (hk : ∀ t g cpol, t.mem.wf = true → (k t g cpol).memWf) : (s.xferSide c va acc k).memWf := by
  unfold State.xferSide
  dsimp only
  split
  · exact h
  · have ht := translate_wf c.core (s.ctxNo c.wg) va acc false h
    split
    · exact ht
    · simp [ht]
    · split
      · simp [ht]
      · exact hk _ _ _ (by simp [ht])
theorem xferWindow_wf (c : Copy) (x : Xfer) (addr : Nat) (moves : List Nat) {k : Nat → XferOut} (h : s.mem.wf = true)
    (hk : ∀ t, (k t).memWf) : (s.xferWindow c x addr moves k).memWf := by
  unfold State.xferWindow
  dsimp only
  split
  · exact h
  · exact h
  · trivial
  · split
    · simp [h]
    · split
      · trivial
      · exact hk _
theorem xferRead_wf (c : Copy) (x : Xfer) (h : s.mem.wf = true) : (s.xferRead c x).memWf := by
  unfold State.xferRead
  dsimp only
  split
  · simp only [XferOut.memWf]
    rw [foldl_snd_mem (fun a m => by rfl)]
    split <;> simp [h]
  · refine xferWindow_wf c x _ _ h fun t => ?_
    simp only [XferOut.memWf]
    rw [foldl_snd_mem (fun a m => by simp)]
    split <;> simp [h]
  · refine xferSide_wf c _ _ h fun t g cpol ht => ?_
    simp only [XferOut.memWf]
    rw [foldl_snd_mem (fun a m => by rfl)]
    split <;> simp [ht]
theorem xferWrite_wf (c : Copy) (x : Xfer) (h : s.mem.wf = true) : (s.xferWrite c x).memWf := by
  unfold State.xferWrite
  split
  · simp [h]
  · simp [h]
  · refine xferWindow_wf c x _ _ h fun t => ?_
    split
    · exact h
    · simp only [XferOut.memWf, noteWrites_mem]
      refine countBytes_wf _ _ _ (foldl_wf (fun u hu p => ?_) h)
      split
      · simp [hu]
      · split <;> simp [hu]
  · refine xferSide_wf c _ _ h fun t g cpol ht => ?_
    simp only [XferOut.memWf, noteWrites_mem]
    refine countBytes_wf _ _ _ ?_
    rw [llcTouch_mem]
    refine foldl_wf (fun u hu p => ?_) ht
    simp [hu]
theorem stepXfer_wf (c : Copy) (x : Xfer) (h : s.mem.wf = true) {t : State} (e : s.stepXfer c x = some t) : t.mem.wf = true := by
  have out : (if x.isRead then s.xferWrite c x else s.xferRead c x).memWf := by
    split
    · exact xferWrite_wf c x h
    · exact xferRead_wf c x h
  unfold State.stepXfer at e
  dsimp only at e
  split at e
  · cases e
  case h_2 eq => rw [eq] at out; cases e; simpa using out
  case h_3 eq => rw [eq] at out; cases e; exact refuseXfer_wf _ _ _ _ out
  case h_4 eq => rw [eq] at out; split at e <;> cases e <;> simpa using out
@[simp] theorem execTransferOperation_wf (id : Nat) (h : s.mem.wf = true) : NextWf (execTransferOperation id s) := by
  unfold execTransferOperation
  split
  · split
    · split
      · simp
      · split
        · next e => simpa using stepXfer_wf _ _ h e
        · simp
    · simp
  · simp
@[simp] theorem landData_wf (c : Copy) (member t : Nat) (x : Xfer) (e : Landing)
    (h : s.mem.wf = true) : (s.landData c member t x e).mem.wf = true := by
  unfold State.landData
  dsimp only
  rw [noteWrites_mem]
  apply updBar_wf
  refine foldl_wf (fun t ht p => ?_) h
  split <;> simp [ht]
@[simp] theorem execMulticastDelivery_wf (id member : Nat)
    (h : s.mem.wf = true) : NextWf (execMulticastDelivery id member s) := by
  unfold execMulticastDelivery
  split
  · split
    · dsimp only
      split
      · simp
      · rw [nextWf_next, ite_mem, endXfer_mem, setXfer_mem, ite_self]
        split
        · refine logEvent_wf _ _ _ _ _ _ (updBar_wf _ _ _ ?_)
          simp [h]
        · exact landData_wf _ _ _ _ _ h
    · simp
  · simp
@[simp] theorem execPromiseReached_wf (wg warp : Nat) (h : s.mem.wf = true) : NextWf (execPromiseReached wg warp s) := by
  fun_cases execPromiseReached <;> simp [h]

/-! #### Queues -/

@[simp] theorem putMessage_wf (t q : Nat) (m : Message) (h : s.mem.wf = true) : (s.putMessage t q m).mem.wf = true := by
  simp [State.putMessage, h]
@[simp] theorem execQueueMessageArrival_wf (id : Nat) (h : s.mem.wf = true) : NextWf (execQueueMessageArrival id s) := by
  unfold execQueueMessageArrival; split <;> simp [h]
@[simp] theorem collTranslate_wf (coreFor : Nat → Nat) (ctx : Nat) (x : List (Nat × Nat × Bool))
    (h : s.mem.wf = true) : (s.collTranslate coreFor ctx x).1.mem.wf = true := by
  induction x generalizing s with
  | nil => exact h
  | cons y l ih =>
    obtain ⟨r, va, wr⟩ := y
    unfold State.collTranslate
    split
    · exact h
    · dsimp only
      split
      · exact ih (translate_wf _ _ _ _ _ h)
      · simp [h]
@[simp] theorem stepOcc_wf (key : Nat) (h : s.mem.wf = true) : (s.stepOcc key).mem.wf = true := by
  unfold State.stepOcc
  dsimp only
  split
  · simp [h]
  · split
    · simp [h]
    · simp [h]
    · rw [collComplete_mem]
      exact foldl_wf (fun t ht x => memWrite_wf _ _ _ ht) (collTranslate_wf _ _ _ h)
@[simp] theorem execCollectiveInstance_wf (ctx group occ : Nat)
    (h : s.mem.wf = true) : NextWf (execCollectiveInstance ctx group occ s) := by
  simp [execCollectiveInstance, h]

/-! #### Privileged -/

@[simp] theorem reissue_wf (p : Parked) (h : s.mem.wf = true) : (reissue s p).mem.wf = true := by
  unfold reissue
  split
  · split <;> simp [h]
  · split
    · next y c _ _ =>
      cases e : s.stepXfer c y with
      | none => exact h
      | some t => exact stepXfer_wf _ _ h e
    · exact h
  · split <;> simp [h]
@[simp] theorem replayAll_wf (part : Nat) (h : s.mem.wf = true) : (s.replayAll part).mem.wf = true := by
  simp +contextual [State.replayAll, h]
@[simp] theorem cancelOne_wf (number : Nat) (p : Parked) (h : s.mem.wf = true) : (cancelOne number s p).mem.wf = true := by
  fun_cases cancelOne <;> simp +zetaDelta [h]
@[simp] theorem cancelPages_wf (part : Nat) (page : Nat → Bool) (h : s.mem.wf = true) : (s.cancelPages part page).mem.wf = true := by
  simp +contextual [State.cancelPages, h]
@[simp] theorem startCmd_wf (part op first n : Nat) (h : s.mem.wf = true) : (s.startCmd part op first n).mem.wf = true := by
  unfold State.startCmd; split <;> simp [h]
@[simp] theorem fltcmd_wf (agent part op : Nat) (h : s.mem.wf = true) : (s.fltcmd agent part op).mem.wf = true := by
  simp [State.fltcmd, h]
@[simp] theorem execReplayAll_wf (agent part : Nat) (h : s.mem.wf = true) : NextWf (execReplayAll agent part s) := by
  simp [execReplayAll, h]
@[simp] theorem execCancelAll_wf (agent part : Nat) (h : s.mem.wf = true) : NextWf (execCancelAll agent part s) := by
  simp [execCancelAll, h]
@[simp] theorem execCancelPage_wf (agent part : Nat) (h : s.mem.wf = true) : NextWf (execCancelPage agent part s) := by
  simp [execCancelPage, h]
@[simp] theorem execInvalidateRange_wf (agent part : Nat) (h : s.mem.wf = true) : NextWf (execInvalidateRange agent part s) := by
  simp [execInvalidateRange, h]
@[simp] theorem execFaultCommandComplete_wf (part : Nat) (h : s.mem.wf = true) : NextWf (execFaultCommandComplete part s) := by
  simp [execFaultCommandComplete, h]
@[simp] theorem execFbovfWrite_wf (agent quad : Nat) (_v : Word) (h : s.mem.wf = true) : NextWf (execFbovfWrite agent quad _v s) := by
  simp [execFbovfWrite, h]
@[simp] theorem execFbstatWrite_wf (agent quad : Nat) (v : Word) (h : s.mem.wf = true) : NextWf (execFbstatWrite agent quad v s) := by
  simp [execFbstatWrite, h]
@[simp] theorem execFltstatWrite_wf (agent part : Nat) (v : Word) (h : s.mem.wf = true) : NextWf (execFltstatWrite agent part v s) := by
  simp [execFltstatWrite, h]
@[simp] theorem command_wf (f : Fields) (op : Nat) (first n : Warp → Nat → Nat)
    (h : s.mem.wf = true) : (s.command f op first n).mem.wf = true := by
  unfold State.command; split <;> simp [h]
@[simp] theorem harvestLane_wf (ctx seg base n : Nat) (h : s.mem.wf = true) : (s.harvestLane ctx seg base n).1.mem.wf = true := by
  unfold State.harvestLane
  dsimp only
  refine List.foldlRecOn (motive := fun a : State × Nat × List (Nat × Bool) => a.1.mem.wf = true) _ _ h fun a ha i _ => ?_
  split
  · split
    · exact ha
    · split
      · exact ha
      · simp [ha]
  · exact ha

/-! #### Solve -/

@[simp] theorem execSolveRegionOpen_wf (wg : Nat) (h : s.mem.wf = true) : NextWf (execSolveRegionOpen wg s) := by
  fun_cases execSolveRegionOpen <;> simp [h]
@[simp] theorem evaluate_wf (k : Nat) (h : s.mem.wf = true) : (s.evaluate k).mem.wf = true := by simp [State.evaluate, h]
@[simp] theorem execSvendEvaluation_wf (wg : Nat) (h : s.mem.wf = true) : NextWf (execSvendEvaluation wg s) := by
  fun_cases execSvendEvaluation <;> simp [h]

/-! #### Window -/

@[simp] theorem winLane_wf (r : Req) (t : Nat) (x : Slot) (h : s.mem.wf = true) : (s.winLane r t x).1.mem.wf = true := by
  fun_cases State.winLane <;> simp +zetaDelta [h]
@[simp] theorem winLanes_wf (r : Req) (t : Nat) (x : List Slot) (h : s.mem.wf = true) : (s.winLanes r t x).1.mem.wf = true := by
  induction x generalizing s r with
  | nil => exact h
  | cons y l ih => exact ih _ (winLane_wf _ _ _ h)
@[simp] theorem winStep_wf (r : Req) (t : Nat) (h : s.mem.wf = true) : (s.winStep r t).mem.wf = true := by simp [State.winStep, h]
@[simp] theorem execWindowAccess_wf (id : Nat) (h : s.mem.wf = true) : NextWf (execWindowAccess id s) := by
  fun_cases execWindowAccess <;> simp +zetaDelta [h]

/-! #### Issue -/

@[simp] theorem gatherEffect_wf (i : Instr) (acts : List Nat) (h : s.mem.wf = true) : (gatherEffect i acts s).mem.wf = true := by
  unfold gatherEffect; split <;> simp [h]
@[simp] theorem settleGather_wf (k w : Nat) (h : s.mem.wf = true) : (s.settleGather k w).mem.wf = true := by
  fun_cases State.settleGather <;> simp [h]
@[simp] theorem settleCounters_wf (k w l : Nat) (h : s.mem.wf = true) : (s.settleCounters k w l).mem.wf = true := by
  unfold State.settleCounters
  dsimp only
  split
  · next limits _ =>
    split
    · cases e : s.waitcEnds k w ((s.warp k w).alike l) ((s.warp k w).lane l).pc limits with
      | none => simp [h]
      | some t => exact waitcEnds_wf _ _ _ _ _ h e
    · exact h
  · exact h
@[simp] theorem settleNet_wf (k w l : Nat) (h : s.mem.wf = true) : (s.settleNet k w l).mem.wf = true := by
  fun_cases State.settleNet <;> simp +zetaDelta [h]
@[simp] theorem settle_wf (k w : Nat) (h : s.mem.wf = true) : (s.settle k w).mem.wf = true := by
  unfold State.settle
  dsimp only
  rw [syncs_mem, foldl_mem _ _ _ fun t l => settleHeld_mem t k w l, foldl_mem _ _ _ fun t l => settleOther_mem t k w l]
  refine foldl_wf (fun t ht l => settleNet_wf _ _ _ ht) ?_
  refine foldl_wf (fun t ht l => settleCounters_wf _ _ _ ht) ?_
  simp [h]
@[simp] theorem prepare_wf (k w : Nat) (h : s.mem.wf = true) : (s.prepare k w).mem.wf = true := by simp [State.prepare, h]
@[simp] theorem enterTrap_wf (k w : Nat) (t : Trap) (h : s.mem.wf = true) : (s.enterTrap k w t).mem.wf = true := by
  simp [State.enterTrap, h]
@[simp] theorem execTrapEntry_wf (wg warp : Nat) (h : s.mem.wf = true) : NextWf (execTrapEntry wg warp s) := by
  unfold execTrapEntry; split <;> simp [h]
@[simp] theorem noteCycles_wf (h : s.mem.wf = true) : (s.noteCycles).mem.wf = true := by simp [State.noteCycles, h]
@[simp] theorem noteReady_wf (h : s.mem.wf = true) : (s.noteReady).mem.wf = true := by simp [State.noteReady, h]
theorem fetchGroup_wf (h : s.mem.wf = true) : s.fetchGroup.state.mem.wf = true := by
  unfold State.fetchGroup
  dsimp only
  split
  · exact h
  · have ht := translate_wf s.curG.core (s.ctxNo s.curWg) (s.codeVa s.curWg s.curPc) .fetch false h
    split
    · exact ht
    · exact (congrArg Memory.wf (auditTr_mem ..)).trans ht
    all_goals exact ht
@[simp] theorem synced_state_mem (a : Attempt) : a.synced.state.mem = a.state.mem := by
  cases a <;> simp [Attempt.synced, Attempt.state]
theorem getD_wf {o : Option Attempt} {a : Attempt} (ho : ∀ b, o = some b → b.state.mem.wf = true) (ha : a.state.mem.wf = true) :
    (o.getD a).state.mem.wf = true := by
  cases o with
  | none => exact ha
  | some b => exact ho b rfl
theorem focus_fetchGroup_wf (k w : Nat) (ls : List Nat) (h : s.mem.wf = true) : (s.focus k w ls).fetchGroup.state.mem.wf = true :=
  fetchGroup_wf ((congrArg Memory.wf (focus_mem s k w ls)).trans h)
theorem attempt_wf (k w : Nat) (h : s.mem.wf = true) : (s.attempt k w).state.mem.wf = true := by
  have hp := prepare_wf k w h
  unfold State.attempt
  split
  · exact h
  split
  · exact settle_wf k w h
  dsimp only
  split
  · exact hp
  · next g t e =>
    have ht : t.mem.wf = true := by rw [vote_mem _ _ _ e, hp]
    refine getD_wf (fun a found => ?_) (by rw [synced_state_mem]; exact focus_fetchGroup_wf _ _ _ ht)
    obtain ⟨ls, -, e⟩ := List.mem_map.1 (List.mem_of_find?_eq_some found)
    rw [← e]
    exact focus_fetchGroup_wf k w ls hp
@[simp] theorem execWatchdog_wf (wg warp lane : Nat) (h : s.mem.wf = true) : NextWf (execWatchdog wg warp lane s) := by
  have ha := attempt_wf wg warp h
  unfold execWatchdog
  split
  case h_1 e | h_2 e => rw [e] at ha; exact event_wf (watchdogEnd_wf ha)
  · simp

/-! #### Launch -/

@[simp] theorem execDoorbellWrite_wf (agent vq : Nat) (v : Word) (h : s.mem.wf = true) : NextWf (execDoorbellWrite agent vq v s) := by
  simp [execDoorbellWrite, h]
@[simp] theorem execLaunchCancel_wf (agent vq : Nat) (h : s.mem.wf = true) : NextWf (execLaunchCancel agent vq s) := by
  refine event_wf (agentWrite_wf _ _ h ?_)
  simp [h]
@[simp] theorem execResumeAfterRefusal_wf (agent vq : Nat) (h : s.mem.wf = true) : NextWf (execResumeAfterRefusal agent vq s) := by
  simp [execResumeAfterRefusal, h]
@[simp] theorem execWorkgroupDispatch_wf (launch : Nat) (h : s.mem.wf = true) : NextWf (execWorkgroupDispatch launch s) := by
  simp [execWorkgroupDispatch, h]
@[simp] theorem execPacketStart_wf (vq : Nat) (h : s.mem.wf = true) : NextWf (execPacketStart vq s) := by
  fun_cases execPacketStart <;> simp +zetaDelta [h]
@[simp] theorem execWorkgroupEnd_wf (wg : Nat) (h : s.mem.wf = true) : NextWf (execWorkgroupEnd wg s) := by
  simp [execWorkgroupEnd, h]
@[simp] theorem execContextEnd_wf (id : Nat) (h : s.mem.wf = true) : NextWf (execContextEnd id s) := by
  fun_cases execContextEnd <;> simp [h]
@[simp] theorem execWarpExchange_wf (core part : Nat) (h : s.mem.wf = true) : NextWf (execWarpExchange core part s) := by
  unfold execWarpExchange
  dsimp only
  split
  · simp
  · refine orRefused_wf (n := _) fun t e => ?_
    obtain ⟨o, -, e⟩ := Option.bind_eq_some_iff.1 e
    rw [exchange_mem _ _ _ _ _ e, h]
@[simp] theorem execForcedExchange_wf (core part : Nat) (h : s.mem.wf = true) : NextWf (execForcedExchange core part s) := by
  unfold execForcedExchange
  dsimp only
  split
  · simp
  · split
    · simp
    · split
      · simp
      · refine orRefused_wf (n := _) fun t e => ?_
        obtain ⟨o, -, e⟩ := Option.bind_eq_some_iff.1 e
        rw [exchange_mem _ _ _ _ _ e, h]
@[simp] theorem execControlInterval_wf (quad parked ballast energy pace : Nat) (announced : Bool)
    (h : s.mem.wf = true) : NextWf (execControlInterval quad parked ballast energy pace announced s) := by
  simp [execControlInterval, h]

/-! #### Save -/

@[simp] theorem execRecall_wf (id : Nat) (h : s.mem.wf = true) : NextWf (execRecall id s) := by
  fun_cases execRecall <;> simp [h]
@[simp] theorem execPreemptGo_wf (agent quad ctx : Nat) (h : s.mem.wf = true) : NextWf (execPreemptGo agent quad ctx s) := by
  simp [execPreemptGo, h]
@[simp] theorem execPreemptLift_wf (agent quad ctx : Nat) (h : s.mem.wf = true) : NextWf (execPreemptLift agent quad ctx s) := by
  simp [execPreemptLift, h]
@[simp] theorem execDrainDeadline_wf (quad : Nat) (h : s.mem.wf = true) : NextWf (execDrainDeadline quad s) := by
  unfold execDrainDeadline; split <;> simp [h]
@[simp] theorem saveAt_wf (k at_ : Nat) (h : s.mem.wf = true) : (s.saveAt k at_).1.mem.wf = true := by simp [State.saveAt, h]
@[simp] theorem execPreemptComplete_wf (quad : Nat) (h : s.mem.wf = true) : NextWf (execPreemptComplete quad s) := by
  unfold execPreemptComplete
  split
  · simp
  · refine event_wf ?_
    rw [updQuad_mem, setCreg_mem, ite_mem, scrub_mem, ite_self, foldl_mem _ _ _ fun t k => by simp]
    exact List.foldlRecOn (motive := fun a : State × Nat => a.1.mem.wf = true) _ _ h fun a ha k _ => saveAt_wf _ _ ha

/-! #### Restore -/

@[simp] theorem execRestoreGo_wf (agent quad : Nat) (cmd : Word)
    (h : s.mem.wf = true) : NextWf (execRestoreGo agent quad cmd s) := by
  refine event_wf (agentWrite_wf _ _ h ?_)
  dsimp only
  split
  · exact h
  · split
    · next t e => simpa [tryRestore_mem _ _ _ _ _ e] using h
    · split <;> simp [h]
@[simp] theorem execRststatWrite_wf (agent quad : Nat) (v : Word) (h : s.mem.wf = true) : NextWf (execRststatWrite agent quad v s) := by
  simp [execRststatWrite, h]

/-! #### Thermal -/

@[simp] theorem execSensorSample_wf (temps : List (Nat × BitVec 16))
    (h : s.mem.wf = true) : NextWf (execSensorSample temps s) := by
  refine event_wf ?_
  split <;> simp [h]
@[simp] theorem execBeginCooldown_wf (agent : Nat) (h : s.mem.wf = true) : NextWf (execBeginCooldown agent s) := by
  simp [execBeginCooldown, h]
@[simp] theorem execBeginWarmup_wf (agent : Nat) (h : s.mem.wf = true) : NextWf (execBeginWarmup agent s) := by
  simp [execBeginWarmup, h]
@[simp] theorem execCdctlRefusedOp_wf (agent : Nat) (op : BitVec 4) (h : s.mem.wf = true) : NextWf (execCdctlRefusedOp agent op s) := by
  simp [execCdctlRefusedOp, h]
@[simp] theorem execCalibrationComplete_wf (h : s.mem.wf = true) : NextWf (execCalibrationComplete s) := by
  simp [execCalibrationComplete, h]
@[simp] theorem execCdstatWrite_wf (agent : Nat) (v : Word) (h : s.mem.wf = true) : NextWf (execCdstatWrite agent v s) := by
  simp [execCdstatWrite, h]
@[simp] theorem execPatrolScrub_wf (pa : Nat) (h : s.mem.wf = true) : NextWf (execPatrolScrub pa s) := by
  simp [execPatrolScrub, h]

/-! #### Trust -/

@[simp] theorem execAuditEntryCommit_wf (agent : Nat) (byte63 : Byte)
    (h : s.mem.wf = true) : NextWf (execAuditEntryCommit agent byte63 s) := by
  simp [execAuditEntryCommit, h]
@[simp] theorem execAuditHeadSign_wf (h : s.mem.wf = true) : NextWf (execAuditHeadSign s) := by simp [execAuditHeadSign, h]
@[simp] theorem execPackageReset_wf (image : Option (List Byte)) (signed : Bool) (authOk : BitVec 9) (started : Bool)
    (h : s.mem.wf = true) : NextWf (execPackageReset image signed authOk started s) := by
  unfold execPackageReset; split <;> simp [h]
@[simp] theorem execMeshcfgWrite_wf (agent region : Nat) (v : Word)
    (h : s.mem.wf = true) : NextWf (execMeshcfgWrite agent region v s) := by
  simp [execMeshcfgWrite, h]
@[simp] theorem execHealthWrite_wf (agent : Nat) (v : Word) (h : s.mem.wf = true) : NextWf (execHealthWrite agent v s) := by
  simp [execHealthWrite, h]
@[simp] theorem execEvstatWrite_wf (agent part : Nat) (v : Word) (h : s.mem.wf = true) : NextWf (execEvstatWrite agent part v s) := by
  simp [execEvstatWrite, h]
@[simp] theorem remapDie_wf (vd stack : Nat) (h : s.mem.wf = true) : NextWf (s.remapDie vd stack) := by simp [State.remapDie, h]
@[simp] theorem execScrubOnRelease_wf (ctx : Nat) (h : s.mem.wf = true) : NextWf (execScrubOnRelease ctx s) := by
  simp [execScrubOnRelease, h]
@[simp] theorem execCoreFailure_wf (core : Nat) (h : s.mem.wf = true) : NextWf (execCoreFailure core s) := by
  simp [execCoreFailure, h]
@[simp] theorem execPseudoChannelRetire_wf (stack channel : Nat)
    (h : s.mem.wf = true) : NextWf (execPseudoChannelRetire stack channel s) := by
  simp [execPseudoChannelRetire, h]

/-! #### Fabric -/

theorem regCommand_wf (agent off : Nat) (v : Word) (h : s.mem.wf = true) : SomeWf (s.regCommand agent off v) := by
  unfold State.regCommand
  dsimp only
  split <;> simp [h]
@[simp] theorem writeReg_wf (agent off : Nat) (v : Word) (h : s.mem.wf = true) : (s.writeReg agent off v).mem.wf = true := by
  unfold State.writeReg
  split
  · simp [h]
  · simp [h]
  · split
    · simp [h]
    · cases e : s.regCommand agent off v with
      | none => simp [h]
      | some t => exact regCommand_wf _ _ _ h t e
@[simp] theorem execRegisterWrite_wf (agent off : Nat) (v : Word) (h : s.mem.wf = true) : NextWf (execRegisterWrite agent off v s) := by
  simp [execRegisterWrite, h]
@[simp] theorem pokeReg_wf (agent off size v : Nat) (h : s.mem.wf = true) : (s.pokeReg agent off size v).mem.wf = true := by
  simp +contextual [State.pokeReg, h]
@[simp] theorem devWrite_wf (agent pa size v : Nat) (h : s.mem.wf = true) : (s.devWrite agent pa size v).mem.wf = true := by
  unfold State.devWrite; split <;> simp [h]
@[simp] theorem execHostRequest_wf (bar addr size : Nat) (write : Option QWord)
    (h : s.mem.wf = true) : NextWf (execHostRequest bar addr size write s) := by
  fun_cases execHostRequest <;> simp [h]
@[simp] theorem scaleOutAccess_wf (pa size : Nat) (write : Option QWord)
    (h : s.mem.wf = true) : NextWf (s.scaleOutAccess pa size write) := by
  fun_cases State.scaleOutAccess <;> simp [h]
@[simp] theorem execManagementClusterAccess_wf (pa size : Nat) (write : Option QWord)
    (h : s.mem.wf = true) : NextWf (execManagementClusterAccess pa size write s) := by
  unfold execManagementClusterAccess; split <;> simp [h]
@[simp] theorem loseReq_wf (r : Req) (h : s.mem.wf = true) : (s.loseReq r).mem.wf = true := by simp [State.loseReq, h]
@[simp] theorem execPathFailure_wf (pkg path : Nat) (h : s.mem.wf = true) : NextWf (execPathFailure pkg path s) :=
  event_wf (foldl_wf (fun _ ht r => loseReq_wf r ht) h)
@[simp] theorem writeRoute_wf (pkg : Nat) (l : List Route) (h : s.mem.wf = true) : NextWf (s.writeRoute pkg l) := by
  simp [State.writeRoute, h]
@[simp] theorem writeGroup_wf (ctx n : Nat) (members : Option (List (Nat × Nat × Nat)))
    (h : s.mem.wf = true) : NextWf (s.writeGroup ctx n members) := by
  simp [State.writeGroup, h]
@[simp] theorem execTimeBaseDiscipline_wf (ns : DWord) (frac : BitVec 16) (lock : Bool)
    (h : s.mem.wf = true) : NextWf (execTimeBaseDiscipline ns frac lock s) := by
  simp [execTimeBaseDiscipline, h]
@[simp] theorem execClusterWatchdogReset_wf (h : s.mem.wf = true) : NextWf (execClusterWatchdogReset s) := by
  simp [execClusterWatchdogReset, h]

/-! #### Special -/

@[simp] theorem execSfuResult_wf (k : Nat) (h : s.mem.wf = true) : NextWf (execSfuResult k s) := by
  unfold execSfuResult; split <;> simp [h]

/-! #### Cycle -/

@[simp] theorem failFetch_wf (cause detail : Nat) (h : s.mem.wf = true) : (s.failFetch cause detail).mem.wf = true := by
  unfold State.failFetch; split <;> simp [h]

/-! ### Instructions, events and steps -/

/-! #### Waits -/

@[simp] theorem gather_wf (i : Instr) (effect : List Nat → State → State) (h : s.mem.wf = true)
    (he : ∀ acts t, t.mem.wf = true → (effect acts t).mem.wf = true) : (s.gather i effect).mem.wf = true := by
  unfold State.gather
  dsimp only
  split
  · exact he _ _ (by simp [h])
  · simp [h]

/-! #### CrossLane -/

theorem execVote_wf (f : Fields) (h : s.mem.wf = true) : NextWf (execVote f s) := by
  refine issue_wf _ _ h fun t ht => ?_
  dsimp only
  split <;> simp [ht]

/-! #### Queues -/

theorem execCollw_wf (f : Fields) (h : s.mem.wf = true) : NextWf (execCollw f s) := by
  refine issue_wf _ _ h fun t ht => ?_
  dsimp only
  split
  · simp [ht]
  · split <;> simp [ht]

/-! #### Solve -/

theorem execSolve_wf (f : Fields) (h : s.mem.wf = true) : NextWf (execSolve f s) := by
  refine issue_wf _ _ h fun t ht => ?_
  split
  · simp [ht]
  · exact gather_wf _ _ ht fun acts u hu => by simp [hu]

/-! #### System -/

theorem execMovs_wf (f : Fields) (h : s.mem.wf = true) : NextWf (execMovs f s) := by
  refine issue_wf _ _ h fun t ht => ?_
  split <;> simp [ht]
theorem execMovsw_wf (f : Fields) (h : s.mem.wf = true) : NextWf (execMovsw f s) := by
  refine issue_wf _ _ h fun t ht => ?_
  dsimp only
  split <;> simp [ht]

/-! #### Control -/

theorem execWaitc_wf (f : Fields) (h : s.mem.wf = true) : NextWf (execWaitc f s) := by
  refine issue_wf _ _ h fun t ht => ?_
  split
  · split
    · simp [ht]
    · cases e : t.waitcEnds t.curWg t.curWarp (t.trueLanes f) t.curPc f.immWord with
      | none => simp [ht]
      | some u => simpa using waitcEnds_wf _ _ _ _ _ ht e
  · simp [ht]

/-! #### Sync -/

theorem execLand_wf (f : Fields) (h : s.mem.wf = true) : NextWf (execLand f s) := by
  refine issue_wf _ _ h fun t ht => ?_
  split
  · simp [ht]
  · dsimp only
    split
    · simp [ht]
    · split <;> simp [ht]

/-! #### Mem -/

theorem execCctlInvall_wf (f : Fields) (h : s.mem.wf = true) : NextWf (execCctlInvall f s) :=
  issue_wf _ _ h fun t ht => by simp [ht]
theorem execCctlDem_wf (f : Fields) (h : s.mem.wf = true) : NextWf (execCctlDem f s) :=
  issue_wf _ _ h fun t ht => eachLine_wf _ _ ht fun g cpol u hu => by simp [hu]
theorem execCctlInv1_wf (f : Fields) (h : s.mem.wf = true) : NextWf (execCctlInv1 f s) :=
  issue_wf _ _ h fun t ht => eachLine_wf _ _ ht fun g cpol u hu => by simp [hu]
theorem execPref_wf (f : Fields) (h : s.mem.wf = true) : NextWf (execPref f s) :=
  issue_wf _ _ h fun t ht => eachLine_wf _ _ ht fun g cpol u hu => by simp [hu]

/-! #### Privileged -/

theorem execHarvest_wf (f : Fields) (h : s.mem.wf = true) : NextWf (execHarvest f s) := by
  refine issueHeld_wf _ _ _ h fun t ht => ?_
  dsimp only
  rw [advanceLanes_mem, waitLanes_mem]
  refine foldl_wf (fun u hu l => ?_) ht
  split <;> simp [hu]

/-! #### Queues -/

theorem execQpollSend_wf (f : Fields) (h : s.mem.wf = true) : NextWf (execQpollSend f s) := by
  refine issueHeld_wf _ _ _ h fun t ht => ?_
  split <;> simp [ht]
theorem execColl_wf (f : Fields) (h : s.mem.wf = true) : NextWf (execColl f s) := by
  refine issueHeld_wf _ _ _ h fun t ht => ?_
  split <;> simp [ht]

/-! #### Dispatch -/

theorem exec_wf (i : Instr) (h : s.mem.wf = true) : NextWf (exec i s) := by
  cases i with
  | add f | sub f | mul f | mulhi f | mad f | madw f | div f | rem f | min f | max f | abs f | neg f | and f | or f | xor f | andn f | not f
    | popc f | clz f | brev f | shl f | shr f | sar f | rot f | fsh f | bfx f | bfi f | bsel f | lea f | sel f | icmp f | mov f | movi f
    | add64 f | sub64 f | shl64 f | shr64 f | pand f | por f | pxor f | pnot f | pmov f | pmovPack f | pmovUnpack f | fadd f | fsub f
    | fmul f | ffma f | fmin f | fmax f | fcmp f | fcls f | frnd f | hadd2 f | hmul2 f | hfma2 f | hmin2 f | hmax2 f | bfma2 f | dadd f
    | dmul f | dfma f | dcmp f | cvt f | pack f | unpk f | ndot f | cbld f | cbenc f | cbdec f | rcp f | rsq f | sqrt f | ex2 f | lg2 f
    | exp f | sinpi f | cospi f | tanh f | shfl f | redl f | scanl f | matchL f | bra f | brx f | call f | ret f | exit f | yield f
    | sleep f | sleept f | join f | nop f | trap f | bkpt f | perf f | ld f | st f | ldi f | ldfe f | stfe f | atom f | red f | cas f
    | fence f | fenceAck f | fenceOpr f | unland f | qpoll f | qpollRecv f | mxrd f | mxwr f | svrd f | svrdZp f | svrdRp f | svhsClr f
    | svhsWr f | svabort f =>
    unfold exec; dsimp only
    refine issue_wf _ _ h fun t ht => ?_
    simp [ht]
  | tlbinv f | replay f | replayCancel f | replayPage f | cpy f | cpym f | cpyw f | mxi f | mxs f | mxv f | mxn f | mxsa f | mxz f
    | mxmvSt f | mxmvLd f | mxmvTt f | wbinv f =>
    unfold exec; dsimp only
    refine issueHeld_wf _ _ _ h fun t ht => ?_
    simp [ht]
  | wsync f | eret f | waitp f | barArr f | barSync f | barWait f | barExp f | barInit f | barRd f | barRdClr f | bargArr f | bargSync f
    | bargWait f | rgive f | rtake f | rfree f | svend f =>
    unfold exec; dsimp only
    refine issue_wf _ _ h fun t ht => gather_wf _ _ ht fun acts u hu => ?_
    simp [hu]
  | vote f => exact execVote_wf f h
  | collw f => exact execCollw_wf f h
  | solve f => exact execSolve_wf f h
  | waitc f => exact execWaitc_wf f h
  | movs f => exact execMovs_wf f h
  | movsw f => exact execMovsw_wf f h
  | cctlDem f => exact execCctlDem_wf f h
  | cctlInv1 f => exact execCctlInv1_wf f h
  | cctlInvall f => exact execCctlInvall_wf f h
  | pref f => exact execPref_wf f h
  | land f => exact execLand_wf f h
  | harvest f => exact execHarvest_wf f h
  | qpollSend f => exact execQpollSend_wf f h
  | coll f => exact execColl_wf f h
  | sfuResult k => exact execSfuResult_wf k h
  | sleepExpiry wg warp lane => exact execSleepExpiry_wf wg warp lane h
  | promiseReached wg warp => exact execPromiseReached_wf wg warp h
  | barrierPhaseAdvance wg b => exact execBarrierPhaseAdvance_wf wg b h
  | copyUnitArrival wg b => exact execCopyUnitArrival_wf wg b h
  | queueMessageArrival id => exact execQueueMessageArrival_wf id h
  | collectiveInstance ctx group occ => exact execCollectiveInstance_wf ctx group occ h
  | matrixOperationComplete id => exact execMatrixOperationComplete_wf id h
  | solveRegionOpen wg => exact execSolveRegionOpen_wf wg h
  | svendEvaluation wg => exact execSvendEvaluation_wf wg h
  | trapEntry wg warp => exact execTrapEntry_wf wg warp h
  | watchdog wg warp lane => exact execWatchdog_wf wg warp lane h
  | translatedAccess id => exact execTranslatedAccess_wf id h
  | missQueueToPool id => exact execMissQueueToPool_wf id h
  | replayAll agent part => exact execReplayAll_wf agent part h
  | cancelAll agent part => exact execCancelAll_wf agent part h
  | cancelPage agent part => exact execCancelPage_wf agent part h
  | invalidateRange agent part => exact execInvalidateRange_wf agent part h
  | faultCommandComplete part => exact execFaultCommandComplete_wf part h
  | fbovfWrite agent quad v => exact execFbovfWrite_wf agent quad v h
  | fbstatWrite agent quad v => exact execFbstatWrite_wf agent quad v h
  | fltstatWrite agent part v => exact execFltstatWrite_wf agent part v h
  | loadReply id => exact execLoadReply_wf id h
  | homeSliceRequest id => exact execHomeSliceRequest_wf id h
  | storeAck id => exact execStoreAck_wf id h
  | hamperEccError id => exact execHamperEccError_wf id h
  | waiterOverflowStep id => exact execWaiterOverflowStep_wf id h
  | windowAccess id => exact execWindowAccess_wf id h
  | transferOperation id => exact execTransferOperation_wf id h
  | multicastDelivery id member => exact execMulticastDelivery_wf id member h
  | remoteStorePerformed id => exact execRemoteStorePerformed_wf id h
  | orderedFlagArrival id => exact execOrderedFlagArrival_wf id h
  | orderedFlagPerform id => exact execOrderedFlagPerform_wf id h
  | pathFailure pkg path => exact execPathFailure_wf pkg path h
  | contextEnd id => exact execContextEnd_wf id h
  | doorbellWrite agent vq v => exact execDoorbellWrite_wf agent vq v h
  | launchCancel agent vq => exact execLaunchCancel_wf agent vq h
  | resumeAfterRefusal agent vq => exact execResumeAfterRefusal_wf agent vq h
  | packetStart vq => exact execPacketStart_wf vq h
  | workgroupDispatch launch => exact execWorkgroupDispatch_wf launch h
  | workgroupEnd wg => exact execWorkgroupEnd_wf wg h
  | warpExchange core part => exact execWarpExchange_wf core part h
  | forcedExchange core part => exact execForcedExchange_wf core part h
  | controlInterval quad parked ballast energy pace announced => exact execControlInterval_wf quad parked ballast energy pace announced h
  | preemptGo agent quad ctx => exact execPreemptGo_wf agent quad ctx h
  | preemptLift agent quad ctx => exact execPreemptLift_wf agent quad ctx h
  | drainDeadline quad => exact execDrainDeadline_wf quad h
  | preemptComplete quad => exact execPreemptComplete_wf quad h
  | restoreGo agent quad cmd => exact execRestoreGo_wf agent quad cmd h
  | rststatWrite agent quad v => exact execRststatWrite_wf agent quad v h
  | sensorSample temps => exact execSensorSample_wf temps h
  | beginCooldown agent => exact execBeginCooldown_wf agent h
  | beginWarmup agent => exact execBeginWarmup_wf agent h
  | cdctlRefusedOp agent op => exact execCdctlRefusedOp_wf agent op h
  | calibrationComplete => exact execCalibrationComplete_wf h
  | cdstatWrite agent v => exact execCdstatWrite_wf agent v h
  | patrolScrub pa => exact execPatrolScrub_wf pa h
  | packageReset image signed authOk started => exact execPackageReset_wf image signed authOk started h
  | meshcfgWrite agent region v => exact execMeshcfgWrite_wf agent region v h
  | healthWrite agent v => exact execHealthWrite_wf agent v h
  | scrubOnRelease ctx => exact execScrubOnRelease_wf ctx h
  | auditEntryCommit agent byte63 => exact execAuditEntryCommit_wf agent byte63 h
  | auditHeadSign => exact execAuditHeadSign_wf h
  | evstatWrite agent part v => exact execEvstatWrite_wf agent part v h
  | coreFailure core => exact execCoreFailure_wf core h
  | pseudoChannelRetire stack channel => exact execPseudoChannelRetire_wf stack channel h
  | hostRequest bar addr size write => exact execHostRequest_wf bar addr size write h
  | registerWrite agent off v => exact execRegisterWrite_wf agent off v h
  | managementClusterAccess pa size write => exact execManagementClusterAccess_wf pa size write h
  | clusterWatchdogReset => exact execClusterWatchdogReset_wf h
  | timeBaseDiscipline ns frac lock => exact execTimeBaseDiscipline_wf ns frac lock h
  -- The recall: a word of Mathlib's own, so that the alternative cannot name it.
  | _ => exact execRecall_wf _ h

/-! #### Cycle -/

@[simp] theorem issueWarp_wf (k w : Nat) (h : s.mem.wf = true) : NextWf (s.issueWarp k w) := by
  have ha := attempt_wf k w h
  unfold State.issueWarp
  split
  case h_1 e => rw [e] at ha; exact (nextWf_next _).2 ha
  case h_2 e => rw [e] at ha; exact (nextWf_next _).2 (enterTrap_wf _ _ _ ha)
  case h_3 e => rw [e] at ha; exact (nextWf_next _).2 ((congrArg Memory.wf (parkFetch_mem ..)).trans ha)
  case h_4 e => rw [e] at ha; exact (nextWf_next _).2 (failFetch_wf _ _ ha)
  case h_5 e => rw [e] at ha; exact exec_wf _ ha
theorem tryEvent_wf (e : Instr) (h : s.mem.wf = true) {t : State} (e : s.tryEvent e = some t) : t.mem.wf = true := by
  unfold State.tryEvent at e
  split at e
  · next next =>
    split at e
    · cases e
    · cases e; exact exec_wf _ h _ next
  · cases e
theorem shownNext_wf (h : s.mem.wf = true) {t : State} (e : s.shownNext = some t) : t.mem.wf = true := by
  obtain ⟨n, -, shown⟩ := List.exists_of_findSome?_eq_some e
  dsimp only at shown
  split at shown
  · cases shown; exact makeVisible_wf _ _ _ h
  · cases shown
@[simp] theorem auto_wf (h : s.mem.wf = true) : NextWf (s.auto) := by
  unfold State.auto
  split
  · next e => simpa using shownNext_wf h e
  · split
    · next e => simpa [slotDue_mem _ e] using h
    · split
      · next e =>
        obtain ⟨i, -, tried⟩ := List.exists_of_findSome?_eq_some e
        simpa using tryEvent_wf _ h tried
      · split
        · exact issueWarp_wf _ _ h
        · simpa using h
@[simp] theorem noteStops_wf (h : s.mem.wf = true) : (s.noteStops).mem.wf = true := by simp [State.noteStops, h]
@[simp] theorem evalFor_wf (x : Nat) (h : s.mem.wf = true) : (s.evalFor x).mem.wf = true := by
  induction x generalizing s with
  | zero => exact h
  | succ n ih => exact ih (evalBars_wf h)
@[simp] theorem pass_wf (h : s.mem.wf = true) : (s.pass).mem.wf = true := by
  unfold State.pass
  dsimp only
  refine noteReady_wf (noteCycles_wf (noteStops_wf ?_))
  rw [noteAudit_mem, noteSlack_mem]
  exact payShown_wf (evalFor_wf _ (by simp [h]))
@[simp] theorem thenPass_wf {o : Host.Outcome State Fault Refusal} (h : NextWf o) : NextWf (thenPass o) := by
  cases o with
  | next t => simpa [thenPass] using pass_wf (h t rfl)
  | fault r => nofun
  | refused r => nofun
@[simp] theorem perform_wf (a : Act) (h : s.mem.wf = true) : NextWf (s.perform a) := by
  cases a with
  | issue k w => exact issueWarp_wf k w h
  | event e =>
    unfold State.perform
    dsimp only
    split
    · simp
    · exact exec_wf e h
  | visible n scope core => exact event_wf (makeVisible_wf _ _ _ h)
  | oldCode word n => exact event_wf h
  | slot id => exact orRefused_wf fun t e => by rw [nextScratchSlot_mem _ _ e, h]
  | sample id => exact orRefused_wf fun t e => by rw [sampleOp_mem _ _ e, h]
  | remotePart key rank part => exact orRefused_wf fun t e => by rw [remotePart_mem _ _ _ _ e, h]
  | waits id controller => exact orRefused_wf fun t e => by rw [waitsAt_mem _ _ _ e, h]
  | route pkg paths => exact writeRoute_wf _ _ h
  | group ctx n members => exact writeGroup_wf _ _ _ h
  | remap vd stack => exact remapDie_wf _ _ h
  | softErrors n => exact event_wf (by simp [h])
  | hostAtomic => simpa [State.perform] using h
  | scaleOut pa size write => exact scaleOutAccess_wf _ _ _ h
@[simp] theorem cycle_wf (h : s.mem.wf = true) : NextWf (s.cycle) := by
  unfold State.cycle
  split
  · next a as _ => exact thenPass_wf (perform_wf a h)
  · exact thenPass_wf (auto_wf h)

end

/-- Settles O57: `putBytes` is the only function that writes bytes, and it keeps the canonical form. -/
theorem stepsKeepMemoryCanonical : Obligations.StepsKeepMemoryCanonical := by
  unfold Obligations.StepsKeepMemoryCanonical
  intro s t h e
  exact cycle_wf h t e

end Sys2Proof.Machine
end

section

/-!
# The outside of the package

One layer of lemmas for each part of O53: registers, accesses by physical address, PTIME, a path's failure and collective groups;
then one theorem for each clause.
-/

namespace Sys2Proof.Machine

/-! ### Registers -/

/-- A read elsewhere after a write of a sparse map, whatever the two keys' unlisted values are. -/
theorem get_set_elsewhere {α : Type} [DecidableEq α] (d e : α) (m : SMap α) {k i : Nat} (v : α) (h : i ≠ k) :
    SMap.get e (SMap.set d m k v) i = SMap.get e m i := by
  unfold SMap.set
  split
  · rw [SMap.get_erase, if_neg h]
  · rw [SMap.get_insert _ _ _ _ _ (SMap.not_mem_erase m k), SMap.get_erase, if_neg h, if_neg h]

theorem creg_setCreg_same (s : State) (off v : Nat) : (s.setCreg off v).creg off = v % 2 ^ 32 := by
  simp [State.creg, State.cregOf, State.setCreg, State.setCregOf, SMap.get_upd]

theorem creg_setCreg_other (s : State) {off o : Nat} (v : Nat) (h : o ≠ off) : (s.setCreg off v).creg o = s.creg o := by
  simp [State.creg, State.cregOf, State.setCreg, State.setCregOf, SMap.get_upd, get_set_elsewhere _ _ _ _ h]

theorem creg_lt (s : State) (off : Nat) : s.creg off < 2 ^ 32 := BitVec.isLt _

theorem setCreg_eq (s : State) (off v : Nat) : s.setCreg off v = { s with cregs := (s.setCreg off v).cregs } := rfl

/-- Bit 0 of a word whose bit 0 was replaced by `b`. -/
theorem bit0_setBits (x : Nat) (b : Bool) : bits (setBits x 0 0 (b2n b) % 2 ^ 32) 0 0 = b2n b := by
  cases b <;> simp [bits, setBits, b2n] <;> omega

/-! ### Accesses by physical address -/

theorem own_mod (s : State) {pa : Nat} (h : pa < pkgSpan) : s.own pa % pkgSpan = pa := by
  rw [State.own, Nat.add_comm, Nat.add_mul_mod_self_right, Nat.mod_eq_of_lt h]

/-- DRAM lies in a die window or in the striped view. -/
theorem regionOf_of_homeDie {s : State} {pa : Nat} (hpa : pa < pkgSpan) (h : (s.homeDie (s.own pa)).isSome = true) :
    (∃ d o, regionOf pa = .dieWindow d o) ∨ ∃ o, regionOf pa = .striped o := by
  rw [State.homeDie, own_mod s hpa] at h
  cases e : regionOf pa with
  | dieWindow d o => exact .inl ⟨d, o, rfl⟩
  | striped o => exact .inr ⟨o, rfl⟩
  | _ => simp [e] at h

section
variable {s : State} {pa size : Nat} (hpa : pa < pkgSpan) (hd : (s.homeDie (s.own pa)).isSome = true)
include hpa hd

/-- No access to DRAM waits for a register that is abroad. -/
theorem devHeld_dram : s.devHeld pa size = false := by
  obtain ⟨d, o, e⟩ | ⟨o, e⟩ := regionOf_of_homeDie hpa hd <;> simp [State.devHeld, e]

theorem devRead_dram (hb : s.badAt (s.own pa) size = false) :
    s.devRead pa size = (s.mem.read (s.canon (s.own pa)) size, s) := by
  obtain ⟨d, o, e⟩ | ⟨o, e⟩ := regionOf_of_homeDie hpa hd <;> simp [State.devRead, e, hb, State.memRead]

theorem devWrite_dram (agent v : Nat) :
    s.devWrite agent pa size v = (s.memWrite (s.own pa) size v).cleanMem (s.own pa) size := by
  obtain ⟨d, o, e⟩ | ⟨o, e⟩ := regionOf_of_homeDie hpa hd <;> simp [State.devWrite, e]

end

theorem dropLate_nil (place : Option Nat) (a n : Nat) : dropLate [] place a n = [] := rfl

theorem written_memWrite (s : State) (g n v : Nat) : written s (s.memWrite g n v) :=
  ⟨rfl, fun h => show dropLate s.late none (s.canon g) n = [] by rw [h, dropLate_nil]⟩

theorem written_cleanMem {s t : State} (h : written s t) (g n : Nat) : written s (t.cleanMem g n) := by
  obtain ⟨frame, quiet⟩ := h
  unfold State.cleanMem
  split
  · exact ⟨by rw [frame], quiet⟩
  · exact ⟨frame, quiet⟩

theorem devWrite_dram_written {s : State} {pa : Nat} (hpa : pa < pkgSpan) (hd : (s.homeDie (s.own pa)).isSome = true)
    (agent size v : Nat) :
    written s (s.devWrite agent pa size v) ∧
      (s.devWrite agent pa size v).mem = s.mem.write (s.canon (s.own pa)) size v := by
  rw [devWrite_dram hpa hd]
  exact ⟨written_cleanMem (written_memWrite s _ _ _) _ _, by rw [cleanMem_mem]; rfl⟩

theorem regionOf_creg {addr : Nat} (h : addr < 2 ^ 32) : regionOf (cregBase + addr) = .creg addr := by
  unfold regionOf cregBase stripedBase chipBase
  rw [if_neg (by omega), if_neg (by simp only [Bool.and_eq_true, decide_eq_true_eq]; omega),
    if_neg (by simp only [Bool.and_eq_true, decide_eq_true_eq]; omega),
    if_pos (by simp only [Bool.and_eq_true, decide_eq_true_eq]; omega), Nat.add_sub_cancel_left]

/-- A read of one aligned word of the register space. -/
theorem devRead_creg (s : State) {addr : Nat} (h : addr < 2 ^ 32) (ha : addr % 4 = 0) :
    s.devRead (cregBase + addr) 4 = (s.creg addr, s) := by
  have hw : addr / 4 * 4 = addr := by omega
  have := creg_lt s addr
  simp [State.devRead, regionOf_creg h, wordsVal, wordsOf, ha, hw, List.range_succ]
  omega

theorem devHeld_creg (s : State) {addr : Nat} (h : addr < 2 ^ 32) (size : Nat) : s.devHeld (cregBase + addr) size = false := by
  simp [State.devHeld, regionOf_creg h]

/-! ### The host's accesses -/

/-- A host request to an address is not served: reserved, forbidden, or the boot sequence has halted the cluster. -/
def State.hostDead (s : State) (pa size : Nat) : Bool :=
  s.reservedAccess pa size || !s.reaches hostPort pa || (s.halted && pa / 4 * 4 != cregBase + bootStat)

theorem hostDead_iff (s : State) (pa size : Nat) : s.hostDead pa size = true ↔
    s.reservedAccess pa size = true ∨ s.reaches hostPort pa = false ∨ (s.halted = true ∧ pa / 4 * 4 ≠ cregBase + bootStat) := by
  simp [State.hostDead, or_assoc]

section
variable {s : State} {bar addr size pa : Nat} (ok : accessOk addr size = true) (at_ : s.barAddr bar addr = some pa)
include ok at_

theorem hostRequest_dead (h : s.hostDead pa size = true) (write : Option QWord) :
    exec (.hostRequest bar addr size write) s = .next (match write with
      | none => (s.auditEvent 1 hostPort pa).signal (.replyToHost (2 ^ (8 * size) - 1))
      | some _ => s.auditEvent 1 hostPort pa) := by
  unfold State.hostDead at h
  show execHostRequest bar addr size write s = _
  cases write <;> simp only [execHostRequest, at_, h, ok] <;> rfl

theorem hostRequest_served (h : s.hostDead pa size = false) (held : s.devHeld pa size = false) (write : Option QWord) :
    exec (.hostRequest bar addr size write) s = .next (match write with
      | none => (s.devRead pa size).2.signal (.replyToHost (s.devRead pa size).1)
      | some v => s.devWrite hostPort pa size v.toNat) := by
  unfold State.hostDead at h
  show execHostRequest bar addr size write s = _
  cases write <;> simp only [execHostRequest, at_, h, ok, held] <;> rfl

end

/-! ### The management cluster's accesses -/

theorem clusterAccess_halted {s : State} (h : s.halted = true) (pa size : Nat) (write : Option QWord) :
    exec (.managementClusterAccess pa size write) s = .refused (.notEnabled "MANAGEMENT_CLUSTER_ACCESS") := by
  show execManagementClusterAccess pa size write s = _
  simp [execManagementClusterAccess, h]

section
variable {s : State} {pa size : Nat} (ok : accessOk pa size = true) (hpa : pa < pkgSpan) (run : s.halted = false)
include ok hpa run

theorem clusterAccess_reserved (h : s.reservedAccess pa size = true) (write : Option QWord) :
    exec (.managementClusterAccess pa size write) s = .next (match write with
      | none => { s with busError := true, busAddr := pa }.signal (.replyToCluster 0)
      | some _ => { s with busError := true, busAddr := pa }) := by
  show execManagementClusterAccess pa size write s = _
  cases write <;> simp [execManagementClusterAccess, ok, Nat.not_le.2 hpa, run, h]

theorem clusterAccess_forbidden (h : s.reservedAccess pa size = false) (hr : s.reaches clusterPort pa = false) (write : Option QWord) :
    exec (.managementClusterAccess pa size write) s = .next (match write with
      | none => (s.auditEvent 1 clusterPort pa).signal (.replyToCluster 0)
      | some _ => s.auditEvent 1 clusterPort pa) := by
  show execManagementClusterAccess pa size write s = _
  cases write <;> simp [execManagementClusterAccess, ok, Nat.not_le.2 hpa, run, h, hr]

theorem clusterAccess_served (h : s.reservedAccess pa size = false) (hr : s.reaches clusterPort pa = true)
    (held : s.devHeld pa size = false) (write : Option QWord) :
    exec (.managementClusterAccess pa size write) s = .next (match write with
      | none => (s.devRead pa size).2.signal (.replyToCluster (s.devRead pa size).1)
      | some v => s.devWrite clusterPort pa size v.toNat) := by
  show execManagementClusterAccess pa size write s = _
  cases write <;> simp [execManagementClusterAccess, ok, Nat.not_le.2 hpa, run, h, hr, held]

end

/-! ### Register writes -/

theorem registerWrite_eq (s : State) (agent off : Nat) (v : Word) (ha : off % 4 = 0) (ho : off < 2 ^ 32) :
    exec (.registerWrite agent off v) s = .next (s.writeReg agent off v) := by
  show execRegisterWrite agent off v s = _
  have in_space : off < 4294967296 := ho
  simp [execRegisterWrite, event, ha, in_space]

theorem writeReg_forbidden {s : State} {agent off : Nat} {w : Writer} {m : Word} (hw : w ≠ .nobody)
    (hc : cregAccess off = some (w, m)) (h : s.mayWrite agent off = false) (v : Word) :
    s.writeReg agent off v = s.auditEvent 2 agent off := by
  unfold State.writeReg
  cases w <;> simp_all

theorem writeReg_plain {s : State} {agent off : Nat} {w : Writer} {m : Word} {v : Word} (hw : w ≠ .nobody)
    (hc : cregAccess off = some (w, m)) (h : s.mayWrite agent off = true) (hn : s.regCommand agent off v = none)
    (hr : s.rowGone off = false) :
    s.writeReg agent off v = s.setCreg off ((v &&& m) ||| (BitVec.ofNat 32 (s.creg off) &&& ~~~m)).toNat := by
  unfold State.writeReg State.plainWrite
  cases w <;> simp_all

theorem writeReg_nobody {s : State} {agent off : Nat} (h : (∃ m, cregAccess off = some (.nobody, m)) ∨ cregAccess off = none)
    (hc : s.connected s.pkg agent 576 = true) (v : Word) : s.writeReg agent off v = s := by
  unfold State.writeReg
  obtain ⟨m, e⟩ | e := h <;> simp [e, hc]

/-! ### The time base -/

theorem ptime_eq_zero (s : State) : ptime s = 0 ↔ s.ptimeNs = 0 ∧ s.ptimeFrac = 0 := by
  simp [ptime, ← BitVec.toNat_inj]

theorem inLock_iff (s : State) : s.inLock = true ↔ s.ptimeBehind.natAbs ≤ 50 * 65536 := by
  simp only [State.inLock, Bool.and_eq_true, decide_eq_true_eq]
  omega

/-- What a discipline sets of PTIME and of its distance from the reference. -/
def State.disciplined (s : State) (ns : DWord) (frac : BitVec 16) : State :=
  if ptime s = 0 then { s with ptimeNs := ns, ptimeFrac := frac, ptimeBehind := 0 }
  else { s with ptimeBehind := (ns.toNat * 65536 + frac.toNat : Nat) - (ptime s : Int) }

theorem timeBaseDiscipline_eq {s : State} (run : s.halted = false) (ns : DWord) (frac : BitVec 16) (lock : Bool) :
    exec (.timeBaseDiscipline ns frac lock) s =
      .next ((s.disciplined ns frac).setField ptStat 0 0 (b2n (lock && (s.disciplined ns frac).inLock))) := by
  show execTimeBaseDiscipline ns frac lock s = _
  simp only [execTimeBaseDiscipline, event, run, State.disciplined, ptime_eq_zero, Bool.and_eq_true, decide_eq_true_eq]
  rfl

theorem timeBaseDiscipline_halted {s : State} (h : s.halted = true) (ns : DWord) (frac : BitVec 16) (lock : Bool) :
    exec (.timeBaseDiscipline ns frac lock) s = .refused (.notEnabled "TIME_BASE_DISCIPLINE") := by
  show execTimeBaseDiscipline ns frac lock s = _
  simp [execTimeBaseDiscipline, event, h]

/-! ### PTIME -/

/-- PTIME is a function of the two fields that hold it. -/
theorem ptime_congr {s t : State} (hn : t.ptimeNs = s.ptimeNs) (hf : t.ptimeFrac = s.ptimeFrac) : ptime t = ptime s := by
  rw [ptime, hn, hf, ptime]

@[simp] theorem ptime_ite (c : Prop) [Decidable c] (s t : State) : ptime (if c then s else t) = if c then ptime s else ptime t :=
  apply_ite ..

/-- A fold of steps that leave PTIME as it is. -/
theorem ptime_foldl {α : Type} {g : State → α → State} (hg : ∀ s a, ptime (g s a) = ptime s) (l : List α) (s : State) :
    ptime (l.foldl g s) = ptime s := by
  induction l generalizing s with
  | nil => rfl
  | cons a l ih => exact (ih _).trans (hg s a)

section
variable (s : State)

@[simp] theorem ptime_updWg (k : Nat) (g : Workgroup → Workgroup) : ptime (s.updWg k g) = ptime s := rfl
@[simp] theorem ptime_updWarp (k w : Nat) (g : Warp → Warp) : ptime (s.updWarp k w g) = ptime s := rfl
@[simp] theorem ptime_memWrite (g n v : Nat) : ptime (s.memWrite g n v) = ptime s := rfl
@[simp] theorem ptime_setCreg (off v : Nat) : ptime (s.setCreg off v) = ptime s := rfl
@[simp] theorem ptime_takeFree : ptime s.takeFree.2 = ptime s := rfl
@[simp] theorem ptime_cleanMem (g n : Nat) : ptime (s.cleanMem g n) = ptime s := by
  unfold State.cleanMem; split <;> rfl
@[simp] theorem ptime_cleanStore (core off n : Nat) : ptime (s.cleanStore core off n) = ptime s := by
  unfold State.cleanStore; split <;> rfl
@[simp] theorem ptime_cleanScratch (k a n : Nat) : ptime (s.cleanScratch k a n) = ptime s := ptime_cleanStore ..
@[simp] theorem ptime_scratchPut (k a n v : Nat) : ptime (s.scratchPut k a n v) = ptime s := rfl
@[simp] theorem ptime_mixWrite (mixed : Bool) (k : Nat) (put : Workgroup → Workgroup) :
    ptime (s.mixWrite mixed k put) = ptime s := by
  simp [State.mixWrite]
@[simp] theorem ptime_tileWrite (k t n : Nat) (v : Word) : ptime (s.tileWrite k t n v) = ptime s := by
  unfold State.tileWrite
  dsimp only
  split
  · exact ptime_mixWrite ..
  · split <;> rfl
@[simp] theorem ptime_setEngineWord (t kind off : Nat) (v : Word) : ptime (s.setEngineWord t kind off v) = ptime s := by
  unfold State.setEngineWord; split <;> simp
@[simp] theorem ptime_objPut (t kind off v n : Nat) : ptime (s.objPut t kind off v n) = ptime s := by
  induction n generalizing s off v with
  | zero => rfl
  | succ n ih => exact (ih _ _ _).trans (ptime_setEngineWord ..)
@[simp] theorem ptime_winPut (t addr size v : Nat) : ptime (s.winPut t addr size v) = ptime s := by
  unfold State.winPut
  dsimp only
  split
  · split <;> simp
  · split <;> simp
@[simp] theorem ptime_payOwed (u : Late) : ptime (s.payOwed u) = ptime s := by
  unfold State.payOwed
  split
  · split
    · rfl
    · exact ptime_winPut ..
  · rfl
@[simp] theorem ptime_payShown : ptime s.payShown = ptime s := ptime_foldl (fun s u => ptime_payOwed s u) _ _
@[simp] theorem ptime_updBar (k b : Nat) (f : Barrier → Barrier) : ptime (s.updBar k b f) = ptime s := by
  unfold State.updBar
  dsimp only
  split
  · exact (ptime_memWrite ..).trans (ptime_updWg ..)
  · exact ptime_updWg ..
@[simp] theorem ptime_advanceBar (k b : Nat) : ptime (s.advanceBar k b) = ptime s :=
  (ptime_congr (s := s.updBar k b Barrier.advance) rfl rfl).trans (ptime_updBar ..)
@[simp] theorem ptime_evalBars : ptime s.evalBars = ptime s :=
  ptime_foldl (fun s x => by split <;> simp) _ _
@[simp] theorem ptime_evalFor (n : Nat) : ptime (s.evalFor n) = ptime s := by
  induction n generalizing s with
  | zero => rfl
  | succ n ih => exact (ih _).trans (ptime_evalBars s)
@[simp] theorem ptime_noteSlack (n : Nat) : ptime (s.noteSlack n) = ptime s := by
  unfold State.noteSlack; split <;> rfl
@[simp] theorem ptime_auditPush (body : List Byte) : ptime (s.auditPush body) = ptime s := by
  unfold State.auditPush
  dsimp only
  split
  · rfl
  · exact ptime_foldl (fun s i => ptime_setCreg ..) _ _
@[simp] theorem ptime_auditHeadSign : ptime s.auditHeadSign = ptime s := ptime_auditPush ..
@[simp] theorem ptime_noteAudit : ptime s.noteAudit = ptime s := by
  unfold State.noteAudit; split <;> simp
@[simp] theorem ptime_noteStops : ptime s.noteStops = ptime s :=
  ptime_foldl (fun _ _ => ptime_foldl (fun _ _ => by dsimp only; split <;> rfl) _ _) _ _
@[simp] theorem ptime_noteCycles : ptime s.noteCycles = ptime s :=
  ptime_foldl (fun _ _ => ptime_foldl (fun _ _ => by split <;> rfl) _ _) _ _
@[simp] theorem ptime_noteReady : ptime s.noteReady = ptime s := by
  refine ptime_foldl (fun _ _ => ptime_foldl (fun _ _ => ?_) _ _) _ _
  dsimp only
  split
  · split <;> rfl
  · split
    · split <;> rfl
    · split <;> rfl

/-- Of what passes after a step, only `passPtime` moves PTIME. -/
theorem ptime_pass : ∃ u, ptime u = ptime s ∧ ptime s.pass = ptime (u.passPtime (s.ticks.headD 1)) := by
  unfold State.pass State.takeTicks
  cases h : s.ticks with
  | nil => exact ⟨{ s with cyc := s.cyc + BitVec.ofNat 64 1 }, ptime_congr rfl rfl, by simp⟩
  | cons n ns => exact ⟨{ s with ticks := ns, cyc := s.cyc + BitVec.ofNat 64 n }, ptime_congr rfl rfl, by simp⟩

end

/-- What `passPtime` adds to PTIME: `n` cycles of 0.5 ns and the slew (R270, R408). -/
theorem ptime_passPtime (s : State) (n : Nat) (running : ptime s ≠ 0) {slew : Int}
    (hs : max (-(n * 32768 / 10000 : Nat) : Int) (min (n * 32768 / 10000 : Nat) s.ptimeBehind) = slew)
    (room : ((ptime s + n * 32768 : Nat) + slew).toNat < 2 ^ 80) :
    ptime (s.passPtime n) = ((ptime s + n * 32768 : Nat) + slew).toNat := by
  have hrun : ¬(decide (s.ptimeNs = 0) && decide (s.ptimeFrac = 0)) = true := by
    simpa [ptime_eq_zero] using running
  unfold State.passPtime
  rw [if_neg hrun]
  dsimp only
  rw [hs, ← ptime]
  generalize ((ptime s + n * 32768 : Nat) + slew).toNat = t at room
  simp only [ptime, BitVec.toNat_ofNat]
  omega

/-- PTIME follows its reference by at most 100 ppm (R408). -/
theorem passPtime_slews (s : State) (n : Nat) (running : ptime s ≠ 0) (room : ptime s + 2 * n * 32768 < 2 ^ 80) :
    ptime s + n * 32768 ≤ ptime (s.passPtime n) + n * 32768 / 10000 ∧
      ptime (s.passPtime n) ≤ ptime s + n * 32768 + n * 32768 / 10000 := by
  obtain ⟨slew, hs⟩ : ∃ slew, max (-(n * 32768 / 10000 : Nat) : Int) (min (n * 32768 / 10000 : Nat) s.ptimeBehind) = slew :=
    ⟨_, rfl⟩
  have bound : -(n * 32768 / 10000 : Nat) ≤ slew ∧ slew ≤ (n * 32768 / 10000 : Nat) := by omega
  rw [ptime_passPtime s n running hs (by omega)]
  omega

/-- PTIME never steps while time passes (R408). -/
theorem thenPass_slews (s t : State) (h : thenPass (.next s) = .next t) (running : ptime s ≠ 0)
    (room : ptime s + 2 * s.ticks.headD 1 * 32768 < 2 ^ 80) :
    ptime s + s.ticks.headD 1 * 32768 ≤ ptime t + s.ticks.headD 1 * 32768 / 10000 ∧
      ptime t ≤ ptime s + s.ticks.headD 1 * 32768 + s.ticks.headD 1 * 32768 / 10000 := by
  obtain rfl : s.pass = t := Host.Outcome.next.inj h
  obtain ⟨u, hu, hp⟩ := ptime_pass s
  rw [hp, ← hu]
  exact passPtime_slews u _ (by rwa [hu]) (by rwa [hu])

/-! ### A path that fails (R406)

`Loses s u`: between `s` and `u` requests may have ended and threads may have been told so, and nothing else of what the end of
another request looks at has changed. Every `loseReq` is such a change, so what one request's end leaves stays to the last. -/

theorem getLsbD_two_pow (i l : Nat) (h : l < 64) : (BitVec.ofNat 64 (2 ^ i)).getLsbD l = decide (l = i) := by
  rw [BitVec.getLsbD_ofNat, Nat.testBit_two_pow]
  simp [h, eq_comm]

theorem getLsbD_foldl_or (ls : List Nat) (m : BitVec 64) {l : Nat} (h : l < 64) :
    (ls.foldl (fun m i => m ||| BitVec.ofNat 64 (2 ^ i)) m).getLsbD l = (m.getLsbD l || decide (l ∈ ls)) := by
  induction ls generalizing m with
  | nil => simp
  | cons a ls ih => rw [List.foldl_cons, ih, BitVec.getLsbD_or, getLsbD_two_pow a l h]; simp [Bool.or_assoc]

/-- A lane below 64 of a list is in the list's mask. -/
theorem getLsbD_maskOf {ls : List Nat} {l : Nat} (hl : l ∈ ls) (h : l < 64) : (maskOf ls).getLsbD l = true := by
  rw [maskOf, getLsbD_foldl_or ls 0 h, decide_eq_true hl, Bool.or_true]

/-- A data error at an instruction is pending in a warp, for all lanes of a mask at least. -/
def Warp.toldAt (w : Warp) (pc : DWord) (m : BitVec 64) : Prop :=
  ∃ y ∈ w.pendTraps, y.cause = 9 ∧ y.pc = pc ∧ ∀ l, m.getLsbD l = true → y.mask.getLsbD l = true

theorem joins_same {t u : Trap} (h : t.joins u = true) (hc : t.cancel = 0) : t.cause = u.cause ∧ t.pc = u.pc := by
  simp_all [Trap.joins]

theorem merge_eq {u t : Trap} (h : t.joins u = true) (hc : t.cancel = 0) :
    (u.merge t).cause = u.cause ∧ (u.merge t).pc = u.pc ∧ (u.merge t).mask = u.mask ||| t.mask := by
  have same := joins_same h hc
  unfold Trap.merge
  dsimp only
  split <;> simp [same]

theorem toldAt_addTrap {w : Warp} {pc : DWord} {m : BitVec 64} (h : w.toldAt pc m) {t : Trap} (hc : t.cancel = 0) :
    (w.addTrap t).toldAt pc m := by
  obtain ⟨y, hy, cause, at_, mask⟩ := h
  unfold Warp.addTrap
  split
  · by_cases j : t.joins y = true
    · obtain ⟨mc, mp, mm⟩ := merge_eq j hc
      refine ⟨y.merge t, List.mem_map.2 ⟨y, hy, if_pos j⟩, mc.trans cause, mp.trans at_, fun l hl => ?_⟩
      rw [mm, BitVec.getLsbD_or, mask l hl, Bool.true_or]
    · exact ⟨y, List.mem_map.2 ⟨y, hy, if_neg j⟩, cause, at_, mask⟩
  · exact ⟨y, List.mem_append_left _ hy, cause, at_, mask⟩

theorem toldAt_addTrap_self (w : Warp) {t : Trap} (ht : t.cause = 9) (hc : t.cancel = 0) : (w.addTrap t).toldAt t.pc t.mask := by
  unfold Warp.addTrap
  split
  · next any =>
    obtain ⟨u, hu, j⟩ := List.any_eq_true.1 any
    obtain ⟨mc, mp, mm⟩ := merge_eq j hc
    have same := joins_same j hc
    refine ⟨u.merge t, List.mem_map.2 ⟨u, hu, if_pos j⟩, ?_, mp.trans same.2.symm, fun l hl => ?_⟩
    · rw [mc, ← same.1, ht]
    · rw [mm, BitVec.getLsbD_or, hl, Bool.or_true]
  · exact ⟨t, List.mem_append_right _ (List.mem_singleton_self t), ht, rfl, fun _ hl => hl⟩

/-- `v` is the warp `w` after the end of requests: the threads wait as before, and what they were told they still are. -/
structure Warp.Loses (w v : Warp) : Prop where
  wait : ∀ l, (v.lane l).wait = (w.lane l).wait
  told : ∀ pc m, w.toldAt pc m → v.toldAt pc m
  lost : ∀ x ∈ w.lost, x ∈ v.lost

theorem warpLoses_refl (w : Warp) : w.Loses w := ⟨fun _ => rfl, fun _ _ h => h, fun _ h => h⟩

theorem warpLoses_trans {w v x : Warp} (h : w.Loses v) (k : v.Loses x) : w.Loses x :=
  ⟨fun l => (k.wait l).trans (h.wait l), fun pc m t => k.told pc m (h.told pc m t), fun x m => k.lost x (h.lost x m)⟩

/-- A change of no field that the relation speaks of. -/
theorem warpLoses_of_eq {w v : Warp} (hl : v.lanes = w.lanes) (ht : v.pendTraps = w.pendTraps) (hx : v.lost = w.lost) : w.Loses v :=
  ⟨fun l => by rw [Warp.lane, hl, Warp.lane], fun pc m h => by rwa [Warp.toldAt, ht], fun x h => by rwa [hx]⟩

theorem warpLoses_bump (w : Warp) (c : Counter) (up : Bool) : w.Loses (w.bump c up) := by
  cases c <;> exact warpLoses_of_eq rfl rfl rfl

theorem warpLoses_setRegIn (w : Warp) (h : Bool) (r l : Nat) (v : Word) : w.Loses (w.setRegIn h r l v) := by
  unfold Warp.setRegIn
  split
  · exact warpLoses_refl w
  · split <;> exact warpLoses_of_eq rfl rfl rfl

theorem warpLoses_foldl {α : Type} {g : Warp → α → Warp} (hg : ∀ (w : Warp) a, w.Loses (g w a)) (l : List α) (w : Warp) :
    w.Loses (l.foldl g w) := by
  induction l generalizing w with
  | nil => exact warpLoses_refl w
  | cons a l ih => exact warpLoses_trans (hg w a) (ih _)

theorem warpLoses_writeEscort (w : Warp) (l base : Nat) (vs : List Word) : w.Loses (w.writeEscort l base vs) :=
  warpLoses_foldl (fun w _ => warpLoses_setRegIn w ..) _ _

theorem warpLoses_addTrap (w : Warp) {t : Trap} (hc : t.cancel = 0) : w.Loses (w.addTrap t) where
  wait l := by unfold Warp.addTrap; split <;> rfl
  told pc m h := toldAt_addTrap h hc
  lost x h := by unfold Warp.addTrap; split <;> exact h

/-- `u` is `s` after the end of requests. -/
structure State.Loses (s u : State) : Prop where
  routes : u.routes = s.routes
  reqs : ∀ q ∈ u.reqs, q ∈ s.reqs
  status : ∀ k, (u.wg k).status = (s.wg k).status
  svstat : ∀ k, (u.wg k).svstat = (s.wg k).svstat
  warp : ∀ k w, (s.warp k w).Loses (u.warp k w)

theorem loses_refl (s : State) : s.Loses s := ⟨rfl, fun _ h => h, fun _ => rfl, fun _ => rfl, fun _ _ => warpLoses_refl _⟩

theorem loses_trans {s u t : State} (h : s.Loses u) (k : u.Loses t) : s.Loses t where
  routes := k.routes.trans h.routes
  reqs q m := h.reqs q (k.reqs q m)
  status j := (k.status j).trans (h.status j)
  svstat j := (k.svstat j).trans (h.svstat j)
  warp j w := warpLoses_trans (h.warp j w) (k.warp j w)

theorem loses_foldl {α : Type} {g : State → α → State} (hg : ∀ (s : State) a, s.Loses (g s a)) (l : List α) (s : State) :
    s.Loses (l.foldl g s) := by
  induction l generalizing s with
  | nil => exact loses_refl s
  | cons a l ih => exact loses_trans (hg s a) (ih _)

theorem loses_updWarp (s : State) (k w : Nat) {g : Warp → Warp} (hg : ∀ x : Warp, x.Loses (g x)) : s.Loses (s.updWarp k w g) where
  routes := rfl
  reqs q h := h
  status j := by rw [State.updWarp, wg_updWg]; split <;> simp [*]
  svstat j := by rw [State.updWarp, wg_updWg]; split <;> simp [*]
  warp j v := by
    rw [warp_updWarp]
    split
    · next same => obtain ⟨rfl, rfl⟩ := same; exact hg _
    · exact warpLoses_refl _

theorem loses_of_eq {s u : State} (hr : u.routes = s.routes) (hq : u.reqs = s.reqs) (hw : u.wgs = s.wgs) : s.Loses u where
  routes := hr
  reqs q h := hq ▸ h
  status k := by rw [State.wg, hw, State.wg]
  svstat k := by rw [State.wg, hw, State.wg]
  warp k w := by
    have same : u.warp k w = s.warp k w := by rw [State.warp, State.wg, hw, State.warp, State.wg]
    rw [same]; exact warpLoses_refl _

theorem loses_memWriteBytes (s : State) (g : Nat) (bs : List Byte) : s.Loses (s.memWriteBytes g bs) := by
  induction bs generalizing s g with
  | nil => exact loses_refl s
  | cons b bs ih => exact loses_trans (loses_of_eq (u := s.memWrite g 1 b.toNat) rfl rfl rfl) (ih _ _)

theorem loses_setCreg (s : State) (off v : Nat) : s.Loses (s.setCreg off v) := loses_of_eq rfl rfl rfl

theorem loses_signalAgent (s : State) (part vec : Nat) (x : Signal) : s.Loses (s.signalAgent part vec x) := by
  unfold State.signalAgent; split <;> exact loses_of_eq rfl rfl rfl

theorem loses_logEvent (s : State) (part type ctx vq wgid : Nat) (data : List Byte) :
    s.Loses (s.logEvent part type ctx vq wgid data) := by
  unfold State.logEvent
  dsimp only
  split
  · split
    · exact loses_trans (loses_trans (loses_memWriteBytes s _ _) (loses_setCreg _ _ _)) (loses_signalAgent ..)
    · exact loses_trans (loses_memWriteBytes s _ _) (loses_setCreg _ _ _)
  · exact loses_setCreg ..

theorem loses_retire (s : State) (r : Req) : s.Loses (s.retire r) := by
  have rest : s.Loses { s with reqs := s.reqs.filter fun q => q.id != r.id } :=
    ⟨rfl, fun q h => List.mem_of_mem_filter h, fun _ => rfl, fun _ => rfl, fun _ _ => warpLoses_refl _⟩
  unfold State.retire
  dsimp only
  split
  · exact rest
  · exact loses_trans rest (loses_updWarp _ _ _ fun x => warpLoses_bump x _ _)

theorem loses_returnEscort (s : State) (r : Req) : s.Loses (s.returnEscort r) := by
  unfold State.returnEscort
  split
  · exact loses_refl s
  · exact loses_updWarp _ _ _ fun w => warpLoses_foldl (fun w x => warpLoses_writeEscort w ..) _ _

theorem loses_addTrap (s : State) (k w : Nat) {t : Trap} (hc : t.cancel = 0) : s.Loses (s.addTrap k w t) :=
  loses_updWarp _ _ _ fun x => warpLoses_addTrap x hc

theorem loses_failReq (s : State) (r : Req) (cause detail : Nat) : s.Loses (s.failReq r cause detail) := by
  unfold State.failReq
  dsimp only
  refine loses_trans ?_ (loses_retire _ r)
  split
  · exact loses_trans (loses_returnEscort s r) (loses_addTrap _ _ _ rfl)
  · exact loses_returnEscort s r

theorem loses_lostWaiters (s : State) (r : Req) : s.Loses (s.lostWaiters r) := by
  refine loses_foldl (fun s pc => ?_) _ _
  exact loses_addTrap s _ _ rfl

theorem loses_noteLost (s : State) (r : Req) : s.Loses (s.noteLost r) :=
  loses_updWarp _ _ _ fun _ => ⟨fun _ => rfl, fun _ _ h => h, fun _ h => List.mem_append_left _ h⟩

/-- A thread that did not wait for a store does not wait for it after other requests have ended. -/
theorem waitsForStore_loses {s u : State} (h : s.Loses u) {k w l group : Nat} (hw : s.waitsForStore k w l group = false) :
    u.waitsForStore k w l group = false := by
  have wait : (u.lane k w l).wait = (s.lane k w l).wait := (h.warp k w).wait l
  unfold State.waitsForStore at hw ⊢
  rw [wait, h.svstat k]
  revert hw
  split
  · exact id
  · exact id
  · exact id
  · simp only [Bool.and_eq_false_imp, List.any_eq_false]
    exact fun none before q hq => none before q (h.reqs q hq)
  · exact id

/-- The state in which a store ends that no path is left for: it is logged, and its threads are told or will be. -/
theorem loseReq_store {r : Req} (hs : r.stores = true) (ha : r.mi.atomic = false) (s : State) :
    ∃ u, s.Loses u ∧ s.loseReq r = (if u.takes r then (u.lostWaiters r).noteLost r else u).retire r := by
  refine ⟨_, loses_logEvent s (s.reqPart r) 6 (s.launch (keyLaunch r.wg)).ctx (s.launch (keyLaunch r.wg)).vq (keyWgid r.wg)
    (bytesOf 4 (r.pa / pkgSpan) ++ bytesOf 16 r.va), ?_⟩
  rw [State.loseReq, if_pos (by simp [hs, ha])]

theorem loseReq_load {r : Req} (h : r.stores = false ∨ r.mi.atomic = true) (s : State) : s.loseReq r = s.failReq r 9 0 := by
  rw [State.loseReq, if_neg (by cases h <;> simp [*])]

theorem loses_loseReq (s : State) (r : Req) : s.Loses (s.loseReq r) := by
  by_cases h : r.stores = false ∨ r.mi.atomic = true
  · rw [loseReq_load h]; exact loses_failReq ..
  · obtain ⟨hs, ha⟩ : r.stores = true ∧ r.mi.atomic = false := by simpa using h
    obtain ⟨u, hu, e⟩ := loseReq_store hs ha s
    rw [e]
    refine loses_trans hu (loses_trans ?_ (loses_retire _ r))
    split
    · exact loses_trans (loses_lostWaiters u r) (loses_noteLost _ r)
    · exact loses_refl u

theorem retire_id (s : State) (r : Req) : ∀ q ∈ (s.retire r).reqs, q.id ≠ r.id := by
  have rest : ∀ q ∈ s.reqs.filter fun q => q.id != r.id, q.id ≠ r.id := by simp
  unfold State.retire
  dsimp only
  split <;> exact rest

/-- A lost request is over. -/
theorem loseReq_id (s : State) (r : Req) : ∀ q ∈ (s.loseReq r).reqs, q.id ≠ r.id := by
  by_cases h : r.stores = false ∨ r.mi.atomic = true
  · rw [loseReq_load h]; exact retire_id _ r
  · obtain ⟨hs, ha⟩ : r.stores = true ∧ r.mi.atomic = false := by simpa using h
    obtain ⟨u, -, e⟩ := loseReq_store hs ha s
    rw [e]; exact retire_id _ r

/-- A lost load or atomic tells its lanes of a data error at its instruction. -/
theorem loseReq_told {s : State} {r : Req} (h : r.stores = false ∨ r.mi.atomic = true) (hr : (s.wg r.wg).status = .resident) :
    ((s.loseReq r).warp r.wg r.warp).toldAt r.pc (maskOf r.lanes) := by
  rw [loseReq_load h, State.failReq, if_pos (by simp [State.takes, hr])]
  refine ((loses_retire _ r).warp _ _).told _ _ ?_
  rw [State.addTrap, warp_updWarp_same]
  exact toldAt_addTrap_self _ rfl rfl

/-- A lost store is noted for the lanes that do not wait for it. -/
theorem loseReq_noted {s : State} {r : Req} (hs : r.stores = true) (ha : r.mi.atomic = false)
    (hr : (s.wg r.wg).status = .resident) {x : Slot} (hx : x ∈ r.slots)
    (hw : s.waitsForStore r.wg r.warp x.lane r.group = false) :
    (x.lane, x.addr) ∈ ((s.loseReq r).warp r.wg r.warp).lost := by
  obtain ⟨u, hu, e⟩ := loseReq_store hs ha s
  rw [e, if_pos (by simp [State.takes, hu.status, hr])]
  refine ((loses_retire _ r).warp _ _).lost _ ?_
  rw [State.noteLost, warp_updWarp_same]
  have quiet := waitsForStore_loses (loses_trans hu (loses_lostWaiters u r)) hw
  exact List.mem_append_right _ (List.mem_map.2 ⟨x, List.mem_filter.2 ⟨hx, by rw [quiet]; rfl⟩, rfl⟩)

/-- Around the end of one of some lost requests, only requests end. -/
theorem foldl_loseReq_split {l : List Req} {r : Req} (hr : r ∈ l) (s : State) :
    ∃ u, s.Loses u ∧ (u.loseReq r).Loses (l.foldl (fun s r => s.loseReq r) s) := by
  obtain ⟨before, after, rfl⟩ := List.append_of_mem hr
  refine ⟨before.foldl (fun s r => s.loseReq r) s, loses_foldl loses_loseReq _ _, ?_⟩
  rw [List.foldl_append, List.foldl_cons]
  exact loses_foldl loses_loseReq _ _

/-- The state after a path's failure that leaves some paths. -/
def State.pathLost (s : State) (pkg : Nat) (left : List Route) : State :=
  (if left.isEmpty then s.reqs.filter fun r => s.outOn pkg r else []).foldl (fun s r => s.loseReq r)
    { s with routes := SMap.set [] s.routes pkg left }

theorem pathFailure_eq {s : State} {pkg path : Nat} (up : ∃ r ∈ s.pathsTo pkg, r.path = path) :
    exec (.pathFailure pkg path) s = .next (s.pathLost pkg ((s.pathsTo pkg).filter fun r => r.path != path)) := by
  have found : ((SMap.get [] s.routes pkg).any fun p => p.path == path) = true := by
    simpa [State.pathsTo] using up
  show execPathFailure pkg path s = _
  simp only [execPathFailure, event, found, if_true]
  rfl

theorem pathLost_routes (s : State) (pkg : Nat) (left : List Route) : (s.pathLost pkg left).pathsTo pkg = left := by
  rw [State.pathsTo, State.pathLost, (loses_foldl loses_loseReq _ _).routes]
  exact SMap.get_set_same ..

/-- The failure of a path (R406). -/
theorem pathFailure_ends (s : State) (pkg path : Nat) (up : ∃ r ∈ s.pathsTo pkg, r.path = path) :
    let left := (s.pathsTo pkg).filter fun r => r.path != path
    ∃ t, exec (.pathFailure pkg path) s = .next t ∧ t.pathsTo pkg = left ∧
      (left ≠ [] → t = { s with routes := t.routes }) ∧
      (left = [] → ∀ r ∈ s.reqs, s.outOn pkg r = true → (∀ q ∈ t.reqs, q.id ≠ r.id) ∧
        ((r.stores = false ∨ r.mi.atomic = true) → (s.wg r.wg).status = .resident → ∃ y ∈ (t.warp r.wg r.warp).pendTraps, y.cause = 9 ∧
          y.pc = r.pc ∧ ∀ x ∈ r.slots, x.lane < 64 → y.mask.getLsbD x.lane = true) ∧
        (r.stores = true → r.mi.atomic = false → (s.wg r.wg).status = .resident → ∀ x ∈ r.slots,
          s.waitsForStore r.wg r.warp x.lane r.group = false →
            (x.lane, x.addr) ∈ (t.warp r.wg r.warp).lost)) := by
  intro left
  refine ⟨_, pathFailure_eq up, pathLost_routes s pkg left, fun some => ?_, fun none r hr out => ?_⟩
  · have more : left.isEmpty = false := by simpa using some
    simp [State.pathLost, left, more]
  · have mine : r ∈ s.reqs.filter fun r => s.outOn pkg r := List.mem_filter.2 ⟨hr, out⟩
    obtain ⟨u, before, after⟩ := foldl_loseReq_split mine { s with routes := SMap.set [] s.routes pkg [] }
    rw [show (s.pathsTo pkg).filter (fun r => r.path != path) = [] from none]
    refine ⟨fun q hq => loseReq_id u r q (after.reqs q hq), fun kind res => ?_, fun hs ha res x hx hw => ?_⟩
    · obtain ⟨y, hy, cause, at_, mask⟩ := (after.warp r.wg r.warp).told _ _ (loseReq_told kind ((before.status _).trans res))
      exact ⟨y, hy, cause, at_, fun x hx lt => mask _ (getLsbD_maskOf (List.mem_map.2 ⟨x, hx, rfl⟩) lt)⟩
    · exact (after.warp r.wg r.warp).lost _
        (loseReq_noted hs ha ((before.status _).trans res) hx (waitsForStore_loses before hw))

/-! ### Collective groups (R409) -/

/-- Instances that are over change neither the workgroups nor the groups. -/
theorem foldl_loseOcc_frame (l : List Nat) (s : State) :
    (l.foldl (fun s k => s.loseOcc k) s).wgs = s.wgs ∧ (l.foldl (fun s k => s.loseOcc k) s).groups = s.groups ∧
      (l.foldl (fun s k => s.loseOcc k) s).launches = s.launches := by
  induction l generalizing s with
  | nil => exact ⟨rfl, rfl, rfl⟩
  | cons k l ih => exact ih (s.loseOcc k)

/-- A count of a group starts afresh in some workgroups. -/
def State.collAfresh (s : State) (n : Nat) (ks : List Nat) : State :=
  ks.foldl (fun s k => s.updWg k fun g => { g with collNext := SMap.set 0 g.collNext n 0 }) s

theorem recountGroup_eq (s : State) (ctx n : Nat) :
    s.recountGroup ctx n = s.collAfresh n (s.wgs.keys.filter fun k => s.ctxNo k == ctx) := rfl

section
variable (s : State) (n : Nat) (ks : List Nat)

theorem collAfresh_mem : (s.collAfresh n ks).mem = s.mem := by
  simp [State.collAfresh]

theorem collAfresh_groups : (s.collAfresh n ks).groups = s.groups := by
  induction ks generalizing s with
  | nil => rfl
  | cons k ks ih => exact ih _

theorem collNext_collAfresh (k m : Nat) : SMap.get 0 ((s.collAfresh n ks).wg k).collNext m =
    if k ∈ ks ∧ m = n then 0 else SMap.get 0 (s.wg k).collNext m := by
  induction ks generalizing s with
  | nil => simp [State.collAfresh]
  | cons j ks ih =>
    refine (ih _).trans ?_
    rw [wg_updWg]
    by_cases hm : m = n
    · by_cases hk : k = j <;> simp [hm, hk]
    · by_cases hk : k = j <;> simp [hm, hk, SMap.get_set]

end

/-- A group's members are each named once. -/
theorem all_once {s : State} {l : List (Nat × Nat × Nat)} (once : l.Nodup) (pod : ∀ m ∈ l, s.inPod m.1 = true) :
    (l.all fun m => s.inPod m.1 && l.countP (· == m) == 1) = true := by
  rw [List.all_eq_true]
  intro m hm
  have one : l.countP (· == m) = 1 := List.count_eq_one_of_mem once hm
  simp [pod m hm, one]

/-- The state after the creation or change of a group. -/
def State.groupWritten (s : State) (ctx n : Nat) (l : List (Nat × Nat × Nat)) : State :=
  let s1 := ((s.groupOccs ctx n).foldl (fun s k => s.loseOcc k) s).recountGroup ctx n
  { s1 with groups := SMap.set {} s1.groups (groupKey ctx n) { members := l, gen := (s.group? ctx n).gen + 1 } }

theorem performGroup_busy {s : State} {ctx n : Nat} (h : s.groupBusy ctx n = true) (l : List (Nat × Nat × Nat)) :
    s.perform (.group ctx n (some l)) = .refused (.notEnabled "GROUP") := by
  simp [State.perform, State.writeGroup, event, h]

theorem performGroup_eq {s : State} {ctx n : Nat} {l : List (Nat × Nat × Nat)} (hn : n < 64) (run : s.halted = false)
    (idle : s.groupBusy ctx n = false) (size : l.length ≤ 4096) (once : l.Nodup) (pod : ∀ m ∈ l, s.inPod m.1 = true) :
    s.perform (.group ctx n (some l)) = .next (s.groupWritten ctx n l) := by
  have each := all_once once pod
  simp only [State.perform, State.writeGroup, event, Option.getD_some, decide_eq_true hn, run, idle, decide_eq_true size, each]
  rfl

section
variable (s : State) (ctx n : Nat) (l : List (Nat × Nat × Nat))

theorem groupWritten_wg (k m : Nat) : SMap.get 0 ((s.groupWritten ctx n l).wg k).collNext m =
    if (k ∈ s.wgs.keys.filter fun k => s.ctxNo k == ctx) ∧ m = n then 0 else SMap.get 0 (s.wg k).collNext m := by
  obtain ⟨wgs, -, launches⟩ := foldl_loseOcc_frame (s.groupOccs ctx n) s
  have same_wg : ((s.groupOccs ctx n).foldl (fun s k => s.loseOcc k) s).wg k = s.wg k := by rw [State.wg, wgs, State.wg]
  have same_ctx : ∀ j, ((s.groupOccs ctx n).foldl (fun s k => s.loseOcc k) s).ctxNo j = s.ctxNo j := fun j => by
    rw [State.ctxNo, State.launch, launches, State.ctxNo, State.launch]
  show SMap.get 0 ((State.recountGroup _ ctx n).wg k).collNext m = _
  rw [recountGroup_eq, collNext_collAfresh, same_wg, wgs, funext same_ctx]

theorem groupWritten_group? (c m : Nat) : (s.groupWritten ctx n l).group? c m =
    if c * 64 + m = ctx * 64 + n then { members := l, gen := (s.group? ctx n).gen + 1 } else s.group? c m := by
  obtain ⟨-, groups, -⟩ := foldl_loseOcc_frame (s.groupOccs ctx n) s
  rw [State.group?, State.groupWritten]
  dsimp only
  rw [recountGroup_eq, collAfresh_groups, groups, groupKey, SMap.get_set]
  rfl

end

/-- The writing of a collective group (R337, R409). -/
theorem performGroup_writes (s : State) (ctx n : Nat) (l : List (Nat × Nat × Nat)) (hn : n < 64) :
    (s.groupBusy ctx n = true → s.perform (.group ctx n (some l)) = .refused (.notEnabled "GROUP")) ∧
    (s.halted = false → s.groupBusy ctx n = false → l.length ≤ 4096 → l.Nodup → (∀ m ∈ l, s.inPod m.1 = true) →
      ∃ t, s.perform (.group ctx n (some l)) = .next t ∧ t.mem = s.mem ∧
        t.group? ctx n = { members := l, gen := (s.group? ctx n).gen + 1 } ∧
        (∀ c m, m < 64 → (c, m) ≠ (ctx, n) → t.group? c m = s.group? c m) ∧
        ∀ k, (k ∈ s.wgs.keys → s.ctxNo k = ctx → SMap.get 0 (t.wg k).collNext n = 0) ∧
          ∀ m, m ≠ n → SMap.get 0 (t.wg k).collNext m = SMap.get 0 (s.wg k).collNext m) := by
  refine ⟨fun busy => performGroup_busy busy l, fun run idle size once pod =>
    ⟨_, performGroup_eq hn run idle size once pod, ?_, ?_, fun c m hm other => ?_, fun k => ⟨fun hk ctx_k => ?_, fun m hm => ?_⟩⟩⟩
  · simp [State.groupWritten]
  · rw [groupWritten_group?, if_pos rfl]
  · have apart : c * 64 + m ≠ ctx * 64 + n := fun same => other (Prod.ext (by dsimp only; omega) (by dsimp only; omega))
    rw [groupWritten_group?, if_neg apart]
  · rw [groupWritten_wg, if_pos ⟨List.mem_filter.2 ⟨hk, beq_iff_eq.2 ctx_k⟩, rfl⟩]
  · rw [groupWritten_wg, if_neg fun h => hm h.2]

/-! ### The clauses -/

/-- Accesses of the host (R404, R422). -/
theorem hostRequest_accesses (s : State) (bar addr size pa : Nat) (v : QWord) (ok : accessOk addr size = true)
    (at_ : s.barAddr bar addr = some pa) :
    let g := s.own pa
    let dead : Prop := s.reservedAccess pa size = true ∨ s.reaches hostPort pa = false ∨
      (s.halted = true ∧ pa / 4 * 4 ≠ cregBase + bootStat)
    let dram : Prop := (s.homeDie g).isSome = true ∧ s.badAt g size = false
    (dead → exec (.hostRequest bar addr size none) s =
        .next ((s.auditEvent 1 hostPort pa).signal (.replyToHost (2 ^ (8 * size) - 1))) ∧
      exec (.hostRequest bar addr size (some v)) s = .next (s.auditEvent 1 hostPort pa)) ∧
    (¬dead → dram → pa < pkgSpan →
      exec (.hostRequest bar addr size none) s = .next (s.signal (.replyToHost (s.mem.read (s.canon g) size))) ∧
      ∃ t, exec (.hostRequest bar addr size (some v)) s = .next t ∧ written s t ∧
        t.mem = s.mem.write (s.canon g) size v.toNat) ∧
    (¬dead → bar = 0 → size = 4 → exec (.hostRequest bar addr size none) s = .next (s.signal (.replyToHost (s.creg addr)))) := by
  simp only [← hostDead_iff, Bool.not_eq_true]
  refine ⟨fun dead => ⟨hostRequest_dead ok at_ dead none, hostRequest_dead ok at_ dead (some v)⟩, ?_, ?_⟩
  · rintro served ⟨hd, hb⟩ hpa
    have run := hostRequest_served ok at_ served (devHeld_dram hpa hd)
    refine ⟨?_, _, run (some v), devWrite_dram_written hpa hd ..⟩
    rw [run none, devRead_dram hpa hd hb]
  · rintro served rfl rfl
    have inBar : addr < 2 ^ 32 ∧ cregBase + addr = pa := by simpa [State.barAddr] using at_
    obtain ⟨lt, rfl⟩ := inBar
    have aligned : addr % 4 = 0 := by simpa [accessOk] using ok
    rw [hostRequest_served ok at_ served (devHeld_creg s lt 4) none, devRead_creg s lt aligned]

/-- Accesses of the management cluster (R18, R32, R422). -/
theorem clusterAccess_accesses (s : State) (pa size : Nat) (v : QWord) (ok : accessOk pa size = true) (hpa : pa < pkgSpan) :
    let g := s.own pa
    let reached : Prop := s.halted = false ∧ s.reservedAccess pa size = false ∧ s.reaches clusterPort pa = true
    let dram : Prop := (s.homeDie g).isSome = true ∧ s.badAt g size = false
    (s.halted = true → ∀ w, exec (.managementClusterAccess pa size w) s = .refused (.notEnabled "MANAGEMENT_CLUSTER_ACCESS")) ∧
    (s.halted = false → s.reservedAccess pa size = true →
      exec (.managementClusterAccess pa size none) s = .next ({ s with busError := true, busAddr := pa }.signal (.replyToCluster 0)) ∧
      exec (.managementClusterAccess pa size (some v)) s = .next { s with busError := true, busAddr := pa }) ∧
    (s.halted = false → s.reservedAccess pa size = false → s.reaches clusterPort pa = false →
      exec (.managementClusterAccess pa size none) s = .next ((s.auditEvent 1 clusterPort pa).signal (.replyToCluster 0)) ∧
      exec (.managementClusterAccess pa size (some v)) s = .next (s.auditEvent 1 clusterPort pa)) ∧
    (reached → dram → exec (.managementClusterAccess pa size none) s = .next (s.signal (.replyToCluster (s.mem.read (s.canon g) size))) ∧
      ∃ t, exec (.managementClusterAccess pa size (some v)) s = .next t ∧ written s t ∧
        t.mem = s.mem.write (s.canon g) size v.toNat) := by
  refine ⟨fun h => clusterAccess_halted h pa size, fun run h => ?_, fun run h hr => ?_, ?_⟩
  · have eq := clusterAccess_reserved ok hpa run h
    exact ⟨eq none, eq (some v)⟩
  · have eq := clusterAccess_forbidden ok hpa run h hr
    exact ⟨eq none, eq (some v)⟩
  · rintro ⟨run, h, hr⟩ ⟨hd, hb⟩
    have eq := clusterAccess_served ok hpa run h hr (devHeld_dram hpa hd)
    refine ⟨?_, _, eq (some v), devWrite_dram_written hpa hd ..⟩
    rw [eq none, devRead_dram hpa hd hb]

/-- Writes of registers (R5, R31). -/
theorem registerWrite_writes (s : State) (agent off : Nat) (v : Word) (ha : off % 4 = 0) (ho : off < 2 ^ 32) :
    (∀ w m, cregAccess off = some (w, m) → w ≠ .nobody →
      (s.mayWrite agent off = false → exec (.registerWrite agent off v) s = .next (s.auditEvent 2 agent off)) ∧
      (s.mayWrite agent off = true → s.regCommand agent off v = none → s.rowGone off = false →
        ∃ t, exec (.registerWrite agent off v) s = .next t ∧
        t = { s with cregs := t.cregs } ∧ t.creg off = ((v &&& m) ||| (BitVec.ofNat 32 (s.creg off) &&& ~~~m)).toNat ∧
        ∀ o, o ≠ off → t.creg o = s.creg o)) ∧
    (∀ m, cregAccess off = some (.nobody, m) ∨ cregAccess off = none → s.connected s.pkg agent 576 = true →
      exec (.registerWrite agent off v) s = .next s) := by
  simp only [registerWrite_eq s agent off v ha ho]
  refine ⟨fun w m hc hw => ⟨fun h => ?_, fun h hn hr => ?_⟩, fun m hc conn => ?_⟩
  · rw [writeReg_forbidden hw hc h]
  · refine ⟨_, by rw [writeReg_plain hw hc h hn hr], setCreg_eq .., ?_, fun o => creg_setCreg_other s _⟩
    rw [creg_setCreg_same, Nat.mod_eq_of_lt (BitVec.isLt _)]
  · rw [writeReg_nobody (hc.imp_left fun e => ⟨m, e⟩) conn]

/-- A discipline of the time base (R408). -/
theorem timeBaseDiscipline_sets (s : State) (ns : DWord) (frac : BitVec 16) (lock : Bool) :
    (s.halted = true → exec (.timeBaseDiscipline ns frac lock) s = .refused (.notEnabled "TIME_BASE_DISCIPLINE")) ∧
    (s.halted = false → ∃ t, exec (.timeBaseDiscipline ns frac lock) s = .next t ∧
      t = { s with cregs := t.cregs, ptimeNs := t.ptimeNs, ptimeFrac := t.ptimeFrac, ptimeBehind := t.ptimeBehind } ∧
      t.field ptStat 0 0 = (if lock = true ∧ t.ptimeBehind.natAbs ≤ 50 * 65536 then 1 else 0) ∧ (∀ o, o ≠ ptStat → t.creg o = s.creg o) ∧
      (ptime s = 0 → t.ptimeNs = ns ∧ t.ptimeFrac = frac ∧ t.ptimeBehind = 0) ∧
      (ptime s ≠ 0 → t.ptimeNs = s.ptimeNs ∧ t.ptimeFrac = s.ptimeFrac ∧
        t.ptimeBehind = (ns.toNat * 65536 + frac.toNat : Nat) - (ptime s : Int))) := by
  refine ⟨fun h => timeBaseDiscipline_halted h ns frac lock, fun run => ⟨_, timeBaseDiscipline_eq run ns frac lock, ?_, ?_, ?_, ?_, ?_⟩⟩
  · rw [State.setField, setCreg_eq, State.disciplined]
    split <;> rfl
  · rw [State.field, State.setField, creg_setCreg_same, bit0_setBits, setCreg_ptimeBehind]
    simp only [← inLock_iff]
    cases lock <;> cases (s.disciplined ns frac).inLock <;> rfl
  · intro o h
    rw [State.setField, creg_setCreg_other _ _ h, State.disciplined]
    split <;> rfl
  · intro zero
    simp [State.setField, State.disciplined, zero]
  · intro nonzero
    simp [State.setField, State.disciplined, nonzero]

/-- Settles O53, clause by clause. -/
theorem outsideAccesses : Obligations.OutsideAccesses := by
  unfold Obligations.OutsideAccesses
  exact ⟨hostRequest_accesses, clusterAccess_accesses, registerWrite_writes, timeBaseDiscipline_sets, thenPass_slews,
    pathFailure_ends, fun _ => rfl, performGroup_writes⟩

end Sys2Proof.Machine
end

section

/-!
# Special registers

O19 is refuted: its first clause, on ESCFREE, asks that `movs` read the register as the state before the issue has it, for every list of
workgroups. The charge of the issue rewrites its workgroup's entry, so a workgroup listed twice counts once less in U (R100). Where the
list is canonical, the two agree (`special80_charge`).
-/

namespace Sys2Proof.Machine

/-! ### The part that `movs` gives -/

/-- The part of a special register's value that `movs` gives D (R268). -/
def movsEffects (f : Fields) (s : State) (v : Nat → BitVec 80) : Effects :=
  match f.mod.toNat with
  | 0 => toD f s fun l => (v l).setWidth 32
  | 1 => toD f s fun l => (v l >>> 32).setWidth 32
  | 2 => toD f s fun l => (v l >>> 64).setWidth 32
  | _ => toPair f s fun l => (v l).setWidth 64

/-- `movs` gives the values that the registers have after the charge of its own issue. -/
theorem movs_completes (f : Fields) (s : State) :
    Completes (.movs f) s (movsEffects f s fun l => (s.charge f).special80 f.a.toNat l) := by
  intro run
  rw [show exec (.movs f) s = execMovs f s from rfl, execMovs, issue,
    issueHeld_runs (held := heldAtIssue (.movs f) s) _ run rfl]
  refine ⟨_, rfl, ?_⟩
  rw [show (Instr.movs f).fields = f from rfl, movsEffects, Fields.modN]
  generalize f.mod.toNat = part
  match part with
  | 0 | 1 | 2 => exact writeD_executed s f _
  | _ + 3 => exact writePair_executed s f _

/-- An instruction has one outcome. -/
theorem reg_eq_of_completes {i : Instr} {s : State} {e e' : Effects} (h : Completes i s e) (h' : Completes i s e') (run : Runs i s)
    (r l : Nat) : (e.reg r l).getD (s.curW.reg r l) = (e'.reg r l).getD (s.curW.reg r l) := by
  obtain ⟨t, ht, he⟩ := h run
  obtain ⟨t', ht', he'⟩ := h' run
  obtain rfl : t = t' := by simpa using ht.symm.trans ht'
  exact (he.regs r l).symm.trans (he'.regs r l)

/-- What D reads in a guard-true lane after `movs` of bits 31:0 to a general register. -/
theorem movsEffects_low {f : Fields} {s : State} (v : Nat → BitVec 80) {l : Nat} (old : Word) (low : f.mod.toNat = 0)
    (general : f.kinds.getLsbD 0 = false) (hd : f.d.toNat ≠ 255) (hl : l ∈ s.trueLanes f) :
    ((movsEffects f s v).reg f.d.toNat l).getD old = (v l).setWidth 32 := by
  simp only [movsEffects, low, toD, general, Bool.false_eq_true, if_false]
  rw [if_pos ⟨trivial, hd, hl⟩, Option.getD_some]

/-! ### A workgroup listed twice -/

/-- The demonstration state with its one workgroup listed twice. -/
def listedTwice : State := { Tests.demo 2 [] with wgs := (Tests.demo 2 []).wgs ++ (Tests.demo 2 []).wgs }

/-- `movs` of ESCFREE, bits 31:0, to `g3`. -/
def movsEscfree : Fields := { plainFields with d := 3, a := 14 }

/-- The workgroup counts twice in U (R100), and once after a change of its warp, which lists it once. -/
theorem escUsed_listedTwice : listedTwice.escUsed 0 = 4096 ∧ (listedTwice.charge movsEscfree).escUsed 0 = 2048 := by
  decide +kernel

theorem special80_escfree (s : State) (l : Nat) : s.special80 14 l = BitVec.ofNat 80 (2 ^ 20 - s.escUsed s.curG.core) := rfl

/-- Refutes O19: with a workgroup of one warp and eight travel rows listed twice, ESCFREE is to read 2^20 - 4096, and `movs` gives
2^20 - 2048. -/
theorem not_specialRegisters : ¬ Obligations.SpecialRegisters := by
  unfold Obligations.SpecialRegisters
  rintro ⟨movs, -⟩
  obtain ⟨v, completes, reads⟩ := movs movsEscfree listedTwice
  have run : Runs (.movs movsEscfree) listedTwice := Tests.runs_of (by decide +kernel)
  have lane0 : 0 ∈ listedTwice.trueLanes movsEscfree := by decide +kernel
  obtain ⟨-, -, -, -, -, -, -, -, -, -, -, -, -, -, escfree, -⟩ := reads 0 lane0
  have said : v 0 = BitVec.ofNat 80 (2 ^ 20 - 4096) := by
    rw [escfree rfl, ← escUsed_listedTwice.1]; rfl
  have given : (listedTwice.charge movsEscfree).special80 14 0 = BitVec.ofNat 80 (2 ^ 20 - 2048) := by
    rw [special80_escfree, ← escUsed_listedTwice.2]; rfl
  have same := reg_eq_of_completes (e := movsEffects movsEscfree listedTwice v) completes (movs_completes movsEscfree listedTwice) run movsEscfree.d.toNat 0
  rw [movsEffects_low _ _ rfl rfl (by decide) lane0, movsEffects_low _ _ rfl rfl (by decide) lane0, said] at same
  have : (BitVec.ofNat 80 (2 ^ 20 - 4096)).setWidth 32 = (BitVec.ofNat 80 (2 ^ 20 - 2048)).setWidth 32 :=
    same.trans (congrArg _ given)
  exact absurd this (by decide)


/-! ### Canonical lists -/

/-- A write of a listed key of a canonical map leaves the keys as they are. -/
theorem keys_set {α : Type} [DecidableEq α] (d : α) (m : SMap α) (k : Nat) (v : α) (canonical : SMap.wf d m = true) (hk : k ∈ m.keys)
    (hv : v ≠ d) : (SMap.set d m k v).keys = m.keys := by
  rw [SMap.set, if_neg hv]
  replace canonical := ((SMap.wf_iff d m).1 canonical).1
  induction m with
  | nil => cases hk
  | cons p m ih =>
    obtain ⟨j, u⟩ := p
    obtain ⟨above, rising⟩ := List.pairwise_cons.1 canonical
    obtain rfl | hk := List.mem_cons.1 hk
    · have absent : SMap.erase k m = m := List.filter_eq_self.2 fun q hq => by simpa using (above q hq).ne'
      have first : SMap.insert k v m = (k, v) :: m := by
        cases m with
        | nil => rfl
        | cons q m => exact if_pos (above q (List.mem_cons_self ..))
      have erased : SMap.erase k ((k, u) :: m) = SMap.erase k m := by simp [SMap.erase]
      rw [erased, absent, first]
      rfl
    · obtain ⟨q, hq, rfl⟩ := List.mem_map.1 hk
      have before : j < q.1 := above q hq
      have erased : SMap.erase q.1 ((j, u) :: m) = (j, u) :: SMap.erase q.1 m := by simp [SMap.erase, before.ne]
      rw [erased, SMap.insert, if_neg before.le.not_gt]
      exact congrArg (j :: ·) (ih hk rising)

theorem get_unlisted {α : Type} (d : α) (m : SMap α) {k : Nat} (h : k ∉ m.keys) : SMap.get d m k = d := by
  induction m with
  | nil => rfl
  | cons p m ih =>
    obtain ⟨first, rest⟩ : k ≠ p.1 ∧ k ∉ m.map Prod.fst := by simpa [SMap.keys] using h
    exact (if_neg first.symm).trans (ih rest)

/-- With its workgroups listed once each, an issue leaves the use of a core's allowance as it is. -/
theorem escUsed_charge {s : State} (f : Fields) (core : Nat) (canonical : SMap.wf {} s.wgs = true) (run : s.canIssue = true) :
    (s.charge f).escUsed core = s.escUsed core := by
  have resident : s.curG.status = .resident := by
    simp only [State.canIssue, Bool.and_eq_true, decide_eq_true_eq] at run
    exact run.1.1
  have listed : s.curWg ∈ s.wgs.keys := by
    by_contra absent
    have waiting : s.curG = {} := get_unlisted _ _ absent
    rw [waiting] at resident
    cases resident
  have keys : (s.charge f).wgs.keys = s.wgs.keys := by
    refine keys_set _ _ _ _ canonical listed fun empty => ?_
    have := congrArg Workgroup.status empty
    exact absurd (resident.symm.trans this) (by decide)
  have same (k : Nat) : ((s.charge f).wg k).core = (s.wg k).core ∧ ((s.charge f).wg k).status = (s.wg k).status := by
    rw [charge_eq, State.updCur, State.updWarp, wg_updWg]
    split
    · next h => subst h; exact ⟨rfl, rfl⟩
    · exact ⟨rfl, rfl⟩
  have on : (s.charge f).wgsOn core = s.wgsOn core := by
    simp only [State.wgsOn, keys, same]
  rw [State.escUsed, on]
  rfl

/-- In such a state `movs` reads the register as it stood before the issue, and YDIST after this instruction's own decrement (R268). -/
theorem special80_charge {s : State} (f : Fields) (canonical : SMap.wf {} s.wgs = true) (run : s.canIssue = true) (n : Nat) {l : Nat}
    (hl : l ∈ s.group) : (s.charge f).special80 n l =
      if n = 15 then BitVec.ofNat 80 ((s.curW.lane l).ydist - 1) else s.special80 n l := by
  have rows : (s.charge f).curG.core = s.curG.core ∧ (s.charge f).curG.svstat = s.curG.svstat ∧
      (s.charge f).curG.sviter = s.curG.sviter ∧ (s.charge f).curG.svnorm = s.curG.svnorm := by
    rw [charge_eq, State.curG, State.updCur, updWarp_curWg, State.updWarp, wg_updWg_same]
    exact ⟨rfl, rfl, rfl, rfl⟩
  obtain ⟨core, svstat, sviter, svnorm⟩ := rows
  have esc := escUsed_charge f s.curG.core canonical run
  have moved := charged_lane s.curW s f l
  rw [if_pos hl] at moved
  simp only [State.special80, curW_charge, core, svstat, sviter, svnorm, esc, moved]
  rw [charged_eq]
  match n with
  | 15 => rfl
  | 0 | 1 | 2 | 3 | 4 | 5 | 6 | 7 | 8 | 9 | 10 | 11 | 12 | 13 | 14 | 16 | 17 | 18 | 19 | 20 => rfl
  | n + 21 => exact (if_neg (by omega)).symm

end Sys2Proof.Machine
end

section

/-!
# Virtual queues: their registers and the doorbell

Fields of a control register; the registers that an event on a virtual queue changes; what STATE says after it (R376, R378).
-/

namespace Sys2Proof.Machine

theorem testBit_bits (v hi lo i : Nat) : (bits v hi lo).testBit i = (decide (i < hi - lo + 1) && v.testBit (lo + i)) := by
  rw [bits, Nat.testBit_mod_two_pow, Nat.testBit_div_two_pow, Nat.add_comm i]

/-- The bits of a number whose bits hi:lo were replaced. -/
theorem testBit_setBits {hi lo : Nat} (h : lo ≤ hi) (v x i : Nat) :
    (setBits v hi lo x).testBit i = if lo ≤ i ∧ i ≤ hi then x.testBit (i - lo) else v.testBit i := by
  have parts : v = 2 ^ lo * (2 ^ (hi - lo + 1) * (v / 2 ^ lo / 2 ^ (hi - lo + 1)) + bits v hi lo) + v % 2 ^ lo := by
    rw [bits, Nat.div_add_mod, Nat.div_add_mod]
  have low := Nat.mod_lt v (Nat.two_pow_pos lo)
  have new : setBits v hi lo x =
      2 ^ lo * (2 ^ (hi - lo + 1) * (v / 2 ^ lo / 2 ^ (hi - lo + 1)) + x % 2 ^ (hi - lo + 1)) + v % 2 ^ lo := by
    have : setBits v hi lo x = v - bits v hi lo * 2 ^ lo + x % 2 ^ (hi - lo + 1) * 2 ^ lo := rfl
    rw [Nat.mul_add] at parts ⊢
    have := Nat.mul_comm (bits v hi lo) (2 ^ lo)
    have := Nat.mul_comm (x % 2 ^ (hi - lo + 1)) (2 ^ lo)
    omega
  rw [new, Nat.testBit_two_pow_mul_add _ low, Nat.testBit_two_pow_mul_add _ (Nat.mod_lt _ (Nat.two_pow_pos _))]
  by_cases below : i < lo
  · rw [if_pos below, if_neg (by omega), Nat.testBit_mod_two_pow]
    simp [below]
  · rw [if_neg below]
    by_cases inside : i - lo < hi - lo + 1
    · rw [if_pos inside, if_pos (by omega), Nat.testBit_mod_two_pow]
      simp [inside]
    · rw [if_neg inside, if_neg (by omega), Nat.testBit_div_two_pow, Nat.testBit_div_two_pow]
      congr 1; omega

theorem bits_setBits_same {hi lo : Nat} (h : lo ≤ hi) (hhi : hi < 32) (v x : Nat) :
    bits (setBits v hi lo x % 2 ^ 32) hi lo = x % 2 ^ (hi - lo + 1) := by
  refine Nat.eq_of_testBit_eq fun i => ?_
  rw [testBit_bits, Nat.testBit_mod_two_pow, Nat.testBit_mod_two_pow]
  by_cases inside : i < hi - lo + 1
  · rw [testBit_setBits h, if_pos (by omega)]
    simp [inside, show lo + i < 32 by omega]
  · simp [inside]

theorem bits_setBits_apart {hi lo hi' lo' : Nat} (h : lo ≤ hi) (hhi : hi' < 32) (apart : hi' < lo ∨ hi < lo') (h' : lo' ≤ hi') (v x : Nat) :
    bits (setBits v hi lo x % 2 ^ 32) hi' lo' = bits v hi' lo' := by
  refine Nat.eq_of_testBit_eq fun i => ?_
  rw [testBit_bits, testBit_bits, Nat.testBit_mod_two_pow]
  by_cases inside : i < hi' - lo' + 1
  · rw [testBit_setBits h, if_neg (by omega)]
    simp [show lo' + i < 32 by omega]
  · simp [inside]


section
variable (s : State)

theorem field_setField_same {off hi lo : Nat} (h : lo ≤ hi) (hhi : hi < 32) (x : Nat) :
    (s.setField off hi lo x).field off hi lo = x % 2 ^ (hi - lo + 1) := by
  rw [State.field, State.setField, creg_setCreg_same, bits_setBits_same h hhi]

theorem field_setField_apart {off hi lo hi' lo' : Nat} (h : lo ≤ hi) (hhi : hi' < 32) (apart : hi' < lo ∨ hi < lo') (h' : lo' ≤ hi')
    (x : Nat) : (s.setField off hi lo x).field off hi' lo' = s.field off hi' lo' := by
  rw [State.field, State.setField, creg_setCreg_same, bits_setBits_apart h hhi apart h', State.field]

/-! ### Changes of a few control registers -/

/-- `t` is `s` but for some control registers of its package. -/
structure RegsChanged (offs : List Nat) (s t : State) : Prop where
  frame : t = { s with cregs := t.cregs }
  others : ∀ o, o ∉ offs → t.creg o = s.creg o

variable {s}

theorem RegsChanged.refl (offs : List Nat) (s : State) : RegsChanged offs s s := ⟨rfl, fun _ _ => rfl⟩

theorem RegsChanged.trans {offs : List Nat} {t u : State} (h : RegsChanged offs s t) (h' : RegsChanged offs t u) :
    RegsChanged offs s u :=
  ⟨by rw [h'.frame, h.frame], fun o ho => (h'.others o ho).trans (h.others o ho)⟩

theorem RegsChanged.mono {offs offs' : List Nat} {t : State} (h : RegsChanged offs s t) (sub : ∀ o ∈ offs, o ∈ offs') :
    RegsChanged offs' s t := ⟨h.frame, fun o ho => h.others o fun m => ho (sub o m)⟩

theorem RegsChanged.beside {off : Nat} {t : State} (h : RegsChanged [off] s t) (other : Nat) : RegsChanged [other, off] s t :=
  h.mono fun _ m => List.mem_cons_of_mem _ m

theorem regsChanged_setCreg {offs : List Nat} {off : Nat} (h : off ∈ offs) (s : State) (v : Nat) : RegsChanged offs s (s.setCreg off v) :=
  ⟨rfl, fun _ ho => creg_setCreg_other s _ fun e => ho (e ▸ h)⟩

theorem regsChanged_setField {offs : List Nat} {off : Nat} (h : off ∈ offs) (s : State) (hi lo v : Nat) :
    RegsChanged offs s (s.setField off hi lo v) := regsChanged_setCreg h s _

theorem RegsChanged.launches {offs : List Nat} {t : State} (h : RegsChanged offs s t) : t.launches = s.launches := by rw [h.frame]
theorem RegsChanged.wgs {offs : List Nat} {t : State} (h : RegsChanged offs s t) : t.wgs = s.wgs := by rw [h.frame]
theorem RegsChanged.launch {offs : List Nat} {t : State} (h : RegsChanged offs s t) : t.launch = s.launch := by
  funext l; rw [State.launch, h.launches, State.launch]
theorem RegsChanged.launchesOf {offs : List Nat} {t : State} (h : RegsChanged offs s t) : t.launchesOf = s.launchesOf := by
  funext v; rw [State.launchesOf, h.launches, State.launchesOf]
theorem RegsChanged.waitsRestore {offs : List Nat} {t : State} (h : RegsChanged offs s t) : t.waitsRestore = s.waitsRestore := by
  funext v; rw [State.waitsRestore, h.wgs, h.launch, State.waitsRestore]

/-! ### Virtual queues -/

/-- The registers that are written of a queue's doorbell page lie beyond the hardware slots. -/
theorem RegsChanged.slotOf {offs : List Nat} {t : State} (h : RegsChanged offs s t) (beyond : ∀ o ∈ offs, 0x5000000 ≤ o) :
    t.slotOf = s.slotOf := by
  funext v
  unfold State.slotOf
  refine List.find?_congr fun q hq => ?_
  have hq : q < 48 := List.mem_range.1 hq
  have slot (o : Nat) (ho : o < 64) : t.creg (queueSlot q + o) = s.creg (queueSlot q + o) :=
    h.others _ fun m => by have := beyond _ m; simp only [queueSlot] at this; omega
  rw [State.field, slot 8 (by omega), slot 12 (by omega), State.field]

theorem regsChanged_setVq (s : State) (v st refuse : Nat) : RegsChanged [doorbell v + 8] s (s.setVq v st refuse) :=
  (regsChanged_setField (List.mem_singleton_self _) s ..).trans (regsChanged_setField (List.mem_singleton_self _) _ ..)

theorem vqState_setVq (s : State) (v st refuse : Nat) : (s.setVq v st refuse).vqState v = st % 8 := by
  rw [State.vqState, State.setVq, field_setField_apart _ (by omega) (by omega) (by omega) (by omega),
    field_setField_same _ (by omega) (by omega)]
  rfl

theorem refuse_setVq (s : State) (v st refuse : Nat) : (s.setVq v st refuse).field (doorbell v + 8) 11 8 = refuse % 16 := by
  rw [State.setVq, field_setField_same _ (by omega) (by omega)]
  rfl

/-- A launch of the queue has not ended. -/
def State.vqUnended (s : State) (v : Nat) : Prop := ∃ l ∈ s.launchesOf v, (s.launch l).finished = false

theorem RegsChanged.vqUnended {offs : List Nat} {t : State} (h : RegsChanged offs s t) : t.vqUnended = s.vqUnended := by
  funext v; rw [State.vqUnended, h.launchesOf, h.launch, State.vqUnended]

/-- The queue has no packet to start and no workgroup to dispatch. -/
def State.vqIdle (s : State) (v : Nat) : Prop := s.vqHead v = s.vqTail v ∧ ∀ l ∈ s.launchesOf v, (s.launch l).dispatched = true

/-- STATE of a queue that is neither halted nor cancelling (R378; log 55). -/
def State.vqNext (s : State) (v : Nat) : Nat :=
  if s.waitsRestore v then 3
  else if s.vqHead v == s.vqTail v && (s.launchesOf v).all fun l => (s.launch l).dispatched then 0
  else if (s.slotOf v).isSome then 1 else 2

theorem regsChanged_vqRefresh (s : State) (v : Nat) : RegsChanged [doorbell v + 8] s (s.vqRefresh v) := by
  have shown := regsChanged_setField (List.mem_singleton_self (doorbell v + 8)) s 3 3 (b2n (s.slotOf v).isSome)
  fun_cases State.vqRefresh
  · exact shown
  · exact shown
  · exact shown.trans (regsChanged_setVq ..)

theorem vqState_vqRefresh_cancelling {v : Nat} (h : s.vqState v = 5) (unended : s.vqUnended v) : (s.vqRefresh v).vqState v = 5 := by
  obtain ⟨l, hl, running⟩ := unended
  have any : ((s.launchesOf v).any fun l => !(s.launch l).finished) = true := List.any_eq_true.2 ⟨l, hl, by simp [running]⟩
  rw [State.vqRefresh, if_pos ⟨h, any⟩, State.vqState, field_setField_apart _ (by omega) (by omega) (by omega) (by omega)]
  exact h

theorem vqState_vqRefresh_halted {v : Nat} (h : s.vqState v = 4) : (s.vqRefresh v).vqState v = 4 := by
  rw [State.vqRefresh, if_neg fun c => by omega, if_pos h, State.vqState,
    field_setField_apart _ (by omega) (by omega) (by omega) (by omega)]
  exact h

theorem vqState_vqRefresh {v : Nat} (cancelling : ¬(s.vqState v = 5 ∧ s.vqUnended v)) (halted : s.vqState v ≠ 4) :
    (s.vqRefresh v).vqState v = s.vqNext v := by
  have none : ¬(s.vqState v = 5 ∧ ((s.launchesOf v).any fun l => !(s.launch l).finished) = true) := fun ⟨h, any⟩ => by
    obtain ⟨l, hl, running⟩ := List.any_eq_true.1 any
    exact cancelling ⟨h, l, hl, by simpa using running⟩
  rw [State.vqRefresh, if_neg none, if_neg halted, vqState_setVq, State.vqNext]
  have work : (!(s.vqHead v != s.vqTail v || (s.launchesOf v).any fun l => !(s.launch l).dispatched)) =
      (s.vqHead v == s.vqTail v && (s.launchesOf v).all fun l => (s.launch l).dispatched) := by
    simp [List.all_eq_not_any_not, bne]
  rw [work]
  repeat' split
  all_goals rfl

theorem vqIdle_iff (s : State) (v : Nat) :
    s.vqIdle v ↔ (s.vqHead v == s.vqTail v && (s.launchesOf v).all fun l => (s.launch l).dispatched) = true := by
  simp [State.vqIdle]

/-- A queue's STATE says what the queue holds. -/
def State.vqSettled (s : State) (v : Nat) (bound : Bool) : Prop :=
  (s.waitsRestore v = true → s.vqState v = 3) ∧
  (s.waitsRestore v = false → (s.vqIdle v → s.vqState v = 0) ∧ (¬s.vqIdle v → s.vqState v = if bound then 1 else 2))

theorem vqSettled_of_next {v : Nat} (h : s.vqState v = s.vqNext v) : s.vqSettled v (s.slotOf v).isSome := by
  unfold State.vqSettled
  simp only [vqIdle_iff, h, State.vqNext]
  refine ⟨fun waits => if_pos waits, fun free => ⟨fun idle => ?_, fun busy => ?_⟩⟩
  · rw [free, if_neg Bool.false_ne_true, if_pos idle]
  · rw [free, if_neg Bool.false_ne_true, if_neg busy]

section
variable {t : State} {v : Nat} (h : RegsChanged [doorbell v + 8] s t)
include h

theorem RegsChanged.vqHead : t.vqHead v = s.vqHead v := h.others _ (by simp)
theorem RegsChanged.vqTail : t.vqTail v = s.vqTail v := h.others _ (by simp)
theorem RegsChanged.slotOf_eq : t.slotOf = s.slotOf := h.slotOf fun o ho => by simp only [List.mem_singleton, doorbell] at ho; omega

theorem RegsChanged.vqNext : t.vqNext v = s.vqNext v := by
  rw [State.vqNext, h.waitsRestore, h.vqHead, h.vqTail, h.launchesOf, h.launch, h.slotOf_eq, State.vqNext]

end

/-- After the event that refreshes it, a queue's STATE says what the queue holds. -/
theorem vqSettled_vqRefresh {v : Nat} (cancelling : ¬(s.vqState v = 5 ∧ s.vqUnended v)) (halted : s.vqState v ≠ 4) :
    (s.vqRefresh v).vqSettled v (s.slotOf v).isSome := by
  have h := regsChanged_vqRefresh s v
  have := vqSettled_of_next ((vqState_vqRefresh cancelling halted).trans h.vqNext.symm)
  rwa [h.slotOf_eq] at this

/-! ### Doorbells -/

/-- A queue after a write of its VQTAIL. -/
def State.rung (s : State) (vq : Nat) (v : Word) : State := (s.setCreg (doorbell vq) v.toNat).vqRefresh vq

/-- A queue without a slot waits for binding after such a write, unless it is halted, cancels or waits for restore capacity. -/
def State.rungUnbound (s : State) (vq : Nat) (v : Word) : State :=
  if (s.rung vq v).vqState vq < 3 then (s.rung vq v).setVq vq 2 0 else s.rung vq v

theorem doorbellWrite_bound {s : State} {agent vq : Nat} (hvq : vq < 4096) (may : s.mayWrite agent (doorbell vq) = true) {q : Nat}
    (slot : s.slotOf vq = some q) (v : Word) : exec (.doorbellWrite agent vq v) s = .next (s.rung vq v) := by
  show execDoorbellWrite agent vq v s = _
  simp only [execDoorbellWrite, event, decide_eq_true hvq, State.agentWrite, may, slot]
  rfl

theorem doorbellWrite_unbound {s : State} {agent vq : Nat} (hvq : vq < 4096) (may : s.mayWrite agent (doorbell vq) = true)
    (slot : s.slotOf vq = none) (v : Word) :
    exec (.doorbellWrite agent vq v) s = .next ((s.rungUnbound vq v).signal (.queueUnbound vq)) := by
  show execDoorbellWrite agent vq v s = _
  simp only [execDoorbellWrite, event, decide_eq_true hvq, State.agentWrite, may, slot]
  rfl

section
variable {s : State} {vq : Nat} (v : Word)

theorem regsChanged_rung (s : State) (vq : Nat) : RegsChanged [doorbell vq, doorbell vq + 8] s (s.rung vq v) :=
  (regsChanged_setCreg (by simp) s _).trans ((regsChanged_vqRefresh _ vq).beside _)

theorem vqTail_rung (s : State) (vq : Nat) : (s.rung vq v).vqTail vq = v.toNat := by
  rw [State.rung, (regsChanged_vqRefresh _ vq).vqTail, State.vqTail, creg_setCreg_same, Nat.mod_eq_of_lt v.isLt]

/-- A halted queue stays halted, and one that cancels launches does so until they have ended. -/
theorem vqState_rung_held (held : s.vqState vq = 4 ∨ (s.vqState vq = 5 ∧ s.vqUnended vq)) :
    (s.rung vq v).vqState vq = s.vqState vq := by
  have h := regsChanged_setCreg (List.mem_singleton_self (doorbell vq)) s v.toNat
  have same : (s.setCreg (doorbell vq) v.toNat).vqState vq = s.vqState vq := by
    rw [State.vqState, State.field, h.others _ (by simp), State.vqState, State.field]
  obtain halted | ⟨cancelling, unended⟩ := held
  · rw [State.rung, vqState_vqRefresh_halted (same.trans halted), halted]
  · rw [State.rung, vqState_vqRefresh_cancelling (same.trans cancelling) (h.vqUnended ▸ unended), cancelling]

theorem vqSettled_rung (free : ¬(s.vqState vq = 4 ∨ (s.vqState vq = 5 ∧ s.vqUnended vq))) :
    (s.rung vq v).vqSettled vq (s.slotOf vq).isSome := by
  have h := regsChanged_setCreg (List.mem_singleton_self (doorbell vq)) s v.toNat
  have same : (s.setCreg (doorbell vq) v.toNat).vqState vq = s.vqState vq := by
    rw [State.vqState, State.field, h.others _ (by simp), State.vqState, State.field]
  have slot : (s.setCreg (doorbell vq) v.toNat).slotOf = s.slotOf := h.slotOf fun o ho => by
    simp only [List.mem_singleton, doorbell] at ho; omega
  have := vqSettled_vqRefresh (s := s.setCreg (doorbell vq) v.toNat) (v := vq)
    (fun c => free (.inr ⟨same ▸ c.1, h.vqUnended ▸ c.2⟩)) (fun c => free (.inl (same ▸ c)))
  rwa [slot] at this

theorem regsChanged_rungUnbound (s : State) (vq : Nat) :
    RegsChanged [doorbell vq + 8] (s.rung vq v) (s.rungUnbound vq v) := by
  unfold State.rungUnbound
  split
  · exact regsChanged_setVq ..
  · exact .refl ..

theorem vqState_rungUnbound_held (held : s.vqState vq = 4 ∨ (s.vqState vq = 5 ∧ s.vqUnended vq)) :
    (s.rungUnbound vq v).vqState vq = s.vqState vq := by
  have h := vqState_rung_held v held
  rw [State.rungUnbound, if_neg (by omega), h]

theorem vqState_rungUnbound (slot : s.slotOf vq = none) (free : ¬(s.vqState vq = 4 ∨ (s.vqState vq = 5 ∧ s.vqUnended vq))) :
    (s.rungUnbound vq v).vqState vq = if s.waitsRestore vq then 3 else 2 := by
  obtain ⟨waiting, ready⟩ := vqSettled_rung v free
  rw [(regsChanged_rung v s vq).waitsRestore, slot] at *
  rw [State.rungUnbound]
  cases waits : s.waitsRestore vq with
  | true => rw [if_neg (by rw [waiting waits]; omega), waiting waits, if_pos rfl]
  | false =>
    obtain ⟨idle, busy⟩ := ready waits
    have low : (s.rung vq v).vqState vq < 3 := by
      by_cases h : (s.rung vq v).vqIdle vq
      · rw [idle h]; omega
      · rw [busy h]; exact Nat.lt_succ_self 2
    rw [if_pos low, vqState_setVq, if_neg Bool.false_ne_true]

theorem RegsChanged.frame_signal {offs : List Nat} {t : State} (h : RegsChanged offs s t) (x : Signal) :
    t.signal x = { s with cregs := t.cregs, signals := s.signals ++ [x] } :=
  congrArg (fun u : State => u.signal x) h.frame

end

/-- A write of VQTAIL (R376, R378). -/
theorem doorbellWrite_rings (s : State) (vq agent : Nat) (v : Word) (hvq : vq < 4096) (may : s.mayWrite agent (doorbell vq) = true) :
    ∃ t, exec (.doorbellWrite agent vq v) s = .next t ∧
      t = { s with cregs := t.cregs, signals := t.signals } ∧ t.creg (doorbell vq) = v.toNat ∧
      (∀ o, o ≠ doorbell vq → o ≠ doorbell vq + 8 → t.creg o = s.creg o) ∧
      t.signals = s.signals ++ (if (s.slotOf vq).isNone then [Signal.queueUnbound vq] else []) ∧
      (s.vqState vq = 4 ∨ (s.vqState vq = 5 ∧ s.vqUnended vq) → t.vqState vq = s.vqState vq) ∧
      (¬(s.vqState vq = 4 ∨ (s.vqState vq = 5 ∧ s.vqUnended vq)) →
        ((s.slotOf vq).isSome = true → t.vqSettled vq (s.slotOf vq).isSome) ∧
        ((s.slotOf vq).isSome = false → t.vqState vq = if s.waitsRestore vq then 3 else 2)) := by
  have rung := regsChanged_rung v s vq
  cases slot : s.slotOf vq with
  | some q =>
    have signals : (s.rung vq v).signals = s.signals := by rw [rung.frame]
    refine ⟨_, doorbellWrite_bound hvq may slot v, ?_, vqTail_rung v s vq, fun o hb hst => rung.others o (by simp [hb, hst]), ?_,
      vqState_rung_held v, fun free => ⟨fun _ => slot ▸ vqSettled_rung v free, fun unbound => by cases unbound⟩⟩
    · rw [signals]; exact rung.frame
    · rw [signals]; exact (List.append_nil _).symm
  | none =>
    have h : RegsChanged [doorbell vq, doorbell vq + 8] s (s.rungUnbound vq v) :=
      rung.trans ((regsChanged_rungUnbound v s vq).beside _)
    have frame := h.frame_signal (.queueUnbound vq)
    have tail := (regsChanged_rungUnbound v s vq).vqTail.trans (vqTail_rung v s vq)
    refine ⟨_, doorbellWrite_unbound hvq may slot v, ?_, tail, fun o hb hst => h.others o (by simp [hb, hst]), ?_,
      vqState_rungUnbound_held v, fun free => ⟨fun bound => (by cases bound), fun _ => vqState_rungUnbound v slot free⟩⟩
    · rw [frame]
    · rw [frame]; rfl

end

end Sys2Proof.Machine
end

section

/-!
# Virtual queues: cancelling and resuming
-/

namespace Sys2Proof.Machine

/-- A fold keeps what each of its steps keeps. -/
theorem foldl_keeps {α β : Type} {f : State → β} {g : State → α → State} (hg : ∀ s a, f (g s a) = f s) (l : List α) (s : State) :
    f (l.foldl g s) = f s := by
  induction l generalizing s with
  | nil => rfl
  | cons a l ih => exact (ih _).trans (hg s a)

/-- The workgroups of a launch have been told to end. -/
def State.wgsEnded (s : State) (l : Nat) : State :=
  (s.wgsOf l).foldl (fun s k => if (s.wg k).status = .exited ∨ (s.wg k).status = .ending then s else s.endWg k) s

theorem endLaunch_eq (s : State) (l : Nat) :
    s.endLaunch l = (((s.wgsEnded l).updLaunch l fun x => { x with ending := true }).settleLaunch l).vqRefresh (s.launch l).vq := rfl

section
variable (s : State) (l : Nat)

theorem wgsEnded_keeps {β : Type} (f : State → β) (hf : ∀ s k, f (State.endWg s k) = f s) : f (s.wgsEnded l) = f s :=
  foldl_keeps (fun s k => by split <;> simp [hf]) _ s

theorem endWg_keeps (k : Nat) :
    (s.endWg k).pkg = s.pkg ∧ (s.endWg k).cregs = s.cregs ∧ (s.endWg k).launches = s.launches := by
  simp [State.endWg, State.freeEngine]

theorem wgsEnded_regs : (s.wgsEnded l).pkg = s.pkg ∧ (s.wgsEnded l).cregs = s.cregs :=
  ⟨wgsEnded_keeps s l State.pkg fun s k => (endWg_keeps s k).1, wgsEnded_keeps s l State.cregs fun s k => (endWg_keeps s k).2.1⟩

theorem wgsEnded_launches : (s.wgsEnded l).launches = s.launches := 
  wgsEnded_keeps s l State.launches fun s k => (endWg_keeps s k).2.2

theorem settleLaunch_regs : (s.settleLaunch l).pkg = s.pkg ∧ (s.settleLaunch l).cregs = s.cregs := by
  unfold State.settleLaunch State.forgetWords
  repeat' split
  all_goals exact ⟨rfl, rfl⟩

theorem launch_updLaunch (j : Nat) (g : Launch → Launch) :
    (s.updLaunch l g).launch j = if j = l then g (s.launch l) else s.launch j := SMap.get_upd ..

/-- A launch that is over is marked so. -/
theorem launch_settleLaunch (j : Nat) :
    ∃ fin, (s.settleLaunch l).launch j = if j = l then { s.launch l with finished := fin } else s.launch j := by
  unfold State.settleLaunch State.forgetWords
  split
  · refine ⟨true, Eq.trans ?_ (launch_updLaunch s l j fun x => { x with finished := true })⟩
    split <;> rfl
  · refine ⟨(s.launch l).finished, ?_⟩
    split
    · next h => rw [h]
    · rfl

/-- A launch that is told to end is ending, and every other is as before. -/
theorem launch_endLaunch (j : Nat) :
    ∃ fin, (s.endLaunch l).launch j = if j = l then { s.launch l with ending := true, finished := fin } else s.launch j := by
  rw [endLaunch_eq, (regsChanged_vqRefresh _ _).launch]
  obtain ⟨fin, h⟩ := launch_settleLaunch ((s.wgsEnded l).updLaunch l fun x => { x with ending := true }) l j
  have same : (s.wgsEnded l).launch = s.launch := by funext i; rw [State.launch, wgsEnded_launches, State.launch]
  refine ⟨fin, h.trans ?_⟩
  rw [launch_updLaunch, launch_updLaunch, if_pos rfl, same]
  split <;> rfl

/-- The end of a launch writes no register but the VQSTAT of a doorbell page. -/
theorem creg_endLaunch {o : Nat} (ho : o % 0x1000 ≠ 8) : (s.endLaunch l).creg o = s.creg o := by
  have elsewhere : o ∉ [doorbell (s.launch l).vq + 8] := by simp only [List.mem_singleton, doorbell]; omega
  obtain ⟨pkg, cregs⟩ := settleLaunch_regs ((s.wgsEnded l).updLaunch l fun x => { x with ending := true }) l
  obtain ⟨pkg', cregs'⟩ := wgsEnded_regs s l
  rw [endLaunch_eq, (regsChanged_vqRefresh _ _).others o elsewhere, State.creg, State.cregOf, pkg, cregs, updLaunch_pkg, updLaunch_cregs,
    pkg', cregs', State.creg, State.cregOf]

end

/-- A launch is ending or has ended. -/
def State.launchEnds (s : State) (l : Nat) : Prop := (s.launch l).ending = true ∨ (s.launch l).finished = true

/-- Every launch of a list that has not ended is told to end. -/
def State.endLaunches (s : State) (ls : List Nat) : State := ls.foldl (fun s l => if (s.launch l).finished then s else s.endLaunch l) s

section
variable (s : State) (ls : List Nat)

theorem creg_endLaunches {o : Nat} (ho : o % 0x1000 ≠ 8) : (s.endLaunches ls).creg o = s.creg o :=
  foldl_keeps (f := fun s : State => s.creg o) (fun s l => by
    split
    · rfl
    · exact creg_endLaunch s l ho) ls s

theorem endLaunches_mem : (s.endLaunches ls).mem = s.mem :=
  foldl_keeps (f := State.mem) (fun s l => by split <;> simp) ls s

theorem launchEnds_endLaunch (l : Nat) : (s.endLaunch l).launchEnds l := by
  obtain ⟨fin, h⟩ := launch_endLaunch s l l
  exact .inl (by rw [h, if_pos rfl])

variable {s}

theorem State.launchEnds.endLaunch {l : Nat} (h : s.launchEnds l) (j : Nat) : (s.endLaunch j).launchEnds l := by
  by_cases e : l = j
  · exact e ▸ launchEnds_endLaunch s l
  · obtain ⟨fin, same⟩ := launch_endLaunch s j l
    rw [State.launchEnds, same, if_neg e]
    exact h

theorem State.launchEnds.endLaunches {l : Nat} (h : s.launchEnds l) : (s.endLaunches ls).launchEnds l := by
  induction ls generalizing s with
  | nil => exact h
  | cons j ls ih =>
    refine ih ?_
    dsimp only
    split
    · exact h
    · exact h.endLaunch j

theorem launchEnds_endLaunches {l : Nat} (hl : l ∈ ls) : (s.endLaunches ls).launchEnds l := by
  induction ls generalizing s with
  | nil => cases hl
  | cons j ls ih =>
    obtain rfl | hl := List.mem_cons.1 hl
    · refine State.launchEnds.endLaunches (s := if (s.launch l).finished then s else s.endLaunch l) ls ?_
      split
      · next fin => exact .inr fin
      · exact launchEnds_endLaunch s l
    · exact ih hl

end

theorem launchCancel_eq {s : State} {agent vq : Nat} (hvq : vq < 4096) (may : s.mayWrite agent (doorbell vq + 12) = true) :
    exec (.launchCancel agent vq) s = .next
      ((((s.setCreg (doorbell vq + 4) (s.vqTail vq)).endLaunches (s.launchesOf vq)).setVq vq 5 0).vqRefresh vq) := by
  show execLaunchCancel agent vq s = _
  simp only [execLaunchCancel, event, decide_eq_true hvq, State.agentWrite, may, if_true]
  rfl

theorem vqTail_lt (s : State) (vq : Nat) : s.vqTail vq < 2 ^ 32 := creg_lt s _

/-- A cancel (R376, R382). -/
theorem launchCancel_cancels (s : State) (vq agent : Nat) (hvq : vq < 4096) (may : s.mayWrite agent (doorbell vq + 12) = true) :
    ∃ t, exec (.launchCancel agent vq) s = .next t ∧ t.mem = s.mem ∧ t.vqHead vq = s.vqTail vq ∧ t.vqTail vq = s.vqTail vq ∧
      (∀ l ∈ s.launchesOf vq, (t.launch l).ending = true ∨ (t.launch l).finished = true) ∧
      (t.vqUnended vq → t.vqState vq = 5) ∧
      (¬t.vqUnended vq → t.vqState vq = if t.waitsRestore vq then 3 else 0) := by
  refine ⟨_, launchCancel_eq hvq may, ?_⟩
  set u := (s.setCreg (doorbell vq + 4) (s.vqTail vq)).endLaunches (s.launchesOf vq) with hu
  have cancelling := vqState_setVq u vq 5 0
  have refreshed := regsChanged_vqRefresh (u.setVq vq 5 0) vq
  have h := (regsChanged_setVq u vq 5 0).trans refreshed
  have head : u.vqHead vq = s.vqTail vq := by
    rw [State.vqHead, hu, creg_endLaunches _ _ (by simp only [doorbell]; omega), creg_setCreg_same, Nat.mod_eq_of_lt (vqTail_lt s vq)]
  have tail : u.vqTail vq = s.vqTail vq := by
    rw [State.vqTail, hu, creg_endLaunches _ _ (by simp only [doorbell]; omega), creg_setCreg_other _ _ (by omega), State.vqTail]
  refine ⟨by simp [hu, endLaunches_mem], h.vqHead.trans head, h.vqTail.trans tail, fun l hl => ?_, fun unended => ?_, fun ended => ?_⟩
  · rw [h.launch]
    exact launchEnds_endLaunches _ hl
  · exact vqState_vqRefresh_cancelling cancelling (refreshed.vqUnended ▸ unended)
  · rw [refreshed.vqUnended] at ended
    have idle : (u.setVq vq 5 0).vqIdle vq := by
      refine ⟨?_, fun l hl => ?_⟩
      · rw [(regsChanged_setVq u vq 5 0).vqHead, (regsChanged_setVq u vq 5 0).vqTail, head, tail]
      · have finished : ((u.setVq vq 5 0).launch l).finished = true := by
          by_contra running
          exact ended ⟨l, hl, by simpa using running⟩
        simp [Launch.dispatched, finished]
    rw [vqState_vqRefresh (fun c => ended c.2) (by omega), State.vqNext, if_pos ((vqIdle_iff _ _).1 idle), refreshed.waitsRestore]

/-- A queue after the resumption of a halt: a packet that was refused, not one that could not be read, is skipped (R380). -/
def State.resumed (s : State) (vq : Nat) : State :=
  if s.field (doorbell vq + 8) 11 8 ≤ 10 then s.setCreg (doorbell vq + 4) ((s.vqHead vq + 1) % 2 ^ 32) else s

theorem resumeAfterRefusal_eq {s : State} {agent vq : Nat} (hvq : vq < 4096) (may : s.mayWrite agent (doorbell vq + 12) = true) :
    exec (.resumeAfterRefusal agent vq) s =
      .next (if s.vqState vq ≠ 4 then s else ((s.resumed vq).setVq vq 0 0).vqRefresh vq) := by
  show execResumeAfterRefusal agent vq s = _
  simp only [execResumeAfterRefusal, event, decide_eq_true hvq, State.agentWrite, may, if_true, bne_iff_ne]
  rfl

theorem regsChanged_resumed (s : State) (vq : Nat) : RegsChanged [doorbell vq + 4] s (s.resumed vq) := by
  unfold State.resumed
  split
  · exact regsChanged_setCreg (List.mem_singleton_self _) ..
  · exact .refl ..

theorem vqHead_resumed (s : State) (vq : Nat) : (s.resumed vq).vqHead vq =
    if s.field (doorbell vq + 8) 11 8 ≤ 10 then (s.vqHead vq + 1) % 2 ^ 32 else s.vqHead vq := by
  unfold State.resumed
  split
  · rw [State.vqHead, creg_setCreg_same, Nat.mod_mod]
  · rfl

/-- A resumption (R376, R380). -/
theorem resumeAfterRefusal_resumes (s : State) (vq agent : Nat) (hvq : vq < 4096) (may : s.mayWrite agent (doorbell vq + 12) = true) :
    (s.vqState vq ≠ 4 → exec (.resumeAfterRefusal agent vq) s = .next s) ∧
    (s.vqState vq = 4 → ∃ t, exec (.resumeAfterRefusal agent vq) s = .next t ∧ t = { s with cregs := t.cregs } ∧
      t.vqSettled vq (s.slotOf vq).isSome ∧ t.vqTail vq = s.vqTail vq ∧
      t.vqHead vq = if s.field (doorbell vq + 8) 11 8 ≤ 10 then (s.vqHead vq + 1) % 2 ^ 32 else s.vqHead vq) := by
  rw [resumeAfterRefusal_eq hvq may]
  refine ⟨fun h => by rw [if_pos h], fun h => ⟨_, by rw [if_neg (by omega)], ?_⟩⟩
  have resumed := regsChanged_resumed s vq
  have freed := regsChanged_setVq (s.resumed vq) vq 0 0
  have refreshed := regsChanged_vqRefresh ((s.resumed vq).setVq vq 0 0) vq
  have zero := vqState_setVq (s.resumed vq) vq 0 0
  have after := freed.trans refreshed
  have settled := vqSettled_vqRefresh (s := (s.resumed vq).setVq vq 0 0) (v := vq) (by omega) (by omega)
  refine ⟨?_, ?_, ?_, ?_⟩
  · exact ((resumed.beside (doorbell vq + 8)).trans (after.mono (by simp))).frame
  · rwa [freed.slotOf_eq, resumed.slotOf fun o ho => by simp only [List.mem_singleton, doorbell] at ho; omega] at settled
  · rw [after.vqTail]; exact resumed.others _ (by simp)
  · rw [after.vqHead, vqHead_resumed]

/-- A requester that may not write a page (R31, R32). -/
theorem agentWrite_forbidden (s : State) (vq agent : Nat) (v : Word) (hvq : vq < 4096) :
    ∀ p ∈ [(Instr.doorbellWrite agent vq v, doorbell vq), (.launchCancel agent vq, doorbell vq + 12),
        (.resumeAfterRefusal agent vq, doorbell vq + 12)],
      s.mayWrite agent p.2 = false → exec p.1 s = .next (s.auditEvent 2 agent p.2) := by
  have dropped (off : Nat) (k : State → State) (h : s.mayWrite agent off = false) :
      s.agentWrite agent off k = s.auditEvent 2 agent off := by
    rw [State.agentWrite, h]; rfl
  intro p hp h
  simp only [List.mem_cons, List.not_mem_nil, or_false] at hp
  obtain rfl | rfl | rfl := hp
  · show execDoorbellWrite agent vq v s = _
    rw [execDoorbellWrite, dropped _ _ h, event, decide_eq_true hvq]; rfl
  · show execLaunchCancel agent vq s = _
    rw [execLaunchCancel, dropped _ _ h, event, decide_eq_true hvq]; rfl
  · show execResumeAfterRefusal agent vq s = _
    rw [execResumeAfterRefusal, dropped _ _ h, event, decide_eq_true hvq]; rfl

end Sys2Proof.Machine
end

section

/-!
# Virtual queues: the packet at VQHEAD
-/

namespace Sys2Proof.Machine

/-! ### The checks of a packet -/

/-- Check n of R380, of those that the packet alone decides. -/
def packetTest (p : Packet) (reserved : Bool) (part : Nat) : Nat → Bool
  | 1 => reserved || p.entry.toNat % 4 != 0
  | 2 => p.nx == 0 || p.ny == 0 || p.nz == 0 || 2 ^ 32 < p.grid
  | 3 => p.warps < 1 || 64 < p.warps || p.ncopy + p.nmat + p.nvec != p.warps
  | 4 => p.home < 2 || 255 < p.home + p.travel
  | 5 => p.scratch % 256 != 0 || 2 ^ 20 < p.scratch
  | 6 => 16 < p.nbar || 4 < p.nring || 16 < p.nacc || 8 < p.nwb || 8 < p.nhist || p.qgroup < 1 || 4 < p.qgroup
      || p.cumask / 2 ^ p.nbar != 0
      || !(List.range 4).all fun r => if r < p.nring then ringOk (p.ringcfg.getD r 0) else p.ringcfg.getD r 0 == 0
  | 7 => p.part != part
  | _ => false

theorem find?_cons_ite {α : Type} (test : α → Bool) (a : α) (l : List α) :
    (a :: l).find? test = if test a then some a else l.find? test := by
  cases h : test a <;> simp [h]

/-- The code is that of the first check that fails. -/
theorem packetCode_eq (p : Packet) (reserved : Bool) (part : Nat) :
    packetCode p reserved part = (List.range' 1 7).find? (packetTest p reserved part) := by
  simp only [List.range', find?_cons_ite, List.find?_nil]
  rfl

theorem packetCode_first {p : Packet} {reserved : Bool} {part code : Nat} (h : packetTest p reserved part code = true)
    (before : ∀ c, c < code → packetTest p reserved part c = false) : packetCode p reserved part = some code := by
  have range : 1 ≤ code ∧ code ≤ 7 := by
    match code, h with
    | 1, _ | 2, _ | 3, _ | 4, _ | 5, _ | 6, _ | 7, _ => omega
  rw [packetCode_eq, List.find?_range'_eq_some]
  refine ⟨h, by simp; omega, fun c _ hc => by simp [before c hc]⟩

theorem packetCode_passes {p : Packet} {reserved : Bool} {part : Nat} (h : ∀ c, packetTest p reserved part c = false) :
    packetCode p reserved part = none := by
  rw [packetCode_eq, List.find?_eq_none]
  exact fun c _ => by simp [h c]

theorem packetReserved_iff (s : State) (g : Nat) : s.packetReserved g = true ↔
    (s.memRead (g + 10) 2).testBit 3 = true ∨ 256 ≤ s.memRead (g + 10) 2 ∨ 16 ≤ s.memRead (g + 0x26) 1 ∨ s.memRead (g + 0x27) 1 ≠ 0 ∨
      s.memRead (g + 0x60) 32 ≠ 0 := by
  simp only [State.packetReserved, bit, Bool.or_eq_true, bne_iff_ne, beq_iff_eq, Nat.testBit_eq_decide_div_mod_eq, decide_eq_true_eq]
  omega

/-- The word of a ring is refused (R138). -/
theorem ringOk_iff (c : Nat) : ringOk c = false ↔ c % 16 = 0 ∨ 8 < c % 16 ∨ c / 16 % 128 = 0 ∨ 64 < c / 16 % 128 ∨ c / 2 ^ 11 % 128 = 0 ∨
    64 < c / 2 ^ 11 % 128 ∨ c / 2 ^ 18 % 2 ^ 14 ≠ 0 := by
  rw [← Bool.not_eq_true, ringOk]
  simp only [Bool.and_eq_true, decide_eq_true_eq, beq_iff_eq]
  simp only [bits]
  omega

/-- The statement's checks are those of the model. -/
theorem failsCheck_iff (s : State) (g : Nat) (p : Packet) (part code : Nat) :
    failsCheck s g p part code ↔ packetTest p (s.packetReserved g) part code = true := by
  match code with
  | 1 =>
    simp only [failsCheck, packetTest, Bool.or_eq_true, packetReserved_iff, bne_iff_ne]
    exact or_comm
  | 2 => simp only [failsCheck, packetTest, Bool.or_eq_true, beq_iff_eq, decide_eq_true_eq, or_assoc]; rfl
  | 3 => simp [failsCheck, packetTest, or_assoc]
  | 4 => simp [failsCheck, packetTest]
  | 5 => simp [failsCheck, packetTest]
  | 6 =>
    have mask : 2 ^ p.nbar ≤ p.cumask ↔ p.cumask / 2 ^ p.nbar ≠ 0 := by
      rw [ne_eq, Nat.div_eq_zero_iff]; simp
    have ring (r : Nat) : (if r < p.nring then ringOk (p.ringcfg.getD r 0) else p.ringcfg.getD r 0 == 0) ≠ true ↔
        if r < p.nring then ringOk (p.ringcfg.getD r 0) = false else p.ringcfg.getD r 0 ≠ 0 := by
      split <;> simp
    simp only [failsCheck, packetTest, Bool.or_eq_true, decide_eq_true_eq, bne_iff_ne, Bool.not_eq_true', List.all_eq_false,
      List.mem_range, mask, ring, ringOk_iff, Nat.lt_one_iff, or_assoc]
  | 7 => simp [failsCheck, packetTest]
  | 0 | n + 8 => simp [failsCheck, packetTest]

/-! ### The start of a packet -/

/-- The launch that the packet at an address starts. -/
def State.packetLaunch (s : State) (slot vq g : Nat) : Launch :=
  { packet := s.readPacket g (s.creg (queueSlot slot + 16)) (s.creg (queueSlot slot + 20)), vq, ctx := s.slotCtx slot }

/-- A new launch, whose packet VQHEAD has left behind. -/
def State.started (s : State) (vq : Nat) (x : Launch) : State :=
  { s with launches := SMap.set {} s.launches s.tag x, tag := s.tag + 1 }.setCreg (doorbell vq + 4) ((s.vqHead vq + 1) % 2 ^ 32)

section
variable {s : State} {vq slot : Nat} (bound : s.slotOf vq = some slot) (may : s.mayStart vq = true)
include bound may

theorem packetStart_unread {code : Nat} (h : s.packetAt slot vq = .error code) :
    exec (.packetStart vq) s = .next ((s.auditPacket slot vq).setVq vq 4 code) := by
  show execPacketStart vq s = _
  simp [execPacketStart, bound, may, h]

variable {g : Nat} (read : s.packetAt slot vq = .ok g)
include read

theorem packetStart_refused {code : Nat}
    (check : packetCode (s.packetLaunch slot vq g).packet (s.packetReserved g) (s.ctxPart (s.slotCtx slot)) = some code) :
    exec (.packetStart vq) s = .next (s.setVq vq 4 code) := by
  show execPacketStart vq s = _
  rw [State.packetLaunch] at check
  simp [execPacketStart, bound, may, read, check]

variable (check : packetCode (s.packetLaunch slot vq g).packet (s.packetReserved g) (s.ctxPart (s.slotCtx slot)) = none)
include check

theorem packetStart_tooLarge {code : Nat} (capacity : s.capacityCode (s.packetLaunch slot vq g) = some code) :
    exec (.packetStart vq) s = .next (s.setVq vq 4 code) := by
  show execPacketStart vq s = _
  rw [State.packetLaunch] at check capacity
  simp [execPacketStart, bound, may, read, check, capacity]

theorem packetStart_starts (capacity : s.capacityCode (s.packetLaunch slot vq g) = none)
    (serial : (s.packetLaunch slot vq g).packet.flags.testBit 2 = true → ∀ l ∈ s.launchesOf vq, (s.launch l).finished = true) :
    exec (.packetStart vq) s = .next ((s.started vq (s.packetLaunch slot vq g)).vqRefresh vq) := by
  have free : (bit (s.packetLaunch slot vq g).packet.flags 2 && (s.launchesOf vq).any fun l => !(s.launch l).finished) = false := by
    rw [← Bool.not_eq_true, Bool.and_eq_true]
    rintro ⟨flag, any⟩
    obtain ⟨l, hl, running⟩ := List.any_eq_true.1 any
    have := serial (by rw [Nat.testBit_eq_decide_div_mod_eq]; simpa [bit] using flag) l hl
    simp [this] at running
  show execPacketStart vq s = _
  rw [State.packetLaunch] at *
  simp only [execPacketStart, bound, may, read, check, capacity, free, State.started]
  rfl

end

/-- A queue that halts with a code (R380). -/
theorem setVq_halts (s : State) (vq : Nat) {code : Nat} (h : code < 16) :
    s.setVq vq 4 code = { s with cregs := (s.setVq vq 4 code).cregs } ∧ (s.setVq vq 4 code).vqState vq = 4 ∧
      (s.setVq vq 4 code).field (doorbell vq + 8) 11 8 = code ∧ (s.setVq vq 4 code).vqHead vq = s.vqHead vq ∧
      ∀ o, o ≠ doorbell vq + 8 → (s.setVq vq 4 code).creg o = s.creg o := by
  have h' := regsChanged_setVq s vq 4 code
  exact ⟨h'.frame, vqState_setVq .., by rw [refuse_setVq, Nat.mod_eq_of_lt h], h'.vqHead, fun o ho => h'.others o (by simp [ho])⟩

/-! ### A read that is audited -/

theorem regsChanged_auditHead (s : State) (h : Nat → Nat) (n : Nat) :
    RegsChanged ((List.range n).map (audHead + 4 * ·)) s ((List.range n).foldl (fun s i => s.setCreg (audHead + 4 * i) (h i)) s) := by
  induction n with
  | zero => exact .refl ..
  | succ n ih =>
    rw [List.range_succ, List.foldl_append, List.map_append]
    exact (ih.mono fun o m => List.mem_append_left _ m).trans (regsChanged_setCreg (by simp) _ _)

section
variable (s : State) {o : Nat} (ho : 0x1000 ≤ o)
include ho

/-- The audit log writes no register beyond its head. -/
theorem creg_auditPush (body : List Byte) : (s.auditPush body).creg o = s.creg o := by
  unfold State.auditPush
  split
  · rfl
  · refine (regsChanged_auditHead _ _ 12).others o fun m => ?_
    obtain ⟨i, hi, rfl⟩ := List.mem_map.1 m
    have := List.mem_range.1 hi
    simp only [audHead] at ho
    omega

theorem creg_auditEvent (type ctx v : Nat) : (s.auditEvent type ctx v).creg o = s.creg o := by
  unfold State.auditEvent State.auditAppend
  dsimp only
  split
  · exact (creg_auditPush _ ho _).trans (creg_auditPush s ho _)
  · exact creg_auditPush s ho _

end

theorem packetAt_error {s : State} {slot vq code : Nat} (h : s.packetAt slot vq = .error code) : code < 16 := by
  unfold State.packetAt at h
  dsimp only at h
  split at h <;> cases h <;> decide

theorem packetCode_lt {p : Packet} {reserved : Bool} {part code : Nat} (h : packetCode p reserved part = some code) : code < 16 := by
  rw [packetCode_eq, List.find?_range'_eq_some] at h
  have := List.mem_range'_1.1 h.2.1
  omega

theorem capacityCode_lt {s : State} {x : Launch} {code : Nat} (h : s.capacityCode x = some code) : code < 16 := by
  unfold State.capacityCode at h
  dsimp only at h
  repeat' split at h
  all_goals cases h
  all_goals decide

/-! ### The started launch -/

section
variable (s : State) (vq : Nat) (x : Launch)

theorem launch_started (l : Nat) : (s.started vq x).launch l = if l = s.tag then x else s.launch l := SMap.get_set ..

theorem started_frame : s.started vq x = { s with
    cregs := (s.started vq x).cregs, launches := (s.started vq x).launches, tag := s.tag + 1 } := rfl

theorem creg_started {o : Nat} (ho : o ≠ doorbell vq + 4) : (s.started vq x).creg o = s.creg o := creg_setCreg_other _ _ ho

theorem vqHead_started : (s.started vq x).vqHead vq = (s.vqHead vq + 1) % 2 ^ 32 :=
  (creg_setCreg_same _ _ _).trans (Nat.mod_mod ..)

theorem vqState_started : (s.started vq x).vqState vq = s.vqState vq := by
  rw [State.vqState, State.field, creg_started _ _ _ (by omega), State.vqState, State.field]

theorem slotOf_started : (s.started vq x).slotOf = s.slotOf :=
  (regsChanged_setCreg (List.mem_singleton_self _)
    { s with launches := SMap.set {} s.launches s.tag x, tag := s.tag + 1 } _).slotOf fun o m => by
      simp only [List.mem_singleton, doorbell] at m; omega

variable {x}

theorem tag_mem_launchesOf (hx : x ≠ {}) (hv : x.vq = vq) : s.tag ∈ (s.started vq x).launchesOf vq := by
  refine List.mem_map.2 ⟨(s.tag, x), List.mem_filter.2 ⟨?_, by simp [hv]⟩, rfl⟩
  show (s.tag, x) ∈ SMap.set {} s.launches s.tag x
  rw [SMap.set, if_neg hx, SMap.mem_insert]
  exact .inl rfl

/-- A queue whose last launch has still workgroups to dispatch is at work. -/
theorem vqNext_started {slot : Nat} (bound : s.slotOf vq = some slot) (hx : x ≠ {}) (hv : x.vq = vq) (todo : x.dispatched = false) :
    (s.started vq x).vqNext vq = if (s.started vq x).waitsRestore vq then 3 else 1 := by
  have busy : ((s.started vq x).vqHead vq == (s.started vq x).vqTail vq &&
      ((s.started vq x).launchesOf vq).all fun l => ((s.started vq x).launch l).dispatched) ≠ true := by
    intro idle
    obtain ⟨-, done⟩ := (vqIdle_iff _ _).2 idle
    have := done _ (tag_mem_launchesOf s vq hx hv)
    rw [launch_started, if_pos rfl, todo] at this
    cases this
  rw [State.vqNext, if_neg busy, slotOf_started, bound]
  rfl

end

theorem packetLaunch_todo {s : State} {slot vq g : Nat} {reserved : Bool} {part : Nat}
    (check : packetCode (s.packetLaunch slot vq g).packet reserved part = none) :
    (s.packetLaunch slot vq g).dispatched = false ∧ s.packetLaunch slot vq g ≠ {} := by
  rw [packetCode_eq, List.find?_eq_none] at check
  have size := check 2 (by decide)
  simp only [packetTest, Bool.or_eq_true, beq_iff_eq, not_or] at size
  obtain ⟨⟨⟨nx, ny⟩, nz⟩, -⟩ := size
  have some_wg := Nat.mul_pos (Nat.mul_pos (Nat.pos_of_ne_zero nx) (Nat.pos_of_ne_zero ny)) (Nat.pos_of_ne_zero nz)
  refine ⟨?_, fun e => nx (by rw [e])⟩
  have grid : ¬(s.packetLaunch slot vq g).packet.nx * (s.packetLaunch slot vq g).packet.ny * (s.packetLaunch slot vq g).packet.nz ≤
      (s.packetLaunch slot vq g).nextWg := Nat.not_le.2 some_wg
  simp only [Launch.dispatched, grid]
  rfl

section
variable {s : State} {slot vq : Nat}

theorem packetAt_absent {level : Nat}
    (h : (s.deviceTr (s.dispatchPort (s.slotCtx slot)) (s.slotCtx slot) (s.packetVa slot vq) .read).1 = .absent level) :
    s.packetAt slot vq = .error 11 := by
  simp only [State.packetAt, State.deviceVa, h, State.homeTr]

theorem packetAt_prot {detail : Nat}
    (h : (s.deviceTr (s.dispatchPort (s.slotCtx slot)) (s.slotCtx slot) (s.packetVa slot vq) .read).1 = .prot detail) :
    s.packetAt slot vq = .error 12 := by
  simp only [State.packetAt, State.deviceVa, h, State.homeTr]

end

/-- The packet at VQHEAD (R380, R381). -/
theorem packetStart_answers (s : State) (vq slot : Nat) (bound : s.slotOf vq = some slot) (may : s.mayStart vq = true) :
    let ctx := s.slotCtx slot
    let halts (u : State) (code : Nat) : Prop := ∃ t, exec (.packetStart vq) s = .next t ∧ t = { u with cregs := t.cregs } ∧
      t.vqState vq = 4 ∧ t.field (doorbell vq + 8) 11 8 = code ∧ t.vqHead vq = s.vqHead vq ∧ ∀ o, o ≠ doorbell vq + 8 → t.creg o = u.creg o
    let read := s.deviceTr (s.dispatchPort ctx) ctx (s.packetVa slot vq) .read
    (∀ code, s.packetAt slot vq = .error code →
      (read.1 = .prot 6 → halts (s.auditEvent 1 ctx (s.packetVa slot vq)) code) ∧ (read.1 ≠ .prot 6 → halts s code)) ∧
    (∀ level, read.1 = .absent level → s.packetAt slot vq = .error 11) ∧
    (∀ detail, read.1 = .prot detail → s.packetAt slot vq = .error 12) ∧
    (∀ g, s.packetAt slot vq = .ok g →
      let x := s.packetLaunch slot vq g
      let check := packetCode x.packet (s.packetReserved g) (s.ctxPart ctx)
      let fails := failsCheck s g x.packet (s.ctxPart ctx)
      (∀ code, fails code → (∀ c, c < code → ¬fails c) → check = some code) ∧ ((∀ code, ¬fails code) → check = none) ∧
      (∀ code, check = some code → halts s code) ∧
      (∀ code, check = none → s.capacityCode x = some code → halts s code) ∧
      (check = none → s.capacityCode x = none → (x.packet.flags.testBit 2 = true → ∀ l ∈ s.launchesOf vq, (s.launch l).finished = true) →
        ∃ t, exec (.packetStart vq) s = .next t ∧ t = { s with cregs := t.cregs, launches := t.launches, tag := s.tag + 1 } ∧
          t.launch s.tag = x ∧ (∀ l, l ≠ s.tag → t.launch l = s.launch l) ∧
          t.vqState vq = (if t.waitsRestore vq then 3 else 1) ∧
          t.vqHead vq = (s.vqHead vq + 1) % 2 ^ 32)) := by
  intro ctx halts read
  have halted (u : State) (head : u.vqHead vq = s.vqHead vq) (code : Nat) (lt : code < 16)
      (h : exec (.packetStart vq) s = .next (u.setVq vq 4 code)) : halts u code := by
    obtain ⟨frame, state, refuse, same, others⟩ := setVq_halts u vq lt
    exact ⟨_, h, frame, state, refuse, same.trans head, others⟩
  refine ⟨fun code h => ?_, fun level h => ?_, fun detail h => ?_, fun g h => ?_⟩
  · have run := packetStart_unread bound may h
    have lt := packetAt_error h
    refine ⟨fun refused => halted _ (creg_auditEvent _ (by simp only [doorbell]; omega) ..) _ lt (run.trans ?_),
      fun reached => halted _ rfl _ lt (run.trans ?_)⟩
    · rw [State.auditPacket, State.auditTr, if_pos refused]
    · rw [State.auditPacket, State.auditTr, if_neg reached]
  · exact packetAt_absent h
  · exact packetAt_prot h
  · intro x check fails
    have test (code : Nat) : fails code ↔ packetTest x.packet (s.packetReserved g) (s.ctxPart ctx) code = true := failsCheck_iff ..
    refine ⟨fun code f first => packetCode_first ((test code).1 f) fun c hc => ?_, fun pass => packetCode_passes fun c => ?_,
      fun code c => halted s rfl code (packetCode_lt c) (packetStart_refused bound may h c),
      fun code c cap => halted s rfl code (capacityCode_lt cap) (packetStart_tooLarge bound may h c cap),
      fun c cap serial => ⟨_, packetStart_starts bound may h c cap serial, ?_⟩⟩
    · simpa [test] using first c hc
    · simpa [test] using pass c
    · have refreshed := regsChanged_vqRefresh (s.started vq x) vq
      obtain ⟨todo, nonempty⟩ := packetLaunch_todo c
      have state : (s.started vq x).vqState vq ≠ 4 ∧ (s.started vq x).vqState vq ≠ 5 := by
        rw [vqState_started]
        simp only [State.mayStart, Bool.and_eq_true, bne_iff_ne] at may
        obtain ⟨⟨⟨⟨-, notHalted⟩, notCancelling⟩, -⟩, -⟩ := may
        exact ⟨notHalted, notCancelling⟩
      refine ⟨?_, ?_, fun l hl => ?_, ?_, ?_⟩
      · rw [refreshed.launches]; exact refreshed.frame.trans (by rw [started_frame])
      · rw [refreshed.launch, launch_started, if_pos rfl]
      · rw [refreshed.launch, launch_started, if_neg hl]
      · rw [vqState_vqRefresh (fun h => state.2 h.1) state.1, refreshed.waitsRestore]
        exact vqNext_started s vq bound nonempty rfl todo
      · rw [refreshed.vqHead, vqHead_started]

/-- Settles O47: doorbell, cancel and resumption, the requester that may not write, and the packet at VQHEAD. -/
theorem queuesStartLaunches : Obligations.QueuesStartLaunches := by
  unfold Obligations.QueuesStartLaunches
  intro s vq agent v hvq
  refine ⟨doorbellWrite_rings s vq agent v hvq, fun may => ⟨launchCancel_cancels s vq agent hvq may, ?_, ?_⟩,
    agentWrite_forbidden s vq agent v hvq, packetStart_answers s vq⟩
  · exact (resumeAfterRefusal_resumes s vq agent hvq may).1
  · exact (resumeAfterRefusal_resumes s vq agent hvq may).2

end Sys2Proof.Machine
end

section

/-!
# Requests elsewhere: registers, traps and the end of a request
-/

namespace Sys2Proof.Machine

/-! ### Registers as a mode names them -/

/-- A write in a mode is the write that a warp in the mode makes. -/
theorem setReg_inMode (w : Warp) (h : Bool) (r l : Nat) (v : Word) :
    { w with handler := h }.setReg r l v = { w.setRegIn h r l v with handler := h } := by
  unfold Warp.setReg Warp.setRegIn
  split
  · rfl
  · split <;> rfl

/-- A register written in a handler mode, as a handler mode reads it: 248 to 254 are other rows in the other mode. -/
theorem regIn_setRegIn (w : Warp) (h : Bool) (r l : Nat) (v : Word) (g : Bool) (q j : Nat) :
    (w.setRegIn h r l v).regIn g q j = if q = r ∧ j = l ∧ q ≠ 255 ∧ sameRow g h q then v else w.regIn g q j := by
  have same : (w.setRegIn h r l v).regIn h q j = if q = r ∧ j = l ∧ q ≠ 255 then v else w.regIn h q j :=
    (congrArg (fun x : Warp => x.reg q j) (setReg_inMode w h r l v)).symm.trans (reg_setReg ..)
  have hidden (high : 248 ≤ q) : (w.setRegIn h r l v).regIn (!h) q j = w.regIn (!h) q j :=
    (congrArg (fun x : Warp => x.regIn (!h) q j) (setReg_inMode w h r l v)).symm.trans
      (regIn_setReg_hidden { w with handler := h } r l v q j high)
  have low (w : Warp) (below : q < 248) : w.regIn g q j = w.regIn h q j := by
    simp [Warp.regIn, Warp.reg, Nat.not_le.2 below]
  by_cases modes : g = h
  · subst modes; simpa [sameRow] using same
  · by_cases below : q < 248
    · rw [low _ below, low _ below, same]; simp [sameRow, below]
    · obtain rfl : g = !h := Bool.eq_not_of_ne modes
      rw [hidden (by omega)]; simp [sameRow, below]

/-- A register holds zero in a lane, or is `gz`. -/
theorem regIn_setRegIn_zero {w : Warp} {g : Bool} {q j : Nat} (zero : w.regIn g q j = 0) (h : Bool) (r l : Nat) :
    (w.setRegIn h r l 0).regIn g q j = 0 := by
  rw [regIn_setRegIn]; split
  · rfl
  · exact zero

theorem regIn_setRegIn_zero_same (w : Warp) (h : Bool) (r l : Nat) : (w.setRegIn h r l 0).regIn h r l = 0 := by
  by_cases gz : r = 255
  · subst gz; rfl
  · rw [regIn_setRegIn, if_pos ⟨rfl, rfl, gz, by simp [sameRow]⟩]

theorem regIn_setRegs_zero {w : Warp} {g : Bool} {q j : Nat} (zero : w.regIn g q j = 0) (h : Bool) (l : Nat) (rs : List Nat) :
    (w.setRegs h l rs 0).regIn g q j = 0 := by
  induction rs generalizing w with
  | nil => exact zero
  | cons r rs ih => exact ih (regIn_setRegIn_zero zero h r l)

theorem regIn_setRegs_zero_mem (w : Warp) (h : Bool) (l : Nat) {rs : List Nat} {n : Nat} (hn : n ∈ rs) :
    (w.setRegs h l rs 0).regIn h n l = 0 := by
  induction rs generalizing w with
  | nil => cases hn
  | cons r rs ih =>
    rcases List.mem_cons.1 hn with rfl | hn
    · exact regIn_setRegs_zero (regIn_setRegIn_zero_same w h n l) h l rs
    · exact ih _ hn

/-- The first `n` escort registers of a lane written. -/
theorem regIn_foldl_escort (w : Warp) (l base : Nat) (vs : List Word) (n : Nat) (hn : base + n ≤ 248) {j : Nat} (hj : j < n) :
    ((List.range n).foldl (fun w i => w.setRegIn false (base + i) l (vs.getD i 0)) w).regIn false (base + j) l = vs.getD j 0 := by
  induction n with
  | zero => cases hj
  | succ n ih =>
    rw [List.range_succ, List.foldl_append, List.foldl_cons, List.foldl_nil, regIn_setRegIn]
    by_cases last : j = n
    · subst last; rw [if_pos ⟨rfl, rfl, by omega, by simp [sameRow]⟩]
    · rw [if_neg (by omega)]; exact ih (by omega) (by omega)

/-- An escort written back reads as it was, below the handler rows. -/
theorem regIn_writeEscort (w : Warp) (l base : Nat) (vs : List Word) (hn : base + vs.length ≤ 248) {j : Nat} (hj : j < vs.length) :
    (w.writeEscort l base vs).regIn false (base + j) l = vs.getD j 0 := regIn_foldl_escort w l base vs _ hn hj

theorem writeEscort_zeros (w : Warp) (l base n : Nat) :
    w.writeEscort l base (List.replicate n 0) = (List.range n).foldl (fun w i => w.setRegIn false (base + i) l 0) w := by
  have zero (i : Nat) : (List.replicate n (0 : Word)).getD i 0 = 0 := by
    rw [List.getD_eq_getElem?_getD, List.getElem?_replicate]; split <;> rfl
  unfold Warp.writeEscort
  simp only [zero, List.length_replicate]

theorem regIn_writeEscort_zero {w : Warp} {g : Bool} {q j : Nat} (zero : w.regIn g q j = 0) (l base n : Nat) :
    (w.writeEscort l base (List.replicate n 0)).regIn g q j = 0 := by
  rw [writeEscort_zeros]
  exact List.foldlRecOn (motive := fun v : Warp => v.regIn g q j = 0) _ _ zero fun _ zero _ _ => regIn_setRegIn_zero zero ..

theorem regIn_writeEscort_zeros (w : Warp) (l base : Nat) {n j : Nat} (hj : j < n) :
    (w.writeEscort l base (List.replicate n 0)).regIn false (base + j) l = 0 := by
  rw [writeEscort_zeros]
  induction n with
  | zero => cases hj
  | succ n ih =>
    rw [List.range_succ, List.foldl_append]
    by_cases last : j = n
    · subst last; exact regIn_setRegIn_zero_same ..
    · exact regIn_setRegIn_zero (ih (by omega)) ..

/-! ### Traps -/

/-- A trap that is recorded is pending, by itself or with the lanes of one that it joins. -/
theorem exists_addTrap (w : Warp) {t : Trap} (hc : t.cancel = 0) :
    ∃ y ∈ (w.addTrap t).pendTraps, y.cause = t.cause ∧ y.pc = t.pc ∧ ∀ l, t.mask.getLsbD l = true → y.mask.getLsbD l = true := by
  unfold Warp.addTrap
  split
  · next any =>
    obtain ⟨u, hu, j⟩ := List.any_eq_true.1 any
    obtain ⟨mc, mp, mm⟩ := merge_eq j hc
    obtain ⟨cause, pc⟩ := joins_same j hc
    refine ⟨u.merge t, List.mem_map.2 ⟨u, hu, if_pos j⟩, mc.trans cause.symm, mp.trans pc.symm, fun l hl => ?_⟩
    rw [mm, BitVec.getLsbD_or, hl, Bool.or_true]
  · exact ⟨t, List.mem_append_right _ (List.mem_singleton_self t), rfl, rfl, fun _ hl => hl⟩

/-- A trap recorded for some lanes of a warp is pending there for each of them. -/
theorem addTrap_pending (s : State) (k w : Nat) {t : Trap} {ls : List Nat} (hm : t.mask = maskOf ls) (hc : t.cancel = 0) {l : Nat}
    (hl : l ∈ ls) :
    ∃ y ∈ ((s.addTrap k w t).warp k w).pendTraps, y.cause = t.cause ∧ y.pc = t.pc ∧ (l < 64 → y.mask.getLsbD l = true) := by
  rw [State.addTrap, warp_updWarp_same]
  obtain ⟨y, hy, cause, pc, mask⟩ := exists_addTrap (s.warp k w) hc
  exact ⟨y, hy, cause, pc, fun lt => mask l (hm ▸ getLsbD_maskOf hl lt)⟩

theorem regIn_addTrap (w : Warp) (t : Trap) (g : Bool) (q j : Nat) : (w.addTrap t).regIn g q j = w.regIn g q j := by
  unfold Warp.addTrap; split <;> rfl

/-! ### The end of a request -/

theorem bump_keeps (w : Warp) (c : Counter) (up : Bool) :
    w.bump c up = { w with ldc := (w.bump c up).ldc, stc := (w.bump c up).stc } := by cases c <;> rfl

/-- The end of a request leaves of its warp all but the class counters, and of its workgroup all but the warp. -/
theorem retire_warp (s : State) (r : Req) (k w : Nat) :
    ∃ a b, (s.retire r).warp k w = { s.warp k w with ldc := a, stc := b } := by
  unfold State.retire
  dsimp only
  split
  · exact ⟨_, _, rfl⟩
  · rw [warp_updWarp]
    split
    · next at_ => obtain ⟨rfl, rfl⟩ := at_; exact ⟨_, _, bump_keeps ..⟩
    · exact ⟨_, _, rfl⟩

theorem retire_pendTraps (s : State) (r : Req) (k w : Nat) : ((s.retire r).warp k w).pendTraps = (s.warp k w).pendTraps := by
  obtain ⟨a, b, h⟩ := retire_warp s r k w; rw [h]

theorem retire_regIn (s : State) (r : Req) (k w : Nat) (g : Bool) (q j : Nat) :
    ((s.retire r).warp k w).regIn g q j = (s.warp k w).regIn g q j := by
  obtain ⟨a, b, h⟩ := retire_warp s r k w; rw [h]; rfl

theorem retire_eq (s : State) (r : Req) :
    s.retire r = { s with reqs := s.reqs.filter fun q => q.id != r.id, wgs := (s.retire r).wgs } := by
  unfold State.retire
  dsimp only
  split <;> rfl

end Sys2Proof.Machine
end

section

/-!
# An error in a resting hamper (R99)
-/

namespace Sys2Proof.Machine

/-- The registers that an error in a hamper zeroes: the destination and the escort of its lane. -/
def Warp.zeroed (w : Warp) (r : Req) (l : Nat) : Warp :=
  (w.setRegs r.handler l (destsOf r.insn) 0).writeEscort l r.escBase (List.replicate r.escCount 0)

theorem zeroed_dest (w : Warp) (r : Req) (l : Nat) {n : Nat} (hn : n ∈ destsOf r.insn) : (w.zeroed r l).regIn r.handler n l = 0 :=
  regIn_writeEscort_zero (regIn_setRegs_zero_mem w r.handler l hn) ..

theorem zeroed_escort (w : Warp) (r : Req) (l : Nat) {j : Nat} (hj : j < r.escCount) :
    (w.zeroed r l).regIn false (r.escBase + j) l = 0 := regIn_writeEscort_zeros _ l r.escBase hj

theorem setRegIn_lanes (w : Warp) (h : Bool) (r l : Nat) (v : Word) : (w.setRegIn h r l v).lanes = w.lanes := by
  unfold Warp.setRegIn
  split
  · rfl
  · split <;> rfl

theorem setRegs_lanes (w : Warp) (h : Bool) (l : Nat) (rs : List Nat) (v : Nat) : (w.setRegs h l rs v).lanes = w.lanes := by
  induction rs generalizing w v with
  | nil => rfl
  | cons r rs ih => exact (ih ..).trans (setRegIn_lanes ..)

theorem zeroed_lane (w : Warp) (r : Req) (l j : Nat) : (w.zeroed r l).lane j = w.lane j := by
  rw [Warp.lane, Warp.zeroed, writeEscort_zeros, List.foldlRecOn (motive := fun v : Warp => v.lanes = w.lanes) _ _
    (setRegs_lanes ..) fun _ same _ _ => (setRegIn_lanes ..).trans same, Warp.lane]

/-- The trap of a lane whose hamper an error strikes: DATA_ERR at the lane's current PC. -/
def State.hamperTrap (s : State) (r : Req) (l : Nat) : Trap :=
  { cause := 9, pc := (s.lane r.wg r.warp l).pc, va := BitVec.ofNat 80 r.va, mask := maskOf [l] }

/-- The state after an error in the one hamper of a request of one lane; `s` is the state with the row retired. -/
def State.hamperStruck (s : State) (r : Req) (l : Nat) (t : Trap) : State :=
  ((s.updWarp r.wg r.warp fun w => w.zeroed r l).addTrap r.wg r.warp t).retire r

theorem retireRow_wgs (s : State) (row : Row) : (s.retireRow row).wgs = s.wgs := by
  unfold State.retireRow; split <;> rfl

theorem retireHamper_wgs (s : State) (r : Req) (i : Nat) : (s.retireHamper r i).wgs = s.wgs := by
  unfold State.retireHamper
  split
  · exact retireRow_wgs ..
  · exact retireRow_wgs ..
  · rfl

/-- Neither the row's retirement nor the zeros move a lane. -/
theorem lane_retired_zeroed (s : State) (r : Req) (l j : Nat) :
    ((s.retireHamper r 0).updWarp r.wg r.warp fun w => w.zeroed r l).lane r.wg r.warp j = s.lane r.wg r.warp j := by
  rw [State.lane, warp_updWarp_same, zeroed_lane, State.warp, State.wg, retireHamper_wgs]; rfl

/-- An error in the one hamper of a request of one lane, where it rests. -/
theorem hamperEccError_strikes {s : State} {r : Req} {x : Slot} (found : s.reqs.find? (fun q => q.id == r.id) = some r)
    (one : r.slots = [x]) (resting : r.resting = [0]) :
    exec (.hamperEccError r.id) s = .next ((s.retireHamper r 0).hamperStruck r x.lane (s.hamperTrap r x.lane)) := by
  have req : s.req? r.id = some r := found
  have pcs (n : Nat) : dedup [n] = [n] := rfl
  show execHamperEccError r.id s = _
  unfold execHamperEccError
  have at_ (l : Nat) := lane_retired_zeroed s r x.lane l
  simp only [Warp.zeroed, BitVec.ofNat_eq_ofNat] at at_
  simp [req, resting, one, pcs, at_, State.hamperStruck, State.hamperTrap, Warp.zeroed]

/-- A hamper in a packet or in the waiter table does not rest. -/
theorem hamperEccError_elsewhere {s : State} {r : Req} (found : s.reqs.find? (fun q => q.id == r.id) = some r)
    (resting : r.resting = []) : exec (.hamperEccError r.id) s = .refused (.notEnabled "HAMPER_ECC_ERROR") := by
  have req : s.req? r.id = some r := found
  show execHamperEccError r.id s = _
  unfold execHamperEccError
  simp [req, resting]

/-- What the error leaves: the request gone, the trap pending, zeros in the destination and the escort. -/
theorem hamperStruck_leaves (s : State) (r : Req) (l : Nat) {t : Trap} (hm : t.mask = maskOf [l]) (hc : t.cancel = 0) :
    (∀ q ∈ (s.hamperStruck r l t).reqs, q.id ≠ r.id) ∧
      (∃ y ∈ ((s.hamperStruck r l t).warp r.wg r.warp).pendTraps,
        y.cause = t.cause ∧ y.pc = t.pc ∧ (l < 64 → y.mask.getLsbD l = true)) ∧
      (∀ n ∈ destsOf r.insn, ((s.hamperStruck r l t).warp r.wg r.warp).regIn r.handler n l = 0) ∧
      (∀ j, j < r.escCount → ((s.hamperStruck r l t).warp r.wg r.warp).regIn false (r.escBase + j) l = 0) := by
  have regs (g : Bool) (q : Nat) : ((s.hamperStruck r l t).warp r.wg r.warp).regIn g q l =
      ((s.warp r.wg r.warp).zeroed r l).regIn g q l := by
    rw [State.hamperStruck, retire_regIn, State.addTrap, warp_updWarp_same, regIn_addTrap, warp_updWarp_same]
  refine ⟨retire_id _ r, ?_, fun n hn => ?_, fun j hj => ?_⟩
  · rw [State.hamperStruck, retire_pendTraps]
    exact addTrap_pending _ r.wg r.warp hm hc (List.mem_singleton_self l)
  · rw [regs]; exact zeroed_dest _ r l hn
  · rw [regs]; exact zeroed_escort _ r l hj

theorem hamperStruck_frame (s : State) (r : Req) (l : Nat) (t : Trap) :
    s.hamperStruck r l t = { s with reqs := (s.hamperStruck r l t).reqs, wgs := (s.hamperStruck r l t).wgs } := by
  rw [State.hamperStruck, retire_eq]; rfl

theorem mem_retireRow (s : State) (row : Row) : row ∈ (s.retireRow row).rows := by
  unfold State.retireRow
  split
  · next known => simpa using known
  · exact List.mem_cons_self ..

theorem retireRow_cores (s : State) (row : Row) : (s.retireRow row).cores = s.cores := by
  unfold State.retireRow; split <;> rfl

theorem retireRow_ptimeNs (s : State) (row : Row) : (s.retireRow row).ptimeNs = s.ptimeNs := by
  unfold State.retireRow; split <;> rfl

/-- A core counts an error at its time. -/
theorem coreError_counts (s : State) (core : Nat) : s.ptimeNs.toNat ∈ ((s.coreError core).coreAt core).errorTimes := by
  unfold State.coreError State.updCore State.coreAt
  rw [SMap.get_upd, if_pos rfl]
  exact List.mem_cons_self ..

/-- An error in a hamper (R99). -/
theorem hamperEccError_answers {s : State} {r : Req} {x : Slot} (found : s.reqs.find? (fun q => q.id == r.id) = some r)
    (one : r.slots = [x]) :
    let struck (row : Row) (t : State) : Prop := (∀ q ∈ t.reqs, q.id ≠ r.id) ∧ row ∈ t.rows ∧
      (∃ y ∈ (t.warp r.wg r.warp).pendTraps, y.cause = 9 ∧ y.pc = (s.lane r.wg r.warp x.lane).pc ∧
        (x.lane < 64 → y.mask.getLsbD x.lane = true)) ∧
      (∀ n ∈ destsOf r.insn, (t.warp r.wg r.warp).regIn r.handler n x.lane = 0) ∧
      (∀ j, j < r.escCount → (t.warp r.wg r.warp).regIn false (r.escBase + j) x.lane = 0)
    (∀ die bank, r.hampers = [.rest die bank] →
      ∃ t, exec (.hamperEccError r.id) s = .next t ∧ struck (.restStop die bank) t ∧ t.cores = s.cores) ∧
    (r.hampers = [.base] → ∃ t, exec (.hamperEccError r.id) s = .next t ∧ struck (.baseCamp r.core) t ∧
      s.ptimeNs.toNat ∈ (t.coreAt r.core).errorTimes) ∧
    (r.hampers = [.packet] ∨ r.hampers = [.table] →
      exec (.hamperEccError r.id) s = .refused (.notEnabled "HAMPER_ECC_ERROR")) := by
  intro struck
  have strikes (resting : r.resting = [0]) (u : State) (retired : s.retireHamper r 0 = u) (row : Row) (known : row ∈ u.rows) :
      ∃ t, exec (.hamperEccError r.id) s = .next t ∧ struck row t ∧ t.cores = u.cores := by
    obtain ⟨gone, trapped, dest, escort⟩ := hamperStruck_leaves u r x.lane (t := s.hamperTrap r x.lane) rfl rfl
    refine ⟨_, hamperEccError_strikes found one resting, ?_⟩
    rw [retired]
    exact ⟨⟨gone, by rw [hamperStruck_frame]; exact known, trapped, dest, escort⟩, by rw [hamperStruck_frame]⟩
  refine ⟨fun die bank at_ => ?_, fun at_ => ?_, fun at_ => hamperEccError_elsewhere found ?_⟩
  · obtain ⟨t, next, leaves, cores⟩ := strikes (by simp [Req.resting, at_]) (s.retireRow (.restStop die bank))
      (by simp [State.retireHamper, at_]) (.restStop die bank) (mem_retireRow ..)
    exact ⟨t, next, leaves, cores.trans (retireRow_cores ..)⟩
  · obtain ⟨t, next, leaves, cores⟩ := strikes (by simp [Req.resting, at_]) ((s.retireRow (.baseCamp r.core)).coreError r.core)
      (by simp [State.retireHamper, at_]) (.baseCamp r.core) (mem_retireRow ..)
    refine ⟨t, next, leaves, ?_⟩
    rw [State.coreAt, cores, ← retireRow_ptimeNs s (.baseCamp r.core)]
    exact coreError_counts _ _
  · rcases at_ with at_ | at_ <;> simp [Req.resting, at_]

end Sys2Proof.Machine
end

section

/-!
# The recall of a request, and the end of its launch (R104, R105, R108, R307)
-/

namespace Sys2Proof.Machine

theorem uncount_eq (s : State) (core ctx page : Nat) : s.uncount core ctx page = { s with cregs := (s.uncount core ctx page).cregs } := by
  unfold State.uncount
  dsimp only
  split <;> rfl

/-- A state without a request, in which a pool that the request was in no longer counts it. -/
def State.uncounted (s : State) (r : Req) : State :=
  let s1 := { s with reqs := s.reqs.filter fun q => q.id != r.id }
  if r.phase == .parked || r.phase == .miss then (s1.uncount r.core (s.ctxNo r.wg) r.page).recountPool (quadOf r.core) else s1

theorem uncounted_eq (s : State) (r : Req) :
    s.uncounted r = { s with reqs := s.reqs.filter fun q => q.id != r.id, cregs := (s.uncounted r).cregs } := by
  unfold State.uncounted
  dsimp only
  split
  · rw [uncount_eq]; rfl
  · rfl

/-- The request joins the records of its workgroup. -/
def State.recorded (s : State) (r : Req) : State := s.updWg r.wg fun g => { g with recs := g.recs ++ [.inl r] }

theorem recallReq_records {s : State} {r : Req} {x : Slot} (one : r.slots = [x]) (data : r.fetch = false)
    (good : r.phase ≠ .performed ∨ x.bad = false) : s.recallReq r = (s.uncounted r).recorded r := by
  have noError : ¬(r.phase == .performed && r.slots.any (·.bad)) = true := by
    rw [one]; rcases good with h | h <;> simp [h]
  have noFetch : ¬r.fetch = true := by simp [data]
  unfold State.recallReq
  dsimp only
  rw [if_neg noFetch, if_neg noError]
  rfl

theorem recallReq_drops {s : State} {r : Req} {x : Slot} (one : r.slots = [x]) (data : r.fetch = false)
    (performed : r.phase = .performed) (bad : x.bad = true) : s.recallReq r = ((s.uncounted r).recallBad r).retire r := by
  have error : (r.phase == .performed && r.slots.any (·.bad)) = true := by simp [one, performed, bad]
  have empty : r.sound.slots.isEmpty = true := by simp [Req.sound, one, bad]
  have noFetch : ¬r.fetch = true := by simp [data]
  unfold State.recallReq
  dsimp only
  rw [if_neg noFetch, if_pos error, if_pos empty]
  rfl

theorem uncounted_wg (s : State) (r : Req) (k : Nat) : (s.uncounted r).wg k = s.wg k := by rw [uncounted_eq]; rfl

theorem uncounted_takes (s : State) (r : Req) : (s.uncounted r).takes r = s.takes r := by
  rw [State.takes, uncounted_wg]; rfl

/-- A change of a warp is none of the records. -/
theorem updWarp_recs (s : State) (k w : Nat) (g : Warp → Warp) (j : Nat) : ((s.updWarp k w g).wg j).recs = (s.wg j).recs := by
  rw [State.updWarp, wg_updWg]
  split
  · next same => rw [same]
  · rfl

theorem retire_recs (s : State) (r : Req) (k : Nat) : ((s.retire r).wg k).recs = (s.wg k).recs := by
  unfold State.retire
  dsimp only
  split
  · rfl
  · exact updWarp_recs ..

theorem returnEscort_recs (s : State) (r : Req) (k : Nat) : ((s.returnEscort r).wg k).recs = (s.wg k).recs := by
  unfold State.returnEscort
  split
  · rfl
  · exact updWarp_recs ..

/-- The return of one lane's escort. -/
theorem returnEscort_one {s : State} {r : Req} {x : Slot} (one : r.slots = [x]) (takes : s.takes r = true) (escorted : r.noEsc = false) :
    s.returnEscort r = s.updWarp r.wg r.warp fun w => w.writeEscort x.lane r.escBase x.esc := by
  rw [State.returnEscort, if_neg (by simp [takes, escorted]), one]
  rfl

theorem dataErr_one {s : State} {r : Req} {x : Slot} (one : r.slots = [x]) (bad : x.bad = true) :
    s.dataErr r = s.addTrap r.wg r.warp { cause := 9, pc := r.pc, va := BitVec.ofNat 80 x.addr, mask := maskOf [x.lane] } := by
  unfold State.dataErr
  rw [one, List.filter_cons, if_pos bad]
  rfl

/-- A lane that read an uncorrectable error takes DATA_ERR where its request would be recorded. -/
theorem recallBad_one {s : State} {r : Req} {x : Slot} (one : r.slots = [x]) (bad : x.bad = true) :
    s.recallBad r = (s.returnEscort r).addTrap r.wg r.warp
      { cause := 9, pc := r.pc, va := BitVec.ofNat 80 x.addr, mask := maskOf [x.lane] } := by
  have all : r.slots.filter (·.bad) = r.slots := by simp [one, bad]
  rw [State.recallBad, all, dataErr_one one bad]

/-- What the recall of such a request leaves. -/
theorem recallReq_drops_leaves {s : State} {r : Req} {x : Slot} (one : r.slots = [x]) (data : r.fetch = false)
    (performed : r.phase = .performed) (bad : x.bad = true) :
    (∀ q ∈ (s.recallReq r).reqs, q.id ≠ r.id) ∧ ((s.recallReq r).wg r.wg).recs = (s.wg r.wg).recs ∧
      (∃ y ∈ ((s.recallReq r).warp r.wg r.warp).pendTraps,
        y.cause = 9 ∧ y.pc = r.pc ∧ (x.lane < 64 → y.mask.getLsbD x.lane = true)) ∧
      (s.takes r = true → r.noEsc = false → x.esc.length = r.escCount → r.escBase + r.escCount ≤ 248 → ∀ j, j < r.escCount →
        ((s.recallReq r).warp r.wg r.warp).regIn false (r.escBase + j) x.lane = x.esc.getD j 0) := by
  rw [recallReq_drops one data performed bad, recallBad_one one bad]
  refine ⟨retire_id _ r, ?_, ?_, fun takes escorted length below j hj => ?_⟩
  · rw [retire_recs, State.addTrap, updWarp_recs, returnEscort_recs, uncounted_wg]
  · rw [retire_pendTraps]
    exact addTrap_pending _ r.wg r.warp rfl rfl (List.mem_singleton_self _)
  · rw [retire_regIn, State.addTrap, warp_updWarp_same, regIn_addTrap,
      returnEscort_one one (by rw [uncounted_takes, takes]) escorted, warp_updWarp_same]
    exact regIn_writeEscort _ _ _ _ (by omega) (by omega)

/-- What the recall of any other request leaves. -/
theorem recallReq_records_leaves {s : State} {r : Req} {x : Slot} (one : r.slots = [x]) (data : r.fetch = false)
    (good : r.phase ≠ .performed ∨ x.bad = false) :
    (∀ q ∈ (s.recallReq r).reqs, q.id ≠ r.id) ∧ ((s.recallReq r).wg r.wg).recs = (s.wg r.wg).recs ++ [.inl r] := by
  rw [recallReq_records one data good]
  refine ⟨?_, ?_⟩
  · show ∀ q ∈ (s.uncounted r).reqs, q.id ≠ r.id
    rw [uncounted_eq]
    simp
  · rw [State.recorded, wg_updWg_same, uncounted_wg]

/-- A recall (R104, R105, R307). -/
theorem recall_answers {s : State} {r : Req} {x : Slot} (found : s.reqs.find? (fun q => q.id == r.id) = some r)
    (one : r.slots = [x]) (data : r.fetch = false) (saving : s.saving r.wg = true) (stopped : s.allStopped r.wg = true)
    (recordable : r.recordable = true) (turn : s.recordTurn r = true) :
    ∃ t, exec (.recall r.id) s = .next t ∧ (∀ q ∈ t.reqs, q.id ≠ r.id) ∧ t.mem = s.mem ∧
      (r.phase ≠ .performed ∨ x.bad = false → (t.wg r.wg).recs = (s.wg r.wg).recs ++ [.inl r]) ∧
      (r.phase = .performed → x.bad = true → (t.wg r.wg).recs = (s.wg r.wg).recs ∧
        (∃ y ∈ (t.warp r.wg r.warp).pendTraps, y.cause = 9 ∧ y.pc = r.pc ∧ (x.lane < 64 → y.mask.getLsbD x.lane = true)) ∧
        (s.takes r = true → r.noEsc = false → x.esc.length = r.escCount → r.escBase + r.escCount ≤ 248 → ∀ j, j < r.escCount →
          (t.warp r.wg r.warp).regIn false (r.escBase + j) x.lane = x.esc.getD j 0)) := by
  have req : s.req? r.id = some r := found
  have next : exec (.recall r.id) s = .next (s.recallReq r) := by
    show execRecall r.id s = _
    simp [execRecall, req, event, saving, stopped, recordable, turn]
  refine ⟨_, next, ?_, recallReq_mem s r, fun good => (recallReq_records_leaves one data good).2,
    fun performed bad => (recallReq_drops_leaves one data performed bad).2⟩
  by_cases good : r.phase ≠ .performed ∨ x.bad = false
  · exact (recallReq_records_leaves one data good).1
  · obtain ⟨performed, bad⟩ : r.phase = .performed ∧ x.bad = true := by simpa using good
    exact (recallReq_drops_leaves one data performed bad).1

/-- The end of the launch drops the request (R108). -/
theorem contextEnd_drops {s : State} {r : Req} (found : s.reqs.find? (fun q => q.id == r.id) = some r)
    (ending : (s.wg r.wg).status = .ending) :
    exec (.contextEnd r.id) s = .next { s with reqs := s.reqs.filter fun q => q.id != r.id } := by
  have req : s.req? r.id = some r := found
  show execContextEnd r.id s = _
  simp [execContextEnd, req, event, ending]

end Sys2Proof.Machine
end

section

/-!
# A lane of the overflow queue (R73, R74)
-/

namespace Sys2Proof.Machine

/-- No lane waits for a word. -/
def State.noWaiter (s : State) : Prop := ∀ q ∈ s.reqs, q.phase ≠ .waiter

theorem feWaiter_none {s : State} (h : s.noWaiter) (k a : Nat) (take : Bool) : s.feWaiter k a take = none := by
  have : (s.reqs.filter fun r => r.phase == .waiter && r.wg == k && r.va / 4 == a / 4 && r.isTake == take) = [] := by
    refine List.filter_eq_nil_iff.2 fun q hq => ?_
    simp [h q hq]
  rw [State.feWaiter, this]
  rfl

/-- With no lane waiting, none is served. -/
theorem serveWord_idle {s : State} (h : s.noWaiter) (k a fuel : Nat) : s.serveWord k a fuel = s := by
  cases fuel with
  | zero => rfl
  | succ fuel => simp [State.serveWord, feWaiter_none h]

theorem mem_setReq {s : State} {r q : Req} (hq : q ∈ (s.setReq r).reqs) : q = r ∨ q ∈ s.reqs := by
  obtain ⟨p, hp, rfl⟩ := List.mem_map.1 hq
  split
  · exact .inl rfl
  · exact .inr hp

theorem setReq_mem_self {s : State} {r p : Req} (hp : p ∈ s.reqs) (same : p.id = r.id) : r ∈ (s.setReq r).reqs :=
  List.mem_map.2 ⟨p, hp, if_pos same⟩

theorem noWaiter_setReq {s : State} (h : s.noWaiter) {r : Req} (hr : r.phase ≠ .waiter) : (s.setReq r).noWaiter := fun q hq => by
  rcases mem_setReq hq with rfl | hq
  · exact hr
  · exact h q hq

theorem scratchBadAt_clean {s : State} {k : Nat} (clean : (s.coreAt (s.wg k).core).storeBad = []) (a n : Nat) :
    s.scratchBadAt k a n = false := by
  simp [State.scratchBadAt, State.storeBadAt, clean]

theorem fe_setFe (s : State) (k a : Nat) (full : Bool) : SMap.get false ((s.setFe k a full).wg k).fe (a / 4) = full := by
  rw [State.setFe, wg_updWg_same, SMap.get_set_same]

/-! ### A lane that takes -/

/-- The request of an `ldfe` once it has taken its word. -/
def State.taken (s : State) (r : Req) : Req :=
  { r with phase := .performed, hampers := r.inPacket
           slots := r.slots.map fun x => { x with reply := (s.wg r.wg).scratchRead r.va 4, bad := false } }

/-- The state once an `ldfe` has taken a word without an error: `u` is the state with the read noted. -/
def State.wordTaken (s u : State) (r : Req) : State := (u.setReq (s.taken r)).setFe r.wg r.va false

theorem takeWord_clean {s : State} {r : Req} (clean : (s.coreAt (s.wg r.wg).core).storeBad = []) :
    ∃ u, u.reqs = s.reqs ∧ s.takeWord r = s.wordTaken u r := by
  refine ⟨(s.sawAll (some r.wg) r.core r.va 4).readChain (some r.wg) r.core (r.wg, r.warp) (r.lanes.headD 0) r.va 4, rfl, ?_⟩
  have good := scratchBadAt_clean clean r.va 4
  unfold State.takeWord
  dsimp only
  rw [good]
  rfl

/-- A step of a lane that takes from a full word. -/
theorem stepWord_takes {s : State} {r p : Req} (hp : p ∈ s.reqs) (same : p.id = r.id) (idle : s.noWaiter)
    (clean : (s.coreAt (s.wg r.wg).core).storeBad = []) (take : r.isTake = true) (full : s.feFull r.wg r.va = true) :
    SMap.get false ((s.stepWord r).wg r.wg).fe (r.va / 4) = false ∧ s.taken r ∈ (s.stepWord r).reqs := by
  obtain ⟨u, reqs, step⟩ := takeWord_clean clean
  have idle : (s.wordTaken u r).noWaiter := noWaiter_setReq (s := u) (fun q hq => idle q (reqs ▸ hq)) (by simp [State.taken])
  have stepped : s.stepWord r = s.wordTaken u r := by
    unfold State.stepWord
    dsimp only
    rw [full, take, if_pos (by decide), if_pos rfl, step, serveWord_idle idle]
  rw [stepped]
  exact ⟨fe_setFe .., setReq_mem_self (s := u) (reqs ▸ hp) same⟩

/-! ### A lane that fills -/

theorem scratchAt_setScratch (g : Workgroup) (a b : Nat) (v : Byte) :
    (g.setScratch a v).scratchAt b = if b = a then v else g.scratchAt b := SMap.get_set ..

theorem scratchAt_scratchWrite (g : Workgroup) (a n v : Nat) {i : Nat} (hi : i < n) :
    (g.scratchWrite a n v).scratchAt (a + i) = BitVec.ofNat 8 (v / 256 ^ i) := by
  unfold Workgroup.scratchWrite
  induction n with
  | zero => cases hi
  | succ n ih =>
    rw [List.range_succ, List.foldl_append, List.foldl_cons, List.foldl_nil, scratchAt_setScratch]
    by_cases last : i = n
    · subst last; rw [if_pos rfl]
    · rw [if_neg (by omega)]; exact ih (by omega)

/-- The value of a number's bytes. -/
theorem bytesVal_bytes (n v : Nat) : bytesVal ((List.range n).map fun i => BitVec.ofNat 8 (v / 256 ^ i)) = v % 256 ^ n := by
  induction n generalizing v with
  | zero => simp [bytesVal, Nat.mod_one]
  | succ n ih =>
    have tail : ((List.range n).map Nat.succ).map (fun i => BitVec.ofNat 8 (v / 256 ^ i)) =
        (List.range n).map fun i => BitVec.ofNat 8 (v / 256 / 256 ^ i) := by
      rw [List.map_map]
      refine List.map_congr_left fun i _ => ?_
      rw [Function.comp_apply, Nat.pow_succ', Nat.div_div_eq_div_mul]
    rw [List.range_succ_eq_map, List.map_cons, tail, bytesVal, ih, Nat.pow_zero, Nat.div_one, BitVec.toNat_ofNat]
    exact (congrArg (v % ·) Nat.pow_succ').trans Nat.mod_mul |>.symm

theorem scratchRead_congr {g h : Workgroup} (same : g.scratch = h.scratch) (a n : Nat) : g.scratchRead a n = h.scratchRead a n := by
  simp only [Workgroup.scratchRead, Workgroup.scratchAt, same]

theorem scratchRead_scratchWrite (g : Workgroup) (a n v : Nat) : (g.scratchWrite a n v).scratchRead a n = v % 256 ^ n := by
  rw [← bytesVal_bytes, Workgroup.scratchRead]
  congr 1
  exact List.map_congr_left fun i hi => scratchAt_scratchWrite g a n v (List.mem_range.1 hi)

theorem scratchStore_wgs (s : State) (k : Nat) (who : Nat × Nat) (l b a n v : Nat) :
    (s.scratchStore k who l b a n v).wgs = (s.updWg k fun g => g.scratchWrite a n v).wgs := by
  rw [State.scratchStore, noteChain_wgs]; rfl

/-- A change of a warp is none of the full/empty bits and of scratch. -/
theorem updWarp_words (s : State) (k w : Nat) (g : Warp → Warp) (j : Nat) :
    ((s.updWarp k w g).wg j).fe = (s.wg j).fe ∧ ((s.updWarp k w g).wg j).scratch = (s.wg j).scratch := by
  rw [State.updWarp, wg_updWg]
  split
  · next same => subst same; exact ⟨rfl, rfl⟩
  · exact ⟨rfl, rfl⟩

theorem retire_words (s : State) (r : Req) (k : Nat) :
    ((s.retire r).wg k).fe = (s.wg k).fe ∧ ((s.retire r).wg k).scratch = (s.wg k).scratch := by
  unfold State.retire
  dsimp only
  split
  · exact ⟨rfl, rfl⟩
  · exact updWarp_words ..

/-- What an `stfe` leaves of its word. -/
theorem fillWord_leaves {s : State} {r : Req} {x : Slot} (one : r.slots = [x]) :
    SMap.get false ((s.fillWord r).wg r.wg).fe (r.va / 4) = true ∧ (∀ q ∈ (s.fillWord r).reqs, q.id ≠ r.id) ∧
      ((s.fillWord r).wg r.wg).scratchRead r.va 4 = x.x % 2 ^ 32 := by
  unfold State.fillWord
  refine ⟨?_, retire_id _ r, ?_⟩
  · rw [(retire_words ..).1]; exact fe_setFe ..
  · rw [scratchRead_congr (retire_words ..).2, State.setFe, wg_updWg_same, one]
    refine Eq.trans (scratchRead_congr (h := (s.wg r.wg).scratchWrite r.va 4 x.x) ?_ ..) (scratchRead_scratchWrite ..)
    show (State.wg _ r.wg).scratch = _
    rw [State.wg, scratchStore_wgs]
    exact congrArg Workgroup.scratch (wg_updWg_same ..)

theorem fillWord_noWaiter {s : State} (h : s.noWaiter) (r : Req) : (s.fillWord r).noWaiter := fun q hq => by
  refine h q ?_
  have hq := (loses_retire _ r).reqs q hq
  rwa [State.setFe, show ∀ (u : State) (g : Workgroup → Workgroup), (u.updWg r.wg g).reqs = u.reqs from fun _ _ => rfl,
    State.scratchStore, noteChain_reqs] at hq

/-- A step of a lane that fills an empty word. -/
theorem stepWord_fills {s : State} {r : Req} (idle : s.noWaiter) (fill : r.isTake = false) (empty : s.feFull r.wg r.va = false) :
    s.stepWord r = s.fillWord r := by
  unfold State.stepWord
  dsimp only
  rw [empty, fill, if_pos (by decide), if_neg (by decide), serveWord_idle (fillWord_noWaiter idle r)]

/-! ### A lane that waits -/

/-- The request of a lane that blocks while an entry of the waiter table is free. -/
def State.waiting (s : State) (r : Req) : Req := { r with phase := .waiter, order := s.seq, hampers := r.hampers.map fun _ => .table }

theorem stepWord_blocks {s : State} {r p : Req} (hp : p ∈ s.reqs) (same : p.id = r.id) (room : s.tableFull r.core = false)
    (blocked : r.isTake ≠ s.feFull r.wg r.va) : s.waiting r ∈ (s.stepWord r).reqs := by
  have stepped : s.stepWord r = { s.setReq (s.waiting r) with seq := s.seq + 1 } := by
    unfold State.stepWord
    dsimp only
    rw [if_neg (by simpa using blocked), State.blockWord, room]
    rfl
  rw [stepped]
  exact setReq_mem_self (s := s) hp same

/-- The oldest lane of the overflow queue is stepped when the table has room. -/
theorem overflowStep_steps {s : State} {r : Req} (found : s.reqs.find? (fun q => q.id == r.id) = some r) (phase : r.phase = .overflow)
    (room : s.tableFull r.core = false) (oldest : ∀ q ∈ s.reqs, q.phase = .overflow → q.core = r.core → r.order ≤ q.order) :
    exec (.waiterOverflowStep r.id) s = .next (s.stepWord r) := by
  have req : s.req? r.id = some r := found
  have first : (s.reqs.any fun q => q.phase == .overflow && q.core == r.core && q.order < r.order) = false := by
    simpa [List.any_eq_false, and_imp] using oldest
  show execWaiterOverflowStep r.id s = _
  simp [execWaiterOverflowStep, req, event, phase, room, first]

/-- A step of the overflow queue (R73, R74). -/
theorem overflowStep_answers {s : State} {r : Req} {x : Slot} (found : s.reqs.find? (fun q => q.id == r.id) = some r)
    (one : r.slots = [x]) (phase : r.phase = .overflow)
    (room : (s.reqs.filter fun q => q.phase == .waiter && q.core == r.core).length < 256)
    (oldest : ∀ q ∈ s.reqs, q.phase = .overflow → q.core = r.core → r.order ≤ q.order) (idle : s.noWaiter)
    (clean : (s.coreAt (s.wg r.wg).core).storeBad = []) :
    let full := SMap.get false (s.wg r.wg).fe (x.addr / 4)
    (∀ f, r.insn = .ldfe f → ∃ t, exec (.waiterOverflowStep r.id) s = .next t ∧
      (full = true → SMap.get false (t.wg r.wg).fe (x.addr / 4) = false ∧ ∃ q ∈ t.reqs, q.id = r.id ∧ q.phase = .performed ∧
        q.slots = [{ x with reply := (s.wg r.wg).scratchRead x.addr 4, bad := false }]) ∧
      (full = false → ∃ q ∈ t.reqs, q.id = r.id ∧ q.phase = .waiter)) ∧
    (∀ f, r.insn = .stfe f → ∃ t, exec (.waiterOverflowStep r.id) s = .next t ∧
      (full = false → SMap.get false (t.wg r.wg).fe (x.addr / 4) = true ∧ (∀ q ∈ t.reqs, q.id ≠ r.id) ∧
        (t.wg r.wg).scratchRead x.addr 4 = x.x % 2 ^ 32) ∧
      (full = true → ∃ q ∈ t.reqs, q.id = r.id ∧ q.phase = .waiter)) := by
  intro full
  have va : r.va = x.addr := by simp [Req.va, one]
  have word : s.feFull r.wg r.va = full := by rw [va]; rfl
  have room : s.tableFull r.core = false := by simpa [State.tableFull] using room
  have here : r ∈ s.reqs := List.mem_of_find?_eq_some found
  have next := overflowStep_steps found phase room oldest
  have blocks (blocked : r.isTake ≠ full) : ∃ q ∈ (s.stepWord r).reqs, q.id = r.id ∧ q.phase = .waiter :=
    ⟨_, stepWord_blocks here rfl room (word ▸ blocked), rfl, rfl⟩
  refine ⟨fun f ldfe => ?_, fun f stfe => ?_⟩
  · have take : r.isTake = true := by simp [Req.isTake, ldfe]
    refine ⟨_, next, fun isFull => ?_, fun empty => blocks (by simp [take, empty])⟩
    have taken := stepWord_takes here rfl idle clean take (word.trans isFull)
    rw [va] at taken
    exact ⟨taken.1, _, taken.2, rfl, rfl, by simp [State.taken, one, va]⟩
  · have fill : r.isTake = false := by simp [Req.isTake, stfe]
    refine ⟨_, next, fun empty => ?_, fun isFull => blocks (by simp [fill, isFull])⟩
    rw [stepWord_fills idle fill (word.trans empty), ← va]
    exact fillWord_leaves one

end Sys2Proof.Machine
end

section

/-!
# A window access that is refused where it arrives (R26, R27, R304)
-/

namespace Sys2Proof.Machine

theorem auditPush_keeps (s : State) (body : List Byte) : (s.auditPush body).wgs = s.wgs ∧ (s.auditPush body).reqs = s.reqs := by
  unfold State.auditPush
  dsimp only
  split
  · exact ⟨rfl, rfl⟩
  · refine ⟨foldl_keeps (f := State.wgs) ?_ .., foldl_keeps (f := State.reqs) ?_ ..⟩ <;> exact fun _ _ => rfl

/-- An entry of the audit log leaves workgroups and requests. -/
theorem auditEvent_keeps (s : State) (type ctx v : Nat) :
    (s.auditEvent type ctx v).wgs = s.wgs ∧ (s.auditEvent type ctx v).reqs = s.reqs := by
  unfold State.auditEvent State.auditAppend State.auditHeadSign
  dsimp only
  split
  · exact ⟨(auditPush_keeps ..).1.trans (auditPush_keeps ..).1, (auditPush_keeps ..).2.trans (auditPush_keeps ..).2⟩
  · exact auditPush_keeps ..

/-- Of requests that are retired together, none stays. -/
theorem foldl_retire_id {l : List Req} {r : Req} (hr : r ∈ l) (s : State) :
    ∀ q ∈ (l.foldl (fun s q => s.retire q) s).reqs, q.id ≠ r.id := by
  obtain ⟨before, after, rfl⟩ := List.append_of_mem hr
  rw [List.foldl_append, List.foldl_cons]
  exact fun q hq => retire_id _ r q ((loses_foldl loses_retire after _).reqs q hq)

/-- The requests of an instruction have ended, with their escorts returned. -/
def State.groupEnded (s : State) (r : Req) : State :=
  (s.mates r).foldl (fun s q => s.retire q) ((s.mates r).foldl (fun s q => s.returnEscort q) s)

theorem endGroup_reqs (s : State) (r : Req) (fails : List Req) (cause detail : Nat) :
    (s.endGroup r fails cause detail).reqs = (s.groupEnded r).reqs := by
  unfold State.endGroup
  dsimp only
  rw [← State.groupEnded]
  split <;> rfl

/-- The lanes that a trap of an instruction names. -/
def failedLanes (fails : List Req) : List Nat := (List.range 64).filter fun l => fails.any fun q => q.lanes.contains l

/-- The trap is the last that the end of an instruction does to the warp. -/
theorem endGroup_traps {s : State} {r : Req} (takes : s.takes r = true) (fails : List Req) (cause detail : Nat) :
    ∃ (u : State) (t : Trap), s.endGroup r fails cause detail = u.addTrap r.wg r.warp t ∧
      t.cause = cause ∧ t.mask = maskOf (failedLanes fails) ∧ t.cancel = 0 := by
  unfold State.endGroup
  dsimp only
  rw [if_neg (by simp [takes])]
  exact ⟨_, _, rfl, rfl, rfl, rfl⟩

/-- What the end of an instruction with a trap leaves of one of the requests that failed. -/
theorem endGroup_leaves {s : State} {r : Req} {fails : List Req} (mate : r ∈ s.mates r) (failed : r ∈ fails) (cause detail : Nat) :
    (∀ q ∈ (s.endGroup r fails cause detail).reqs, q.id ≠ r.id) ∧
      (s.takes r = true → ∀ x ∈ r.slots, ∃ y ∈ ((s.endGroup r fails cause detail).warp r.wg r.warp).pendTraps,
        y.cause = cause ∧ (x.lane < 64 → y.mask.getLsbD x.lane = true)) := by
  refine ⟨?_, fun takes x hx => ?_⟩
  · rw [endGroup_reqs]; exact foldl_retire_id mate _
  · obtain ⟨u, t, ends, tc, tm, once⟩ := endGroup_traps takes fails cause detail
    rw [ends, State.addTrap, warp_updWarp_same]
    obtain ⟨y, hy, yc, -, ym⟩ := exists_addTrap (u.warp r.wg r.warp) once
    refine ⟨y, hy, yc.trans tc, fun lt => ym _ ?_⟩
    rw [tm]
    refine getLsbD_maskOf (List.mem_filter.2 ⟨List.mem_range.2 lt, List.any_eq_true.2 ⟨r, failed, ?_⟩⟩) lt
    simpa [Req.lanes] using ⟨x, hx, rfl⟩

/-- The refusals among arriving requests are entered in the audit log. -/
def State.fateAudited (s : State) (l : List Req) : State :=
  l.foldl (fun s p => if s.winFate p = some 6 then s.auditEvent 1 (s.ctxNo p.wg) p.va else s) s

theorem fateAudited_keeps (s : State) (l : List Req) : (s.fateAudited l).wgs = s.wgs ∧ (s.fateAudited l).reqs = s.reqs := by
  refine ⟨foldl_keeps (f := State.wgs) (fun s p => ?_) .., foldl_keeps (f := State.reqs) (fun s p => ?_) ..⟩
  · split
    · exact (auditEvent_keeps ..).1
    · rfl
  · split
    · exact (auditEvent_keeps ..).2
    · rfl

/-- The target of a request of one lane. -/
theorem winTarget_one {r : Req} {x : Slot} (one : r.slots = [x]) :
    winTarget r.wg r.va = keyLaunch r.wg * 2 ^ 32 + x.addr / 2 ^ 32 % 2 ^ 32 := by
  simp [winTarget, wgKey, winWg, bits, Req.va, one]

/-- A window request whose target is gone arrives with a refusal. -/
theorem refused_arrives {s : State} {r : Req} (here : r ∈ s.reqs) (data : r.fetch = false) (phase : r.phase = .window)
    (fresh : r.arrived = false)
    (left : (s.wg (winTarget r.wg r.va)).status = .exited ∨ (s.wg (winTarget r.wg r.va)).status = .discarded) :
    r ∈ s.mates r ∧ r ∈ (s.winArrivals r).filter fun q => (s.winFate q).isSome := by
  have mate : r ∈ s.mates r := List.mem_filter.2 ⟨here, by simp [data, phase]⟩
  refine ⟨mate, List.mem_filter.2 ⟨List.mem_filter.2 ⟨mate, ?_⟩, ?_⟩⟩
  · rcases left with h | h <;> simp [fresh, h]
  · rcases left with h | h <;> simp [State.winFate, h]

/-- An access through a window to a target that has exited or was discarded ends its instruction with PROT (R26, R27). -/
theorem windowAccess_refused {s : State} {r : Req} {x : Slot} (found : s.reqs.find? (fun q => q.id == r.id) = some r)
    (one : r.slots = [x]) (data : r.fetch = false) (phase : r.phase = .window) (fresh : r.arrived = false)
    (left : (s.wg (winTarget r.wg r.va)).status = .exited ∨ (s.wg (winTarget r.wg r.va)).status = .discarded) :
    ∃ t, exec (.windowAccess r.id) s = .next t ∧ (∀ q ∈ t.reqs, q.id ≠ r.id) ∧
      ((s.wg r.wg).status = .resident → ∃ y ∈ (t.warp r.wg r.warp).pendTraps,
        y.cause = 7 ∧ (x.lane < 64 → y.mask.getLsbD x.lane = true)) := by
  have req : s.req? r.id = some r := found
  obtain ⟨mate, arrives⟩ := refused_arrives (List.mem_of_find?_eq_some found) data phase fresh left
  cases refused : (s.winArrivals r).filter fun q => (s.winFate q).isSome with
  | nil => rw [refused] at arrives; cases arrives
  | cons q qs =>
    rw [refused] at arrives
    obtain ⟨wgs, reqs⟩ := fateAudited_keeps s (q :: qs)
    have next : exec (.windowAccess r.id) s = .next ((s.fateAudited (q :: qs)).endGroup r (q :: qs) 7 ((s.winFate q).getD 7)) := by
      have admitted : ¬(r.phase != .window || (s.wg (winTarget r.wg r.va)).status == .waiting) = true := by
        rcases left with h | h <;> simp [phase, h]
      show execWindowAccess r.id s = _
      simp only [execWindowAccess, req]
      rw [if_neg admitted, refused, fresh]
      rfl
    have mate : r ∈ (s.fateAudited (q :: qs)).mates r := by rw [State.mates, reqs]; exact mate
    obtain ⟨gone, trapped⟩ := endGroup_leaves mate arrives 7 ((s.winFate q).getD 7)
    refine ⟨_, next, gone, fun resident => trapped ?_ x (by simp [one])⟩
    rw [State.takes, State.wg, wgs]; exact beq_iff_eq.2 resident

end Sys2Proof.Machine
end

section

/-!
# The arrival of a window access (R304)

Arriving marks requests and changes nothing that an order of accesses looks at.
-/

namespace Sys2Proof.Machine

section
variable (s : State) (r : Req)

theorem winArrived_any {p : Req → Bool} (hp : ∀ q, p { q with arrived := true } = p q) :
    (s.winArrived r).reqs.any p = s.reqs.any p := by
  simp only [State.winArrived, List.any_map]
  congr 1
  funext q
  simp only [Function.comp_apply]
  split
  · exact hp q
  · rfl

theorem winArrived_all {p : Req → Bool} (hp : ∀ q, p { q with arrived := true } = p q) :
    (s.winArrived r).reqs.all p = s.reqs.all p := by
  have := winArrived_any s r (p := fun q => !p q) fun q => by rw [hp]
  rw [List.all_eq_not_any_not, this, ← List.all_eq_not_any_not]

theorem abroad_winArrived (k w j l : Nat) : (s.winArrived r).abroad k w j l = s.abroad k w j l := by
  unfold State.abroad
  rw [winArrived_any s r fun _ => rfl]
  rfl

theorem winHeld_resident {s : State} {t : Nat} (resident : (s.wg t).status = .resident) (addr size : Nat) :
    s.winHeld t addr size = s.winAbroad t addr size := if_neg (by simp [resident])

theorem winHeld_winArrived {t : Nat} (resident : (s.wg t).status = .resident) (addr size : Nat) :
    (s.winArrived r).winHeld t addr size = s.winHeld t addr size := by
  rw [winHeld_resident resident, winHeld_resident (s := s.winArrived r) resident]
  simp only [State.winAbroad, abroad_winArrived]

theorem chainDone_winArrived (c : Chain) (core : Nat) (who : Nat × Nat) (scope : Nat) :
    (s.winArrived r).chainDone c core who scope = s.chainDone c core who scope := by
  unfold State.chainDone
  rw [List.any_append, winArrived_any s r fun _ => rfl, ← List.any_append]
  rfl

theorem shownAt_winArrived (core : Nat) (who : Nat × Nat) (lane bound scope : Nat) :
    (s.winArrived r).shownAt core who lane bound scope = s.shownAt core who lane bound scope := by
  simp only [State.shownAt, chainDone_winArrived]
  rfl

theorem passedOn_winArrived (x : Slot) : (s.winArrived r).passedOn { r with arrived := true } x = s.passedOn r x := by
  simp only [State.passedOn, shownAt_winArrived]
  rw [winArrived_all s r fun _ => rfl]
  rfl

theorem pastRelease_winArrived (core : Nat) (who : Nat × Nat) (l bound : Nat) :
    (s.winArrived r).pastRelease core who l bound = s.pastRelease core who l bound := by
  simp only [State.pastRelease, State.releasePends, shownAt_winArrived]
  rw [winArrived_any s r fun _ => rfl]

theorem winArrived_earlier_all {p : Req → Bool} (hp : ∀ q, p { q with arrived := true } = p q) :
    ((s.winArrived r).earlier { r with arrived := true }).all p = (s.earlier r).all p := by
  simp only [State.earlier, List.all_filter]
  exact winArrived_all s r fun q => by rw [hp]; rfl

/-- Arriving frees no lane and holds none back. -/
theorem winSlotFree_winArrived {t : Nat} (resident : (s.wg t).status = .resident) (x : Slot) :
    (s.winArrived r).winSlotFree { r with arrived := true } t x = s.winSlotFree r t x := by
  simp only [State.winSlotFree, passedOn_winArrived, pastRelease_winArrived]
  rw [show Req.size { r with arrived := true } = r.size from rfl, winHeld_winArrived s r resident]
  rw [winArrived_earlier_all s r fun _ => rfl]
  rfl

end

end Sys2Proof.Machine
end

section

/-!
# The objects of a workgroup that no engine writes (R25, R28)
-/

namespace Sys2Proof.Machine

theorem winOff_eq (a : Nat) : winOff a = a % 2 ^ 28 := by simp [winOff, bits]

/-- Writes that leave a workgroup's core and its mixing step, one after another. -/
theorem foldl_keeps_core_mixing {α : Type} {set : Workgroup → α → Workgroup}
    (hs : ∀ g a, (set g a).core = g.core ∧ (set g a).mixing = g.mixing) (l : List α) (g : Workgroup) :
    (l.foldl set g).core = g.core ∧ (l.foldl set g).mixing = g.mixing :=
  List.foldlRecOn (motive := fun h : Workgroup => h.core = g.core ∧ h.mixing = g.mixing) l set ⟨rfl, rfl⟩
    fun h same a _ => ⟨(hs h a).1.trans same.1, (hs h a).2.trans same.2⟩

theorem scratchWrite_keeps (g : Workgroup) (a n v : Nat) :
    (g.scratchWrite a n v).core = g.core ∧ (g.scratchWrite a n v).mixing = g.mixing := by
  refine foldl_keeps_core_mixing ?_ ..
  exact fun _ _ => ⟨rfl, rfl⟩

/-- A word of an object written leaves the workgroup's core and its mixing step. -/
theorem setObjWord_keeps (g : Workgroup) (kind off : Nat) (v : Word) :
    (g.setObjWord kind off v).core = g.core ∧ (g.setObjWord kind off v).mixing = g.mixing := by
  unfold Workgroup.setObjWord
  split
  · exact ⟨rfl, rfl⟩
  · exact scratchWrite_keeps ..
  · exact ⟨rfl, rfl⟩
  · split <;> exact ⟨rfl, rfl⟩
  · refine foldl_keeps_core_mixing ?_ ..
    exact fun _ _ => ⟨rfl, rfl⟩
  · exact ⟨rfl, rfl⟩

/-- No engine writes an object of a workgroup. -/
structure State.Quiet (s : State) (t : Nat) : Prop where
  ops : s.opsOf t = []
  mixing : (s.wg t).mixing = none

section
variable {s : State} {t : Nat} (quiet : s.Quiet t)
include quiet

theorem engineWord_quiet {kind off : Nat} (low : kind = 3 → off < 8192) : s.engineWord t kind off = ((s.wg t).objWord kind off, s) := by
  obtain ⟨ops, mixing⟩ := quiet
  match kind with
  | 0 | 1 | 4 | n + 6 => rfl
  | 2 => simp [State.engineWord, State.tileRead, State.mixRead, Workgroup.objWord, ops, mixing]
  | 5 => simp [State.engineWord, State.mixRead, Workgroup.mixesHist, Workgroup.objWord, mixing]
  | 3 =>
    have := low rfl
    by_cases first : off < 4096
    · have element : off % 256 / 4 < 64 := by omega
      simp [State.engineWord, State.tileRead, Workgroup.objWord, ops, first, element, Nat.mod_eq_of_lt first]
    · have tile : off % 4096 = off - 4096 := by omega
      simp [State.engineWord, State.tileRead, Workgroup.objWord, ops, first, tile]

theorem objGet_quiet {kind off n : Nat} (low : kind = 3 → off + 4 * n ≤ 8192) :
    s.objGet t kind off n = ((s.wg t).objRead kind off n, s) := by
  induction n generalizing off with
  | zero => rfl
  | succ n ih =>
    rw [State.objGet, engineWord_quiet quiet fun h => by have := low h; omega]
    dsimp only
    rw [ih fun h => by have := low h; omega]
    rfl

theorem setEngineWord_quiet (kind off : Nat) (v : Word) :
    s.setEngineWord t kind off v = s.updWg t fun g => g.setObjWord kind off v := by
  obtain ⟨ops, mixing⟩ := quiet
  match kind with
  | 0 | 1 | 3 | 4 | n + 6 => rfl
  | 2 => simp [State.setEngineWord, State.tileWrite, State.mixWrite, Workgroup.setObjWord, ops, mixing]
  | 5 => simp [State.setEngineWord, State.mixWrite, Workgroup.mixesHist, Workgroup.setObjWord, mixing]

end

/-- `u` is `s` with one workgroup replaced by `g`. -/
structure State.Replaces (s u : State) (t : Nat) (g : Workgroup) : Prop where
  frame : u = { s with wgs := u.wgs }
  same : u.wg t = g
  others : ∀ k, k ≠ t → u.wg k = s.wg k

theorem replaces_updWg (s : State) (t : Nat) (g : Workgroup → Workgroup) : s.Replaces (s.updWg t g) t (g (s.wg t)) :=
  ⟨rfl, wg_updWg_same s t g, fun _ h => wg_updWg_other s g h⟩

theorem objPut_quiet {s : State} {t : Nat} (quiet : s.Quiet t) (kind off v n : Nat) :
    s.Replaces (s.objPut t kind off v n) t ((s.wg t).objWrite kind off v n) := by
  induction n generalizing s off v with
  | zero => exact ⟨rfl, rfl, fun _ _ => rfl⟩
  | succ n ih =>
    rw [State.objPut, setEngineWord_quiet quiet]
    have first := replaces_updWg s t fun g => g.setObjWord kind off (BitVec.ofNat 32 v)
    have still : (s.updWg t fun g => g.setObjWord kind off (BitVec.ofNat 32 v)).Quiet t :=
      ⟨quiet.ops, by rw [first.same, (setObjWord_keeps ..).2, quiet.mixing]⟩
    obtain ⟨frame, same, others⟩ := ih still (off + 4) (v / 2 ^ 32)
    exact ⟨frame.trans rfl, same.trans (by rw [first.same]; rfl), fun k hk => (others k hk).trans (first.others k hk)⟩

end Sys2Proof.Machine
end

section

/-!
# A window access that is performed (R22, R25, R27, R305)
-/

namespace Sys2Proof.Machine

section
variable {s : State} {r : Req} {x : Slot} {t : Nat}

theorem pieces_noAddress (pa : r.pa = 0) : r.pieces.length = 1 := by
  have : inHost 0 = false := by decide
  simp [Req.pieces, pa, this]

theorem lanesLeft_one (one : r.slots = [x]) (phase : r.phase = .window) (fresh : x.did = []) : r.lanesLeft = [x] := by
  have : r.pieces.length ≠ 0 := by unfold Req.pieces; split <;> simp
  simp [Req.lanesLeft, one, Req.didSlot, phase, fresh, this]

theorem winReady_one (left : r.lanesLeft = [x]) (free : s.winSlotFree r t x = true) : s.winReady r t = [x] := by
  simp [State.winReady, left, free]

/-- A window request of one lane whose access is made; `y` is its lane. -/
def Req.accessed (r : Req) (y : Slot) : Req := { r with slots := [{ y with did := [0] }] }

/-- The request performed. -/
def Req.windowed (r : Req) (y : Slot) : Req := { r.accessed y with phase := .performed, hampers := (r.accessed y).inPacket }

theorem winLanes_one (one : r.slots = [x]) : s.winLanes r t [x] = ((s.winLane r t x).1, r.accessed (s.winLane r t x).2) := by
  simp only [State.winLanes, one, List.map_cons, List.map_nil, if_true]
  rfl

theorem lanesLeft_accessed (pa : r.pa = 0) (y : Slot) (h : List HamperAt) : { r.accessed y with hampers := h }.lanesLeft = [] := by
  have : { r.accessed y with hampers := h }.pieces.length = 1 := pieces_noAddress pa
  have : { r.accessed y with hampers := h }.didSlot { y with did := [0] } = true := by simp [Req.didSlot, this]
  show [{ y with did := [0] }].filter (fun x => !{ r.accessed y with hampers := h }.didSlot x) = []
  rw [List.filter_cons, if_neg (by simp [this]), List.filter_nil]

/-- A step of a request of one lane, of which the lane's access is all. -/
theorem winStep_one (one : r.slots = [x]) (phase : r.phase = .window) (fresh : x.did = []) (pa : r.pa = 0)
    (free : s.winSlotFree r t x = true) :
    s.winStep r t = (s.winLane r t x).1.setReq (r.windowed (s.winLane r t x).2) := by
  have ready := winReady_one (lanesLeft_one one phase fresh) free
  unfold State.winStep
  simp only [ready, List.length_singleton, Nat.le_refl, if_true, winLanes_one one, lanesLeft_accessed pa, List.isEmpty_nil]
  rfl

end

/-! ### The access of the lane -/

/-- With no write that some thread does not see, a thread reads scratch as it stands. -/
theorem scratchSeen_settled {s : State} (settled : s.late = []) (k core : Nat) (who : Nat × Nat) (a n : Nat) :
    s.scratchSeen k core who a n = (s.wg k).scratchRead a n := by
  unfold State.scratchSeen State.viewOf Workgroup.scratchRead
  rw [settled]
  congr 1
  refine List.ext_getElem (by simp) fun i h₁ h₂ => ?_
  have : i < n := by simpa using h₂
  simp [viewByte, this]

/-- What the window clause asks of the target: resident, with no engine at its objects, no write of a copy owed to it, and no error in
its core's storage. -/
structure State.Plain (s : State) (t : Nat) : Prop where
  resident : (s.wg t).status = .resident
  quiet : s.Quiet t
  paid : ∀ u ∈ s.late, u.owed = none
  clean : (s.coreAt (s.wg t).core).storeBad = []

section
variable {s : State} {t : Nat} (plain : s.Plain t)
include plain

theorem status_ne_saved : ¬(s.wg t).status = .saved := by simp [plain.resident]

theorem winBad_plain (addr size : Nat) : s.winBad t addr size = false := by
  rw [State.winBad, if_neg (status_ne_saved plain)]
  simp [State.storeBadAt, plain.clean]

/-- What a window load reads. -/
theorem winGet_plain (core : Nat) (who : Nat × Nat) (addr size : Nat) (low : winKind addr = 3 → winOff addr + size ≤ 8192) :
    s.winGet core who t addr size =
      (if winKind addr = 1 then s.scratchSeen t core who (winOff addr) size
        else (s.wg t).objRead (winKind addr) (winOff addr) (size / 4), s) := by
  have words := objGet_quiet plain.quiet (kind := winKind addr) (off := winOff addr) (n := size / 4) fun h => by have := low h; omega
  have paid : (s.late.all fun u => u.owed.isNone) = true := List.all_eq_true.2 fun u hu => by simp [plain.paid u hu]
  simp only [State.winGet, if_neg (status_ne_saved plain), words, State.withOwed, paid, if_true]
  split <;> rfl

theorem payAt_plain (range : Option (Nat × Nat)) : s.payAt t range = s := by
  have : (s.late.filter fun u => u.place == some t && u.owed.any fun o => range.all fun r => overlap o.1 o.2.1 r.1 r.2) = [] :=
    List.filter_eq_nil_iff.2 fun u hu => by simp [plain.paid u hu]
  rw [State.payAt, this]
  rfl

end

theorem cleanStore_clean {s : State} {core : Nat} (clean : (s.coreAt core).storeBad = []) (off n : Nat) : s.cleanStore core off n = s := by
  simp [State.cleanStore, State.storeBadAt, clean]

/-- What a window store does, but for the notes of R149. -/
structure State.WinPuts (s u : State) (t addr size v : Nat) : Prop where
  frame : u = { s with wgs := u.wgs, late := u.late }
  late : winKind addr ≠ 1 ∨ s.late = [] → u.late = s.late
  same : u.wg t = if winKind addr = 1 then (s.wg t).scratchWrite (winOff addr) size v
    else (s.wg t).objWrite (winKind addr) (winOff addr) v (size / 4)
  others : ∀ k, k ≠ t → u.wg k = s.wg k

theorem winPut_plain {s : State} {t : Nat} (plain : s.Plain t) (addr size v : Nat) :
    s.WinPuts (s.winPut t addr size v) t addr size v := by
  by_cases scratch : winKind addr = 1
  · have put := replaces_updWg s t fun g => g.scratchWrite (winOff addr) size v
    have clean : ((s.scratchPut t (winOff addr) size v).coreAt ((s.scratchPut t (winOff addr) size v).wg t).core).storeBad = [] := by
      have : ((s.scratchPut t (winOff addr) size v).wg t).core = (s.wg t).core :=
        (congrArg Workgroup.core put.same).trans (scratchWrite_keeps ..).1
      rw [this]; exact plain.clean
    have puts : s.winPut t addr size v = s.scratchPut t (winOff addr) size v := by
      simp only [State.winPut, if_neg (status_ne_saved plain), if_pos scratch]
      exact cleanStore_clean clean ..
    rw [puts]
    refine ⟨rfl, fun h => ?_, put.same.trans (if_pos scratch).symm, put.others⟩
    have settled : s.late = [] := h.resolve_left fun h => h scratch
    show dropLate s.late (some t) (winOff addr) size = s.late
    rw [settled]; rfl
  · have put := objPut_quiet plain.quiet (winKind addr) (winOff addr) v (size / 4)
    have clean : ((s.objPut t (winKind addr) (winOff addr) v (size / 4)).coreAt (s.wg t).core).storeBad = [] := by
      rw [put.frame]; exact plain.clean
    have puts : s.winPut t addr size v = s.objPut t (winKind addr) (winOff addr) v (size / 4) := by
      simp only [State.winPut, if_neg (status_ne_saved plain), if_neg scratch]
      exact cleanStore_clean clean ..
    rw [puts]
    exact ⟨put.frame.trans (by rw [put.frame]), fun _ => by rw [put.frame], put.same.trans (if_neg scratch).symm, put.others⟩

/-- What a lane's window load reads. -/
def State.winSeen (s : State) (r : Req) (t : Nat) (x : Slot) : Nat :=
  if winKind x.addr = 1 then s.scratchSeen t r.core (r.wg, r.warp) (winOff x.addr) r.size
  else (s.wg t).objRead (winKind x.addr) (winOff x.addr) (r.size / 4)

/-- A window load of one lane. -/
theorem winLane_ld {s : State} {r : Req} {t : Nat} {f : Fields} (plain : s.Plain t) (load : r.insn = .ld f) (x : Slot)
    (low : winKind x.addr = 3 → winOff x.addr + r.size ≤ 8192) :
    ∃ cs, s.winLane r t x = ({ s with chains := cs }, { x with reply := s.winSeen r t x }) := by
  have still (place : Option Nat) (a : Nat) : (s.readChain place r.core (r.wg, r.warp) x.lane a r.size).Plain t :=
    ⟨plain.resident, ⟨plain.quiet.ops, plain.quiet.mixing⟩, plain.paid, plain.clean⟩
  simp only [State.winLane, load, winBad_plain plain, if_neg Bool.false_ne_true, winGet_plain (still ..) _ _ _ _ low]
  exact ⟨_, rfl⟩

/-- A window store of one lane. -/
theorem winLane_st {s : State} {r : Req} {t : Nat} {f : Fields} (plain : s.Plain t) (store : r.insn = .st f) (x : Slot) :
    ∃ cs, s.winLane r t x = ({ s.winPut t x.addr r.size (x.x + x.y * 2 ^ 64) with chains := cs }, x) := by
  simp only [State.winLane, store, payAt_plain plain]
  obtain ⟨cs, noted⟩ := noteChain_eq (s.winPut t x.addr r.size (x.x + x.y * 2 ^ 64)) s (s.winPlace t x.addr).1 (s.winPlace t x.addr).2
    r.size (r.wg, r.warp) x.lane r.group (s.firmLates (r.wg, r.warp) x.lane)
  exact ⟨cs, by rw [noted]⟩

/-! ### The event -/

/-- The access of a request that has just arrived is made. -/
theorem windowAccess_performs {s : State} {r : Req} {x : Slot} (found : s.reqs.find? (fun q => q.id == r.id) = some r)
    (one : r.slots = [x]) (phase : r.phase = .window) (fresh : x.did = []) (pa : r.pa = 0) (new : r.arrived = false)
    (resident : (s.wg (winTarget r.wg r.va)).status = .resident) (admitted : ∀ q ∈ s.winArrivals r, s.winFate q = none)
    (free : s.winSlotFree r (winTarget r.wg r.va) x = true) :
    let u := s.winArrived r
    let r1 : Req := { r with arrived := true }
    let y := u.winLane r1 (winTarget r.wg r.va) x
    exec (.windowAccess r.id) s = .next (y.1.setReq (r1.windowed y.2)) := by
  intro u r1 y
  have req : s.req? r.id = some r := found
  have passes : ((s.winArrivals r).filter fun q => (s.winFate q).isSome) = [] :=
    List.filter_eq_nil_iff.2 fun q hq => by simp [admitted q hq]
  have ready : s.winReady r (winTarget r.wg r.va) = [x] := winReady_one (lanesLeft_one one phase fresh) free
  have home : ¬(r.phase != .window || (s.wg (winTarget r.wg r.va)).status == .waiting) = true := by simp [phase, resident]
  have step : u.winStep r1 (winTarget r.wg r.va) = y.1.setReq (r1.windowed y.2) :=
    winStep_one (r := r1) one phase fresh pa ((winSlotFree_winArrived s r resident x).trans free)
  show execWindowAccess r.id s = _
  simp only [execWindowAccess, req]
  rw [if_neg home, passes]
  simp only [event, ready, new, if_neg Bool.false_ne_true]
  rw [← step]
  rfl

/-- The requests of a state in which one has arrived and been replaced hold what replaces it. -/
theorem winArrived_setReq {s u : State} {r q : Req} (here : r ∈ s.reqs) (reqs : u.reqs = (s.winArrived r).reqs) (same : q.id = r.id) :
    q ∈ (u.setReq q).reqs := by
  obtain ⟨p, hp, pid⟩ : ∃ p ∈ (s.winArrived r).reqs, p.id = r.id := by
    refine ⟨_, List.mem_map_of_mem here, ?_⟩
    split <;> rfl
  exact setReq_mem_self (s := u) (reqs ▸ hp) (pid.trans same.symm)

/-- Arriving changes nothing that an access looks at in its target. -/
theorem plain_winArrived {s : State} {t : Nat} (plain : s.Plain t) (r : Req) : (s.winArrived r).Plain t :=
  ⟨plain.resident, ⟨plain.quiet.ops, plain.quiet.mixing⟩, plain.paid, plain.clean⟩

/-- A window access to a resident workgroup (R22, R25, R27). -/
theorem windowAccess_answers {s : State} {r : Req} {x : Slot} (found : s.reqs.find? (fun q => q.id == r.id) = some r)
    (one : r.slots = [x]) (phase : r.phase = .window) (fresh : x.did = []) (pa : r.pa = 0) (new : r.arrived = false)
    (plain : s.Plain (winTarget r.wg r.va)) (admitted : ∀ q ∈ s.winArrivals r, s.winFate q = none)
    (free : s.winSlotFree r (winTarget r.wg r.va) x = true) (low : winKind x.addr = 3 → winOff x.addr + r.size ≤ 8192) :
    (∀ f, r.insn = .ld f → ∃ t y, exec (.windowAccess r.id) s = .next t ∧ t = { s with reqs := t.reqs, chains := t.chains } ∧
      (∃ q ∈ t.reqs, q.id = r.id ∧ q.phase = .performed ∧ q.slots = [y]) ∧ y.lane = x.lane ∧ y.esc = x.esc ∧
      y.reply = s.winSeen r (winTarget r.wg r.va) x) ∧
    (∀ f, r.insn = .st f → ∃ t u, exec (.windowAccess r.id) s = .next t ∧
      s.WinPuts u (winTarget r.wg r.va) x.addr r.size (x.x + x.y * 2 ^ 64) ∧
      t = { u with reqs := t.reqs, chains := t.chains } ∧ ∃ q ∈ t.reqs, q.id = r.id ∧ q.phase = .performed) := by
  have here : r ∈ s.reqs := List.mem_of_find?_eq_some found
  have next := windowAccess_performs found one phase fresh pa new plain.resident admitted free
  have arrived := plain_winArrived plain r
  dsimp only at next
  refine ⟨fun f load => ?_, fun f store => ?_⟩
  · obtain ⟨cs, access⟩ := winLane_ld (r := { r with arrived := true }) arrived load x low
    rw [access] at next
    exact ⟨_, _, next, rfl, ⟨_, winArrived_setReq here rfl rfl, rfl, rfl, rfl⟩, rfl, rfl, rfl⟩
  · obtain ⟨cs, access⟩ := winLane_st (r := { r with arrived := true }) arrived store x
    have puts := winPut_plain arrived x.addr r.size (x.x + x.y * 2 ^ 64)
    rw [access] at next
    refine ⟨_, { (s.winArrived r).winPut (winTarget r.wg r.va) x.addr r.size (x.x + x.y * 2 ^ 64) with reqs := s.reqs }, next,
      ⟨?_, puts.late, puts.same, puts.others⟩, rfl, _, winArrived_setReq here ?_ rfl, rfl, rfl⟩
    · rw [puts.frame]; rfl
    · have reqs := congrArg State.reqs puts.frame
      exact reqs

/-! ### The clauses -/

/-- What a performed store leaves of the state that is not its request and not the notes. -/
theorem windowStore_frame {s u t : State} {k addr size v : Nat} (puts : s.WinPuts u k addr size v)
    (frame : t = { u with reqs := t.reqs, chains := t.chains }) :
    t = { s with reqs := t.reqs, wgs := t.wgs, late := t.late, chains := t.chains } ∧ t.late = u.late ∧ ∀ j, t.wg j = u.wg j := by
  have wgs : t.wgs = u.wgs := by rw [frame]
  have late : t.late = u.late := by rw [frame]
  refine ⟨frame.trans ?_, late, fun j => by rw [State.wg, wgs, State.wg]⟩
  rw [wgs, late]
  exact congrArg (fun v : State => { v with reqs := t.reqs, chains := t.chains }) puts.frame

/-- Settles O42: a window access by its target, a lane of the overflow queue, an error in a resting hamper, the recall and the end of
the launch, each for a request of one lane. -/
theorem requestsElsewhere : Obligations.RequestsElsewhere := by
  unfold Obligations.RequestsElsewhere
  intro s r x found one data target g kind off size gone trapped
  have at_ : winTarget r.wg r.va = target := winTarget_one one
  have address : winOff x.addr = off := winOff_eq x.addr
  refine ⟨fun phase fresh pa new => ⟨fun ended => ?_, fun resident admitted paid free ops mixing low clean => ?_⟩,
    fun phase room oldest idle clean => overflowStep_answers found one phase room oldest idle clean,
    fun _ _ => hamperEccError_answers found one,
    fun saving stopped recordable turn => recall_answers found one data saving stopped recordable turn,
    fun ending => ⟨_, contextEnd_drops found ending, rfl⟩⟩
  · exact windowAccess_refused found one data phase new (at_ ▸ ended)
  · have plain : s.Plain (winTarget r.wg r.va) := at_ ▸ ⟨resident, ⟨ops, mixing⟩, paid, clean⟩
    obtain ⟨loads, stores⟩ := windowAccess_answers found one phase fresh pa new plain admitted (at_ ▸ free)
      (by rw [address]; exact low)
    rw [at_] at loads stores
    refine ⟨fun f load => ?_, fun f store => ?_⟩
    · obtain ⟨t, y, next, frame, performed, lane, esc, reply⟩ := loads f load
      refine ⟨t, y, next, frame, performed, lane, esc, reply.trans ?_⟩
      rw [State.winSeen, address]
      refine if_congr Iff.rfl ?_ rfl
      split
      · next settled => exact scratchSeen_settled settled ..
      · rfl
    · obtain ⟨t, u, next, puts, frame, performed⟩ := stores f store
      obtain ⟨rest, late, wg⟩ := windowStore_frame puts frame
      refine ⟨t, next, rest, fun h => late.trans (puts.late h), ?_, fun k hk => (wg k).trans (puts.others k hk), performed⟩
      rw [wg, puts.same, address]
      rfl

end Sys2Proof.Machine
end

section

/-!
# The state after package reset (R270, R422)
-/

namespace Sys2Proof.Machine

/-- After reset every control register reads as its Reset column. -/
theorem creg_reset (off : Nat) : State.reset.creg off = (cregReset off).toNat := rfl

theorem inArray_none {off base n size : Nat} (h : off < base ∨ base + n * size ≤ off) : inArray off base n size = none := by
  unfold inArray
  rw [if_neg]
  simp only [Bool.and_eq_true, decide_eq_true_eq]
  omega

theorem inArray_some {base n size i o : Nat} (hi : i < n) (ho : o < size) :
    inArray (base + (i * size + o)) base n size = some (i, o) := by
  have below : i * size + o < n * size :=
    calc i * size + o < (i + 1) * size := by rw [Nat.add_mul]; omega
      _ ≤ n * size := Nat.mul_le_mul_right _ hi
  unfold inArray
  rw [if_pos (by simp only [Bool.and_eq_true, decide_eq_true_eq]; omega), Nat.add_sub_cancel_left,
    Nat.add_comm (i * size), Nat.add_mul_div_right _ _ (by omega), Nat.add_mul_mod_self_right, Nat.div_eq_of_lt ho,
    Nat.mod_eq_of_lt ho, Nat.zero_add]

section
variable {q : Nat}

theorem cregReset_energy (hq : q < 288) {o : Nat} (ho : o < 0x20) :
    cregReset (energyBlock q + o) = if o = 0 then 125000 else if o = 4 then 18000 else if o = 8 then 2000 else 0 := by
  unfold cregReset
  rw [inArray_none (by unfold energyBlock; omega), show energyBlock q + o = 0x6000000 + (q * 0x20 + o) by unfold energyBlock; omega,
    inArray_some hq ho]

theorem cregReset_fault (hq : q < 288) : cregReset (faultBlock q) = 0 := by
  unfold cregReset
  rw [inArray_none (by unfold faultBlock; omega), inArray_none (by unfold faultBlock; omega), inArray_none (by unfold faultBlock; omega),
    show faultBlock q = 0x1000000 + (q * 0x1000 + 0) by unfold faultBlock; omega, inArray_some hq (by omega)]
  rfl

theorem cregReset_conn {n w : Nat} (hn : n < 297) (hw : w < 19) : cregReset (connRow n w) = 0 := by
  unfold cregReset
  rw [show connRow n w = 0x800000 + (n * 0x80 + w * 4) by unfold connRow; omega, inArray_some (by omega) (by omega)]
  have column : ¬w * 4 ≥ 19 * 4 := by omega
  have requester : n ≠ 299 ∧ n ≠ 297 := by omega
  simp [column, requester]

/-- A register outside the arrays and apart from the named ones resets to zero. -/
theorem cregReset_elsewhere {off : Nat} (conn : off < 0x800000 ∨ 0x80A000 ≤ off) (energy : off < 0x6000000 ∨ 0x6002400 ≤ off)
    (quota : off < 0x3000000 ∨ 0x3009000 ≤ off) (fault : off < 0x1000000 ∨ 0x1120000 ≤ off) (named : 0xA64 ≤ off) : cregReset off = 0 := by
  unfold cregReset
  rw [inArray_none (by omega), inArray_none (by omega), inArray_none (by omega), inArray_none (by omega), inArray_none (by omega)]
  have apart : off ≠ stripeCfg ∧ off ≠ llcPCfg ∧ off ≠ cdStat ∧ off ≠ pkgCap ∧ off ≠ soakT := by
    unfold stripeCfg llcPCfg cdStat pkgCap soakT
    omega
  simp [apart]

end

/-- Settles O58: every list is empty at reset, and each register is looked up in its Reset column. -/
theorem resetState : Obligations.ResetState := by
  unfold Obligations.ResetState
  refine ⟨Memory.wf_nil, rfl, rfl, rfl, rfl, rfl, rfl, rfl, rfl, by decide, by decide, by decide, by decide, by decide, by decide, by decide,
    fun q hq => ?_, fun n w hn hw => ?_, fun v hv => ?_⟩
  · have energy {o : Nat} (ho : o < 0x20) := cregReset_energy hq ho
    refine ⟨?_, ?_, ?_, ?_, ?_⟩ <;> rw [creg_reset]
    · exact congrArg BitVec.toNat (energy (o := 0) (by decide))
    · rw [energy (by decide)]; rfl
    · rw [energy (by decide)]; rfl
    · rw [show cregReset (qpart q) = 0 by apply cregReset_elsewhere <;> unfold qpart <;> omega]; rfl
    · rw [cregReset_fault hq]; rfl
  · rw [creg_reset, cregReset_conn hn hw]; rfl
  · have page {o : Nat} (ho : o < 0x1000) : State.reset.creg (doorbell v + o) = 0 := by
      rw [creg_reset, show cregReset (doorbell v + o) = 0 by apply cregReset_elsewhere <;> unfold doorbell <;> omega]; rfl
    exact ⟨page (o := 0) (by decide), page (by decide), page (by decide)⟩

end Sys2Proof.Machine
end

section

/-!
# The striped view, register pairs and SEED (R44, R66, R217)
-/

namespace Sys2Proof.Machine

/-! ### The striped view -/

theorem regionOf_striped {pa : Nat} (low : stripedBase ≤ pa) (high : pa < stripedBase + 2 ^ 40) :
    regionOf pa = .striped (pa - stripedBase) := by
  unfold regionOf stripedBase at *
  rw [if_neg (by omega), if_pos (by simp only [Bool.and_eq_true, decide_eq_true_eq]; omega)]

theorem own_div (s : State) {pa : Nat} (h : pa < pkgSpan) : s.own pa / pkgSpan = s.pkg := by
  unfold State.own pkgSpan at *
  omega

/-- A byte of the striped view lies on the die and at the offset of R44. -/
theorem striped_lies (s : State) {pa : Nat} (low : stripedBase ≤ pa) (high : pa < stripedBase + 2 ^ 40) (active : 0 < s.nact s.pkg) :
    let b := (pa - stripedBase) / 4096
    s.canon (s.own pa) = s.own (b % s.nact s.pkg * 2 ^ 37 + (s.stripeBase s.pkg * 2 ^ 32 + b / s.nact s.pkg * 4096 + pa % 4096)) ∧
    s.homeDie (s.own pa) = some (b % s.nact s.pkg) := by
  have below : pa < pkgSpan := by unfold stripedBase at high; unfold pkgSpan; omega
  have offset : (pa - stripedBase) % 4096 = pa % 4096 := by unfold stripedBase at *; omega
  have dies : Nat.max 1 (s.nact s.pkg) = s.nact s.pkg := Nat.max_eq_right active
  refine ⟨?_, ?_⟩
  · rw [State.canon, own_mod s below, regionOf_striped low high, own_div s below]
    simp only [State.unstripe, dies, offset]
    unfold State.own
    omega
  · rw [State.homeDie, own_mod s below, regionOf_striped low high, own_div s below]
    simp only [State.unstripe, dies]

/-! ### Pairs -/

theorem pair_low (w : Warp) (n l : Nat) : (w.pair n l).setWidth 32 = w.reg n l := BitVec.setWidth_append_eq_right ..

theorem pair_high (w : Warp) (n l : Nat) : (w.pair n l >>> 32).setWidth 32 = w.reg (n + 1) l := by
  refine BitVec.eq_of_getLsbD_eq fun i hi => ?_
  rw [BitVec.getLsbD_setWidth, BitVec.getLsbD_ushiftRight]
  exact (congrArg _ (BitVec.getLsbD_append (x := w.reg (n + 1) l) (y := w.reg n l))).trans (by simp [hi])

/-! ### SEED -/

theorem foldl_range_iterate {α : Type} (g : α → α) (n : Nat) (x : α) : (List.range n).foldl (fun y _ => g y) x = g^[n] x := by
  induction n with
  | zero => rfl
  | succ n ih => rw [List.range_succ, List.foldl_append, ih, Function.iterate_succ_apply']; rfl

theorem seedAdvance_eq (x : Word) : seedAdvance x = lfsrStep^[32] x := foldl_range_iterate lfsrStep 32 x

theorem seedAdvance_zero : seedAdvance 0 = 0 := by
  rw [seedAdvance_eq]
  exact Function.iterate_fixed (by decide) 32

/-- Number 0 of SR rounds no magnitude up, as RZ does. -/
theorem roundsUp_sr_zero (neg : Bool) (n : Nat) {rem shift : Nat} (h : rem < 2 ^ shift) :
    roundsUp (.sr 0) neg n rem shift = roundsUp .rz neg n rem shift := by
  have below : rem * 65536 / 2 ^ shift < 65536 := by
    rw [Nat.div_lt_iff_lt_mul (Nat.two_pow_pos shift), Nat.mul_comm]
    exact Nat.mul_lt_mul_of_pos_left h (by decide)
  exact decide_eq_false (by omega)

theorem roundGrid_sr_zero (fm : Fmt) (neg : Bool) (m : Nat) (e : Int) : roundGrid fm (.sr 0) neg m e = roundGrid fm .rz neg m e := by
  unfold roundGrid
  simp only [roundsUp_sr_zero neg _ (Nat.mod_lt m (Nat.two_pow_pos _))]

theorem rmOf_seed_zero (i : Nat) : rmOf 4 0 i = .sr 0 := by
  have zero : srNumber 0 i = 0 := by simp [srNumber, BitVec.rotateLeft, BitVec.rotateLeftAux]
  exact congrArg Rm.sr zero

/-- A format of arithmetic overflows with OF. -/
theorem overflowed_raises {fm : Fmt} (arith : fm ∈ arithFmts) (neg : Bool) : (overflowed fm .rz false neg).2 &&& flOF ≠ 0 := by
  fin_cases arith <;> decide +revert

/-- SR truncates with SEED zero, where RZ does not overflow (R217). -/
theorem narrow_seed_zero {fm : Fmt} (arith : fm ∈ arithFmts) (neg : Bool) (m i : Nat) (e : Int)
    (fits : (narrow fm .rz false (.fin neg m e)).2 &&& flOF = 0) :
    (narrow fm (rmOf 4 0 i) false (.fin neg m e)).1 = (narrow fm .rz false (.fin neg m e)).1 := by
  rw [rmOf_seed_zero]
  simp only [narrow, roundGrid_sr_zero] at fits ⊢
  by_cases zero : m = 0
  · rw [if_pos zero, if_pos zero]
  · rw [if_neg zero] at fits ⊢
    rw [if_neg zero]
    by_cases large : fm.maxCode < (roundGrid fm .rz neg m e).code
    · simp only [if_pos large] at fits
      exact absurd fits (overflowed_raises arith neg)
    · rw [if_neg large, if_neg large]

/-- Settles O59: the die and offset of a striped byte, the halves of a pair, and the steps of SEED. -/
theorem stripedViewPairsAndSeed : Obligations.StripedViewPairsAndSeed := by
  unfold Obligations.StripedViewPairsAndSeed
  refine ⟨fun s pa low high active => striped_lies s low high active, fun w n l v hn => ⟨pair_low w n l, ?_, fun r j _ => ?_⟩,
    fun x => ⟨seedAdvance_eq x, seedAdvance_zero⟩, fun fm neg m i e arith fits => narrow_seed_zero arith neg m i e fits⟩
  · rw [pair_high]
    split
    · next upper => rw [upper]; rfl
    · rfl
  · rw [pair_setPair_regs]
    by_cases out : r = 255 ∨ j ≠ l
    · rw [if_pos out, if_neg (by tauto), if_neg (by tauto)]
    · rw [if_neg out]
      by_cases low : r = n
      · rw [if_neg (by omega), if_pos (by tauto), if_pos low]
      · rw [if_neg low]
        by_cases up : r = n + 1
        · rw [if_pos (by tauto), if_pos up]
        · rw [if_neg (by tauto), if_neg (by tauto), if_neg up]

end Sys2Proof.Machine
end

section

/-!
# Instructions that wait at issue (R190)
-/

namespace Sys2Proof.Machine

theorem issueHeld_waits {i : Instr} {held : Bool} {s : State} (k : State → State) (can : s.canIssue = true) (legal : precheck i s = none)
    (waits : held = true) : issueHeld i held s k = .next (s.waitLanes s.group (.atIssue i) i.fields.len) := by
  subst waits
  unfold issueHeld
  rw [if_pos can, legal]
  rfl

/-- An instruction that passes its checks and may not issue yet makes its group wait, and does nothing else. -/
theorem exec_waits {i : Instr} {s : State} (can : s.canIssue = true) (legal : precheck i s = none) (held : heldNow i s = true) :
    exec i s = .next (s.waitLanes s.group (.atIssue i) i.fields.len) := by
  cases i
  case ld f | st f | ldi f | ldfe f | stfe f | atom f | cas f | red f =>
    simp only [exec, execLd, execSt, execLdi, execLdfe, execStfe, execAtom, execCas, execRed]
    exact issueHeld_waits _ can legal held
  case rcp f | rsq f | sqrt f | ex2 f | lg2 f | exp f | sinpi f | cospi f | tanh f =>
    simp only [exec, execRcp, execRsq, execSqrt, execEx2, execLg2, execExp, execSinpi, execCospi, execTanh]
    exact issueHeld_waits _ can legal held
  case movs f | movsw f | qpollSend f | coll f | cpy f | cpym f | cpyw f =>
    simp only [exec, execMovs, execMovsw, execQpollSend, execColl, execCpy, execCpym, execCpyw]
    exact issueHeld_waits _ can legal held
  case mxi f | mxs f | mxv f | mxn f | mxsa f | mxz f | mxmvSt f | mxmvLd f | mxmvTt f | wbinv f =>
    simp only [exec, execMxi, execMxs, execMxv, execMxn, execMxsa, execMxz, execMxmvSt, execMxmvLd, execMxmvTt, execWbinv]
    exact issueHeld_waits _ can legal held
  case tlbinv f | harvest f | replay f | replayCancel f | replayPage f =>
    simp only [exec, execTlbinv, execHarvest, execReplay, execReplayCancel, execReplayPage]
    exact issueHeld_waits _ can legal held
  all_goals exact absurd held Bool.false_ne_true

theorem isEmpty_false {α : Type} {l : List α} (h : l ≠ []) : (!l.isEmpty) = true := by
  cases l with
  | nil => exact absurd rfl h
  | cons a l => rfl

/-- Settles O46: the wait at issue, and for each kind of wait that it is one. -/
theorem instructionsWaitAtIssue : Obligations.InstructionsWaitAtIssue := by
  unfold Obligations.InstructionsWaitAtIssue
  refine ⟨fun i f s fields can _ legal held => ?_, fun f s lanes => ?_⟩
  · have same : i.fields = f := by rw [Instr.fields, fields]; rfl
    let waits (w : Warp) : Warp := w.updLanes s.group fun _ x => { x with wait := some ⟨.atIssue i, f.len⟩ }
    refine ⟨s.updCur waits, ?_, rfl, fun k hk => wg_updWg_other s _ hk, ?_, fun w hw => ?_, ?_, fun l => ?_⟩
    · rw [exec_waits can legal held, same]; rfl
    · rw [curG_updCur]
    · rw [curG_updCur]
      exact (SMap.get_upd ..).trans (if_neg hw)
    · rw [curW_updCur]
      exact updLanes_other ..
    · rw [curW_updCur]
      exact lane_updLanes _ _ _ _ (group_nodup s)
  · have acts : (!(s.trueLanes f).isEmpty) = true := isEmpty_false lanes
    refine ⟨fun full i hi => ?_, fun full i hi => ?_, fun full i hi => ?_, fun reaches busy i hi => ?_, fun outstanding => ⟨?_, ?_⟩⟩
    · fin_cases hi <;> simp [heldNow, heldAtIssue, acts, full]
    · fin_cases hi <;> simp [heldNow, heldAtIssue, acts, full]
    · fin_cases hi <;> simp [heldNow, heldAtIssue, acts, full]
    · fin_cases hi <;> simp [heldNow, State.cmdHeld, acts, reaches, busy]
    · intro reads; simp [heldNow, heldAtIssue, acts, reads, outstanding]
    · intro writes; simp [heldNow, heldAtIssue, acts, writes, outstanding]

end Sys2Proof.Machine
end

section

/-!
# Fences, cache control and prefetch: the audit log of a halted package

A refused line of `cctl` or `pref` is entered in the audit log (R32). Where the boot sequence has halted the package, the log takes no
entry (R422); but `State.auditAppend` then still looks at its length, and signs the head of an empty log, at the time that it notes.
-/

namespace Sys2Proof.Machine

/-- The demonstration state with a cached page that its quad's row does not let it reach, in a package that the boot sequence has
halted. -/
def haltedRefused : State :=
  { Tests.demo 2 [] with cores := [(0, { tlb := [Tests.leafOf Tests.rw] })], cyc := 1 }.setCreg bootStat 1

theorem haltedRefused_runs : Runs (.cctlDem plainFields) haltedRefused := Tests.runs_of (by decide +kernel)

/-- The log stays empty, and its head is signed anew at CYC 1. -/
theorem haltedRefused_signs :
    (Tests.ran (.cctlDem plainFields) haltedRefused).audit = haltedRefused.audit ∧
    (Tests.ran (.cctlDem plainFields) haltedRefused).auditSigned = 1 ∧ haltedRefused.auditSigned = 0 := by decide +kernel

/-- Refutes O37: in a halted package whose audit log is empty, `cctl.dem` on a line that the connection matrix refuses leaves the log as
it is, and yet changes the time of its last signed head. -/
theorem not_fencesAndCacheControl : ¬ Obligations.FencesAndCacheControl := by
  unfold Obligations.FencesAndCacheControl
  intro h
  obtain ⟨-, -, -, -, -, lines, -⟩ := h plainFields haltedRefused
  obtain ⟨t, next, -, -, -, quiet, -⟩ := lines (.cctlDem plainFields) (by simp) haltedRefused_runs
  have ran : Tests.ran (.cctlDem plainFields) haltedRefused = t := by rw [Tests.ran, next]
  obtain ⟨log, signed, before⟩ := haltedRefused_signs
  rw [ran] at log signed
  have same : t.auditSigned = haltedRefused.auditSigned := (quiet log).2
  rw [signed, before] at same
  exact absurd same (by decide)

end Sys2Proof.Machine
end

section

/-!
# Requests are translated, park, or fail (R49 to R52)
-/

namespace Sys2Proof.Machine

/-! ### What a translation leaves -/

/-- The fields that a translation may change: memory with its views, the TLBs, and the choices that it takes. -/
def State.SameButTables (s t : State) : Prop :=
  t = { s with mem := t.mem, late := t.late, former := t.former, cores := t.cores, quads := t.quads, choices := t.choices }

namespace State.SameButTables
variable {s t u : State}

theorem refl (s : State) : s.SameButTables s := rfl

theorem trans (h : s.SameButTables t) (k : t.SameButTables u) : s.SameButTables u := by
  unfold State.SameButTables at *; rw [k, h]

theorem ite (h : s.SameButTables t) (k : s.SameButTables u) (c : Prop) [Decidable c] : s.SameButTables (if c then t else u) := by
  split
  · exact h
  · exact k

theorem reqs (h : s.SameButTables t) : t.reqs = s.reqs := by rw [h]
theorem wgs (h : s.SameButTables t) : t.wgs = s.wgs := by rw [h]
theorem poolShut (h : s.SameButTables t) (q : Nat) : t.poolShut q = s.poolShut q := by rw [h]; rfl

end State.SameButTables

theorem sameButTables_memWrite (s : State) (g n v : Nat) : s.SameButTables (s.memWrite g n v) := rfl

theorem sameButTables_markEntry (s : State) (at_ : Nat) (setD : Bool) : s.SameButTables (s.markEntry at_ setD) := by
  unfold State.markEntry
  exact (State.SameButTables.refl s).ite (sameButTables_memWrite ..) _

theorem sameButTables_fillTlb (s : State) (core ctx va e level at_ : Nat) (setD : Bool) (member : Option (Nat × Nat)) :
    s.SameButTables (s.fillTlb core ctx va e level at_ setD member) :=
  (sameButTables_markEntry s at_ setD).trans rfl

theorem sameButTables_takeMember (s : State) (e level at_ : Nat) : s.SameButTables (s.takeMember e level at_).2 := by
  unfold State.takeMember State.takeChoice
  split
  · exact .refl s
  · cases s.choices <;> rfl

theorem sameButTables_translate (s : State) (core ctx va : Nat) (acc : Access) (atomic : Bool) :
    s.SameButTables (s.translate core ctx va acc atomic).1 := by
  unfold State.translate
  split
  · exact .refl s
  · exact .refl s
  · next e0 level at_ _ =>
    have member : s.SameButTables (if (s.tlbHit core ctx va acc).isSome then (none, s) else s.takeMember e0 level at_).2 := by
      split
      · exact .refl s
      · exact sameButTables_takeMember ..
    dsimp only
    generalize (if (s.tlbHit core ctx va acc).isSome then (none, s) else s.takeMember e0 level at_) = m at member ⊢
    split
    · exact member
    · refine member.trans ?_
      dsimp only
      cases s.tlbHit core ctx va acc with
      | some t => exact (sameButTables_markEntry ..).ite (.refl _) _
      | none => exact sameButTables_fillTlb ..

theorem sameButTables_translateHop (s : State) (core ctx va : Nat) (acc : Access) :
    s.SameButTables (s.translateHop core ctx va acc).1 :=
  ((show s.SameButTables (s.updCore core fun c => { c with tlb := [] }) from rfl).trans (sameButTables_translate ..)).trans rfl

/-- The translation of a request: that of its only or first hop, or of an `ldi`'s second. -/
def State.translated (s : State) (r : Req) : State × Tr × Nat :=
  if r.hop2 then s.translateHop r.core (s.ctxNo r.wg) r.va r.access
  else s.translate r.core (s.ctxNo r.wg) r.va r.access (!r.fetch && r.mi.atomic)

theorem sameButTables_translated (s : State) (r : Req) : s.SameButTables (s.translated r).1 := by
  unfold State.translated
  split
  · exact sameButTables_translateHop ..
  · exact sameButTables_translate ..

/-! ### Where a request goes on -/

theorem translateReq_held {s : State} {r : Req} {level : Nat}
    (held : s.pageHeld r.core (s.ctxNo r.wg) (r.va / 2 ^ 18) = some level) : s.translateReq r = s.parkReq r level := by
  unfold State.translateReq
  dsimp only
  rw [held]

section
variable {s : State} {r : Req} (first : s.pageHeld r.core (s.ctxNo r.wg) (r.va / 2 ^ 18) = none)
include first

theorem translateReq_first : s.translateReq r =
    let y := s.translated r
    match y.2.1 with
    | .absent level => y.1.parkReq r level
    | .prot d => (y.1.auditTr y.2.1 (s.ctxNo r.wg) r.va).refuseGroup r d
    | .ok g cpol =>
      if r.fetch then y.1.endFetch r
      else y.1.sendHome { r with via := ((y.1.tlbEntry r.core (s.ctxNo r.wg) r.va).map (·.level)).getD 4 } g cpol y.2.2 := by
  unfold State.translateReq State.translated
  dsimp only
  rw [first] <;> rfl

end

theorem exec_translatedAccess {s : State} {r : Req} (found : s.reqs.find? (fun q => q.id == r.id) = some r)
    (may : s.mayTranslate r = true) : exec (.translatedAccess r.id) s = .next (s.translateReq r) := by
  have req : s.req? r.id = some r := found
  show execTranslatedAccess r.id s = _
  unfold execTranslatedAccess
  rw [req]
  dsimp only
  rw [may]
  rfl

/-! ### The list of requests -/

section
variable (s : State)

@[simp] theorem ite_reqs (c : Prop) [Decidable c] (s t : State) : (if c then s else t).reqs = if c then s.reqs else t.reqs :=
  apply_ite ..
@[simp] theorem count_reqs (k w n add : Nat) : (s.count k w n add).reqs = s.reqs := rfl
@[simp] theorem setField_reqs (off hi lo v : Nat) : (s.setField off hi lo v).reqs = s.reqs := rfl
@[simp] theorem recountPool_reqs (q : Nat) : (s.recountPool q).reqs = s.reqs := rfl
@[simp] theorem signalAgent_reqs (part vec : Nat) (x : Signal) : (s.signalAgent part vec x).reqs = s.reqs := by
  simp [State.signalAgent]
@[simp] theorem notifyFault_reqs (part : Nat) : (s.notifyFault part).reqs = s.reqs := by simp [State.notifyFault]
@[simp] theorem faultEntry_reqs (core ctx part page level abit : Nat) :
    (s.faultEntry core ctx part page level abit).reqs = s.reqs := by
  unfold State.faultEntry
  dsimp only
  split
  · exact setCreg_reqs ..
  split
  · simp only [notifyFault_reqs, setCreg_reqs]
  · simp only [ite_reqs, notifyFault_reqs, setCreg_reqs, updQuad_reqs, ite_self]
@[simp] theorem restHamper_reqs (r : Req) (die bank : Nat) : (s.restHamper r die bank).1.reqs = s.reqs := by
  simp [State.restHamper]
@[simp] theorem takePath_reqs (pkg : Nat) : (s.takePath pkg).2.reqs = s.reqs := by
  unfold State.takePath; dsimp only; split <;> rfl

end

/-- A request of one identity: its number, its instruction and its lanes. -/
def Req.is (q r : Req) : Prop := q.id = r.id ∧ q.insn = r.insn ∧ q.lanes = r.lanes

theorem parkReq_stands {s : State} {r : Req} (here : r ∈ s.reqs) (level : Nat) :
    ∃ q ∈ (s.parkReq r level).reqs, q.is r ∧ q.phase = (if s.poolShut (quadOf r.core) then .miss else .parked) ∧
      q.page = r.va / 2 ^ 18 ∧ q.level = level := by
  have rests : (s.restHamper r (quadOf r.core / 32) (quadOf r.core % 8)).1.reqs = s.reqs := restHamper_reqs ..
  refine ⟨{ (s.restHamper r (quadOf r.core / 32) (quadOf r.core % 8)).2 with
    phase := if s.poolShut (quadOf r.core) then .miss else .parked
    order := (s.restHamper r (quadOf r.core / 32) (quadOf r.core % 8)).1.seq + 1, page := r.va / 2 ^ 18, level }, ?_,
    ⟨rfl, rfl, rfl⟩, rfl, rfl, rfl⟩
  unfold State.parkReq
  simp only [count_reqs, recountPool_reqs, faultEntry_reqs, ite_reqs, setCreg_reqs, ite_self]
  exact setReq_mem_self (p := r) (rests ▸ here) rfl

theorem l1Answered_reqs (s : State) (r : Req) (line : Nat) (slots : List Slot) (at_ : State → Slot → Nat) :
    (slots.foldl (fun s x => s.readChain none r.core (r.wg, r.warp) x.lane (at_ s x) r.size) (s.l1Use r.core line)).reqs = s.reqs :=
  foldl_keeps (f := State.reqs) (fun _ _ => readChain_reqs ..) ..

theorem took_reqs {s u : State} {pkg n path : Nat} {c d : Prop} [Decidable c] [Decidable d]
    (took : (if c then (0, s) else if d then (n, s) else s.takePath pkg) = (path, u)) : u.reqs = s.reqs := by
  rw [show u = (if c then (0, s) else if d then (n, s) else s.takePath pkg).2 by rw [took]]
  split
  · rfl
  split
  · rfl
  · exact takePath_reqs ..

theorem rested_reqs {s u : State} {r q : Req} {a b : Nat} {c d : Prop} [Decidable c] [Decidable d]
    (rested : (if c then s.restHamper r a 0 else if d then s.restHamper r b 0 else (s, r)) = (u, q)) :
    u.reqs = s.reqs ∧ ∃ hs, q = { r with hampers := hs } := by
  split at rested
  · cases rested; exact ⟨restHamper_reqs .., _, rfl⟩
  split at rested
  · cases rested; exact ⟨restHamper_reqs .., _, rfl⟩
  · cases rested; exact ⟨rfl, _, rfl⟩

theorem left_here {s u v : State} {p r1 r2 : Req} {pkg n path a b : Nat} {c d e f : Prop} [Decidable c] [Decidable d] [Decidable e]
    [Decidable f] (here : p ∈ s.reqs) (took : (if c then (0, s) else if d then (n, s) else s.takePath pkg) = (path, u))
    (rested : (if e then u.restHamper r1 a 0 else if f then u.restHamper r1 b 0 else (u, r1)) = (v, r2)) :
    p ∈ v.reqs ∧ ∃ hs, r2 = { r1 with hampers := hs } := by
  obtain ⟨reqs, hampers⟩ := rested_reqs rested
  rw [reqs, took_reqs took]
  exact ⟨here, hampers⟩

/-- A request under way to its home, or answered, at the line of a translated address. -/
def Req.sent (q r : Req) (g cpol : Nat) : Prop :=
  q.is r ∧ (q.phase = .home ∨ q.phase = .performed) ∧ q.pa = g - g % 128 ∧ q.cpol = cpol

theorem sendHome_stands {s : State} {p r : Req} (here : p ∈ s.reqs) (id : p.id = r.id) (g cpol leaf : Nat) :
    ∃ q ∈ (s.sendHome r g cpol leaf).reqs, q.sent r g cpol := by
  fun_cases State.sendHome
  case case1 bytes _ r1 =>
    refine ⟨r1.fromLine bytes, setReq_mem_self (p := p) ?_ id, ⟨rfl, rfl, ?_⟩, .inr rfl, rfl, rfl⟩
    · exact (l1Answered_reqs s r _ _ fun s x => s.canon (r1.slotPa x)).symm ▸ here
    · simp [Req.lanes, Req.fromLine, r1, Req.leaves]
  case case2 path u took r1 v r2 rested w _ =>
    obtain ⟨left, hs, rfl⟩ := left_here here took rested
    have counted : p ∈ w.reqs := by simp only [w]; split <;> exact left
    exact ⟨_, setReq_mem_self counted id, ⟨rfl, rfl, rfl⟩, .inl rfl, rfl, rfl⟩
  case case3 path u took r1 v r2 rested w _ _ _ =>
    obtain ⟨left, hs, rfl⟩ := left_here here took rested
    have counted : p ∈ w.reqs := by simp only [w]; split <;> exact left
    exact ⟨_, setReq_mem_self counted id, ⟨rfl, rfl, rfl⟩, .inl rfl, rfl, rfl⟩
  case case4 path u took r1 v r2 rested w _ _ =>
    obtain ⟨left, hs, rfl⟩ := left_here here took rested
    have counted : p ∈ w.reqs := by simp only [w]; split <;> exact left
    exact ⟨_, setReq_mem_self counted id, ⟨rfl, rfl, rfl⟩, .inl rfl, rfl, rfl⟩

/-! ### A request whose translation fails -/

theorem auditTr_keeps (s : State) (t : Tr) (ctx va : Nat) :
    (s.auditTr t ctx va).wgs = s.wgs ∧ (s.auditTr t ctx va).reqs = s.reqs := by
  unfold State.auditTr
  split
  · exact auditEvent_keeps ..
  · exact ⟨rfl, rfl⟩

/-- A PROT of a request's lanes, at its instruction, is pending in its warp. -/
def State.protPending (s : State) (r : Req) : Prop :=
  ∃ x ∈ (s.warp r.wg r.warp).pendTraps, x.cause = 7 ∧ x.pc = r.pc ∧ ∀ l ∈ r.lanes, l < 64 → x.mask.getLsbD l = true

theorem protPending_addTrap (s : State) (r : Req) {t : Trap} (cause : t.cause = 7) (pc : t.pc = r.pc) (once : t.cancel = 0)
    (mask : ∀ l ∈ r.lanes, l < 64 → t.mask.getLsbD l = true) : (s.addTrap r.wg r.warp t).protPending r := by
  unfold State.protPending State.addTrap
  rw [warp_updWarp_same]
  obtain ⟨y, hy, yc, yp, ym⟩ := exists_addTrap (s.warp r.wg r.warp) once
  exact ⟨y, hy, yc.trans cause, yp.trans pc, fun l hl lt => ym l (mask l hl lt)⟩

/-- A request that fails by itself leaves the machine with a PROT of its lanes. -/
theorem failReq_protPending {s : State} {r : Req} (takes : s.takes r = true) (detail : Nat) : (s.failReq r 7 detail).protPending r := by
  unfold State.failReq State.protPending
  dsimp only
  rw [if_pos takes, retire_pendTraps]
  exact protPending_addTrap _ r rfl rfl rfl fun l hl lt => getLsbD_maskOf hl lt

/-- An instruction that ends leaves the PROT of each request of its that failed. -/
theorem endGroup_protPending {s : State} {r : Req} {fails : List Req} (takes : s.takes r = true) (failed : r ∈ fails) (detail : Nat) :
    (s.endGroup r fails 7 detail).protPending r := by
  unfold State.endGroup
  dsimp only
  rw [if_neg (by simp [takes])]
  refine protPending_addTrap _ r rfl rfl rfl fun l hl lt => getLsbD_maskOf (ls := failedLanes fails) ?_ lt
  exact List.mem_filter.2 ⟨List.mem_range.2 lt, List.any_eq_true.2 ⟨r, failed, List.contains_iff_mem.2 hl⟩⟩

theorem refuseGroup_leaves {s : State} {r : Req} (here : r ∈ s.reqs) (phase : r.phase = .translate) (detail : Nat) :
    (∀ q ∈ (s.refuseGroup r detail).reqs, q.id ≠ r.id) ∧ (s.takes r = true → (s.refuseGroup r detail).protPending r) := by
  unfold State.refuseGroup
  split
  · exact ⟨retire_id _ r, fun takes => failReq_protPending takes detail⟩
  · next together =>
    have data : r.fetch = false := by simp at together; exact together.1.1.1
    have mate : r ∈ s.mates r := List.mem_filter.2 ⟨here, by simp [data, phase]⟩
    have failed (p : Req → Bool) : r ∈ (s.mates r).filter fun q => q.id == r.id || p q := List.mem_filter.2 ⟨mate, by simp⟩
    exact ⟨(endGroup_leaves mate (failed _) 7 detail).1, fun takes => endGroup_protPending takes (failed _) detail⟩

/-! ### A fetch that succeeds -/

/-- A wait is for a fetch. -/
def isFetchWait (w : Option Wait) : Prop := ∃ n, w = some ⟨.fetch, n⟩

theorem fetchOver_wait {x : Lane} (h : isFetchWait x.wait) : x.fetchOver = { x with wait := none } := by
  obtain ⟨n, h⟩ := h
  simp [Lane.fetchOver, h]

theorem fetchOver_frozen {x : Lane} (other : ¬isFetchWait x.wait) (h : isFetchWait x.frozenWait) :
    x.fetchOver = { x with frozenWait := none } := by
  obtain ⟨n, h⟩ := h
  unfold Lane.fetchOver
  dsimp only
  split
  · next fetches =>
    refine absurd ?_ other
    split at fetches
    · next n same => exact ⟨n, same⟩
    · cases fetches
  · rw [h]; rfl

theorem endFetch_leaves (s : State) {r : Req} (fetch : r.fetch = true) (nodup : r.lanes.Nodup) :
    (∀ q ∈ (s.endFetch r).reqs, q.id ≠ r.id) ∧
      ∀ l ∈ r.lanes, (s.endFetch r).lane r.wg r.warp l = (s.lane r.wg r.warp l).fetchOver := by
  refine ⟨retire_id _ r, fun l hl => ?_⟩
  have kept : (s.endFetch r).warp r.wg r.warp = (s.updLanes r.wg r.warp r.lanes fun _ x => x.fetchOver).warp r.wg r.warp := by
    simp [State.endFetch, State.retire, fetch, State.warp, State.wg]
  rw [State.lane, kept, State.updLanes, warp_updWarp_same, lane_updLanes _ _ _ _ nodup, if_pos hl]
  rfl

/-! ### The obligation -/

theorem translatedAccess_prot {s : State} {r : Req} {d : Nat} (here : r ∈ s.reqs) (phase : r.phase = .translate)
    (first : s.pageHeld r.core (s.ctxNo r.wg) (r.va / 2 ^ 18) = none) (prot : (s.translated r).2.1 = .prot d) :
    (∀ q ∈ (s.translateReq r).reqs, q.id ≠ r.id) ∧ ((s.wg r.wg).status = .resident → (s.translateReq r).protPending r) := by
  have same := sameButTables_translated s r
  obtain ⟨wgs, reqs⟩ := auditTr_keeps (s.translated r).1 (s.translated r).2.1 (s.ctxNo r.wg) r.va
  rw [translateReq_first first]
  dsimp only
  rw [prot] at wgs reqs ⊢
  obtain ⟨gone, pending⟩ := refuseGroup_leaves (reqs.trans same.reqs ▸ here) phase d
  refine ⟨gone, fun resident => pending ?_⟩
  rw [State.takes, State.wg, wgs, same.wgs]
  exact beq_iff_eq.2 resident

theorem exec_missQueueToPool {s : State} {r : Req} (found : s.reqs.find? (fun q => q.id == r.id) = some r) (miss : r.phase = .miss)
    (room : s.poolUse (quadOf r.core) < 1024)
    (reqs : ∀ q ∈ s.reqs, q.phase = .miss → quadOf q.core = quadOf r.core → r.order ≤ q.order)
    (xfers : ∀ x ∈ s.xfers, x.phase = .miss → quadOf (s.xferCore x) = quadOf r.core → r.order ≤ x.order)
    (occs : ∀ o ∈ s.occs, o.2.parked = some .miss → quadOf o.2.core = quadOf r.core → r.order ≤ o.2.order) :
    exec (.missQueueToPool r.id) s = .next ((s.setReq { r with phase := .parked }).recountPool (quadOf r.core)) := by
  have req : s.req? r.id = some r := found
  show execMissQueueToPool r.id s = _
  unfold execMissQueueToPool
  rw [req]
  dsimp only
  refine if_pos ?_
  simp only [miss, beq_self_eq_true, Bool.true_and, Bool.and_eq_true, decide_eq_true_eq, Bool.not_eq_true', List.any_eq_false,
    beq_iff_eq, not_and, not_lt]
  exact ⟨⟨⟨room, fun q hq ⟨h, k⟩ => reqs q hq h k⟩, fun x hx ⟨h, k⟩ => xfers x hx h k⟩, fun o ho ⟨h, k⟩ => occs o ho h k⟩

/-- Settles O38, each way that a translation ends by the lemma about what it leaves. -/
theorem requestsAreTranslated : Obligations.RequestsAreTranslated := by
  unfold Obligations.RequestsAreTranslated
  intro s r found
  have here : r ∈ s.reqs := List.mem_of_find?_eq_some found
  refine ⟨fun may first => ?_, fun may level held => ?_, fun miss room reqs xfers occs => ?_⟩
  · have phase : r.phase = .translate := by
      simp only [State.mayTranslate, Bool.and_eq_true, beq_iff_eq] at may; exact may.1.1.1
    have next := exec_translatedAccess found may
    have same := sameButTables_translated s r
    have left : r ∈ (s.translated r).1.reqs := same.reqs ▸ here
    refine ⟨fun level absent => ⟨_, next, ?_⟩, fun d prot => ⟨_, next, translatedAccess_prot here phase first prot⟩,
      fun g cpol ok => ⟨_, next, fun data => ?_, fun fetch nodup => ?_⟩⟩
    · rw [translateReq_first first]
      dsimp only
      rw [show (s.translated r).2.1 = .absent level from absent]
      obtain ⟨q, hq, ⟨id, insn, lanes⟩, parked, page, at_⟩ := parkReq_stands left level
      exact ⟨q, hq, id, insn, lanes, parked.trans (by rw [same.poolShut]), page, at_⟩
    · rw [translateReq_first first]
      dsimp only
      rw [show (s.translated r).2.1 = .ok g cpol from ok]
      dsimp only
      rw [if_neg (by simp [data])]
      generalize (((s.translated r).1.tlbEntry r.core (s.ctxNo r.wg) r.va).map (·.level)).getD 4 = via
      obtain ⟨q, hq, ⟨id, insn, lanes⟩, goes⟩ := sendHome_stands (r := { r with via }) left rfl g cpol (s.translated r).2.2
      exact ⟨q, hq, id, insn, lanes, goes⟩
    · rw [translateReq_first first]
      dsimp only
      rw [show (s.translated r).2.1 = .ok g cpol from ok, fetch]
      obtain ⟨gone, lanes⟩ := endFetch_leaves (s.translated r).1 fetch nodup
      refine ⟨gone, fun l hl => ?_⟩
      have kept : (s.translated r).1.lane r.wg r.warp l = s.lane r.wg r.warp l := by
        simp only [State.lane, State.warp, State.wg, same.wgs]
      rw [← kept]
      exact ⟨fun fetches => (lanes l hl).trans (fetchOver_wait fetches), fun other fetches => (lanes l hl).trans (fetchOver_frozen other fetches)⟩
  · refine ⟨_, exec_translatedAccess found may, ?_⟩
    rw [translateReq_held held]
    obtain ⟨q, hq, ⟨id, insn, lanes⟩, phase, -, -⟩ := parkReq_stands here level
    exact ⟨q, hq, id, insn, lanes, phase⟩
  · refine ⟨_, exec_missQueueToPool found miss room reqs xfers occs, ?_⟩
    exact ⟨_, setReq_mem_self here rfl, rfl, rfl, rfl, rfl⟩

end Sys2Proof.Machine
end

section

/-!
# The frame of the command records

Only a command's start and its completion change `State.cmds`. The lemmas stand in the order of the model's modules, as those about
`mem` do: `X_cmds` says that `X` leaves the records as they are. They cover what a replay does to the items that it re-issues (R56).
-/

namespace Sys2Proof.Machine

@[simp] theorem ite_cmds (c : Prop) [Decidable c] (s t : State) : (if c then s else t).cmds = if c then s.cmds else t.cmds :=
  apply_ite ..

/-- Every step of a fold leaves the command records as they are: a name, so that `simp` can discharge it. -/
def KeepsCmds {α : Type} (g : State → α → State) : Prop := ∀ s a, (g s a).cmds = s.cmds

@[simp] theorem keepsCmds_iff {α : Type} (g : State → α → State) : KeepsCmds g ↔ ∀ s a, (g s a).cmds = s.cmds := Iff.rfl

@[simp] theorem foldl_cmds {α : Type} (g : State → α → State) (l : List α) (s : State) (hg : KeepsCmds g) :
    (l.foldl g s).cmds = s.cmds := foldl_keeps hg l s

theorem foldl_snd_cmds {α β : Type} {g : β × State → α → β × State} (hg : ∀ a m, (g a m).2.cmds = a.2.cmds) (l : List α) (a : β × State) :
    (l.foldl g a).2.cmds = a.2.cmds :=
  List.foldlRecOn (motive := fun b : β × State => b.2.cmds = a.2.cmds) l g rfl fun b hb m _ => (hg b m).trans hb

theorem State.SameButTables.cmds {s t : State} (h : s.SameButTables t) : t.cmds = s.cmds := by rw [h]

section
variable (s : State)

/-! ### Control registers, translations and logs -/

@[simp] theorem setCregOf_cmds (pkg off : Nat) (v : Nat) : (s.setCregOf pkg off v).cmds = s.cmds := by simp [State.setCregOf]
@[simp] theorem setField_cmds (off hi lo v : Nat) : (s.setField off hi lo v).cmds = s.cmds := by simp [State.setField]
@[simp] theorem settled_cmds (place : Option Nat) (a n : Nat) : (s.settled place a n).cmds = s.cmds := by simp [State.settled]
@[simp] theorem takeChoice_cmds : (s.takeChoice).2.cmds = s.cmds := by
  unfold State.takeChoice; split <;> simp
@[simp] theorem translate_cmds (core ctx va : Nat) (acc : Access) (atomic : Bool) :
    (s.translate core ctx va acc atomic).1.cmds = s.cmds := (sameButTables_translate ..).cmds
@[simp] theorem translated_cmds (r : Req) : (s.translated r).1.cmds = s.cmds := (sameButTables_translated ..).cmds
@[simp] theorem memWriteBytes_cmds (g : Nat) (bs : List Byte) : (s.memWriteBytes g bs).cmds = s.cmds := by
  induction bs generalizing s g with
  | nil => rfl
  | cons b bs ih => exact (ih ..).trans (memWrite_cmds ..)
@[simp] theorem updLanes_cmds (k w : Nat) (ls : List Nat) (g : Nat → Lane → Lane) :
    (s.updLanes k w ls g).cmds = s.cmds := by simp [State.updLanes]
@[simp] theorem count_cmds (k w n add : Nat) : (s.count k w n add).cmds = s.cmds := by simp [State.count]
@[simp] theorem takeFree_cmds : (s.takeFree).2.cmds = s.cmds := by simp [State.takeFree]
@[simp] theorem signalAgent_cmds (part vec : Nat) (cluster : Signal) :
    (s.signalAgent part vec cluster).cmds = s.cmds := by simp [State.signalAgent]
@[simp] theorem logEvent_cmds (part type ctx vq wgid : Nat) (data : List Byte) :
    (s.logEvent part type ctx vq wgid data).cmds = s.cmds := by simp [State.logEvent]
@[simp] theorem auditPush_cmds (body : List Byte) : (s.auditPush body).cmds = s.cmds := by simp [State.auditPush]
@[simp] theorem auditHeadSign_cmds : (s.auditHeadSign).cmds = s.cmds := by simp [State.auditHeadSign]
@[simp] theorem auditAppend_cmds (body : List Byte) : (s.auditAppend body).cmds = s.cmds := by simp [State.auditAppend]
@[simp] theorem auditEvent_cmds (type ctx v : Nat) : (s.auditEvent type ctx v).cmds = s.cmds := by simp [State.auditEvent]
@[simp] theorem auditTr_cmds (t : Tr) (ctx va : Nat) : (s.auditTr t ctx va).cmds = s.cmds := by simp [State.auditTr]

/-! ### Caches and requests -/

@[simp] theorem llcTouch_cmds (g part cpol ch : Nat) : (s.llcTouch g part cpol ch).cmds = s.cmds := by
  unfold State.llcTouch; split <;> simp
@[simp] theorem l1Use_cmds (core line : Nat) : (s.l1Use core line).cmds = s.cmds := by simp [State.l1Use]
@[simp] theorem restHamper_cmds (r : Req) (die bank : Nat) : (s.restHamper r die bank).1.cmds = s.cmds := by simp [State.restHamper]
@[simp] theorem setReq_cmds (r : Req) : (s.setReq r).cmds = s.cmds := by simp [State.setReq]
@[simp] theorem retire_cmds (r : Req) : (s.retire r).cmds = s.cmds := by simp [State.retire]
@[simp] theorem returnEscort_cmds (r : Req) : (s.returnEscort r).cmds = s.cmds := by simp [State.returnEscort]
@[simp] theorem endFetch_cmds (r : Req) : (s.endFetch r).cmds = s.cmds := by simp [State.endFetch]
@[simp] theorem failReq_cmds (r : Req) (cause detail : Nat) (cancel : Nat) :
    (s.failReq r cause detail cancel).cmds = s.cmds := by simp [State.failReq]
@[simp] theorem takePath_cmds (pkg : Nat) : (s.takePath pkg).2.cmds = s.cmds := by
  unfold State.takePath; split <;> simp
@[simp] theorem recountPool_cmds (q : Nat) : (s.recountPool q).cmds = s.cmds := by simp [State.recountPool]
@[simp] theorem notifyFault_cmds (part : Nat) : (s.notifyFault part).cmds = s.cmds := by simp [State.notifyFault]
@[simp] theorem faultEntry_cmds (core ctx part page level abit : Nat) :
    (s.faultEntry core ctx part page level abit).cmds = s.cmds := by
  unfold State.faultEntry
  dsimp only
  split
  · rw [setCreg_cmds]
  split
  · rw [notifyFault_cmds, setCreg_cmds, setCreg_cmds, setCreg_cmds, setCreg_cmds, setCreg_cmds]
  · split <;> split
    · rw [setCreg_cmds]
    · rw [setCreg_cmds, updQuad_cmds, setCreg_cmds]
    · rw [notifyFault_cmds, setCreg_cmds]
    · rw [notifyFault_cmds, setCreg_cmds, updQuad_cmds, setCreg_cmds]
@[simp] theorem parkReq_cmds (r : Req) (level : Nat) : (s.parkReq r level).cmds = s.cmds := by simp [State.parkReq]
@[simp] theorem endGroup_cmds (r : Req) (fails : List Req) (cause detail : Nat) :
    (s.endGroup r fails cause detail).cmds = s.cmds := by simp [State.endGroup]
@[simp] theorem refuseGroup_cmds (r : Req) (detail : Nat) : (s.refuseGroup r detail).cmds = s.cmds := by simp [State.refuseGroup]
@[simp] theorem sendHome_cmds (r : Req) (g cpol leaf : Nat) : (s.sendHome r g cpol leaf).cmds = s.cmds := by
  fun_cases State.sendHome
  · simp
  all_goals grind [setReq_cmds, count_cmds, takePath_cmds, restHamper_cmds]
@[simp] theorem translateReq_cmds (r : Req) : (s.translateReq r).cmds = s.cmds := by
  cases first : s.pageHeld r.core (s.ctxNo r.wg) (r.va / 2 ^ 18) with
  | some level => rw [translateReq_held first, parkReq_cmds]
  | none =>
    rw [translateReq_first first]
    dsimp only
    split <;> simp
@[simp] theorem cleanMem_cmds (g n : Nat) : (s.cleanMem g n).cmds = s.cmds := by simp [State.cleanMem]
@[simp] theorem serviceRequest_cmds (n : Nat) : (s.serviceRequest n).cmds = s.cmds := by simp [State.serviceRequest]
@[simp] theorem retireChannel_cmds (key : Nat) : (s.retireChannel key).cmds = s.cmds := by simp [State.retireChannel]
@[simp] theorem retireLine_cmds (g : Nat) : (s.retireLine g).cmds = s.cmds := by simp [State.retireLine]
@[simp] theorem putMem_cmds (core : Nat) (who : Nat × Nat) (access : Option (Nat × Nat × Nat)) (cached : Bool)
    (bars : List (Nat × Nat)) (stored : Bool) (g n v : Nat) :
    (s.putMem core who access cached bars stored g n v).cmds = s.cmds := by
  unfold State.putMem; split <;> simp [State.putBytes, State.keepWords]

/-! ### Stores and engines -/

@[simp] theorem coreError_cmds (core : Nat) : (s.coreError core).cmds = s.cmds := by simp [State.coreError]
@[simp] theorem retireRow_cmds (row : Row) : (s.retireRow row).cmds = s.cmds := by simp [State.retireRow]
@[simp] theorem cleanStore_cmds (core off n : Nat) : (s.cleanStore core off n).cmds = s.cmds := by simp [State.cleanStore]
@[simp] theorem cleanScratch_cmds (k a n : Nat) : (s.cleanScratch k a n).cmds = s.cmds := by simp [State.cleanScratch]
@[simp] theorem scratchPut_cmds (k a n v : Nat) : (s.scratchPut k a n v).cmds = s.cmds := by simp [State.scratchPut]
@[simp] theorem storeError_cmds (core off : Nat) : (s.storeError core off).cmds = s.cmds := by simp [State.storeError]
@[simp] theorem scratchError_cmds (k a : Nat) : (s.scratchError k a).cmds = s.cmds := by simp [State.scratchError]
@[simp] theorem mixRead_cmds (mixed : Bool) (before : Option Word) (held : Word) :
    (s.mixRead mixed before held).2.cmds = s.cmds := by
  unfold State.mixRead; split <;> simp
@[simp] theorem mixWrite_cmds (mixed : Bool) (k : Nat) (put : Workgroup → Workgroup) :
    (s.mixWrite mixed k put).cmds = s.cmds := by simp [State.mixWrite]
@[simp] theorem tileRead_cmds (k t n : Nat) (side : Bool) : (s.tileRead k t n side).2.cmds = s.cmds := by
  fun_cases State.tileRead <;> simp +zetaDelta
@[simp] theorem tileWrite_cmds (k t n : Nat) (v : Word) : (s.tileWrite k t n v).cmds = s.cmds := by
  fun_cases State.tileWrite <;> simp +zetaDelta
@[simp] theorem updBar_cmds (k b : Nat) (f : Barrier → Barrier) : (s.updBar k b f).cmds = s.cmds := by
  unfold State.updBar; dsimp only; split
  · exact memWrite_cmds ..
  · rfl

/-! ### Transfer operations -/

@[simp] theorem setXfer_cmds (x : Xfer) : (s.setXfer x).cmds = s.cmds := by simp [State.setXfer]
@[simp] theorem endXfer_cmds (c : Copy) (x : Xfer) : (s.endXfer c x).cmds = s.cmds := by simp [State.endXfer]
@[simp] theorem refuseXfer_cmds (c : Copy) (x : Xfer) (type : Nat) (data : List Byte) :
    (s.refuseXfer c x type data).cmds = s.cmds := by simp [State.refuseXfer]
@[simp] theorem parkXfer_cmds (c : Copy) (x : Xfer) (va level : Nat) (acc : Access) :
    (s.parkXfer c x va level acc).cmds = s.cmds := by simp [State.parkXfer]
@[simp] theorem winError_cmds (t addr : Nat) : (s.winError t addr).cmds = s.cmds := by
  fun_cases State.winError <;> simp
@[simp] theorem engineWord_cmds (t kind off : Nat) : (s.engineWord t kind off).2.cmds = s.cmds := by
  unfold State.engineWord; split <;> simp
@[simp] theorem objGet_cmds (t kind off x : Nat) : (s.objGet t kind off x).2.cmds = s.cmds := by
  induction x generalizing s off with
  | zero => rfl
  | succ n ih => simp [State.objGet, ih]
@[simp] theorem setEngineWord_cmds (t kind off : Nat) (v : Word) : (s.setEngineWord t kind off v).cmds = s.cmds := by
  unfold State.setEngineWord; split <;> simp
@[simp] theorem objPut_cmds (t kind off v : Nat) (x : Nat) : (s.objPut t kind off v x).cmds = s.cmds := by
  induction x generalizing s off v with
  | zero => rfl
  | succ n ih => simp [State.objPut, ih]
@[simp] theorem winGet_cmds (core : Nat) (who : Nat × Nat) (t addr size : Nat) :
    (s.winGet core who t addr size).2.cmds = s.cmds := by
  fun_cases State.winGet <;> simp +zetaDelta
@[simp] theorem winPut_cmds (t addr size v : Nat) : (s.winPut t addr size v).cmds = s.cmds := by
  fun_cases State.winPut <;> simp
@[simp] theorem payOwed_cmds (u : Late) : (s.payOwed u).cmds = s.cmds := by unfold State.payOwed; split <;> simp
@[simp] theorem payAt_cmds (t : Nat) (range : Option (Nat × Nat)) : (s.payAt t range).cmds = s.cmds := by simp [State.payAt]
@[simp] theorem noteWrites_cmds (c : Copy) (x : Xfer) (member : Nat) : (s.noteWrites c x member).cmds = s.cmds := by
  simp [State.noteWrites]
@[simp] theorem noteCopy_cmds (was : State) (c : Copy) (place : Option Nat) (a n : Nat) :
    (s.noteCopy was c place a n).cmds = s.cmds := by simp [State.noteCopy]
@[simp] theorem copyPut_cmds (c : Copy) (t : Nat) (bars : List (Nat × Nat)) (a n v : Nat) :
    (s.copyPut c t bars a n v).cmds = s.cmds := by simp [State.copyPut]
@[simp] theorem objCopyPut_cmds (c : Copy) (t : Nat) (bars : List (Nat × Nat)) (addr n v : Nat) :
    (s.objCopyPut c t bars addr n v).cmds = s.cmds := by simp [State.objCopyPut]
@[simp] theorem countBytes_cmds (c : Copy) (x : Xfer) (owner : Nat) : (s.countBytes c x owner).cmds = s.cmds := by
  simp [State.countBytes]
@[simp] theorem slotPut_cmds (k slot : Nat) (zeroed : Bool) (at_ : Nat) (bs : List Byte) :
    (s.slotPut k slot zeroed at_ bs).cmds = s.cmds := by simp [State.slotPut]

/-- The state that a transfer's attempt leaves, where it leaves one, has these command records. -/
@[simp] def XferOut.hasCmds (m : SMap Command) : XferOut → Prop
  | .wait => True
  | .park s .. | .refuse s .. | .go s _ => s.cmds = m

theorem xferSide_cmds (c : Copy) (va : Nat) (acc : Access) {k : State → Nat → Nat → XferOut}
    (hk : ∀ t g cpol, t.cmds = s.cmds → (k t g cpol).hasCmds s.cmds) : (s.xferSide c va acc k).hasCmds s.cmds := by
  unfold State.xferSide
  dsimp only
  split
  · rfl
  · split
    · simp
    · simp
    · split
      · simp
      · exact hk _ _ _ (by simp)

theorem xferWindow_cmds (c : Copy) (x : Xfer) (addr : Nat) (moves : List Nat) {k : Nat → XferOut}
    (hk : ∀ t, (k t).hasCmds s.cmds) : (s.xferWindow c x addr moves k).hasCmds s.cmds := by
  unfold State.xferWindow
  dsimp only
  split
  · rfl
  · rfl
  · trivial
  · split
    · simp
    · split
      · trivial
      · exact hk _

theorem xferRead_cmds (c : Copy) (x : Xfer) : (s.xferRead c x).hasCmds s.cmds := by
  unfold State.xferRead
  dsimp only
  split
  · simp only [XferOut.hasCmds]
    rw [foldl_snd_cmds (fun a m => by rfl)]
    split <;> simp
  · refine xferWindow_cmds s c x _ _ fun t => ?_
    simp only [XferOut.hasCmds]
    rw [foldl_snd_cmds (fun a m => by simp)]
    split <;> simp
  · refine xferSide_cmds s c _ _ fun t g cpol ht => ?_
    simp only [XferOut.hasCmds]
    rw [foldl_snd_cmds (fun a m => by rfl)]
    split <;> simp [ht]

theorem xferWrite_cmds (c : Copy) (x : Xfer) : (s.xferWrite c x).hasCmds s.cmds := by
  unfold State.xferWrite
  split
  · simp
  · simp
  · refine xferWindow_cmds s c x _ _ fun t => ?_
    split
    · rfl
    · simp only [XferOut.hasCmds, noteWrites_cmds, countBytes_cmds]
      refine foldl_cmds _ _ _ fun u p => ?_
      split
      · simp
      · split <;> simp
  · refine xferSide_cmds s c _ _ fun t g cpol ht => ?_
    simp [ht]

theorem stepXfer_cmds (c : Copy) (x : Xfer) {t : State} (e : s.stepXfer c x = some t) : t.cmds = s.cmds := by
  have out : (if x.isRead then s.xferWrite c x else s.xferRead c x).hasCmds s.cmds := by
    split
    · exact xferWrite_cmds s c x
    · exact xferRead_cmds s c x
  unfold State.stepXfer at e
  dsimp only at e
  split at e
  · cases e
  case h_2 eq => rw [eq] at out; cases e; simpa using out
  case h_3 eq => rw [eq] at out; cases e; simpa using out
  case h_4 eq => rw [eq] at out; split at e <;> cases e <;> simpa using out

/-! ### Collective occurrences -/

@[simp] theorem collTranslate_cmds (coreFor : Nat → Nat) (ctx : Nat) (l : List (Nat × Nat × Bool)) :
    (s.collTranslate coreFor ctx l).1.cmds = s.cmds := by
  induction l generalizing s with
  | nil => rfl
  | cons y l ih =>
    obtain ⟨r, va, wr⟩ := y
    unfold State.collTranslate
    split
    · rfl
    · dsimp only
      split
      · exact (ih _).trans (translate_cmds ..)
      · simp
@[simp] theorem parkOcc_cmds (key core va level : Nat) (wr : Bool) : (s.parkOcc key core va level wr).cmds = s.cmds := by
  simp [State.parkOcc]
@[simp] theorem collComplete_cmds (key n status fl : Nat) : (s.collComplete key n status fl).cmds = s.cmds := by
  simp [State.collComplete]
@[simp] theorem loseOcc_cmds (key : Nat) : (s.loseOcc key).cmds = s.cmds := by simp [State.loseOcc]
@[simp] theorem stepOcc_cmds (key : Nat) : (s.stepOcc key).cmds = s.cmds := by
  unfold State.stepOcc
  dsimp only
  split
  · simp
  · split <;> simp

/-! ### Commands -/

@[simp] theorem clearFaults_cmds (q : Nat) : (s.clearFaults q).cmds = s.cmds := by simp [State.clearFaults]
@[simp] theorem unpark_cmds (p : Parked) : (unpark s p).cmds = s.cmds := by
  unfold unpark; split <;> simp
@[simp] theorem reissue_cmds (p : Parked) : (reissue s p).cmds = s.cmds := by
  unfold reissue
  split
  · split <;> simp
  · split
    · next y c _ _ =>
      cases e : s.stepXfer c y with
      | none => rfl
      | some t => exact stepXfer_cmds s _ _ e
    · rfl
  · simp
@[simp] theorem replayAll_cmds (part : Nat) : (s.replayAll part).cmds = s.cmds := by simp [State.replayAll]
@[simp] theorem cancelOne_cmds (number : Nat) (p : Parked) : (cancelOne number s p).cmds = s.cmds := by
  fun_cases cancelOne <;> simp +zetaDelta
@[simp] theorem clearEntries_cmds (q : Nat) (page : Nat → Bool) : (s.clearEntries q page).cmds = s.cmds := by
  simp [State.clearEntries]
@[simp] theorem cancelPages_cmds (part : Nat) (page : Nat → Bool) : (s.cancelPages part page).cmds = s.cmds := by
  simp [State.cancelPages]
@[simp] theorem mapTlbs_cmds (part : Nat) (g : TlbEntry → Option TlbEntry) : (s.mapTlbs part g).cmds = s.cmds := by
  simp [State.mapTlbs]
@[simp] theorem discardRange_cmds (part first n : Nat) : (s.discardRange part first n).cmds = s.cmds := by simp [State.discardRange]

end

end Sys2Proof.Machine
end

section

/-!
# A command begins (R55 to R57, R60)
-/

namespace Sys2Proof.Machine

/-! ### Addresses and partitions, by the striped view's registers -/

theorem cregOf_setCreg_other (s : State) (p : Nat) {off o : Nat} (v : Nat) (h : o ≠ off) : (s.setCreg off v).cregOf p o = s.cregOf p o := by
  by_cases own : p = s.pkg
  · subst own; exact creg_setCreg_other s v h
  · simp [State.cregOf, State.setCreg, State.setCregOf, SMap.get_upd, own]

theorem canon_eq {s t : State} (stripes : ∀ p, t.cregOf p stripeCfg = s.cregOf p stripeCfg) : t.canon = s.canon := by
  funext g
  simp only [State.canon, State.unstripe, State.nact, State.stripeBase, stripes]

theorem ctxPart_eq {s t : State} (stripes : ∀ p, t.cregOf p stripeCfg = s.cregOf p stripeCfg) (pkg : t.pkg = s.pkg)
    (ctxs : t.ctxs = s.ctxs) (mem : t.mem = s.mem) : t.ctxPart = s.ctxPart := by
  funext ctx
  simp only [State.ctxPart, State.memRead, State.own, State.ctx, canon_eq stripes, pkg, ctxs, mem]

/-! ### What is parked -/

theorem mem_insertBy {α : Type} (lt : α → α → Bool) (x y : α) (l : List α) : y ∈ insertBy lt x l ↔ y = x ∨ y ∈ l := by
  induction l with
  | nil => exact List.mem_cons
  | cons z l ih =>
    unfold insertBy
    split
    · simp only [List.mem_cons, ih]; exact or_left_comm
    · exact List.mem_cons

theorem mem_sortBy {α : Type} (lt : α → α → Bool) (y : α) (l : List α) : y ∈ sortBy lt l ↔ y ∈ l := by
  induction l with
  | nil => rfl
  | cons x l ih => rw [sortBy, List.foldr_cons, mem_insertBy, ← sortBy, ih, List.mem_cons]

section
variable {s : State} {part : Nat}

theorem req_parkedOf {r : Req} : .req r ∈ s.parkedOf part ↔ r ∈ s.reqs ∧ (r.phase = .parked ∨ r.phase = .miss) ∧ s.reqPart r = part := by
  simp [State.parkedOf, mem_sortBy]

theorem xfer_parkedOf {x : Xfer} (h : .xfer x ∈ s.parkedOf part) : x ∈ s.xfers := by
  simp only [State.parkedOf, mem_sortBy, List.mem_append, List.mem_map, List.mem_filter] at h
  rcases h with (⟨_, -, e⟩ | ⟨y, ⟨hy, -⟩, e⟩) | ⟨_, -, e⟩ <;> cases e
  exact hy

theorem occ_parkedOf {key : Nat} {o : Occ} :
    .occ key o ∈ s.parkedOf part ↔ (key, o) ∈ s.occs ∧ o.parked.isSome = true ∧ s.ctxPart (occCtx key) = part := by
  simp [State.parkedOf, mem_sortBy]

end

/-! ### Cancelling -/

/-- A register of a quad's fault block. -/
def isFaultReg (o : Nat) : Prop := 0x1000000 ≤ o ∧ o < 0x2000000

/-- What a replay of nothing and a cancel may do: registers of the fault blocks change, requests end, and occurrences leave the pool. -/
structure State.Cancels (s t : State) : Prop where
  frame : t = { s with cregs := t.cregs, quads := t.quads, wgs := t.wgs, reqs := t.reqs, occs := t.occs, tag := t.tag }
  regs : ∀ p o, ¬isFaultReg o → t.cregOf p o = s.cregOf p o
  reqs : ∀ r ∈ t.reqs, r ∈ s.reqs
  occs : ∀ o ∈ t.occs, o.2.parked.isSome = true → o ∈ s.occs

namespace State.Cancels
variable {s t u : State}

theorem refl (s : State) : s.Cancels s := ⟨rfl, fun _ _ _ => rfl, fun _ h => h, fun _ h _ => h⟩

theorem trans (h : s.Cancels t) (k : t.Cancels u) : s.Cancels u where
  frame := by rw [k.frame, h.frame]
  regs p o ho := (k.regs p o ho).trans (h.regs p o ho)
  reqs r hr := h.reqs r (k.reqs r hr)
  occs o ho parked := h.occs o (k.occs o ho parked) parked

theorem foldl {α : Type} {g : State → α → State} {l : List α} (hg : ∀ (s : State), ∀ a ∈ l, s.Cancels (g s a)) (s : State) : s.Cancels (l.foldl g s) :=
  List.foldlRecOn (motive := fun t => s.Cancels t) l g (refl s) fun t ht a ha => ht.trans (hg t a ha)

theorem creg (h : s.Cancels t) {o : Nat} (ho : ¬isFaultReg o) : t.creg o = s.creg o := by
  rw [State.creg, show t.pkg = s.pkg by rw [h.frame]]; exact h.regs _ o ho

theorem ctxPart (h : s.Cancels t) : t.ctxPart = s.ctxPart :=
  ctxPart_eq (fun p => h.regs p _ (by simp [isFaultReg, stripeCfg])) (by rw [h.frame]) (by rw [h.frame]) (by rw [h.frame])

theorem reqPart (h : s.Cancels t) (r : Req) : t.reqPart r = s.reqPart r := by
  rw [State.reqPart, h.ctxPart, State.ctxNo, State.launch, show t.launches = s.launches by rw [h.frame]]; rfl

end State.Cancels

theorem cancels_setCreg {o : Nat} (ho : isFaultReg o) (s : State) (v : Nat) : s.Cancels (s.setCreg o v) where
  frame := rfl
  regs p _ away := cregOf_setCreg_other s p v fun e => away (e ▸ ho)
  reqs _ h := h
  occs _ h _ := h

/-- A quad's fault block, its pool's register among it, lies among the fault registers. -/
theorem isFaultReg_faultBlock {q n : Nat} (hq : q < 288) (hn : n < 16) : isFaultReg (faultBlock q + n) := by
  unfold isFaultReg faultBlock; omega

section
variable {q : Nat} (hq : q < 288) (s : State)
include hq

theorem cancels_recountPool : s.Cancels (s.recountPool q) := cancels_setCreg (isFaultReg_faultBlock hq (by omega)) s _

theorem cancels_clearEntries (page : Nat → Bool) : s.Cancels (s.clearEntries q page) :=
  cancels_setCreg (isFaultReg_faultBlock (n := 0) hq (by omega)) s _

theorem cancels_clearFaults : s.Cancels (s.clearFaults q) :=
  (cancels_setCreg (isFaultReg_faultBlock (n := 0) hq (by omega)) s _).trans ⟨rfl, fun _ _ _ => rfl, fun _ h => h, fun _ h _ => h⟩

end

theorem quadsOf_lt {s : State} {part q : Nat} (h : q ∈ s.quadsOf part) : q < 288 := List.mem_range.1 (List.mem_filter.1 h).1

/-! ### One item is cancelled -/

theorem mem_insert {α : Type} {k : Nat} {v : α} {m : SMap α} {p : Nat × α} (h : p ∈ m.insert k v) : p = (k, v) ∨ p ∈ m := by
  induction m with
  | nil => exact .inl (List.mem_singleton.1 h)
  | cons q m ih =>
    obtain ⟨j, u⟩ := q
    unfold SMap.insert at h
    split at h
    · exact List.mem_cons.1 h
    · rcases List.mem_cons.1 h with rfl | h
      · exact .inr (List.mem_cons_self ..)
      · exact (ih h).imp_right (List.mem_cons_of_mem _)

/-- An entry of a map after a write is the one written, or one of another key from before. -/
theorem mem_set {α : Type} [DecidableEq α] {d : α} {m : SMap α} {k : Nat} {v : α} {p : Nat × α} (h : p ∈ SMap.set d m k v) :
    p = (k, v) ∨ (p ∈ m ∧ p.1 ≠ k) := by
  have other (h : p ∈ m.erase k) : p ∈ m ∧ p.1 ≠ k := by simpa [SMap.erase] using h
  unfold SMap.set at h
  split at h
  · exact .inr (other h)
  · exact (mem_insert h).imp_right other

theorem cancels_updWarp (s : State) (k w : Nat) (g : Warp → Warp) : s.Cancels (s.updWarp k w g) :=
  ⟨rfl, fun _ _ _ => rfl, fun _ h => h, fun _ h _ => h⟩

theorem cancels_retire (s : State) (r : Req) : s.Cancels (s.retire r) where
  frame := by rw [retire_eq]
  regs p o _ := by rw [retire_eq]; rfl
  reqs q hq := by rw [retire_eq] at hq; exact (List.mem_filter.1 hq).1
  occs o ho _ := by rw [retire_eq] at ho; exact ho

theorem cancels_returnEscort (s : State) (r : Req) : s.Cancels (s.returnEscort r) := by
  unfold State.returnEscort
  split
  · exact .refl s
  · exact cancels_updWarp ..

theorem cancels_failReq (s : State) (r : Req) (cause detail cancel : Nat) : s.Cancels (s.failReq r cause detail cancel) := by
  unfold State.failReq
  dsimp only
  refine (cancels_returnEscort s r).trans (.trans ?_ (cancels_retire _ r))
  split
  · exact cancels_updWarp ..
  · exact .refl _

/-- Where an occurrence of a key has left the pool, no entry of the key is parked. -/
def State.occLeft (s : State) (key : Nat) : Prop := ∀ o ∈ s.occs, o.2.parked.isSome = true → o.1 ≠ key

theorem State.Cancels.occLeft {s t : State} (h : s.Cancels t) {key : Nat} (left : s.occLeft key) : t.occLeft key :=
  fun o ho parked => left o (h.occs o ho parked) parked

theorem occs_cancelOne {s : State} {number key : Nat} {o : Occ} {p : Nat × Occ} (hp : p ∈ (cancelOne number s (.occ key o)).occs)
    (parked : p.2.parked.isSome = true) : p ∈ s.occs ∧ p.1 ≠ key := by
  have left (t : State) (occs : ∃ v, t.occs = SMap.set {} s.occs key v)
      (hp : p ∈ SMap.upd {} t.occs key fun o => { o with parked := none }) : p ∈ s.occs ∧ p.1 ≠ key := by
    obtain ⟨v, occs⟩ := occs
    rcases mem_set hp with rfl | ⟨hp, other⟩
    · cases parked
    · rw [occs] at hp
      rcases mem_set hp with rfl | h
      · exact absurd rfl other
      · exact h
  refine left (if s.occLost key then s.loseOcc key else s.collComplete key o.parts.length 3 0) ?_ hp
  split <;> exact ⟨_, rfl⟩

theorem cancelOne_occ (number : Nat) (s : State) (key : Nat) (o : Occ) :
    cancelOne number s (.occ key o) = { s with occs := (cancelOne number s (.occ key o)).occs } := by
  unfold cancelOne
  dsimp only
  split <;> rfl

theorem cancels_cancelOne {p : Parked} (noXfer : ∀ x, p ≠ .xfer x) (number : Nat) (s : State) : s.Cancels (cancelOne number s p) := by
  cases p with
  | req r => exact cancels_failReq ..
  | xfer x => exact absurd rfl (noXfer x)
  | occ key o =>
    have frame := cancelOne_occ number s key o
    refine ⟨by rw [frame], fun p o' _ => by rw [frame]; rfl, fun r hr => ?_, fun e he parked => (occs_cancelOne he parked).1⟩
    rw [frame] at hr; exact hr

/-- Nothing of a cancelled item stays parked. -/
def State.itemLeft (s : State) : Parked → Prop
  | .req r => ∀ q ∈ s.reqs, q.id ≠ r.id
  | .xfer _ => True
  | .occ key _ => s.occLeft key

theorem itemLeft_cancelOne (number : Nat) (s : State) (p : Parked) : (cancelOne number s p).itemLeft p := by
  cases p with
  | req r => exact retire_id _ r
  | xfer x => trivial
  | occ key o => exact fun e he parked => (occs_cancelOne he parked).2

theorem State.Cancels.itemLeft {s t : State} (h : s.Cancels t) {p : Parked} (left : s.itemLeft p) : t.itemLeft p := by
  cases p with
  | req r => exact fun q hq => left q (h.reqs q hq)
  | xfer x => trivial
  | occ key o => exact h.occLeft left

/-! ### Cancelling the items on some pages -/

section
variable {s : State} (noXfers : s.xfers = []) (part : Nat) (page : Nat → Bool)

/-- The parked items on the pages of a set. -/
def State.parkedOn (s : State) (part : Nat) (page : Nat → Bool) : List Parked := (s.parkedOf part).filter fun p => page p.page

/-- The state in which they are cancelled, the fault buffers not yet cleared. -/
def State.itemsCancelled (s : State) (part : Nat) (page : Nat → Bool) : State :=
  (s.parkedOn part page).foldl (cancelOne (s.tag + 1)) { s with tag := s.tag + 1 }

theorem cancels_quads (t : State) {qs : List Nat} (hq : ∀ q ∈ qs, q < 288) :
    t.Cancels (qs.foldl (fun s q => (s.clearEntries q page).recountPool q) t) :=
  .foldl (fun s q h => (cancels_clearEntries (hq q h) s page).trans (cancels_recountPool (hq q h) _)) t

include noXfers

theorem noXfer_parkedOn : ∀ p ∈ s.parkedOn part page, ∀ x, p ≠ .xfer x := by
  rintro p hp x rfl
  have := xfer_parkedOf (List.mem_filter.1 hp).1
  rw [noXfers] at this
  cases this

theorem cancels_itemsCancelled : s.Cancels (s.itemsCancelled part page) :=
  .trans (t := { s with tag := s.tag + 1 }) ⟨rfl, fun _ _ _ => rfl, fun _ h => h, fun _ h _ => h⟩
    (.foldl (fun _ p hp => cancels_cancelOne (noXfer_parkedOn noXfers part page p hp) ..) _)

theorem itemLeft_itemsCancelled {p : Parked} (hp : p ∈ s.parkedOn part page) : (s.itemsCancelled part page).itemLeft p := by
  have noXfer := noXfer_parkedOn noXfers part page
  unfold State.itemsCancelled
  obtain ⟨before, after, split⟩ := List.append_of_mem hp
  rw [split] at noXfer ⊢
  rw [List.foldl_append, List.foldl_cons]
  exact State.Cancels.itemLeft (.foldl (fun _ p hp => cancels_cancelOne (noXfer p (by simp [hp])) ..) _) (itemLeft_cancelOne ..)

theorem cancels_cancelPages : s.Cancels (s.cancelPages part page) :=
  (cancels_itemsCancelled noXfers part page).trans (cancels_quads page _ fun _ => quadsOf_lt)

theorem itemLeft_cancelPages {p : Parked} (hp : p ∈ s.parkedOn part page) : (s.cancelPages part page).itemLeft p :=
  (cancels_quads page _ fun _ => quadsOf_lt).itemLeft (itemLeft_itemsCancelled noXfers part page hp)

/-- What is still parked after a cancel was parked before, on a page that the cancel did not name. -/
theorem parkedOf_cancelPages {p : Parked} (hp : p ∈ (s.cancelPages part page).parkedOf part) : page p.page = false := by
  have cancels := cancels_cancelPages noXfers part page
  refine Bool.eq_false_iff.2 fun named => ?_
  cases p with
  | req r =>
    obtain ⟨here, phase, mine⟩ := req_parkedOf.1 hp
    rw [cancels.reqPart] at mine
    have before : .req r ∈ s.parkedOf part := req_parkedOf.2 ⟨cancels.reqs r here, phase, mine⟩
    exact itemLeft_cancelPages noXfers part page (List.mem_filter.2 ⟨before, named⟩) r here rfl
  | xfer x =>
    have here : x ∈ (s.cancelPages part page).xfers := xfer_parkedOf hp
    rw [cancels.frame] at here
    exact absurd (noXfers ▸ here) (List.not_mem_nil)
  | occ key o =>
    obtain ⟨here, parked, mine⟩ := occ_parkedOf.1 hp
    rw [cancels.ctxPart] at mine
    have before : .occ key o ∈ s.parkedOf part := occ_parkedOf.2 ⟨cancels.occs _ here parked, parked, mine⟩
    exact itemLeft_cancelPages noXfers part page (List.mem_filter.2 ⟨before, named⟩) _ here parked rfl

end

end Sys2Proof.Machine
end

section

/-!
# What each command does first (R56, R57, R60)
-/

namespace Sys2Proof.Machine

/-- The state in which a command has its number and BUSY is set, and nothing is done for it yet. -/
def State.ordered (s : State) (part op first n : Nat) : State :=
  let c := s.cmd part
  let t : State := { s with cmds := SMap.set {} s.cmds part { c with op, bound := s.tag, first, pages := n, issued := c.issued + 1 } }
  t.setCreg (cmdBlock part) (2 ^ 31)

section
variable (s : State) (part op first n : Nat)

theorem startCmd_replay : s.startCmd part 1 first n = (s.ordered part 1 first n).replayAll part := rfl
theorem startCmd_cancelAll : s.startCmd part 2 first n = (s.ordered part 2 first n).cancelPages part fun _ => true := rfl
theorem startCmd_cancelPage : s.startCmd part 3 first n = (s.ordered part 3 first n).cancelPages part fun p => p == first := rfl
theorem startCmd_invalidate : s.startCmd part 4 first n = (s.ordered part 4 first n).discardRange part first n := rfl

theorem startCmd_cmds : (s.startCmd part op first n).cmds = (s.ordered part op first n).cmds := by
  unfold State.startCmd
  dsimp only
  split
  · exact replayAll_cmds ..
  · exact cancelPages_cmds ..
  · exact cancelPages_cmds ..
  · rfl

theorem busy_ordered : (s.ordered part op first n).busy part = true := by
  rw [State.busy, State.ordered, creg_setCreg_same]
  decide

theorem ctxPart_ordered : (s.ordered part op first n).ctxPart = s.ctxPart :=
  ctxPart_eq (fun p => cregOf_setCreg_other _ p _ (by unfold stripeCfg cmdBlock; omega)) rfl rfl rfl

theorem parkedOf_ordered : (s.ordered part op first n).parkedOf part = s.parkedOf part := by
  unfold State.parkedOf State.reqPart State.xferPart
  rw [ctxPart_ordered]
  rfl

theorem quadsOf_ordered : (s.ordered part op first n).quadsOf part = s.quadsOf part := by
  refine List.filter_congr fun q hq => ?_
  have same : (s.ordered part op first n).creg (qpart q) = s.creg (qpart q) :=
    creg_setCreg_other _ _ (by have := List.mem_range.1 hq; unfold qpart cmdBlock; omega)
  rw [State.quadIn, State.field, same]
  rfl

end

theorem State.Cancels.busy {s t : State} (h : s.Cancels t) {part : Nat} (busy : s.busy part = true) : t.busy part = true := by
  rw [State.busy, h.creg (by unfold isFaultReg cmdBlock; omega)]
  exact busy

/-! ### Replay of nothing -/

theorem clearFaults_reqs (s : State) (q : Nat) : (s.clearFaults q).reqs = s.reqs := rfl

theorem field_clearFaults (s : State) (q : Nat) : (s.clearFaults q).field (faultBlock q) 7 0 = 0 := by
  change bits ((s.setCreg (faultBlock q) (setBits (s.creg (faultBlock q)) 8 0 0)).creg (faultBlock q)) 7 0 = 0
  rw [creg_setCreg_same]
  refine Nat.eq_of_testBit_eq fun i => ?_
  rw [testBit_bits, Nat.testBit_mod_two_pow, testBit_setBits (by omega)]
  by_cases low : i ≤ 7
  · simp [show i ≤ 8 by omega]
  · simp [show ¬i < 8 by omega]

theorem creg_clearFaults_other (s : State) {q o : Nat} (h : o ≠ faultBlock q) : (s.clearFaults q).creg o = s.creg o :=
  creg_setCreg_other s _ h

/-- VALID of the quad is clear. -/
def State.noFaults (s : State) (q : Nat) : Prop := s.field (faultBlock q) 7 0 = 0

theorem noFaults_clearFaults {s : State} {q : Nat} (h : s.noFaults q) (p : Nat) : (s.clearFaults p).noFaults q := by
  by_cases same : p = q
  · subst same; exact field_clearFaults s p
  · rw [State.noFaults, State.field, creg_clearFaults_other s (by unfold faultBlock; omega)]; exact h

theorem noFaults_recountPool {s : State} {q : Nat} (h : s.noFaults q) (p : Nat) : (s.recountPool p).noFaults q := by
  rw [State.noFaults, State.field, State.recountPool, State.setField, creg_setCreg_other _ _ (by unfold faultBlock; omega)]
  exact h

theorem noFaults_foldl {g : State → Nat → State} {q : Nat} (hg : ∀ s p, State.noFaults s q → (g s p).noFaults q) (l : List Nat) {s : State}
    (h : s.noFaults q) : (l.foldl g s).noFaults q :=
  List.foldlRecOn (motive := fun s : State => s.noFaults q) l g h fun s h p _ => hg s p h

theorem noFaults_cleared (s : State) {l : List Nat} {q : Nat} (hq : q ∈ l) : (l.foldl (fun s q => s.clearFaults q) s).noFaults q := by
  obtain ⟨before, after, rfl⟩ := List.append_of_mem hq
  rw [List.foldl_append, List.foldl_cons]
  exact noFaults_foldl (fun _ p h => noFaults_clearFaults h p) _ (field_clearFaults ..)

section
variable {s : State} {part : Nat} (nothing : s.parkedOf part = [])
include nothing

theorem replayAll_nothing : s.replayAll part =
    (s.quadsOf part).foldl (fun s q => s.recountPool q) ((s.quadsOf part).foldl (fun s q => s.clearFaults q) s) := by
  unfold State.replayAll
  dsimp only
  rw [nothing]
  rfl

theorem cancels_replayAll : s.Cancels (s.replayAll part) := by
  rw [replayAll_nothing nothing]
  exact (State.Cancels.foldl (fun _ q hq => cancels_clearFaults (quadsOf_lt hq) _) s).trans
    (.foldl (fun _ q hq => cancels_recountPool (quadsOf_lt hq) _) _)

theorem replayAll_reqs : (s.replayAll part).reqs = s.reqs := by
  rw [replayAll_nothing nothing]
  exact (foldl_keeps (f := State.reqs) (fun _ _ => recountPool_reqs ..) ..).trans
    (foldl_keeps (f := State.reqs) (fun _ _ => clearFaults_reqs ..) ..)

theorem noFaults_replayAll {q : Nat} (hq : q ∈ s.quadsOf part) : (s.replayAll part).noFaults q := by
  rw [replayAll_nothing nothing]
  exact noFaults_foldl (fun _ p h => noFaults_recountPool h p) _ (noFaults_cleared s hq)

end

/-! ### Invalidation -/

theorem get_map {α : Type} {d : α} {g : α → α} (hd : g d = d) (m : SMap α) (k : Nat) :
    SMap.get d (m.map fun p => (p.1, g p.2)) k = g (SMap.get d m k) := by
  induction m with
  | nil => exact hd.symm
  | cons p m ih =>
    obtain ⟨j, v⟩ := p
    rw [List.map_cons, SMap.get, SMap.get, ih]
    split <;> rfl

/-- The entries of a structure with those of a partition kept, changed or dropped. -/
def tlbMap (part : Nat) (g : TlbEntry → Option TlbEntry) (l : List TlbEntry) : List TlbEntry :=
  l.filterMap fun t => if t.part = part then g t else some t

section
variable (s : State) (part : Nat) (g : TlbEntry → Option TlbEntry) (c : Nat)

theorem coreAt_mapTlbs : (s.mapTlbs part g).coreAt c = { s.coreAt c with tlb := tlbMap part g (s.coreAt c).tlb } :=
  get_map (d := ({} : Core)) (g := fun c : Core => { c with tlb := tlbMap part g c.tlb }) rfl s.cores c

theorem quad_mapTlbs : (s.mapTlbs part g).quad c =
    { s.quad c with tlb := tlbMap part g (s.quad c).tlb, walks := tlbMap part g (s.quad c).walks } :=
  get_map (d := ({} : Quad)) (g := fun q : Quad => { q with tlb := tlbMap part g q.tlb, walks := tlbMap part g q.walks }) rfl s.quads c

end

/-- An entry that an invalidation leaves. -/
theorem mem_discarded {part first n : Nat} {l : List TlbEntry} {e : TlbEntry} :
    e ∈ tlbMap part (fun t => if t.overlaps first n then none else some t) l ↔
      e ∈ l ∧ (e.part = part → e.overlaps first n = false) := by
  rw [tlbMap, List.mem_filterMap]
  constructor
  · rintro ⟨t, ht, kept⟩
    split at kept
    · split at kept
      · cases kept
      · next apart => cases kept; exact ⟨ht, fun _ => by simpa using apart⟩
    · next other => cases kept; exact ⟨ht, fun mine => absurd mine other⟩
  · rintro ⟨he, apart⟩
    refine ⟨e, he, ?_⟩
    split
    · next mine => rw [apart mine]; rfl
    · rfl

/-! ### Every command -/

theorem commandBegun (u : State) {part op first n : Nat} (known : 1 ≤ op) (knows : op ≤ 4) :
    CommandBegun u (u.startCmd part op first n) part op first n where
  cmd := by rw [startCmd_cmds]; exact SMap.get_set_same ..
  others q other := by rw [State.cmd, startCmd_cmds]; exact SMap.get_set_other _ _ _ other
  replay := by
    rintro rfl nothing
    have nothing : (u.ordered part 1 first n).parkedOf part = [] := (parkedOf_ordered ..).trans nothing
    have cancels := cancels_replayAll nothing
    rw [startCmd_replay]
    refine ⟨cancels.busy (busy_ordered ..), by rw [cancels.frame]; rfl, replayAll_reqs nothing, fun q hq => ?_⟩
    exact noFaults_replayAll nothing ((quadsOf_ordered ..).symm ▸ hq)
  cancel := by
    rintro one noXfers
    have noXfers : (u.ordered part op first n).xfers = [] := noXfers
    rcases one with rfl | rfl
    · have cancels := cancels_cancelPages noXfers part fun _ => true
      rw [startCmd_cancelAll]
      refine ⟨cancels.busy (busy_ordered ..), by rw [cancels.frame]; rfl, fun p hp => ?_⟩
      exact absurd (parkedOf_cancelPages noXfers part _ hp) (by simp)
    · have cancels := cancels_cancelPages noXfers part fun p => p == first
      rw [startCmd_cancelPage]
      refine ⟨cancels.busy (busy_ordered ..), by rw [cancels.frame]; rfl, fun p hp => ⟨rfl, ?_⟩⟩
      rintro r rfl
      exact beq_eq_false_iff_ne.1 (parkedOf_cancelPages noXfers part _ hp)
  invalidate := by
    rintro rfl
    rw [startCmd_invalidate]
    refine ⟨busy_ordered .., rfl, rfl, fun c => ⟨fun e he mine => ?_, fun e he other => ?_, fun e he mine => ?_⟩⟩
    · rw [State.discardRange, coreAt_mapTlbs] at he
      exact (mem_discarded.1 he).2 mine
    · rw [State.discardRange, coreAt_mapTlbs]
      exact mem_discarded.2 ⟨he, fun mine => absurd mine other⟩
    · rw [State.discardRange, quad_mapTlbs] at he
      rcases List.mem_append.1 he with he | he
      · exact (mem_discarded.1 he).2 mine
      · exact (mem_discarded.1 he).2 mine

end Sys2Proof.Machine
end

section

/-!
# The fault agent's writes (R53 to R57, R60)
-/

namespace Sys2Proof.Machine

section
variable {s : State} {agent part : Nat}

theorem agentWrite_may {off : Nat} (may : s.mayWrite agent off = true) (k : State → State) : s.agentWrite agent off k = k s :=
  if_pos may

theorem agentWrite_mayNot {off : Nat} (mayNot : s.mayWrite agent off = false) (k : State → State) :
    s.agentWrite agent off k = s.auditEvent 2 agent off := if_neg (by simp [mayNot])

/-- The first page that the command's registers name. -/
def State.cmdFirst (s : State) (part : Nat) : Nat := s.creg (cmdBlock part + 8) + s.creg (cmdBlock part + 12) % 2 ^ 30 * 2 ^ 32

theorem fltcmd_idle (may : s.mayWrite agent (cmdBlock part) = true) (idle : s.busy part = false) {op : Nat} (known : 1 ≤ op) (knows : op ≤ 4) :
    s.fltcmd agent part op = s.startCmd part op (s.cmdFirst part) (if op = 4 then s.creg (cmdBlock part + 16) else 1) := by
  rw [State.fltcmd, agentWrite_may may, idle, if_neg (by simp; omega), if_neg (by omega)]
  rfl

theorem fltcmd_busy (may : s.mayWrite agent (cmdBlock part) = true) (busy : s.busy part = true) (op : Nat) :
    s.fltcmd agent part op = s.setField (cmdBlock part + 0x14) 0 0 1 := by
  rw [State.fltcmd, agentWrite_may may, busy]
  rfl

/-- The command writes of the fault agent, with the number of each command. -/
def agentCommands (agent part : Nat) : List (Instr × Nat) :=
  [(.replayAll agent part, 1), (.cancelAll agent part, 2), (.cancelPage agent part, 3), (.invalidateRange agent part, 4)]

theorem exec_agentCommand (hp : part < 16) {c : Instr × Nat} (hc : c ∈ agentCommands agent part) :
    exec c.1 s = .next (s.fltcmd agent part c.2) := by
  simp only [agentCommands, List.mem_cons, List.not_mem_nil, or_false] at hc
  rcases hc with rfl | rfl | rfl | rfl
  · show execReplayAll agent part s = _; exact if_pos (decide_eq_true hp)
  · show execCancelAll agent part s = _; exact if_pos (decide_eq_true hp)
  · show execCancelPage agent part s = _; exact if_pos (decide_eq_true hp)
  · show execInvalidateRange agent part s = _; exact if_pos (decide_eq_true hp)

end

/-! ### Bits that a write of 1 clears -/

theorem bit_eq_testBit (v n : Nat) : bit v n = v.testBit n := by
  rw [Nat.testBit_eq_decide_div_mod_eq]
  exact beq_eq_decide ..

theorem testBit_cleared {c : Nat} (small : c < 2 ^ 32) (v m : Word) (i : Nat) :
    (BitVec.ofNat 32 c &&& ~~~(v &&& m)).toNat.testBit i = (c.testBit i && !(v.getLsbD i && m.getLsbD i)) := by
  rw [BitVec.testBit_toNat, BitVec.getLsbD_and, BitVec.getLsbD_not, BitVec.getLsbD_ofNat, BitVec.getLsbD_and]
  by_cases inside : i < 32
  · simp [inside]
  · have high : c.testBit i = false := Nat.testBit_lt_two_pow (lt_of_lt_of_le small (Nat.pow_le_pow_right (by omega) (by omega)))
    simp [inside, high]

theorem below_or_inside {c : Nat} (small : c < 2 ^ 32) (i : Nat) : c < 2 ^ i ∨ i < 32 :=
  (Nat.lt_or_ge i 32).symm.imp_left fun h => lt_of_lt_of_le small (Nat.pow_le_pow_right (by omega) h)

theorem getLsbD_clearable (i : Nat) : (0x300 : Word).getLsbD i = decide (i = 8 ∨ i = 9) := by
  by_cases inside : i < 32
  · revert i; decide
  · rw [BitVec.getLsbD_of_ge _ _ (by omega)]
    exact (decide_eq_false (by omega)).symm

theorem testBit_pair (a b : Bool) : (b2n a + 2 * b2n b).testBit 0 = a ∧ (b2n a + 2 * b2n b).testBit 1 = b := by
  cases a <;> cases b <;> decide

/-- DROPPED and POOLFULL after a write. -/
theorem clear_two {c : Nat} (small : c < 2 ^ 32) (v : Word) :
    setBits c 9 8 (b2n (bit c 8 && !bit v.toNat 8) + 2 * b2n (bit c 9 && !bit v.toNat 9)) % 2 ^ 32 =
      (BitVec.ofNat 32 c &&& ~~~(v &&& 0x300)).toNat := by
  refine Nat.eq_of_testBit_eq fun i => ?_
  rw [testBit_cleared small, getLsbD_clearable, Nat.testBit_mod_two_pow, testBit_setBits (by omega)]
  simp only [bit_eq_testBit, BitVec.testBit_toNat]
  rcases Nat.lt_trichotomy i 8 with low | rfl | high
  · simp [show ¬8 ≤ i by omega, show i < 32 by omega, show i ≠ 8 by omega, show i ≠ 9 by omega]
  · rw [if_pos (by omega), (testBit_pair ..).1]; simp
  · by_cases nine : i = 9
    · subst nine; rw [if_pos (by omega), (testBit_pair ..).2]; simp
    · rw [if_neg (by omega)]
      rcases below_or_inside small i with small | inside
      · simp [Nat.testBit_lt_two_pow small]
      · simp [inside, nine, show i ≠ 8 by omega]

/-- CMDERR after a write. -/
theorem clear_one {c : Nat} (small : c < 2 ^ 32) (v : Word) :
    (if bit v.toNat 0 then setBits c 0 0 0 % 2 ^ 32 else c) = (BitVec.ofNat 32 c &&& ~~~(v &&& 1)).toNat := by
  refine Nat.eq_of_testBit_eq fun i => ?_
  have one : (1 : Word).getLsbD i = decide (i = 0) := by simp [BitVec.getLsbD_one]
  rw [testBit_cleared small, one, bit_eq_testBit, BitVec.testBit_toNat]
  by_cases zero : i = 0
  · subst zero
    cases v.getLsbD 0 with
    | false => simp
    | true => rw [if_pos rfl, Nat.testBit_mod_two_pow, testBit_setBits (by omega)]; simp
  · cases v.getLsbD 0 with
    | false => simp [zero]
    | true =>
      rw [if_pos rfl, Nat.testBit_mod_two_pow, testBit_setBits (by omega), if_neg (by omega)]
      rcases below_or_inside small i with small | inside
      · simp [Nat.testBit_lt_two_pow small]
      · simp [inside, zero]

/-! ### The writes of the fault buffers' and the commands' status -/

/-- A write that the requester may make changes one register, to a value. -/
def WritesOnly (i : Instr) (s : State) (off new : Nat) : Prop :=
  ∃ t, exec i s = .next t ∧ t = { s with cregs := t.cregs } ∧ t.creg off = new ∧ ∀ o, o ≠ off → t.creg o = s.creg o

theorem writesOnly_of {i : Instr} {s : State} {off v new : Nat} (next : exec i s = .next (s.setCreg off v)) (value : v % 2 ^ 32 = new) :
    WritesOnly i s off new :=
  ⟨_, next, rfl, (creg_setCreg_same ..).trans value, fun _ h => creg_setCreg_other s _ h⟩

section
variable {s : State} {agent quad part : Nat} (v : Word)

theorem fbovfWrite_writes (hq : quad < 288) (may : s.mayWrite agent (faultBlock quad + 4) = true) :
    WritesOnly (.fbovfWrite agent quad v) s (faultBlock quad + 4) 0 := by
  refine writesOnly_of (v := 0) ?_ rfl
  show execFbovfWrite agent quad v s = _
  rw [execFbovfWrite, agentWrite_may may]
  exact if_pos (decide_eq_true hq)

theorem fbstatWrite_writes (hq : quad < 288) (may : s.mayWrite agent (faultBlock quad) = true) :
    WritesOnly (.fbstatWrite agent quad v) s (faultBlock quad)
      (BitVec.ofNat 32 (s.creg (faultBlock quad)) &&& ~~~(v &&& 0x300)).toNat := by
  refine writesOnly_of ?_ (clear_two (creg_lt s _) v)
  show execFbstatWrite agent quad v s = _
  rw [execFbstatWrite, agentWrite_may may]
  exact if_pos (decide_eq_true hq)

theorem fltstatWrite_writes (hp : part < 16) (may : s.mayWrite agent (cmdBlock part + 0x14) = true) :
    WritesOnly (.fltstatWrite agent part v) s (cmdBlock part + 0x14)
      (BitVec.ofNat 32 (s.creg (cmdBlock part + 0x14)) &&& ~~~(v &&& 1)).toNat := by
  have next : exec (.fltstatWrite agent part v) s =
      .next (if bit v.toNat 0 then s.setField (cmdBlock part + 0x14) 0 0 0 else s) := by
    show execFltstatWrite agent part v s = _
    rw [execFltstatWrite, agentWrite_may may]
    exact if_pos (decide_eq_true hp)
  have value := clear_one (creg_lt s (cmdBlock part + 0x14)) v
  cases set : bit v.toNat 0 with
  | true =>
    rw [set] at next value
    exact writesOnly_of next value
  | false =>
    rw [set] at next value
    exact ⟨s, next, rfl, value, fun _ _ => rfl⟩

/-- The fault agent's writes, with the register of each. -/
def faultWrites (agent part quad : Nat) (v : Word) : List (Instr × Nat) :=
  [(.replayAll agent part, cmdBlock part), (.cancelAll agent part, cmdBlock part), (.cancelPage agent part, cmdBlock part),
    (.invalidateRange agent part, cmdBlock part), (.fltstatWrite agent part v, cmdBlock part + 0x14),
    (.fbstatWrite agent quad v, faultBlock quad), (.fbovfWrite agent quad v, faultBlock quad + 4)]

/-- A write that the requester may not make is entered in the audit log, and does nothing else. -/
theorem faultWrite_audited (hp : part < 16) (hq : quad < 288) {p : Instr × Nat} (h : p ∈ faultWrites agent part quad v)
    (mayNot : s.mayWrite agent p.2 = false) : exec p.1 s = .next (s.auditEvent 2 agent p.2) := by
  simp only [faultWrites, List.mem_cons, List.not_mem_nil, or_false] at h
  rcases h with rfl | rfl | rfl | rfl | rfl | rfl | rfl <;> rw [← agentWrite_mayNot mayNot]
  · show execReplayAll agent part s = _; exact if_pos (decide_eq_true hp)
  · show execCancelAll agent part s = _; exact if_pos (decide_eq_true hp)
  · show execCancelPage agent part s = _; exact if_pos (decide_eq_true hp)
  · show execInvalidateRange agent part s = _; exact if_pos (decide_eq_true hp)
  · show execFltstatWrite agent part v s = _; exact if_pos (decide_eq_true hp)
  · show execFbstatWrite agent quad v s = _; exact if_pos (decide_eq_true hq)
  · show execFbovfWrite agent quad v s = _; exact if_pos (decide_eq_true hq)

/-! ### A command is done -/

theorem event_true (n : String) (t : State) : event n true t = .next t := rfl

/-- BUSY has fallen and DONECNT has risen (R55). -/
def State.doneRegs (s : State) (part : Nat) : State :=
  (s.setCreg (cmdBlock part) 0).setField (cmdBlock part + 0x14) 31 16 (s.field (cmdBlock part + 0x14) 31 16 + 1)

/-- The command record of a partition says that its command is done. -/
def State.noteDone (s : State) (part : Nat) : State :=
  { s with cmds := SMap.upd {} s.cmds part fun c => { c with completed := c.issued, op := 0 } }

theorem doneRegs_frame (s : State) (part : Nat) : s.doneRegs part = { s with cregs := (s.doneRegs part).cregs } :=
  RegsChanged.frame (offs := [cmdBlock part, cmdBlock part + 0x14])
    ((regsChanged_setCreg (by simp) s 0).trans (regsChanged_setField (by simp) _ ..))

theorem busy_doneRegs (s : State) (part : Nat) : (s.doneRegs part).busy part = false := by
  rw [State.busy, State.doneRegs, State.setField, creg_setCreg_other _ _ (by omega), creg_setCreg_same]
  rfl

theorem donecnt_doneRegs (s : State) (part : Nat) : (s.doneRegs part).field (cmdBlock part + 0x14) 31 16 =
    (s.field (cmdBlock part + 0x14) 31 16 + 1) % 65536 :=
  field_setField_same (s.setCreg (cmdBlock part) 0) (by omega) (by omega) _

theorem cmd_noteDone (s : State) (part : Nat) : (s.noteDone part).cmd part = { s.cmd part with completed := (s.cmd part).issued, op := 0 } := by
  unfold State.cmd State.noteDone
  dsimp only
  rw [SMap.get_upd, if_pos rfl]

theorem noteDone_creg (s : State) (part o : Nat) : (s.noteDone part).creg o = s.creg o := rfl

theorem noteDone_frame {s t : State} (h : t = { s with cregs := t.cregs }) (part : Nat) :
    t.noteDone part = { s with cregs := (t.noteDone part).cregs, cmds := (t.noteDone part).cmds } := by
  unfold State.noteDone
  rw [h]

theorem exec_faultCommandComplete (ready : s.cmdReady part = true) :
    exec (.faultCommandComplete part) s = .next ((s.doneRegs part).noteDone part) := by
  show execFaultCommandComplete part s = _
  unfold execFaultCommandComplete State.noteDone State.doneRegs
  dsimp only
  rw [ready, event_true]

theorem faultCommandComplete (ready : s.cmdReady part = true) : ∃ t, exec (.faultCommandComplete part) s = .next t ∧
    t = { s with cregs := t.cregs, cmds := t.cmds } ∧ t.busy part = false ∧
    t.field (cmdBlock part + 0x14) 31 16 = (s.field (cmdBlock part + 0x14) 31 16 + 1) % 65536 ∧
    (t.cmd part).completed = (s.cmd part).issued := by
  have same : (s.doneRegs part).cmd part = s.cmd part := by rw [State.cmd, doneRegs_frame]; rfl
  refine ⟨_, exec_faultCommandComplete ready, noteDone_frame (doneRegs_frame s part) part, ?_, ?_, ?_⟩
  · rw [State.busy, noteDone_creg]; exact busy_doneRegs s part
  · rw [State.field, noteDone_creg]; exact donecnt_doneRegs s part
  · rw [cmd_noteDone, same]

end

end Sys2Proof.Machine
end

section

/-!
# A warp takes a trap into its handler (R389, R391)
-/

namespace Sys2Proof.Machine

/-! ### A page of 4 KiB keeps its order in memory -/

/-- A package address in the striped view. -/
def inStriped (pa : Nat) : Prop := stripedBase ≤ pa ∧ pa < stripedBase + 2 ^ 40

theorem inStriped_of {pa off : Nat} (h : regionOf pa = .striped off) : inStriped pa := by
  unfold regionOf at h
  split at h
  · split at h <;> cases h
  split at h
  · next view => simpa [inStriped] using view
  · repeat' split at h
    all_goals cases h

theorem canon_striped (s : State) {g : Nat} (h : inStriped (g % pkgSpan)) :
    s.canon g = g / pkgSpan * pkgSpan + (s.unstripe (g / pkgSpan) (g % pkgSpan - stripedBase)).1 * 2 ^ 37 +
      (s.unstripe (g / pkgSpan) (g % pkgSpan - stripedBase)).2 := by
  rw [State.canon, regionOf_striped h.1 h.2]

theorem canon_elsewhere (s : State) {g : Nat} (h : ¬inStriped (g % pkgSpan)) : s.canon g = g := by
  unfold State.canon
  split
  · next off striped => exact absurd (inStriped_of striped) h
  · rfl

theorem canon_page (s : State) {p o : Nat} (ho : o < 4096) : s.canon (4096 * p + o) = s.canon (4096 * p) + o := by
  have mod : (4096 * p + o) % pkgSpan = 4096 * p % pkgSpan + o := by unfold pkgSpan; omega
  have div : (4096 * p + o) / pkgSpan = 4096 * p / pkgSpan := by unfold pkgSpan; omega
  have same : inStriped ((4096 * p + o) % pkgSpan) ↔ inStriped (4096 * p % pkgSpan) := by
    unfold inStriped stripedBase pkgSpan; omega
  by_cases h : inStriped (4096 * p % pkgSpan)
  · have block : (4096 * p % pkgSpan + o - stripedBase) / 4096 = (4096 * p % pkgSpan - stripedBase) / 4096 ∧
        (4096 * p % pkgSpan + o - stripedBase) % 4096 = (4096 * p % pkgSpan - stripedBase) % 4096 + o := by
      unfold inStriped stripedBase pkgSpan at *; omega
    rw [canon_striped s (same.2 h), canon_striped s h, div, mod]
    simp only [State.unstripe, block.1, block.2]
    omega
  · rw [canon_elsewhere s fun k => h (same.1 k), canon_elsewhere s h]

/-! ### Reading what was written -/

theorem foldr_congr {α β : Type} {g h : α → β → β} {l : List α} (same : ∀ a ∈ l, ∀ b, g a b = h a b) (b : β) : l.foldr g b = l.foldr h b := by
  induction l with
  | nil => rfl
  | cons a l ih =>
    rw [List.foldr_cons, List.foldr_cons, ih fun a ha => same a (List.mem_cons_of_mem _ ha)]
    exact same a (List.mem_cons_self ..) _

theorem read_congr {m m' : Memory} {a a' n : Nat} (h : ∀ i, i < n → m'.byte (a' + i) = m.byte (a + i)) : m'.read a' n = m.read a n :=
  foldr_congr (fun i hi _ => by rw [h i (List.mem_range.1 hi)]) 0

theorem read_write_apart (m : Memory) {a n b k : Nat} (apart : b + k ≤ a ∨ a + n ≤ b) (v : Nat) : (m.write a n v).read b k = m.read b k :=
  read_congr fun i hi => Memory.byte_write_outside _ _ _ _ _ (by omega)

/-- The lowest byte of what is read, and the rest. -/
theorem read_succ (m : Memory) (a n : Nat) : m.read a (n + 1) = m.read (a + 1) n * 256 + (m.byte a).toNat := by
  unfold Memory.read
  rw [List.range_succ_eq_map, List.foldr_cons, List.foldr_map]
  refine congrArg (· * 256 + (m.byte a).toNat) (foldr_congr (fun i _ acc => ?_) 0)
  rw [Nat.add_right_comm a 1 i, Nat.add_assoc a i 1]

theorem read_write_same (m : Memory) (a n v : Nat) : (m.write a n v).read a n = v % 256 ^ n := by
  induction n generalizing m a v with
  | zero => simp [Memory.read, Nat.mod_one]
  | succ n ih =>
    have low : (m.write a (n + 1) v).byte a = BitVec.ofNat 8 v := by
      have := Memory.byte_write_inside m a (n + 1) v 0 (by omega)
      simpa using this
    rw [read_succ, low]
    show ((m.setByte a (BitVec.ofNat 8 v)).write (a + 1) n (v / 256)).read (a + 1) n * 256 + _ = _
    rw [ih, BitVec.toNat_ofNat, pow_succ' 256 n, Nat.mod_mul, Nat.mul_comm 256, Nat.add_comm]

/-! ### TRAPSTAT -/

/-- The address of a context's TRAPSTAT counter. -/
def State.trapStatAt (s : State) (ctx cause : Nat) : Nat := s.canon (s.own ((s.ctx ctx).root + 0x440 + 4 * cause))

theorem own_page (s : State) {root : Nat} (aligned : root % 4096 = 0) (o : Nat) :
    s.own (root + o) = 4096 * ((s.pkg * pkgSpan + root) / 4096) + o := by
  unfold State.own pkgSpan at *; omega

section
variable (s : State) (ctx cause : Nat)

theorem trapStat_mem : (s.trapStat ctx cause).mem =
    s.mem.write (s.trapStatAt ctx cause) 4 (min 0xFFFFFFFF (s.mem.read (s.trapStatAt ctx cause) 4 + 1)) := rfl

theorem trapStat_counts : (s.trapStat ctx cause).mem.read (s.trapStatAt ctx cause) 4 =
    min 0xFFFFFFFF (s.mem.read (s.trapStatAt ctx cause) 4 + 1) := by
  rw [trapStat_mem, read_write_same]
  exact Nat.mod_eq_of_lt (by omega)

theorem trapStat_elsewhere {b : Nat} (away : b < s.trapStatAt ctx cause ∨ s.trapStatAt ctx cause + 4 ≤ b) :
    (s.trapStat ctx cause).mem.byte b = s.mem.byte b := by
  rw [trapStat_mem]; exact Memory.byte_write_outside _ _ _ _ _ away

variable {ctx cause}

/-- The counter lies in the root block, apart from TRAPVEC. -/
theorem trapVec_trapStat (aligned : (s.ctx ctx).root % 4096 = 0) (known : cause < 32) :
    (s.trapStat ctx cause).trapVec ctx = s.trapVec ctx := by
  have apart : (s.trapStat ctx cause).mem.read (s.canon (s.own ((s.ctx ctx).root + 0x418))) 8 =
      s.mem.read (s.canon (s.own ((s.ctx ctx).root + 0x418))) 8 := by
    rw [trapStat_mem]
    refine read_write_apart _ ?_ _
    unfold State.trapStatAt
    rw [Nat.add_assoc _ 0x440, own_page s aligned, own_page s aligned, canon_page s (by omega), canon_page s (by omega)]
    omega
  have canon : (s.trapStat ctx cause).canon = s.canon := canon_eq fun _ => rfl
  unfold State.trapVec State.memRead
  rw [canon]
  exact congrArg (BitVec.ofNat 64) apart

end

/-! ### Freezing the warp and entering the handler -/

theorem unexited_nodup (w : Warp) : w.unexited.Nodup := (List.nodup_range).filter _

section
variable (w : Warp) (t : Trap)

theorem freeze_lanes (l : Nat) : (w.freeze t).lane l = if l ∈ w.unexited then
    { w.lane l with frozenPc := if t.mask.getLsbD l then t.pc else (w.lane l).pc, frozenWait := (w.lane l).wait } else w.lane l :=
  lane_updLanes w _ (fun l x => { x with frozenPc := if t.mask.getLsbD l then t.pc else x.pc, frozenWait := x.wait }) l (unexited_nodup w)

theorem unexited_freeze : (w.freeze t).unexited = w.unexited := by
  unfold Warp.unexited
  refine List.filter_congr fun l _ => ?_
  rw [freeze_lanes]
  split <;> rfl

theorem freeze_eq : w.freeze t = { w with
    lanes := (w.freeze t).lanes, trapc := t.word, trappc := t.pc, trapva := t.va, fltmask := t.mask, second := 0,
    lost := (w.freeze t).lost, perf := (w.freeze t).perf } := by
  unfold Warp.freeze; rw [updLanes_other]

theorem enterHandler_eq (vec : DWord) : w.enterHandler vec = { w with lanes := (w.enterHandler vec).lanes, handler := true } := by
  unfold Warp.enterHandler; rw [updLanes_other]

theorem enterHandler_lanes (vec : DWord) {l : Nat} (hl : l ∈ w.unexited) :
    (w.enterHandler vec).lane l = { w.lane l with pc := vec, wait := none, held := false } :=
  (lane_updLanes w _ (fun _ x => { x with pc := vec, wait := none, held := false }) l (unexited_nodup w)).trans (if_pos hl)

end

/-! ### The trap is taken -/

section
variable (s : State) (ctx cause : Nat)

theorem trapStat_wgs : (s.trapStat ctx cause).wgs = s.wgs := memWrite_wgs ..
theorem trapStat_curWg : (s.trapStat ctx cause).curWg = s.curWg := memWrite_curWg ..
theorem trapStat_curWarp : (s.trapStat ctx cause).curWarp = s.curWarp := memWrite_curWarp ..
theorem trapStat_wg (k : Nat) : (s.trapStat ctx cause).wg k = s.wg k := by rw [State.wg, trapStat_wgs, ← State.wg]
theorem trapStat_curG : (s.trapStat ctx cause).curG = s.curG := by rw [State.curG, trapStat_curWg, trapStat_wg, ← State.curG]
theorem trapStat_curW : (s.trapStat ctx cause).curW = s.curW := by
  rw [State.curW, State.warp, trapStat_wg, trapStat_curWg, trapStat_curWarp, ← State.warp, ← State.curW]

theorem rootBlock_updCur (g : Warp → Warp) (o : Nat) : (s.updCur g).own (((s.updCur g).ctx ctx).root + o) = s.own ((s.ctx ctx).root + o) := by
  simp only [State.own, State.ctx, updCur_pkg, updCur_ctxs]

theorem canon_updCur (g : Warp → Warp) : (s.updCur g).canon = s.canon := canon_eq fun _ => rfl

theorem trapVec_updCur (g : Warp → Warp) : (s.updCur g).trapVec ctx = s.trapVec ctx := by
  rw [State.trapVec, State.trapVec, State.memRead, State.memRead, canon_updCur, rootBlock_updCur, updCur_mem]

theorem trapStatAt_updCur (g : Warp → Warp) : (s.updCur g).trapStatAt ctx cause = s.trapStatAt ctx cause := by
  rw [State.trapStatAt, State.trapStatAt, canon_updCur, Nat.add_assoc, rootBlock_updCur, Nat.add_assoc]

end

/-- The issuing warp is frozen with a trap in its registers, and TRAPSTAT has counted. -/
def State.frozen (s : State) (t : Trap) : State := (s.updCur fun w => w.freeze t).trapStat (s.ctxNo s.curWg) t.cause

/-- The issuing warp stands at the handler. -/
def State.trapped (s : State) (t : Trap) : State := (s.frozen t).updCur fun w => w.enterHandler (s.trapVec (s.ctxNo s.curWg))

theorem curW_frozen (s : State) (t : Trap) : (s.frozen t).curW = s.curW.freeze t := by rw [State.frozen, trapStat_curW, curW_updCur]

theorem curG_frozen (s : State) (t : Trap) : (s.frozen t).curG =
    { s.curG with warps := SMap.upd {} s.curG.warps s.curWarp fun w => w.freeze t } := by rw [State.frozen, trapStat_curG, curG_updCur]

theorem frozen_curWarp (s : State) (t : Trap) : (s.frozen t).curWarp = s.curWarp := trapStat_curWarp ..
theorem frozen_curWg (s : State) (t : Trap) : (s.frozen t).curWg = s.curWg := trapStat_curWg ..

/-- A trap in a kernel whose context has a handler. -/
theorem takeTrap_enters {s u : State} {k w : Nat} {t : Trap} {vec : DWord} (drained : s.drainSfu k w = s)
    (frozen : u = (s.updWarp k w fun x => x.freeze t).trapStat (s.ctxNo k) t.cause) (kernel : (u.warp k w).handler = false)
    (at_ : u.trapVec (s.ctxNo k) = vec) (handled : vec ≠ 0) : s.takeTrap k w t = u.updWarp k w fun x => x.enterHandler vec := by
  unfold State.takeTrap
  rw [drained]
  dsimp only
  rw [← frozen, kernel, if_neg Bool.false_ne_true, at_, if_neg handled]

section
variable {s : State} (may : canTrap s) {t : Trap} (known : t.cause < 32)
include may

theorem drainSfu_none : s.drainSfu s.curWg s.curWarp = s := by
  obtain ⟨-, -, -, none⟩ := may
  have empty : (s.sfus.filter fun x => x.wg == s.curWg && x.warp == s.curWarp) = [] :=
    List.filter_eq_nil_iff.2 fun x hx => by simpa using none x hx
  rw [State.drainSfu, empty]
  rfl

include known

theorem trapVec_frozen : (s.frozen t).trapVec (s.ctxNo s.curWg) = s.trapVec (s.ctxNo s.curWg) := by
  obtain ⟨-, aligned, -, -⟩ := may
  have there := trapVec_trapStat (s.updCur fun w => w.freeze t) (ctx := s.ctxNo s.curWg) aligned known
  rw [State.frozen, there, trapVec_updCur]

omit known in
theorem handler_frozen : ((s.frozen t).warp s.curWg s.curWarp).handler = false := by
  obtain ⟨mode, -, -, -⟩ := may
  have at_ : (s.frozen t).warp s.curWg s.curWarp = (s.frozen t).curW := by rw [State.curW, frozen_curWg, frozen_curWarp]
  rw [at_, curW_frozen, freeze_eq]
  exact mode

theorem takeTrap_eq : s.takeTrap s.curWg s.curWarp t = s.trapped t := by
  have enters := takeTrap_enters (drainSfu_none may) (u := s.frozen t) rfl (handler_frozen may) (trapVec_frozen may known) may.2.2.1
  rw [enters, State.trapped, State.updCur, frozen_curWg, frozen_curWarp]

end

theorem curW_trapped (s : State) (t : Trap) : (s.trapped t).curW = (s.curW.freeze t).enterHandler (s.trapVec (s.ctxNo s.curWg)) := by
  rw [State.trapped, curW_updCur, curW_frozen]

theorem trapped_mem (s : State) (t : Trap) : (s.trapped t).mem = (s.trapStat (s.ctxNo s.curWg) t.cause).mem := by
  rw [State.trapped, updCur_mem, State.frozen, trapStat_mem, trapStat_mem, trapStatAt_updCur, updCur_mem]

theorem curG_trapped (s : State) (t : Trap) : (s.trapped t).curG = { s.curG with warps := (s.trapped t).curG.warps } := by
  rw [State.trapped, curG_updCur, curG_frozen]

theorem word_eq (t : Trap) : t.word =
    BitVec.ofNat 32 (t.cause + (if t.cause ∈ [8, 10, 11, 13, 14] then 256 else 0) + t.detail * 4096) := by
  have same : resumableCause t.cause = true ↔ t.cause ∈ [8, 10, 11, 13, 14] := by simp [resumableCause, or_assoc]
  unfold Trap.word
  simp only [same]

/-- The fields that a trap's entry changes: the workgroups, and memory with its views. -/
def State.SameButTrap (s t : State) : Prop := t = { s with wgs := t.wgs, mem := t.mem, late := t.late, former := t.former }

theorem State.SameButTrap.trans {s t u : State} (h : s.SameButTrap t) (k : t.SameButTrap u) : s.SameButTrap u := by
  unfold State.SameButTrap at *; rw [k, h]

theorem sameButTrap_updCur (s : State) (g : Warp → Warp) : s.SameButTrap (s.updCur g) := rfl

theorem sameButTrap_trapStat (s : State) (ctx cause : Nat) : s.SameButTrap (s.trapStat ctx cause) := rfl

theorem sameButTrap_trapped (s : State) (t : Trap) : s.SameButTrap (s.trapped t) :=
  ((sameButTrap_updCur ..).trans (sameButTrap_trapStat ..)).trans (sameButTrap_updCur ..)

theorem curG_warp_other (s : State) (g : Warp → Warp) {w : Nat} (hw : w ≠ s.curWarp) : (s.updCur g).curG.warp w = s.curG.warp w := by
  rw [curG_updCur]
  exact (SMap.get_upd ..).trans (if_neg hw)

theorem trapped_trapped (s : State) (t : Trap) : Trapped s (s.trapped t) t.cause t.detail t.pc t.va t.mask where
  trapc := by
    rw [curW_trapped, enterHandler_eq, freeze_eq]
    exact word_eq t
  trappc := by rw [curW_trapped, enterHandler_eq, freeze_eq]
  trapva := by rw [curW_trapped, enterHandler_eq, freeze_eq]
  fltmask := by rw [curW_trapped, enterHandler_eq, freeze_eq]
  handler := by rw [curW_trapped, enterHandler_eq]
  lanes l hl := by
    rw [curW_trapped, enterHandler_lanes _ _ ((unexited_freeze s.curW t).symm ▸ hl), freeze_lanes, if_pos hl]
  rows r l := by
    rw [curW_trapped, enterHandler_eq, freeze_eq]
    exact ⟨rfl, rfl⟩
  stat := by
    rw [trapped_mem]
    exact ⟨trapStat_counts s _ _, fun b => trapStat_elsewhere s _ _⟩
  outside := sameButTrap_trapped s t
  wgs k hk := by
    rw [State.trapped, State.updCur, State.updWarp, wg_updWg_other _ _ (by rw [frozen_curWg]; exact hk), State.frozen, trapStat_wg]
    exact wg_updWg_other s _ hk
  objects := curG_trapped s t
  warps w hw := by
    rw [State.trapped, curG_warp_other _ _ (by rw [frozen_curWarp]; exact hw), State.frozen, trapStat_curG, curG_warp_other _ _ hw]

theorem takeTrap_trapped {s : State} (may : canTrap s) {t : Trap} (known : t.cause < 32) :
    Trapped s (s.takeTrap s.curWg s.curWarp t) t.cause t.detail t.pc t.va t.mask := by
  rw [takeTrap_eq may known]
  exact trapped_trapped s t

end Sys2Proof.Machine
end

section

/-!
# The command instructions (R272, R274)
-/

namespace Sys2Proof.Machine

/-! ### An entry of the audit log -/

/-- `t` is `s` but for the audit log and its head's registers. -/
structure State.Audits (s t : State) : Prop where
  frame : t = { s with audit := t.audit, auditSigned := t.auditSigned, cregs := t.cregs }
  regs : ∀ p o, o < audHead ∨ auditWindow ≤ o → t.cregOf p o = s.cregOf p o

namespace State.Audits
variable {s t u : State}

theorem refl (s : State) : s.Audits s := ⟨rfl, fun _ _ _ => rfl⟩

theorem trans (h : s.Audits t) (k : t.Audits u) : s.Audits u where
  frame := by rw [k.frame, h.frame]
  regs p o ho := (k.regs p o ho).trans (h.regs p o ho)

theorem canon (h : s.Audits t) : t.canon = s.canon := canon_eq fun p => h.regs p _ (.inl (by decide))

theorem ctxs (h : s.Audits t) : t.ctxs = s.ctxs := by rw [h.frame]
theorem curW (h : s.Audits t) : t.curW = s.curW := by rw [h.frame]; rfl

theorem ctxNo (h : s.Audits t) : t.ctxNo t.curWg = s.ctxNo s.curWg := by rw [h.frame]; rfl

theorem trapVec (h : s.Audits t) (ctx : Nat) : t.trapVec ctx = s.trapVec ctx := by
  have own (pa : Nat) : t.own pa = s.own pa := by rw [State.own, State.own, h.frame]
  have mem : t.mem = s.mem := by rw [h.frame]
  rw [State.trapVec, State.trapVec, State.memRead, State.memRead, h.canon, own, mem, State.ctx, State.ctx, h.ctxs]

theorem canTrap (h : s.Audits t) (may : canTrap s) : Machine.canTrap t := by
  obtain ⟨mode, aligned, handled, none⟩ := may
  refine ⟨h.curW ▸ mode, ?_, ?_, ?_⟩
  · rw [h.ctxNo, State.ctx, h.ctxs]; exact aligned
  · rw [h.ctxNo, h.trapVec]; exact handled
  · rw [h.frame]; exact none

end State.Audits

theorem audits_setCreg {o : Nat} (low : audHead ≤ o) (high : o < auditWindow) (s : State) (v : Nat) : s.Audits (s.setCreg o v) :=
  ⟨rfl, fun p _ away => cregOf_setCreg_other s p v fun e => by subst e; omega⟩

theorem audits_auditPush (s : State) (body : List Byte) : s.Audits (s.auditPush body) := by
  unfold State.auditPush
  split
  · exact .refl s
  · refine List.foldlRecOn (motive := fun t => s.Audits t) _ _ ⟨rfl, fun _ _ _ => rfl⟩ fun t ht i hi => ht.trans (audits_setCreg ?_ ?_ t _)
    · omega
    · have := List.mem_range.1 hi
      unfold audHead auditWindow
      omega

theorem audits_auditEvent (s : State) (type ctx v : Nat) : s.Audits (s.auditEvent type ctx v) := by
  unfold State.auditEvent State.auditAppend State.auditHeadSign
  dsimp only
  split
  · exact (audits_auditPush s _).trans ((audits_auditPush _ _).trans ⟨rfl, fun _ _ _ => rfl⟩)
  · exact audits_auditPush s _

/-! ### Waiting for a command -/

/-- Some lanes of a group wait at the instruction, and the others go past it. -/
def Warp.waiting (w : Warp) (s : State) (ls : List Nat) (what : WaitFor) (len : Nat) : Warp :=
  (w.updLanes ls fun _ x => { x with wait := some { what, len } }).updLanes (s.group.filter fun j => !ls.contains j) fun _ x =>
    { x with pc := x.pc + BitVec.ofNat 64 len }

theorem lanesOnly_trans {w v u : Warp} (h : v = { w with lanes := v.lanes }) (k : u = { v with lanes := u.lanes }) :
    u = { w with lanes := u.lanes } := by rw [k, h]

section
variable {s : State} {ls : List Nat} (hn : ls.Nodup)
include hn

theorem waiting_lane (w : Warp) (what : WaitFor) (len l : Nat) : (w.waiting s ls what len).lane l =
    if l ∈ ls then { w.lane l with wait := some { what, len } }
    else if l ∈ s.group then { w.lane l with pc := (w.lane l).pc + BitVec.ofNat 64 len } else w.lane l := by
  unfold Warp.waiting
  rw [lane_updLanes _ _ _ _ ((group_nodup s).filter _), lane_updLanes _ _ _ _ hn]
  by_cases waits : l ∈ ls <;> by_cases here : l ∈ s.group <;> simp [waits, here]

omit hn in
theorem waiting_eq (w : Warp) (what : WaitFor) (len : Nat) :
    w.waiting s ls what len = { w with lanes := (w.waiting s ls what len).lanes } :=
  lanesOnly_trans (updLanes_other ..) (updLanes_other ..)

/-- An instruction that changes registers of its lanes, some of which then wait at it while the others go past it. -/
theorem executed_waiting {f : Fields} {P : Warp → Warp} {reg : Nat → Nat → Option Word} {what : WaitFor} (hs : ∀ l ∈ ls, l ∈ s.group)
    (only : (s.curW.charged s f).RegsOnly (P (s.curW.charged s f)))
    (regs : ∀ r l, (P (s.curW.charged s f)).reg r l = (reg r l).getD (s.curW.reg r l)) :
    Executed s (s.updCur fun w => (P (w.charged s f)).waiting s ls what f.len) f
      { reg, lane := fun j x => if j ∈ ls then { x with pc := (s.curW.lane j).pc, wait := some ⟨what, f.len⟩ } else x } := by
  have lanes (l : Nat) : (P (s.curW.charged s f)).lane l = (s.curW.charged s f).lane l := lane_congr (by rw [only.rest]) l
  apply executed_updCur
  · rw [waiting_eq, only.rest, charged_eq]; simp
  · intro n
    rw [waiting_eq, only.rest, charged_eq]
    show SMap.get 0 (SMap.upd 0 s.curW.perf 0 (· + 1)) n = _
    rw [SMap.get_upd]
    by_cases h0 : n = 0
    · subst h0; rw [if_pos rfl, if_pos rfl]
    · rw [if_neg h0, if_neg h0]; exact (BitVec.add_zero _).symm
  · intro l away
    rw [waiting_lane hn, if_neg fun h => away (hs l h), if_neg away, lanes, charged_lane, if_neg away]
  · intro l here
    rw [waiting_lane hn, lanes, charged_lane, if_pos here]
    by_cases waits : l ∈ ls
    · simp only [waits, if_true]
    · simp only [waits, here, if_true, if_false]
  · intro r l; rw [waiting_eq]; exact regs r l
  · intro r l hidden
    rw [waiting_eq]
    have := only.hidden r l hidden
    rw [charged_handler, charged_regIn] at this
    exact this
  · intro r; rw [waiting_eq, only.rest, charged_eq]; rfl

end

/-! ### Issuing a command -/

section
variable (s : State) (f : Fields)

theorem ctxPart_updCur (g : Warp → Warp) : (s.updCur g).ctxPart = s.ctxPart :=
  ctxPart_eq (fun _ => rfl) (updCur_pkg s g) (updCur_ctxs s g) (updCur_mem s g)

theorem curPart_charge : (s.charge f).curPart = s.curPart := by
  have ctx : (s.charge f).ctxNo (s.charge f).curWg = s.ctxNo s.curWg := rfl
  rw [State.curPart, State.curPart, ctx, charge_eq, ctxPart_updCur]

theorem reachesRegs_charge : (s.charge f).reachesRegs = s.reachesRegs := by
  unfold State.reachesRegs
  rw [charge_eq, curG_updCur]
  rfl

theorem charged_pageA (w : Warp) (l : Nat) : (w.charged s f).pageA f l = w.pageA f l := by
  unfold Warp.pageA
  rw [charged_segs, charged_pairA]

/-- The guard-true lanes wait for the command that the group issues. -/
def State.commandWaits : State :=
  s.updCur fun w => (w.charged s f).waiting s (s.trueLanes f) (.command s.curPart ((s.cmd s.curPart).issued + 1)) f.len

/-- The guard-true lanes' wait for a command, as an instruction's effects. -/
def commandEffects : Effects :=
  { lane := fun j x => if j ∈ s.trueLanes f then
      { x with pc := (s.curW.lane j).pc, wait := some ⟨.command s.curPart ((s.cmd s.curPart).issued + 1), f.len⟩ } else x }

theorem executed_commandWaits : Executed s (s.commandWaits f) f (commandEffects s f) :=
  executed_waiting (P := id) (reg := fun _ _ => none) (trueLanes_nodup s f) (trueLanes_sub s f) (regsOnly_refl _) (charged_reg s.curW s f)

variable {s f}

theorem command_nil (none : s.trueLanes f = []) (op : Nat) (first n : Warp → Nat → Nat) : s.command f op first n = s.advance f.len := by
  unfold State.command
  rw [none]

section
variable {l : Nat} {ls : List Nat} (lanes : s.trueLanes f = l :: ls) (op : Nat) (first n : Warp → Nat → Nat)
include lanes

theorem command_waits (reaches : s.reachesRegs = true) : (s.charge f).command f op first n =
    (s.commandWaits f).startCmd s.curPart op (first (s.curW.charged s f) l) (n (s.curW.charged s f) l) := by
  have waits : ((s.charge f).waitLanes (l :: ls) (.command s.curPart ((s.cmd s.curPart).issued + 1)) f.len).advanceLanes s.curWg s.curWarp
      (s.group.filter fun j => !(l :: ls).contains j) f.len = s.commandWaits f := by
    show ((s.updCur fun w => w.charged s f).updCur _).updCur _ = _
    rw [updCur_updCur, updCur_updCur, State.commandWaits, lanes]
    rfl
  unfold State.command
  rw [trueLanes_charge, lanes]
  dsimp only
  rw [reachesRegs_charge, reaches, curPart_charge, curW_charge]
  exact congrArg (fun u : State => u.startCmd s.curPart op (first (s.curW.charged s f) l) (n (s.curW.charged s f) l)) waits

theorem command_refused (barred : s.reachesRegs = false) : (s.charge f).command f op first n =
    ((s.charge f).auditEvent 1 (s.ctxNo s.curWg) (cregBase + cmdBlock s.curPart)).protHere f 6 0 := by
  unfold State.command
  rw [trueLanes_charge, lanes]
  dsimp only
  rw [reachesRegs_charge, barred, curPart_charge]
  rfl

end

end

end Sys2Proof.Machine
end

section

/-!
# The command instructions: completion and refusal (R31, R272, R274)
-/

namespace Sys2Proof.Machine

section
variable {s t : State}

theorem State.Audits.group (h : s.Audits t) : t.group = s.group := by rw [h.frame]; rfl

theorem State.Audits.trueLanes (h : s.Audits t) (f : Fields) : t.trueLanes f = s.trueLanes f := by
  unfold State.trueLanes
  rw [h.group, h.curW]

theorem State.Audits.curPc (h : s.Audits t) : t.curPc = s.curPc := by
  unfold State.curPc
  rw [h.group, h.curW]

end

section
variable {s : State} (f : Fields)

theorem curPc_charge : (s.charge f).curPc = s.curPc := by
  unfold State.curPc
  rw [group_charge, curW_charge]
  cases s.group with
  | nil => rfl
  | cons l ls =>
    show ((s.curW.charged s f).lane l).pc = (s.curW.lane l).pc
    rw [charged_lane]
    split <;> rfl

theorem canTrap_charge (may : canTrap s) : canTrap (s.charge f) := by
  obtain ⟨mode, aligned, handled, none⟩ := may
  refine ⟨?_, aligned, ?_, none⟩
  · rw [curW_charge, charged_handler]; exact mode
  · have same : (s.charge f).ctxNo (s.charge f).curWg = s.ctxNo s.curWg := rfl
    rw [same, charge_eq, trapVec_updCur]
    exact handled

/-- PROT on the guard-true lanes of a state that has only entered the audit log since the charge. -/
theorem protHere_trapped {a : State} (h : (s.charge f).Audits a) (may : canTrap s) (detail : Nat) :
    Trapped a (a.protHere f detail 0) 7 detail s.curPc 0 (maskOf (s.trueLanes f)) := by
  have ends := takeTrap_trapped (h.canTrap (canTrap_charge f may))
    (t := { cause := 7, detail, pc := a.curPc, va := BitVec.ofNat 80 0, mask := maskOf (a.trueLanes f) }) (show 7 < 32 by decide)
  rw [h.curPc, h.trueLanes, curPc_charge, trueLanes_charge] at ends
  have same : a.protHere f detail 0 = a.takeTrap a.curWg a.curWarp
      { cause := 7, detail, pc := s.curPc, va := BitVec.ofNat 80 0, mask := maskOf (s.trueLanes f) } := by
    rw [State.protHere, h.curPc, h.trueLanes, curPc_charge, trueLanes_charge]
    rfl
  rw [same]
  exact ends

end

/-! ### What a command instruction does -/

/-- A command instruction, with the arguments of its `command`. -/
structure Commands (i : Instr) (f : Fields) (op : Nat) (first n : Warp → Nat → Nat) : Prop where
  fields : i.fields = f
  exec (s : State) : exec i s = issueHeld i (heldNow i s) s fun s => s.command f op first n

/-- The command instructions. -/
theorem commands (f : Fields) :
    Commands (.tlbinv f) f 4 (fun w l => w.pageA f l) (fun w l => (w.reg f.b.toNat l).toNat) ∧
      Commands (.replay f) f 1 (fun _ _ => 0) (fun _ _ => 1) ∧ Commands (.replayCancel f) f 2 (fun _ _ => 0) (fun _ _ => 1) ∧
      Commands (.replayPage f) f 3 (fun w l => w.pageA f l) fun _ _ => 1 :=
  ⟨⟨rfl, fun _ => rfl⟩, ⟨rfl, fun _ => rfl⟩, ⟨rfl, fun _ => rfl⟩, ⟨rfl, fun _ => rfl⟩⟩

namespace Commands
variable {i : Instr} {f : Fields} {op : Nat} {first n : Warp → Nat → Nat} (h : Commands i f op first n) {s : State}
include h

theorem exec_runs (runs : Runs i s) : Machine.exec i s = .next ((s.charge f).command f op first n) := by
  rw [h.exec, issueHeld_runs _ runs rfl, h.fields]

theorem completes_none (none : s.trueLanes f = []) : Completes i s {} := by
  intro runs
  refine ⟨_, h.exec_runs runs, ?_⟩
  rw [command_nil (by rw [trueLanes_charge, none]), h.fields]
  exact advance_executed s f

theorem refused (lanes : s.trueLanes f ≠ []) (barred : s.reachesRegs = false) (may : canTrap s) (runs : Runs i s) :
    ∃ t, Machine.exec i s = .next t ∧
      Trapped ((s.charge f).auditEvent 1 (s.ctxNo s.curWg) (cregBase + cmdBlock s.curPart)) t 7 6 s.curPc 0 (maskOf (s.trueLanes f)) := by
  obtain ⟨l, ls, some⟩ := List.exists_cons_of_ne_nil lanes
  refine ⟨_, h.exec_runs runs, ?_⟩
  rw [command_refused some _ _ _ barred]
  exact protHere_trapped f (audits_auditEvent ..) may 6

theorem completes (lanes : s.trueLanes f ≠ []) (reaches : s.reachesRegs = true) :
    CompletesWith i s (commandEffects s f) fun u => u.startCmd s.curPart op
      (first (s.curW.charged s f) ((s.trueLanes f).headD 0)) (n (s.curW.charged s f) ((s.trueLanes f).headD 0)) := by
  intro runs
  obtain ⟨l, ls, some⟩ := List.exists_cons_of_ne_nil lanes
  refine ⟨s.commandWaits f, ?_, ?_⟩
  · rw [h.exec_runs runs, command_waits some _ _ _ reaches, some]
    rfl
  · rw [h.fields]
    exact executed_commandWaits s f

end Commands

section
variable {f : Fields} {s : State}

/-- Without a guard-true lane a command instruction is passed. -/
theorem commands_none (none : s.trueLanes f = []) : ∀ i ∈ [Instr.tlbinv f, .replay f, .replayCancel f, .replayPage f], Completes i s {} := by
  obtain ⟨tlbinv, replay, cancel, page⟩ := commands f
  simp only [List.forall_mem_cons]
  exact ⟨tlbinv.completes_none none, replay.completes_none none, cancel.completes_none none, page.completes_none none, fun _ h => nomatch h⟩

/-- Where the quad's row does not permit the registers, a command instruction takes PROT. -/
theorem commands_refused (lanes : s.trueLanes f ≠ []) (barred : s.reachesRegs = false) (may : canTrap s) :
    ∀ i ∈ [Instr.tlbinv f, .replay f, .replayCancel f, .replayPage f], Runs i s → ∃ t, exec i s = .next t ∧
      Trapped ((s.charge f).auditEvent 1 (s.ctxNo s.curWg) (cregBase + cmdBlock s.curPart)) t 7 6 s.curPc 0 (maskOf (s.trueLanes f)) := by
  obtain ⟨tlbinv, replay, cancel, page⟩ := commands f
  simp only [List.forall_mem_cons]
  exact ⟨tlbinv.refused lanes barred may, replay.refused lanes barred may, cancel.refused lanes barred may, page.refused lanes barred may,
    fun _ h => nomatch h⟩

/-- The four command instructions start their commands. -/
theorem commands_complete (lanes : s.trueLanes f ≠ []) (reaches : s.reachesRegs = true) :
    let l := (s.trueLanes f).headD 0
    CompletesWith (.tlbinv f) s (commandEffects s f) (fun u => u.startCmd s.curPart 4 (s.curW.pageA f l) (s.curW.reg f.b.toNat l).toNat) ∧
      CompletesWith (.replay f) s (commandEffects s f) (fun u => u.startCmd s.curPart 1 0 1) ∧
      CompletesWith (.replayCancel f) s (commandEffects s f) (fun u => u.startCmd s.curPart 2 0 1) ∧
      CompletesWith (.replayPage f) s (commandEffects s f) (fun u => u.startCmd s.curPart 3 (s.curW.pageA f l) 1) := by
  obtain ⟨tlbinv, replay, cancel, page⟩ := commands f
  have all := tlbinv.completes lanes reaches
  have one := page.completes lanes reaches
  simp only [charged_pageA, charged_reg] at all one
  exact ⟨all, replay.completes lanes reaches, cancel.completes lanes reaches, one⟩

end

end Sys2Proof.Machine
end

section

/-!
# One lane's harvest (R58, R273)
-/

namespace Sys2Proof.Machine

/-! ### Walks -/

/-- What a walk reads besides memory is the same. -/
structure State.WalksAs (s t : State) : Prop where
  stripes : ∀ p, t.cregOf p stripeCfg = s.cregOf p stripeCfg
  pkg : t.pkg = s.pkg
  ctxs : t.ctxs = s.ctxs

theorem walkFrom_congr {s t : State} (h : s.WalksAs t) (mem : t.mem = s.mem) (cached : Nat → Option Nat) (va fuel level base : Nat) :
    t.walkFrom cached va fuel level base = s.walkFrom cached va fuel level base := by
  induction fuel generalizing level base with
  | zero => rfl
  | succ fuel ih =>
    have own : t.own = s.own := by funext pa; rw [State.own, State.own, h.pkg]
    have read : t.memRead = s.memRead := by funext g n; rw [State.memRead, State.memRead, mem, canon_eq h.stripes]
    rw [State.walkFrom, State.walkFrom, own, read, ih]

theorem walk_of_mem {s t : State} (h : s.WalksAs t) (ctx va : Nat) : t.walk ctx va = ({ s with mem := t.mem } : State).walk ctx va := by
  have same : ({ s with mem := t.mem } : State).WalksAs t := ⟨h.stripes, h.pkg, h.ctxs⟩
  rw [State.walk, State.walk, walkFrom_congr same rfl, State.ctx, State.ctx, h.ctxs]

/-- The leaf of a walk and its place, where no field of it holds a reserved value. -/
def State.soundLeaf (s : State) (ctx va : Nat) : Option (Nat × Nat) :=
  match s.walk ctx va with
  | .leaf e _ at_ => if pteSound e then some (e, at_) else none
  | _ => none

theorem soundLeaf_eq_some {s : State} {ctx va e at_ : Nat} :
    s.soundLeaf ctx va = some (e, at_) ↔ ∃ level, s.walk ctx va = .leaf e level at_ ∧ pteSound e = true := by
  unfold State.soundLeaf
  cases s.walk ctx va with
  | absent level => exact ⟨fun h => (nomatch h), fun ⟨_, h, _⟩ => (nomatch h)⟩
  | malformed => exact ⟨fun h => (nomatch h), fun ⟨_, h, _⟩ => (nomatch h)⟩
  | leaf e' level at' =>
    show (if pteSound e' then some (e', at') else none) = some (e, at_) ↔ _
    cases sound : pteSound e' with
    | false =>
      refine ⟨fun h => (nomatch h), fun ⟨_, same, h⟩ => ?_⟩
      cases same
      exact absurd (sound.symm.trans h) Bool.false_ne_true
    | true =>
      refine ⟨fun h => ?_, fun ⟨_, same, _⟩ => ?_⟩
      · cases h
        exact ⟨level, rfl, sound⟩
      · cases same
        rfl

/-! ### The pages of a lane, one after another -/

/-- The address of a page of a lane's range. -/
def harvestVa (seg base i : Nat) : Nat := seg * 2 ^ 64 + (base / 2 ^ 18 * 2 ^ 18 + i * 2 ^ 18) % 2 ^ 64

/-- What a lane's harvest has reached: the state, the map, and the leaves that it has looked at with what they held. -/
abbrev Harvest := State × Nat × List (Nat × Bool)

/-- The leaf's D that the harvest has already taken. -/
def Harvest.taken (a : Harvest) (at_ : Nat) : Option (Nat × Bool) := a.2.2.find? fun p => p.1 == at_

/-- One page of a lane's harvest. -/
def harvestPage (ctx seg base : Nat) (a : Harvest) (i : Nat) : Harvest :=
  match a.1.soundLeaf ctx (harvestVa seg base i) with
  | none => a
  | some (e, at_) => match a.taken at_ with
    | some p => (a.1, a.2.1 + b2n p.2 * 2 ^ i, a.2.2)
    | none =>
      (if pteD e then a.1.memWrite at_ 16 (setBits e 6 6 0) else a.1, a.2.1 + b2n (pteD e) * 2 ^ i, (at_, pteD e) :: a.2.2)

/-- A lane's harvest after its first pages. -/
def harvestUpTo (ctx seg base : Nat) (s : State) (n : Nat) : Harvest := (List.range n).foldl (harvestPage ctx seg base) (s, 0, [])

theorem harvestLane_eq (s : State) (ctx seg base n : Nat) : s.harvestLane ctx seg base n =
    ((harvestUpTo ctx seg base s n).1, BitVec.ofNat 32 (harvestUpTo ctx seg base s n).2.1) := by
  refine congrArg (fun r : Harvest => (r.1, BitVec.ofNat 32 r.2.1)) (List.foldl_ext _ _ _ fun ⟨t, map, seen⟩ i _ => ?_)
  unfold harvestPage State.soundLeaf harvestVa
  dsimp only
  cases t.walk ctx (seg * 2 ^ 64 + (base / 2 ^ 18 * 2 ^ 18 + i * 2 ^ 18) % 2 ^ 64) with
  | absent level => rfl
  | malformed => rfl
  | leaf e level at_ =>
    dsimp only
    cases pteSound e <;> rfl

section
variable {ctx seg base : Nat} {a : Harvest} {i : Nat}

theorem harvestPage_absent (none : a.1.soundLeaf ctx (harvestVa seg base i) = none) : harvestPage ctx seg base a i = a := by
  unfold harvestPage
  rw [none]

theorem harvestPage_taken {e at_ : Nat} {p : Nat × Bool} (found : a.1.soundLeaf ctx (harvestVa seg base i) = some (e, at_))
    (taken : a.taken at_ = some p) : harvestPage ctx seg base a i = (a.1, a.2.1 + b2n p.2 * 2 ^ i, a.2.2) := by
  unfold harvestPage
  rw [found]
  dsimp only
  rw [taken]

theorem harvestPage_first {e at_ : Nat} (found : a.1.soundLeaf ctx (harvestVa seg base i) = some (e, at_))
    (first : a.taken at_ = none) : harvestPage ctx seg base a i =
      (if pteD e then a.1.memWrite at_ 16 (setBits e 6 6 0) else a.1, a.2.1 + b2n (pteD e) * 2 ^ i, (at_, pteD e) :: a.2.2) := by
  unfold harvestPage
  rw [found]
  dsimp only
  rw [first]

/-- A page of a lane's harvest adds a bit to the map. -/
theorem harvestPage_map (ctx seg base : Nat) (a : Harvest) (i : Nat) : ∃ b, (harvestPage ctx seg base a i).2.1 = a.2.1 + b2n b * 2 ^ i := by
  cases found : a.1.soundLeaf ctx (harvestVa seg base i) with
  | none => exact ⟨false, by rw [harvestPage_absent found]; simp [b2n]⟩
  | some q =>
    cases taken : a.taken q.2 with
    | some p => exact ⟨p.2, by rw [harvestPage_taken found taken]⟩
    | none => exact ⟨pteD q.1, by rw [harvestPage_first found taken]⟩

/-- `t` with the memory, the TLBs and what is kept of older values as `s` has them. -/
def State.restored (t s : State) : State := { t with mem := s.mem, late := s.late, former := s.former, cores := s.cores, quads := s.quads }

theorem harvestPage_frame (ctx seg base : Nat) (a : Harvest) (i : Nat) (s : State) :
    (harvestPage ctx seg base a i).1.restored s = a.1.restored s ∧ (harvestPage ctx seg base a i).1.cores = a.1.cores ∧
      (harvestPage ctx seg base a i).1.quads = a.1.quads := by
  cases found : a.1.soundLeaf ctx (harvestVa seg base i) with
  | none => rw [harvestPage_absent found]; exact ⟨rfl, rfl, rfl⟩
  | some q =>
    cases taken : a.taken q.2 with
    | some p => rw [harvestPage_taken found taken]; exact ⟨rfl, rfl, rfl⟩
    | none =>
      rw [harvestPage_first found taken]
      cases pteD q.1 <;> exact ⟨rfl, rfl, rfl⟩

end

/-! ### Bits of the map -/

section
variable {m i : Nat} (small : m < 2 ^ i) (b : Bool)
include small

theorem added_small : m + b2n b * 2 ^ i < 2 ^ (i + 1) := by
  have twice : 2 ^ (i + 1) = 2 ^ i + 2 ^ i := by rw [Nat.pow_succ, Nat.mul_two]
  cases b with
  | false => show m + 0 * 2 ^ i < _; omega
  | true => show m + 1 * 2 ^ i < _; omega

theorem testBit_added (k : Nat) : (m + b2n b * 2 ^ i).testBit k = if k = i then b else m.testBit k := by
  cases b with
  | false =>
    rw [show m + b2n false * 2 ^ i = m by simp [b2n]]
    split
    · next h => rw [h]; exact Nat.testBit_lt_two_pow small
    · rfl
  | true =>
    rw [show m + b2n true * 2 ^ i = 2 ^ i + m by simp [b2n, Nat.add_comm]]
    rcases Nat.lt_trichotomy k i with below | same | above
    · rw [if_neg (Nat.ne_of_lt below), Nat.testBit_two_pow_add_gt below]
    · rw [if_pos same, same, Nat.testBit_two_pow_add_eq, Nat.testBit_lt_two_pow small]; rfl
    · have large : 2 ^ (i + 1) ≤ 2 ^ k := Nat.pow_le_pow_right (by decide) above
      rw [if_neg (Nat.ne_of_gt above), Nat.testBit_lt_two_pow, Nat.testBit_lt_two_pow] <;> omega

end

/-! ### The harvest of a range of pages -/

section
variable {ctx seg base : Nat} {v : State}

/-- The leaf that a lane's harvest comes to at a page. -/
def harvestFinds (ctx seg base : Nat) (v : State) (i e at_ : Nat) : Prop :=
  (harvestUpTo ctx seg base v i).1.soundLeaf ctx (harvestVa seg base i) = some (e, at_)

theorem harvestUpTo_succ (n : Nat) :
    harvestUpTo ctx seg base v (n + 1) = harvestPage ctx seg base (harvestUpTo ctx seg base v n) n := by
  unfold harvestUpTo
  rw [List.range_succ, List.foldl_append]
  rfl

theorem harvestUpTo_frame (n : Nat) (s : State) : (harvestUpTo ctx seg base v n).1.restored s = v.restored s ∧
    (harvestUpTo ctx seg base v n).1.cores = v.cores ∧ (harvestUpTo ctx seg base v n).1.quads = v.quads := by
  induction n with
  | zero => exact ⟨rfl, rfl, rfl⟩
  | succ n ih =>
    obtain ⟨rest, cores, quads⟩ := harvestPage_frame ctx seg base (harvestUpTo ctx seg base v n) n s
    rw [harvestUpTo_succ]
    exact ⟨rest.trans ih.1, cores.trans ih.2.1, quads.trans ih.2.2⟩

theorem harvestUpTo_small (n : Nat) : (harvestUpTo ctx seg base v n).2.1 < 2 ^ n := by
  induction n with
  | zero => exact Nat.one_pos
  | succ n ih =>
    obtain ⟨b, map⟩ := harvestPage_map ctx seg base (harvestUpTo ctx seg base v n) n
    rw [harvestUpTo_succ, map]
    exact added_small ih b

/-- A later page leaves the bits of the earlier ones. -/
theorem testBit_succ {i n : Nat} (before : i < n) :
    (harvestUpTo ctx seg base v (n + 1)).2.1.testBit i = (harvestUpTo ctx seg base v n).2.1.testBit i := by
  obtain ⟨b, map⟩ := harvestPage_map ctx seg base (harvestUpTo ctx seg base v n) n
  rw [harvestUpTo_succ, map, testBit_added (harvestUpTo_small n), if_neg (Nat.ne_of_lt before)]

theorem testBit_later {i n : Nat} (h : i < n) :
    (harvestUpTo ctx seg base v n).2.1.testBit i = (harvestUpTo ctx seg base v (i + 1)).2.1.testBit i := by
  induction n, h using Nat.le_induction with
  | base => rfl
  | succ n h ih => rw [testBit_succ h, ih]

/-- What the harvest has taken are the leaves of its pages so far, with the bits of these pages. -/
structure Takes (ctx seg base : Nat) (v : State) (n : Nat) : Prop where
  found : ∀ at_ p, (harvestUpTo ctx seg base v n).taken at_ = some p → ∃ i, i < n ∧ ∃ e, harvestFinds ctx seg base v i e at_
  holds : ∀ i, i < n → ∀ e at_, harvestFinds ctx seg base v i e at_ →
    ∃ p, (harvestUpTo ctx seg base v n).taken at_ = some p ∧ p.2 = (harvestUpTo ctx seg base v n).2.1.testBit i

theorem takes (n : Nat) : Takes ctx seg base v n := by
  induction n with
  | zero => exact ⟨fun at_ p h => (nomatch h), fun i h => absurd h (Nat.not_lt_zero i)⟩
  | succ n ih =>
    have small := harvestUpTo_small (ctx := ctx) (seg := seg) (base := base) (v := v) n
    -- The bit of the new page is the one by which its leaf was taken.
    have step (same : ∀ at_ p, (harvestUpTo ctx seg base v n).taken at_ = some p → (harvestUpTo ctx seg base v (n + 1)).taken at_ = some p)
        (new : ∀ at_ p, (harvestUpTo ctx seg base v (n + 1)).taken at_ = some p →
          (harvestUpTo ctx seg base v n).taken at_ = some p ∨ ∃ e, harvestFinds ctx seg base v n e at_)
        (last : ∀ e at_, harvestFinds ctx seg base v n e at_ → ∃ p, (harvestUpTo ctx seg base v (n + 1)).taken at_ = some p ∧
          p.2 = (harvestUpTo ctx seg base v (n + 1)).2.1.testBit n) : Takes ctx seg base v (n + 1) := by
      refine ⟨fun at_ p h => ?_, fun i hi e at_ finds => ?_⟩
      · rcases new at_ p h with old | ⟨e, finds⟩
        · obtain ⟨i, hi, found⟩ := ih.found at_ p old
          exact ⟨i, Nat.lt_succ_of_lt hi, found⟩
        · exact ⟨n, Nat.lt_succ_self n, e, finds⟩
      · rcases Nat.lt_succ_iff_lt_or_eq.1 hi with before | rfl
        · obtain ⟨p, taken, bit⟩ := ih.holds i before e at_ finds
          exact ⟨p, same at_ p taken, by rw [bit, testBit_succ before]⟩
        · exact last e at_ finds
    cases found : (harvestUpTo ctx seg base v n).1.soundLeaf ctx (harvestVa seg base n) with
    | none =>
      have stays := (harvestUpTo_succ (v := v) n).trans (harvestPage_absent found)
      exact step (fun _ _ h => by rw [stays]; exact h) (fun _ _ h => by rw [stays] at h; exact .inl h)
        fun e at_ finds => nomatch found.symm.trans finds
    | some q =>
      cases taken : (harvestUpTo ctx seg base v n).taken q.2 with
      | some p =>
        have stays := (harvestUpTo_succ (v := v) n).trans (harvestPage_taken found taken)
        refine step (fun _ _ h => by rw [stays]; exact h) (fun _ _ h => by rw [stays] at h; exact .inl h) fun e at_ finds => ⟨p, ?_⟩
        cases found.symm.trans finds
        rw [stays]
        exact ⟨taken, by rw [testBit_added small, if_pos rfl]⟩
      | none =>
        have takes := (harvestUpTo_succ (v := v) n).trans (harvestPage_first found taken)
        have look (at_ : Nat) : (harvestUpTo ctx seg base v (n + 1)).taken at_ =
            if q.2 = at_ then some (q.2, pteD q.1) else (harvestUpTo ctx seg base v n).taken at_ := by
          rw [takes, Harvest.taken, List.find?_cons]
          by_cases h : q.2 = at_
          · rw [if_pos h, beq_iff_eq.2 h]
          · rw [if_neg h, beq_eq_false_iff_ne.2 h]; rfl
        refine step (fun at_ p h => ?_) (fun at_ p h => ?_) fun e at_ finds => ⟨(q.2, pteD q.1), ?_⟩
        · rw [look, if_neg fun e => by rw [← e, taken] at h; cases h]; exact h
        · by_cases e : q.2 = at_
          · exact .inr ⟨q.1, e ▸ found⟩
          · rw [look, if_neg e] at h; exact .inl h
        · cases found.symm.trans finds
          rw [look, takes]
          exact ⟨if_pos rfl, by rw [testBit_added small, if_pos rfl]⟩

/-! ### What a page contributes -/

section
variable {i n e at_ : Nat} (h : i < n)
include h

theorem harvest_absent (none : ∀ e at_, ¬harvestFinds ctx seg base v i e at_) :
    (harvestUpTo ctx seg base v n).2.1.testBit i = false ∧
      (harvestUpTo ctx seg base v (i + 1)).1 = (harvestUpTo ctx seg base v i).1 := by
  have absent : (harvestUpTo ctx seg base v i).1.soundLeaf ctx (harvestVa seg base i) = Option.none :=
    Option.eq_none_iff_forall_ne_some.2 fun q found => none q.1 q.2 found
  rw [testBit_later h, harvestUpTo_succ, harvestPage_absent absent]
  exact ⟨Nat.testBit_lt_two_pow (harvestUpTo_small i), rfl⟩

variable (finds : harvestFinds ctx seg base v i e at_)
include finds

theorem harvest_first (first : ∀ i' e', i' < i → ¬harvestFinds ctx seg base v i' e' at_) :
    (harvestUpTo ctx seg base v n).2.1.testBit i = pteD e ∧ (harvestUpTo ctx seg base v (i + 1)).1 =
      if pteD e then (harvestUpTo ctx seg base v i).1.memWrite at_ 16 (setBits e 6 6 0) else (harvestUpTo ctx seg base v i).1 := by
  have fresh : (harvestUpTo ctx seg base v i).taken at_ = none := by
    refine Option.eq_none_iff_forall_ne_some.2 fun p taken => ?_
    obtain ⟨i', before, e', found⟩ := (takes i).found at_ p taken
    exact first i' e' before found
  rw [testBit_later h, harvestUpTo_succ, harvestPage_first finds fresh]
  exact ⟨by rw [testBit_added (harvestUpTo_small i), if_pos rfl], rfl⟩

theorem harvest_again {i' e' : Nat} (before : i' < i) (found : harvestFinds ctx seg base v i' e' at_) :
    (harvestUpTo ctx seg base v n).2.1.testBit i = (harvestUpTo ctx seg base v n).2.1.testBit i' ∧
      (harvestUpTo ctx seg base v (i + 1)).1 = (harvestUpTo ctx seg base v i).1 := by
  obtain ⟨p, taken, bit⟩ := (takes i).holds i' before e' at_ found
  rw [testBit_later h, testBit_later (Nat.lt_trans before h), ← testBit_later before, ← bit, harvestUpTo_succ, harvestPage_taken finds taken]
  exact ⟨by rw [testBit_added (harvestUpTo_small i), if_pos rfl], rfl⟩

end

end

end Sys2Proof.Machine
end

section

/-!
# `harvest` (R58, R273)
-/

namespace Sys2Proof.Machine

/-! ### What the TLBs forget -/

/-- An entry of a small page forgets its D where it overlaps one of the pages. -/
def forgetDirty (pages : List Nat) (t : TlbEntry) : Option TlbEntry :=
  if 3 ≤ t.level && pages.any fun p => t.overlaps p 1 then some { t with dirty := false } else some t

/-- No TLB entry of a partition holds the D of a page. -/
def State.forgot (s : State) (part page : Nat) : Prop := ∀ c, ∀ x ∈ (s.coreAt c).tlb ++ (s.quad c).tlb,
  x.part = part → 3 ≤ x.level → x.overlaps page 1 = true → x.dirty = false

section
variable {part : Nat} {pages : List Nat} {l : List TlbEntry} {x : TlbEntry}

/-- An entry that stays is one that was there, or one of a forgotten page without its D. -/
theorem mem_forgot (hx : x ∈ tlbMap part (forgetDirty pages) l) :
    (x ∈ l ∧ (x.part = part → 3 ≤ x.level → ∀ p ∈ pages, x.overlaps p 1 = false)) ∨ x.dirty = false := by
  obtain ⟨y, here, kept⟩ := List.mem_filterMap.1 hx
  by_cases own : y.part = part
  · rw [if_pos own] at kept
    unfold forgetDirty at kept
    split at kept
    · cases kept; exact .inr rfl
    · next away =>
      cases kept
      refine .inl ⟨here, fun _ level p hp => ?_⟩
      cases meets : x.overlaps p 1 with
      | false => rfl
      | true => exact absurd (by rw [decide_eq_true level, List.any_eq_true.2 ⟨p, hp, meets⟩]; rfl) away
  · rw [if_neg own] at kept
    cases kept
    exact .inl ⟨here, fun own' => absurd own' own⟩

variable {s : State}

theorem mem_tlbs {c : Nat} (hx : x ∈ ((s.mapTlbs part (forgetDirty pages)).coreAt c).tlb ++ ((s.mapTlbs part (forgetDirty pages)).quad c).tlb) :
    (x ∈ (s.coreAt c).tlb ++ (s.quad c).tlb ∧ (x.part = part → 3 ≤ x.level → ∀ p ∈ pages, x.overlaps p 1 = false)) ∨ x.dirty = false := by
  rw [coreAt_mapTlbs, quad_mapTlbs] at hx
  rcases List.mem_append.1 hx with core | quad
  · exact (mem_forgot core).imp_left fun h => ⟨List.mem_append_left _ h.1, h.2⟩
  · exact (mem_forgot quad).imp_left fun h => ⟨List.mem_append_right _ h.1, h.2⟩

theorem forgot_mapTlbs {page : Nat} (hp : page ∈ pages) : (s.mapTlbs part (forgetDirty pages)).forgot part page := by
  intro c x hx own level meets
  rcases mem_tlbs hx with ⟨-, apart⟩ | clear
  · exact absurd ((apart own level page hp).symm.trans meets) Bool.false_ne_true
  · exact clear

theorem forgot_stays {page : Nat} (h : s.forgot part page) : (s.mapTlbs part (forgetDirty pages)).forgot part page := by
  intro c x hx own level meets
  rcases mem_tlbs hx with ⟨here, -⟩ | clear
  · exact h c x here own level meets
  · exact clear

theorem forgot_congr {t : State} {page : Nat} (h : s.forgot part page) (cores : t.cores = s.cores) (quads : t.quads = s.quads) :
    t.forgot part page := by
  intro c x hx
  rw [State.coreAt, State.quad, cores, quads] at hx
  exact h c x hx

end

/-! ### The lanes' turns -/

section
variable (s : State) (f : Fields)

/-- The segment of the lanes' ranges. -/
def harvestSeg : Nat := (SMap.get (0 : Word) s.curW.segs 0).toNat % 65536
/-- The offset of a lane's range. -/
def harvestBase (j : Nat) : Nat := (s.curW.pairA f j).toNat
/-- The pages of a lane's range. -/
def harvestCount (j : Nat) : Nat := min (s.curW.reg f.b.toNat j).toNat 32

/-- The page numbers of a lane's range. -/
def harvestPages (j : Nat) : List Nat :=
  (List.range (harvestCount s f j)).map fun i => (harvestSeg s * 2 ^ 64 + (harvestBase s f j + i * 2 ^ 18) % 2 ^ 64) / 2 ^ 18

/-- A lane's harvest in a state that the lanes before it have left, after its first pages. -/
def laneHarvest (t : State) (j n : Nat) : Harvest := harvestUpTo (s.ctxNo s.curWg) (harvestSeg s) (harvestBase s f j) t n

/-- What a lane's harvest gives. -/
def laneMap (t : State) (j : Nat) : Word := BitVec.ofNat 32 (laneHarvest s f t j (harvestCount s f j)).2.1

/-- The state in which a lane has harvested its range and has its map. -/
def laneMapped (t : State) (j : Nat) : State :=
  (laneHarvest s f t j (harvestCount s f j)).1.updCur fun w => w.setReg f.d.toNat j (laneMap s f t j)

/-- A lane's turn. -/
def harvestTurn (t : State) (j : Nat) : State :=
  if harvestCount s f j = 0 then laneMapped s f t j
  else (laneMapped s f t j).mapTlbs s.curPart (forgetDirty (harvestPages s f j))

/-- The state in which the first lanes have had their turns. -/
def harvestStage (q : Nat) : State := ((s.trueLanes f).take q).foldl (harvestTurn s f) (s.charge f)

/-- The dirty map of a lane. -/
def harvestMap (j : Nat) : Word := laneMap s f (harvestStage s f ((s.trueLanes f).idxOf j)) j

/-- The warp after the first lanes' turns. -/
def harvestWarp (q : Nat) (w : Warp) : Warp :=
  ((s.trueLanes f).take q).foldl (fun w j => w.setReg f.d.toNat j (harvestMap s f j)) w

/-- The state after all turns, in which the lanes wait for the partition's writes. -/
def harvested : State := (harvestStage s f (s.trueLanes f).length).updCur fun w =>
  w.waiting s (s.trueLanes f) (.writes s.curPart s.tag) f.len

variable {s f}

theorem take_of_getElem? {α : Type} {l : List α} {q : Nat} {a : α} (h : l[q]? = some a) : l.take (q + 1) = l.take q ++ [a] := by
  rw [List.take_add_one, h]; rfl

theorem take_of_none {α : Type} {l : List α} {q : Nat} (h : l[q]? = none) : l.take (q + 1) = l.take q := by
  rw [List.take_add_one, h]; exact List.append_nil _

theorem harvestStage_succ {q j : Nat} (h : (s.trueLanes f)[q]? = some j) :
    harvestStage s f (q + 1) = harvestTurn s f (harvestStage s f q) j := by
  rw [harvestStage, take_of_getElem? h, List.foldl_append]
  rfl

theorem harvestStage_end {q : Nat} (h : (s.trueLanes f)[q]? = none) : harvestStage s f (q + 1) = harvestStage s f q := by
  rw [harvestStage, take_of_none h]
  rfl

theorem harvestMap_of {q j : Nat} (h : (s.trueLanes f)[q]? = some j) : harvestMap s f j = laneMap s f (harvestStage s f q) j := by
  obtain ⟨hq, rfl⟩ := List.getElem?_eq_some_iff.1 h
  rw [harvestMap, (trueLanes_nodup s f).idxOf_getElem]

theorem restored_updCur (t s : State) (g : Warp → Warp) : (t.updCur g).restored s = (t.restored s).updCur g := rfl
theorem restored_mapTlbs (t s : State) (part : Nat) (g : TlbEntry → Option TlbEntry) : (t.mapTlbs part g).restored s = t.restored s := rfl
theorem mem_mapTlbs (t : State) (part : Nat) (g : TlbEntry → Option TlbEntry) : (t.mapTlbs part g).mem = t.mem := rfl

theorem restored_turn (t : State) (j : Nat) :
    (harvestTurn s f t j).restored s = (t.restored s).updCur fun w => w.setReg f.d.toNat j (laneMap s f t j) := by
  have frame : (laneHarvest s f t j (harvestCount s f j)).1.restored s = t.restored s := (harvestUpTo_frame _ s).1
  have mapped := (restored_updCur _ s _).trans (congrArg (fun u : State => u.updCur fun w => w.setReg f.d.toNat j (laneMap s f t j)) frame)
  unfold harvestTurn
  split
  · exact mapped
  · rw [restored_mapTlbs]; exact mapped

theorem mem_turn (t : State) (j : Nat) : (harvestTurn s f t j).mem = (laneHarvest s f t j (harvestCount s f j)).1.mem := by
  unfold harvestTurn
  split
  · exact updCur_mem ..
  · rw [mem_mapTlbs]; exact updCur_mem ..

theorem restored_stage (q : Nat) : (harvestStage s f q).restored s = s.updCur fun w => harvestWarp s f q (w.charged s f) := by
  induction q with
  | zero => rfl
  | succ q ih =>
    cases h : (s.trueLanes f)[q]? with
    | none =>
      rw [harvestStage_end h, ih]
      unfold harvestWarp
      rw [take_of_none h]
    | some j =>
      rw [harvestStage_succ h, restored_turn, ih, updCur_updCur, ← harvestMap_of h]
      unfold harvestWarp
      rw [take_of_getElem? h]
      simp only [List.foldl_append, List.foldl_cons, List.foldl_nil]

end

end Sys2Proof.Machine
end

section

/-!
# What `harvest` gives (R58, R273)
-/

namespace Sys2Proof.Machine

section
variable {s : State} {f : Fields}

/-! ### Execution -/

theorem walksAs_restored {t : State} {g : Warp → Warp} (h : t.restored s = s.updCur g) : s.WalksAs t :=
  have cregs : (t.restored s).cregs = s.cregs := (congrArg State.cregs h).trans (updCur_cregs s g)
  have pkg : (t.restored s).pkg = s.pkg := (congrArg State.pkg h).trans (updCur_pkg s g)
  have ctxs : (t.restored s).ctxs = s.ctxs := (congrArg State.ctxs h).trans (updCur_ctxs s g)
  have own : ∀ p o, (t.restored s).cregOf p o = s.cregOf p o := fun p o => by simp only [State.cregOf, cregs]
  ⟨fun p => own p _, pkg, ctxs⟩

theorem exec_harvest (runs : Runs (.harvest f) s) : exec (.harvest f) s = .next (harvested s f) := by
  have turns : exec (.harvest f) s = .next
      (((harvestStage s f (s.trueLanes f).length).waitLanes (s.trueLanes f) (.writes s.curPart s.tag) f.len).advanceLanes s.curWg s.curWarp
        (s.group.filter fun l => !(s.trueLanes f).contains l) f.len) := by
    show execHarvest f s = _
    have fields : (Instr.harvest f).fields = f := rfl
    refine (issueHeld_runs (held := s.cmdHeld f) _ runs rfl).trans ?_
    rw [fields, harvestStage, List.take_length]
    simp only [trueLanes_charge, curPart_charge, curW_charge, charged_segs, charged_pairA, charged_reg, harvestLane_eq]
    rfl
  have frame := restored_stage (s := s) (f := f) (s.trueLanes f).length
  have wg : ((harvestStage s f (s.trueLanes f).length).restored s).curWg = s.curWg := (congrArg State.curWg frame).trans (updCur_curWg ..)
  have warp : ((harvestStage s f (s.trueLanes f).length).restored s).curWarp = s.curWarp :=
    (congrArg State.curWarp frame).trans (updCur_curWarp ..)
  rw [turns, ← wg, ← warp]
  exact congrArg Host.Outcome.next (updCur_updCur (harvestStage s f (s.trueLanes f).length) _ _)

theorem restored_harvested : (harvested s f).restored s = s.updCur fun w =>
    (harvestWarp s f (s.trueLanes f).length (w.charged s f)).waiting s (s.trueLanes f) (.writes s.curPart s.tag) f.len := by
  rw [harvested, restored_updCur, restored_stage, updCur_updCur]

/-- The lanes' maps and waits, as an instruction's effects. -/
def harvestEffects (s : State) (f : Fields) : Effects :=
  { reg := fun r j => if r = f.d.toNat ∧ r ≠ 255 ∧ j ∈ s.trueLanes f then some (harvestMap s f j) else none
    lane := fun j x => if j ∈ s.trueLanes f then
      { x with pc := (s.curW.lane j).pc, wait := some ⟨.writes s.curPart s.tag, f.len⟩ } else x }

theorem executed_harvested : Executed s ((harvested s f).restored s) f (harvestEffects s f) := by
  rw [restored_harvested]
  refine executed_waiting (trueLanes_nodup s f) (trueLanes_sub s f) ?_ fun r l => ?_
  · rw [harvestWarp, List.take_length]
    exact regsOnly_foldl_setReg ..
  · rw [harvestWarp, List.take_length, reg_foldl_setReg, charged_reg]
    split <;> rfl

/-! ### Memory -/

/-- Memory when the lane in a place has harvested its first pages. -/
def harvestMem (s : State) (f : Fields) (q i : Nat) : Memory :=
  match (s.trueLanes f)[q]? with
  | some j => (laneHarvest s f (harvestStage s f q) j i).1.mem
  | none => (harvestStage s f q).mem

section
variable {q j : Nat} (here : (s.trueLanes f)[q]? = some j)
include here

theorem harvestMem_lane (i : Nat) : harvestMem s f q i = (laneHarvest s f (harvestStage s f q) j i).1.mem := by
  rw [harvestMem, here]

omit here in
theorem harvestMem_zero (q : Nat) : harvestMem s f q 0 = (harvestStage s f q).mem := by
  unfold harvestMem
  cases (s.trueLanes f)[q]? <;> rfl

theorem harvestMem_next : harvestMem s f (q + 1) 0 = harvestMem s f q (harvestCount s f j) := by
  rw [harvestMem_zero, harvestStage_succ here, mem_turn, harvestMem_lane here]

omit here in
theorem walksAs_lane (q j i : Nat) : s.WalksAs (laneHarvest s f (harvestStage s f q) j i).1 :=
  walksAs_restored ((harvestUpTo_frame i s).1.trans (restored_stage q))

/-- The leaf that a lane finds is the one of a walk in the memory so far. -/
theorem harvestFinds_iff {i e at_ : Nat} : harvestFinds (s.ctxNo s.curWg) (harvestSeg s) (harvestBase s f j) (harvestStage s f q) i e at_ ↔
    ∃ level, ({ s with mem := harvestMem s f q i } : State).walk (s.ctxNo s.curWg) (harvestVa (harvestSeg s) (harvestBase s f j) i) =
      .leaf e level at_ ∧ pteSound e = true := by
  rw [harvestMem_lane here, ← walk_of_mem (walksAs_lane q j i)]
  exact soundLeaf_eq_some

theorem harvestMem_same {i : Nat} (same : (laneHarvest s f (harvestStage s f q) j (i + 1)).1 = (laneHarvest s f (harvestStage s f q) j i).1) :
    harvestMem s f q (i + 1) = harvestMem s f q i := by
  rw [harvestMem_lane here, harvestMem_lane here, same]

/-! ### Maps -/

theorem getLsbD_map (i : Nat) : (harvestMap s f j).getLsbD i =
    (laneHarvest s f (harvestStage s f q) j (harvestCount s f j)).2.1.testBit i := by
  rw [harvestMap_of here, laneMap, BitVec.getLsbD_ofNat]
  by_cases low : i < 32
  · rw [decide_eq_true low, Bool.true_and]
  · have small : (laneHarvest s f (harvestStage s f q) j (harvestCount s f j)).2.1 < 2 ^ harvestCount s f j := harvestUpTo_small _
    have count : harvestCount s f j ≤ i := (Nat.min_le_right ..).trans (Nat.le_of_not_lt low)
    rw [decide_eq_false low, Bool.false_and, Nat.testBit_lt_two_pow (small.trans_le (Nat.pow_le_pow_right (by decide) count))]

theorem getLsbD_beyond {i : Nat} (beyond : harvestCount s f j ≤ i) : (harvestMap s f j).getLsbD i = false := by
  have small : (laneHarvest s f (harvestStage s f q) j (harvestCount s f j)).2.1 < 2 ^ harvestCount s f j := harvestUpTo_small _
  rw [getLsbD_map here, Nat.testBit_lt_two_pow (small.trans_le (Nat.pow_le_pow_right (by decide) beyond))]

/-! ### TLBs -/

omit here in
theorem forgot_turn {t : State} {page : Nat} (h : t.forgot s.curPart page) (j : Nat) : (harvestTurn s f t j).forgot s.curPart page := by
  obtain ⟨-, cores, quads⟩ := harvestUpTo_frame (ctx := s.ctxNo s.curWg) (seg := harvestSeg s) (base := harvestBase s f j) (v := t)
    (harvestCount s f j) s
  have mapped : (laneMapped s f t j).forgot s.curPart page :=
    forgot_congr h ((updCur_cores ..).trans cores) ((updCur_quads ..).trans quads)
  unfold harvestTurn
  split
  · exact mapped
  · exact forgot_stays mapped

omit here in
theorem forgot_stage {page q : Nat} (h : (harvestStage s f q).forgot s.curPart page) {n : Nat} (later : q ≤ n) :
    (harvestStage s f n).forgot s.curPart page := by
  induction n, later using Nat.le_induction with
  | base => exact h
  | succ n later ih =>
    cases place : (s.trueLanes f)[n]? with
    | none => rw [harvestStage_end place]; exact ih
    | some j => rw [harvestStage_succ place]; exact forgot_turn ih j

theorem forgot_harvested {page : Nat} (hp : page ∈ harvestPages s f j) : (harvested s f).forgot s.curPart page := by
  obtain ⟨hq, -⟩ := List.getElem?_eq_some_iff.1 here
  have some : harvestCount s f j ≠ 0 := fun none => by
    rw [harvestPages, none] at hp
    exact absurd hp List.not_mem_nil
  have now : (harvestStage s f (q + 1)).forgot s.curPart page := by
    rw [harvestStage_succ here, harvestTurn]
    rw [if_neg some]
    exact forgot_mapTlbs hp
  exact forgot_congr (forgot_stage now hq) (updCur_cores ..) (updCur_quads ..)

omit here in
/-- The page number of an address of the range. -/
theorem harvestVa_page (seg base i : Nat) : (seg * 2 ^ 64 + (base + i * 2 ^ 18) % 2 ^ 64) / 2 ^ 18 = harvestVa seg base i / 2 ^ 18 := by
  unfold harvestVa
  omega

omit here in
theorem mem_harvestPages {i : Nat} (hi : i < harvestCount s f j) :
    harvestVa (harvestSeg s) (harvestBase s f j) i / 2 ^ 18 ∈ harvestPages s f j :=
  List.mem_map.2 ⟨i, List.mem_range.2 hi, harvestVa_page ..⟩

end

/-! ### The whole -/

/-- What the statement says of one lane: its map, what becomes of memory at each of its pages, and that the TLBs forget them. -/
theorem harvest_lane {q j : Nat} (here : (s.trueLanes f)[q]? = some j) :
    let va (i : Nat) : Nat := harvestVa (harvestSeg s) (harvestBase s f j) i
    let h := harvestMem s f
    let finds (i e at_ : Nat) : Prop :=
      ∃ level, ({ s with mem := h q i } : State).walk (s.ctxNo s.curWg) (va i) = .leaf e level at_ ∧ pteSound e = true
    ∀ i, i < harvestCount s f j →
      ((¬∃ e at_, finds i e at_) → (harvestMap s f j).getLsbD i = false ∧ h q (i + 1) = h q i) ∧
      (∀ e at_, finds i e at_ →
        ((∀ i' e', i' < i → ¬finds i' e' at_) → (harvestMap s f j).getLsbD i = pteD e ∧
          h q (i + 1) = if pteD e then (h q i).write (s.canon at_) 16 (setBits e 6 6 0) else h q i) ∧
        ∀ i' e', i' < i → finds i' e' at_ → (harvestMap s f j).getLsbD i = (harvestMap s f j).getLsbD i' ∧ h q (i + 1) = h q i) := by
  intro va h finds i hi
  have found (i e at_ : Nat) : finds i e at_ ↔
      harvestFinds (s.ctxNo s.curWg) (harvestSeg s) (harvestBase s f j) (harvestStage s f q) i e at_ := (harvestFinds_iff here).symm
  simp only [found, getLsbD_map here]
  refine ⟨fun none => ?_, fun e at_ finds => ⟨fun first => ?_, fun i' e' before finds' => ?_⟩⟩
  · obtain ⟨bit, same⟩ := harvest_absent hi fun e at_ found => none ⟨e, at_, found⟩
    exact ⟨bit, harvestMem_same here same⟩
  · obtain ⟨bit, next⟩ := harvest_first hi finds first
    have mem := congrArg State.mem next
    refine ⟨bit, ?_⟩
    show harvestMem s f q (i + 1) = if pteD e then (harvestMem s f q i).write _ _ _ else harvestMem s f q i
    rw [harvestMem_lane here, harvestMem_lane here, ← canon_eq (walksAs_lane q j i).stripes]
    refine mem.trans ?_
    split <;> rfl
  · obtain ⟨bit, same⟩ := harvest_again hi finds before finds'
    exact ⟨bit, harvestMem_same here same⟩

end

end Sys2Proof.Machine
end

section

/-!
# Translation commands
-/

namespace Sys2Proof.Machine

section
variable {s : State} {f : Fields}

/-- Without a guard-true lane `harvest` is passed. -/
theorem harvest_none (none : s.trueLanes f = []) : Completes (.harvest f) s {} := by
  intro runs
  have nothing : (harvested s f).restored s = harvested s f := by
    rw [harvested, harvestStage, none]
    rfl
  have effects : harvestEffects s f = {} := by
    unfold harvestEffects
    rw [none]
    simp
  have done := executed_harvested (s := s) (f := f)
  rw [nothing, effects] at done
  exact ⟨_, exec_harvest runs, done⟩

end

section
variable {s : State} {agent part : Nat}

/-- A command that the fault agent writes while none is busy starts. -/
theorem agentCommand_idle (hp : part < 16) (may : s.mayWrite agent (cmdBlock part) = true) (idle : s.busy part = false) {i : Instr} {op : Nat}
    (hc : (i, op) ∈ agentCommands agent part) (known : 1 ≤ op) (knows : op ≤ 4) :
    exec i s = .next (s.startCmd part op (s.cmdFirst part) (if op = 4 then s.creg (cmdBlock part + 16) else 1)) := by
  rw [← fltcmd_idle may idle known knows]
  exact exec_agentCommand hp hc

/-- A command that the fault agent writes while one is busy sets CMDERR. -/
theorem agentCommand_busy (hp : part < 16) (may : s.mayWrite agent (cmdBlock part) = true) (busy : s.busy part = true) {c : Instr × Nat}
    (hc : c ∈ agentCommands agent part) : ∃ t, exec c.1 s = .next t ∧ t = { s with cregs := t.cregs } ∧
      t.field (cmdBlock part + 0x14) 0 0 = 1 ∧ ∀ off, off ≠ cmdBlock part + 0x14 → t.creg off = s.creg off := by
  refine ⟨s.setField (cmdBlock part + 0x14) 0 0 1, ?_, rfl, field_setField_same s (by omega) (by omega) 1,
    fun off away => creg_setCreg_other s _ away⟩
  rw [← fltcmd_busy may busy c.2]
  exact exec_agentCommand hp hc

/-- Every command that the fault agent writes starts, or sets CMDERR. -/
theorem agentCommands_write (hp : part < 16) (may : s.mayWrite agent (cmdBlock part) = true) :
    ∀ c ∈ [(Instr.replayAll agent part, 1, 1), (.cancelAll agent part, 2, 1), (.cancelPage agent part, 3, 1),
      (.invalidateRange agent part, 4, s.creg (cmdBlock part + 16))],
    (s.busy part = false → exec c.1 s = .next (s.startCmd part c.2.1 (s.cmdFirst part) c.2.2)) ∧
      (s.busy part = true → ∃ t, exec c.1 s = .next t ∧ t = { s with cregs := t.cregs } ∧ t.field (cmdBlock part + 0x14) 0 0 = 1 ∧
        ∀ off, off ≠ cmdBlock part + 0x14 → t.creg off = s.creg off) := by
  have both {i : Instr} {op : Nat} (hc : (i, op) ∈ agentCommands agent part) (known : 1 ≤ op) (knows : op ≤ 4) :=
    And.intro (fun idle => agentCommand_idle hp may idle hc known knows) fun busy => agentCommand_busy hp may busy hc
  simp only [List.forall_mem_cons]
  exact ⟨both (op := 1) (by simp [agentCommands]) (by decide) (by decide), both (op := 2) (by simp [agentCommands]) (by decide) (by decide),
    both (op := 3) (by simp [agentCommands]) (by decide) (by decide), both (op := 4) (by simp [agentCommands]) (by decide) (by decide),
    fun _ h => nomatch h⟩

end

/-- Settles O45: the command instructions by the one `command` they share, `harvest` lane by lane and page by page, and the fault agent's
writes. -/
theorem translationCommands : Obligations.TranslationCommands := by
  unfold Obligations.TranslationCommands
  refine ⟨fun f s => ⟨fun none => ?_, fun lanes barred may => commands_refused lanes barred may,
      fun lanes => ⟨fun reaches => ?_, fun runs => ?_⟩⟩,
    fun u part op first n _ known knows => commandBegun u known knows, fun s agent part hp may => agentCommands_write hp may,
    fun s part ready _ => faultCommandComplete ready, fun s agent quad part v hq hp => ⟨fun may => ?_, fun may => ?_, fun may => ?_⟩,
    fun s agent part quad v hp hq p h mayNot => faultWrite_audited v hp hq h mayNot⟩
  · have commands := commands_none none
    simp only [List.forall_mem_cons] at commands ⊢
    obtain ⟨tlbinv, rest⟩ := commands
    exact ⟨tlbinv, harvest_none none, rest⟩
  · exact commands_complete lanes reaches
  · refine ⟨harvested s f, harvestMap s f, exec_harvest runs, executed_harvested, harvestMem s f, harvestMem_zero 0,
      (harvestMem_zero _).symm, fun q j here => ⟨harvestMem_next here, fun i beyond => getLsbD_beyond here beyond, fun i hi => ?_⟩⟩
    obtain ⟨absent, found⟩ := harvest_lane here i hi
    exact ⟨absent, found, fun c x hx own level meets => forgot_harvested here (mem_harvestPages hi) c x hx own level meets⟩
  · exact fbovfWrite_writes v hq may
  · exact fbstatWrite_writes v hq may
  · exact fltstatWrite_writes v hp may

end Sys2Proof.Machine
end

section

/-!
# Shifts, bit fields, byte selection and pairs (R252, R253)
-/

namespace Sys2Proof.Machine

section
variable {i : Instr} {s : State} {g : Warp → Nat → Word} {p : Warp → Nat → DWord}

/-- An instruction that writes one word per guard-true lane, and waits at issue for nothing. -/
theorem completes_writeD {v : Nat → Word} (means : exec i s = issueHeld i false s fun u => u.writeD i.fields g)
    (free : false = heldNow i s) (value : ∀ l, g (s.curW.charged s i.fields) l = v l) : Completes i s (toD i.fields s v) := by
  refine completes_of _ means free ?_
  rw [← funext value]
  exact writeD_executed s i.fields g

/-- An instruction that writes one pair per guard-true lane, and waits at issue for nothing. -/
theorem completes_writePair {v : Nat → DWord} (means : exec i s = issueHeld i false s fun u => u.writePair i.fields p)
    (free : false = heldNow i s) (value : ∀ l, p (s.curW.charged s i.fields) l = v l) : Completes i s (toPair i.fields s v) := by
  refine completes_of _ means free ?_
  rw [← funext value]
  exact writePair_executed s i.fields p

end

/-! ### Funnel shifts and rotations -/

theorem rotateLeft_eq (a : Word) (n : Nat) : a.rotateLeft (n % 32) = (a <<< (n % 32)) ||| (a >>> (32 - n % 32)) := by
  have small : n % 32 % 32 = n % 32 := Nat.mod_mod ..
  rw [BitVec.rotateLeft, small, BitVec.rotateLeftAux]

theorem toNat_append_words (a b : Word) : (a ++ b : DWord).toNat = a.toNat * 2 ^ 32 + b.toNat := by
  rw [BitVec.toNat_append, ← Nat.shiftLeft_add_eq_or_of_lt b.isLt, Nat.shiftLeft_eq]

theorem funnel_eq (right : Bool) (a b c : Word) : funnel right a b c =
    let n := c.toNat % 32
    let x : Nat := a.toNat * 2 ^ 32 + b.toNat
    if right then BitVec.ofNat 32 (x / 2 ^ n) else BitVec.ofNat 32 (x * 2 ^ n / 2 ^ 32) := by
  unfold funnel shiftCount
  cases right with
  | true =>
    apply BitVec.eq_of_toNat_eq
    simp only [if_true, BitVec.toNat_setWidth, BitVec.toNat_ushiftRight, toNat_append_words, Nat.shiftRight_eq_div_pow, BitVec.toNat_ofNat]
  | false =>
    apply BitVec.eq_of_toNat_eq
    simp only [Bool.false_eq_true, if_false, BitVec.toNat_setWidth, BitVec.toNat_ushiftRight, BitVec.toNat_shiftLeft, toNat_append_words,
      Nat.shiftRight_eq_div_pow, Nat.shiftLeft_eq, BitVec.toNat_ofNat]
    omega

/-! ### Bit fields -/

theorem fieldPos_eq (b : Word) :
    fieldPos b = (b.toNat % 32, min (b.toNat / 256 % 64) (32 - b.toNat % 32)) := by
  simp only [fieldPos, bits, Nat.sub_zero, Nat.pow_zero, Nat.div_one]
  rfl

theorem testBit_field (a : Word) (pos len i : Nat) :
    (a.toNat / 2 ^ pos % 2 ^ len).testBit i = (decide (i < len) && a.getLsbD (pos + i)) := by
  rw [Nat.testBit_mod_two_pow, Nat.testBit_div_two_pow, BitVec.testBit_toNat, Nat.add_comm]

/-- A field whose top bit is set, less 2 to its length, is the field with ones above it. -/
theorem getLsbD_negative {x len i : Nat} (below : x < 2 ^ len) (short : len ≤ 32) (hi : i < 32) :
    (BitVec.ofInt 32 ((x : Int) - 2 ^ len)).getLsbD i = if i < len then x.testBit i else true := by
  have wraps : ((x : Int) - 2 ^ len) % (2 ^ 32 : Nat) = ((2 ^ len * (2 ^ (32 - len) - 1) + x : Nat) : Int) % (2 ^ 32 : Nat) := by
    have whole : (2 : Nat) ^ len * 2 ^ (32 - len) = 2 ^ 32 := by rw [← pow_add, Nat.add_sub_cancel' short]
    have least : 2 ^ len ≤ 2 ^ 32 := Nat.pow_le_pow_right (by decide) short
    rw [Nat.mul_sub, whole, Nat.mul_one]
    have power : ((2 ^ len : Nat) : Int) = 2 ^ len := by push_cast; rfl
    rw [← power]
    generalize 2 ^ len = y at *
    omega
  have same : BitVec.ofInt 32 ((x : Int) - 2 ^ len) = BitVec.ofNat 32 (2 ^ len * (2 ^ (32 - len) - 1) + x) := by
    apply BitVec.eq_of_toNat_eq
    rw [BitVec.toNat_ofInt, wraps, BitVec.toNat_ofNat]
    rfl
  rw [same, BitVec.getLsbD_ofNat, Nat.testBit_two_pow_mul_add _ below, Nat.testBit_two_pow_sub_one, decide_eq_true hi, Bool.true_and]
  by_cases inside : i < len
  · rw [if_pos inside, if_pos inside]
  · rw [if_neg inside, if_neg inside]
    exact decide_eq_true (by omega)

theorem getLsbD_extractField (u : Bool) (a b : Word) {i : Nat} (hi : i < 32) :
    (extractField u a b).getLsbD i =
      let pos := b.toNat % 32
      let len := min (b.toNat / 256 % 64) (32 - pos)
      if i < len then a.getLsbD (pos + i) else decide (0 < len) && !u && a.getLsbD (pos + len - 1) := by
  have short : min (b.toNat / 256 % 64) (32 - b.toNat % 32) ≤ 32 := by omega
  simp only [extractField, fieldPos_eq]
  generalize b.toNat % 32 = pos at *
  generalize min (b.toNat / 256 % 64) (32 - pos) = len at *
  have bits := testBit_field a pos len
  have below : a.toNat / 2 ^ pos % 2 ^ len < 2 ^ len := Nat.mod_lt _ (Nat.two_pow_pos len)
  generalize a.toNat / 2 ^ pos % 2 ^ len = x at *
  by_cases empty : len = 0
  · simp [empty]
  have top : bit x (len - 1) = a.getLsbD (pos + len - 1) := by
    rw [bit_eq_testBit, bits, decide_eq_true (by omega), Bool.true_and, Nat.add_sub_assoc (by omega)]
  rw [if_neg empty, top, decide_eq_true (Nat.pos_of_ne_zero empty), Bool.true_and]
  cases negative : !u && a.getLsbD (pos + len - 1) with
  | true =>
    rw [if_pos rfl, getLsbD_negative below short hi]
    by_cases inside : i < len
    · rw [if_pos inside, if_pos inside, bits, decide_eq_true inside, Bool.true_and]
    · rw [if_neg inside, if_neg inside]
  | false =>
    rw [if_neg Bool.false_ne_true, BitVec.getLsbD_ofNat, bits, decide_eq_true hi, Bool.true_and]
    by_cases inside : i < len
    · rw [if_pos inside, decide_eq_true inside, Bool.true_and]
    · rw [if_neg inside, decide_eq_false inside, Bool.false_and]

theorem getLsbD_insertField (a b c : Word) {i : Nat} (hi : i < 32) :
    (insertField a b c).getLsbD i =
      let pos := b.toNat % 32
      let len := min (b.toNat / 256 % 64) (32 - pos)
      if pos ≤ i ∧ i < pos + len then a.getLsbD (i - pos) else c.getLsbD i := by
  simp only [insertField, fieldPos_eq]
  generalize b.toNat % 32 = pos
  generalize min (b.toNat / 256 % 64) (32 - pos) = len
  rw [BitVec.getLsbD_or, BitVec.getLsbD_and, BitVec.getLsbD_not, BitVec.getLsbD_ofNat, BitVec.getLsbD_ofNat, Nat.testBit_mul_two_pow,
    Nat.testBit_mul_two_pow, Nat.testBit_mod_two_pow, Nat.testBit_two_pow_sub_one, BitVec.testBit_toNat, decide_eq_true hi]
  by_cases low : pos ≤ i
  · by_cases inside : i - pos < len
    · rw [if_pos ⟨low, by omega⟩]; simp [low, inside]
    · rw [if_neg (by omega)]; simp [low, inside]
  · rw [if_neg (by omega)]; simp [low]

/-! ### Byte selection -/

theorem selectByte_lt (a b c : Word) (i : Nat) : selectByte a b c i < 256 := by
  unfold selectByte
  dsimp only
  split
  · split <;> omega
  · omega

theorem sumOf_four (g : Nat → Nat) : sumOf g (List.range 4) = g 0 + g 1 + g 2 + g 3 := by
  rw [show List.range 4 = [0, 1, 2, 3] by decide, sumOf, List.foldl_cons, List.foldl_cons, List.foldl_cons, List.foldl_cons, List.foldl_nil,
    Nat.zero_add]

theorem toNat_selectBytes (a b c : Word) : (selectBytes a b c).toNat =
    selectByte a b c 0 + 256 * (selectByte a b c 1 + 256 * (selectByte a b c 2 + 256 * selectByte a b c 3)) := by
  have := selectByte_lt a b c 0
  have := selectByte_lt a b c 1
  have := selectByte_lt a b c 2
  have := selectByte_lt a b c 3
  rw [selectBytes, BitVec.toNat_ofNat, sumOf_four]
  omega

/-- A byte of the result is the byte that its selector names. -/
theorem byte_selectBytes (a b c : Word) {i : Nat} (hi : i < 4) : (selectBytes a b c).toNat / 256 ^ i % 256 = selectByte a b c i := by
  have peel {x r : Nat} (hx : x < 256) : (x + 256 * r) / 256 = r ∧ (x + 256 * r) % 256 = x := by omega
  have first := selectByte_lt a b c 0
  have second := selectByte_lt a b c 1
  have third := selectByte_lt a b c 2
  rw [toNat_selectBytes]
  match i, hi with
  | 0, _ => rw [pow_zero, Nat.div_one, (peel first).2]
  | 1, _ => rw [pow_one, (peel first).1, (peel second).2]
  | 2, _ => rw [pow_succ', pow_one, ← Nat.div_div_eq_div_mul, (peel first).1, (peel second).1, (peel third).2]
  | 3, _ =>
    rw [pow_succ', pow_succ', pow_one, ← Nat.div_div_eq_div_mul, ← Nat.div_div_eq_div_mul, (peel first).1, (peel second).1, (peel third).1,
      Nat.mod_eq_of_lt (selectByte_lt a b c 3)]

theorem bit_seven {x : Nat} (h : x < 256) : bit x 7 = decide (128 ≤ x) := by
  rw [bit, beq_eq_decide]
  exact decide_eq_decide.2 (by omega)

theorem selectByte_eq (a b c : Word) (i : Nat) : selectByte a b c i =
    let x := (b.toNat * 2 ^ 32 + a.toNat) / 256 ^ (c.toNat / 8 ^ i % 8) % 256
    if c.getLsbD (12 + i) then (if c.getLsbD (16 + i) ∧ 128 ≤ x then 255 else 0) else x := by
  have three : bits c.toNat (3 * i + 2) (3 * i) = c.toNat / 8 ^ i % 8 := by
    rw [bits, Nat.add_sub_cancel_left, pow_mul]; rfl
  simp only [selectByte, three]
  have small : (b.toNat * 2 ^ 32 + a.toNat) / 256 ^ (c.toNat / 8 ^ i % 8) % 256 < 256 := Nat.mod_lt _ (by decide)
  simp only [bit_seven small, bit_eq_testBit, BitVec.testBit_toNat, Bool.and_eq_true, decide_eq_true_eq]

/-! ### Addresses -/

theorem extend64_eq (zero : Bool) (v : Word) : extend64 zero v = BitVec.ofInt 64 (int zero v) := by
  cases zero with
  | true =>
    apply BitVec.eq_of_toNat_eq
    simp [extend64, int]
  | false => rfl

theorem lea_eq (p : DWord) (zero : Bool) (v : Word) (n : Nat) :
    p + extend64 zero v <<< n = BitVec.ofInt 64 (p.toNat + int zero v * 2 ^ n) := by
  have whole : BitVec.ofInt 64 (p.toNat : Int) = p := by rw [BitVec.ofInt_natCast]; exact BitVec.ofNat_toNat ..
  have power : BitVec.ofInt 64 (2 ^ n) = BitVec.twoPow 64 n := by
    have nat : (2 : Int) ^ n = ((2 ^ n : Nat) : Int) := by push_cast; rfl
    rw [nat, BitVec.ofInt_natCast]
    apply BitVec.eq_of_toNat_eq
    rw [BitVec.toNat_twoPow, BitVec.toNat_ofNat]
  rw [BitVec.ofInt_add, BitVec.ofInt_mul, whole, power, extend64_eq, BitVec.shiftLeft_eq_mul_twoPow]

/-- Settles O4: each instruction writes the word or the pair that the model computes, which is what R252 and R253 say. -/
theorem shiftsFieldsAndPairs : Obligations.ShiftsFieldsAndPairs := by
  unfold Obligations.ShiftsFieldsAndPairs
  refine ⟨fun f s => ⟨?_, ?_, ?_, ?_, ?_⟩, 
    ⟨fun f s => ⟨fun l => extractField (f.mbit 0) (opA f s l) (opB f s l), ?_, fun l i hi => getLsbD_extractField _ _ _ hi⟩,
      fun f s => ⟨fun l => insertField (opA f s l) (opB f s l) (opC f s l), ?_, fun l i hi => getLsbD_insertField _ _ _ hi⟩,
      fun f s => ⟨fun l => selectBytes (opA f s l) (opB f s l) (opC f s l), ?_,
        fun l i hi => (byte_selectBytes _ _ _ hi).trans (selectByte_eq ..)⟩⟩,
    fun f s => ⟨?_, ?_, ?_, ?_, ?_⟩⟩
  · exact completes_writeD rfl rfl fun l => by rw [charged_srcA, charged_srcB]; rfl
  · exact completes_writeD rfl rfl fun l => by rw [charged_srcA, charged_srcB]; rfl
  · exact completes_writeD rfl rfl fun l => by rw [charged_srcA, charged_srcB]; rfl
  · exact completes_writeD rfl rfl fun l => by rw [charged_srcA, charged_srcB]; exact rotateLeft_eq ..
  · exact completes_writeD rfl rfl fun l => by rw [charged_srcA, charged_srcB, charged_srcC]; exact funnel_eq ..
  · exact completes_writeD rfl rfl fun l => by rw [charged_srcA, charged_srcB]
  · exact completes_writeD rfl rfl fun l => by rw [charged_srcA, charged_srcB, charged_srcC]
  · exact completes_writeD rfl rfl fun l => by rw [charged_srcA, charged_srcB, charged_srcC]
  · exact completes_writePair rfl rfl fun l => by rw [charged_pairA, charged_pairB]
  · exact completes_writePair rfl rfl fun l => by rw [charged_pairA, charged_pairB]
  · exact completes_writePair rfl rfl fun l => by rw [charged_pairA, charged_srcB]
  · exact completes_writePair rfl rfl fun l => by rw [charged_pairA, charged_srcB]
  · exact completes_writePair rfl rfl fun l => by rw [charged_pairA, charged_srcB]; exact lea_eq ..

end Sys2Proof.Machine
end

section

/-!
# Failed checks and failed fetches (R195, R236, R389)
-/

namespace Sys2Proof.Machine

/-! ### Every instruction is issued -/

/-- An outcome is that of the instruction's issue. -/
def Issues (i : Instr) (s : State) (o : Host.Outcome State Fault Refusal) : Prop := ∃ held k, o = issueHeld i held s k

theorem issues_issueHeld (i : Instr) (held : Bool) (s : State) (k : State → State) : Issues i s (issueHeld i held s k) := ⟨_, _, rfl⟩

theorem issues_issue (i : Instr) (s : State) (k : State → State) : Issues i s (issue i s k) := ⟨_, _, rfl⟩

/-- The meaning of every instruction is an issue (R184, R190, R195, R236). -/
theorem exec_issues {i : Instr} {f : Fields} (fields : i.fields? = some f) (s : State) : Issues i s (exec i s) := by
  unfold exec
  cases i <;> cases fields <;> dsimp only
  case mxi | mxs | mxv | mxn | mxsa | mxz | mxmvSt | mxmvLd | mxmvTt | wbinv | cpy | cpym | cpyw | tlbinv | harvest | replay | replayCancel
      | replayPage | qpollSend | coll =>
    exact issues_issueHeld ..
  all_goals exact issues_issue ..

section
variable {i : Instr} {f : Fields} {s : State} (fields : i.fields? = some f) (can : s.canIssue = true) (fresh : s.spent = none)
  (may : canTrap s)
include fields

theorem fields_of : i.fields = f := by rw [Instr.fields, fields]; rfl

include can fresh

/-- A check that fails is a trap of the charged state. -/
theorem exec_fails {t : Trap} (fails : precheck i s = some t) : exec i s = .next ((s.charge f).takeTrap s.curWg s.curWarp t) := by
  obtain ⟨held, k, issues⟩ := exec_issues fields s
  rw [issues, issueHeld, if_pos can, fails, fresh, fields_of fields]
  cases held <;> rfl

include may

theorem exec_traps {t : Trap} (fails : precheck i s = some t) (known : t.cause < 32) :
    ∃ u, exec i s = .next u ∧ Trapped (s.charge f) u t.cause t.detail t.pc t.va t.mask :=
  ⟨_, exec_fails fields can fresh fails, takeTrap_trapped (canTrap_charge f may) known⟩

end

/-! ### The checks in their order (R236) -/

/-- The trap of an instruction that is no encoding, or names what is not declared. -/
def State.illegalTrap (s : State) : Trap := { cause := 1, pc := s.curPc, mask := s.curMask }

/-- An instruction of a kernel that is no encoding, or names a register that is not declared (R62). -/
theorem precheck_illegal {i : Instr} {s : State} (kernel : s.curW.handler = false)
    (bad : i.shapeOk = false ∨ ¬∀ r ∈ i.regs, r < (s.packet s.curWg).home + (s.packet s.curWg).travel) :
    precheck i s = some s.illegalTrap := by
  have fails : i.shapeOk = false ∨ declaredOk i i.fields (s.packet s.curWg) s.curW.handler = false := by
    refine bad.imp_right fun undeclared => Bool.eq_false_iff.2 fun declared => undeclared ?_
    simp only [declaredOk, kernel, Bool.and_eq_true, List.all_eq_true, Bool.false_and, Bool.or_false, decide_eq_true_eq] at declared
    exact declared.1.1.1.1.1.1
  unfold precheck
  dsimp only
  rw [if_pos]
  · rfl
  · rcases fails with h | h <;> simp [h]

/-- Role, privilege and lost stores, for an instruction that passes the checks before them. -/
theorem precheck_later {i : Instr} {s : State} (first : precheck i s ≠ some s.illegalTrap) (acts : s.trueLanes i.fields ≠ []) :
    precheck i s =
      if i.roleOk ((s.packet s.curWg).role s.curWarp).1 = false then some { cause := 4, pc := s.curPc, mask := maskOf (s.trueLanes i.fields) }
      else if i.privileged = true ∧ s.ctxPriv (s.ctxNo s.curWg) = false then
        some { cause := 3, pc := s.curPc, mask := maskOf (s.trueLanes i.fields) }
      else s.lostTrap i (s.trueLanes i.fields) := by
  have lane : (s.trueLanes i.fields).isEmpty = false := by simpa using acts
  unfold precheck at first ⊢
  dsimp only at first ⊢
  refine (if_neg fun fails => first (if_pos fails)).trans ?_
  rw [lane, if_neg Bool.false_ne_true]
  simp only [Bool.not_eq_true', Bool.and_eq_true]

/-! ### The fetch (R225, R236) -/

theorem lenBytes_eq {n : Nat} (h : n < 3) : lenBytes (BitVec.ofNat 2 n) = [8, 12, 16].getD n 0 := by
  interval_cases n <;> rfl

section
variable {s : State}

/-- The translation of the issuing group's fetch. -/
def State.fetchTr (s : State) : State × Tr × Nat :=
  s.translate s.curG.core (s.ctxNo s.curWg) (s.codeVa s.curWg s.curPc) .fetch false

variable (clear : s.pageHeld s.curG.core (s.ctxNo s.curWg) (s.codeVa s.curWg s.curPc / 2 ^ 18) = none)
include clear

theorem fetchGroup_absent {level : Nat} (h : s.fetchTr.2.1 = .absent level) : s.fetchGroup = .parks s.fetchTr.1 level := by
  unfold State.fetchTr at *
  simp only [State.fetchGroup, clear, h, State.homeTr, State.fetched]

theorem fetchGroup_prot {detail : Nat} (h : s.fetchTr.2.1 = .prot detail) : s.fetchGroup =
    .fails (if detail = 6 then s.fetchTr.1.auditEvent 1 (s.ctxNo s.curWg) (s.codeVa s.curWg s.curPc) else s.fetchTr.1) 7 detail := by
  unfold State.fetchTr at *
  simp only [State.fetchGroup, clear, h, State.homeTr, State.fetched, State.auditTr, Tr.prot.injEq]

variable {page cpol : Nat} (found : s.fetchTr.2.1 = .ok page cpol) (home : s.fetchTr.1.homeChecks page s.fetchTr.2.2 4 = none)
include found home

/-- What a fetch from a page comes to, by what its bytes are. -/
theorem fetchGroup_found : s.fetchGroup = match fetchBytes s.curPc.toNat (s.fetchTr.1.bytesAt (keyLaunch s.curWg) page) with
    | .absent level => .parks s.fetchTr.1 level
    | .prot d => .fails s.fetchTr.1 7 d
    | .boundary => .fails s.fetchTr.1 2 0
    | .illegal => .fails s.fetchTr.1 1 0
    | .insn i => .run s.fetchTr.1 i := by
  unfold State.fetchTr at *
  simp only [State.fetchGroup, clear, found, State.homeTr, home, State.fetched, State.auditTr, reduceCtorEq, if_false] <;> rfl

end

/-- R236, steps 1 to 5, by the bytes of a fetch. -/
theorem fetchBytes_cases (pc : Nat) (bs : List Byte) :
    let len := (bs.headD 0).toNat % 4
    (pc % 4 ≠ 0 → fetchBytes pc bs = .boundary) ∧
    (pc % 4 = 0 → len = 3 → fetchBytes pc bs = .illegal) ∧
    (pc % 4 = 0 → len < 3 → 32 < pc % 32 + [8, 12, 16].getD len 0 → fetchBytes pc bs = .boundary) ∧
    (pc % 4 = 0 → len < 3 → pc % 32 + [8, 12, 16].getD len 0 ≤ 32 →
      (∀ i n, decode bs = .ok (i, n) → fetchBytes pc bs = .insn i) ∧ ∀ e, decode bs = .error e → fetchBytes pc bs = .illegal) := by
  unfold fetchBytes
  dsimp only
  refine ⟨fun off => ?_, fun on three => ?_, fun on short crosses => ?_, fun on short inside => ⟨fun i n gives => ?_, fun e fails => ?_⟩⟩
  · rw [if_pos (by simpa using off)]
  · rw [if_neg (by simpa using on), if_pos three]
  · rw [if_neg (by simpa using on), if_neg (by omega), lenBytes_eq short, if_pos crosses]
  · rw [if_neg (by simpa using on), if_neg (by omega), lenBytes_eq short, if_neg (by omega), gives]
  · rw [if_neg (by simpa using on), if_neg (by omega), lenBytes_eq short, if_neg (by omega), fails]

/-! ### A fetch that fails -/

/-- The causes of a fetch that fails: PROT, FETCH_BOUNDARY, ILLEGAL. -/
theorem fetchGroup_fails {s u : State} {cause detail : Nat} (h : s.fetchGroup = .fails u cause detail) :
    cause = 7 ∨ cause = 2 ∨ cause = 1 := by
  unfold State.fetchGroup at h
  dsimp only at h
  split at h
  · cases h
  · split at h <;> cases h <;> simp

theorem synced_fails {a : Attempt} {u : State} {cause detail : Nat} (h : a.synced = .fails u cause detail) : a = .fails u cause detail := by
  cases a with
  | fails v c d => exact h
  | idle v | trap v t | parks v l | run v i => cases h

/-- An attempt fails only by the fetch of the group that the vote chose. -/
theorem attempt_fails {s u : State} {k w cause detail : Nat} (h : s.attempt k w = .fails u cause detail) :
    ∃ v : State, v.fetchGroup = .fails u cause detail := by
  unfold State.attempt at h
  split at h
  · cases h
  split at h
  · cases h
  dsimp only at h
  split at h
  · cases h
  · next g v _ =>
    rcases parked : List.find? Attempt.isParks _ with _ | a
    · rw [parked] at h
      exact ⟨_, synced_fails h⟩
    · rw [parked] at h
      have parks := List.find?_some parked
      rw [show a = .fails u cause detail from h] at parks
      cases parks

section
variable {u : State} (fresh : u.spent = none) (may : canTrap u)
include fresh may

/-- A fetch that fails is charged, and traps every thread of the group. -/
theorem failFetch_trapped {cause : Nat} (known : cause < 32) (detail : Nat) :
    Trapped (u.charge plainFields) (u.failFetch cause detail) cause detail u.curPc
      (if cause = 7 then BitVec.ofNat 80 (u.codeVa u.curWg u.curPc) else 0) u.curMask := by
  rw [State.failFetch, fresh]
  exact takeTrap_trapped (canTrap_charge plainFields may) known

end

theorem step_issue_fails {s u : State} {k w cause detail : Nat} {as : List Act} (next : s.sched = .issue k w :: as)
    (fails : { s with sched := as }.attempt k w = .fails u cause detail) : step s = thenPass (.next (u.failFetch cause detail)) := by
  rw [step, State.cycle, next]
  show thenPass (State.issueWarp _ k w) = _
  rw [State.issueWarp, fails]

/-- Settles O20: the fetch by what its bytes are, and the checks in their order, each failure one trap of the charged state. -/
theorem failedChecksTrap : Obligations.FailedChecksTrap := by
  unfold Obligations.FailedChecksTrap
  refine ⟨fun s clear => ⟨fun level absent => fetchGroup_absent clear absent, fun detail prot => fetchGroup_prot clear prot,
    fun page cpol found home => ?_⟩, fun s u k w cause detail as next fails fresh may => ?_, fun i f s fields can fresh may => ⟨fun bad => ?_,
    fun first acts => ?_⟩⟩
  · have gives := fetchGroup_found clear found home
    obtain ⟨off, three, crosses, inside⟩ := fetchBytes_cases s.curPc.toNat (s.fetchTr.1.bytesAt (keyLaunch s.curWg) page)
    refine ⟨fun h => ?_, fun h h' => ?_, fun h h' h'' => ?_, fun h h' h'' => ⟨fun i n ok => ?_, fun e error => ?_⟩⟩
    · rw [gives, off h]; rfl
    · rw [gives, three h h']; rfl
    · rw [gives, crosses h h' h'']; rfl
    · rw [gives, (inside h h' h'').1 i n ok]; rfl
    · rw [gives, (inside h h' h'').2 e error]; rfl
  · obtain ⟨v, fetch⟩ := attempt_fails fails
    have known : cause < 32 := by rcases fetchGroup_fails fetch with rfl | rfl | rfl <;> decide
    exact ⟨_, step_issue_fails next fails, failFetch_trapped fresh may known detail⟩
  · have kernel : s.curW.handler = false := may.1
    exact exec_traps fields can fresh may (precheck_illegal kernel bad) (show 1 < 32 by decide)
  · have later := precheck_later first (fields_of fields ▸ acts)
    rw [fields_of fields] at later
    refine ⟨fun role => ?_, fun role privileged unprivileged => ?_⟩
    · rw [if_pos role] at later
      exact exec_traps fields can fresh may later (show 4 < 32 by decide)
    · rw [role, if_neg Bool.true_eq_false.mp, if_pos ⟨privileged, unprivileged⟩] at later
      exact exec_traps fields can fresh may later (show 3 < 32 by decide)

end Sys2Proof.Machine
end

section

/-!
# Scratch and full/empty words: a record with the number of the next instruction

A request leaves the machine as the last of its instruction, and then lowers the class counter, unless another request of the
instruction's number is in flight, or stands in a record of its workgroup that a save has taken (R107, R190; `State.retire`).
-/

namespace Sys2Proof.Machine

/-- `stfe` of `g2` at the scratch address in `g4`. -/
def stfeWord : Fields := { plainFields with a := 4, b := 2, mod := 1 }

/-- A record of a request whose instruction has number 100. -/
def record100 : Req := { Tests.reqOf (.stfe stfeWord) .waiter with group := 100 }

/-- The demonstration state, whose next instruction has number 100, with one lane, and with that record in its workgroup. -/
def recordedNext : State := { Tests.demo 2 [] with curMask := 1 }.updCurG fun g => { g with recs := [.inl record100] }

theorem recordedNext_runs : Runs (.stfe stfeWord) recordedNext := Tests.runs_of (by decide +kernel)

/-- The word is filled, and STC has risen and not fallen. -/
theorem recordedNext_counts : (Tests.ran (.stfe stfeWord) recordedNext).curW.stc = 1 ∧ recordedNext.curW.stc = 0 := by decide +kernel

theorem recordedNext_meets : recordedNext.trueLanes stfeWord = [0] ∧ recordedNext.reqs = [] ∧
    (recordedNext.coreAt recordedNext.curG.core).storeBad = [] ∧
    (pairA stfeWord recordedNext 0 + stfeWord.disp).toNat % 2 ^ 32 = 0 ∧ 4 ≤ (recordedNext.packet recordedNext.curWg).scratch ∧
    SMap.get false recordedNext.curG.fe 0 = false := by decide +kernel

/-- A change of the issuing workgroup's objects leaves its warps. -/
theorem curW_updCurG (s : State) {change : Workgroup → Workgroup} (same : (change s.curG).warps = s.curG.warps) :
    (s.updCurG change).curW = s.curW := by
  have issuing : (s.updCurG change).curG = change s.curG := wg_updWg_same ..
  show (s.updCurG change).curG.warp s.curWarp = s.curG.warp s.curWarp
  rw [issuing, Workgroup.warp, same]
  rfl

/-- Refutes O36: where a workgroup holds a record with the number of its next instruction, an `stfe` that fills its word does not lower
STC again, which the statement gives as it was before. -/
theorem not_scratchAndFullEmptyWords : ¬ Obligations.ScratchAndFullEmptyWords := by
  unfold Obligations.ScratchAndFullEmptyWords
  rintro ⟨-, words⟩
  obtain ⟨-, oneLane, -⟩ := words stfeWord recordedNext
  obtain ⟨lane, idle, sound, address, inside, empty⟩ := recordedNext_meets
  obtain ⟨-, fills, -⟩ := oneLane 0 lane idle sound (by rw [address]) (by rw [address]; exact inside)
  obtain ⟨late, chains, -, completes⟩ := fills (by rw [address]; exact empty)
  obtain ⟨u, next, executed⟩ := completes recordedNext_runs
  have kept : u.curW.stc = recordedNext.curW.stc := by rw [executed.warp]
  have ran : (Tests.ran (.stfe stfeWord) recordedNext).curW.stc = u.curW.stc := by
    rw [Tests.ran, next]
    exact congrArg Warp.stc (curW_updCurG _ rfl)
  obtain ⟨after, before⟩ := recordedNext_counts
  rw [after, kept, before] at ran
  exact absurd ran (by decide)

end Sys2Proof.Machine
end

section

/-!
# Dispatch: the groups of a launch become resident (R65, R192, R195, R384, R386)
-/

namespace Sys2Proof.Machine

/-! ### What changes workgroups and cores only -/

/-- `t` is `s` but for its workgroups and cores. -/
def State.PlacesOnly (s t : State) : Prop := t = { s with wgs := t.wgs, cores := t.cores }

section
variable {s t u : State}

theorem placesOnly_refl (s : State) : s.PlacesOnly s := rfl

theorem State.PlacesOnly.trans (h : s.PlacesOnly t) (h' : t.PlacesOnly u) : s.PlacesOnly u := by
  rw [State.PlacesOnly, h', h]

theorem placesOnly_updWarp (s : State) (k w : Nat) (g : Warp → Warp) : s.PlacesOnly (s.updWarp k w g) := rfl

theorem placesOnly_updCore (s : State) (c : Nat) (g : Core → Core) : s.PlacesOnly (s.updCore c g) := rfl

theorem placesOnly_foldl {α : Type} {g : State → α → State} (hg : ∀ s a, State.PlacesOnly s (g s a)) (l : List α) (s : State) :
    s.PlacesOnly (l.foldl g s) := by
  induction l generalizing s with
  | nil => exact placesOnly_refl s
  | cons a l ih => exact (hg s a).trans (ih _)

theorem State.PlacesOnly.launch (h : s.PlacesOnly t) : t.launch = s.launch := by rw [h]; rfl
theorem State.PlacesOnly.packet (h : s.PlacesOnly t) : t.packet = s.packet := by rw [h]; rfl
theorem State.PlacesOnly.cyc (h : s.PlacesOnly t) : t.cyc = s.cyc := by rw [h]
theorem State.PlacesOnly.segImage (h : s.PlacesOnly t) : t.segImage = s.segImage := by
  have canon : t.canon = s.canon := canon_eq fun p => by rw [h]; rfl
  have parts : t.mem = s.mem ∧ t.pkg = s.pkg ∧ t.ctxs = s.ctxs := by rw [h]; exact ⟨rfl, rfl, rfl⟩
  funext c
  simp only [State.segImage, State.memRead, State.own, State.ctx, canon, parts]

theorem placesOnly_enterActive (s : State) (x : Nat × Nat) : s.PlacesOnly (s.enterActive x) := placesOnly_updWarp ..
theorem placesOnly_leaveActive (s : State) (x : Nat × Nat) : s.PlacesOnly (s.leaveActive x) := placesOnly_updWarp ..

theorem placesOnly_joinActive (s : State) (k : Nat) : s.PlacesOnly (s.joinActive k) :=
  placesOnly_foldl (fun s w => by split; exacts [placesOnly_enterActive s _, placesOnly_refl s]) _ s

end

/-! ### A workgroup at its start -/

/-- What the start of a workgroup fixes, and entries into the active sets leave. -/
structure StartsAs (p : Packet) (segs : SMap Word) (g : Workgroup) : Prop where
  resident : g.status = .resident
  bars : g.bars = startBars p
  segImage : ∀ n < p.warps, (g.warp n).segs = segs
  regs : ∀ n < p.warps, (g.warp n).regs = (startWarp p segs n 0 0).regs
  lanes : ∀ n < p.warps, (g.warp n).lanes = (startWarp p segs n 0 0).lanes

/-- The value of a list of numbered values. -/
theorem get_numbered {α : Type} (d : α) (g : Nat → α) {n i : Nat} (h : i < n) : SMap.get d ((List.range n).map fun j => (j, g j)) i = g i := by
  suffices ∀ (l : List Nat), i ∈ l → SMap.get d (l.map fun j => (j, g j)) i = g i from this _ (List.mem_range.2 h)
  intro l hi
  induction l with
  | nil => cases hi
  | cons j l ih =>
    rw [List.map_cons, SMap.get]
    split
    · next e => rw [e]
    · next e => exact ih ((List.mem_cons.1 hi).resolve_left (Ne.symm e))

section
variable {s : State} {p : Packet} {segs : SMap Word}

theorem startsAs_enterActive {j : Nat} (x : Nat × Nat) (h : StartsAs p segs (s.wg j)) : StartsAs p segs ((s.enterActive x).wg j) := by
  have warp (n : Nat) : ((s.enterActive x).wg j).warp n =
      if j = x.1 ∧ n = x.2 then _ else (s.wg j).warp n := warp_updWarp s x.1 x.2 j n _
  have rest : ((s.enterActive x).wg j).status = (s.wg j).status ∧ ((s.enterActive x).wg j).bars = (s.wg j).bars := by
    rw [State.enterActive, State.updWarp, wg_updWg]
    split
    · next e => rw [e]; exact ⟨rfl, rfl⟩
    · exact ⟨rfl, rfl⟩
  refine ⟨rest.1.trans h.resident, rest.2.trans h.bars, fun n hn => ?_, fun n hn => ?_, fun n hn => ?_⟩ <;> rw [warp] <;> split
  · next e => obtain ⟨rfl, rfl⟩ := e; exact h.segImage _ hn
  · exact h.segImage n hn
  · next e => obtain ⟨rfl, rfl⟩ := e; exact h.regs _ hn
  · exact h.regs n hn
  · next e => obtain ⟨rfl, rfl⟩ := e; exact h.lanes _ hn
  · exact h.lanes n hn

theorem startsAs_joinActive {j : Nat} (k : Nat) (h : StartsAs p segs (s.wg j)) : StartsAs p segs ((s.joinActive k).wg j) := by
  unfold State.joinActive
  generalize List.range _ = l
  induction l generalizing s with
  | nil => exact h
  | cons w l ih =>
    refine ih ?_
    dsimp only
    split
    · exact startsAs_enterActive _ h
    · exact h

end

/-- The workgroup that a start puts onto a core, before its warps enter their active sets. -/
theorem occupy_places (s : State) (k core : Nat) (g : Workgroup) :
    ∃ (u : State) (g' : Workgroup), s.occupy k core g = ({ u with wgs := SMap.set {} u.wgs k g' }).joinActive k ∧ s.PlacesOnly u ∧ u.wgs = s.wgs ∧
      g'.status = .resident ∧ g'.bars = g.bars ∧ ∀ w < (s.packet k).warps, (g'.warp w).segs = (g.warp w).segs ∧
        (g'.warp w).regs = (g.warp w).regs ∧ (g'.warp w).lanes = (g.warp w).lanes := by
  refine ⟨_, _, rfl, ?_, ?_, rfl, rfl, fun w hw => ?_⟩
  · refine State.PlacesOnly.trans ?_ (placesOnly_updCore ..)
    split
    · exact placesOnly_refl s
    · exact (placesOnly_updCore ..).trans (placesOnly_updCore ..)
  · rw [updCore_wgs]
    split <;> rfl
  · rw [Workgroup.warp, get_numbered _ _ hw]
    exact ⟨rfl, rfl, rfl⟩

section
variable {s : State} {l : Nat}

/-- A group that is placed is placed on one quad. -/
theorem placeGroup_quad {ms qs : List Nat} {u : State} (placed : s.placeGroup l ms qs = some u) : ∃ q, s.placeOn q l ms = some u := by
  induction qs with
  | nil => cases placed
  | cons q qs ih =>
    unfold State.placeGroup at placed
    split at placed
    · next admitted =>
      cases placed
      unfold State.quadAdmits at admitted
      split at admitted
      · exact ⟨q, admitted⟩
      · cases admitted
    · exact ih placed

theorem placesOnly_startWg (s : State) (l wgid core : Nat) : s.PlacesOnly (s.startWg l wgid core) := by
  obtain ⟨u, g, placed, only, -⟩ := occupy_places s (wgKey l wgid) core _
  rw [State.startWg, placed]
  refine only.trans (State.PlacesOnly.trans ?_ (placesOnly_joinActive _ _))
  rfl

theorem placesOnly_placeOn (q : Nat) {ms : List Nat} {u : State} (placed : s.placeOn q l ms = some u) : s.PlacesOnly u := by
  induction ms generalizing s with
  | nil => cases placed; exact placesOnly_refl _
  | cons w ms ih =>
    unfold State.placeOn at placed
    split at placed
    · exact (placesOnly_startWg ..).trans (ih placed)
    · cases placed

theorem placesOnly_placeGroup {ms qs : List Nat} {u : State} (placed : s.placeGroup l ms qs = some u) : s.PlacesOnly u := by
  obtain ⟨q, placed⟩ := placeGroup_quad placed
  exact placesOnly_placeOn q placed

theorem keyLaunch_wgKey (l : Nat) {wgid : Nat} (h : wgid < 2 ^ 32) : keyLaunch (wgKey l wgid) = l := by
  rw [keyLaunch, wgKey]; omega

variable {p : Packet} {segs : SMap Word} (hp : (s.launch l).packet = p) (hsegs : s.segImage (s.launch l).ctx = segs)
include hp hsegs

/-- A start of a workgroup of a launch gives it its start state, and leaves that of the launch's workgroups that have it. -/
theorem startsAs_startWg {wgid : Nat} (core : Nat) (small : wgid < 2 ^ 32) {j : Nat} (h : StartsAs p segs (s.wg j) ∨ j = wgKey l wgid) :
    StartsAs p segs ((s.startWg l wgid core).wg j) := by
  obtain ⟨u, g, placed, only, wgs, resident, bars, warps⟩ := occupy_places s (wgKey l wgid) core
    { launch := l, wgid, warps := (List.range p.warps).map fun w => (w, startWarp p segs w 0 0), bars := startBars p, stages := startStages p }
  have packet : s.packet (wgKey l wgid) = p := by rw [State.packet, keyLaunch_wgKey l small, hp]
  have warp (n : Nat) (hn : n < p.warps) := get_numbered ({} : Warp) (fun w => startWarp p segs w 0 0) hn
  rw [State.startWg, hp, hsegs, placed]
  apply startsAs_joinActive
  have after : State.wg { u with wgs := SMap.set {} u.wgs (wgKey l wgid) g } j = if j = wgKey l wgid then g else s.wg j := by
    rw [State.wg, SMap.get_set, wgs]; rfl
  rw [after]
  split
  · refine ⟨resident, bars, fun n hn => ?_, fun n hn => ?_, fun n hn => ?_⟩ <;> obtain ⟨hs, hr, hl⟩ := warps n (packet ▸ hn)
    · exact hs.trans (congrArg Warp.segs (warp n hn))
    · exact hr.trans (congrArg Warp.regs (warp n hn))
    · exact hl.trans (congrArg Warp.lanes (warp n hn))
  · next other => exact h.resolve_right other

/-- A group that is placed has started. -/
theorem placeOn_starts (q : Nat) {ms : List Nat} (small : ∀ w ∈ ms, w < 2 ^ 32) {u : State} (placed : s.placeOn q l ms = some u) :
    ∀ j, (StartsAs p segs (s.wg j) ∨ ∃ w ∈ ms, j = wgKey l w) → StartsAs p segs (u.wg j) := by
  induction ms generalizing s with
  | nil =>
    cases placed
    exact fun j h => h.resolve_right (by simp)
  | cons w ms ih =>
    rw [List.forall_mem_cons] at small
    unfold State.placeOn at placed
    split at placed
    · next c _ =>
      have only := placesOnly_startWg s l w (4 * q + c)
      refine fun j h => ih (by rw [only.launch, hp]) (by rw [only.segImage, only.launch, hsegs]) small.2 placed j ?_
      have start := startsAs_startWg hp hsegs (4 * q + c) small.1 (j := j)
      rcases h with h | ⟨v, hv, e⟩
      · exact .inl (start (.inl h))
      · obtain rfl | hv := List.mem_cons.1 hv
        · exact .inl (start (.inr e))
        · exact .inr ⟨v, hv, e⟩
    · cases placed

theorem placeGroup_starts {ms : List Nat} (small : ∀ w ∈ ms, w < 2 ^ 32) {qs : List Nat} {u : State} (placed : s.placeGroup l ms qs = some u) :
    ∀ w ∈ ms, StartsAs p segs (u.wg (wgKey l w)) := by
  obtain ⟨q, placed⟩ := placeGroup_quad placed
  exact fun w hw => placeOn_starts hp hsegs q small placed _ (.inr ⟨w, hw, rfl⟩)

end

/-! ### The groups of a launch -/

/-- A launch has fewer workgroups left to dispatch than before. -/
def Launch.Before (x y : Launch) : Prop := x.nextWg + y.returned.length < y.nextWg + x.returned.length

section
variable {x : Launch}

theorem nextGroup_fresh (h : x.returned = []) :
    x.nextGroup = ((List.range (Nat.max 1 x.packet.qgroup)).map (x.nextWg + ·)).filter (· < x.packet.grid) := by
  rw [Launch.nextGroup, h]; rfl

/-- The first returned workgroup is in the next group. -/
theorem nextGroup_returned (h : x.returned ≠ []) : ∃ r ∈ x.returned, r ∈ x.nextGroup := by
  have members := mem_sortBy (fun a b => decide (a < b)) (l := x.returned)
  rw [Launch.nextGroup]
  split
  · next r rs sorted => exact ⟨r, (members r).1 (sorted ▸ List.mem_cons_self ..), List.mem_filter.2 ⟨List.mem_cons_self .., by simp⟩⟩
  · next sorted =>
    obtain ⟨r, hr⟩ := List.exists_mem_of_ne_nil _ h
    exact absurd (sorted ▸ (members r).2 hr) List.not_mem_nil

theorem nextGroup_ne_nil (todo : x.dispatched = false) : x.nextGroup ≠ [] := by
  by_cases fresh : x.returned = []
  · rw [nextGroup_fresh fresh]
    simp only [Launch.dispatched, fresh, List.isEmpty_nil, Bool.true_and, Bool.or_eq_false_iff, decide_eq_false_iff_not, not_le] at todo
    have first : x.nextWg ∈ ((List.range (Nat.max 1 x.packet.qgroup)).map (x.nextWg + ·)).filter (· < x.packet.grid) :=
      List.mem_filter.2 ⟨List.mem_map.2 ⟨0, List.mem_range.2 (Nat.le_max_left ..), rfl⟩, decide_eq_true todo.2⟩
    exact List.ne_nil_of_mem first
  · obtain ⟨r, -, hr⟩ := nextGroup_returned fresh
    exact List.ne_nil_of_mem hr

theorem before_took (group : x.nextGroup ≠ []) : x.Before (x.took x.nextGroup) := by
  unfold Launch.took Launch.Before
  split
  · have := List.length_pos_iff.2 group
    dsimp only
    omega
  · next left =>
    obtain ⟨r, old, taken⟩ := nextGroup_returned (by simpa using left)
    have : (x.returned.filter fun w => !x.nextGroup.contains w).length < x.returned.length :=
      List.length_filter_lt_length_iff_exists.2 ⟨r, old, by simpa using taken⟩
    dsimp only
    omega

end

/-! ### Dispatches -/

section
variable {s t u : State} {l : Nat}

/-- A group that a dispatch has placed is taken from its launch. -/
theorem dispatchOne_some (placed : s.dispatchOne l = some u) :
    (s.launch l).nextGroup ≠ [] ∧ ∃ v, s.placeGroup l (s.launch l).nextGroup (s.quadsFor l (s.chosenDie l)) = some v ∧
      u = v.updLaunch l fun y => { y.took (s.launch l).nextGroup with dies := SMap.set none y.dies (s.launch l).groupNo none } := by
  unfold State.dispatchOne at placed
  dsimp only at placed
  split at placed
  · cases placed
  · next group =>
    obtain ⟨v, found, rfl⟩ := Option.map_eq_some_iff.1 placed
    exact ⟨by simpa using group, v, found, rfl⟩

theorem launch_dispatchOne (placed : s.dispatchOne l = some u) :
    u.launch l = { (s.launch l).took (s.launch l).nextGroup with dies := SMap.set none (s.launch l).dies (s.launch l).groupNo none } := by
  obtain ⟨-, v, found, rfl⟩ := dispatchOne_some placed
  rw [launch_updLaunch, if_pos rfl, (placesOnly_placeGroup found).launch]

theorem before_dispatchOne (placed : s.dispatchOne l = some u) : (s.launch l).Before (u.launch l) := by
  rw [launch_dispatchOne placed]
  exact before_took (dispatchOne_some placed).1

theorem before_dispatchAll {n : Nat} {dies : SMap (Option Nat)} (placed : (s.dispatchAll l dies n).1 = some u) :
    u.launch l = s.launch l ∨ (s.launch l).Before (u.launch l) := by
  induction n generalizing s dies with
  | zero => cases placed; exact .inl rfl
  | succ n ih =>
    unfold State.dispatchAll at placed
    split at placed
    · cases placed; exact .inl rfl
    dsimp only at placed
    split at placed
    · next v first =>
      have first := before_dispatchOne first
      refine .inr ((ih placed).elim (fun e => e ▸ first) fun rest => ?_)
      unfold Launch.Before at *
      omega
    · cases placed

/-- A co-resident launch with a group left has dispatched one when all are. -/
theorem before_dispatchWhole {n : Nat} {dies : SMap (Option Nat)} (group : (s.launch l).nextGroup ≠ [])
    (placed : (s.dispatchAll l dies (n + 1)).1 = some u) : (s.launch l).Before (u.launch l) := by
  unfold State.dispatchAll at placed
  rw [if_neg (by simpa using group)] at placed
  dsimp only at placed
  split at placed
  · next v first =>
    have first := before_dispatchOne first
    refine (before_dispatchAll placed).elim (fun e => e ▸ first) fun rest => ?_
    unfold Launch.Before at *
    omega
  · cases placed

theorem dispatched_of_mayDispatch (may : s.mayDispatch l = true) : (s.launch l).dispatched = false := by
  simp only [State.mayDispatch, Bool.and_eq_true, Bool.not_eq_true'] at may
  exact may.1.1.1

/-- A dispatch that changes the machine takes place, and shows the state of its queue. -/
theorem exec_dispatch (may : s.mayDispatch l = true) (moves : s.tryDispatch l ≠ s) :
    exec (.workgroupDispatch l) s = .next ((s.tryDispatch l).vqRefresh (s.launch l).vq) := by
  show event _ (s.mayDispatch l && s.tryDispatch l != s) _ = _
  rw [may, bne_iff_ne.2 moves]
  rfl

theorem of_exec_dispatch (next : exec (.workgroupDispatch l) s = .next t) : t = (s.tryDispatch l).vqRefresh (s.launch l).vq := by
  replace next : event _ (s.mayDispatch l && s.tryDispatch l != s) _ = _ := next
  unfold event at next
  split at next
  · cases next; rfl
  · cases next

theorem RegsChanged.cores {offs : List Nat} (h : RegsChanged offs s t) : t.cores = s.cores := by rw [h.frame]

section
variable (single : (s.launch l).packet.coResident = false)
include single

theorem tryDispatch_placed (placed : s.dispatchOne l = some u) : s.tryDispatch l = u := by
  unfold State.tryDispatch
  dsimp only
  rw [single, if_neg Bool.false_ne_true, placed]
  rfl

theorem tryDispatch_waits (waits : s.dispatchOne l = none) : s.tryDispatch l = s.bindDie l := by
  unfold State.tryDispatch
  dsimp only
  rw [single, if_neg Bool.false_ne_true, waits]
  rfl

end

section
variable (whole : (s.launch l).packet.coResident = true)
include whole

theorem tryDispatch_whole (placed : (s.dispatchAll l (s.launch l).dies ((s.launch l).packet.grid + 1)).1 = some u) :
    s.tryDispatch l = u.updLaunch l fun y => { y with dies := [] } := by
  unfold State.tryDispatch
  dsimp only
  rw [whole, if_pos rfl]
  split
  · next v dies e => rw [e] at placed; cases placed; rfl
  · next e => rw [e] at placed; cases placed

theorem tryDispatch_wholeWaits (waits : (s.dispatchAll l (s.launch l).dies ((s.launch l).packet.grid + 1)).1 = none) :
    ∃ dies, s.tryDispatch l = s.updLaunch l fun y => { y with dies } := by
  unfold State.tryDispatch
  dsimp only
  rw [whole, if_pos rfl]
  split
  · next e => rw [e] at waits; cases waits
  · exact ⟨_, rfl⟩

end

theorem not_before_self (x : Launch) : ¬x.Before x := Nat.lt_irrefl _

/-! ### What the start state is, field by field -/

theorem memRead_two_lt (s : State) (a : Nat) : s.memRead a 2 < 2 ^ 32 := by
  have h0 := ((s.mem.byte (s.canon a + 0)).isLt)
  have h1 := ((s.mem.byte (s.canon a + 1)).isLt)
  simp only [State.memRead, Memory.read, List.range_succ, List.range_zero, List.nil_append, List.cons_append, List.foldr_cons, List.foldr_nil]
  omega

theorem get_foldl_set {α : Type} [DecidableEq α] (d : α) (g : Nat → α) {l : List Nat} (m : SMap α) {i : Nat} (h : i ∈ l) :
    SMap.get d (l.foldl (fun m j => SMap.set d m j (g j)) m) i = g i := by
  induction l using List.reverseRecOn with
  | nil => cases h
  | append_singleton l j ih =>
    rw [List.foldl_append, List.foldl_cons, List.foldl_nil, SMap.get_set]
    split
    · next e => rw [e]
    · next e => exact ih ((List.mem_append.1 h).resolve_right fun h => e (List.mem_singleton.1 h))

/-- SEGIMG as the start loads it (R11). -/
theorem get_segImage (s : State) (c : Nat) {i : Nat} (h : i < 8) :
    (SMap.get 0 (s.segImage c) i).toNat = s.memRead (s.own ((s.ctx c).root + 0x400 + 2 * i)) 2 := by
  rw [State.segImage, get_foldl_set 0 (fun i => BitVec.ofNat 32 (s.memRead (s.own ((s.ctx c).root + 0x400 + 2 * i)) 2)) [] (List.mem_range.2 h),
    BitVec.toNat_ofNat, Nat.mod_eq_of_lt (memRead_two_lt s _)]

theorem get_startBars (p : Packet) {b : Nat} (h : b < p.nbar) :
    (SMap.get {} (startBars p) b).memb = p.warps + (if p.cumask.testBit b then 1 else 0) ∧
      (SMap.get {} (startBars p) b).pend = p.warps + (if p.cumask.testBit b then 1 else 0) := by
  have start := get_numbered ({} : Barrier)
    (fun b => { memb := p.warps + b2n (bit p.cumask b), pend := p.warps + b2n (bit p.cumask b), cu := bit p.cumask b }) h
  rw [← bit_eq_testBit]
  exact ⟨congrArg Barrier.memb start, congrArg Barrier.pend start⟩

/-- Lanes of a row that holds one value. -/
theorem get_row (v : Word) {j : Nat} (h : j < 64) : SMap.get 0 (if v = 0 then [] else (List.range 64).map fun l => (l, v)) j = v := by
  split
  · next zero => rw [zero]; rfl
  · exact get_numbered 0 (fun _ => v) h

theorem regIn_startWarp (p : Packet) (segs : SMap Word) (n : Nat) {w : Warp} (regs : w.regs = (startWarp p segs n 0 0).regs) (r : Nat) {j : Nat}
    (h : j < 64) : w.regIn false r j = if r = 0 then p.argptr.setWidth 32 else if r = 1 then (p.argptr >>> 32).setWidth 32 else 0 := by
  rw [Warp.regIn, Warp.reg]
  by_cases gz : r = 255
  · subst gz; rfl
  · rw [if_neg gz, if_neg (by simp)]
    show SMap.get 0 (SMap.get [] w.regs r) j = _
    rw [regs, startWarp, SMap.get_set, SMap.get_set]
    by_cases one : r = 1
    · subst one; exact get_row _ h
    by_cases zero : r = 0
    · subst zero; exact get_row _ h
    · simp [one, zero]

theorem lane_startWarp (p : Packet) (segs : SMap Word) (n : Nat) {w : Warp} (lanes : w.lanes = (startWarp p segs n 0 0).lanes) {j : Nat}
    (h : j < 64) : w.lane j = { pc := p.entry, exited := false, ydist := 65536, seed := BitVec.ofNat 32 (0xACE10000 + n * 64 + j) } := by
  have start := get_numbered ({} : Lane)
    (fun l => { pc := p.entry, exited := false, ydist := 65536, seed := BitVec.ofNat 32 (0xACE10000 + n * 64 + l) }) h
  rw [Warp.lane, lanes]
  dsimp only [startWarp]
  exact start

end

section
variable {s t u : State} {l : Nat} (may : s.mayDispatch l = true)

/-- A queue's state is shown in its doorbell page only. -/
theorem vqRefresh_places (s : State) (v : Nat) :
    (s.vqRefresh v).wgs = s.wgs ∧ (s.vqRefresh v).cores = s.cores ∧ (s.vqRefresh v).launch = s.launch :=
  have h := regsChanged_vqRefresh s v
  ⟨h.wgs, h.cores, h.launch⟩

include may

/-- R192, R195: the next group of a launch is dispatched. -/
theorem exec_dispatchOne (single : (s.launch l).packet.coResident = false) (placed : s.dispatchOne l = some u) :
    ∃ t, exec (.workgroupDispatch l) s = .next t ∧ t.mem = s.mem ∧ t.wgs = u.wgs ∧ t.launch = u.launch := by
  have tried := tryDispatch_placed single placed
  obtain ⟨wgs, -, launch⟩ := vqRefresh_places u (s.launch l).vq
  refine ⟨_, exec_dispatch may fun same => ?_, ?_, ?_, ?_⟩
  · have before := before_dispatchOne placed
    rw [← tried, same] at before
    exact not_before_self _ before
  · rw [vqRefresh_mem, tryDispatch_mem]
  · rw [tried, wgs]
  · rw [tried, launch]

/-- R192: a co-resident launch is dispatched whole. -/
theorem exec_dispatchAll (whole : (s.launch l).packet.coResident = true)
    (placed : (s.dispatchAll l (s.launch l).dies ((s.launch l).packet.grid + 1)).1 = some u) :
    ∃ t, exec (.workgroupDispatch l) s = .next t ∧ t.wgs = u.wgs ∧ t.cores = u.cores ∧
      t.launch l = { u.launch l with dies := [] } ∧ ∀ j, j ≠ l → t.launch j = u.launch j := by
  have tried := tryDispatch_whole whole placed
  obtain ⟨wgs, cores, launch⟩ := vqRefresh_places (u.updLaunch l fun y => { y with dies := [] }) (s.launch l).vq
  refine ⟨_, exec_dispatch may fun same => ?_, ?_, ?_, ?_, fun j hj => ?_⟩
  · have before := before_dispatchWhole (nextGroup_ne_nil (dispatched_of_mayDispatch may)) placed
    rw [← same, tried, launch_updLaunch, if_pos rfl] at before
    exact not_before_self _ before
  · rw [tried, wgs]; rfl
  · rw [tried, cores]; rfl
  · rw [tried, launch, launch_updLaunch, if_pos rfl]
  · rw [tried, launch, launch_updLaunch, if_neg hj]

omit may

/-- R384: a group that finds no place keeps the die chosen for it. -/
theorem dispatch_waits (single : (s.launch l).packet.coResident = false) (waits : s.dispatchOne l = none)
    (next : exec (.workgroupDispatch l) s = .next t) :
    t.wgs = s.wgs ∧ SMap.get none (t.launch l).dies (s.launch l).groupNo = some (s.chosenDie l) := by
  obtain ⟨wgs, -, launch⟩ := vqRefresh_places (s.bindDie l) (s.launch l).vq
  rw [of_exec_dispatch next, tryDispatch_waits single waits, wgs, launch, State.bindDie, launch_updLaunch, if_pos rfl]
  dsimp only
  exact ⟨rfl, by rw [SMap.get_set_same]⟩

theorem dispatch_wholeWaits (whole : (s.launch l).packet.coResident = true)
    (waits : (s.dispatchAll l (s.launch l).dies ((s.launch l).packet.grid + 1)).1 = none)
    (next : exec (.workgroupDispatch l) s = .next t) : t.wgs = s.wgs ∧ t.cores = s.cores := by
  obtain ⟨dies, tried⟩ := tryDispatch_wholeWaits whole waits
  obtain ⟨wgs, cores, -⟩ := vqRefresh_places (s.updLaunch l fun y => { y with dies }) (s.launch l).vq
  rw [of_exec_dispatch next, tried, wgs, cores]
  exact ⟨rfl, rfl⟩

/-- The members of a placed group are in their start state. -/
theorem dispatchOne_starts (small : ∀ w ∈ (s.launch l).nextGroup, w < 2 ^ 32) (placed : s.dispatchOne l = some u) :
    ∀ w ∈ (s.launch l).nextGroup, StartsAs (s.launch l).packet (s.segImage (s.launch l).ctx) (u.wg (wgKey l w)) := by
  obtain ⟨-, v, found, rfl⟩ := dispatchOne_some placed
  show ∀ w ∈ _, StartsAs _ _ (v.wg (wgKey l w))
  exact placeGroup_starts rfl rfl small found

end

theorem nextWg_took {x : Launch} {ms : List Nat} (h : x.returned = []) : (x.took ms).nextWg = x.nextWg + ms.length := by
  rw [Launch.took, h]; rfl

theorem returned_took {x : Launch} {ms : List Nat} (h : x.returned ≠ []) : (x.took ms).returned = x.returned.filter fun w => !ms.contains w := by
  rw [Launch.took, if_neg (by simpa using h)]

end Sys2Proof.Machine
end

section

/-!
# The end of a workgroup and exchanges (R193, R386)
-/

namespace Sys2Proof.Machine

/-! ### The end of a workgroup (R193) -/

section
variable (s : State) (k : Nat)

theorem wg_vacate (st : WgStatus) (j : Nat) : (s.vacate k st).wg j =
    if j = k then { launch := (s.wg k).launch, wgid := (s.wg k).wgid, status := st, core := (s.wg k).core } else s.wg j := by
  have before : (if st = .exited then (s.freeEngine k).updCore ((s.freeEngine k).wg k).core fun c =>
      c.keepStored ((s.freeEngine k).wg k) ((s.freeEngine k).ctxNo k) else s.freeEngine k).wgs = s.wgs := by
    split <;> rfl
  refine (SMap.get_set ({} : Workgroup) _ k j _).trans ?_
  rw [before]
  rfl

theorem coreAt_updCore (c j : Nat) (g : Core → Core) : (s.updCore c g).coreAt j = if j = c then g (s.coreAt c) else s.coreAt j :=
  SMap.get_upd ..

theorem engine_freeEngine : ((s.freeEngine k).coreAt (s.wg k).core).engine ≠ some k := by
  rw [State.freeEngine, coreAt_updCore, if_pos rfl]
  split
  · simp
  · assumption

/-- A workgroup that ends leaves its core's matrix engine. -/
theorem engine_vacate : ((s.vacate k .exited).coreAt (s.wg k).core).engine ≠ some k := by
  have kept : (s.vacate k .exited).coreAt (s.wg k).core =
      ((s.freeEngine k).coreAt (s.wg k).core).keepStored ((s.freeEngine k).wg k) ((s.freeEngine k).ctxNo k) :=
    (coreAt_updCore (s.freeEngine k) (s.wg k).core (s.wg k).core fun c =>
      c.keepStored ((s.freeEngine k).wg k) ((s.freeEngine k).ctxNo k)).trans (if_pos rfl)
  rw [kept]
  exact engine_freeEngine s k

theorem vacate_launch (st : WgStatus) : (s.vacate k st).launch = s.launch := by
  funext j
  unfold State.vacate
  dsimp only
  split <;> rfl

theorem settleLaunch_places (l : Nat) : (s.settleLaunch l).wgs = s.wgs ∧ (s.settleLaunch l).cores = s.cores := by
  unfold State.settleLaunch State.forgetWords
  repeat' split
  all_goals exact ⟨rfl, rfl⟩

/-- The time that a workgroup ran, in its quad's counts (R395). -/
def State.countRun : State :=
  s.updQuad (quadOf (s.wg k).core) fun x =>
    { x with runs := SMap.upd (0, 0) x.runs (keyLaunch k) fun y => (y.1 + 1, y.2 + (s.cyc.toNat - (s.wg k).startedAt)) }

/-- The workgroup has left and is counted as ended. -/
def State.endCounted : State := ((s.countRun k).vacate k .exited).updLaunch (keyLaunch k) fun x => { x with ended := x.ended + 1 }

variable {s k}

/-- R193: a workgroup whose threads have exited and of which nothing is in flight ends. -/
theorem exec_workgroupEnd (resident : (s.wg k).status = .resident) (exited : s.liveWarps k = []) (quiet : s.quiet k = true)
    (still : s.xfers = []) : exec (.workgroupEnd k) s =
      .next (((s.endCounted k).settleLaunch (keyLaunch k)).vqRefresh ((s.endCounted k).launch (keyLaunch k)).vq) := by
  show execWorkgroupEnd k s = _
  unfold execWorkgroupEnd
  dsimp only
  rw [if_neg (by simp [resident, exited, quiet, still]), if_pos resident]
  rfl

/-- The end of a workgroup, on its core, its launch and the others. -/
theorem workgroupEnd_leaves (v : Nat) : let t := ((s.endCounted k).settleLaunch (keyLaunch k)).vqRefresh v
    (t.wg k).status = .exited ∧ (∀ j, j ≠ k → t.wg j = s.wg j) ∧ t.mem = s.mem ∧
      (t.launch (keyLaunch k)).ended = (s.launch (keyLaunch k)).ended + 1 ∧ (t.coreAt (s.wg k).core).engine ≠ some k := by
  intro t
  obtain ⟨wgs, cores, launch⟩ := vqRefresh_places ((s.endCounted k).settleLaunch (keyLaunch k)) v
  obtain ⟨wgs', cores'⟩ := settleLaunch_places (s.endCounted k) (keyLaunch k)
  have wg (j : Nat) : t.wg j = ((s.countRun k).vacate k .exited).wg j := by rw [State.wg, wgs, wgs']; rfl
  have core (c : Nat) : t.coreAt c = ((s.countRun k).vacate k .exited).coreAt c := by rw [State.coreAt, cores, cores']; rfl
  refine ⟨?_, fun j hj => ?_, ?_, ?_, ?_⟩
  · rw [wg, wg_vacate, if_pos rfl]
  · rw [wg, wg_vacate, if_neg hj]; rfl
  · rw [vqRefresh_mem, settleLaunch_mem, State.endCounted, updLaunch_mem, vacate_mem]; rfl
  · obtain ⟨fin, ended⟩ := launch_settleLaunch (s.endCounted k) (keyLaunch k) (keyLaunch k)
    rw [launch, ended, if_pos rfl]
    show ((s.endCounted k).launch (keyLaunch k)).ended = _
    rw [State.endCounted, launch_updLaunch, if_pos rfl, vacate_launch]
    rfl
  · rw [core]
    exact engine_vacate (s.countRun k) k

end

/-! ### Exchanges (R386) -/

section
variable (s : State)

/-- A warp leaves its active set in an exchange. -/
def State.exchangedOut (y : Nat × Nat) : State := (s.leaveActive y).updWarp y.1 y.2 fun w => { w with second := 0 }

/-- A warp as its exit from the active set leaves it. -/
def Warp.left (w : Warp) (cyc : BitVec 64) : Warp :=
  { (if w.active then
      { w with active := false, readySince := none, perf := SMap.upd 0 w.perf 1 fun v => v + (cyc - BitVec.ofNat 64 w.activeSince) }
    else w) with second := 0 }

theorem warp_exchangedOut (y : Nat × Nat) (k w : Nat) :
    (s.exchangedOut y).warp k w = if k = y.1 ∧ w = y.2 then (s.warp y.1 y.2).left s.cyc else s.warp k w := by
  rw [State.exchangedOut, warp_updWarp, State.leaveActive, warp_updWarp, warp_updWarp]
  by_cases h : k = y.1 ∧ w = y.2
  · rw [if_pos h, if_pos h, if_pos ⟨rfl, rfl⟩]; rfl
  · rw [if_neg h, if_neg h, if_neg h]

theorem warp_enterActive (x : Nat × Nat) (k w : Nat) : (s.enterActive x).warp k w = if k = x.1 ∧ w = x.2 then
    { s.warp x.1 x.2 with active := true, activeSince := s.cyc.toNat, lastIssue := s.nextTurn
                          perf := SMap.upd 0 (s.warp x.1 x.2).perf 2 (· + 1) } else s.warp k w := warp_updWarp ..

/-- The registers of a warp and its lanes. -/
def Warp.Holds (w v : Warp) : Prop := v.regs = w.regs ∧ (∀ j, v.lane j = w.lane j) ∧ ∀ r j, v.reg r j = w.reg r j

end

theorem holds_refl (w : Warp) : w.Holds w := ⟨rfl, fun _ => rfl, fun _ _ => rfl⟩

theorem Warp.Holds.trans {w v x : Warp} (h : w.Holds v) (h' : v.Holds x) : w.Holds x := by
  obtain ⟨regs, lanes, reg⟩ := h
  obtain ⟨regs', lanes', reg'⟩ := h'
  exact ⟨regs'.trans regs, fun j => (lanes' j).trans (lanes j), fun r j => (reg' r j).trans (reg r j)⟩

theorem holds_left (w : Warp) (cyc : BitVec 64) : w.Holds (w.left cyc) := by
  unfold Warp.left
  split <;> exact ⟨rfl, fun _ => rfl, fun _ _ => rfl⟩

theorem left_inactive (w : Warp) (cyc : BitVec 64) : (w.left cyc).active = false := by
  unfold Warp.left
  split
  · rfl
  · next h => simpa using h

/-- What an exchange's leavers are afterwards: they and no others have left their active sets. -/
theorem exchangedOut_all (out : List (Nat × Nat)) (s : State) : let t := out.foldl State.exchangedOut s
    s.PlacesOnly t ∧ (∀ y ∈ out, (t.warp y.1 y.2).active = false) ∧ (∀ y : Nat × Nat, y ∉ out → t.warp y.1 y.2 = s.warp y.1 y.2) ∧
      ∀ k w, (s.warp k w).Holds (t.warp k w) := by
  induction out using List.reverseRecOn with
  | nil => exact ⟨placesOnly_refl s, by simp, fun _ _ => rfl, fun _ _ => holds_refl _⟩
  | append_singleton out z ih =>
    obtain ⟨only, gone, same, holds⟩ := ih
    dsimp only
    rw [List.foldl_append, List.foldl_cons, List.foldl_nil]
    refine ⟨only.trans ?_, fun y hy => ?_, fun y hy => ?_, fun k w => ?_⟩
    · exact (placesOnly_leaveActive _ z).trans (placesOnly_updWarp ..)
    · rw [warp_exchangedOut]
      split
      · exact left_inactive ..
      · next other =>
        refine gone y ((List.mem_append.1 hy).resolve_right fun h => other ?_)
        rw [List.mem_singleton.1 h]
        exact ⟨rfl, rfl⟩
    · rw [List.mem_append, List.mem_singleton, not_or] at hy
      rw [warp_exchangedOut, if_neg fun h => hy.2 (Prod.ext h.1 h.2), same y hy.1]
    · rw [warp_exchangedOut]
      split
      · next h => obtain ⟨rfl, rfl⟩ := h; exact (holds _ _).trans (holds_left ..)
      · exact holds k w

/-- R386: an exchange changes active sets only. -/
theorem exchange_enters {s t : State} {core part : Nat} {x : Nat × Nat} {out : List (Nat × Nat)} (done : s.exchange core part x out = some t) :
    t = { s with wgs := t.wgs, cores := t.cores } ∧ (t.warp x.1 x.2).active = true ∧
      (∀ y ∈ out, y ≠ x → (t.warp y.1 y.2).active = false) ∧
      (∀ y : Nat × Nat, y ≠ x → y ∉ out → t.warp y.1 y.2 = s.warp y.1 y.2) ∧
      ∀ k w r j, (t.warp k w).regs = (s.warp k w).regs ∧ (t.warp k w).lane j = (s.warp k w).lane j ∧ (t.warp k w).reg r j = (s.warp k w).reg r j := by
  obtain ⟨only, gone, same, holds⟩ := exchangedOut_all out s
  unfold State.exchange at done
  dsimp only at done
  split at done
  · cases done
    have warp (k w : Nat) := warp_enterActive (out.foldl State.exchangedOut s) x k w
    have other {y : Nat × Nat} (hy : y ≠ x) := (warp y.1 y.2).trans (if_neg fun h => hy (Prod.ext h.1 h.2))
    refine ⟨(only.trans (placesOnly_enterActive _ x)).trans (placesOnly_updCore ..), ?_, fun y hy ne => ?_, fun y ne hy => ?_, fun k w r j => ?_⟩
    · exact congrArg Warp.active ((warp x.1 x.2).trans (if_pos ⟨rfl, rfl⟩))
    · exact (congrArg Warp.active (other ne)).trans (gone y hy)
    · exact (other ne).trans (same y hy)
    · have after : (s.warp k w).Holds (((out.foldl State.exchangedOut s).enterActive x).warp k w) := by
        rw [warp]
        split
        · next h => obtain ⟨rfl, rfl⟩ := h; exact (holds _ _).trans ⟨rfl, fun _ => rfl, fun _ _ => rfl⟩
        · exact holds k w
      exact ⟨after.1, after.2.1 j, after.2.2 r j⟩
  · cases done

section
variable {s t : State} {core part : Nat} {x : Nat × Nat} {xs out : List (Nat × Nat)}
  (oldest : s.byTime (fun w => w.readySince.getD 0) ((s.pendingIn core part).filter fun y => s.ready y.1 y.2) = x :: xs)
  (done : s.exchange core part x out = some t)
include oldest done

theorem exec_warpExchange_empty (empty : s.activeIn core part = []) (nobody : out = []) : exec (.warpExchange core part) s = .next t := by
  show execWarpExchange core part s = _
  unfold execWarpExchange
  dsimp only
  subst nobody
  have unstalled : s.byTime (fun w => w.stalledSince.getD 0) [] = [] := rfl
  simp only [oldest, empty, List.filter_nil, unstalled, List.isEmpty_nil, if_true, Option.bind_some, done]

theorem exec_warpExchange_stalled {y : Nat × Nat} {ys : List (Nat × Nat)}
    (stalled : s.byTime (fun w => w.stalledSince.getD 0) ((s.activeIn core part).filter fun y => s.stalled y.1 y.2) = y :: ys)
    (leave : (s.leavers x ((s.activeIn core part).filter fun y => !s.stalled y.1 y.2) ys).map (y :: ·) = some out) :
    exec (.warpExchange core part) s = .next t := by
  show execWarpExchange core part s = _
  unfold execWarpExchange
  dsimp only
  rw [oldest, stalled]
  dsimp only
  rw [leave, Option.bind_some, done]

theorem exec_forcedExchange {y : Nat × Nat} {ys : List (Nat × Nat)} (longest : s.byTime (·.lastIssue) (s.activeIn core part) = y :: ys)
    (leave : (s.leavers x [] ys).map (y :: ·) = some out)
    (due : max ((s.warp x.1 x.2).readySince.getD 0) (SMap.get 0 (s.coreAt core).lastExch part) + 2048 ≤ s.cyc.toNat) :
    exec (.forcedExchange core part) s = .next t := by
  show execForcedExchange core part s = _
  unfold execForcedExchange
  dsimp only
  rw [oldest, longest]
  dsimp only
  rw [if_neg (not_lt.2 due), leave, Option.bind_some, done]

end

end Sys2Proof.Machine
end

section

/-!
# The control interval (R387, R388, R410)
-/

namespace Sys2Proof.Machine

/-! ### Changes that leave the warps of a quad as they are, but for their parking and their active sets -/

/-- Each workgroup keeps its place and its status, each warp its lanes and its slot. -/
structure SameWarps (s t : State) : Prop where
  only : s.PlacesOnly t
  place : ∀ k, (t.wg k).core = (s.wg k).core ∧ (t.wg k).status = (s.wg k).status
  warps : ∀ k w, (t.warp k w).lanes = (s.warp k w).lanes ∧ (t.warp k w).slot = (s.warp k w).slot
  once : s.wgs.keys.Nodup → t.wgs.keys.Nodup

theorem keys_insert_perm {α : Type} (k : Nat) (v : α) (m : SMap α) : (SMap.insert k v m).keys.Perm (k :: m.keys) := by
  induction m with
  | nil => exact .refl _
  | cons p m ih =>
    unfold SMap.insert
    split
    · exact .refl _
    · exact (ih.cons p.1).trans (.swap ..)

theorem nodup_keys_set {α : Type} [DecidableEq α] (d : α) {m : SMap α} (k : Nat) (v : α) (once : m.keys.Nodup) :
    (SMap.set d m k v).keys.Nodup := by
  have erased : (SMap.erase k m).keys.Nodup := once.sublist (List.filter_sublist.map _)
  unfold SMap.set
  split
  · exact erased
  · refine (keys_insert_perm k v _).nodup_iff.2 (List.nodup_cons.2 ⟨fun listed => ?_, erased⟩)
    obtain ⟨p, hp, e⟩ := List.mem_map.1 listed
    exact SMap.not_mem_erase m k p hp e

section
variable {s t u : State}

theorem sameWarps_refl (s : State) : SameWarps s s := ⟨placesOnly_refl s, fun _ => ⟨rfl, rfl⟩, fun _ _ => ⟨rfl, rfl⟩, id⟩

theorem SameWarps.trans (h : SameWarps s t) (h' : SameWarps t u) : SameWarps s u where
  only := h.only.trans h'.only
  place k := ⟨(h'.place k).1.trans (h.place k).1, (h'.place k).2.trans (h.place k).2⟩
  warps k w := ⟨(h'.warps k w).1.trans (h.warps k w).1, (h'.warps k w).2.trans (h.warps k w).2⟩
  once := h'.once ∘ h.once

theorem sameWarps_updWarp (s : State) (k w : Nat) {g : Warp → Warp} (keeps : ∀ x, (g x).lanes = x.lanes ∧ (g x).slot = x.slot) :
    SameWarps s (s.updWarp k w g) where
  only := placesOnly_updWarp ..
  place j := by
    rw [State.updWarp, wg_updWg]
    split
    · next e => rw [e]; exact ⟨rfl, rfl⟩
    · exact ⟨rfl, rfl⟩
  warps j v := by
    rw [warp_updWarp]
    split
    · next e => rw [e.1, e.2]; exact keeps _
    · exact ⟨rfl, rfl⟩
  once := nodup_keys_set ({} : Workgroup) k _

theorem sameWarps_foldl {α : Type} {g : State → α → State} (hg : ∀ s a, SameWarps s (g s a)) (l : List α) (s : State) :
    SameWarps s (l.foldl g s) := by
  induction l generalizing s with
  | nil => exact sameWarps_refl s
  | cons a l ih => exact (hg s a).trans (ih _)

theorem sameWarps_enterActive (s : State) (x : Nat × Nat) : SameWarps s (s.enterActive x) :=
  sameWarps_updWarp s x.1 x.2 fun _ => ⟨rfl, rfl⟩

theorem sameWarps_leaveActive (s : State) (x : Nat × Nat) : SameWarps s (s.leaveActive x) :=
  sameWarps_updWarp s x.1 x.2 fun _ => by split <;> exact ⟨rfl, rfl⟩

theorem sameWarps_refill (core part n : Nat) (s : State) : SameWarps s (s.refill core part n) := by
  induction n generalizing s with
  | zero => exact sameWarps_refl s
  | succ n ih =>
    unfold State.refill
    split
    · exact sameWarps_refl s
    · split
      · exact (sameWarps_enterActive s _).trans (ih _)
      · exact sameWarps_refl s

/-! ### The warps of a quad -/

theorem mem_wgsOn (s : State) (core k : Nat) : k ∈ s.wgsOn core ↔ (s.wg k).core = core ∧ ((s.wg k).status = .resident ∨ (s.wg k).status = .ending) := by
  simp only [State.wgsOn, List.mem_filter, Bool.and_eq_true, Bool.or_eq_true, beq_iff_eq, and_iff_right_iff_imp]
  intro ⟨_, live⟩
  by_contra unlisted
  have waiting : s.wg k = {} := get_unlisted _ _ unlisted
  rw [waiting] at live
  rcases live with h | h <;> cases h

theorem mem_warpsOn (s : State) (core : Nat) (x : Nat × Nat) : x ∈ s.warpsOn core ↔
    ((s.wg x.1).core = core ∧ ((s.wg x.1).status = .resident ∨ (s.wg x.1).status = .ending)) ∧ x.2 < s.warpCount x.1 := by
  rw [← mem_wgsOn]
  obtain ⟨k, w⟩ := x
  simp [State.warpsOn]

theorem mem_quadWarps (s : State) (q : Nat) (x : Nat × Nat) : x ∈ s.quadWarps q ↔
    (s.wg x.1).core / 4 = q ∧ ((s.wg x.1).status = .resident ∨ (s.wg x.1).status = .ending) ∧ x.2 < s.warpCount x.1 ∧
      (s.warp x.1 x.2).unexited ≠ [] := by
  simp only [State.quadWarps, List.mem_filter, List.mem_flatMap, List.mem_range, mem_warpsOn, Bool.not_eq_true', List.isEmpty_eq_false_iff]
  constructor
  · rintro ⟨⟨c, hc, ⟨core, live⟩, count⟩, runs⟩
    exact ⟨by omega, live, count, runs⟩
  · rintro ⟨core, live, count, runs⟩
    exact ⟨⟨(s.wg x.1).core % 4, Nat.mod_lt _ (by omega), ⟨by omega, live⟩, count⟩, runs⟩

theorem SameWarps.unexited (h : SameWarps s t) (k w : Nat) : (t.warp k w).unexited = (s.warp k w).unexited := by
  simp only [Warp.unexited, Warp.lane, (h.warps k w).1]

theorem SameWarps.mem_quadWarps (h : SameWarps s t) (q : Nat) (x : Nat × Nat) : x ∈ t.quadWarps q ↔ x ∈ s.quadWarps q := by
  obtain ⟨core, status⟩ := h.place x.1
  rw [Machine.mem_quadWarps, Machine.mem_quadWarps, core, status, State.warpCount, h.only.packet, h.unexited, State.warpCount]

/-- The warps of workgroups that are listed once each are listed once each. -/
theorem nodup_quadWarps (once : s.wgs.keys.Nodup) (q : Nat) : (s.quadWarps q).Nodup := by
  refine List.Nodup.filter _ (List.nodup_flatMap.2 ⟨fun c _ => List.nodup_flatMap.2 ⟨fun k _ => ?_, ?_⟩, ?_⟩)
  · exact List.nodup_range.map fun a b e => congrArg Prod.snd e
  · refine List.Nodup.pairwise_of_forall_ne (once.filter _) fun j _ k _ ne => ?_
    intro x hj hk
    obtain ⟨_, -, rfl⟩ := List.mem_map.1 hj
    obtain ⟨_, -, e⟩ := List.mem_map.1 hk
    exact ne (congrArg Prod.fst e).symm
  · refine List.nodup_range.pairwise_of_forall_ne fun b _ c _ ne => ?_
    intro x hb hc
    have hb := ((mem_warpsOn s _ x).1 hb).1.1
    have hc := ((mem_warpsOn s _ x).1 hc).1.1
    omega

theorem SameWarps.length_quadWarps (h : SameWarps s t) (once : s.wgs.keys.Nodup) (q : Nat) : (t.quadWarps q).length = (s.quadWarps q).length :=
  ((List.perm_ext_iff_of_nodup (nodup_quadWarps (h.once once) q) (nodup_quadWarps once q)).2 (h.mem_quadWarps q)).length_eq

end

/-! ### Sorting by a key -/

section
variable {α : Type} (key : α → Nat)

theorem perm_insertBy (lt : α → α → Bool) (x : α) (l : List α) : (insertBy lt x l).Perm (x :: l) := by
  induction l with
  | nil => exact .refl _
  | cons y l ih =>
    unfold insertBy
    split
    · exact (ih.cons y).trans (.swap ..)
    · exact .refl _

theorem perm_sortBy (lt : α → α → Bool) (l : List α) : (sortBy lt l).Perm l := by
  induction l with
  | nil => exact .refl _
  | cons x l ih => exact (perm_insertBy lt x _).trans (ih.cons x)

theorem sorted_insertBy (x : α) {l : List α} (sorted : l.Pairwise fun a b => key a ≤ key b) :
    (insertBy (fun a b => key a < key b) x l).Pairwise fun a b => key a ≤ key b := by
  induction l with
  | nil => exact List.pairwise_singleton _ x
  | cons y l ih =>
    obtain ⟨first, rest⟩ := List.pairwise_cons.1 sorted
    unfold insertBy
    split
    · next less =>
      refine List.pairwise_cons.2 ⟨fun z hz => ?_, ih rest⟩
      obtain rfl | hz := (mem_insertBy _ _ _ _).1 hz
      · exact (of_decide_eq_true less).le
      · exact first z hz
    · next notLess =>
      have le : key x ≤ key y := by simpa using notLess
      refine List.pairwise_cons.2 ⟨fun z hz => ?_, sorted⟩
      obtain rfl | hz := List.mem_cons.1 hz
      · exact le
      · exact le.trans (first z hz)

theorem sorted_sortBy (l : List α) : (sortBy (fun a b => key a < key b) l).Pairwise fun a b => key a ≤ key b := by
  induction l with
  | nil => exact List.Pairwise.nil
  | cons x l ih => exact sorted_insertBy key x ih

/-- What is taken first has no greater key than what is left. -/
theorem key_le_of_taken {l : List α} {n : Nat} {x y : α} (hx : x ∈ (sortBy (fun a b => key a < key b) l).take n) (hy : y ∈ l)
    (left : y ∉ (sortBy (fun a b => key a < key b) l).take n) : key x ≤ key y := by
  have sorted := sorted_sortBy key l
  rw [← List.take_append_drop n (sortBy _ l)] at sorted
  refine (List.pairwise_append.1 sorted).2.2 x hx y ?_
  have hy := (perm_sortBy (fun a b => key a < key b) l).mem_iff.2 hy
  rw [← List.take_append_drop n (sortBy _ l)] at hy
  exact (List.mem_append.1 hy).resolve_left left

end

/-! ### Parking (R387) -/

section
variable (s : State)

/-- A warp is released for the next interval: it is unparked from now on, if it was parked. -/
def Warp.released (w : Warp) (now : Nat) : Warp := if w.parked then { w with parked := false, unparked := now } else w

/-- The warps of the last interval are released. -/
def State.releaseAll (xs : List (Nat × Nat)) : State :=
  xs.foldl (fun s x => s.updWarp x.1 x.2 fun w => w.released s.cyc.toNat) s

/-- Warps are parked. -/
def State.parkAll (xs : List (Nat × Nat)) : State :=
  xs.foldl (fun s x => (s.leaveActive x).updWarp x.1 x.2 fun w => { w with parked := true, second := 0 }) s

/-- The warps that a quad parks, once those of the last interval are released. -/
def State.chosenToPark (q n : Nat) : List (Nat × Nat) := (s.releaseAll (s.quadWarps q)).toPark q n

theorem parkFor_eq (q n : Nat) : s.parkFor q n =
    (quadParts q).foldl (fun s p => s.refill p.1 p.2 8) ((s.releaseAll (s.quadWarps q)).parkAll (s.chosenToPark q n)) := rfl

theorem released_keeps (w : Warp) (now : Nat) : (w.released now).lanes = w.lanes ∧ (w.released now).slot = w.slot := by
  unfold Warp.released
  split <;> exact ⟨rfl, rfl⟩

theorem sameWarps_releaseAll (xs : List (Nat × Nat)) : SameWarps s (s.releaseAll xs) :=
  sameWarps_foldl (g := fun s (x : Nat × Nat) => s.updWarp x.1 x.2 fun w => w.released s.cyc.toNat)
    (fun s x => sameWarps_updWarp s x.1 x.2 fun w => released_keeps w s.cyc.toNat) xs s

theorem sameWarps_parkAll (xs : List (Nat × Nat)) : SameWarps s (s.parkAll xs) :=
  sameWarps_foldl (fun s x => (sameWarps_leaveActive s x).trans
    (sameWarps_updWarp _ x.1 x.2 (g := fun w => { w with parked := true, second := 0 }) fun _ => ⟨rfl, rfl⟩)) xs s

theorem sameWarps_parkFor (q n : Nat) : SameWarps s (s.parkFor q n) :=
  ((sameWarps_releaseAll s _).trans (sameWarps_parkAll _ _)).trans (sameWarps_foldl (fun s _ => sameWarps_refill _ _ _ s) _ _)

theorem released_released (w : Warp) (now : Nat) : (w.released now).released now = w.released now := by
  unfold Warp.released
  by_cases h : w.parked <;> simp [h]

theorem warp_releaseAll (xs : List (Nat × Nat)) (x : Nat × Nat) :
    (s.releaseAll xs).warp x.1 x.2 = if x ∈ xs then (s.warp x.1 x.2).released s.cyc.toNat else s.warp x.1 x.2 := by
  induction xs using List.reverseRecOn with
  | nil => rfl
  | append_singleton xs y ih =>
    have cyc : (s.releaseAll xs).cyc = s.cyc := (sameWarps_releaseAll s xs).only.cyc
    rw [State.releaseAll, List.foldl_append, List.foldl_cons, List.foldl_nil, ← State.releaseAll, warp_updWarp, cyc]
    by_cases h : x = y
    · subst h
      rw [if_pos ⟨rfl, rfl⟩, if_pos (by simp : x ∈ xs ++ [x]), ih]
      split
      · exact released_released ..
      · rfl
    · rw [if_neg fun e => h (Prod.ext e.1 e.2), ih]
      simp [h]

theorem parked_parkAll (xs : List (Nat × Nat)) (x : Nat × Nat) :
    ((s.parkAll xs).warp x.1 x.2).parked = (decide (x ∈ xs) || (s.warp x.1 x.2).parked) := by
  induction xs using List.reverseRecOn with
  | nil => rfl
  | append_singleton xs y ih =>
    rw [State.parkAll, List.foldl_append, List.foldl_cons, List.foldl_nil, ← State.parkAll, warp_updWarp]
    by_cases h : x = y
    · subst h
      simp
    · have other (z : Nat × Nat) : ¬(x.1 = y.1 ∧ x.2 = y.2) := fun e => h (Prod.ext e.1 e.2)
      rw [if_neg (other x), State.leaveActive, warp_updWarp, if_neg (other x), ih]
      simp [h]

theorem parked_enterActive (x y : Nat × Nat) : ((s.enterActive x).warp y.1 y.2).parked = (s.warp y.1 y.2).parked := by
  rw [warp_enterActive]
  split
  · next e => rw [e.1, e.2]
  · rfl

theorem parked_refill (core part n : Nat) (y : Nat × Nat) : ((s.refill core part n).warp y.1 y.2).parked = (s.warp y.1 y.2).parked := by
  induction n generalizing s with
  | zero => rfl
  | succ n ih =>
    unfold State.refill
    split
    · rfl
    · split
      · rw [ih, parked_enterActive]
      · rfl

variable {s} {q : Nat}

theorem toPark_eq (s : State) (q n : Nat) : s.toPark q n = (sortBy (fun a b =>
    ((s.warp a.1 a.2).unparked * 256 + (s.warp a.1 a.2).slot) * 4 + (s.wg a.1).core % 4 <
      ((s.warp b.1 b.2).unparked * 256 + (s.warp b.1 b.2).slot) * 4 + (s.wg b.1).core % 4) (s.quadWarps q)).take n := by
  rw [State.toPark, State.quadWarps, List.filter_flatMap]

theorem mem_chosenToPark {n : Nat} {x : Nat × Nat} (h : x ∈ s.chosenToPark q n) : x ∈ s.quadWarps q := by
  rw [State.chosenToPark, toPark_eq] at h
  exact ((sameWarps_releaseAll s _).mem_quadWarps q x).1 ((mem_sortBy _ _ _).1 (List.mem_of_mem_take h))

theorem length_chosenToPark_le (s : State) (q n : Nat) : (s.chosenToPark q n).length ≤ n := by
  rw [State.chosenToPark, toPark_eq]
  exact List.length_take_le ..

theorem length_chosenToPark (once : s.wgs.keys.Nodup) (n : Nat) : (s.chosenToPark q n).length = min n (s.quadWarps q).length := by
  rw [State.chosenToPark, toPark_eq, List.length_take, (perm_sortBy _ _).length_eq, (sameWarps_releaseAll s _).length_quadWarps once]

/-- A quad parks the warps chosen, and no others. -/
theorem parked_parkFor {n : Nat} {x : Nat × Nat} (h : x ∈ s.quadWarps q) :
    ((s.parkFor q n).warp x.1 x.2).parked = decide (x ∈ s.chosenToPark q n) := by
  have refilled := foldl_keeps (f := fun s => (State.warp s x.1 x.2).parked) (g := fun s (p : Nat × Nat) => s.refill p.1 p.2 8)
    (fun s p => parked_refill s p.1 p.2 8 x) (quadParts q)
  have awake : ((s.warp x.1 x.2).released s.cyc.toNat).parked = false := by
    unfold Warp.released
    split
    · rfl
    · next h => simpa using h
  rw [parkFor_eq, refilled, parked_parkAll, warp_releaseAll, if_pos h, awake, Bool.or_false]

/-- Since when a warp has been unparked, as the choice of those to park takes it. -/
def State.unparkedSince (s : State) (x : Nat × Nat) : Nat := if (s.warp x.1 x.2).parked then s.cyc.toNat else (s.warp x.1 x.2).unparked

/-- Those unparked longest are parked. -/
theorem chosenToPark_longest (slots : ∀ x ∈ s.quadWarps q, (s.warp x.1 x.2).slot < 256) {n : Nat} {x y : Nat × Nat}
    (hx : x ∈ s.chosenToPark q n) (hy : y ∈ s.quadWarps q) (left : y ∉ s.chosenToPark q n) : s.unparkedSince x ≤ s.unparkedSince y := by
  have same := sameWarps_releaseAll s (s.quadWarps q)
  have since {z : Nat × Nat} (hz : z ∈ s.quadWarps q) : ((s.releaseAll (s.quadWarps q)).warp z.1 z.2).unparked = s.unparkedSince z := by
    rw [warp_releaseAll, if_pos hz, Warp.released, State.unparkedSince]
    split <;> rfl
  have slot {z : Nat × Nat} (hz : z ∈ s.quadWarps q) : ((s.releaseAll (s.quadWarps q)).warp z.1 z.2).slot < 256 := by
    rw [(same.warps z.1 z.2).2]; exact slots z hz
  have member := mem_chosenToPark hx
  rw [State.chosenToPark, toPark_eq] at hx left
  have key := key_le_of_taken (fun a : Nat × Nat => (((s.releaseAll (s.quadWarps q)).warp a.1 a.2).unparked * 256 +
    ((s.releaseAll (s.quadWarps q)).warp a.1 a.2).slot) * 4 + ((s.releaseAll (s.quadWarps q)).wg a.1).core % 4) hx
    ((same.mem_quadWarps q y).2 hy) left
  have := slot member
  have := slot hy
  rw [since member, since hy] at key
  omega

end

/-! ### What the interval's registers are -/

theorem slkCtl_ne_energyBlock {q o : Nat} : slkCtl ≠ energyBlock q + o := by
  unfold slkCtl energyBlock; omega

/-! ### The control interval (R387, R388, R410) -/

theorem State.PlacesOnly.creg {s t : State} (h : s.PlacesOnly t) : t.creg = s.creg := by rw [h]; rfl
theorem State.PlacesOnly.quad {s t : State} (h : s.PlacesOnly t) : t.quad = s.quad := by rw [h]; rfl
theorem State.PlacesOnly.signals {s t : State} (h : s.PlacesOnly t) : t.signals = s.signals := by rw [h]

theorem RegsChanged.quad {offs : List Nat} {s t : State} (h : RegsChanged offs s t) : t.quad = s.quad := by rw [h.frame]; rfl
theorem RegsChanged.signals {offs : List Nat} {s t : State} (h : RegsChanged offs s t) : t.signals = s.signals := by rw [h.frame]

section
variable (s : State)

/-- The measured energy and the band are noted of a quad. -/
def State.measured (quad energy : Nat) : State :=
  s.updQuad quad fun x => { x with capBand := s.band, energies := (energy :: x.energies).take 4 }

/-- The number of warps parked and the ballast are shown in the quad's energy block. -/
def State.showParked (quad parked ballast : Nat) : State :=
  (s.setCreg (energyBlock quad + 16) (parked % 65536)).setCreg (energyBlock quad + 12) (ballast % 2 ^ 32)

/-- The quad has measured, parked and shown it. -/
def State.parksFor (quad parked ballast energy : Nat) : State := ((s.measured quad energy).parkFor quad parked).showParked quad parked ballast

/-- The slack of an interval of quad 0 is shown, and the next begins. -/
def State.endSlack (waited cycles : Nat) (pace : Option Nat) (bound : Bool) (now : Nat) : State :=
  let t := s.slackControl waited cycles pace bound
  let u := { t with slack := { t.slack with began := now, waited := 0 } }
  if bound then u.signal (.paceSetter u.clockStep) else u

theorem quad_updQuad (q j : Nat) (g : Quad → Quad) : (s.updQuad q g).quad j = if j = q then g (s.quad q) else s.quad j := SMap.get_upd ..

/-- The slack control changes SLKCTL and its own record, and shows the slack. -/
theorem slackControl_shows (waited cycles : Nat) (pace : Option Nat) (bound : Bool) : ∃ w slack,
    s.slackControl waited cycles pace bound = { s.setCreg slkCtl w with slack } ∧ bits (w % 2 ^ 32) 23 16 = slackShown waited cycles := by
  refine ⟨_, _, rfl, (bits_setBits_same (by omega) (by omega) _ _).trans (Nat.mod_eq_of_lt ?_)⟩
  show slackShown waited cycles < 256
  unfold slackShown
  split
  · omega
  · exact (Nat.min_le_left ..).trans_lt (by omega)

theorem endSlack_shows (waited cycles : Nat) (pace : Option Nat) (bound : Bool) (now : Nat) : let t := s.endSlack waited cycles pace bound now
    t.wgs = s.wgs ∧ t.quad = s.quad ∧ (∀ o, o ≠ slkCtl → t.creg o = s.creg o) ∧ t.slack.began = now ∧ t.slack.waited = 0 ∧
      t.field slkCtl 23 16 = slackShown waited cycles := by
  obtain ⟨w, slack, shown, field⟩ := slackControl_shows s waited cycles pace bound
  unfold State.endSlack
  rw [shown]
  have reg (o : Nat) (h : o ≠ slkCtl) := creg_setCreg_other s w h
  have same : bits ((s.setCreg slkCtl w).creg slkCtl) 23 16 = slackShown waited cycles := by rw [creg_setCreg_same, field]
  cases bound <;> exact ⟨rfl, rfl, reg, rfl, rfl, same⟩

variable (quad parked ballast energy : Nat)

theorem quadWarps_measured : (s.measured quad energy).quadWarps quad = s.quadWarps quad := rfl

theorem sameWarps_measured_parkFor : SameWarps (s.measured quad energy) ((s.measured quad energy).parkFor quad parked) :=
  sameWarps_parkFor _ quad parked

theorem regsChanged_showParked : RegsChanged [energyBlock quad + 16, energyBlock quad + 12] s (s.showParked quad parked ballast) :=
  (regsChanged_setCreg (List.mem_cons_self ..) s _).trans (regsChanged_setCreg (by simp) _ _)

theorem showParked_shows : (s.showParked quad parked ballast).creg (energyBlock quad + 16) = parked % 65536 ∧
    (s.showParked quad parked ballast).creg (energyBlock quad + 12) = ballast % 2 ^ 32 := by
  unfold State.showParked
  rw [creg_setCreg_other _ _ (by omega), creg_setCreg_same, creg_setCreg_same]
  omega

theorem creg_parksFor {o : Nat} (parks : o ≠ energyBlock quad + 16) (ballasts : o ≠ energyBlock quad + 12) :
    (s.parksFor quad parked ballast energy).creg o = s.creg o := by
  rw [State.parksFor, (regsChanged_showParked _ quad parked ballast).others o (by simp [parks, ballasts]),
    (sameWarps_measured_parkFor s quad parked energy).only.creg]
  rfl

theorem parksFor_keeps : (s.parksFor quad parked ballast energy).wgs = ((s.measured quad energy).parkFor quad parked).wgs ∧
    (s.parksFor quad parked ballast energy).quad = ((s.measured quad energy).parkFor quad parked).quad ∧
    (s.parksFor quad parked ballast energy).signals = s.signals := by
  have shown := regsChanged_showParked ((s.measured quad energy).parkFor quad parked) quad parked ballast
  unfold State.parksFor
  exact ⟨shown.wgs, shown.quad, shown.signals.trans (sameWarps_measured_parkFor s quad parked energy).only.signals⟩

theorem quad_parksFor : (s.parksFor quad parked ballast energy).quad quad =
    { s.quad quad with capBand := s.band, energies := energy :: (s.quad quad).energies.take 3 } := by
  rw [(parksFor_keeps s quad parked ballast energy).2.1, (sameWarps_measured_parkFor s quad parked energy).only.quad, State.measured, quad_updQuad, if_pos rfl]
  rfl

/-- A limit binds a quad: the interval's energy exceeds the share, or that of the last four their sum. -/
theorem limitBinds_parksFor : (s.parksFor quad parked ballast energy).limitBinds quad = true ↔
    s.budget quad (s.capOf s.band) < energy ∨ 4 * s.budget quad (s.capOf s.band) < energy + sumOf id ((s.quad quad).energies.take 3) := by
  have cap : (s.parksFor quad parked ballast energy).capOf s.band = s.capOf s.band := by
    simp only [State.capOf, State.field]
    rw [creg_parksFor] <;> unfold pkgCap energyBlock <;> omega
  have budget (c : Nat) : (s.parksFor quad parked ballast energy).budget quad c = s.budget quad c := by
    rw [State.budget, creg_parksFor _ _ _ _ _ (by omega) (by omega), State.budget]
  have total (l : List Nat) : sumOf id (energy :: l) = energy + sumOf id l := by
    simp only [sumOf, List.foldl_cons, id, Nat.zero_add]
    exact (List.foldl_assoc (op := (· + ·)) (a₁ := energy) (a₂ := 0))
  rw [State.limitBinds, quad_parksFor]
  simp only [cap, budget, total, List.headD_cons, Bool.or_eq_true, decide_eq_true_eq]

theorem quadHolds_iff : s.quadHolds quad = true ↔ ∀ i, i < 16 → s.coolerHolds (4 * quad + i / 4) (i % 4) = true := by
  simp [State.quadHolds, quadParts]

variable {s quad parked}

theorem mayPark_of {binds : Bool} (binding : binds = true ∧ 2 ≤ (s.quadWarps quad).length → 1 ≤ parked ∧ parked < (s.quadWarps quad).length ∧
      ((s.parkFor quad parked).quadHolds quad = true ∨ ∀ m, 1 ≤ m → m < (s.quadWarps quad).length → ¬(s.parkFor quad m).quadHolds quad = true))
    (free : ¬(binds = true ∧ 2 ≤ (s.quadWarps quad).length) → parked = 0) : s.mayPark quad parked binds = true := by
  unfold State.mayPark
  dsimp only
  by_cases h : binds = true ∧ 2 ≤ (s.quadWarps quad).length
  · rw [if_pos (by simpa using h)]
    obtain ⟨one, other, holds⟩ := binding h
    simp only [Bool.and_eq_true, decide_eq_true_eq, Bool.or_eq_true, Bool.not_eq_true', List.any_eq_false, List.mem_range]
    exact ⟨⟨one, other⟩, holds.imp_right fun never m less ⟨least, held⟩ => never m least less held⟩
  · rw [if_neg (by simpa using h), free h]
    rfl

end

section
variable {s : State} {quad parked ballast energy : Nat}

/-- An interval that may park so many warps takes place; quad 0's ends the slack control's too. -/
theorem exec_controlInterval (pace : Nat) (announced : Bool) (known : quad < 288) (runs : s.halted = false)
    (may : (s.measured quad energy).mayPark quad parked ((s.parksFor quad parked ballast energy).limitBinds quad) = true) :
    ∃ (v : State), exec (.controlInterval quad parked ballast energy pace announced) s = .next v ∧
      v.wgs = (s.parksFor quad parked ballast energy).wgs ∧ v.quad = (s.parksFor quad parked ballast energy).quad ∧
      (∀ o, o ≠ slkCtl → v.creg o = (s.parksFor quad parked ballast energy).creg o) ∧
      (quad ≠ 0 → v = s.parksFor quad parked ballast energy) ∧
      (quad = 0 → v.slack.began = s.cyc.toNat ∧ v.slack.waited = 0 ∧
        v.field slkCtl 23 16 = slackShown s.slack.waited (s.cyc.toNat - s.slack.began)) := by
  have taken (v : State) : event "CONTROL_INTERVAL" (quad < 288 && !s.halted &&
      (s.measured quad energy).mayPark quad parked ((s.parksFor quad parked ballast energy).limitBinds quad)) v = .next v := by
    rw [may, runs, decide_eq_true known]
    rfl
  have exec_eq : exec (.controlInterval quad parked ballast energy pace announced) s = event "CONTROL_INTERVAL" (quad < 288 && !s.halted &&
      (s.measured quad energy).mayPark quad parked ((s.parksFor quad parked ballast energy).limitBinds quad))
      (if quad = 0 then (s.parksFor quad parked ballast energy).endSlack s.slack.waited (s.cyc.toNat - s.slack.began)
        (if announced then some (Nat.min 6 pace) else none)
        ((s.parksFor quad parked ballast energy).quads.keys.any (s.parksFor quad parked ballast energy).limitBinds) s.cyc.toNat
      else s.parksFor quad parked ballast energy) := by
    unfold State.measured State.parksFor State.showParked State.endSlack State.measured
    rfl
  refine ⟨_, exec_eq.trans (taken _), ?_⟩
  by_cases first : quad = 0
  · rw [if_pos first]
    obtain ⟨wgs, quads, regs, shown⟩ := endSlack_shows (s.parksFor quad parked ballast energy) s.slack.waited
      (s.cyc.toNat - s.slack.began) (if announced then some (Nat.min 6 pace) else none)
      ((s.parksFor quad parked ballast energy).quads.keys.any (s.parksFor quad parked ballast energy).limitBinds) s.cyc.toNat
    exact ⟨wgs, quads, regs, fun other => absurd first other, fun _ => shown⟩
  · rw [if_neg first]
    exact ⟨rfl, rfl, fun _ _ => rfl, fun _ => rfl, fun zero => absurd zero first⟩

end

end Sys2Proof.Machine
end

section

/-!
# Workgroups start and end
-/

namespace Sys2Proof.Machine

section
variable {s : State} {quad parked energy : Nat}

/-- What an interval parks (R387). -/
theorem parkFor_measured_parks : ∃ chosen : List (Nat × Nat), chosen.length ≤ parked ∧
    (s.wgs.keys.Nodup → chosen.length = min parked (s.quadWarps quad).length) ∧
    (∀ x ∈ s.quadWarps quad, (((s.measured quad energy).parkFor quad parked).warp x.1 x.2).parked = decide (x ∈ chosen)) ∧
    ((∀ x ∈ s.quadWarps quad, (s.warp x.1 x.2).slot < 256) → ∀ x ∈ chosen, ∀ y ∈ s.quadWarps quad, y ∉ chosen →
      s.unparkedSince x ≤ s.unparkedSince y) := by
  rw [← quadWarps_measured s quad energy]
  exact ⟨(s.measured quad energy).chosenToPark quad parked, length_chosenToPark_le .., fun once =>
      length_chosenToPark (s := s.measured quad energy) once parked,
    fun x hx => parked_parkFor hx, fun slots x hx y hy left => chosenToPark_longest (s := s.measured quad energy) slots hx hy left⟩

end

/-- Settles O48: dispatches by the start state that a placed group has, the end of a workgroup, exchanges by what entries and exits
of active sets leave, and the control interval by the choice of the warps that it parks. -/
theorem workgroupsStartAndEnd : Obligations.WorkgroupsStartAndEnd := by
  unfold Obligations.WorkgroupsStartAndEnd
  refine ⟨fun s l may => ⟨fun u single placed small => ?_, fun single waits t => dispatch_waits single waits,
      fun u whole => exec_dispatchAll may whole, fun whole waits t => dispatch_wholeWaits whole waits⟩,
    fun s k resident exited quiet still => ⟨_, exec_workgroupEnd resident exited quiet still, workgroupEnd_leaves _⟩,
    fun s t core part x xs out oldest done => ?_, fun s quad parked ballast energy pace announced known runs => ?_⟩
  · obtain ⟨t, next, mem, wgs, launch⟩ := exec_dispatchOne may single placed
    have launched : t.launch l = _ := (congrFun launch l).trans (launch_dispatchOne placed)
    refine ⟨t, next, mem, ⟨fun fresh => ?_, fun left => ?_⟩, fun w hw => ?_⟩
    · rw [launched]; exact nextWg_took fresh
    · rw [launched]; exact returned_took left
    · have wg : t.wg (wgKey l w) = u.wg (wgKey l w) := by rw [State.wg, wgs, State.wg]
      have start := dispatchOne_starts small placed w hw
      rw [← wg] at start
      exact ⟨start.resident, fun b hb => start.bars ▸ get_startBars _ hb, fun n hn =>
        ⟨fun i hi => (start.segImage n hn).symm ▸ get_segImage s _ hi, fun r j hj => regIn_startWarp _ _ n (start.regs n hn) r hj,
          fun j hj => lane_startWarp _ _ n (start.lanes n hn) hj⟩⟩
  · have entered := exchange_enters done
    exact ⟨fun empty nobody => ⟨exec_warpExchange_empty oldest done empty nobody, entered⟩,
      fun y ys stalled leave => ⟨exec_warpExchange_stalled oldest done stalled leave, entered⟩,
      fun y ys longest leave due => ⟨exec_forcedExchange oldest done longest leave due, entered⟩⟩
  · intro all share since n binds measured room binding free
    have limit : (s.parksFor quad parked ballast energy).limitBinds quad = true ∧ 2 ≤ (s.quadWarps quad).length ↔ binds :=
      and_congr_left fun _ => limitBinds_parksFor s quad parked ballast energy
    have holds (m : Nat) : ((s.measured quad energy).parkFor quad m).quadHolds quad = true ↔ room m := quadHolds_iff _ quad
    obtain ⟨t, next, wgs, quads, regs, other, first⟩ := exec_controlInterval (ballast := ballast) (energy := energy) pace announced known runs
      (mayPark_of (fun h => (binding (limit.1 h)).imp_right fun h' => h'.imp_right fun h'' =>
          h''.imp (holds parked).2 fun never m one less held => never m one less ((holds m).1 held))
        fun h => free (mt limit.2 h))
    obtain ⟨placed, quadsKept, signals⟩ := parksFor_keeps s quad parked ballast energy
    have block {o : Nat} : t.creg (energyBlock quad + o) = _ := regs _ slkCtl_ne_energyBlock.symm
    have warp (x : Nat × Nat) : t.warp x.1 x.2 = ((s.measured quad energy).parkFor quad parked).warp x.1 x.2 := by
      rw [State.warp, State.wg, wgs, placed]; rfl
    obtain ⟨shownParked, shownBallast⟩ := showParked_shows ((s.measured quad energy).parkFor quad parked) quad parked ballast
    obtain ⟨chosen, few, enough, parks, longest⟩ := parkFor_measured_parks (s := s) (quad := quad) (parked := parked) (energy := energy)
    refine ⟨t, next, block.trans shownParked, block.trans shownBallast, ?_, ?_, ⟨chosen, few, enough, fun x hx => ?_, longest⟩,
      fun h => ?_, first⟩
    · rw [quads, quad_parksFor]
    · rw [quads, quad_parksFor]
    · rw [warp]; exact parks x hx
    · rw [other h]
      exact ⟨creg_parksFor _ _ _ _ _ slkCtl_ne_energyBlock slkCtl_ne_energyBlock, signals⟩

end Sys2Proof.Machine
end

section

/-!
# Replies and acknowledgements (R94, R190, R306)
-/

namespace Sys2Proof.Machine

/-! ### The registers that a reply writes -/

theorem setRegIn_keeps (w : Warp) (h : Bool) (r l : Nat) (v : Word) :
    ∃ a b, w.setRegIn h r l v = { w with regs := a, hrows := b } := by
  unfold Warp.setRegIn
  split
  · exact ⟨_, _, rfl⟩
  · split <;> exact ⟨_, _, rfl⟩

theorem setRegs_keeps (w : Warp) (h : Bool) (l : Nat) (rs : List Nat) (v : Nat) :
    ∃ a b, w.setRegs h l rs v = { w with regs := a, hrows := b } := by
  induction rs generalizing w v with
  | nil => exact ⟨_, _, rfl⟩
  | cons r rs ih =>
    obtain ⟨a, b, one⟩ := setRegIn_keeps w h r l (BitVec.ofNat 32 v)
    obtain ⟨c, d, rest⟩ := ih { w with regs := a, hrows := b } (v / 2 ^ 32)
    exact ⟨c, d, by rw [Warp.setRegs, one, rest]⟩

theorem writeEscort_keeps (w : Warp) (l base : Nat) (vs : List Word) :
    ∃ a b, w.writeEscort l base vs = { w with regs := a, hrows := b } := by
  refine List.foldlRecOn (motive := fun u : Warp => ∃ a b, u = { w with regs := a, hrows := b }) _ _ ⟨_, _, rfl⟩ ?_
  rintro u ⟨a, b, rfl⟩ i -
  obtain ⟨c, d, one⟩ := setRegIn_keeps { w with regs := a, hrows := b } false (base + i) l (vs.getD i 0)
  exact ⟨c, d, one⟩

theorem regIn_setRegs_other (w : Warp) (h : Bool) {l : Nat} {rs : List Nat} (v : Nat) (g : Bool) {q j : Nat} (other : q ∉ rs ∨ j ≠ l) :
    (w.setRegs h l rs v).regIn g q j = w.regIn g q j := by
  induction rs generalizing w v with
  | nil => rfl
  | cons r rs ih =>
    rw [List.mem_cons, not_or] at other
    refine (ih _ _ (other.imp_left And.right)).trans ?_
    rw [regIn_setRegIn, if_neg fun at_ => other.elim (fun o => o.1 at_.1) fun o => o at_.2.1]

/-- The words of a value in distinct registers, lowest first. -/
theorem regIn_setRegs_word (w : Warp) (h : Bool) (l : Nat) {rs : List Nat} (distinct : rs.Nodup) (v : Nat) {j : Nat}
    (hj : j < rs.length) (gz : rs.getD j 0 ≠ 255) :
    (w.setRegs h l rs v).regIn h (rs.getD j 0) l = BitVec.ofNat 32 (v / 2 ^ (32 * j)) := by
  induction rs generalizing w v j with
  | nil => cases hj
  | cons r rs ih =>
    obtain ⟨fresh, distinct⟩ := List.nodup_cons.1 distinct
    cases j with
    | zero =>
      rw [List.getD_cons_zero] at gz ⊢
      rw [Warp.setRegs, regIn_setRegs_other _ _ _ _ (.inl fresh), regIn_setRegIn, if_pos ⟨rfl, rfl, gz, by simp [sameRow]⟩]
      simp
    | succ j =>
      rw [List.getD_cons_succ] at gz ⊢
      rw [Warp.setRegs, ih _ distinct _ (by simpa using hj) gz, Nat.div_div_eq_div_mul, ← pow_add]
      congr 3
      omega

theorem destsOf_nodup (i : Instr) : (destsOf i).Nodup := by
  cases i <;> simp only [destsOf] <;> repeat' split
  all_goals simp

theorem regIn_writeEscort_other (w : Warp) {l base : Nat} {vs : List Word} (g : Bool) {q j : Nat}
    (other : (∀ i, i < vs.length → q ≠ base + i) ∨ j ≠ l) : (w.writeEscort l base vs).regIn g q j = w.regIn g q j := by
  refine List.foldlRecOn (motive := fun u : Warp => u.regIn g q j = w.regIn g q j) _ _ rfl fun u same i hi => ?_
  rw [regIn_setRegIn, if_neg fun at_ => other.elim (fun o => o i (List.mem_range.1 hi) at_.1) fun o => o at_.2.1, same]

theorem mem_escorted {r : Req} {q : Nat} : q ∈ r.escorted ↔ r.noEsc = false ∧ ∃ i, i < r.escCount ∧ r.escBase + i = q := by
  unfold Req.escorted
  split <;> simp_all

/-- A warp after the reply of a request for one lane: the destination, unless the lane read an error, and the escort. -/
def Warp.replied (w : Warp) (r : Req) (x : Slot) : Warp :=
  let w1 := if x.bad then w else w.writeBack r.insn r.handler x.lane x.reply
  if r.noEsc then w1 else w1.writeEscort x.lane r.escBase x.esc

theorem replied_keeps (w : Warp) (r : Req) (x : Slot) : ∃ a b, w.replied r x = { w with regs := a, hrows := b } := by
  unfold Warp.replied Warp.writeBack
  dsimp only
  obtain ⟨a, b, dest⟩ : ∃ a b, (if x.bad then w else w.setRegs r.handler x.lane (destsOf r.insn) (loadValue r.insn x.reply)) =
      { w with regs := a, hrows := b } := by
    split
    · exact ⟨_, _, rfl⟩
    · exact setRegs_keeps ..
  rw [dest]
  split
  · exact ⟨_, _, rfl⟩
  · exact writeEscort_keeps { w with regs := a, hrows := b } ..

section
variable (w : Warp) {r : Req} {x : Slot} (whole : r.noEsc = true ∨ x.esc.length = r.escCount)
include whole

/-- The escort is written over the destination. -/
theorem replied_unescorted (g : Bool) {q j : Nat} (other : j ≠ x.lane ∨ q ∉ r.escorted) :
    (w.replied r x).regIn g q j =
      (if x.bad then w else w.writeBack r.insn r.handler x.lane x.reply).regIn g q j := by
  unfold Warp.replied
  dsimp only
  split
  · rfl
  · next escorted =>
    have length := whole.resolve_left escorted
    refine regIn_writeEscort_other _ _ (other.symm.imp_left fun not i hi same => ?_)
    exact not (mem_escorted.2 ⟨by simpa using escorted, i, length ▸ hi, same.symm⟩)

theorem replied_other (g : Bool) {q j : Nat} (other : j ≠ x.lane ∨ ((q ∉ destsOf r.insn ∨ x.bad = true) ∧ q ∉ r.escorted)) :
    (w.replied r x).regIn g q j = w.regIn g q j := by
  rw [replied_unescorted w whole g (other.imp_right And.right)]
  split
  · rfl
  · next good => exact regIn_setRegs_other _ _ _ _ (other.symm.imp_left fun o => o.1.resolve_right good)

theorem replied_word (good : x.bad = false) {j : Nat} (hj : j < (destsOf r.insn).length) (gz : (destsOf r.insn).getD j 0 ≠ 255)
    (free : (destsOf r.insn).getD j 0 ∉ r.escorted) :
    (w.replied r x).regIn r.handler ((destsOf r.insn).getD j 0) x.lane =
      BitVec.ofNat 32 (loadValue r.insn x.reply / 2 ^ (32 * j)) := by
  rw [replied_unescorted w whole _ (.inr free), good]
  exact regIn_setRegs_word w r.handler x.lane (destsOf_nodup _) _ hj gz

theorem replied_escort (escorted : r.noEsc = false) (below : r.escBase + r.escCount ≤ 248) {j : Nat} (hj : j < r.escCount) :
    (w.replied r x).regIn false (r.escBase + j) x.lane = x.esc.getD j 0 := by
  have length : x.esc.length = r.escCount := whole.resolve_left (by simp [escorted])
  unfold Warp.replied
  rw [if_neg (by simp [escorted])]
  exact regIn_writeEscort _ _ _ _ (by omega) (by omega)

end

/-! ### A change of one warp -/

/-- Of requests, memory and workgroups a step changes one warp, which becomes `x`. -/
structure OneWarp (s u : State) (k w : Nat) (x : Warp) : Prop where
  reqs : u.reqs = s.reqs
  mem : u.mem = s.mem
  wgs : ∀ j, j ≠ k → u.wg j = s.wg j
  warps : ∀ v, v ≠ w → u.warp k v = s.warp k v
  recs : (u.wg k).recs = (s.wg k).recs
  warp : u.warp k w = x

theorem oneWarp_refl (s : State) (k w : Nat) : OneWarp s s k w (s.warp k w) := ⟨rfl, rfl, fun _ _ => rfl, fun _ _ => rfl, rfl, rfl⟩

theorem OneWarp.trans {s t u : State} {k w : Nat} {x y : Warp} (first : OneWarp s t k w x) (next : OneWarp t u k w y) :
    OneWarp s u k w y :=
  ⟨next.reqs.trans first.reqs, next.mem.trans first.mem, fun j hj => (next.wgs j hj).trans (first.wgs j hj),
    fun v hv => (next.warps v hv).trans (first.warps v hv), next.recs.trans first.recs, next.warp⟩

theorem oneWarp_updWarp (s : State) (k w : Nat) (g : Warp → Warp) : OneWarp s (s.updWarp k w g) k w (g (s.warp k w)) :=
  ⟨rfl, rfl, fun _ hj => wg_updWg_other _ _ hj, fun v hv => by rw [warp_updWarp, if_neg fun at_ => hv at_.2],
    updWarp_recs .., warp_updWarp_same ..⟩

theorem OneWarp.l1Clear {s u : State} {k w : Nat} {x : Warp} (h : OneWarp s u k w x) (core : Nat) : OneWarp s (u.l1Clear core) k w x :=
  ⟨h.reqs, h.mem, h.wgs, h.warps, h.recs, h.warp⟩

/-! ### The end of a request lowers its counter with the last of the instruction (R190) -/

/-- No other request of the instruction is in flight or recorded for an image. -/
def State.lastOf (s : State) (r : Req) : Prop :=
  (∀ q ∈ s.reqs, q.id ≠ r.id → q.fetch = false → q.group ≠ r.group) ∧
    ∀ q ∈ (s.wg r.wg).recReqs, q.fetch = false → q.group ≠ r.group

theorem lastOf_iff (s : State) (r : Req) :
    s.lastOf r ↔ ((s.reqs.filter fun q => q.id != r.id) ++ (s.wg r.wg).recReqs).any (fun q => q.group == r.group && !q.fetch) = false := by
  simp only [State.lastOf, List.any_append, Bool.or_eq_false_iff, List.any_eq_false, List.mem_filter, bne_iff_ne, Bool.and_eq_true,
    beq_iff_eq, Bool.not_eq_true', not_and]
  exact and_congr (forall_congr' fun q => ⟨fun h m g f => h m.1 m.2 f g, fun h m i f g => h ⟨m, i⟩ g f⟩)
    (forall₂_congr fun q _ => ⟨fun h g f => h f g, fun h f g => h g f⟩)

theorem OneWarp.lastOf {s u : State} {r : Req} {x : Warp} (h : OneWarp s u r.wg r.warp x) : u.lastOf r ↔ s.lastOf r := by
  unfold State.lastOf Workgroup.recReqs
  rw [h.reqs, h.recs]

theorem retire_reqs (s : State) (r : Req) : (s.retire r).reqs = s.reqs.filter fun q => q.id != r.id := by rw [retire_eq]

theorem retire_last {s : State} {r : Req} (data : r.fetch = false) (last : s.lastOf r) :
    (s.retire r).warp r.wg r.warp = (s.warp r.wg r.warp).bump (counterOf r.insn) false := by
  unfold State.retire
  dsimp only
  rw [data, Bool.false_or, (lastOf_iff s r).1 last, if_neg Bool.false_ne_true, warp_updWarp_same]
  rfl

theorem retire_notLast {s : State} {r : Req} (more : ¬s.lastOf r) : (s.retire r).wgs = s.wgs := by
  rw [lastOf_iff, Bool.not_eq_false] at more
  unfold State.retire
  dsimp only
  rw [more, Bool.or_true, if_pos rfl]

theorem retire_wgs_other (s : State) (r : Req) {k : Nat} (hk : k ≠ r.wg) : (s.retire r).wg k = s.wg k := by
  unfold State.retire
  dsimp only
  split
  · rfl
  · exact wg_updWg_other _ _ hk

theorem retire_warps_other (s : State) (r : Req) {w : Nat} (hw : w ≠ r.warp) : (s.retire r).warp r.wg w = s.warp r.wg w := by
  unfold State.retire
  dsimp only
  split
  · rfl
  · rw [warp_updWarp, if_neg fun at_ => hw at_.2]; rfl

/-! ### DATA_ERR, the reply and the acknowledgement -/

/-- The traps of a warp after a reply to one lane: DATA_ERR where the lane read an error. -/
def Warp.dataErred (w : Warp) (r : Req) (x : Slot) : Warp :=
  if x.bad then w.addTrap { cause := 9, pc := r.pc, va := BitVec.ofNat 80 x.addr, mask := maskOf [x.lane] } else w

theorem dataErred_keeps (w : Warp) (r : Req) (x : Slot) :
    w.dataErred r x = { w with pendTraps := (w.dataErred r x).pendTraps } := by
  unfold Warp.dataErred Warp.addTrap
  split
  · split <;> rfl
  · rfl

theorem dataErred_good (w : Warp) (r : Req) {x : Slot} (good : x.bad = false) : w.dataErred r x = w := by
  rw [Warp.dataErred, if_neg (by simp [good])]

theorem dataErred_traps (w : Warp) (r : Req) {x : Slot} (bad : x.bad = true) :
    ∃ y ∈ (w.dataErred r x).pendTraps, y.cause = 9 ∧ y.pc = r.pc ∧ (x.lane < 64 → y.mask.getLsbD x.lane = true) ∧
      (w.pendTraps = [] → y.va = BitVec.ofNat 80 x.addr ∧ y.mask = maskOf [x.lane]) := by
  rw [Warp.dataErred, if_pos bad]
  by_cases none : w.pendTraps = []
  · refine ⟨{ cause := 9, pc := r.pc, va := BitVec.ofNat 80 x.addr, mask := maskOf [x.lane] }, ?_, rfl, rfl, fun lt => ?_, fun _ => ⟨rfl, rfl⟩⟩
    · simp [Warp.addTrap, none]
    · exact getLsbD_maskOf (List.mem_singleton_self _) lt
  · obtain ⟨y, hy, cause, pc, mask⟩ := exists_addTrap w (t :=
      { cause := 9, pc := r.pc, va := BitVec.ofNat 80 x.addr, mask := maskOf [x.lane] }) rfl
    exact ⟨y, hy, cause, pc, fun lt => mask _ (getLsbD_maskOf (List.mem_singleton_self _) lt), fun e => absurd e none⟩

theorem OneWarp.dataErr {s u : State} {r : Req} {x : Slot} {w : Warp} (h : OneWarp s u r.wg r.warp w) (one : r.slots = [x]) :
    OneWarp s (u.dataErr r) r.wg r.warp (w.dataErred r x) := by
  unfold Warp.dataErred
  by_cases bad : x.bad = true
  · rw [dataErr_one one bad, if_pos bad, ← h.warp]
    exact h.trans (oneWarp_updWarp ..)
  · have same : u.dataErr r = u := by simp [State.dataErr, one, bad]
    rw [same, if_neg bad]
    exact h

/-- The warp of a request for one lane just before the request ends with its reply. -/
def State.replyWarp (s : State) (r : Req) (x : Slot) : Warp :=
  if s.takes r then ((s.warp r.wg r.warp).replied r x).dataErred r x else s.warp r.wg r.warp

/-- The warp of a request for one lane just before the request ends with its acknowledgement. -/
def State.ackWarp (s : State) (r : Req) (x : Slot) : Warp :=
  if s.takes r then (s.warp r.wg r.warp).dataErred r x else s.warp r.wg r.warp

/-- A reply writes one warp and ends the request. -/
theorem deliver_one (s : State) {r : Req} {x : Slot} (one : r.slots = [x]) :
    ∃ u, OneWarp s u r.wg r.warp (s.replyWarp r x) ∧ s.deliver r = u.retire r := by
  by_cases takes : s.takes r = true
  · rw [State.replyWarp, if_pos takes, State.deliver, if_neg (by simp [takes]), one]
    dsimp only
    have written : OneWarp s (s.updWarp r.wg r.warp fun w => w.replied r x) r.wg r.warp ((s.warp r.wg r.warp).replied r x) :=
      oneWarp_updWarp ..
    refine ⟨_, OneWarp.dataErr ?_ one, rfl⟩
    split
    · exact written.l1Clear r.core
    · exact written
  · rw [State.replyWarp, if_neg takes, State.deliver, if_pos (by simp [takes])]
    exact ⟨s, oneWarp_refl .., rfl⟩

theorem acknowledge_one (s : State) {r : Req} {x : Slot} (one : r.slots = [x]) :
    ∃ u, OneWarp s u r.wg r.warp (s.ackWarp r x) ∧ s.acknowledge r = u.retire r := by
  unfold State.acknowledge State.ackWarp
  split
  · exact ⟨_, (oneWarp_refl s ..).dataErr one, rfl⟩
  · exact ⟨s, oneWarp_refl .., rfl⟩

/-- What the warp of a request for one lane has become just before the request ends, apart from registers. -/
structure Answered (s : State) (r : Req) (x : Slot) (y : Warp) : Prop where
  lanes : y.lanes = (s.warp r.wg r.warp).lanes
  fstat : y.fstat = (s.warp r.wg r.warp).fstat
  ldc : y.ldc = (s.warp r.wg r.warp).ldc
  stc : y.stc = (s.warp r.wg r.warp).stc
  struck : x.bad = true → s.takes r = true → ∃ t ∈ y.pendTraps, t.cause = 9 ∧ t.pc = r.pc ∧ (x.lane < 64 → t.mask.getLsbD x.lane = true) ∧
    ((s.warp r.wg r.warp).pendTraps = [] → t.va = BitVec.ofNat 80 x.addr ∧ t.mask = maskOf [x.lane])
  quiet : x.bad = false ∨ s.takes r = false → y.pendTraps = (s.warp r.wg r.warp).pendTraps

theorem answered_dataErred (s : State) (r : Req) (x : Slot) {w : Warp}
    (written : ∃ a b, w = { s.warp r.wg r.warp with regs := a, hrows := b }) :
    Answered s r x (if s.takes r then w.dataErred r x else s.warp r.wg r.warp) := by
  obtain ⟨a, b, rfl⟩ := written
  by_cases takes : s.takes r = true
  · rw [if_pos takes]
    have keeps := dataErred_keeps { s.warp r.wg r.warp with regs := a, hrows := b } r x
    refine ⟨?_, ?_, ?_, ?_, fun bad _ => dataErred_traps _ r bad, fun quiet => ?_⟩
    iterate 4 rw [keeps]
    rw [dataErred_good _ r (quiet.resolve_right (by simp [takes]))]
  · rw [if_neg takes]
    exact ⟨rfl, rfl, rfl, rfl, fun _ t => absurd t takes, fun _ => rfl⟩

theorem answered_replyWarp (s : State) (r : Req) (x : Slot) : Answered s r x (s.replyWarp r x) :=
  answered_dataErred s r x (replied_keeps ..)

theorem answered_ackWarp (s : State) (r : Req) (x : Slot) : Answered s r x (s.ackWarp r x) :=
  answered_dataErred s r x ⟨_, _, rfl⟩

theorem takes_iff (s : State) (r : Req) : s.takes r = true ↔ (s.wg r.wg).status = .resident := by simp [State.takes]

theorem not_takes_iff (s : State) (r : Req) : s.takes r = false ↔ (s.wg r.wg).status ≠ .resident := by
  rw [← Bool.not_eq_true, takes_iff]

/-- A request whose warp is answered for ends: the request and nothing else is gone, and of its warp only registers, class counters and
traps change. -/
theorem retire_ends {s u : State} {r : Req} {x : Slot} {y : Warp} (h : OneWarp s u r.wg r.warp y) (a : Answered s r x y) :
    let t := u.retire r
    t.reqs = s.reqs.filter (fun q => q.id != r.id) ∧ t.mem = s.mem ∧
      (∀ k, k ≠ r.wg → t.wg k = s.wg k) ∧ (∀ w, w ≠ r.warp → t.warp r.wg w = s.warp r.wg w) ∧
      (t.warp r.wg r.warp).lanes = (s.warp r.wg r.warp).lanes ∧ (t.warp r.wg r.warp).fstat = (s.warp r.wg r.warp).fstat ∧
      (x.bad = true → (s.wg r.wg).status = .resident → ∃ y ∈ (t.warp r.wg r.warp).pendTraps, y.cause = 9 ∧ y.pc = r.pc ∧
        (x.lane < 64 → y.mask.getLsbD x.lane = true) ∧
        ((s.warp r.wg r.warp).pendTraps = [] → y.va = BitVec.ofNat 80 x.addr ∧ y.mask = maskOf [x.lane])) ∧
      (x.bad = false ∨ (s.wg r.wg).status ≠ .resident → (t.warp r.wg r.warp).pendTraps = (s.warp r.wg r.warp).pendTraps) := by
  obtain ⟨c, d, same⟩ := retire_warp u r r.wg r.warp
  rw [h.warp] at same
  dsimp only
  refine ⟨?_, ?_, fun k hk => ?_, fun w hw => ?_, ?_, ?_, ?_, ?_⟩
  · rw [retire_reqs, h.reqs]
  · rw [retire_mem, h.mem]
  · rw [retire_wgs_other u r hk, h.wgs k hk]
  · rw [retire_warps_other u r hw, h.warps w hw]
  · rw [same]; exact a.lanes
  · rw [same]; exact a.fstat
  · rw [same, ← takes_iff]; exact a.struck
  · rw [same, ← not_takes_iff]; exact a.quiet

/-- The counters of the warp of a request that ends. -/
theorem retire_counters {s u : State} {r : Req} {x : Slot} {y : Warp} (data : r.fetch = false) (h : OneWarp s u r.wg r.warp y)
    (a : Answered s r x y) :
    (¬s.lastOf r → ((u.retire r).warp r.wg r.warp).ldc = (s.warp r.wg r.warp).ldc ∧
      ((u.retire r).warp r.wg r.warp).stc = (s.warp r.wg r.warp).stc) ∧
    (s.lastOf r → (counterOf r.insn = .ldc → ((u.retire r).warp r.wg r.warp).ldc = (s.warp r.wg r.warp).ldc - 1) ∧
      (counterOf r.insn = .stc → ((u.retire r).warp r.wg r.warp).stc = (s.warp r.wg r.warp).stc - 1)) := by
  refine ⟨fun more => ?_, fun last => ?_⟩
  · rw [State.warp, State.wg, retire_notLast (mt h.lastOf.1 more)]
    change (u.warp r.wg r.warp).ldc = _ ∧ (u.warp r.wg r.warp).stc = _
    rw [h.warp]
    exact ⟨a.ldc, a.stc⟩
  · rw [retire_last data (h.lastOf.2 last), h.warp, ← a.ldc, ← a.stc]
    exact ⟨fun c => by rw [c]; rfl, fun c => by rw [c]; rfl⟩

theorem replyWarp_regIn_absent {s : State} {r : Req} (x : Slot) (gone : (s.wg r.wg).status ≠ .resident) :
    s.replyWarp r x = s.warp r.wg r.warp := by
  rw [State.replyWarp, if_neg (mt (takes_iff s r).1 gone)]

theorem dataErred_regIn (w : Warp) (r : Req) (x : Slot) (g : Bool) (q j : Nat) :
    (w.dataErred r x).regIn g q j = w.regIn g q j := by
  unfold Warp.dataErred
  split
  · exact regIn_addTrap ..
  · rfl

theorem replyWarp_regIn {s : State} {r : Req} (x : Slot) (here : (s.wg r.wg).status = .resident) (g : Bool) (q j : Nat) :
    (s.replyWarp r x).regIn g q j = ((s.warp r.wg r.warp).replied r x).regIn g q j := by
  rw [State.replyWarp, if_pos ((takes_iff s r).2 here), dataErred_regIn]

theorem ackWarp_regIn (s : State) (r : Req) (x : Slot) (g : Bool) (q j : Nat) :
    (s.ackWarp r x).regIn g q j = (s.warp r.wg r.warp).regIn g q j := by
  unfold State.ackWarp
  split
  · exact dataErred_regIn ..
  · rfl

/-- An answer of L1 is due once every other request of the load that L1 does not answer has passed its checks or has parked. -/
theorem replyDue_iff (s : State) (r : Req) : s.replyDue r = true ↔
    (r.fromL1 = true → ∀ q ∈ s.reqs, q.group = r.group → q.fetch = false → q.phase ≠ .performed → q.fromL1 = false →
      q.arrived = true ∨ q.phase = .parked ∨ q.phase = .miss) := by
  unfold State.replyDue State.mates
  cases r.fromL1 with
  | false => simp
  | true =>
    simp only [Bool.not_true, Bool.false_or, List.all_eq_true, List.mem_filter, Bool.and_eq_true, beq_iff_eq, Bool.not_eq_true',
      Bool.or_eq_true, bne_iff_ne, true_imp_iff]
    refine forall_congr' fun q => Iff.intro (fun h here group data going other => ?_) fun h ⟨here, ⟨group, data⟩, going⟩ => ?_
    · simpa [other, or_assoc] using h ⟨here, ⟨group, data⟩, .inl going⟩
    · by_cases l1 : q.fromL1 = true
      · exact .inl (.inl (.inl l1))
      · simpa [l1, or_assoc] using h here group data (going.resolve_right l1) (by simpa using l1)

section
variable {s : State} {r : Req} (found : s.reqs.find? (fun q => q.id == r.id) = some r) (performed : r.phase = .performed)
include found performed

theorem loadReply_runs (load : counterOf r.insn = .ldc) :
    exec (.loadReply r.id) s = event "LOAD_REPLY" (s.replyDue r) (s.deliver r) := by
  have req : s.req? r.id = some r := found
  show execLoadReply r.id s = _
  simp [execLoadReply, req, performed, load]

theorem storeAck_runs (store : counterOf r.insn = .stc) : exec (.storeAck r.id) s = .next (s.acknowledge r) := by
  have req : s.req? r.id = some r := found
  show execStoreAck r.id s = _
  simp [execStoreAck, req, performed, store, event]

end

/-- Settles O40: a reply and an acknowledgement change one warp (registers and traps) and end the request, which lowers the counter with
the last request of the instruction. -/
theorem repliesAndAcknowledgements : Obligations.RepliesAndAcknowledgements := by
  unfold Obligations.RepliesAndAcknowledgements
  intro s r x found one data performed whole last due v words ends
  refine ⟨fun load early => ?_, fun load ready => ?_, fun store => ?_⟩
  · rw [loadReply_runs found performed load, Bool.eq_false_iff.2 (mt (replyDue_iff s r).1 early)]
    rfl
  · obtain ⟨u, h, deliver⟩ := deliver_one s one
    have a := answered_replyWarp s r x
    obtain ⟨more, lowers⟩ := retire_counters data h a
    have regs (g : Bool) (n l : Nat) : ((u.retire r).warp r.wg r.warp).regIn g n l = (s.replyWarp r x).regIn g n l := by
      rw [retire_regIn, h.warp]
    refine ⟨u.retire r, ?_, retire_ends h a, fun m => (more m).1, fun l => (lowers l).1 load, fun gone g n l => ?_, fun here =>
      ⟨fun g n l other => ?_, fun good j hj gz free => ?_, fun escorted below j hj => ?_⟩⟩
    · rw [loadReply_runs found performed load, (replyDue_iff s r).2 ready, deliver]
      rfl
    · rw [regs, replyWarp_regIn_absent x gone]
    · rw [regs, replyWarp_regIn x here, replied_other _ whole g other]
    · rw [regs, replyWarp_regIn x here, replied_word _ whole good hj gz free]
    · rw [regs, replyWarp_regIn x here, replied_escort _ whole escorted below hj]
  · obtain ⟨u, h, acknowledge⟩ := acknowledge_one s one
    have a := answered_ackWarp s r x
    obtain ⟨more, lowers⟩ := retire_counters data h a
    refine ⟨u.retire r, ?_, retire_ends h a, fun g n l => ?_, fun m => (more m).2, fun l => (lowers l).2 store⟩
    · rw [storeAck_runs found performed store, acknowledge]
    · rw [retire_regIn, h.warp, ackWarp_regIn]

end Sys2Proof.Machine
end

section

/-!
# Queue messages (R111 to R113, R157, R260, R334 to R336)
-/

namespace Sys2Proof.Machine

/-! ### The issuing workgroup and its state after the charge -/

section
variable (s : State) (f : Fields)

theorem curG_charge : (s.charge f).curG = { s.curG with warps := (s.charge f).curG.warps } := by rw [charge_eq, curG_updCur]

theorem wg_status_charge (k : Nat) : ((s.charge f).wg k).status = (s.wg k).status := by
  rw [charge_eq, State.updCur, State.updWarp, wg_updWg]
  split
  · next same => rw [same]
  · rfl

theorem queue_charge (q : Nat) : (s.charge f).curG.queue q = SMap.get [] s.curG.queues q := by
  rw [Workgroup.queue, curG_charge]

theorem core_charge : (s.charge f).curG.core = s.curG.core := by rw [curG_charge]

/-- PROT on the guard-true lanes of an instruction that has been charged. -/
theorem protHere_charge_trapped {s : State} (may : canTrap s) (detail va : Nat) :
    Trapped (s.charge f) ((s.charge f).protHere f detail va) 7 detail s.curPc (BitVec.ofNat 80 va) (maskOf (s.trueLanes f)) := by
  have ends := takeTrap_trapped (canTrap_charge f may)
    (t := { cause := 7, detail, pc := (s.charge f).curPc, va := BitVec.ofNat 80 va, mask := maskOf ((s.charge f).trueLanes f) })
    (show 7 < 32 by decide)
  rw [curPc_charge, trueLanes_charge] at ends
  rw [State.protHere, curPc_charge, trueLanes_charge]
  exact ends

end

/-! ### qpoll and qpoll.send -/

theorem qpoll_completes (f : Fields) (s : State) :
    Completes (.qpoll f) s (toPred f s fun _ => decide (SMap.get [] s.curG.queues f.a.toNat ≠ [])) := by
  refine completes_of (fun s => s.writePred f fun _ _ => !(s.curG.queue f.a.toNat).isEmpty) rfl rfl ?_
  have asks (q : List Message) : (!q.isEmpty) = decide (q ≠ []) := by cases q <;> rfl
  have wrote := writePred_executed s f fun _ _ => !((s.charge f).curG.queue f.a.toNat).isEmpty
  simp only [queue_charge, asks] at wrote
  show Executed s ((s.charge f).writePred f fun _ _ => !((s.charge f).curG.queue f.a.toNat).isEmpty) f _
  simp only [queue_charge, asks]
  exact wrote

/-- The message that a `qpoll.send` puts on its way. -/
def State.sentMessage (s : State) (f : Fields) : Message :=
  { mask := maskOf (s.trueLanes f), words := (s.trueLanes f).foldl (fun m l => SMap.set 0 m l (s.curW.reg f.a.toNat l)) []
    scope := f.modHi, core := s.curG.core }

/-- A key that a list does not hold keeps its entry while the list's entries are made. -/
theorem get_foldl_set_other {α : Type} [DecidableEq α] (d : α) (g : Nat → α) {ls : List Nat} (m : SMap α) {j : Nat} (other : j ∉ ls) :
    SMap.get d (ls.foldl (fun m l => SMap.set d m l (g l)) m) j = SMap.get d m j := by
  refine List.foldlRecOn (motive := fun n => SMap.get d n j = SMap.get d m j) _ _ rfl fun n same l hl => ?_
  rw [SMap.get_set, if_neg (by rintro rfl; exact other hl), same]

theorem sentMessage_charge (s : State) (f : Fields) : (s.charge f).sentMessage f = s.sentMessage f := by
  simp only [State.sentMessage, trueLanes_charge, curW_charge, charged_reg, core_charge]

theorem sentMessage_word (s : State) (f : Fields) (j : Nat) :
    SMap.get 0 (s.sentMessage f).words j = if j ∈ s.trueLanes f then s.curW.reg f.a.toNat j else 0 := by
  unfold State.sentMessage
  split
  · next here => exact get_foldl_set 0 _ [] here
  · next other => exact get_foldl_set_other 0 _ [] other

/-- A message is put on its way to a queue. -/
def State.sendMessage (s : State) (f : Fields) (target : Nat) (m : Message) : State :=
  { s with tag := s.tag + 1
           flights := s.flights ++ [{ id := s.tag, wg := s.curWg, warp := s.curWarp, target, queue := f.d.toNat, msg := m, bound := s.tag }] }

/-- The index that a `qpoll.send` names. -/
def State.sendIndex (s : State) (f : Fields) : Nat := (s.curW.reg f.b.toNat ((s.trueLanes f).headD 0)).toNat

/-- What a `qpoll.send` does once it is charged. -/
def State.send (s : State) (f : Fields) : State :=
  match s.sendTarget f with
  | none => s.advance f.len
  | some (i, t) =>
    if (s.packet s.curWg).grid ≤ i || (s.wg t).status == .exited || (s.wg t).status == .discarded then s.protHere f 9 i
    else (s.sendMessage f t (s.sentMessage f)).advance f.len

section
variable {f : Fields} {s : State}

theorem qpollSend_runs (runs : Runs (.qpollSend f) s) : exec (.qpollSend f) s = .next ((s.charge f).send f) :=
  issueHeld_runs (fun s => s.send f) runs rfl

theorem sendTarget_charge : (s.charge f).sendTarget f = s.sendTarget f := by
  unfold State.sendTarget
  rw [trueLanes_charge, curW_charge]
  simp only [charged_reg]
  rfl

theorem sendTarget_some (lanes : s.trueLanes f ≠ []) :
    s.sendTarget f = some (s.sendIndex f, keyLaunch s.curWg * 2 ^ 32 + s.sendIndex f) := by
  obtain ⟨l, ls, issue⟩ := List.exists_cons_of_ne_nil lanes
  simp only [State.sendTarget, State.sendIndex, issue, List.headD_cons, wgKey]

theorem qpollSend_none (none : s.trueLanes f = []) : Completes (.qpollSend f) s {} := fun runs => by
  have no : s.sendTarget f = .none := by simp only [State.sendTarget, none]
  rw [qpollSend_runs runs, State.send, sendTarget_charge, no]
  exact ⟨_, rfl, advance_executed s f⟩

theorem qpollSend_sends (lanes : s.trueLanes f ≠ []) (inside : s.sendIndex f < (s.packet s.curWg).grid)
    (running : (s.wg (keyLaunch s.curWg * 2 ^ 32 + s.sendIndex f)).status ≠ .exited)
    (kept : (s.wg (keyLaunch s.curWg * 2 ^ 32 + s.sendIndex f)).status ≠ .discarded) :
    CompletesWith (.qpollSend f) s {} fun u =>
      { u with tag := u.tag + 1
               flights := u.flights ++ [{ id := s.tag, wg := s.curWg, warp := s.curWarp
                                          target := keyLaunch s.curWg * 2 ^ 32 + s.sendIndex f, queue := f.d.toNat
                                          msg := s.sentMessage f, bound := s.tag }] } := fun runs => by
  have packet : (s.charge f).packet (s.charge f).curWg = s.packet s.curWg := rfl
  refine ⟨(s.charge f).advance f.len, ?_, advance_executed s f⟩
  rw [qpollSend_runs runs, State.send, sendTarget_charge, sendTarget_some lanes]
  dsimp only
  rw [wg_status_charge, packet, sentMessage_charge, if_neg]
  · rfl
  · simp only [Bool.or_eq_true, decide_eq_true_eq, beq_iff_eq, not_or, not_le]
    exact ⟨⟨inside, running⟩, kept⟩

theorem qpollSend_traps (lanes : s.trueLanes f ≠ [])
    (bad : (s.packet s.curWg).grid ≤ s.sendIndex f ∨ (s.wg (keyLaunch s.curWg * 2 ^ 32 + s.sendIndex f)).status = .exited ∨
      (s.wg (keyLaunch s.curWg * 2 ^ 32 + s.sendIndex f)).status = .discarded) (may : canTrap s) (runs : Runs (.qpollSend f) s) :
    ∃ t detail, exec (.qpollSend f) s = .next t ∧
      Trapped (s.charge f) t 7 detail s.curPc (BitVec.ofNat 80 (s.sendIndex f)) (maskOf (s.trueLanes f)) := by
  have packet : (s.charge f).packet (s.charge f).curWg = s.packet s.curWg := rfl
  refine ⟨(s.charge f).protHere f 9 (s.sendIndex f), 9, ?_, protHere_charge_trapped f may 9 _⟩
  rw [qpollSend_runs runs, State.send, sendTarget_charge, sendTarget_some lanes]
  dsimp only
  rw [wg_status_charge, packet, if_pos]
  simpa only [Bool.or_eq_true, decide_eq_true_eq, beq_iff_eq, or_assoc] using bad

end

/-! ### qpoll.recv -/

/-- What a `qpoll.recv` does once it is charged. -/
def State.recv (s : State) (f : Fields) : State :=
  let ls := s.trueLanes f
  let q := f.a.toNat
  if ls.isEmpty then s.advance f.len
  else if (s.curG.queue q).isEmpty then
    (s.waitLanes ls (.message q f.d.toNat (maskOf ls)) f.len).advanceLanes s.curWg s.curWarp
      (s.group.filter fun l => !ls.contains l) f.len
  else (s.takeMessage s.curWg s.curWarp q f.d.toNat ls).advance f.len

section
variable {f : Fields} {s : State}

theorem qpollRecv_runs (runs : Runs (.qpollRecv f) s) : exec (.qpollRecv f) s = .next ((s.charge f).recv f) :=
  issueHeld_runs (fun s => s.recv f) runs rfl

theorem qpollRecv_none (none : s.trueLanes f = []) : Completes (.qpollRecv f) s {} := fun runs => by
  refine ⟨_, qpollRecv_runs runs, ?_⟩
  rw [State.recv, trueLanes_charge, none]
  exact advance_executed s f

theorem qpollRecv_waits (lanes : s.trueLanes f ≠ []) (empty : SMap.get [] s.curG.queues f.a.toNat = []) :
    Completes (.qpollRecv f) s
      { lane := fun j x => if j ∈ s.trueLanes f then
          { x with pc := (s.curW.lane j).pc, wait := some ⟨.message f.a.toNat f.d.toNat (maskOf (s.trueLanes f)), f.len⟩ }
          else x } := fun runs => by
  refine ⟨_, qpollRecv_runs runs, ?_⟩
  have waits : (s.charge f).recv f =
      s.updCur fun w => (w.charged s f).waiting s (s.trueLanes f) (.message f.a.toNat f.d.toNat (maskOf (s.trueLanes f))) f.len := by
    rw [State.recv, trueLanes_charge, queue_charge, empty, if_neg (by simpa using lanes)]
    show ((s.updCur fun w => w.charged s f).updCur _).updCur _ = _
    rw [updCur_updCur, updCur_updCur]
    rfl
  rw [waits]
  exact executed_waiting (P := id) (reg := fun _ _ => none) (trueLanes_nodup s f) (trueLanes_sub s f) (regsOnly_refl _)
    (charged_reg s.curW s f)

/-- The reader's registers hold the words of a message. -/
theorem executed_received (s : State) (f : Fields) (m : Message) :
    Executed s (((s.charge f).updCur fun w =>
        (s.trueLanes f).foldl (fun x l => x.setReg f.d.toNat l (SMap.get 0 m.words l)) w).advance f.len) f
      { reg := fun r j => if r = f.d.toNat ∧ r ≠ 255 ∧ j ∈ s.trueLanes f then some (SMap.get 0 m.words j) else none } := by
  have wrote := executed_regs (fl := fun _ => 0) (sr := false)
    (Q := fun w => (s.trueLanes f).foldl (fun x l => x.setReg f.d.toNat l (SMap.get 0 m.words l)) w)
    (reg := fun r j => if r = f.d.toNat ∧ r ≠ 255 ∧ j ∈ s.trueLanes f then some (SMap.get 0 m.words j) else none)
    (s := s) (f := f) (regsOnly_foldl_setReg ..) fun r j => by
      rw [reg_foldl_setReg, charged_reg]
      split <;> rfl
  rw [seeding_false _ _ _ rfl] at wrote
  simpa [Warp.advanceSeed] using wrote

/-- A queue's rest and the reader's warp may change in either order. -/
theorem received_commutes (u : State) (q : SMap (List Message) → SMap (List Message)) (n : Nat) (P : Warp → Warp) :
    ((u.updWg u.curWg fun x => { x with queues := q x.queues }).updWarp u.curWg u.curWarp P).advance n =
      ((u.updCur P).advance n).updCurG fun x => { x with queues := q x.queues } := by
  simp only [State.advance, State.updCurG, State.updCur, State.updWarp, State.updWg, SMap.upd_upd]
  rfl

/-- So may the L1 of a core. -/
theorem received_clears (u : State) (q : SMap (List Message) → SMap (List Message)) (n : Nat) (P : Warp → Warp) (core : Nat) :
    (((u.updWg u.curWg fun x => { x with queues := q x.queues }).l1Clear core).updWarp u.curWg u.curWarp P).advance n =
      (((u.updCur P).advance n).updCore core fun c => { c with l1 := [] }).updCurG fun x => { x with queues := q x.queues } :=
  congrArg (·.l1Clear core) (received_commutes u q n P)

/-- A reader takes the oldest message: the rest of the queue is left, and a message of a release in the reader's unit empties its L1. -/
theorem qpollRecv_takes (lanes : s.trueLanes f ≠ []) {m : Message} {ms : List Message}
    (queue : SMap.get [] s.curG.queues f.a.toNat = m :: ms) : CompletesWith (.qpollRecv f) s
      { reg := fun r j => if r = f.d.toNat ∧ r ≠ 255 ∧ j ∈ s.trueLanes f then some (SMap.get 0 m.words j) else none }
      fun u => (if 2 ≤ m.scope ∧ sameUnit m.scope m.core s.curG.core = true then u.updCore s.curG.core fun c => { c with l1 := [] } else u).updCurG
        fun g => { g with queues := SMap.set [] g.queues f.a.toNat ms } := fun runs => by
  refine ⟨_, ?_, executed_received s f m⟩
  have here : ((s.charge f).wg (s.charge f).curWg).queue f.a.toNat = m :: ms := (queue_charge s f _).trans queue
  have core : ((s.charge f).wg (s.charge f).curWg).core = s.curG.core := core_charge s f
  have popped : (((s.charge f).updWg (s.charge f).curWg fun g => { g with queues := SMap.set [] g.queues f.a.toNat ms }).wg
      (s.charge f).curWg).core = s.curG.core := by rw [wg_updWg_same]; exact core
  rw [qpollRecv_runs runs, State.recv, trueLanes_charge, queue_charge, queue, if_neg (by simpa using lanes), if_neg (by simp),
    State.takeMessage, here]
  simp only [core, popped, Bool.and_eq_true, decide_eq_true_eq]
  by_cases acquires : 2 ≤ m.scope ∧ sameUnit m.scope m.core s.curG.core = true
  · rw [if_pos acquires, if_pos acquires]
    exact congrArg Host.Outcome.next (received_clears (s.charge f) (fun q => SMap.set [] q f.a.toNat ms) f.len _ _)
  · rw [if_neg acquires, if_neg acquires]
    exact congrArg Host.Outcome.next (received_commutes (s.charge f) (fun q => SMap.set [] q f.a.toNat ms) f.len _)

end

/-! ### Frames of memory writes and of the event log -/

theorem memWriteBytes_frame (s : State) (g : Nat) (bs : List Byte) :
    ∃ mem late former, s.memWriteBytes g bs = { s with mem, late, former } := by
  induction bs generalizing s g with
  | nil => exact ⟨_, _, _, rfl⟩
  | cons b bs ih =>
    obtain ⟨mem, late, former, rest⟩ := ih (s.memWrite g 1 b.toNat) (g + 1)
    exact ⟨mem, late, former, rest⟩

theorem signalAgent_frame (s : State) (part vec : Nat) (x : Signal) : ∃ signals, s.signalAgent part vec x = { s with signals } := by
  unfold State.signalAgent
  split <;> exact ⟨_, rfl⟩

theorem logEvent_frame (s : State) (part type ctx vq wgid : Nat) (data : List Byte) :
    ∃ mem late former cregs signals, s.logEvent part type ctx vq wgid data = { s with mem, late, former, cregs, signals } := by
  unfold State.logEvent
  dsimp only
  split
  · obtain ⟨mem, late, former, wrote⟩ := memWriteBytes_frame s _ _
    rw [wrote]
    split
    · obtain ⟨signals, told⟩ := signalAgent_frame (State.setCreg { s with mem, late, former } _ _) part _ .eventIrq
      rw [told]
      exact ⟨_, _, _, _, _, rfl⟩
    · exact ⟨_, _, _, _, _, rfl⟩
  · exact ⟨_, _, _, _, _, rfl⟩

/-! ### The arrival of a message -/

/-- No earlier message of one workgroup's queue to another's is on its way. -/
def State.firstInTurn (s : State) (x : Flight) : Bool :=
  !s.flights.any fun y => y.id < x.id && y.wg == x.wg && y.target == x.target && y.queue == x.queue

theorem firstInTurn_iff (s : State) (x : Flight) : s.firstInTurn x = true ↔
    ∀ y ∈ s.flights, y.id < x.id → ¬(y.wg = x.wg ∧ y.target = x.target ∧ y.queue = x.queue) := by
  simp [State.firstInTurn, and_assoc]

theorem sendReleased_iff (s : State) (x : Flight) : s.sendReleased x = true ↔ (x.msg.scope = 0 ∨
    ((∀ l, l < 64 → x.msg.mask.getLsbD l = true → s.shownAt (s.wg x.wg).core (x.wg, x.warp) l x.bound x.msg.scope = true) ∧
      ∀ r ∈ s.reqs ++ (s.wg x.wg).recReqs, r.wg = x.wg → r.warp = x.warp → r.fetch = false → r.group < x.bound →
        ∀ y ∈ r.slots, x.msg.mask.getLsbD y.lane = true → r.didSlot y = true)) := by
  simp only [State.sendReleased, lanesOf, Bool.or_eq_true, Bool.and_eq_true, beq_iff_eq, List.all_eq_true, List.mem_filter,
    List.mem_range, and_imp, Bool.not_eq_true', List.any_eq_false, not_and, decide_eq_true_eq]
  refine or_congr_right (and_congr_right fun _ => forall_congr' fun r => ?_)
  simp only [Bool.not_eq_true, List.any_eq_false, Bool.and_eq_true, Bool.not_eq_true', not_and, Bool.not_eq_false]

/-- What a message's arrival makes of a lane. -/
def Lane.woken (x : Lane) (now : Nat) : Lane := { x with wait := x.wait.map (·.wake now), frozenWait := x.frozenWait.map (·.wake now) }

/-- What a message's arrival makes of a warp. -/
def Warp.woken (w : Warp) (now : Nat) : Warp := { w with lanes := w.lanes.map fun q => (q.1, q.2.woken now) }

/-- What a message's arrival makes of its target. -/
def Workgroup.received (g : Workgroup) (q : Nat) (m : Message) (now : Nat) : Workgroup :=
  { g with queues := SMap.set [] g.queues q (g.queue q ++ [m]), warps := g.warps.map fun p => (p.1, p.2.woken now) }

theorem received_queue (g : Workgroup) (q : Nat) (m : Message) (now p : Nat) :
    SMap.get [] (g.received q m now).queues p = SMap.get [] g.queues p ++ (if p = q then [m] else []) := by
  rw [Workgroup.received, SMap.get_set]
  split
  · next same => rw [same, Workgroup.queue]
  · rw [List.append_nil]

theorem received_warp (g : Workgroup) (q : Nat) (m : Message) (now w : Nat) : (g.received q m now).warp w = (g.warp w).woken now :=
  get_map (g := fun w : Warp => w.woken now) rfl g.warps w

theorem woken_lane (w : Warp) (now l : Nat) : (w.woken now).lane l = (w.lane l).woken now :=
  get_map (g := fun x : Lane => x.woken now) rfl w.lanes l

/-- A message lands: a saved workgroup's image receives it too. -/
theorem putMessage_wakeAll (s : State) (k q : Nat) (m : Message) : ∃ mem late former,
    (s.putMessage k q m).wakeAll k = { s.updWg k (·.received q m s.cyc.toNat) with mem, late, former } ∧
      ((s.wg k).status ≠ .saved → mem = s.mem ∧ late = s.late ∧ former = s.former) := by
  have lands (u : State) : ∀ mem late former,
      State.wakeAll { u.updWg k fun g => { g with queues := SMap.set [] g.queues q (g.queue q ++ [m]) } with mem, late, former } k =
        { u.updWg k (·.received q m u.cyc.toNat) with mem, late, former } := fun mem late former => by
    simp only [State.wakeAll, State.updWg, SMap.upd_upd]
    rfl
  unfold State.putMessage
  dsimp only
  split
  · next saved =>
    obtain ⟨mem, late, former, wrote⟩ := memWriteBytes_frame
      (s.updWg k fun g => { g with queues := SMap.set [] g.queues q (g.queue q ++ [m]) })
      (s.queueSlotAt k q ((s.wg k).queue q).length) m.slotBytes
    rw [wrote]
    exact ⟨mem, late, former, lands s mem late former, fun other => absurd saved other⟩
  · exact ⟨s.mem, s.late, s.former, lands s s.mem s.late s.former, fun _ => ⟨rfl, rfl, rfl⟩⟩

section
variable {s : State} {x : Flight} (found : s.flights.find? (fun y => y.id == x.id) = some x)
include found

theorem queueMessageArrival_early
    (early : s.firstInTurn x = false ∨ s.sendReleased x = false ∨ (s.wg x.target).status = .waiting) :
    exec (.queueMessageArrival x.id) s = .refused (.notEnabled "QUEUE_MESSAGE_ARRIVAL") := by
  show execQueueMessageArrival x.id s = _
  unfold execQueueMessageArrival
  rw [found]
  dsimp only
  rw [if_pos]
  rw [State.firstInTurn] at early
  rcases early with h | h | h
  · rw [h]; rfl
  · rw [h]; simp
  · rw [h]; simp

variable (first : s.firstInTurn x = true) (released : s.sendReleased x = true)
include first released

theorem queueMessageArrival_gone (gone : (s.wg x.target).status = .exited ∨ (s.wg x.target).status = .discarded) :
    ∃ t, exec (.queueMessageArrival x.id) s = .next t ∧ t.wgs = s.wgs ∧ t.flights = s.flights.filter (fun y => y.id != x.id) := by
  have ready : (s.wg x.target).status ≠ .waiting := by rcases gone with h | h <;> rw [h] <;> decide
  rw [State.firstInTurn] at first
  have run : exec (.queueMessageArrival x.id) s = execQueueMessageArrival x.id s := rfl
  unfold execQueueMessageArrival at run
  rw [found] at run
  dsimp only at run
  rw [if_neg (by rw [first, released]; simpa using ready), if_pos gone] at run
  refine ⟨_, run, ?_⟩
  obtain ⟨mem, late, former, cregs, signals, logged⟩ := logEvent_frame { s with flights := s.flights.filter fun y => y.id != x.id } _ 3 _ _ _ _
  rw [logged]
  exact ⟨rfl, rfl⟩

theorem queueMessageArrival_lands (ready : (s.wg x.target).status ≠ .waiting)
    (there : ¬((s.wg x.target).status = .exited ∨ (s.wg x.target).status = .discarded)) :
    exec (.queueMessageArrival x.id) s = .next
      (({ s with flights := s.flights.filter fun y => y.id != x.id }.putMessage x.target x.queue x.msg).wakeAll x.target) := by
  rw [State.firstInTurn] at first
  show execQueueMessageArrival x.id s = _
  unfold execQueueMessageArrival
  rw [found]
  dsimp only
  rw [if_neg (by rw [first, released]; simpa using ready), if_neg there]

end

/-- Settles O30: the queue instructions by what each does to the charged state, and the arrival by the target's status. -/
theorem queuesAndMessages : Obligations.QueuesAndMessages := by
  unfold Obligations.QueuesAndMessages
  constructor
  · intro f s l i target p q
    exact ⟨qpoll_completes f s, fun none => ⟨qpollSend_none none, qpollRecv_none none⟩, fun lanes =>
      ⟨fun inside running kept => ⟨s.sentMessage f, qpollSend_sends lanes inside running kept, rfl, rfl, rfl, sentMessage_word s f⟩,
        fun bad => qpollSend_traps lanes bad, fun empty => qpollRecv_waits lanes empty, fun m ms queue => qpollRecv_takes lanes queue⟩⟩
  intro s x found turn released
  refine ⟨fun early => ?_, ?_⟩
  · refine queueMessageArrival_early found ?_
    rw [← Bool.not_eq_true, ← Bool.not_eq_true, firstInTurn_iff, sendReleased_iff]
    exact early
  · intro first free wake lands
    replace first := (firstInTurn_iff s x).2 first
    replace free := (sendReleased_iff s x).2 free
    have waking (y : Option Wait) : y.map (·.wake s.cyc.toNat) = wake y := by
      rcases y with _ | ⟨what, len⟩
      · rfl
      · cases what with
        | sleep time wakes => cases wakes <;> rfl
        | _ => rfl
    obtain ⟨mem, late, former, landed, kept⟩ := putMessage_wakeAll { s with flights := s.flights.filter fun y => y.id != x.id } x.target x.queue x.msg
    have target (t : State) (h : t.wgs = (s.updWg x.target (·.received x.queue x.msg s.cyc.toNat)).wgs) :
        t.wg x.target = (s.wg x.target).received x.queue x.msg s.cyc.toNat := by
      rw [State.wg, h]; exact wg_updWg_same ..
    have lands_of (t : State) (flights : t.flights = s.flights.filter fun y => y.id != x.id)
        (h : t.wgs = (s.updWg x.target (·.received x.queue x.msg s.cyc.toNat)).wgs) : lands t := by
      have warp (w : Nat) : t.warp x.target w = (s.warp x.target w).woken s.cyc.toNat := by
        rw [State.warp, target t h]; exact received_warp ..
      refine ⟨flights, ?_, fun k hk => ?_, fun q => ?_, fun w => ?_, fun w l => ?_⟩
      · rw [target t h]; rfl
      · rw [State.wg, h]; exact wg_updWg_other _ _ hk
      · rw [target t h]; exact received_queue ..
      · rw [warp]; rfl
      · rw [State.lane, warp, woken_lane, Lane.woken, waking, waking]; rfl
    have run (ready : (s.wg x.target).status ≠ .waiting)
        (there : ¬((s.wg x.target).status = .exited ∨ (s.wg x.target).status = .discarded)) :=
      (queueMessageArrival_lands found first free ready there).trans (congrArg Host.Outcome.next landed)
    refine ⟨fun here => ⟨_, run ?_ ?_, lands_of _ rfl rfl, ?_⟩, fun saved => ⟨_, run ?_ ?_, lands_of _ rfl rfl⟩,
      queueMessageArrival_gone found first free⟩
    · rcases here with h | h <;> rw [h] <;> decide
    · rcases here with h | h <;> rw [h] <;> decide
    · have unsaved : (s.wg x.target).status ≠ .saved := by rcases here with h | h <;> rw [h] <;> decide
      obtain ⟨rfl, rfl, rfl⟩ := kept unsaved
      rfl
    · rw [saved]; decide
    · rw [saved]; decide

end Sys2Proof.Machine
end

section

/-!
# The order of accesses at a home (R109, R146, R149, R305)

What a step at a home marks or counts before it performs changes nothing that the order of accesses looks at.
-/

namespace Sys2Proof.Machine

/-- `q` is `r` but for its marks and for where its hampers are. -/
def Req.marked (q r : Req) : Prop := ∃ a c h, q = { r with arrived := a, checked := c, hampers := h }

/-- `u` is `s` with requests marked and events counted, as an order of accesses sees them. -/
structure State.OrdersAs (s u : State) : Prop where
  frame : u = { s with reqs := u.reqs, wgs := u.wgs, ctxs := u.ctxs }
  reqs : ∃ m : Req → Req, (∀ q, (m q).marked q) ∧ u.reqs = s.reqs.map m
  cores : ∀ k, (u.wg k).core = (s.wg k).core
  recs : ∀ k, (u.wg k).recs = (s.wg k).recs
  regs : ∀ k w, (u.warp k w).regs = (s.warp k w).regs ∧ (u.warp k w).lanes = (s.warp k w).lanes

theorem marked_refl (q : Req) : q.marked q := ⟨_, _, _, rfl⟩

theorem Req.marked.trans {p q r : Req} (h : p.marked q) (k : q.marked r) : p.marked r := by
  obtain ⟨a, c, t, rfl⟩ := h
  obtain ⟨b, d, u, rfl⟩ := k
  exact ⟨_, _, _, rfl⟩

/-- What looks at no mark sees the same. -/
theorem Req.marked.same {α : Type} {q r : Req} (h : q.marked r) {p : Req → α}
    (hp : ∀ a c t, p { r with arrived := a, checked := c, hampers := t } = p r) : p q = p r := by
  obtain ⟨a, c, t, rfl⟩ := h; exact hp a c t

namespace State.OrdersAs
variable {s t u : State}

theorem refl (s : State) : s.OrdersAs s :=
  ⟨rfl, ⟨id, marked_refl, (List.map_id _).symm⟩, fun _ => rfl, fun _ => rfl, fun _ _ => ⟨rfl, rfl⟩⟩

theorem trans (h : s.OrdersAs t) (k : t.OrdersAs u) : s.OrdersAs u where
  frame := by rw [k.frame, h.frame]
  reqs := by
    obtain ⟨m, hm, mapped⟩ := h.reqs
    obtain ⟨n, hn, again⟩ := k.reqs
    exact ⟨n ∘ m, fun q => (hn _).trans (hm q), by rw [again, mapped, List.map_map]⟩
  cores j := (k.cores j).trans (h.cores j)
  recs j := (k.recs j).trans (h.recs j)
  regs j w := ⟨(k.regs j w).1.trans (h.regs j w).1, (k.regs j w).2.trans (h.regs j w).2⟩

/-- Requests marked where a test holds. -/
theorem mark (s : State) (p : Req → Bool) {m : Req → Req} (hm : ∀ q, (m q).marked q) :
    s.OrdersAs { s with reqs := s.reqs.map fun q => if p q then m q else q } :=
  ⟨rfl, ⟨_, fun q => by split; exacts [hm q, marked_refl q], rfl⟩, fun _ => rfl, fun _ => rfl, fun _ _ => ⟨rfl, rfl⟩⟩

theorem markArrived (s : State) (r : Req) : s.OrdersAs (s.markArrived r) := mark s _ fun _ => ⟨_, _, _, rfl⟩

theorem markChecked (s : State) (r : Req) : s.OrdersAs (s.markChecked r) := mark s _ fun _ => ⟨_, _, _, rfl⟩

theorem countScope (s : State) (ctx n : Nat) : s.OrdersAs (s.countScope ctx n) :=
  ⟨rfl, ⟨id, marked_refl, (List.map_id _).symm⟩, fun _ => rfl, fun _ => rfl, fun _ _ => ⟨rfl, rfl⟩⟩

theorem count (s : State) (k w n add : Nat) : s.OrdersAs (s.count k w n add) where
  frame := rfl
  reqs := ⟨id, marked_refl, (List.map_id _).symm⟩
  cores j := by rw [State.count, State.updWarp, wg_updWg]; split <;> simp [*]
  recs j := updWarp_recs ..
  regs j v := by
    rw [State.count, warp_updWarp]
    split
    · next at_ => obtain ⟨rfl, rfl⟩ := at_; exact ⟨rfl, rfl⟩
    · exact ⟨rfl, rfl⟩

theorem restHamper (s : State) (r : Req) (die bank : Nat) : s.OrdersAs (s.restHamper r die bank).1 := by
  unfold State.restHamper
  dsimp only
  split
  · exact refl s
  · exact count ..

variable (h : s.OrdersAs u)
include h

theorem mem : u.mem = s.mem := by rw [h.frame]
theorem choices : u.choices = s.choices := by rw [h.frame]
theorem badMem : u.badMem = s.badMem := by rw [h.frame]
theorem pkg : u.pkg = s.pkg := by rw [h.frame]
theorem late : u.late = s.late := by rw [h.frame]
theorem chains : u.chains = s.chains := by rw [h.frame]
theorem done : u.done = s.done := by rw [h.frame]
theorem retired : u.retired = s.retired := by rw [h.frame]
theorem tag : u.tag = s.tag := by rw [h.frame]
theorem canon : u.canon = s.canon := by rw [h.frame]; rfl
theorem homeDie : u.homeDie = s.homeDie := by rw [h.frame]; rfl
theorem lineOf : u.lineOf = s.lineOf := by rw [h.frame]; rfl
theorem llcKey : u.llcKey = s.llcKey := by rw [h.frame]; rfl

theorem any {p : Req → Bool} (hp : ∀ q a c t, p { q with arrived := a, checked := c, hampers := t } = p q) :
    u.reqs.any p = s.reqs.any p := by
  obtain ⟨m, hm, mapped⟩ := h.reqs
  rw [mapped, List.any_map]
  congr 1
  exact funext fun q => (hm q).same (hp q)

theorem all {p : Req → Bool} (hp : ∀ q a c t, p { q with arrived := a, checked := c, hampers := t } = p q) :
    u.reqs.all p = s.reqs.all p := by
  have same := h.any (p := fun q => !p q) fun q a c t => by rw [hp]
  rw [List.all_eq_not_any_not, same, ← List.all_eq_not_any_not]

theorem recReqs (k : Nat) : (u.wg k).recReqs = (s.wg k).recReqs := by unfold Workgroup.recReqs; rw [h.recs]

theorem chainDone (c : Chain) (core : Nat) (who : Nat × Nat) (scope : Nat) : u.chainDone c core who scope = s.chainDone c core who scope := by
  unfold State.chainDone
  rw [List.any_append, h.any fun _ _ _ _ => rfl, h.recReqs, ← List.any_append, h.late]

theorem shownAt (core : Nat) (who : Nat × Nat) (lane bound scope : Nat) :
    u.shownAt core who lane bound scope = s.shownAt core who lane bound scope := by
  simp only [State.shownAt, h.chainDone, h.late, h.chains]

theorem pastRelease (core : Nat) (who : Nat × Nat) (l bound : Nat) : u.pastRelease core who l bound = s.pastRelease core who l bound := by
  simp only [State.pastRelease, State.releasePends, h.shownAt]
  rw [h.any fun _ _ _ _ => rfl]

theorem passedOn {q r : Req} (hq : q.marked r) (x : Slot) : u.passedOn q x = s.passedOn r x := by
  obtain ⟨a, c, t, rfl⟩ := hq
  simp only [State.passedOn, h.shownAt, h.cores]
  rw [h.all fun _ _ _ _ => rfl]
  rfl

theorem earlier_all {q r : Req} (hq : q.marked r) {p : Req → Bool}
    (hp : ∀ q a c t, p { q with arrived := a, checked := c, hampers := t } = p q) : (u.earlier q).all p = (s.earlier r).all p := by
  obtain ⟨a, c, t, rfl⟩ := hq
  simp only [State.earlier, List.all_filter]
  exact h.all fun q a c t => by rw [hp]; rfl

/-- The order of accesses is the same for a marked request. -/
theorem slotFree {q r : Req} (hq : q.marked r) (x : Slot) : u.slotFree q x = s.slotFree r x := by
  have earlier := h.earlier_all hq (p := fun q => q.slots.all fun y => y.lane != x.lane || q.didSlot y ||
    match q.phase with
    | .translate => false
    | .home | .held => !q.isIndex && !overlap (s.canon (q.slotPa y)) q.size (s.canon (r.slotPa x)) r.size
    | _ => !q.isIndex) fun _ _ _ _ => rfl
  have passed := h.passedOn hq x
  obtain ⟨a, c, t, rfl⟩ := hq
  unfold State.slotFree
  rw [passed, h.pastRelease, h.canon]
  exact congrArg (fun e => if r.mi.rel then s.passedOn r x else s.pastRelease r.core (r.wg, r.warp) x.lane r.group && e) earlier

theorem turn {q r : Req} (hq : q.marked r) : u.turn q = s.turn r := by
  have slots : q.slots = r.slots := hq.same fun _ _ _ => rfl
  simp only [State.turn, slots, h.slotFree hq]

/-- The request is the only one of its instruction that is still to be performed. -/
theorem alone {q r : Req} (hq : q.marked r) (only : ∀ p ∈ s.mates r, p.id = r.id) : ∀ p ∈ u.mates q, p.id = q.id := by
  obtain ⟨m, hm, mapped⟩ := h.reqs
  obtain ⟨a, c, t, rfl⟩ := hq
  intro p hp
  simp only [State.mates, mapped, List.mem_filter, List.mem_map] at hp
  obtain ⟨⟨p, here, rfl⟩, mate⟩ := hp
  have id : (m p).id = p.id := (hm p).same fun _ _ _ => rfl
  refine id.trans (only p (List.mem_filter.2 ⟨here, ?_⟩))
  obtain ⟨b, d, v, e⟩ := hm p
  rw [e] at mate
  exact mate

/-- A request that is there is there, marked. -/
theorem here {r : Req} (mem : r ∈ s.reqs) : ∃ p ∈ u.reqs, p.id = r.id := by
  obtain ⟨m, hm, mapped⟩ := h.reqs
  exact ⟨m r, mapped ▸ List.mem_map_of_mem mem, (hm r).same fun _ _ _ => rfl⟩

end State.OrdersAs

end Sys2Proof.Machine
end

section

/-!
# What an access at its home changes (R82, R109, R147, R305, R306)
-/

namespace Sys2Proof.Machine

/-- What performing an access may change: memory with its views, caches, the records of errors and the model's choices; of the control
registers only HEALTH. -/
structure State.AccessOnly (s t : State) : Prop where
  frame : t = { s with choices := t.choices, mem := t.mem, badMem := t.badMem, retired := t.retired, late := t.late, chains := t.chains
                       former := t.former, cores := t.cores, cregs := t.cregs, signals := t.signals
                       retiredChannels := t.retiredChannels }
  regs : ∀ p o, o ≠ health → t.cregOf p o = s.cregOf p o

namespace State.AccessOnly
variable {s t u : State}

theorem refl (s : State) : s.AccessOnly s := ⟨rfl, fun _ _ _ => rfl⟩

theorem trans (h : s.AccessOnly t) (k : t.AccessOnly u) : s.AccessOnly u where
  frame := by rw [k.frame, h.frame]
  regs p o ho := (k.regs p o ho).trans (h.regs p o ho)

/-- A change that leaves the control registers. -/
theorem of_frame (frame : t = { s with choices := t.choices, mem := t.mem, badMem := t.badMem, retired := t.retired, late := t.late
                                       chains := t.chains, former := t.former, cores := t.cores, signals := t.signals
                                       retiredChannels := t.retiredChannels }) : s.AccessOnly t :=
  ⟨by rw [frame], fun p o _ => by rw [State.cregOf, frame, State.cregOf]⟩

variable (h : s.AccessOnly t)
include h

theorem reqs : t.reqs = s.reqs := by rw [h.frame]
theorem wgs : t.wgs = s.wgs := by rw [h.frame]
theorem done : t.done = s.done := by rw [h.frame]
theorem llc : t.llc = s.llc := by rw [h.frame]
theorem pkg : t.pkg = s.pkg := by rw [h.frame]
theorem tag : t.tag = s.tag := by rw [h.frame]
theorem canon : t.canon = s.canon := canon_eq fun p => h.regs p _ (by decide)
theorem lineOf : t.lineOf = s.lineOf := funext fun g => by rw [State.lineOf, State.lineOf, h.canon]

theorem llcKey (g part : Nat) : t.llcKey g part = s.llcKey g part := by
  simp only [State.llcKey, h.canon, h.regs _ llcPCfg (by decide)]

end State.AccessOnly

/-! ### The parts of an access -/

section
variable (s : State)

theorem accessOnly_takeChoice : s.AccessOnly s.takeChoice.2 := by
  unfold State.takeChoice
  split <;> exact .of_frame rfl

theorem accessOnly_putMem (core : Nat) (who : Nat × Nat) (access : Option (Nat × Nat × Nat)) (cached : Bool) (bars : List (Nat × Nat))
    (stored : Bool) (g n v : Nat) : s.AccessOnly (s.putMem core who access cached bars stored g n v) := by
  have chosen : s.AccessOnly (if (s.homeDie g).isNone || !cached then (0, s) else s.takeChoice).2 := by
    split
    · exact .refl s
    · exact accessOnly_takeChoice s
  unfold State.putMem
  generalize (if (s.homeDie g).isNone || !cached then (0, s) else s.takeChoice) = c at chosen
  dsimp only
  split <;> exact chosen.trans (.of_frame rfl)

theorem accessOnly_noteChain (was : State) (place : Option Nat) (a n : Nat) (who : Nat × Nat) (lane bound : Nat) (after : List Nat) :
    s.AccessOnly (s.noteChain was place a n who lane bound after) := by
  unfold State.noteChain
  extract_lets own lates
  split
  · exact .refl s
  · exact .of_frame rfl

theorem accessOnly_putFor (r : Req) (lane g n v : Nat) : s.AccessOnly (s.putFor r lane g n v) :=
  (accessOnly_putMem ..).trans (accessOnly_noteChain ..)

theorem accessOnly_cleanMem (g n : Nat) : s.AccessOnly (s.cleanMem g n) := by
  unfold State.cleanMem
  split
  · exact .of_frame rfl
  · exact .refl s

theorem accessOnly_setHealth (hi lo v : Nat) : s.AccessOnly (s.setField health hi lo v) :=
  ⟨rfl, fun p _ other => cregOf_setCreg_other s p _ other⟩

theorem accessOnly_serviceRequest (n : Nat) : s.AccessOnly (s.serviceRequest n) := by
  have set := (accessOnly_setHealth s n n 1).trans (accessOnly_setHealth _ 0 0 1)
  unfold State.serviceRequest
  dsimp only
  split
  · exact set
  · exact set.trans (.of_frame rfl)

theorem accessOnly_retireChannel (key : Nat) : s.AccessOnly (s.retireChannel key) := by
  have counted (n : Nat) : s.AccessOnly ({ s with retiredChannels := s.retiredChannels ++ [key] }.setField health 23 16 n) :=
    (State.AccessOnly.of_frame rfl).trans (accessOnly_setHealth ..)
  unfold State.retireChannel
  dsimp only
  split
  · exact .refl s
  split
  · exact (counted _).trans (accessOnly_serviceRequest ..)
  · exact counted _

theorem accessOnly_retireLine (g : Nat) : s.AccessOnly (s.retireLine g) := by
  have lined : s.AccessOnly { s with retired := s.lineOf g :: s.retired } := .of_frame rfl
  unfold State.retireLine
  dsimp only
  split
  · exact .refl s
  split
  · exact lined
  split
  · exact lined.trans (accessOnly_retireChannel ..)
  · exact lined

theorem accessOnly_l1Load (r : Req) (g : Nat) : s.AccessOnly (s.l1Load r g) := by
  unfold State.l1Load
  dsimp only
  split
  · exact .of_frame rfl
  split
  · split <;> exact .of_frame rfl
  · exact .of_frame rfl

end

/-! ### The three kinds of access -/

/-- An instruction that reads its location and writes it in one access. -/
def isRmw (i : Instr) : Bool :=
  match i with
  | .atom _ | .red _ | .cas _ => true
  | _ => false

/-- A store. -/
def isSt (i : Instr) : Bool :=
  match i with
  | .st _ => true
  | _ => false

theorem isSt_eq {i : Instr} (h : isSt i = true) : ∃ f, i = .st f := by
  unfold isSt at h
  split at h
  · exact ⟨_, rfl⟩
  · cases h

theorem isRmw_eq {i : Instr} (h : isRmw i = true) : ∃ f, i = .atom f ∨ i = .red f ∨ i = .cas f := by
  unfold isRmw at h
  split at h
  · exact ⟨_, .inl rfl⟩
  · exact ⟨_, .inr (.inl rfl)⟩
  · exact ⟨_, .inr (.inr rfl)⟩
  · cases h

section
variable (s : State) (r : Req) (x : Slot) (g n : Nat)

/-- A lane's store is performed. -/
def State.storeDone (v : Nat) : State := ((s.putFor r x.lane g n v).cleanMem g n).l1Use r.core (s.lineOf g)

/-- A lane has read memory. -/
def State.wasRead (s : State) : State := s.readChain none r.core (r.wg, r.warp) x.lane (s.canon g) n

/-- A lane's atomic is performed. -/
def State.rmwDone : State :=
  let s1 := State.wasRead r x g n (s.sawAll none r.core (s.canon g) n)
  (match rmwNew r.insn (8 * n) (s.memRead g n) x.x x.y with
    | some v => s1.putFor r x.lane g n v
    | none => s1).l1Use r.core (s.lineOf g)

/-- What a lane's load reads. -/
def State.loads : Nat := if r.direct then s.memRead g n else bytesVal (s.bytesFor r.core (s.canon g) n)

/-- A lane's load is performed. -/
def State.loadDone : State :=
  (State.wasRead r x g n (if r.direct then s.sawAll none r.core (s.canon g) n else s)).l1Load r g

theorem performPiece_store (off : Nat) (st : isSt r.insn = true) :
    s.performPiece r x off n = (s.storeDone r x (r.slotPa x + off) n ((x.x + x.y * 2 ^ 64) / 2 ^ (8 * off)), x) := by
  obtain ⟨f, i⟩ := isSt_eq st
  unfold State.performPiece
  rw [i]
  rfl

theorem performPiece_rmw (off : Nat) (rmw : isRmw r.insn = true) : s.performPiece r x off n =
    if s.badAt (r.slotPa x + off) n then (s.retireLine (r.slotPa x + off), { x with bad := true })
    else (s.rmwDone r x (r.slotPa x + off) n, { x with reply := s.memRead (r.slotPa x + off) n }) := by
  obtain ⟨f, i | i | i⟩ := isRmw_eq rmw
  all_goals
    unfold State.performPiece State.rmwDone
    rw [i]
    rfl

theorem performPiece_load (off : Nat) (st : isSt r.insn = false) (rmw : isRmw r.insn = false) : s.performPiece r x off n =
    if s.badAt (r.slotPa x + off) n then (s.retireLine (r.slotPa x + off), { x with bad := true })
    else (s.loadDone r x (r.slotPa x + off) n, { x with reply := x.reply + s.loads r (r.slotPa x + off) n * 2 ^ (8 * off) }) := by
  unfold State.performPiece
  split
  · next i => rw [i] at st; cases st
  · next i => rw [i] at rmw; cases rmw
  · next i => rw [i] at rmw; cases rmw
  · next i => rw [i] at rmw; cases rmw
  · unfold State.loadDone State.loads
    by_cases direct : r.direct = true <;> simp only [direct] <;> rfl

/-! ### What each leaves -/

theorem putMem_mem (core : Nat) (who : Nat × Nat) (access : Option (Nat × Nat × Nat)) (cached : Bool) (bars : List (Nat × Nat))
    (stored : Bool) (v : Nat) : (s.putMem core who access cached bars stored g n v).mem = s.mem.write (s.canon g) n v := by
  have chosen : (if (s.homeDie g).isNone || !cached then (0, s) else s.takeChoice).2.mem = s.mem ∧
      (if (s.homeDie g).isNone || !cached then (0, s) else s.takeChoice).2.canon = s.canon := by
    split
    · exact ⟨rfl, rfl⟩
    · exact ⟨takeChoice_mem s, (accessOnly_takeChoice s).canon⟩
  unfold State.putMem
  generalize (if (s.homeDie g).isNone || !cached then (0, s) else s.takeChoice) = c at chosen
  obtain ⟨mem, canon⟩ := chosen
  rw [← mem, ← canon]
  dsimp only
  split <;> rfl

theorem storeDone_mem (v : Nat) : (s.storeDone r x g n v).mem = s.mem.write (s.canon g) n v := by
  rw [State.storeDone, l1Use_mem, cleanMem_mem, State.putFor, noteChain_mem, putMem_mem]

theorem accessOnly_storeDone (v : Nat) : s.AccessOnly (s.storeDone r x g n v) :=
  ((accessOnly_putFor ..).trans (accessOnly_cleanMem ..)).trans (.of_frame rfl)

theorem rmwDone_mem : (s.rmwDone r x g n).mem =
    ((rmwNew r.insn (8 * n) (s.memRead g n) x.x x.y).map fun v => s.mem.write (s.canon g) n v).getD s.mem := by
  unfold State.rmwDone
  dsimp only
  rw [l1Use_mem]
  cases rmwNew r.insn (8 * n) (s.memRead g n) x.x x.y with
  | none => rfl
  | some v =>
    dsimp only
    rw [State.putFor, noteChain_mem, putMem_mem]
    rfl

theorem accessOnly_rmwDone : s.AccessOnly (s.rmwDone r x g n) := by
  have read : s.AccessOnly (State.wasRead r x g n (s.sawAll none r.core (s.canon g) n)) := .of_frame rfl
  unfold State.rmwDone
  dsimp only
  cases rmwNew r.insn (8 * n) (s.memRead g n) x.x x.y with
  | none => exact read.trans (.of_frame rfl)
  | some v => exact (read.trans (accessOnly_putFor ..)).trans (.of_frame rfl)

theorem loadDone_mem : (s.loadDone r x g n).mem = s.mem := by
  rw [State.loadDone, l1Load_mem]
  split <;> rfl

theorem accessOnly_loadDone : s.AccessOnly (s.loadDone r x g n) := by
  refine State.AccessOnly.trans ?_ (accessOnly_l1Load ..)
  split <;> exact .of_frame rfl

/-- An access leaves of its lane all but the reply and the mark of an error. -/
def Slot.answered (y x : Slot) : Prop := ∃ v b, y = { x with reply := v, bad := b }

/-- What a piece of an access changes of the machine and of its lane. -/
theorem performPiece_changes (off : Nat) :
    s.AccessOnly (s.performPiece r x off n).1 ∧ (s.performPiece r x off n).2.answered x := by
  cases st : isSt r.insn with
  | true => rw [performPiece_store s r x n off st]; exact ⟨accessOnly_storeDone .., _, _, rfl⟩
  | false =>
    cases rmw : isRmw r.insn with
    | true =>
      rw [performPiece_rmw s r x n off rmw]
      split
      · exact ⟨accessOnly_retireLine .., _, _, rfl⟩
      · exact ⟨accessOnly_rmwDone .., _, _, rfl⟩
    | false =>
      rw [performPiece_load s r x n off st rmw]
      split
      · exact ⟨accessOnly_retireLine .., _, _, rfl⟩
      · exact ⟨accessOnly_loadDone .., _, _, rfl⟩

end

/-! ### Several pieces, one after another -/

/-- `q` is `r` with the pieces of a list performed, those of a lane by its number. -/
structure Req.Did (q r : Req) (ps : List (Nat × Nat)) : Prop where
  frame : q = { r with slots := q.slots }
  lanes : q.lanes = r.lanes
  did : ∀ p ∈ ps, ∀ z ∈ q.slots, z.lane = p.1 → p.2 ∈ z.did
  kept : ∀ z ∈ q.slots, ∃ x ∈ r.slots, x.lane = z.lane ∧ ∀ i ∈ x.did, i ∈ z.did

theorem did_refl (r : Req) : r.Did r [] := ⟨rfl, rfl, fun _ h => (nomatch h), fun z hz => ⟨z, hz, rfl, fun _ h => h⟩⟩

theorem Req.Did.trans {p q r : Req} {ps qs : List (Nat × Nat)} (h : q.Did r ps) (k : p.Did q qs) : p.Did r (ps ++ qs) where
  frame := by rw [k.frame, h.frame]
  lanes := k.lanes.trans h.lanes
  did i hi z hz lane := by
    rcases List.mem_append.1 hi with hi | hi
    · obtain ⟨x, hx, same, kept⟩ := k.kept z hz
      exact kept _ (h.did i hi x hx (same.trans lane))
    · exact k.did i hi z hz lane
  kept z hz := by
    obtain ⟨y, hy, same, kept⟩ := k.kept z hz
    obtain ⟨x, hx, first, before⟩ := h.kept y hy
    exact ⟨x, hx, first.trans same, fun i hi => kept i (before i hi)⟩

theorem performAt_did (s : State) (r : Req) (lane i : Nat) :
    s.AccessOnly (s.performAt r lane i).1 ∧ (s.performAt r lane i).2.Did r [(lane, i)] := by
  unfold State.performAt
  split
  · next none =>
    refine ⟨.refl s, rfl, rfl, fun p hp z hz at_ => ?_, fun z hz => ⟨z, hz, rfl, fun _ h => h⟩⟩
    obtain rfl := List.mem_singleton.1 hp
    exact absurd at_ (by simpa using List.find?_eq_none.1 none z hz)
  · next x found =>
    have here : x.lane = lane := by simpa using List.find?_some found
    obtain ⟨access, v, b, answered⟩ := performPiece_changes s r x (r.pieces.getD i (0, r.size)).2 (r.pieces.getD i (0, r.size)).1
    have written (z : Slot) : (if z.lane = lane then { { x with reply := v, bad := b } with did := i :: x.did } else z).lane = z.lane := by
      split
      · next same => exact here.trans same.symm
      · rfl
    refine ⟨access, ?_⟩
    dsimp only
    rw [answered]
    refine ⟨rfl, ?_, fun p hp z hz at_ => ?_, fun z hz => ?_⟩
    · simp only [Req.lanes, List.map_map]
      exact List.map_congr_left fun z _ => written z
    · obtain rfl := List.mem_singleton.1 hp
      obtain ⟨y, hy, rfl⟩ := List.mem_map.1 hz
      rw [written] at at_
      rw [if_pos at_]
      exact List.mem_cons_self ..
    · obtain ⟨y, hy, rfl⟩ := List.mem_map.1 hz
      split
      · exact ⟨x, List.mem_of_find?_eq_some found, rfl, fun _ h => List.mem_cons_of_mem _ h⟩
      · exact ⟨y, hy, rfl, fun _ h => h⟩

theorem performLanes_did (s : State) (r : Req) (ps : List (Nat × Nat)) :
    s.AccessOnly (s.performLanes r ps).1 ∧ (s.performLanes r ps).2.Did r ps := by
  induction ps generalizing s r with
  | nil => exact ⟨.refl s, did_refl r⟩
  | cons p ps ih =>
    obtain ⟨lane, i⟩ := p
    obtain ⟨first, did⟩ := performAt_did s r lane i
    obtain ⟨rest, later⟩ := ih (s.performAt r lane i).1 (s.performAt r lane i).2
    exact ⟨first.trans rest, did.trans later⟩

theorem mem_pending {r : Req} {x : Slot} {i : Nat} (hx : x ∈ r.slots) (hi : i < r.pieces.length) (left : i ∉ x.did) : (x.lane, i) ∈ r.pending :=
  List.mem_flatMap.2 ⟨x, hx, List.mem_map.2 ⟨i, List.mem_filter.2 ⟨List.mem_range.2 hi, by simpa using left⟩, rfl⟩⟩

/-- With every piece performed that was left, none is left. -/
theorem Req.Did.pending {q r : Req} (h : q.Did r r.pending) : q.pending = [] := by
  have pieces : q.pieces = r.pieces := by rw [h.frame]; rfl
  refine List.flatMap_eq_nil_iff.2 fun z hz => List.map_eq_nil_iff.2 (List.filter_eq_nil_iff.2 fun i hi => ?_)
  rw [pieces, List.mem_range] at hi
  obtain ⟨x, hx, same, kept⟩ := h.kept z hz
  have done : i ∈ z.did := by
    by_cases before : i ∈ x.did
    · exact kept i before
    · exact h.did _ (mem_pending hx hi before) z hz same.symm
  simpa using done

end Sys2Proof.Machine
end

section

/-!
# A step of a request at its home whose lanes may all be performed (R109, R141, R145, R305)
-/

namespace Sys2Proof.Machine

theorem matesDone_alone {s : State} {r : Req} (only : ∀ q ∈ s.mates r, q.id = r.id) (x : Slot) : s.matesDone r x = true := by
  unfold State.matesDone
  rw [Bool.or_eq_true, List.all_eq_true]
  exact .inr fun q hq => by simp [only q hq]

/-- The lanes of a request alone are free where it is their turn. -/
theorem freeLanes_all {s : State} {r : Req} (turn : s.turn r = true) (only : ∀ q ∈ s.mates r, q.id = r.id) : s.freeLanes r = r.lanes := by
  have free : (r.slots.filter fun x => s.slotFree r x && s.matesDone r x) = r.slots :=
    List.filter_eq_self.2 fun x hx => by rw [List.all_eq_true.1 turn x hx, matesDone_alone only]; rfl
  unfold State.freeLanes
  dsimp only
  rw [free, List.filter_eq_self.2 fun x hx => ?_]
  · rfl
  · rw [Bool.or_eq_true, List.all_eq_true]
    exact .inr fun y hy => by
      rw [Bool.or_eq_true]
      exact .inr (List.any_eq_true.2 ⟨y, hy, beq_self_eq_true _⟩)

theorem pending_lanes {r : Req} {p : Nat × Nat} (hp : p ∈ r.pending) : p.1 ∈ r.lanes := by
  obtain ⟨x, hx, hi⟩ := List.mem_flatMap.1 hp
  obtain ⟨i, -, rfl⟩ := List.mem_map.1 hi
  exact List.mem_map_of_mem hx

/-- All pieces of a request alone are performed in one step, with no choice to make. -/
theorem performSome_all {s : State} {r : Req} (turn : s.turn r = true) (only : ∀ q ∈ s.mates r, q.id = r.id)
    (once : s.choices = [] ∨ r.pending.length ≤ 1) : s.performSome r = s.performLanes r r.pending := by
  have chosen : (if r.pending.length ≤ 1 then (0, s) else s.takeChoice) = (0, s) := by
    split
    · rfl
    · next more => unfold State.takeChoice; rw [once.resolve_right more]
  have all : (r.pending.filter fun p => (s.freeLanes r).contains p.1) = r.pending :=
    List.filter_eq_self.2 fun p hp => by rw [freeLanes_all turn only]; exact List.contains_iff_mem.2 (pending_lanes hp)
  unfold State.performSome
  dsimp only
  rw [chosen, all]
  rfl

theorem pieces_length_pos (r : Req) : 0 < r.pieces.length := by unfold Req.pieces; split <;> simp

/-- The lowest lane of a request alone has a piece that is ready. -/
theorem readyPieces_ne_nil {s : State} {r : Req} (turn : s.turn r = true) (only : ∀ q ∈ s.mates r, q.id = r.id) (some : r.slots ≠ [])
    (fresh : ∀ x ∈ r.slots, x.did = []) : s.readyPieces r ≠ [] := by
  have nonempty : {x | x ∈ r.slots}.Nonempty := List.exists_mem_of_ne_nil _ some
  have here := Function.argminOn_mem Slot.lane {x | x ∈ r.slots} nonempty
  have lowest (y : Slot) (hy : y ∈ r.slots) : (Function.argminOn Slot.lane {x | x ∈ r.slots} nonempty).lane ≤ y.lane :=
    Function.argminOn_le Slot.lane {x | x ∈ r.slots} hy
  generalize Function.argminOn Slot.lane {x | x ∈ r.slots} nonempty = x at here lowest
  have lower : r.lowerDone x = true := by
    unfold Req.lowerDone
    rw [Bool.or_eq_true, List.all_eq_true]
    exact .inr fun y hy => by simp [lowest y hy]
  have ready : x ∈ r.slots.filter fun x => s.slotFree r x && r.lowerDone x && s.matesDone r x :=
    List.mem_filter.2 ⟨here, by rw [List.all_eq_true.1 turn x here, lower, matesDone_alone only]; rfl⟩
  have piece : 0 ∈ (List.range r.pieces.length).filter fun i => !x.did.contains i :=
    List.mem_filter.2 ⟨List.mem_range.2 (pieces_length_pos r), by simp [fresh x here]⟩
  exact List.ne_nil_of_mem (List.mem_flatMap.2 ⟨x, ready, List.mem_map.2 ⟨0, piece, rfl⟩⟩)

/-- Before the accesses of a step a hamper may be put to rest: its request finds its line missing (R96, R98). -/
def State.restAtHome (s : State) (r : Req) : State × Req :=
  match s.homeDie r.pa with
  | some die =>
    if !s.remote r && (s.llcLine r.pa (s.reqPart r)).isNone && r.hampers.contains .packet then
      s.restHamper r die (sliceOf (s.canon r.pa % 2 ^ 37) / 4)
    else (s, r)
  | none => (s, r)

theorem restAtHome_orders (s : State) (r : Req) : s.OrdersAs (s.restAtHome r).1 ∧ ∃ h, (s.restAtHome r).2 = { r with hampers := h } := by
  unfold State.restAtHome
  split
  · split
    · exact ⟨State.OrdersAs.restHamper s r _ _, _, rfl⟩
    · exact ⟨.refl s, r.hampers, rfl⟩
  · exact ⟨.refl s, r.hampers, rfl⟩

/-- The state and the request after the accesses of a step. -/
def State.stepped (s : State) (r : Req) : State × Req := (s.restAtHome r).1.performSome (s.restAtHome r).2

theorem performReq_eq (s : State) (r : Req) : s.performReq r =
    let y := s.stepped r
    let u := y.1.llcTouch r.pa (s.reqPart r) r.cpol r.insn.fields.ch.toNat
    if y.2.pending.isEmpty then (u.setReq { y.2.leaves with phase := .performed }).countDone y.2 else u.setReq y.2 := rfl

/-- A step of a request alone performs all its pieces. -/
theorem stepped_all {s : State} {r : Req} (turn : s.turn r = true) (only : ∀ q ∈ s.mates r, q.id = r.id)
    (once : s.choices = [] ∨ r.pending.length ≤ 1) :
    s.stepped r = (s.restAtHome r).1.performLanes (s.restAtHome r).2 (s.restAtHome r).2.pending := by
  obtain ⟨orders, h, rested⟩ := restAtHome_orders s r
  have marked : (s.restAtHome r).2.marked r := ⟨_, _, _, rested⟩
  refine performSome_all ((orders.turn marked).trans turn) (orders.alone marked only) ?_
  rw [rested]
  exact once.imp_left orders.choices.trans

theorem performReq_all {s : State} {r : Req} (turn : s.turn r = true) (only : ∀ q ∈ s.mates r, q.id = r.id)
    (once : s.choices = [] ∨ r.pending.length ≤ 1) : s.performReq r =
      (((s.stepped r).1.llcTouch r.pa (s.reqPart r) r.cpol r.insn.fields.ch.toNat).setReq
        { (s.stepped r).2.leaves with phase := .performed }).countDone (s.stepped r).2 := by
  have left : (s.stepped r).2.pending = [] := by
    rw [stepped_all turn only once]
    exact (performLanes_did ..).2.pending
  rw [performReq_eq]
  exact if_pos (by rw [left]; rfl)

/-! ### The end of an instruction whose requests fail -/

/-- What the end of an instruction leaves of a request that failed. -/
theorem endGroup_refuses {s : State} {r p q : Req} {fails : List Req} (mate : p ∈ s.mates r) (same : p.id = r.id) (failed : q ∈ fails)
    (lanes : q.lanes = r.lanes) (cause detail : Nat) :
    (∀ y ∈ (s.endGroup r fails cause detail).reqs, y.id ≠ r.id) ∧
      (s.takes r = true → ∃ y ∈ ((s.endGroup r fails cause detail).warp r.wg r.warp).pendTraps, y.cause = cause ∧ y.pc = r.pc ∧
        ∀ l ∈ r.lanes, l < 64 → y.mask.getLsbD l = true) := by
  refine ⟨fun y hy => ?_, fun takes => ?_⟩
  · rw [endGroup_reqs] at hy
    exact same ▸ foldl_retire_id mate _ y hy
  · unfold State.endGroup
    dsimp only
    rw [if_neg (by simp [takes]), State.addTrap, warp_updWarp_same]
    obtain ⟨y, hy, yc, yp, ym⟩ := exists_addTrap _ (t := { cause, detail, pc := r.pc, va := _, mask := maskOf (failedLanes fails) }) rfl
    refine ⟨y, hy, yc, yp, fun l hl lt => ym l (getLsbD_maskOf (List.mem_filter.2 ⟨List.mem_range.2 lt, ?_⟩) lt)⟩
    exact List.any_eq_true.2 ⟨q, failed, List.contains_iff_mem.2 (lanes ▸ hl)⟩

end Sys2Proof.Machine
end

section

/-!
# Homes perform accesses (R109, R114, R305, R306, R313, R316, R317)
-/

namespace Sys2Proof.Machine

/-! ### Values -/

theorem atomNew_eq (code w old b : Nat) : atomNew code w old b = atomicNew code w old b := by
  have signed (v : Nat) : signedOf w v =
      if v % 2 ^ w < 2 ^ (w - 1) then ((v % 2 ^ w : Nat) : Int) else ((v % 2 ^ w : Nat) : Int) - 2 ^ w := by
    unfold signedOf; push_cast; rfl
  unfold atomNew atomicNew
  simp only [signed]

/-- Little-endian bytes of memory make the number that memory reads as. -/
theorem bytesVal_byte (m : Memory) (a n : Nat) : bytesVal ((List.range n).map fun i => m.byte (a + i)) = m.read a n := by
  induction n generalizing a with
  | zero => rfl
  | succ n ih =>
    have tail : ((List.range n).map fun i => m.byte (a + (i + 1))) = (List.range n).map fun i => m.byte (a + 1 + i) :=
      List.map_congr_left fun i _ => by rw [Nat.add_right_comm, Nat.add_assoc]
    rw [List.range_succ_eq_map, List.map_cons, List.map_map, bytesVal]
    show (m.byte (a + 0)).toNat + 256 * bytesVal ((List.range n).map fun i => m.byte (a + (i + 1))) = _
    rw [tail, ih, read_succ, Nat.add_zero]
    omega

/-- With no write that some thread does not see, every core reads memory as it stands. -/
theorem bytesFor_settled {s : State} (settled : s.late = []) (core a n : Nat) : bytesVal (s.bytesFor core a n) = s.mem.read a n := by
  rw [← bytesVal_byte]
  unfold State.bytesFor State.viewOf
  rw [settled]
  congr 1
  refine List.ext_getElem (by simp) fun i h₁ h₂ => ?_
  have : i < n := by simpa using h₂
  simp [viewByte, this]

theorem bytesVal_lt (l : List Byte) : bytesVal l < 256 ^ l.length := by
  induction l with
  | nil => exact Nat.one_pos
  | cons b l ih =>
    rw [bytesVal, List.length_cons, Nat.pow_succ]
    have := b.isLt
    omega

theorem loads_eq (s : State) (r : Req) (g n : Nat) : s.loads r g n =
    if s.late = [] ∨ r.mi.scope ≠ 0 ∨ r.insn.fields.ch = 3 ∨ r.cpol = 2 then s.mem.read (s.canon g) n
    else bytesVal (s.bytesFor r.core (s.canon g) n) := by
  have direct : r.direct = true ↔ r.mi.scope ≠ 0 ∨ r.insn.fields.ch = 3 ∨ r.cpol = 2 := by simp [Req.direct, or_assoc]
  unfold State.loads State.memRead
  by_cases settled : s.late = []
  · rw [bytesFor_settled settled, ite_self, if_pos (.inl settled)]
  · simp only [direct, settled, false_or]

theorem loads_lt (s : State) (r : Req) (g n : Nat) : s.loads r g n < 256 ^ n := by
  have length : (s.bytesFor r.core (s.canon g) n).length = n := by simp [State.bytesFor, State.viewOf]
  unfold State.loads
  split
  · rw [State.memRead, ← bytesVal_byte]
    exact (bytesVal_lt _).trans_eq (by simp)
  · exact (bytesVal_lt _).trans_eq (by rw [length])

/-! ### Errors -/

theorem badAt_clean {s : State} (clean : s.badMem = []) (g n : Nat) : s.badAt g n = false := by
  simp [State.badAt, clean]

theorem badAt_of_mem {s : State} {g n u : Nat} (bad : u ∈ s.badMem) (low : s.canon g / 8 ≤ u) (high : u ≤ (s.canon g + n - 1) / 8) :
    s.badAt g n = true := by
  refine List.any_eq_true.2 ⟨u, List.mem_map.2 ⟨u - s.canon g / 8, List.mem_range.2 (by omega), by omega⟩, ?_⟩
  exact List.contains_iff_mem.2 bad

theorem setField_retired (s : State) (off hi lo v : Nat) : (s.setField off hi lo v).retired = s.retired := rfl

theorem serviceRequest_retired (s : State) (n : Nat) : (s.serviceRequest n).retired = s.retired := by
  have fields (v : State) : ((v.setField health n n 1).setField health 0 0 1).retired = v.retired := by rw [setField_retired, setField_retired]
  unfold State.serviceRequest
  dsimp only
  split
  · exact fields s
  · exact (signal_retired ..).trans (fields s)

theorem retireChannel_retired (s : State) (key : Nat) : (s.retireChannel key).retired = s.retired := by
  unfold State.retireChannel
  dsimp only
  have field (l : List Nat) (n : Nat) : ({ s with retiredChannels := l }.setField health 23 16 n).retired = s.retired := setField_retired ..
  split
  · rfl
  split
  · exact (serviceRequest_retired ..).trans (field ..)
  · exact field ..

theorem mem_retireLine {s : State} {g : Nat} (own : g / pkgSpan = s.pkg) : s.lineOf g ∈ (s.retireLine g).retired := by
  unfold State.retireLine
  dsimp only
  split
  · next known =>
    rcases Bool.or_eq_true .. |>.mp known with here | away
    · exact List.contains_iff_mem.1 here
    · rw [own, bne_self_eq_false] at away; cases away
  split
  · exact List.mem_cons_self ..
  split
  · rw [retireChannel_retired]; exact List.mem_cons_self ..
  · exact List.mem_cons_self ..

/-! ### A request of one lane and one piece -/

namespace State.OrdersAs
variable {s u : State} (h : s.OrdersAs u)
include h

theorem memRead (g n : Nat) : u.memRead g n = s.memRead g n := by rw [State.memRead, h.mem, h.canon]; rfl

theorem badAt (g n : Nat) : u.badAt g n = s.badAt g n := by rw [State.badAt, h.canon, h.badMem]; rfl

theorem loads {q r : Req} (hq : q.marked r) (g n : Nat) : u.loads q g n = s.loads r g n := by
  obtain ⟨a, c, t, rfl⟩ := hq
  have view (core a n : Nat) : u.bytesFor core a n = s.bytesFor core a n := by
    simp only [State.bytesFor, State.viewOf, h.late, h.mem]
  simp only [State.loads, h.memRead, h.canon, view]
  rfl

end State.OrdersAs

/-- What a performed access leaves, but for memory: the request performed with its lane's slot, every register and lane as before, and
DONE counted for a store to another package (R114). -/
structure State.Performed (s t : State) (r : Req) (y : Slot) : Prop where
  stands : ∃ q ∈ t.reqs, q.id = r.id ∧ q.phase = .performed ∧ q.slots = [y]
  warps : ∀ k w, (t.warp k w).regs = (s.warp k w).regs ∧ (t.warp k w).lanes = (s.warp k w).lanes
  done : ∀ key, SMap.get 0 t.done key = SMap.get 0 s.done key +
    (if r.pa / 2 ^ 52 ≠ s.pkg ∧ r.stores = true ∧ key = pathKey r.core (r.pa / 2 ^ 52) r.path then 1 else 0)

theorem countDone_done (s : State) {r : Req} (plain : r.mi.ord = false) (key : Nat) : SMap.get 0 (s.countDone r).done key = SMap.get 0 s.done key +
    (if r.pa / 2 ^ 52 ≠ s.pkg ∧ r.stores = true ∧ key = pathKey r.core (r.pa / 2 ^ 52) r.path then 1 else 0) := by
  have counted : (s.remote r && r.stores && !r.mi.ord) = true ↔ r.pa / 2 ^ 52 ≠ s.pkg ∧ r.stores = true := by
    simp [State.remote, plain, pkgSpan]
  unfold State.countDone
  by_cases counts : r.pa / 2 ^ 52 ≠ s.pkg ∧ r.stores = true
  · rw [if_pos (counted.2 counts), SMap.get_upd]
    split
    · next here => rw [if_pos ⟨counts.1, counts.2, here⟩, here]
    · next other => rw [if_neg fun h => other h.2.2]; exact (BitVec.add_zero _).symm
  · rw [if_neg (mt counted.1 counts), if_neg fun h => counts ⟨h.1, h.2.1⟩]
    exact (BitVec.add_zero _).symm

theorem countDone_frame (s : State) (r : Req) : s.countDone r = { s with done := (s.countDone r).done } := by
  unfold State.countDone; split <;> rfl

theorem llcTouch_frame (s : State) (g part cpol ch : Nat) : s.llcTouch g part cpol ch = { s with llc := (s.llcTouch g part cpol ch).llc } := by
  unfold State.llcTouch; split <;> rfl

/-- The request of one lane after the one piece of its access. -/
theorem performLanes_one (s : State) {r : Req} {x : Slot} (one : r.slots = [x]) (fresh : x.did = []) (whole : r.pieces.length = 1) :
    s.performLanes r r.pending =
      ((s.performPiece r x 0 r.size).1, { r with slots := [{ (s.performPiece r x 0 r.size).2 with did := [0] }] }) := by
  have pending : r.pending = [(x.lane, 0)] := by simp [Req.pending, one, whole, fresh]
  have piece : r.pieces.getD 0 (0, r.size) = (0, r.size) := by
    unfold Req.pieces at whole ⊢
    split
    · next two => rw [if_pos two] at whole; cases whole
    · rfl
  rw [pending]
  simp only [State.performLanes, State.performAt, one, List.find?_cons, beq_self_eq_true, piece, List.map_cons, List.map_nil, if_true, fresh]

theorem pieces_one {r : Req} (small : r.size ≠ 16) : r.pieces.length = 1 := by
  unfold Req.pieces
  rw [if_neg (by simp [small])]
  rfl

theorem stepped_one {s : State} {r : Req} {x : Slot} (one : r.slots = [x]) (fresh : x.did = []) (whole : r.pieces.length = 1)
    (turn : s.turn r = true) (only : ∀ q ∈ s.mates r, q.id = r.id) : ∃ (u : State) (h : List HamperAt), s.OrdersAs u ∧
      s.stepped r = ((u.performPiece { r with hampers := h } x 0 r.size).1,
        { r with hampers := h, slots := [{ (u.performPiece { r with hampers := h } x 0 r.size).2 with did := [0] }] }) := by
  have single : r.pending.length ≤ 1 := by simp [Req.pending, one, whole, fresh]
  obtain ⟨orders, h, rested⟩ := restAtHome_orders s r
  have stepped := (stepped_all turn only (.inr single)).trans (performLanes_one _ (r := (s.restAtHome r).2) (by rw [rested]; exact one) fresh
    (by rw [rested]; exact whole))
  rw [rested] at stepped
  exact ⟨_, h, orders, stepped⟩

section
variable (s : State)

theorem countDone_reqs (r : Req) : (s.countDone r).reqs = s.reqs := by rw [countDone_frame]
theorem countDone_cregs (r : Req) : (s.countDone r).cregs = s.cregs := by rw [countDone_frame]
theorem countDone_wgs (r : Req) : (s.countDone r).wgs = s.wgs := by rw [countDone_frame]
theorem countDone_retired (r : Req) : (s.countDone r).retired = s.retired := by rw [countDone_frame]
theorem llcTouch_reqs (g part cpol ch : Nat) : (s.llcTouch g part cpol ch).reqs = s.reqs := by rw [llcTouch_frame]
theorem llcTouch_cregs (g part cpol ch : Nat) : (s.llcTouch g part cpol ch).cregs = s.cregs := by rw [llcTouch_frame]
theorem llcTouch_wgs (g part cpol ch : Nat) : (s.llcTouch g part cpol ch).wgs = s.wgs := by rw [llcTouch_frame]
theorem llcTouch_done (g part cpol ch : Nat) : (s.llcTouch g part cpol ch).done = s.done := by rw [llcTouch_frame]
theorem llcTouch_pkg (g part cpol ch : Nat) : (s.llcTouch g part cpol ch).pkg = s.pkg := by rw [llcTouch_frame]
theorem llcTouch_retired (g part cpol ch : Nat) : (s.llcTouch g part cpol ch).retired = s.retired := by rw [llcTouch_frame]
theorem setReq_cregs (r : Req) : (s.setReq r).cregs = s.cregs := rfl

end

theorem performReq_one {s : State} {r : Req} {x : Slot} (one : r.slots = [x]) (fresh : x.did = []) (whole : r.pieces.length = 1)
    (plain : r.mi.ord = false) (turn : s.turn r = true) (only : ∀ q ∈ s.mates r, q.id = r.id) (here : ∃ p ∈ s.reqs, p.id = r.id) :
    ∃ (u : State) (q : Req), s.OrdersAs u ∧ q.marked r ∧ (s.performReq r).mem = (u.performPiece q x 0 r.size).1.mem ∧
      (s.performReq r).retired = (u.performPiece q x 0 r.size).1.retired ∧
      s.Performed (s.performReq r) r { (u.performPiece q x 0 r.size).2 with did := [0] } := by
  have single : r.pending.length ≤ 1 := by simp [Req.pending, one, whole, fresh]
  have all := performReq_all turn only (.inr single)
  obtain ⟨u, h, orders, stepped⟩ := stepped_one one fresh whole turn only
  have changes := (performPiece_changes u { r with hampers := h } x r.size 0).1
  rw [all, stepped]
  refine ⟨u, { r with hampers := h }, orders, ⟨_, _, _, rfl⟩, ?_⟩
  generalize u.performPiece { r with hampers := h } x 0 r.size = piece at changes
  generalize touched : piece.1.llcTouch r.pa (s.reqPart r) r.cpol r.insn.fields.ch.toNat = v
  have reqs : v.reqs = piece.1.reqs := touched ▸ llcTouch_reqs ..
  have wgs : v.wgs = piece.1.wgs := touched ▸ llcTouch_wgs ..
  have done : v.done = piece.1.done := touched ▸ llcTouch_done ..
  have retired : v.retired = piece.1.retired := touched ▸ llcTouch_retired ..
  have pkg : v.pkg = piece.1.pkg := touched ▸ llcTouch_pkg ..
  refine ⟨?_, ?_, ?_, fun k w => ?_, fun key => ?_⟩
  · rw [countDone_mem, setReq_mem, ← touched, llcTouch_mem]
  · exact (countDone_retired ..).trans retired
  · obtain ⟨p, hp, id⟩ := orders.here here.choose_spec.1
    rw [countDone_reqs]
    exact ⟨_, setReq_mem_self (p := p) (reqs.trans changes.reqs ▸ hp) (id.trans here.choose_spec.2), rfl, rfl, rfl⟩
  · rw [State.warp, State.wg, countDone_wgs]
    show ((SMap.get {} v.wgs k).warp w).regs = _ ∧ ((SMap.get {} v.wgs k).warp w).lanes = _
    rw [wgs, changes.wgs]
    exact orders.regs k w
  · refine (countDone_done _ plain key).trans ?_
    show SMap.get 0 v.done key + (if r.pa / 2 ^ 52 ≠ v.pkg ∧ _ then 1 else 0) = _
    simp only [done, pkg, changes.done, changes.pkg, orders.done, orders.pkg]

end Sys2Proof.Machine
end

section

/-!
# The events of a home (R109, R114, R304)
-/

namespace Sys2Proof.Machine

/-- The event that performs a request at its home: a remote store or reduction has one of its own (R114). -/
def State.homeEvent (s : State) (r : Req) : Instr :=
  if r.pa / 2 ^ 52 ≠ s.pkg ∧ r.stores = true then .remoteStorePerformed r.id else .homeSliceRequest r.id

section
variable {s : State} {r : Req}

theorem homeEvent_runs (found : s.reqs.find? (fun q => q.id == r.id) = some r) (home : r.phase = .home) (data : r.fetch = false)
    (plain : r.mi.ord = false) : exec (s.homeEvent r) s =
      event (if r.pa / 2 ^ 52 ≠ s.pkg ∧ r.stores = true then "REMOTE_STORE_PERFORMED" else "HOME_SLICE_REQUEST") (s.homeReady r)
        (s.homeStep r) := by
  have req : s.req? r.id = some r := found
  have away : s.remoteStore r = true ↔ r.pa / 2 ^ 52 ≠ s.pkg ∧ r.stores = true := by
    simp [State.remoteStore, State.remote, plain, pkgSpan]
  unfold State.homeEvent
  by_cases remote : r.pa / 2 ^ 52 ≠ s.pkg ∧ r.stores = true
  · rw [if_pos remote, if_pos remote]
    show execRemoteStorePerformed r.id s = _
    unfold execRemoteStorePerformed
    rw [req]
    exact if_neg (by simp [home, away.2 remote])
  · rw [if_neg remote, if_neg remote]
    have near : s.remoteStore r = false := Bool.eq_false_iff.2 (mt away.1 remote)
    show execHomeSliceRequest r.id s = _
    unfold execHomeSliceRequest
    rw [req]
    exact if_neg (by simp [home, data, plain, near])

/-! ### The arrival of a request that is alone of its instruction -/

section
variable (home : r.phase = .home) (fresh : r.arrived = false) (only : s.mates r = [r])
include home only

theorem mayArrive_home : s.mayArrive r = true := by
  unfold State.mayArrive
  rw [only]
  simp [home]

include fresh

theorem refusedWith_home : s.refusedWith r = [r].filter fun q => (s.arrivalCheck q).isSome := by
  have arrives : s.arrivals r = [r] := by
    unfold State.arrivals
    split
    · rfl
    · next one => rw [only]; simp [home, fresh, one]
  rw [State.refusedWith, arrives]

theorem homeReady_refused {d : Nat} (refused : s.homeChecks r.pa r.leaf r.path = some d) : s.homeReady r = true := by
  have fails : s.refusedWith r = [r] := by simp [refusedWith_home home fresh only, State.arrivalCheck, refused]
  unfold State.homeReady
  rw [fails, mayArrive_home home only, fresh]
  rfl

theorem homeStep_refused {d : Nat} (refused : s.homeChecks r.pa r.leaf r.path = some d) : s.homeStep r = s.endGroup r [r] 7 d := by
  have fails : s.refusedWith r = [r] := by simp [refusedWith_home home fresh only, State.arrivalCheck, refused]
  unfold State.homeStep
  rw [fails, fresh]
  dsimp only
  rw [State.arrivalCheck, refused]
  rfl

variable (passes : s.homeChecks r.pa r.leaf r.path = none)
include passes

theorem refusedWith_passes : s.refusedWith r = [] := by simp [refusedWith_home home fresh only, State.arrivalCheck, passes]

/-- A request that passes where it arrives is ready once the scope checker comes to it and a piece of it may be performed. -/
theorem homeReady_passes (ready : s.readyPieces r ≠ []) (free : s.linesFree r = true) (sync : s.trapsScope r = true → s.syncReady r = true) :
    s.homeReady r = true := by
  unfold State.homeReady
  rw [refusedWith_passes home fresh only passes, mayArrive_home home only, free]
  cases traps : s.trapsScope r <;> simp_all

theorem homeStep_passes : s.homeStep r =
    if s.trapsScope r then
      if (s.scopeBad r).isEmpty then ((s.markArrived r).markChecked r).access1 { r with arrived := true, checked := true }
      else (s.markArrived r).endGroup r (s.scopeBad r) 8 0
    else (s.markArrived r).access1 { r with arrived := true } := by
  unfold State.homeStep
  rw [refusedWith_passes home fresh only passes, fresh]
  rfl

end

end

end Sys2Proof.Machine
end

section

/-!
# A request of one lane at its home
-/

namespace Sys2Proof.Machine

/-- A request of one lane at its home, the only one of its instruction, that does not synchronise and may be performed. -/
structure State.PlainAtHome (s : State) (r : Req) (x : Slot) : Prop where
  found : s.reqs.find? (fun q => q.id == r.id) = some r
  one : r.slots = [x]
  home : r.phase = .home
  data : r.fetch = false
  scope : r.mi.scope = 0
  plain : r.mi.ord = false
  turn : s.turn r = true
  fresh : x.did = []
  coming : r.arrived = false
  only : s.mates r = [r]

/-- The instruction's only request is what its mates are. -/
theorem alone_of_mates {s : State} {r : Req} (only : s.mates r = [r]) : ∀ q ∈ s.mates r, q.id = r.id := fun q hq => by
  rw [only, List.mem_singleton] at hq; rw [hq]

namespace State.PlainAtHome
variable {s : State} {r : Req} {x : Slot} (h : s.PlainAtHome r x)
include h

theorem runs (passes : s.homeChecks r.pa r.leaf r.path = none) :
    exec (s.homeEvent r) s = .next ((s.markArrived r).access1 { r with arrived := true }) := by
  have unchecked : s.trapsScope r = false := by simp [State.trapsScope, h.scope]
  have ready := readyPieces_ne_nil h.turn (alone_of_mates h.only) (by simp [h.one]) (by simp [h.one, h.fresh])
  rw [homeEvent_runs h.found h.home h.data h.plain,
    homeReady_passes h.home h.coming h.only passes ready (by simp [State.linesFree, h.scope]) (by simp [unchecked]),
    homeStep_passes h.home h.coming h.only passes, unchecked]
  rfl

theorem refused {d : Nat} (refused : s.homeChecks r.pa r.leaf r.path = some d) :
    ∃ t, exec (s.homeEvent r) s = .next t ∧ t.mem = s.mem ∧ (∀ q ∈ t.reqs, q.id ≠ r.id) ∧
      ((s.wg r.wg).status = .resident → ∃ y ∈ (t.warp r.wg r.warp).pendTraps, y.cause = 7 ∧ y.pc = r.pc ∧
        (x.lane < 64 → y.mask.getLsbD x.lane = true)) := by
  refine ⟨s.endGroup r [r] 7 d, ?_, endGroup_mem s r [r] 7 d, ?_⟩
  · rw [homeEvent_runs h.found h.home h.data h.plain, homeReady_refused h.home h.coming h.only refused,
      homeStep_refused h.home h.coming h.only refused]
    rfl
  · have mate : r ∈ s.mates r := h.only ▸ List.mem_singleton_self r
    obtain ⟨gone, trapped⟩ := endGroup_refuses mate rfl (List.mem_singleton_self r) rfl 7 d
    refine ⟨gone, fun resident => ?_⟩
    obtain ⟨y, hy, cause, pc, mask⟩ := trapped ((takes_iff s r).2 resident)
    exact ⟨y, hy, cause, pc, mask x.lane (by simp [Req.lanes, h.one])⟩

/-- The marked request where it is marked. -/
theorem arrived : (s.markArrived r).turn { r with arrived := true } = true ∧
    (∀ q ∈ (s.markArrived r).mates { r with arrived := true }, q.id = r.id) ∧ ∃ p ∈ (s.markArrived r).reqs, p.id = r.id := by
  have orders := State.OrdersAs.markArrived s r
  have marked : Req.marked { r with arrived := true } r := ⟨_, _, _, rfl⟩
  exact ⟨(orders.turn marked).trans h.turn, orders.alone marked (alone_of_mates h.only), orders.here (List.mem_of_find?_eq_some h.found)⟩

/-- The access of such a request. -/
theorem performs (passes : s.homeChecks r.pa r.leaf r.path = none) (whole : r.pieces.length = 1) (direct : r.isIndex = false) :
    ∃ (t u : State) (q : Req), exec (s.homeEvent r) s = .next t ∧ s.OrdersAs u ∧ q.marked r ∧
      t.mem = (u.performPiece q x 0 r.size).1.mem ∧ t.retired = (u.performPiece q x 0 r.size).1.retired ∧
      s.Performed t r { (u.performPiece q x 0 r.size).2 with did := [0] } := by
  obtain ⟨turn, alone, here⟩ := h.arrived
  obtain ⟨u, q, orders, marked, mem, retired, performed⟩ := performReq_one (s := s.markArrived r) (r := { r with arrived := true }) h.one
    h.fresh whole h.plain turn alone here
  have first := State.OrdersAs.markArrived s r
  refine ⟨_, u, q, h.runs passes, first.trans orders, marked.trans ⟨_, _, _, rfl⟩, ?_⟩
  have access : (s.markArrived r).access1 { r with arrived := true } = (s.markArrived r).performReq { r with arrived := true } := by
    have index : Req.isIndex { r with arrived := true } = false := direct
    have plain : (Req.mi { r with arrived := true }).scope = 0 := h.scope
    simp [State.access1, index, plain]
  rw [access]
  refine ⟨mem, retired, performed.stands, fun k w => ?_, performed.done⟩
  exact performed.warps k w

end State.PlainAtHome

end Sys2Proof.Machine
end

section

/-!
# What loads, stores and atomics of one lane leave (R305, R313, R316, R317)
-/

namespace Sys2Proof.Machine

theorem Req.marked.insn {q r : Req} (h : q.marked r) : q.insn = r.insn := h.same fun _ _ _ => rfl

theorem Req.marked.slotPa {q r : Req} (h : q.marked r) (x : Slot) : q.slotPa x = r.slotPa x := h.same (p := (·.slotPa x)) fun _ _ _ => rfl

/-- The request is performed with a memory, and, where it replies, a reply. -/
def State.PerformsAs (s : State) (r : Req) (x : Slot) (mem : Memory) (reply : Option Nat) : Prop :=
  ∃ t, exec (s.homeEvent r) s = .next t ∧ t.mem = mem ∧
    (∃ q ∈ t.reqs, q.id = r.id ∧ q.phase = .performed ∧
      ∀ v, reply = some v → ∃ y, q.slots = [y] ∧ y.lane = x.lane ∧ y.reply = v ∧ y.esc = x.esc ∧ y.bad = false) ∧
    (∀ k w, (t.warp k w).regs = (s.warp k w).regs ∧ (t.warp k w).lanes = (s.warp k w).lanes) ∧
    ∀ key, SMap.get 0 t.done key = SMap.get 0 s.done key +
      (if r.pa / 2 ^ 52 ≠ s.pkg ∧ r.stores = true ∧ key = pathKey r.core (r.pa / 2 ^ 52) r.path then 1 else 0)

theorem performsAs_of {s t : State} {r : Req} {x y : Slot} {mem : Memory} (run : exec (s.homeEvent r) s = .next t) (left : t.mem = mem)
    (performed : s.Performed t r y) {reply : Option Nat}
    (slot : ∀ v, reply = some v → y.lane = x.lane ∧ y.reply = v ∧ y.esc = x.esc ∧ y.bad = false) : s.PerformsAs r x mem reply := by
  obtain ⟨q, hq, id, phase, slots⟩ := performed.stands
  exact ⟨t, run, left, ⟨q, hq, id, phase, fun v hv => ⟨y, slots, slot v hv⟩⟩, performed.warps, performed.done⟩

namespace State.PlainAtHome
variable {s : State} {r : Req} {x : Slot} (h : s.PlainAtHome r x) (passes : s.homeChecks r.pa r.leaf r.path = none)
  (whole : r.pieces.length = 1)
include h passes whole

/-- A lane that reads an uncorrectable error: nothing is written, the lane is marked, and the line is retired (R306). -/
theorem performs_bad (direct : r.isIndex = false) (reads : isSt r.insn = false) (bad : s.badAt (r.pa + x.addr % 128) r.size = true) :
    ∃ t, exec (s.homeEvent r) s = .next t ∧ t.mem = s.mem ∧ (∀ k w, (t.warp k w).regs = (s.warp k w).regs) ∧
      ((r.pa + x.addr % 128) / 2 ^ 52 = s.pkg → s.lineOf (r.pa + x.addr % 128) ∈ t.retired) ∧
      ∃ q ∈ t.reqs, ∃ y, q.id = r.id ∧ q.phase = .performed ∧ q.slots = [y] ∧ y.lane = x.lane ∧ y.esc = x.esc ∧ y.bad = true := by
  obtain ⟨t, u, q, run, orders, marked, mem, retired, performed⟩ := h.performs passes whole direct
  have insn := marked.insn
  have pa : q.slotPa x + 0 = r.pa + x.addr % 128 := marked.slotPa x
  have piece : u.performPiece q x 0 r.size = (u.retireLine (r.pa + x.addr % 128), { x with bad := true }) := by
    cases rmw : isRmw r.insn with
    | true => rw [performPiece_rmw u q x r.size 0 (insn ▸ rmw), pa, if_pos ((orders.badAt ..).trans bad)]
    | false => rw [performPiece_load u q x r.size 0 (insn ▸ reads) (insn ▸ rmw), pa, if_pos ((orders.badAt ..).trans bad)]
  rw [piece] at mem retired performed
  obtain ⟨p, hp, id, phase, slots⟩ := performed.stands
  refine ⟨t, run, ?_, fun k w => (performed.warps k w).1, fun own => ?_, p, hp, _, id, phase, slots, rfl, rfl, rfl⟩
  · rw [mem, retireLine_mem, orders.mem]
  · rw [retired, ← orders.lineOf]
    exact mem_retireLine (own.trans orders.pkg.symm)

/-- A store writes its bytes. -/
theorem performs_store (st : isSt r.insn = true) :
    s.PerformsAs r x (s.mem.write (s.canon (r.pa + x.addr % 128)) r.size (x.x + x.y * 2 ^ 64)) none := by
  have direct : r.isIndex = false := by
    obtain ⟨f, i⟩ := isSt_eq st
    simp [Req.isIndex, i]
  obtain ⟨t, u, q, run, orders, marked, mem, -, performed⟩ := h.performs passes whole direct
  have insn := marked.insn
  have pa : q.slotPa x + 0 = r.pa + x.addr % 128 := marked.slotPa x
  rw [performPiece_store u q x r.size 0 (insn ▸ st), pa, storeDone_mem, orders.mem, orders.canon, Nat.mul_zero, Nat.pow_zero, Nat.div_one] at mem
  exact performsAs_of run mem performed nofun

/-- A read-modify-write takes the old value and leaves the new one, where it leaves one. -/
theorem performs_rmw (clean : s.badMem = []) (rmw : isRmw r.insn = true) (good : x.bad = false) :
    let a := s.canon (r.pa + x.addr % 128)
    s.PerformsAs r x (((rmwNew r.insn (8 * r.size) (s.mem.read a r.size) x.x x.y).map fun v => s.mem.write a r.size v).getD s.mem)
      (some (s.mem.read a r.size)) := by
  have direct : r.isIndex = false := by
    obtain ⟨f, i | i | i⟩ := isRmw_eq rmw <;> simp [Req.isIndex, i]
  obtain ⟨t, u, q, run, orders, marked, mem, -, performed⟩ := h.performs passes whole direct
  have insn := marked.insn
  have pa : q.slotPa x + 0 = r.pa + x.addr % 128 := marked.slotPa x
  have piece := performPiece_rmw u q x r.size 0 (insn ▸ rmw)
  rw [pa, if_neg (by rw [orders.badAt, badAt_clean clean]; exact Bool.false_ne_true)] at piece
  rw [piece] at mem performed
  rw [rmwDone_mem, insn, orders.memRead, orders.mem, orders.canon] at mem
  refine performsAs_of run mem performed fun v hv => ?_
  obtain rfl := Option.some.inj hv
  exact ⟨rfl, orders.memRead .., rfl, good⟩

/-- A load takes the bytes at its address. -/
theorem performs_load (clean : s.badMem = []) (direct : r.isIndex = false) (st : isSt r.insn = false) (rmw : isRmw r.insn = false) (none : x.reply = 0)
    (good : x.bad = false) : s.PerformsAs r x s.mem (some (s.loads r (r.pa + x.addr % 128) r.size)) := by
  obtain ⟨t, u, q, run, orders, marked, mem, -, performed⟩ := h.performs passes whole direct
  have insn := marked.insn
  have pa : q.slotPa x + 0 = r.pa + x.addr % 128 := marked.slotPa x
  have piece := performPiece_load u q x r.size 0 (insn ▸ st) (insn ▸ rmw)
  rw [pa, if_neg (by rw [orders.badAt, badAt_clean clean]; exact Bool.false_ne_true), orders.loads marked] at piece
  rw [piece] at mem performed
  rw [loadDone_mem, orders.mem] at mem
  refine performsAs_of run mem performed fun v hv => ?_
  obtain rfl := Option.some.inj hv
  exact ⟨rfl, by simp [none], rfl, good⟩

end State.PlainAtHome

/-! ### The index hop of an `ldi` (R304, R313) -/

/-- The address of an element, from its index. -/
def elementAddr (f : Fields) (x : Slot) (index : Word) : Nat :=
  let off : DWord := if f.mbit 3 then index.signExtend 64 else index.setWidth 64
  x.addr / 2 ^ 64 * 2 ^ 64 + (BitVec.ofNat 64 x.addr2 + off * (if f.mbit 2 then 8 else 4)).toNat

/-- The data hop of a lane, from its index hop. -/
def Slot.dataHop (z : Slot) (f : Fields) : Slot :=
  let off := if f.mbit 3 then (BitVec.ofNat 32 z.reply).signExtend 64 else BitVec.ofNat 64 z.reply
  let da := (BitVec.ofNat 64 z.addr2 + off * BitVec.ofNat 64 (if f.mbit 2 then 8 else 4)).toNat
  { z with addr := z.addr / 2 ^ 64 * 2 ^ 64 + da, x := z.addr, reply := 0, did := [] }

theorem dataHop_addr (z : Slot) (f : Fields) (small : z.reply < 2 ^ 32) : (z.dataHop f).addr = elementAddr f z (BitVec.ofNat 32 z.reply) := by
  have zero : BitVec.ofNat 64 z.reply = (BitVec.ofNat 32 z.reply).setWidth 64 := by
    refine BitVec.eq_of_toNat_eq ?_
    simp only [BitVec.toNat_setWidth, BitVec.toNat_ofNat]
    omega
  unfold Slot.dataHop elementAddr
  rw [zero]
  cases f.mbit 2 <;> rfl

/-- The request of the data hop of a lane, by its number. -/
def Req.dataHop (r : Req) (tag : Nat) (z : Slot) : Req :=
  { r with id := tag, slots := [{ z with bad := false }.dataHop r.insn.fields]
           hampers := if r.hampers.isEmpty then [] else [r.hampers.getD 0 .packet]
           phase := .translate, routed := false, arrived := false, hop2 := true }

/-- A hamper of a data hop waits at the index slice until the hop is sent (R96). -/
def State.hopRests (s : State) (q : Req) : State × Req :=
  match s.homeDie q.pa with
  | some die => if s.remote q then (s, q) else s.restHamper q die (sliceOf (s.canon q.pa % 2 ^ 37) / 4)
  | none => (s, q)

theorem hopRests_keeps (s : State) (q : Req) : (s.hopRests q).1.mem = s.mem ∧ ∃ h, (s.hopRests q).2 = { q with hampers := h } := by
  unfold State.hopRests
  split
  · split
    · exact ⟨rfl, _, rfl⟩
    · exact ⟨restHamper_mem .., _, rfl⟩
  · exact ⟨rfl, _, rfl⟩

/-- The index request is gone. -/
def State.indexDone (s : State) (r : Req) (u : State) : State :=
  let v := u.llcTouch r.pa (s.reqPart r) r.cpol r.insn.fields.ch.toNat
  { v with reqs := v.reqs.filter fun q => q.id != r.id }

theorem hopOn_stepped {s u : State} {r : Req} {z : Slot}
    (stepped : s.performSome r = (u, { r with slots := [{ z with bad := false, did := [0] }] })) :
    let y := (s.indexDone r u).hopRests (r.dataHop u.tag z)
    s.hopOn r = { y.1 with reqs := y.1.reqs ++ [y.2], tag := u.tag + 1 } := by
  have tag : (s.indexDone r u).tag = u.tag := by rw [State.indexDone, llcTouch_frame]
  rw [← tag]
  unfold State.hopOn
  rw [stepped]
  rfl

theorem isIndex_of {r : Req} {f : Fields} (i : r.insn = .ldi f) (first : r.hop2 = false) : r.isIndex = true := by
  simp [Req.isIndex, i, first]

theorem hopOn_one {s : State} {r : Req} {x : Slot} {f : Fields} (i : r.insn = .ldi f) (first : r.hop2 = false) (one : r.slots = [x])
    (fresh : x.did = []) (turn : s.turn r = true) (only : ∀ q ∈ s.mates r, q.id = r.id) (clean : s.badMem = []) (none : x.reply = 0)
    (good : x.bad = false) :
    (s.hopOn r).mem = s.mem ∧ ∃ q ∈ (s.hopOn r).reqs, ∃ y, q.id = s.tag ∧ q.slots = [y] ∧ q.hop2 = true ∧ q.phase = .translate ∧
      q.group = r.group ∧ y.lane = x.lane ∧ y.addr = elementAddr f x (BitVec.ofNat 32 (s.loads r (r.pa + x.addr % 128) 4)) := by
  have size : r.size = 4 := by simp [Req.size, i, first]
  have whole : r.pieces.length = 1 := pieces_one (by omega)
  have single : r.pending.length ≤ 1 := by simp [Req.pending, one, whole, fresh]
  have piece := performPiece_load s r x r.size 0 (by rw [i]; rfl) (by rw [i]; rfl)
  rw [if_neg (by rw [badAt_clean clean]; exact Bool.false_ne_true), size, none, good, Nat.zero_add, Nat.mul_zero, Nat.pow_zero, Nat.mul_one] at piece
  have changes := (performPiece_changes s r x 4 0).1
  have stepped := (performSome_all turn only (.inr single)).trans (performLanes_one s one fresh whole)
  rw [size, piece] at stepped
  rw [piece] at changes
  have mem : (s.loadDone r x (r.slotPa x + 0) 4).mem = s.mem := loadDone_mem ..
  generalize s.loadDone r x (r.slotPa x + 0) 4 = u at stepped changes mem
  have hops := hopOn_stepped (z := { x with reply := s.loads r (r.slotPa x + 0) 4 }) stepped
  obtain ⟨kept, h, rests⟩ := hopRests_keeps (s.indexDone r u) (r.dataHop u.tag { x with reply := s.loads r (r.slotPa x + 0) 4 })
  rw [hops]
  refine ⟨?_, _, List.mem_append_right _ (List.mem_singleton_self _),
    Slot.dataHop { x with reply := s.loads r (r.slotPa x + 0) 4, bad := false } f, ?_⟩
  · exact kept.trans ((congrArg State.mem (llcTouch_frame ..)).trans mem)
  · rw [rests, Req.dataHop, i]
    exact ⟨changes.tag, rfl, rfl, rfl, rfl, rfl, dataHop_addr _ f (loads_lt ..)⟩

end Sys2Proof.Machine
end

section

/-!
# The statement about accesses at homes
-/

namespace Sys2Proof.Machine

/-- The instructions that are atomics take 4 or 8 bytes. -/
theorem size_atomic {r : Req} {f : Fields} (i : r.insn = .atom f ∨ r.insn = .red f ∨ r.insn = .cas f) :
    r.size = if f.mbit 2 then 8 else 4 := by
  rcases i with i | i | i <;> simp [Req.size, i, memOf, atomInfo]

theorem size_memOf {r : Req} {f : Fields} (i : r.insn = .ld f ∨ r.insn = .st f) : r.size = (memOf r.insn).size := by
  rcases i with i | i <;> simp [Req.size, i]

/-- The atomic of one lane, in the obligation's terms. -/
theorem performs_atomic {s : State} {r : Req} {x : Slot} {f : Fields} (h : s.PlainAtHome r x)
    (passes : s.homeChecks r.pa r.leaf r.path = none) (clean : s.badMem = []) (good : x.bad = false)
    (i : r.insn = .atom f ∨ r.insn = .red f ∨ r.insn = .cas f) :
    let a := s.canon (r.pa + x.addr % 128)
    let n := if f.mbit 2 then 8 else 4
    s.PerformsAs r x (((rmwNew r.insn (8 * n) (s.mem.read a n) x.x x.y).map fun v => s.mem.write a n v).getD s.mem)
      (some (s.mem.read a n)) := by
  have size := size_atomic i
  have rmw : isRmw r.insn = true := by rcases i with i | i | i <;> rw [i] <;> rfl
  have small : r.size ≠ 16 := by rw [size]; split <;> decide
  have := h.performs_rmw passes (pieces_one small) clean rmw good
  rwa [size] at this

section
variable (f : Fields) (w old b c : Nat)

theorem rmwNew_atom : rmwNew (.atom f) w old b c = some (atomicNew f.c.toNat w old b) := congrArg some (atomNew_eq ..)

theorem rmwNew_red : rmwNew (.red f) w old b c = some (atomicNew f.c.toNat w old b) := congrArg some (atomNew_eq ..)

theorem rmwNew_cas : rmwNew (.cas f) w old b c = if old = c then some b else none := rfl

end

theorem performsAs_none {s : State} {r : Req} {x : Slot} {mem : Memory} {v : Option Nat} (h : s.PerformsAs r x mem v) : s.PerformsAs r x mem none := by
  obtain ⟨t, run, left, ⟨q, hq, id, phase, -⟩, warps, done⟩ := h
  exact ⟨t, run, left, ⟨q, hq, id, phase, nofun⟩, warps, done⟩

/-- Settles O39: by what the home's checks say of the request, and then by the kind of its access. -/
theorem homesPerformAccesses : Obligations.HomesPerformAccesses := by
  unfold Obligations.HomesPerformAccesses
  intro s r x found one home data sync plain turn fresh none good coming only a event reads performs
  have scope : r.mi.scope = 0 := by simpa [Req.sync, data, plain] using sync
  have h : s.PlainAtHome r x := ⟨found, one, home, data, scope, plain, turn, fresh, coming, only⟩
  have seen (n : Nat) : s.loads r (r.pa + x.addr % 128) n = reads n := loads_eq ..
  refine ⟨fun d refused => h.refused refused, ?_⟩
  intro bad
  refine ⟨fun passes whole ⟨u, here, low, high⟩ ⟨f, kind⟩ => ?_, fun passes clean => ⟨fun whole => ⟨fun f i => ?_, fun f i => ?_⟩,
    fun f i => ?_, fun f i => ?_, fun f i => ⟨fun equal => ?_, fun differs => ?_⟩, fun f i second => ?_, fun f i first => ?_⟩⟩
  · have error : s.badAt (r.pa + x.addr % 128) r.size = true := badAt_of_mem here low high
    refine h.performs_bad passes whole ?_ ?_ error
    · rcases kind with i | i | i | i | ⟨i, second⟩
      iterate 4 simp [Req.isIndex, i]
      simp [Req.isIndex, second]
    · rcases kind with i | i | i | i | ⟨i, second⟩ <;> rw [i] <;> rfl
  · have := h.performs_load passes whole clean (by simp [Req.isIndex, i]) (by rw [i]; rfl) (by rw [i]; rfl) none good
    rw [size_memOf (.inl i), seen] at this
    exact this
  · have := h.performs_store passes whole (by rw [i]; rfl)
    rw [size_memOf (.inr i)] at this
    exact this
  · have := performs_atomic h passes clean good (.inl i)
    simp only [i, rmwNew_atom] at this
    exact this
  · have := performsAs_none (performs_atomic h passes clean good (.inr (.inl i)))
    simp only [i, rmwNew_red] at this
    exact this
  · have := performs_atomic h passes clean good (.inr (.inr i))
    have equal : s.mem.read (s.canon (r.pa + x.addr % 128)) (if f.mbit 2 then 8 else 4) = x.y := equal
    simp only [i, rmwNew_cas, equal, if_true] at this
    exact this
  · have := performs_atomic h passes clean good (.inr (.inr i))
    have differs : ¬s.mem.read (s.canon (r.pa + x.addr % 128)) (if f.mbit 2 then 8 else 4) = x.y := differs
    simp only [i, rmwNew_cas, differs, if_false] at this
    exact this
  · have size : r.size = if f.mbit 2 then 8 else 4 := by simp [Req.size, i, second]
    have small : r.size ≠ 16 := by rw [size]; split <;> decide
    have := h.performs_load passes (pieces_one small) clean (by simp [Req.isIndex, second]) (by rw [i]; rfl) (by rw [i]; rfl) none good
    rw [size, seen] at this
    exact this
  · have orders := State.OrdersAs.markArrived s r
    have marked : Req.marked { r with arrived := true } r := ⟨_, _, _, rfl⟩
    obtain ⟨turn, alone, -⟩ := h.arrived
    obtain ⟨mem, q, hq, y, id, slots, second, phase, group, lane, addr⟩ := hopOn_one (s := s.markArrived r) (r := { r with arrived := true }) i
      first one fresh turn alone (orders.badMem.trans clean) none good
    have hop : (s.markArrived r).access1 { r with arrived := true } = (s.markArrived r).hopOn { r with arrived := true } :=
      if_pos (isIndex_of (r := { r with arrived := true }) i first)
    refine ⟨_, (h.runs passes).trans (congrArg _ hop), mem, q, hq, y, id, slots, second, phase, group, lane, ?_⟩
    rw [addr, orders.loads marked]
    show elementAddr f x (BitVec.ofNat 32 (s.loads r (r.pa + x.addr % 128) 4)) = _
    rw [seen]
    rfl

end Sys2Proof.Machine
end

section

/-!
# Synchronising requests (R114 to R117, R158 to R160)
-/

namespace Sys2Proof.Machine

/-! ### The scope checker -/

/-- A synchronising request, the only one of its instruction, that has not come to its home's checks. -/
structure State.Syncs (s : State) (r : Req) : Prop where
  found : s.reqs.find? (fun q => q.id == r.id) = some r
  data : r.fetch = false
  scope : r.mi.scope ≠ 0
  passes : s.homeChecks r.pa r.leaf r.path = none
  lanes : r.slots ≠ []
  fresh : ∀ x ∈ r.slots, x.did = []
  group : s.reqs.filter (fun q => q.group == r.group) = [r]
  coming : r.arrived = false
  unchecked : r.checked = false

theorem checkMode_trap (s : State) (ctx : Nat) :
    s.checkMode ctx = 0 ↔ (s.ctx ctx).scopechk.toNat % 4 = 0 ∨ (s.ctx ctx).scopechk.toNat % 4 = 3 := by
  unfold State.checkMode
  dsimp only
  split
  · next three => simp [three]
  · next other => simp [other]

namespace State.Syncs
variable {s : State} {r : Req} (h : s.Syncs r)
include h

theorem here : r ∈ s.reqs := List.mem_of_find?_eq_some h.found

theorem mates (going : r.phase ≠ .performed) : s.mates r = [r] := by
  have split : s.mates r = (s.reqs.filter fun q => q.group == r.group).filter fun q => !q.fetch && (q.phase != .performed || q.fromL1) := by
    rw [List.filter_filter]
    exact List.filter_congr fun q _ => by ac_rfl
  rw [split, h.group]
  simp [h.data, going]

theorem traps : s.trapsScope r = true ↔ (s.ctx (s.ctxNo r.wg)).scopechk.toNat % 4 = 0 ∨ (s.ctx (s.ctxNo r.wg)).scopechk.toNat % 4 = 3 := by
  rw [← checkMode_trap]
  simp [State.trapsScope, h.data, h.scope, h.unchecked]

theorem scopeBad (going : r.phase ≠ .performed) : s.scopeBad r = if s.scopeFails r then [r] else [] := by
  rw [State.scopeBad, h.mates going, List.filter_cons, List.filter_nil]

omit h in
/-- The line is kept for another core's access. -/
theorem lineKept : s.lineKept r = true ↔ ∃ q ∈ s.reqs, q.checked = true ∧ q.group ≠ r.group ∧ q.core ≠ r.core ∧
    (q.phase = .home ∨ q.phase = .held) ∧ (s.homeDie q.pa).isSome = true ∧ q.cpol ≠ 2 ∧ s.lineOf q.pa = s.lineOf r.pa := by
  simp [State.lineKept, State.keepsRecord, and_assoc]

theorem linesFree (going : r.phase ≠ .performed) : s.linesFree r = !s.lineKept r := by
  have scope : (r.mi.scope == 0) = false := beq_eq_false_iff_ne.2 h.scope
  unfold State.linesFree
  rw [scope, h.unchecked, h.mates going, ite_self]
  simp

theorem syncReady (there : r.phase = .home ∨ r.phase = .held) (turn : s.turn r = true) : s.syncReady r = true := by
  have going : r.phase ≠ .performed := by rcases there with h | h <;> rw [h] <;> decide
  unfold State.syncReady
  rw [h.mates going]
  rcases there with h | h <;> simp [h, turn]

end State.Syncs

/-! ### What a synchronising access leaves -/

/-- A line that has been given a record holds it. -/
theorem updLine_record (s : State) (g part : Nat) (v : Option (Nat × Nat)) {l : Line}
    (found : ((SMap.get [] (s.updLine g part fun l => { l with record := v }).llc (s.llcKey g part) : List Line).find? fun l =>
      l.addr == s.lineOf g) = some l) : l.record = v := by
  have addr : l.addr = s.lineOf g := by simpa using List.find?_some found
  have here := List.mem_of_find?_eq_some found
  rw [State.updLine, SMap.get_upd, if_pos rfl] at here
  obtain ⟨m, -, rfl⟩ := List.mem_map.1 here
  by_cases same : m.addr = s.lineOf g
  · rw [if_pos same]
  · rw [if_neg same] at addr
    exact absurd addr same

theorem llcKey_congr {s t : State} (canon : t.canon = s.canon) (regs : ∀ p, t.cregOf p llcPCfg = s.cregOf p llcPCfg) :
    t.llcKey = s.llcKey := by
  funext g part
  simp only [State.llcKey, canon, regs]

section
variable {s : State} {r : Req} (turn : s.turn r = true) (only : ∀ q ∈ s.mates r, q.id = r.id)
include turn only

/-- The accesses of a step touch the line's set and no other state that a line's key depends on. -/
theorem performReq_line (once : s.choices = [] ∨ r.pending.length ≤ 1) :
    (s.performReq r).llcKey = s.llcKey ∧ (s.performReq r).lineOf = s.lineOf := by
  obtain ⟨orders, h, rested⟩ := restAtHome_orders s r
  have access := (performLanes_did (s.restAtHome r).1 (s.restAtHome r).2 (s.restAtHome r).2.pending).1
  rw [← stepped_all turn only once] at access
  have cregs : (s.performReq r).cregs = (s.stepped r).1.cregs := by
    rw [performReq_all turn only once, countDone_cregs, setReq_cregs, llcTouch_cregs]
  have regs (p : Nat) {o : Nat} (ho : o ≠ health) : (s.performReq r).cregOf p o = s.cregOf p o := by
    have before : (s.restAtHome r).1.cregOf p o = s.cregOf p o := by rw [orders.frame]; rfl
    rw [← before, ← access.regs p o ho, State.cregOf, State.cregOf, cregs]
  have canon : (s.performReq r).canon = s.canon := canon_eq fun p => regs p (by decide)
  exact ⟨llcKey_congr canon fun p => regs p (by decide), funext fun g => by rw [State.lineOf, State.lineOf, canon]⟩

theorem performReq_stands (once : s.choices = [] ∨ r.pending.length ≤ 1) (here : ∃ p ∈ s.reqs, p.id = r.id) :
    ∃ q ∈ (s.performReq r).reqs, q.id = r.id ∧ q.phase = .performed := by
  obtain ⟨orders, h, rested⟩ := restAtHome_orders s r
  obtain ⟨access, did⟩ := performLanes_did (s.restAtHome r).1 (s.restAtHome r).2 (s.restAtHome r).2.pending
  rw [← stepped_all turn only once] at access did
  have id : (s.stepped r).2.id = r.id := by rw [did.frame, rested]
  obtain ⟨p, hp, same⟩ := here
  obtain ⟨q, hq, again⟩ := orders.here hp
  rw [performReq_all turn only once, countDone_reqs]
  generalize s.stepped r = y at access id
  have there : q ∈ (y.1.llcTouch r.pa (s.reqPart r) r.cpol r.insn.fields.ch.toNat).reqs := by rw [llcTouch_reqs, access.reqs]; exact hq
  exact ⟨_, setReq_mem_self there (again.trans (same.trans id.symm)), id, rfl⟩

theorem performReq_store {f : Fields} {x : Slot} (i : r.insn = .st f) (one : r.slots = [x]) (fresh : x.did = []) (whole : r.pieces.length = 1) :
    (s.performReq r).mem = s.mem.write (s.canon (r.pa + x.addr % 128)) (memOf r.insn).size (x.x + x.y * 2 ^ 64) := by
  have single : r.pending.length ≤ 1 := by simp [Req.pending, one, whole, fresh]
  obtain ⟨u, h, orders, stepped⟩ := stepped_one one fresh whole turn only
  have store : isSt r.insn = true := by rw [i]; rfl
  have piece := performPiece_store u { r with hampers := h } x r.size 0 store
  rw [piece] at stepped
  rw [performReq_all turn only (.inr single), stepped, countDone_mem, setReq_mem, llcTouch_mem]
  show (u.storeDone _ x _ r.size _).mem = _
  rw [storeDone_mem, orders.mem, orders.canon, Nat.mul_zero, Nat.pow_zero, Nat.div_one, size_memOf (.inr i)]
  rfl

end

/-- What a synchronising access leaves: the request performed, the record in its line where one is kept, and a store's bytes. -/
structure State.SyncedTo (s t : State) (r : Req) : Prop where
  stands : ∃ q ∈ t.reqs, q.id = r.id ∧ q.phase = .performed
  record : s.keepsRecord r = true → ∀ l, ((SMap.get [] t.llc (s.llcKey r.pa (s.reqPart r)) : List Line).find? fun l =>
    l.addr == s.lineOf r.pa) = some l → l.record = some (r.mi.scope, s.podCore r.core)
  store : ∀ f x, r.insn = .st f → r.slots = [x] → r.pieces.length = 1 →
    t.mem = s.mem.write (s.canon (r.pa + x.addr % 128)) (memOf r.insn).size (x.x + x.y * 2 ^ 64)

theorem performSync_synced {s : State} {r : Req} (turn : s.turn r = true) (only : ∀ q ∈ s.mates r, q.id = r.id)
    (once : s.choices = [] ∨ r.pending.length ≤ 1) (here : ∃ p ∈ s.reqs, p.id = r.id) (fresh : ∀ x ∈ r.slots, x.did = []) :
    s.SyncedTo (s.performSync r) r := by
  have counted : s.OrdersAs (if s.checkMode (s.ctxNo r.wg) = 1 && s.scopeFails r then s.countScope (s.ctxNo r.wg) 1 else s) := by
    split
    · exact .countScope ..
    · exact .refl s
  unfold State.performSync
  dsimp only
  generalize (if s.checkMode (s.ctxNo r.wg) = 1 && s.scopeFails r then s.countScope (s.ctxNo r.wg) 1 else s) = u at counted
  have turn := (counted.turn (marked_refl r)).trans turn
  have only := counted.alone (marked_refl r) only
  have once := once.imp_left counted.choices.trans
  obtain ⟨p, hp, same⟩ := here
  obtain ⟨q, hq, again⟩ := counted.here hp
  obtain ⟨key, lineOf⟩ := performReq_line turn only once
  have stands := performReq_stands turn only once ⟨q, hq, again.trans same⟩
  have store (f : Fields) (x : Slot) (i : r.insn = .st f) (one : r.slots = [x]) (whole : r.pieces.length = 1) :
      (u.performReq r).mem = s.mem.write (s.canon (r.pa + x.addr % 128)) (memOf r.insn).size (x.x + x.y * 2 ^ 64) := by
    rw [performReq_store turn only i one (fresh x (by simp [one])) whole, counted.mem, counted.canon]
  generalize u.performReq r = v at key lineOf stands store
  split
  · refine ⟨stands, fun _ l found => ?_, store⟩
    rw [← counted.llcKey, ← key, ← counted.lineOf, ← lineOf] at found
    exact updLine_record _ _ _ _ found
  · next unkept => exact ⟨stands, fun kept => absurd kept unkept, store⟩

/-- The same, where marks precede it. -/
theorem access1_synced {s u : State} {q r : Req} (orders : s.OrdersAs u) (ctxs : u.ctxs = s.ctxs) (marked : q.marked r)
    (scope : r.mi.scope ≠ 0)
    (turn : s.turn r = true) (only : ∀ q ∈ s.mates r, q.id = r.id)
    (once : s.choices = [] ∨ r.pending.length ≤ 1) (here : r ∈ s.reqs) (fresh : ∀ x ∈ r.slots, x.did = []) :
    s.SyncedTo (u.access1 q) r := by
  have direct : r.isIndex = false := by
    unfold Req.isIndex
    cases i : r.insn <;> simp
    all_goals simp [Req.mi, i, memOf] at scope
  have synced := performSync_synced ((orders.turn marked).trans turn) (orders.alone marked only)
  obtain ⟨a, c, h, rfl⟩ := marked
  have sync : u.access1 { r with arrived := a, checked := c, hampers := h } = u.performSync { r with arrived := a, checked := c, hampers := h } := by
    have scope : (Req.mi { r with arrived := a, checked := c, hampers := h }).scope ≠ 0 := scope
    have direct : Req.isIndex { r with arrived := a, checked := c, hampers := h } = false := direct
    simp [State.access1, direct, scope]
  obtain ⟨stands, record, store⟩ := synced (once.imp_left orders.choices.trans) ⟨_, orders.here here |>.choose_spec⟩ fresh
  rw [sync]
  refine ⟨stands, fun kept l found => ?_, fun f x i one whole => ?_⟩
  · have part : u.ctxPart = s.ctxPart := ctxPart_eq (fun p => by rw [orders.frame]; rfl) orders.pkg ctxs orders.mem
    have reqPart : u.reqPart r = s.reqPart r := by
      have number : u.ctxNo r.wg = s.ctxNo r.wg := by rw [orders.frame]; rfl
      rw [State.reqPart, State.reqPart, part, number]
    have unit : u.podCore r.core = s.podCore r.core := by rw [State.podCore, State.podCore, orders.pkg]
    rw [← unit]
    refine record (by rw [State.keepsRecord, orders.homeDie]; exact kept) l ?_
    rw [orders.llcKey, orders.lineOf]
    rw [← reqPart] at found
    exact found
  · rw [store f x i one whole, orders.mem, orders.canon]

end Sys2Proof.Machine
end

section

/-!
# The statement about synchronising requests
-/

namespace Sys2Proof.Machine

/-- What the scope checker's step of a request leaves in `u`, where the request's arrival is marked. -/
def State.checkStep (s u : State) (r : Req) : State :=
  if s.trapsScope r then
    if (s.scopeBad r).isEmpty then (u.markChecked r).access1 { r with arrived := true, checked := true }
    else u.endGroup r (s.scopeBad r) 8 0
  else u.access1 { r with arrived := true }

/-- A flag at its destination has passed the checks where it arrived. -/
theorem homeStep_arrived (s : State) (r : Req) : s.homeStep { r with arrived := true } = s.checkStep s r := by
  unfold State.homeStep State.checkStep
  cases s.refusedWith { r with arrived := true } <;> rfl

/-- A mark leaves a mate a mate. -/
theorem State.OrdersAs.mate {s u : State} (h : s.OrdersAs u) {r : Req} (mate : r ∈ s.mates r) : ∃ p ∈ u.mates r, p.id = r.id := by
  obtain ⟨m, hm, mapped⟩ := h.reqs
  obtain ⟨here, going⟩ := List.mem_filter.1 mate
  refine ⟨m r, List.mem_filter.2 ⟨mapped ▸ List.mem_map_of_mem here, ?_⟩, (hm r).same fun _ _ _ => rfl⟩
  obtain ⟨a, c, t, e⟩ := hm r
  rw [e]
  exact going

/-- What the scope checker leaves of an instruction that it stops. -/
structure State.RefusedTo (s t : State) (r : Req) : Prop where
  mem : t.mem = s.mem
  gone : ∀ q ∈ t.reqs, q.id ≠ r.id
  trapped : (s.wg r.wg).status = .resident → ∃ x ∈ (t.warp r.wg r.warp).pendTraps, x.cause = 8 ∧ x.pc = r.pc ∧
    ∀ l ∈ r.lanes, l < 64 → x.mask.getLsbD l = true

namespace State.Syncs
variable {s u : State} {r : Req} (h : s.Syncs r) (going : r.phase ≠ .performed)
include h going

theorem scopeBad_isEmpty : (s.scopeBad r).isEmpty = !s.scopeFails r := by
  rw [h.scopeBad going]
  cases s.scopeFails r <;> rfl

variable (orders : s.OrdersAs u)
include orders

/-- A request that the scope checker lets pass is performed. -/
theorem checkStep_synced (ctxs : u.ctxs = s.ctxs) (free : ¬(s.trapsScope r = true ∧ s.scopeFails r = true)) (turn : s.turn r = true)
    (once : s.choices = [] ∨ r.pending.length ≤ 1) : s.SyncedTo (s.checkStep u r) r := by
  have only := alone_of_mates (h.mates going)
  unfold State.checkStep
  split
  · next traps =>
    have passes : s.scopeFails r = false := Bool.eq_false_iff.2 fun fails => free ⟨traps, fails⟩
    rw [h.scopeBad_isEmpty going, passes]
    exact access1_synced (orders.trans (.markChecked u r)) ctxs ⟨_, _, _, rfl⟩ h.scope turn only once h.here h.fresh
  · exact access1_synced orders ctxs ⟨_, _, _, rfl⟩ h.scope turn only once h.here h.fresh

/-- One that it does not takes SCOPE. -/
theorem checkStep_refused (wgs : u.wgs = s.wgs) (traps : s.trapsScope r = true) (fails : s.scopeFails r = true) :
    s.RefusedTo (s.checkStep u r) r := by
  have bad : s.scopeBad r = [r] := by rw [h.scopeBad going, if_pos fails]
  unfold State.checkStep
  rw [if_pos traps, bad]
  obtain ⟨p, mate, same⟩ := orders.mate (r := r) (by rw [h.mates going]; exact List.mem_singleton_self r)
  obtain ⟨gone, trapped⟩ := endGroup_refuses mate same (List.mem_singleton_self r) rfl 8 0
  refine ⟨(endGroup_mem u r [r] 8 0).trans orders.mem, gone, fun resident => trapped ((takes_iff u r).2 ?_)⟩
  rw [State.wg, wgs]
  exact resident

end State.Syncs

/-! ### At the home -/

namespace State.Syncs
variable {s : State} {r : Req} (h : s.Syncs r)
include h

section
variable (home : r.phase = .home)
include home

omit h in
theorem going_home : r.phase ≠ .performed := by rw [home]; decide

theorem homeReady_busy (busy : s.lineKept r = true) : s.homeReady r = false := by
  have only := h.mates (going_home home)
  unfold State.homeReady
  rw [refusedWith_passes home h.coming only h.passes, mayArrive_home home only, h.linesFree (going_home home), busy]
  simp

theorem homeReady_free (free : s.lineKept r = false) (turn : s.turn r = true) : s.homeReady r = true := by
  have only := h.mates (going_home home)
  exact homeReady_passes home h.coming only h.passes (readyPieces_ne_nil turn (alone_of_mates only) h.lanes h.fresh)
    (by rw [h.linesFree (going_home home), free]; rfl) fun _ => h.syncReady (.inl home) turn

theorem homeStep_check : s.homeStep r = s.checkStep (s.markArrived r) r :=
  homeStep_passes home h.coming (h.mates (going_home home)) h.passes

/-- A flag is held at its destination, or sent again. -/
theorem flag_arrives (flag : r.mi.ord = true) : exec (.orderedFlagArrival r.id) s = .next
    (if 256 ≤ (s.reqs.filter fun q => q.phase == .held && q.pa / 2 ^ 52 == r.pa / 2 ^ 52).length then s
      else (s.markArrived r).setReq { r with phase := .held, arrived := true }) := by
  have only := h.mates (going_home home)
  have req : s.req? r.id = some r := h.found
  show execOrderedFlagArrival r.id s = _
  unfold execOrderedFlagArrival
  rw [req]
  dsimp only
  rw [if_neg (by simp [home, flag]), if_neg (by simp [mayArrive_home home only]), refusedWith_passes home h.coming only h.passes, h.coming]
  dsimp only
  rw [apply_ite Host.Outcome.next]
  rfl

end

/-! ### A flag that is held -/

section
variable (held : r.phase = .held) (flag : r.mi.ord = true)
include held flag

omit h flag in
theorem going_held : r.phase ≠ .performed := by rw [held]; decide

theorem flag_runs : exec (.orderedFlagPerform r.id) s = event "ORDERED_FLAG_PERFORM" (!s.lineKept r && (if s.trapsScope r then s.syncReady r else true)
    && ((s.trapsScope r && s.scopeFails r) || s.flagTurn r)) (s.checkStep s r) := by
  have req : s.req? r.id = some r := h.found
  have going := going_held held
  show execOrderedFlagPerform r.id s = _
  unfold execOrderedFlagPerform
  rw [req]
  dsimp only
  rw [homeStep_arrived, h.linesFree going, h.scopeBad_isEmpty going, Bool.not_not]
  simp [held, flag]

end

end State.Syncs

theorem flagReady_iff (s : State) (r : Req) : s.flagReady r = true ↔
    (r.pa / 2 ^ 52 ≠ s.pkg → ∀ n, n < 4 → (SMap.get 0 s.done (pathKey r.core (r.pa / 2 ^ 52) n) - r.sentAt.getD n 0).toNat < 2 ^ 31) ∧
    ∀ q ∈ s.reqs, ¬(q.core = r.core ∧ q.stores = true ∧ q.mi.ord = false ∧ q.phase ≠ .performed ∧
      (q.id ∈ r.behind ∨ (q.group < r.group ∧ q.space ≠ 1 ∧ q.space ≠ 3 ∧ (q.phase = .home → q.pa / 2 ^ 52 = r.pa / 2 ^ 52)))) := by
  have away : s.remote r = true ↔ r.pa / 2 ^ 52 ≠ s.pkg := by simp [State.remote, pkgSpan]
  have count (n : Nat) (lt : n < 4) : (fourCounts s.done r.core (r.pa / pkgSpan)).getD n 0 = SMap.get 0 s.done (pathKey r.core (r.pa / 2 ^ 52) n) := by
    simp [fourCounts, lt, pkgSpan]
  have reached : ((List.range 4).all fun k => countReached ((fourCounts s.done r.core (r.pa / pkgSpan)).getD k 0) (r.sentAt.getD k 0)) = true ↔
      ∀ n, n < 4 → (SMap.get 0 s.done (pathKey r.core (r.pa / 2 ^ 52) n) - r.sentAt.getD n 0).toNat < 2 ^ 31 := by
    rw [List.all_eq_true]
    refine forall_congr' fun n => ?_
    rw [List.mem_range]
    exact forall_congr' fun lt => by rw [count n lt, countReached, decide_eq_true_iff]
  have none_ (p : Req → Bool) : (!s.reqs.any p) = true ↔ ∀ q ∈ s.reqs, ¬p q = true := by simp
  unfold State.flagReady
  dsimp only
  rw [Bool.and_eq_true, Bool.or_eq_true, Bool.not_eq_true', ← Bool.not_eq_true, away, reached, ← imp_iff_not_or, none_]
  refine and_congr Iff.rfl (forall₂_congr fun q _ => not_congr ?_)
  simp [pkgSpan, and_assoc, imp_iff_not_or]

/-- Settles O41: by where the request is, and then by what the scope checker says of it. -/
theorem synchronisingRequests : Obligations.SynchronisingRequests := by
  unfold Obligations.SynchronisingRequests
  intro s r found data scope passes lanes fresh group coming unchecked busy part line kept mode trapMode traps performed refused atOnce away orders
  have h : s.Syncs r := ⟨found, data, scope, passes, lanes, fresh, group, coming, unchecked⟩
  have busyIff : s.lineKept r = true ↔ busy := State.Syncs.lineKept
  have trapsIff : s.trapsScope r = true ∧ s.scopeFails r = true ↔ traps := and_congr_left' h.traps
  have once (at_ : atOnce) : s.choices = [] ∨ r.pending.length ≤ 1 := at_.imp_right fun ⟨one, whole⟩ => by
    obtain ⟨x, slots⟩ := List.length_eq_one_iff.1 one
    simp [Req.pending, slots, whole, fresh x (by simp [slots])]
  have ends {t : State} (synced : s.SyncedTo t r) : performed t :=
    ⟨synced.stands, fun ⟨die, cached⟩ => synced.record (by simp [State.keepsRecord, die, cached]), fun f x i one whole _ => synced.store f x i one whole⟩
  have fails {t : State} (left : s.RefusedTo t r) : refused t := ⟨left.mem, left.gone, left.trapped⟩
  refine ⟨fun home plain turn => ?_, fun home flag => ?_, fun held flag kept => ?_, fun held flag unkept => ⟨fun pass ⟨q, hq, ordered⟩ => ?_,
    fun pass unordered turn shown reached at_ => ?_, fun stop turn => ?_⟩⟩
  · have runs := homeEvent_runs found home data plain
    have going := State.Syncs.going_home home
    have next (unkept : ¬busy) : exec (s.homeEvent r) s = .next (s.checkStep (s.markArrived r) r) := by
      rw [runs, h.homeReady_free home (Bool.eq_false_iff.2 (mt busyIff.1 unkept)) turn, h.homeStep_check home]
      rfl
    refine ⟨fun kept => ?_, fun unkept pass at_ => ⟨_, next unkept, ends ?_⟩, fun unkept stop => ⟨_, next unkept, fails ?_⟩⟩
    · refine runs.trans ?_
      rw [h.homeReady_busy home (busyIff.2 kept)]
      rfl
    · exact h.checkStep_synced going (.markArrived s r) rfl (mt trapsIff.1 pass) turn (once at_)
    · exact h.checkStep_refused going (.markArrived s r) rfl (trapsIff.2 stop).1 (trapsIff.2 stop).2
  · have arrives := h.flag_arrives home flag
    refine ⟨fun room => ⟨_, arrives.trans (by rw [if_neg (Nat.not_le.2 room)]), rfl, ?_⟩, fun full => arrives.trans (by rw [if_pos full])⟩
    obtain ⟨p, hp, same⟩ := (State.OrdersAs.markArrived s r).here h.here
    exact ⟨_, setReq_mem_self hp same, rfl⟩
  all_goals have runs := h.flag_runs held flag
  all_goals have going := State.Syncs.going_held held
  · rw [runs, busyIff.2 kept]
    rfl
  · have waits : s.flagTurn r = false := by
      have late : s.flagReady r = false := Bool.eq_false_iff.2 fun ready => ((flagReady_iff s r).1 ready).2 q hq ordered
      simp [State.flagTurn, late]
    have free : (s.trapsScope r && s.scopeFails r) = false := Bool.eq_false_iff.2 fun stop => pass (trapsIff.1 (Bool.and_eq_true .. ▸ stop))
    rw [runs, waits, free, Bool.or_false, Bool.and_false]
    rfl
  · have ready : s.flagReady r = true := (flagReady_iff s r).2 ⟨reached, unordered⟩
    have piece := readyPieces_ne_nil turn (alone_of_mates (h.mates going)) lanes fresh
    have flagTurn : s.flagTurn r = true := by simp [State.flagTurn, ready, shown, piece]
    refine ⟨s.checkStep s r, ?_, ends (h.checkStep_synced going (.refl s) rfl (mt trapsIff.1 pass) turn (once at_))⟩
    rw [runs, Bool.eq_false_iff.2 (mt busyIff.1 unkept), h.syncReady (.inr held) turn, flagTurn, ite_self, Bool.or_true]
    rfl
  · obtain ⟨checks, bad⟩ := trapsIff.2 stop
    refine ⟨s.checkStep s r, ?_, fails (h.checkStep_refused going (.refl s) rfl checks bad)⟩
    rw [runs, Bool.eq_false_iff.2 (mt busyIff.1 unkept), h.syncReady (.inr held) turn, checks, bad]
    rfl

end Sys2Proof.Machine
end

section

/-!
# What the checks of a memory instruction leave (R32, R40, R304)
-/

namespace Sys2Proof.Machine

/-! ### An entry of a table is aligned -/

theorem canon_aligned (s : State) {g : Nat} (aligned : g % 16 = 0) : s.canon g % 16 = 0 := by
  by_cases h : inStriped (g % pkgSpan)
  · rw [canon_striped s h]
    simp only [State.unstripe]
    unfold inStriped stripedBase pkgSpan at *
    omega
  · rwa [canon_elsewhere s h]

theorem own_aligned (s : State) {pa : Nat} (aligned : pa % 16 = 0) : s.own pa % 16 = 0 := by
  unfold State.own pkgSpan; omega

theorem walkFrom_succ (s : State) (cached : Nat → Option Nat) (va fuel level base : Nat) : s.walkFrom cached va (fuel + 1) level base =
    let at_ := s.own (base + vaIndex va level * 16)
    let e := (cached level).getD (s.memRead at_ 16)
    if !pteV e then .absent level
    else if pteLeaf e then
      if level = 4 then .leaf e level at_
      else if level = 3 && pteFrame e % 2 ^ 14 == 0 then .leaf e level at_
      else .malformed
    else if level = 4 then .malformed
    else s.walkFrom cached va fuel (level + 1) (pteFrame e * 2 ^ 18) := by
  rw [State.walkFrom]
  cases cached level <;> rfl

/-- The entry that a walk ends at is one of a table, whose entries are 16 bytes. -/
theorem walkFrom_aligned {s : State} {cached : Nat → Option Nat} {va e at_ : Nat} : ∀ {fuel level base l : Nat}, base % 16 = 0 →
    s.walkFrom cached va fuel level base = .leaf e l at_ → at_ % 16 = 0
  | 0, _, _, _, _, found => by cases found
  | fuel + 1, level, base, l, aligned, found => by
    have here : s.own (base + vaIndex va level * 16) % 16 = 0 := own_aligned s (by omega)
    rw [walkFrom_succ] at found
    dsimp only at found
    split at found
    · cases found
    split at found
    · split at found
      · cases found; exact here
      split at found
      · cases found; exact here
      · cases found
    split at found
    · cases found
    · exact walkFrom_aligned (by omega) found

/-! ### Marking an entry -/

theorem read_add (m : Memory) (a j n : Nat) : m.read a (j + n) = m.read (a + j) n * 256 ^ j + m.read a j := by
  induction j generalizing a with
  | zero => simp [Memory.read]
  | succ j ih =>
    rw [Nat.add_right_comm, read_succ, ih, read_succ m a j, Nat.add_right_comm a 1 j, Nat.add_assoc a j 1, pow_succ]
    ring

theorem read_lt (m : Memory) (a n : Nat) : m.read a n < 256 ^ n := by
  induction n generalizing a with
  | zero => exact Nat.one_pos
  | succ n ih =>
    rw [read_succ, pow_succ]
    have := ih (a + 1)
    have := (m.byte a).isLt
    omega

/-- A's bit is one of the entry's lowest byte. -/
theorem setBits_accessed (e : Nat) : setBits e 5 5 1 / 2 ^ 64 = e / 2 ^ 64 := by
  unfold setBits bits; omega

theorem memWrite_bytes (s : State) (g n v : Nat) : (s.memWrite g n v).mem = s.mem.write (s.canon g) n v := rfl

/-- A mark leaves the 8 bytes at the upper half of every aligned 16 as they are. -/
theorem markEntry_read {s : State} {at_ a : Nat} (entry : at_ % 16 = 0) (half : a % 16 = 8) :
    (s.markEntry at_ false).mem.read a 8 = s.mem.read a 8 := by
  have aligned := canon_aligned s entry
  unfold State.markEntry
  dsimp only
  rw [if_neg Bool.false_ne_true]
  split
  · rfl
  · rw [memWrite_bytes]
    by_cases same : a = s.canon at_ + 8
    · have upper (m : Memory) : m.read a 8 = m.read (s.canon at_) 16 / 2 ^ 64 := by
        have split_ : m.read (s.canon at_) 16 = _ := read_add m (s.canon at_) 8 8
        have low := read_lt m (s.canon at_) 8
        rw [same]
        omega
      rw [upper, read_write_same, upper s.mem]
      show setBits (s.mem.read (s.canon at_) 16) 5 5 1 % 256 ^ 16 / 2 ^ 64 = _
      have fits := read_lt s.mem (s.canon at_) 16
      have marked := setBits_accessed (s.mem.read (s.canon at_) 16)
      omega
    · exact read_write_apart _ (by omega) _

theorem trapVec_congr {s t : State} (canon : t.canon = s.canon) (mem : t.mem = s.mem) (pkg : t.pkg = s.pkg) (ctxs : t.ctxs = s.ctxs) (ctx : Nat) :
    t.trapVec ctx = s.trapVec ctx := by
  rw [State.trapVec, State.trapVec, State.memRead, State.memRead, State.own, State.own, State.ctx, State.ctx, canon, mem, pkg, ctxs]

theorem trapVec_fillTlb {s : State} {ctx at_ : Nat} (root : (s.ctx ctx).root % 4096 = 0) (entry : at_ % 16 = 0) (core c va e level : Nat) :
    (s.fillTlb core c va e level at_ false none).trapVec ctx = s.trapVec ctx := by
  have half : s.canon (s.own ((s.ctx ctx).root + 0x418)) % 16 = 8 := by
    rw [own_page s root, canon_page s (by omega)]
    have := canon_aligned s (g := 4096 * ((s.pkg * pkgSpan + (s.ctx ctx).root) / 4096)) (by omega)
    omega
  have read := markEntry_read (s := s) entry half
  have frame := sameButTables_markEntry s at_ false
  have there : (s.fillTlb core c va e level at_ false none).trapVec ctx = (s.markEntry at_ false).trapVec ctx := by
    unfold State.fillTlb
    generalize s.markEntry at_ false = u
    refine trapVec_congr ?_ ?_ ?_ ?_ ctx
    all_goals rfl
  have canon : (s.markEntry at_ false).canon = s.canon := by rw [frame]; rfl
  have own : (s.markEntry at_ false).own = s.own := by rw [frame]; rfl
  have ctxs : (s.markEntry at_ false).ctx ctx = s.ctx ctx := by rw [frame]; rfl
  rw [there, State.trapVec, State.trapVec, State.memRead, State.memRead, canon, own, ctxs, read]

/-! ### The translations of the lanes that trap -/

/-- What the translations of a trapping instruction's lanes leave: memory with its views, the TLBs, and the handler's address. -/
structure State.Translates (s t : State) : Prop where
  frame : s.SameButTables t
  trapVec : t.trapVec (s.ctxNo s.curWg) = s.trapVec (s.ctxNo s.curWg)

namespace State.Translates
variable {s t : State} (h : s.Translates t)
include h

theorem canTrap (may : canTrap s) : Machine.canTrap t := by
  obtain ⟨mode, aligned, handled, none⟩ := may
  have ctxNo : t.ctxNo t.curWg = s.ctxNo s.curWg := by rw [h.frame]; rfl
  refine ⟨?_, ?_, ?_, ?_⟩
  · have curW : t.curW = s.curW := by rw [h.frame]; rfl
    rw [curW]; exact mode
  · rw [ctxNo, h.frame]; exact aligned
  · rw [ctxNo, h.trapVec]; exact handled
  · rw [h.frame]; exact none

end State.Translates

theorem cacheOnly_translates {s : State} (root : (s.ctx (s.ctxNo s.curWg)).root % 4096 = 0) (i : Instr) (ls : List Nat) :
    s.Translates (s.cacheOnly i ls) := by
  unfold State.cacheOnly
  dsimp only
  split
  · exact ⟨.refl s, rfl⟩
  · refine List.foldlRecOn (motive := fun t => s.Translates t) _ _ ⟨.refl s, rfl⟩ fun t ht l _ => ?_
    have ctxs : t.ctx (s.ctxNo s.curWg) = s.ctx (s.ctxNo s.curWg) := by rw [ht.frame]; rfl
    have ctxNo : t.ctxNo t.curWg = s.ctxNo s.curWg := by rw [ht.frame]; rfl
    rw [ctxNo]
    split
    · next e level at_ found =>
      split
      · exact ht
      · next miss =>
        simp only [Bool.or_eq_true, not_or, Bool.not_eq_true, Option.isSome_eq_false_iff, Option.isNone_iff_eq_none] at miss
        rw [State.lookup, miss.2] at found
        have entry : at_ % 16 = 0 := walkFrom_aligned (by rw [ctxs]; omega) found
        exact ⟨ht.frame.trans (sameButTables_fillTlb ..), (trapVec_fillTlb (by rw [ctxs]; exact root) entry ..).trans ht.trapVec⟩
    · exact ht

/-- Where every lane is misaligned no translation is kept. -/
theorem cacheOnly_misaligned (s : State) (i : Instr) {ls : List Nat} (skew : ∀ l ∈ ls, s.curW.address i.fields (memOf i).space l % (memOf i).size ≠ 0) :
    s.cacheOnly i ls = s := by
  unfold State.cacheOnly
  dsimp only
  split
  · rfl
  · refine List.foldlRecOn (motive := fun t => t = s) _ _ rfl fun t ht l hl => ?_
    subst ht
    split
    · exact if_pos (by simp [skew l hl])
    · rfl

theorem State.Audits.wgs {s t : State} (h : s.Audits t) : t.wgs = s.wgs := by rw [h.frame]

theorem State.Audits.reqs {s t : State} (h : s.Audits t) : t.reqs = s.reqs := by rw [h.frame]

theorem audits_auditTr (s : State) (t : Tr) (ctx va : Nat) : s.Audits (s.auditTr t ctx va) := by
  unfold State.auditTr
  split
  · exact audits_auditEvent ..
  · exact .refl s

theorem audits_auditRefusals (s : State) (k : Nat) (m : MemInfo) (fails : List (Nat × Nat × Failure)) : s.Audits (s.auditRefusals k m fails) := by
  unfold State.auditRefusals
  refine List.foldlRecOn (motive := fun t => s.Audits t) _ _ (.refl s) fun t ht x _ => ht.trans ?_
  split
  · exact audits_auditEvent ..
  · exact audits_auditTr ..

/-- No refusal of the connection matrix, no entry. -/
theorem auditRefusals_none (s : State) (k : Nat) (m : MemInfo) {fails : List (Nat × Nat × Failure)} (other : ∀ x ∈ fails, x.2.2.detail ≠ 6) :
    s.auditRefusals k m fails = s := by
  unfold State.auditRefusals
  rw [List.filter_eq_nil_iff.2 fun x hx => by simpa using other x hx]
  rfl

end Sys2Proof.Machine
end

section

/-!
# The checks of a memory instruction at its issue (R304)
-/

namespace Sys2Proof.Machine

/-! ### What the checks read -/

/-- The warp reads its operands and addresses as another does. -/
def Warp.ReadsAs (w v : Warp) : Prop :=
  v = { w with lanes := v.lanes, perf := v.perf, lastIssue := v.lastIssue, swapped := v.swapped, ldc := v.ldc, stc := v.stc }

theorem readsAs_charged (w : Warp) (s : State) (f : Fields) : w.ReadsAs (w.charged s f) := by
  unfold Warp.ReadsAs
  rw [charged_eq]

namespace Warp.ReadsAs
variable {w v : Warp} (h : w.ReadsAs v)
include h

theorem handler : v.handler = w.handler := by rw [h]
theorem segnum (f : Fields) : v.segnum f = w.segnum f := by rw [h]; rfl
theorem reg (r l : Nat) : v.reg r l = w.reg r l := by rw [h]; rfl
theorem pairC (f : Fields) (l : Nat) : v.pairC f l = w.pairC f l := by rw [h]; rfl
theorem address (f : Fields) (space l : Nat) : v.address f space l = w.address f space l := by rw [h]; rfl
theorem operandsOf (i : Instr) (l : Nat) : operandsOf i v l = operandsOf i w l := by rw [h]; cases i <;> rfl

end Warp.ReadsAs

theorem slotsFor_congr {s t : State} (reads : s.curW.ReadsAs t.curW) (i : Instr) (ls : List Nat) (withEsc : Bool) :
    t.slotsFor i ls withEsc = s.slotsFor i ls withEsc := by
  simp only [State.slotsFor, reads.operandsOf, reads.address, reads.pairC, reads.reg]

section
variable (s : State) (f : Fields)

theorem readsAs_charge : s.curW.ReadsAs (s.charge f).curW := by rw [curW_charge]; exact readsAs_charged ..

theorem ctxPart_charge : (s.charge f).ctxPart = s.ctxPart := by rw [charge_eq]; exact ctxPart_updCur ..

theorem canon_charge : (s.charge f).canon = s.canon := by rw [charge_eq]; exact canon_updCur ..

theorem quad_charge : (s.charge f).quad = s.quad := rfl
theorem ctx_charge : (s.charge f).ctx = s.ctx := rfl
theorem ctxNo_charge : (s.charge f).ctxNo = s.ctxNo := rfl
theorem packet_charge : (s.charge f).packet = s.packet := rfl
theorem coreAt_charge : (s.charge f).coreAt = s.coreAt := rfl
theorem placed_charge : (s.charge f).placed = s.placed := rfl
theorem connected_charge : (s.charge f).connected = s.connected := rfl
theorem landsOn_charge : (s.charge f).landsOn = s.landsOn := rfl
theorem homeDie_charge : (s.charge f).homeDie = s.homeDie := rfl

theorem walksAs_charge : s.WalksAs (s.charge f) := ⟨fun _ => rfl, rfl, rfl⟩

theorem walkFrom_charge : (s.charge f).walkFrom = s.walkFrom := by
  funext cached va fuel level base
  exact walkFrom_congr (walksAs_charge s f) (charge_mem s f) cached va fuel level base

theorem lookup_charge : (s.charge f).lookup = s.lookup := by
  unfold State.lookup State.tlbHit State.tlbEntry State.walkVia
  rw [walkFrom_charge, ctxPart_charge, quad_charge, ctx_charge, coreAt_charge]

theorem leafChecks_charge : (s.charge f).leafChecks = s.leafChecks := by
  unfold State.leafChecks
  rw [ctxPart_charge, placed_charge, charge_pkg]

theorem portOf_charge : (s.charge f).portOf = s.portOf := by
  unfold State.portOf
  rw [canon_charge]

theorem routeChecks_charge : (s.charge f).routeChecks = s.routeChecks := by
  unfold State.routeChecks
  rw [portOf_charge, charge_pkg, charge_routes, connected_charge]

theorem homeChecks_charge : (s.charge f).homeChecks = s.homeChecks := by
  unfold State.homeChecks
  rw [portOf_charge, placed_charge, charge_pkg, connected_charge, landsOn_charge, homeDie_charge]

theorem probe_charge : (s.charge f).probe = s.probe := by
  unfold State.probe
  rw [lookup_charge, leafChecks_charge, routeChecks_charge]

theorem probeHome_charge : (s.charge f).probeHome = s.probeHome := by
  unfold State.probeHome State.homeTr
  rw [lookup_charge, probe_charge, homeChecks_charge]

theorem wg_core_charge (k : Nat) : ((s.charge f).wg k).core = (s.wg k).core := by
  rw [charge_eq, State.updCur, State.updWarp, wg_updWg]
  split
  · next same => rw [same]
  · rfl

theorem windowCheck_charge : (s.charge f).windowCheck = s.windowCheck := by
  funext k addr size
  unfold State.windowCheck State.windowBounds
  dsimp only
  rw [wg_status_charge, wg_core_charge, wg_core_charge, packet_charge, connected_charge, charge_pkg]

theorem laneCheck_charge : (s.charge f).laneCheck = s.laneCheck := by
  funext k m addr path
  unfold State.laneCheck
  rw [wg_core_charge, windowCheck_charge, probe_charge, probeHome_charge, packet_charge, ctxNo_charge]

end

/-! ### The paths chosen at issue -/

/-- The path of one line's request. -/
def State.pathStep (s : State) (i : Instr) (a : List (Nat × Nat) × State) (xs : List Slot) : List (Nat × Nat) × State :=
  match xs, s.probe s.curG.core (s.ctxNo s.curWg) ((xs.map (·.addr)).headD 0) (memOf i).acc (memOf i).atomic with
  | x :: _, .ok g _ =>
    if g / pkgSpan = s.pkg then a
    else
      let y := a.2.takePath (g / pkgSpan)
      (a.1 ++ [(x.addr / 128, y.1)], y.2)
  | _, _ => a

theorem linePaths_eq (s : State) (i : Instr) (ls : List Nat) : s.linePaths i ls =
    if (memOf i).space = 1 || (memOf i).space = 3 then ([], s) else (groupLines (s.slotsFor i ls false)).foldl (s.pathStep i) ([], s) := rfl

theorem takePath_frame (s : State) (pkg : Nat) : (s.takePath pkg).2 = { s with paths := (s.takePath pkg).2.paths } := by
  unfold State.takePath
  cases s.paths <;> rfl

theorem takePath_charge (s : State) (f : Fields) (paths : List Nat) (pkg : Nat) :
    ({ s.charge f with paths } : State).takePath pkg =
      ((({ s with paths } : State).takePath pkg).1, { s.charge f with paths := (({ s with paths } : State).takePath pkg).2.paths }) := by
  unfold State.takePath
  cases paths <;> rfl

theorem pathStep_charge (s : State) (f : Fields) : (s.charge f).pathStep = s.pathStep := by
  funext i a xs
  unfold State.pathStep
  rw [core_charge, probe_charge]
  rfl

theorem linePaths_frame (s : State) (i : Instr) (ls : List Nat) : (s.linePaths i ls).2 = { s with paths := (s.linePaths i ls).2.paths } := by
  rw [linePaths_eq]
  split
  · rfl
  · refine List.foldlRecOn (motive := fun a : List (Nat × Nat) × State => a.2 = { s with paths := a.2.paths }) _ _ rfl fun a ha xs _ => ?_
    unfold State.pathStep
    split
    · split
      · exact ha
      · exact (takePath_frame ..).trans (by rw [ha])
    · exact ha

theorem linePaths_charge (s : State) (f : Fields) (i : Instr) (ls : List Nat) :
    (s.charge f).linePaths i ls = ((s.linePaths i ls).1, { s.charge f with paths := (s.linePaths i ls).2.paths }) := by
  rw [linePaths_eq, linePaths_eq, slotsFor_congr (readsAs_charge s f), pathStep_charge]
  split
  · rfl
  · generalize groupLines (s.slotsFor i ls false) = lines
    have chosen (lines : List (List Slot)) (a : List (Nat × Nat)) (paths : List Nat) :
        lines.foldl (s.pathStep i) (a, { s.charge f with paths }) =
          ((lines.foldl (s.pathStep i) (a, { s with paths })).1,
            { s.charge f with paths := (lines.foldl (s.pathStep i) (a, { s with paths })).2.paths }) := by
      induction lines generalizing a paths with
      | nil => rfl
      | cons xs lines ih =>
        rw [List.foldl_cons, List.foldl_cons]
        unfold State.pathStep
        split
        · split
          · exact ih a paths
          · have framed := takePath_frame ({ s with paths } : State)
            dsimp only
            rw [takePath_charge, framed]
            exact ih ..
        · exact ih a paths
    exact chosen lines [] s.paths

/-! ### The lanes that fail -/

theorem windowCheck_fails {s : State} {k addr size : Nat} {x : Failure} (fails : s.windowCheck k addr size = some x) : x.step = 2 ∧ x.cause = 7 := by
  unfold State.windowCheck at fails
  dsimp only at fails
  cases bounds : s.windowBounds k addr size with
  | some y =>
    rw [bounds] at fails
    cases fails
    unfold State.windowBounds at bounds
    dsimp only at bounds
    split at bounds
    · cases bounds; exact ⟨rfl, rfl⟩
    split at bounds
    · cases bounds; exact ⟨rfl, rfl⟩
    · cases bounds
  | none =>
    rw [bounds] at fails
    replace fails : (if _ then some _ else none) = some x := fails
    split at fails
    · cases fails; exact ⟨rfl, rfl⟩
    · cases fails

theorem laneCheck_misaligned {s : State} {m : MemInfo} {addr : Nat} (skew : addr % m.size ≠ 0) (k : Nat) (path : Option Nat) :
    s.laneCheck k m addr path = some ⟨1, 5, 0⟩ := if_pos (by simpa using skew)

/-- A lane whose address is aligned fails at the second step, with PROT. -/
theorem laneCheck_fails {s : State} {k : Nat} {m : MemInfo} {addr : Nat} {path : Option Nat} {x : Failure}
    (fails : s.laneCheck k m addr path = some x) (aligned : addr % m.size = 0) : x.step = 2 ∧ x.cause = 7 := by
  unfold State.laneCheck at fails
  rw [if_neg (by simpa using aligned)] at fails
  split at fails
  · split at fails
    · cases fails; exact ⟨rfl, rfl⟩
    · cases fails
  split at fails
  · exact windowCheck_fails fails
  · split at fails
    · cases fails; exact ⟨rfl, rfl⟩
    · cases fails

/-- The data base of a lane of an `ldi` is misaligned (log 45). -/
def State.skewed (s : State) (i : Instr) (l : Nat) : Bool :=
  match i with
  | .ldi _ => (s.curW.pairC i.fields l).toNat % (if i.fields.mbit 2 then 8 else 4) != 0
  | _ => false

/-- Why a lane's access fails at issue, if it does. -/
def State.laneFails (s : State) (i : Instr) (paths : List (Nat × Nat)) (l : Nat) : Option Failure :=
  if s.skewed i l then some ⟨1, 5, 0⟩
  else s.laneCheck s.curWg (memOf i) (s.curW.address i.fields (memOf i).space l)
    (some ((pathAt paths (s.curW.address i.fields (memOf i).space l)).getD 4))

theorem memFailures_eq (s : State) (i : Instr) (ls : List Nat) (paths : List (Nat × Nat)) : s.memFailures i ls paths =
    ls.filterMap fun l => (s.laneFails i paths l).map fun x => (l, s.curW.address i.fields (memOf i).space l, x) := by
  unfold State.memFailures
  refine List.filterMap_congr fun l _ => ?_
  show (if s.skewed i l then _ else _) = _
  unfold State.laneFails
  split <;> rfl

theorem memFailures_charge (s : State) (f : Fields) (i : Instr) (ls : List Nat) (paths : List (Nat × Nat)) :
    (s.charge f).memFailures i ls paths = s.memFailures i ls paths := by
  have reads := readsAs_charge s f
  rw [memFailures_eq, memFailures_eq]
  refine List.filterMap_congr fun l _ => ?_
  have skew : (s.charge f).skewed i l = s.skewed i l := by simp only [State.skewed, reads.pairC]
  simp only [State.laneFails, skew, laneCheck_charge, reads.address]
  rfl

section
variable (s : State) (i : Instr) (ls : List Nat) (paths : List (Nat × Nat))

/-- A failure of a lane is the one that its checks give. -/
theorem mem_memFailures {p : Nat × Nat × Failure} : p ∈ s.memFailures i ls paths ↔
    p.1 ∈ ls ∧ p.2.1 = s.curW.address i.fields (memOf i).space p.1 ∧ s.laneFails i paths p.1 = some p.2.2 := by
  rw [memFailures_eq, List.mem_filterMap]
  constructor
  · rintro ⟨l, hl, given⟩
    obtain ⟨x, fails, rfl⟩ := Option.map_eq_some_iff.1 given
    exact ⟨hl, rfl, fails⟩
  · obtain ⟨l, va, x⟩ := p
    rintro ⟨hl, at_, fails⟩
    replace at_ : va = s.curW.address i.fields (memOf i).space l := at_
    replace fails : s.laneFails i paths l = some x := fails
    subst at_
    exact ⟨l, hl, by rw [fails]; rfl⟩

theorem memFailures_lanes : (s.memFailures i ls paths).map Prod.fst = ls.filter fun l => (s.laneFails i paths l).isSome := by
  rw [memFailures_eq, List.map_filterMap]
  induction ls with
  | nil => rfl
  | cons l ls ih =>
    rw [List.filterMap_cons, List.filter_cons, ih]
    cases s.laneFails i paths l <;> rfl

end

/-! ### The trap of the lanes that fail -/

theorem failTrap_of {pc : DWord} {fails : List (Nat × Nat × Failure)} {x : Nat × Nat × Failure}
    (low : (fails.find? fun x => fails.all fun y => x.2.2.step ≤ y.2.2.step) = some x) : failTrap pc fails = some
      { cause := x.2.2.cause, detail := x.2.2.detail, pc, va := BitVec.ofNat 80 (fails.headD x).2.1, mask := maskOf (fails.map Prod.fst) } := by
  cases fails with
  | nil => cases low
  | cons first rest =>
    unfold failTrap
    rw [low]
    rfl

/-- A failure at the first step decides the trap. -/
theorem failTrap_first {pc : DWord} {fails : List (Nat × Nat × Failure)} {p d : Nat × Nat × Failure} {cause detail : Nat} (here : p ∈ fails)
    (first : p.2.2.step = 1) (steps : ∀ x ∈ fails, 1 ≤ x.2.2.step) (same : ∀ x ∈ fails, x.2.2.step = 1 → x.2.2.cause = cause ∧ x.2.2.detail = detail) :
    failTrap pc fails = some
      { cause, detail, pc, va := BitVec.ofNat 80 (fails.headD d).2.1, mask := maskOf (fails.map Prod.fst) } := by
  have least : (fails.find? fun x => fails.all fun y => x.2.2.step ≤ y.2.2.step).isSome = true :=
    List.find?_isSome.2 ⟨p, here, List.all_eq_true.2 fun y hy => decide_eq_true (first ▸ steps y hy)⟩
  obtain ⟨x, low⟩ := Option.isSome_iff_exists.1 least
  have there := List.mem_of_find?_eq_some low
  have all : (fails.all fun y => decide (x.2.2.step ≤ y.2.2.step)) = true := List.find?_some (p := fun x : Nat × Nat × Failure => fails.all fun y => x.2.2.step ≤ y.2.2.step) low
  have below : x.2.2.step ≤ p.2.2.step := of_decide_eq_true (List.all_eq_true.1 all p here)
  obtain ⟨rfl, rfl⟩ := same x there (Nat.le_antisymm (first ▸ below) (steps x there))
  rw [failTrap_of low]
  cases fails with
  | nil => cases here
  | cons => rfl

/-- Where all lanes fail at the same step, the lowest decides the trap. -/
theorem failTrap_lowest {pc : DWord} {x : Nat × Nat × Failure} {rest : List (Nat × Nat × Failure)} {n : Nat}
    (steps : ∀ y ∈ x :: rest, y.2.2.step = n) : failTrap pc (x :: rest) = some
      { cause := x.2.2.cause, detail := x.2.2.detail, pc, va := BitVec.ofNat 80 x.2.1, mask := maskOf ((x :: rest).map Prod.fst) } := by
  refine failTrap_of (x := x) ?_
  rw [List.find?_cons_of_pos]
  refine List.all_eq_true.2 fun y hy => ?_
  rw [steps x (List.mem_cons_self ..), steps y hy]
  exact decide_eq_true (le_refl n)

theorem failTrap_none (pc : DWord) : failTrap pc [] = none := rfl

end Sys2Proof.Machine
end

section

/-!
# The requests that a memory instruction sends (R95, R101, R114)
-/

namespace Sys2Proof.Machine

/-! ### Lines -/

theorem mem_dedup {l : List Nat} {x : Nat} : x ∈ dedup l ↔ x ∈ l := by
  have gathers (l acc : List Nat) : x ∈ l.foldl (fun acc x => if acc.contains x then acc else acc ++ [x]) acc ↔ x ∈ acc ∨ x ∈ l := by
    induction l generalizing acc with
    | nil => simp
    | cons y l ih =>
      rw [List.foldl_cons, ih]
      split
      · next known =>
        have : y ∈ acc := List.contains_iff_mem.1 known
        constructor
        · rintro (h | h)
          · exact .inl h
          · exact .inr (List.mem_cons_of_mem _ h)
        · rintro (h | h)
          · exact .inl h
          · rcases List.mem_cons.1 h with rfl | h
            · exact .inl this
            · exact .inr h
      · simp [or_assoc]
  exact (gathers l []).trans (by simp)

theorem dedup_nodup (l : List Nat) : (dedup l).Nodup := by
  refine List.foldlRecOn (motive := fun acc : List Nat => acc.Nodup) _ _ List.nodup_nil fun acc distinct x _ => ?_
  split
  · exact distinct
  · next new =>
    have new : x ∉ acc := fun h => new (List.contains_iff_mem.2 h)
    exact List.nodup_append.2 ⟨distinct, by simp, fun y hy z hz => by rintro rfl; exact new (List.mem_singleton.1 hz ▸ hy)⟩

/-- The lines that some lane slots address. -/
def linesOf (xs : List Slot) : List Nat := dedup (xs.map fun x => x.addr / 128)

theorem groupLines_length (xs : List Slot) : (groupLines xs).length = (linesOf xs).length := List.length_map _

theorem groupLines_getD {xs : List Slot} {n : Nat} (h : n < (linesOf xs).length) :
    (groupLines xs).getD n [] = xs.filter fun x => x.addr / 128 == (linesOf xs)[n] := by
  have h' : n < (dedup (xs.map fun x => x.addr / 128)).length := h
  simp [groupLines, linesOf, h']

theorem mem_line {xs : List Slot} {n : Nat} (h : n < (linesOf xs).length) {x : Slot} :
    x ∈ (groupLines xs).getD n [] ↔ x ∈ xs ∧ x.addr / 128 = (linesOf xs)[n] := by
  rw [groupLines_getD h]; simp

theorem line_ne_nil {xs : List Slot} {n : Nat} (h : n < (linesOf xs).length) : (groupLines xs).getD n [] ≠ [] := by
  have here : (linesOf xs)[n] ∈ linesOf xs := List.getElem_mem h
  obtain ⟨x, hx, line⟩ := List.mem_map.1 (mem_dedup.1 here)
  exact List.ne_nil_of_mem ((mem_line h).2 ⟨hx, line⟩)

theorem exists_line {xs : List Slot} {x : Slot} (hx : x ∈ xs) : ∃ n, ∃ _ : n < (linesOf xs).length, x ∈ (groupLines xs).getD n [] := by
  have here : x.addr / 128 ∈ linesOf xs := mem_dedup.2 (List.mem_map_of_mem hx)
  obtain ⟨n, h, line⟩ := List.getElem_of_mem here
  exact ⟨n, h, (mem_line h).2 ⟨hx, line.symm⟩⟩

/-! ### One request for each line -/

/-- The request of the lanes that address one line, the `n`th of its instruction. -/
def State.lineRequest (s : State) (i : Instr) (phase : Phase) (no : Bool) (paths : List (Nat × Nat)) (n : Nat) (xs : List Slot) : Req :=
  let path := pathAt paths ((xs.map (·.addr)).headD 0)
  let r : Req :=
    { id := s.tag + n, group := s.tag, wg := s.curWg, warp := s.curWarp, core := s.curG.core, insn := i, pc := s.curPc,
      space := (memOf i).space, seg := s.curW.segnum i.fields, slots := xs, phase, escBase := i.fields.escBase
      escCount := i.fields.escCount, noEsc := no, handler := s.curW.handler, path := path.getD 0, routed := path.isSome }
  { r with hampers := r.hamperSizes.map fun _ => if phase == .window && s.targetWaits r then .base else .packet }

/-- The requests of an instruction. -/
def State.lineRequests (s : State) (i : Instr) (ls : List Nat) (phase : Phase) (no : Bool) (paths : List (Nat × Nat)) : List Req :=
  (List.range (groupLines (s.slotsFor i ls (!no))).length).map fun n =>
    s.lineRequest i phase no paths n ((groupLines (s.slotsFor i ls (!no))).getD n [])

theorem lineRequests_length (s : State) (i : Instr) (ls : List Nat) (phase : Phase) (no : Bool) (paths : List (Nat × Nat)) :
    (s.lineRequests i ls phase no paths).length = (groupLines (s.slotsFor i ls (!no))).length := by
  simp [State.lineRequests]

/-- A state with requests added, and the paths that are left. -/
def State.withSent (s : State) (new : List Req) (paths : List Nat) : State :=
  { s with reqs := s.reqs ++ new, tag := s.tag + new.length, paths }

theorem sendReqs_eq (s : State) (i : Instr) (ls : List Nat) (phase : Phase) (paths : List (Nat × Nat)) :
    s.sendReqs i ls phase false paths =
      (if s.noRoom i ls then (s.withSent (s.lineRequests i ls phase (s.noRoom i ls) paths) s.paths).count s.curWg s.curWarp 3 1
        else s.withSent (s.lineRequests i ls phase (s.noRoom i ls) paths) s.paths).updCur fun w => w.bump (counterOf i) true := by
  unfold State.withSent
  rw [lineRequests_length]
  rfl

theorem lineRequest_charge (s : State) (f : Fields) (i : Instr) (phase : Phase) (no : Bool) (paths : List (Nat × Nat)) (n : Nat) (xs : List Slot) :
    (s.charge f).lineRequest i phase no paths n xs = s.lineRequest i phase no paths n xs := by
  have reads := readsAs_charge s f
  unfold State.lineRequest State.targetWaits
  dsimp only
  rw [core_charge, curPc_charge, reads.segnum, reads.handler, wg_status_charge]
  rfl

theorem lineRequests_charge (s : State) (f : Fields) (i : Instr) (ls : List Nat) (phase : Phase) (no : Bool) (paths : List (Nat × Nat)) :
    (s.charge f).lineRequests i ls phase no paths = s.lineRequests i ls phase no paths := by
  unfold State.lineRequests
  rw [slotsFor_congr (readsAs_charge s f)]
  exact List.map_congr_left fun n _ => lineRequest_charge ..

/-! ### What is sent -/

/-- A slot of an instruction is a lane's. -/
theorem mem_slotsFor {s : State} {i : Instr} {ls : List Nat} {withEsc : Bool} {x : Slot} (hx : x ∈ s.slotsFor i ls withEsc) :
    x.lane ∈ ls ∧ x.addr = s.curW.address i.fields (memOf i).space x.lane ∧ (x.x, x.y) = operandsOf i s.curW x.lane ∧ x.did = [] ∧
      ∀ f, i = .ldi f → x.addr2 = (s.curW.pairC f x.lane).toNat := by
  obtain ⟨l, hl, rfl⟩ := List.mem_map.1 hx
  exact ⟨hl, rfl, rfl, rfl, fun f hf => by subst hf; rfl⟩

theorem slotsFor_lane (s : State) (i : Instr) {ls : List Nat} (withEsc : Bool) {l : Nat} (hl : l ∈ ls) :
    ∃ x ∈ s.slotsFor i ls withEsc, x.lane = l := ⟨_, List.mem_map_of_mem hl, rfl⟩

section
variable (s : State) (i : Instr) (ls : List Nat) (no : Bool)

/-- The requests go to their homes, or to the network interface. -/
def firstPhase (i : Instr) : Phase := if (memOf i).space = 3 then .window else .translate

/-- The requests that an instruction sends, on the paths chosen for its lines. -/
def State.outgoing : List Req := s.lineRequests i ls (firstPhase i) no (s.linePaths i ls).1

theorem mem_outgoing {r : Req} : r ∈ s.outgoing i ls no ↔ ∃ n, ∃ _ : n < (linesOf (s.slotsFor i ls (!no))).length,
    s.lineRequest i (firstPhase i) no (s.linePaths i ls).1 n ((groupLines (s.slotsFor i ls (!no))).getD n []) = r := by
  simp [State.outgoing, State.lineRequests, groupLines_length]

theorem outgoing_line {n m : Nat} (hn : n < (linesOf (s.slotsFor i ls (!no))).length) (hm : m < (linesOf (s.slotsFor i ls (!no))).length) :
    n = m ↔ ∃ x ∈ (groupLines (s.slotsFor i ls (!no))).getD n [], ∃ y ∈ (groupLines (s.slotsFor i ls (!no))).getD m [], x.addr / 128 = y.addr / 128 := by
  constructor
  · rintro rfl
    obtain ⟨x, hx⟩ := List.exists_mem_of_ne_nil _ (line_ne_nil hn)
    exact ⟨x, hx, x, hx, rfl⟩
  · rintro ⟨x, hx, y, hy, same⟩
    have lines : (linesOf (s.slotsFor i ls (!no)))[n] = (linesOf (s.slotsFor i ls (!no)))[m] :=
      ((mem_line hn).1 hx).2.symm.trans (same.trans ((mem_line hm).1 hy).2)
    exact (dedup_nodup _).getElem_inj_iff.1 lines

theorem headD_addr (r : Req) : (r.slots.map (·.addr)).headD 0 = r.va := by
  unfold Req.va
  cases r.slots <;> rfl

theorem firstPhase_window : firstPhase i = .window ↔ (memOf i).space = 3 := by
  unfold firstPhase
  split <;> simp [*]

/-- What is sent is what the obligation asks for. -/
theorem outgoing_sent {u : State} (full : u.noRoom i ls = no) :
    Sent s u i ls (s.curW.address i.fields (memOf i).space) (s.outgoing i ls no) where
  own r hr := by
    obtain ⟨n, hn, rfl⟩ := (mem_outgoing ..).1 hr
    exact ⟨rfl, rfl, rfl, rfl, rfl, rfl, rfl, rfl, rfl⟩
  phase r hr := by
    obtain ⟨n, hn, rfl⟩ := (mem_outgoing ..).1 hr
    rfl
  lanes l hl := by
    obtain ⟨x, hx, rfl⟩ := slotsFor_lane s i (!no) hl
    obtain ⟨n, hn, here⟩ := exists_line hx
    exact ⟨_, (mem_outgoing ..).2 ⟨n, hn, rfl⟩, List.mem_map_of_mem here⟩
  slots r hr := by
    obtain ⟨n, hn, rfl⟩ := (mem_outgoing ..).1 hr
    exact ⟨line_ne_nil hn, fun x hx => mem_slotsFor ((mem_line hn).1 hx).1⟩
  line r hr q hq := by
    obtain ⟨n, hn, rfl⟩ := (mem_outgoing ..).1 hr
    obtain ⟨m, hm, rfl⟩ := (mem_outgoing ..).1 hq
    refine Iff.trans ⟨fun same => ?_, fun same => by subst same; rfl⟩ (outgoing_line s i ls no hn hm)
    have ids : s.tag + n = s.tag + m := congrArg Req.id same
    omega
  room r hr := by
    obtain ⟨n, hn, rfl⟩ := (mem_outgoing ..).1 hr
    exact ⟨full.symm, rfl, rfl⟩
  hampers r hr := by
    obtain ⟨n, hn, rfl⟩ := (mem_outgoing ..).1 hr
    refine List.map_congr_left fun _ _ => if_congr ?_ rfl rfl
    rw [Bool.and_eq_true, beq_iff_eq, firstPhase_window]
    rfl
  ids := by
    simp [State.outgoing, State.lineRequests, State.lineRequest]
  paths r hr := by
    obtain ⟨n, hn, rfl⟩ := (mem_outgoing ..).1 hr
    dsimp only
    rw [← headD_addr]
    exact ⟨rfl, rfl⟩

end

end Sys2Proof.Machine
end

section

/-!
# A memory instruction that passes its checks (R101, R151, R190)
-/

namespace Sys2Proof.Machine

/-! ### The allowance does not depend on which warp the issue has changed -/

theorem keys_insert_congr {α : Type} (k : Nat) (u v : α) (m : SMap α) : (SMap.insert k u m).keys = (SMap.insert k v m).keys := by
  induction m with
  | nil => rfl
  | cons p m ih =>
    obtain ⟨j, x⟩ := p
    simp only [SMap.insert]
    split
    · rfl
    · exact congrArg (j :: ·) ih

theorem keys_upd_congr {α : Type} [DecidableEq α] {d : α} {m : SMap α} {k : Nat} {g h : α → α} (hg : g (SMap.get d m k) ≠ d)
    (hh : h (SMap.get d m k) ≠ d) : (SMap.upd d m k g).keys = (SMap.upd d m k h).keys := by
  rw [SMap.upd, SMap.upd, SMap.set, SMap.set, if_neg hg, if_neg hh]
  exact keys_insert_congr ..

/-- A workgroup with one of its warps changed, as `updWarp` changes it. -/
def Workgroup.withWarp (g : Workgroup) (w : Nat) (F : Warp → Warp) : Workgroup := { g with warps := SMap.upd {} g.warps w F }

section
variable {s : State} {F G : Warp → Warp}

theorem wg_updCur_place (k : Nat) : ((s.updCur F).wg k).core = (s.wg k).core ∧ ((s.updCur F).wg k).status = (s.wg k).status := by
  rw [State.updCur, State.updWarp, wg_updWg]
  split
  · next same => rw [same]; exact ⟨rfl, rfl⟩
  · exact ⟨rfl, rfl⟩

theorem escUsed_updCur (resident : s.curG.status = .resident) : (s.updCur F).escUsed = (s.updCur G).escUsed := by
  have listed (H : Warp → Warp) : (SMap.get {} s.wgs s.curWg).withWarp s.curWarp H ≠ {} := fun empty => by
    have waiting := congrArg Workgroup.status empty
    exact absurd (resident.symm.trans waiting) (by decide)
  have keys : (s.updCur F).wgs.keys = (s.updCur G).wgs.keys :=
    keys_upd_congr (m := s.wgs) (k := s.curWg) (g := (·.withWarp s.curWarp F)) (h := (·.withWarp s.curWarp G)) (listed F) (listed G)
  have on : (s.updCur F).wgsOn = (s.updCur G).wgsOn := by
    funext core
    simp only [State.wgsOn, keys, wg_updCur_place]
  funext core
  rw [State.escUsed, State.escUsed, on]
  rfl

theorem noRoom_updCur (resident : s.curG.status = .resident) (reads : (F s.curW).ReadsAs (G s.curW)) (i : Instr) (ls : List Nat) :
    (s.updCur F).noRoom i ls = (s.updCur G).noRoom i ls := by
  have slots : (s.updCur G).slotsFor i ls false = (s.updCur F).slotsFor i ls false :=
    slotsFor_congr (by rw [curW_updCur, curW_updCur]; exact reads) ..
  have core : (s.updCur G).curG.core = (s.updCur F).curG.core := wg_updCur_place s.curWg |>.1.trans (wg_updCur_place s.curWg).1.symm
  unfold State.noRoom
  rw [slots, core, escUsed_updCur resident]

end

/-! ### The issuing warp -/

/-- The lanes of the instruction wait for their replies. -/
def State.awaits (s : State) (i : Instr) : Bool :=
  (memOf i).scope != 0 && ((memOf i).acq || s.checkMode (s.ctxNo s.curWg) = 0)

theorem awaits_iff (s : State) (i : Instr) : s.awaits i = true ↔
    (memOf i).scope ≠ 0 ∧ ((memOf i).acq = true ∨ s.checkMode (s.ctxNo s.curWg) = 0) := by
  simp [State.awaits]

/-- The warp after its requests are sent: its lanes wait, or go on. -/
def Warp.sentOff (w : Warp) (s : State) (i : Instr) (ls : List Nat) (g : Nat) : Warp :=
  if s.awaits i then w.waiting s ls (.reply g) i.fields.len else w.moved s i.fields.len

theorem sentOff_eq (w : Warp) (s : State) (i : Instr) (ls : List Nat) (g : Nat) : w.sentOff s i ls g = { w with lanes := (w.sentOff s i ls g).lanes } := by
  unfold Warp.sentOff
  split
  · exact waiting_eq ..
  · exact updLanes_other ..

theorem sentOff_lane {s : State} {i : Instr} {ls : List Nat} (hn : ls.Nodup) (g : Nat) (w : Warp) (l : Nat) : (w.sentOff s i ls g).lane l =
    if s.awaits i = true ∧ l ∈ ls then { w.lane l with wait := some ⟨.reply g, i.fields.len⟩ }
    else if l ∈ s.group then { w.lane l with pc := (w.lane l).pc + BitVec.ofNat 64 i.fields.len } else w.lane l := by
  unfold Warp.sentOff
  split
  · next waits => rw [waiting_lane hn]; simp [waits]
  · next goes => rw [Warp.moved, lane_updLanes _ _ _ _ (group_nodup s)]; simp [goes]

/-- A performance counter of the warp rises. -/
def Warp.counted (w : Warp) (n : Nat) : Warp := { w with perf := SMap.upd 0 w.perf n fun v => v + BitVec.ofNat 64 1 }

theorem counted_updLanes (w : Warp) (n : Nat) (ls : List Nat) (g : Nat → Lane → Lane) :
    (w.counted n).updLanes ls g = (w.updLanes ls g).counted n := by
  unfold Warp.updLanes
  induction ls generalizing w with
  | nil => rfl
  | cons l ls ih => exact ih (w.updLane l (g l))

theorem counted_sentOff (w : Warp) (n : Nat) (s : State) (i : Instr) (ls : List Nat) (g : Nat) :
    (w.counted n).sentOff s i ls g = (w.sentOff s i ls g).counted n := by
  unfold Warp.sentOff Warp.waiting Warp.moved
  split
  · rw [counted_updLanes, counted_updLanes]
  · exact counted_updLanes ..

theorem counted_bump (w : Warp) (n : Nat) (c : Counter) (up : Bool) : (w.counted n).bump c up = (w.bump c up).counted n := by
  cases c <;> rfl

theorem bump_eq (w : Warp) (c : Counter) (up : Bool) : w.bump c up = { w with ldc := (w.bump c up).ldc, stc := (w.bump c up).stc } := by
  cases c <;> rfl

/-- The issuing warp when the instruction has been issued and sent its requests. -/
def Warp.issued (w : Warp) (s : State) (i : Instr) (ls : List Nat) : Warp :=
  ((w.charged s i.fields).bump (counterOf i) true).sentOff s i ls s.tag

theorem issued_eq (w : Warp) (s : State) (i : Instr) (ls : List Nat) : w.issued s i ls =
    { w.bump (counterOf i) true with
      lanes := (w.issued s i ls).lanes, perf := SMap.upd 0 w.perf 0 (· + 1), lastIssue := s.nextTurn, swapped := i.fields.swap } := by
  unfold Warp.issued
  rw [sentOff_eq, charged_eq]
  cases counterOf i <;> rfl

theorem readsAs_issued (w : Warp) (s : State) (i : Instr) (ls : List Nat) : w.ReadsAs (w.issued s i ls) := by
  unfold Warp.ReadsAs
  rw [issued_eq]
  cases counterOf i <;> rfl

theorem Warp.ReadsAs.regIn {w v : Warp} (h : w.ReadsAs v) (m : Bool) (r l : Nat) : v.regIn m r l = w.regIn m r l := by rw [h]; rfl

theorem issued_lane {s : State} {i : Instr} {ls : List Nat} (hn : ls.Nodup) (l : Nat) : (s.curW.issued s i ls).lane l =
    if s.awaits i = true ∧ l ∈ ls then { (s.curW.charged s i.fields).lane l with wait := some ⟨.reply s.tag, i.fields.len⟩ }
    else if l ∈ s.group then
      { (s.curW.charged s i.fields).lane l with pc := ((s.curW.charged s i.fields).lane l).pc + BitVec.ofNat 64 i.fields.len }
    else (s.curW.charged s i.fields).lane l := by
  have lanes : ((s.curW.charged s i.fields).bump (counterOf i) true).lane l = (s.curW.charged s i.fields).lane l := by
    cases counterOf i <;> rfl
  rw [Warp.issued, sentOff_lane hn, lanes]

theorem issued_executed (s : State) (i : Instr) {ls : List Nat} (hn : ls.Nodup) (hs : ∀ l ∈ ls, l ∈ s.group) :
    Executed s (s.updCur fun w => w.issued s i ls) i.fields
      { lane := fun l x => if s.awaits i = true ∧ l ∈ ls then { x with pc := (s.curW.lane l).pc, wait := some ⟨.reply s.tag, i.fields.len⟩ } else x
        rest := fun w => w.bump (counterOf i) true } := by
  have reads := readsAs_issued s.curW s i ls
  apply executed_updCur
  · rw [issued_eq]
    cases counterOf i <;> simp [Warp.bump]
  · intro n
    have perf : (s.curW.issued s i ls).perf = SMap.upd 0 s.curW.perf 0 (· + 1) := by rw [issued_eq]
    rw [perf, SMap.get_upd]
    by_cases h0 : n = 0
    · subst h0; rw [if_pos rfl, if_pos rfl]
    · rw [if_neg h0, if_neg h0]; exact (BitVec.add_zero _).symm
  · intro l away
    rw [issued_lane hn, if_neg fun h => away (hs l h.2), if_neg away, charged_lane, if_neg away]
  · intro l here
    rw [issued_lane hn, charged_lane, if_pos here]
    by_cases waits : s.awaits i = true ∧ l ∈ ls
    · simp only [waits, and_self, if_true]
    · simp only [waits, here, if_true, if_false]
  · exact fun r l => reads.reg r l
  · exact fun r l _ => reads.regIn _ r l
  · intro r
    rw [reads]
    rfl

/-! ### The state -/

theorem count_eq (s : State) (n : Nat) : s.count s.curWg s.curWarp n 1 = s.updCur fun w => w.counted n := rfl

theorem afterSend_eq (s : State) (i : Instr) (ls : List Nat) (g : Nat) : s.afterSend i ls g = s.updCur fun w => w.sentOff s i ls g := by
  have waits : (((memOf i).scope != 0 && ((memOf i).acq || decide (s.checkMode (s.ctxNo s.curWg) = 0))) = true) = (s.awaits i = true) := rfl
  unfold State.afterSend Warp.sentOff
  dsimp only
  simp only [waits]
  split
  · exact updCur_updCur ..
  · rfl

/-- A state with other paths left to choose. -/
def State.withPaths (s : State) (paths : List Nat) : State := { s with paths }

section
variable (s : State) (i : Instr) (ls : List Nat) (left : List Nat)

theorem slotsFor_withPaths (withEsc : Bool) : (s.withPaths left).slotsFor i ls withEsc = s.slotsFor i ls withEsc := rfl

theorem noRoom_withPaths : (s.withPaths left).noRoom i ls = s.noRoom i ls := by
  have used : (s.withPaths left).escUsed = s.escUsed := rfl
  have curG : (s.withPaths left).curG = s.curG := rfl
  unfold State.noRoom
  rw [slotsFor_withPaths, used, curG]

theorem lineRequests_withPaths (phase : Phase) (no : Bool) (paths : List (Nat × Nat)) :
    (s.withPaths left).lineRequests i ls phase no paths = s.lineRequests i ls phase no paths := by
  have request (n : Nat) (xs : List Slot) : (s.withPaths left).lineRequest i phase no paths n xs = s.lineRequest i phase no paths n xs := by
    unfold State.lineRequest State.targetWaits
    rfl
  unfold State.lineRequests
  rw [slotsFor_withPaths]
  exact List.map_congr_left fun n _ => request ..

theorem updCur_withSent (g : Warp → Warp) (reqs : List Req) : (s.withSent reqs left).updCur g = (s.updCur g).withSent reqs left := rfl

theorem withPaths_withSent (reqs : List Req) : (s.withPaths left).withSent reqs (s.withPaths left).paths = s.withSent reqs left := rfl

theorem count_withSent (reqs : List Req) (n : Nat) :
    (s.withSent reqs left).count (s.withPaths left).curWg (s.withPaths left).curWarp n 1 = (s.updCur fun w => w.counted n).withSent reqs left := rfl

theorem awaits_withSent (reqs : List Req) : (s.withSent reqs left).awaits i = s.awaits i := rfl

theorem awaits_updCur (g : Warp → Warp) : (s.updCur g).awaits i = s.awaits i := rfl

theorem sentOff_congr {s t : State} (awaits : t.awaits i = s.awaits i) (group : t.group = s.group) (w : Warp) (g : Nat) :
    w.sentOff t i ls g = w.sentOff s i ls g := by
  unfold Warp.sentOff Warp.waiting Warp.moved
  rw [awaits, group]

theorem afterSend_withSent (F : Warp → Warp) (reqs : List Req) (g : Nat) :
    ((s.updCur F).withSent reqs left).afterSend i ls g = (s.updCur fun w => (F w).sentOff s i ls g).withSent reqs left := by
  have off : (fun w : Warp => w.sentOff ((s.updCur F).withSent reqs left) i ls g) = fun w => w.sentOff s i ls g :=
    funext fun w => sentOff_congr i ls ((awaits_withSent ..).trans (awaits_updCur ..)) rfl w g
  rw [afterSend_eq, off, updCur_withSent, updCur_updCur]

end

/-- What an instruction that passes its checks leaves. -/
theorem sends (s : State) (i : Instr) (ls : List Nat) (resident : s.curG.status = .resident) :
    let p := (s.charge i.fields).linePaths i ls
    let u := s.updCur fun w => w.issued s i ls
    let v := u.withSent (s.outgoing i ls (u.noRoom i ls)) (s.linePaths i ls).2.paths
    (p.2.sendReqs i ls (firstPhase i) false p.1).afterSend i ls p.2.tag =
      if u.noRoom i ls then v.count s.curWg s.curWarp 3 1 else v := by
  intro p u v
  have paths : p = ((s.linePaths i ls).1, (s.charge i.fields).withPaths (s.linePaths i ls).2.paths) := linePaths_charge ..
  have full : ((s.charge i.fields).withPaths (s.linePaths i ls).2.paths).noRoom i ls = u.noRoom i ls := by
    rw [noRoom_withPaths, charge_eq]
    refine noRoom_updCur resident ?_ i ls
    unfold Warp.ReadsAs Warp.issued
    rw [sentOff_eq, bump_eq]
  have new : ((s.charge i.fields).withPaths (s.linePaths i ls).2.paths).lineRequests i ls (firstPhase i) (u.noRoom i ls) (s.linePaths i ls).1 =
      s.outgoing i ls (u.noRoom i ls) := (lineRequests_withPaths ..).trans (lineRequests_charge ..)
  rw [paths, sendReqs_eq, full, new]
  rw [withPaths_withSent]
  split
  · have counted : ((s.charge i.fields).updCur fun w => w.counted 3).updCur (fun w => w.bump (counterOf i) true) =
        s.updCur fun w => ((w.charged s i.fields).bump (counterOf i) true).counted 3 := by
      rw [charge_eq, updCur_updCur, updCur_updCur]
      simp only [counted_bump]
    rw [count_withSent, updCur_withSent, counted, afterSend_withSent]
    simp only [counted_sentOff]
    show _ = (u.updCur fun w => w.counted 3).withSent _ _
    rw [updCur_updCur]
    rfl
  · have bumped : (s.charge i.fields).updCur (fun w => w.bump (counterOf i) true) = s.updCur fun w => (w.charged s i.fields).bump (counterOf i) true := by
      rw [charge_eq, updCur_updCur]
    rw [updCur_withSent, bumped, afterSend_withSent]
    rfl

end Sys2Proof.Machine
end

section

/-!
# The statement about memory instructions
-/

namespace Sys2Proof.Machine

/-- The memory instructions that send requests. -/
def sendsRequests (i : Instr) : Prop := i ∈ [Instr.ld i.fields, .st i.fields, .ldi i.fields, .atom i.fields, .red i.fields, .cas i.fields]

theorem fields_of_mem {i : Instr} {f : Fields} (mem : i ∈ [Instr.ld f, .st f, .ldi f, .atom f, .red f, .cas f]) : i.fields = f := by
  simp only [List.mem_cons, List.not_mem_nil, or_false] at mem
  rcases mem with rfl | rfl | rfl | rfl | rfl | rfl <;> rfl

section
variable {i : Instr} (mem : sendsRequests i) {s : State}
include mem

theorem access_exec : exec i s = issueHeld i (heldAtIssue i s) s (fun u => u.access i) ∧ heldAtIssue i s = heldNow i s := by
  simp only [sendsRequests, List.mem_cons, List.not_mem_nil, or_false] at mem
  generalize i.fields = f at mem
  rcases mem with rfl | rfl | rfl | rfl | rfl | rfl <;> exact ⟨rfl, rfl⟩

theorem access_runs (runs : Runs i s) : exec i s = .next ((s.charge i.fields).access i) := by
  obtain ⟨means, held⟩ := access_exec mem (s := s)
  rw [means]
  exact issueHeld_runs (fun u => u.access i) runs held

/-- It raises one class counter or the other. -/
theorem counterOf_access : ((i = .ld i.fields ∨ i = .ldi i.fields ∨ i = .atom i.fields ∨ i = .cas i.fields) → counterOf i = .ldc) ∧
    (¬(i = .ld i.fields ∨ i = .ldi i.fields ∨ i = .atom i.fields ∨ i = .cas i.fields) → counterOf i = .stc) := by
  simp only [sendsRequests, List.mem_cons, List.not_mem_nil, or_false] at mem
  generalize i.fields = f at mem
  rcases mem with rfl | rfl | rfl | rfl | rfl | rfl <;> simp [counterOf]

theorem skewed_access (l : Nat) : s.skewed i l =
    (decide (i = .ldi i.fields) && (pairC i.fields s l).toNat % (if i.fields.mbit 2 then 8 else 4) != 0) := by
  simp only [sendsRequests, List.mem_cons, List.not_mem_nil, or_false] at mem
  generalize i.fields = f at mem
  rcases mem with rfl | rfl | rfl | rfl | rfl | rfl
  case inr.inr.inl =>
    rw [decide_eq_true rfl]
    rfl
  all_goals simp [State.skewed]

end

/-! ### The effects of one that passes its checks -/

section
variable (s : State) (i : Instr) {ls : List Nat} (hn : ls.Nodup) (hs : ∀ l ∈ ls, l ∈ s.group)
include hn hs

theorem issued_waits (waits : s.awaits i = true) : Executed s (s.updCur fun w => w.issued s i ls) i.fields
    { lane := fun l x => if l ∈ ls then { x with pc := (s.curW.lane l).pc, wait := some ⟨.reply s.tag, i.fields.len⟩ } else x
      rest := fun w => w.bump (counterOf i) true } := by
  have executed := issued_executed s i hn hs
  simpa only [waits, true_and] using executed

theorem issued_goes (goes : ¬s.awaits i = true) : Executed s (s.updCur fun w => w.issued s i ls) i.fields
    { rest := fun w => w.bump (counterOf i) true } := by
  have executed := issued_executed s i hn hs
  simpa only [goes, Bool.false_eq_true, false_and, if_false] using executed

end

/-! ### One whose lanes fail -/

section
variable (s : State) (i : Instr)

/-- The lanes' checks are those that the obligation names. -/
theorem laneFails_eq (l : Nat) : s.laneFails i (s.linePaths i (s.trueLanes i.fields)).1 l = if s.skewed i l then some ⟨1, 5, 0⟩
    else s.laneCheck s.curWg (memOf i) (s.curW.address i.fields (memOf i).space l) (pathOf s i (s.curW.address i.fields (memOf i).space l)) := rfl

/-- The failures of the guard-true lanes. -/
def State.failures : List (Nat × Nat × Failure) :=
  s.memFailures i (s.trueLanes i.fields) (s.linePaths i (s.trueLanes i.fields)).1

/-- The lanes that fail. -/
def State.failing : List Nat :=
  (s.trueLanes i.fields).filter fun l => (s.laneFails i (s.linePaths i (s.trueLanes i.fields)).1 l).isSome

theorem failures_lanes : (s.failures i).map Prod.fst = s.failing i := memFailures_lanes ..

theorem access_eq : (s.charge i.fields).access i =
    if (s.trueLanes i.fields).isEmpty then (s.charge i.fields).advance i.fields.len
    else match failTrap s.curPc (s.failures i) with
      | some t => (((s.charge i.fields).cacheOnly i (s.trueLanes i.fields)).auditRefusals s.curWg (memOf i) (s.failures i)).trapHere t
      | none =>
        let p := (s.charge i.fields).linePaths i (s.trueLanes i.fields)
        if (memOf i).space = 1 then p.2.scratchAccess i (s.trueLanes i.fields)
        else (p.2.sendReqs i (s.trueLanes i.fields) (firstPhase i) false p.1).afterSend i (s.trueLanes i.fields) p.2.tag := by
  have fails : (s.charge i.fields).memFailures i (s.trueLanes i.fields) ((s.charge i.fields).linePaths i (s.trueLanes i.fields)).1 = s.failures i := by
    rw [memFailures_charge, linePaths_charge]
    rfl
  unfold State.access State.withChecks
  dsimp only
  rw [trueLanes_charge, fails, curPc_charge]
  rfl

/-- A lane fails at the first step, or at the second one. -/
theorem laneFails_cases {l : Nat} {x : Failure} (fails : s.laneFails i (s.linePaths i (s.trueLanes i.fields)).1 l = some x) :
    x = ⟨1, 5, 0⟩ ∨ (s.curW.address i.fields (memOf i).space l % (memOf i).size = 0 ∧ s.skewed i l = false ∧ x.step = 2 ∧ x.cause = 7) := by
  rw [laneFails_eq] at fails
  split at fails
  · cases fails; exact .inl rfl
  · next straight =>
    by_cases aligned : s.curW.address i.fields (memOf i).space l % (memOf i).size = 0
    · exact .inr ⟨aligned, Bool.eq_false_iff.2 straight, laneCheck_fails fails aligned⟩
    · rw [laneCheck_misaligned aligned] at fails
      cases fails
      exact .inl rfl

theorem laneFails_misaligned {l : Nat} (skew : s.curW.address i.fields (memOf i).space l % (memOf i).size ≠ 0 ∨ s.skewed i l = true) :
    s.laneFails i (s.linePaths i (s.trueLanes i.fields)).1 l = some ⟨1, 5, 0⟩ := by
  rw [laneFails_eq]
  split
  · rfl
  · next straight => exact laneCheck_misaligned (skew.resolve_right straight) ..

/-- The state in which failing lanes trap. -/
def State.checksFailed : State :=
  ((s.charge i.fields).cacheOnly i (s.trueLanes i.fields)).auditRefusals s.curWg (memOf i) (s.failures i)

variable {s i}

theorem checksFailed_charge (skew : ∀ l ∈ s.trueLanes i.fields, s.curW.address i.fields (memOf i).space l % (memOf i).size ≠ 0) :
    s.checksFailed i = s.charge i.fields := by
  have reads := readsAs_charge s i.fields
  unfold State.checksFailed
  rw [cacheOnly_misaligned _ _ fun l hl => by rw [reads.address]; exact skew l hl]
  refine auditRefusals_none _ _ _ fun x hx => ?_
  obtain ⟨hl, -, fails⟩ := (mem_memFailures ..).1 hx
  rcases laneFails_cases s i fails with first | ⟨aligned, -⟩
  · rw [first]; decide
  · exact absurd aligned (skew _ hl)

/-- What the checks of lanes that fail leave is the charged state but for the tables and the audit log. -/
theorem checksFailed_frame (may : canTrap s) : canTrap (s.checksFailed i) ∧ (s.checksFailed i).wgs = (s.charge i.fields).wgs ∧
    (s.checksFailed i).reqs = s.reqs := by
  have charged := canTrap_charge i.fields may
  have cached := cacheOnly_translates charged.2.1 i (s.trueLanes i.fields)
  have audited := audits_auditRefusals ((s.charge i.fields).cacheOnly i (s.trueLanes i.fields)) s.curWg (memOf i) (s.failures i)
  exact ⟨audited.canTrap (cached.canTrap charged), audited.wgs.trans cached.frame.wgs, audited.reqs.trans cached.frame.reqs⟩

theorem access_traps (mem : sendsRequests i) (may : canTrap s) (runs : Runs i s) {cause detail : Nat} (known : cause < 32)
    (fails : failTrap s.curPc (s.failures i) = some
      { cause, detail, pc := s.curPc, va := BitVec.ofNat 80 (s.curW.address i.fields (memOf i).space ((s.failing i).headD 0))
        mask := maskOf (s.failing i) }) :
    ∃ s' t, exec i s = .next t ∧
      Trapped s' t cause detail s.curPc (BitVec.ofNat 80 (s.curW.address i.fields (memOf i).space ((s.failing i).headD 0))) (maskOf (s.failing i)) ∧
      s'.wgs = (s.charge i.fields).wgs ∧ s'.reqs = s.reqs ∧
      ((∀ l ∈ s.trueLanes i.fields, s.curW.address i.fields (memOf i).space l % (memOf i).size ≠ 0) → s' = s.charge i.fields) := by
  obtain ⟨ready, wgs, reqs⟩ := checksFailed_frame (i := i) may
  have lanes : s.trueLanes i.fields ≠ [] := fun none => by
    have no : s.failures i = [] := by rw [State.failures, none]; rfl
    rw [no] at fails
    cases fails
  refine ⟨s.checksFailed i, _, ?_, takeTrap_trapped ready (t := { cause, detail, pc := s.curPc, va := _, mask := _ }) known, wgs, reqs, checksFailed_charge⟩
  rw [access_runs mem runs, access_eq, if_neg (by simpa using lanes), fails]
  rfl

/-- The lowest lane that fails, with its address. -/
theorem failing_head {p : Nat × Nat × Failure} {rest : List (Nat × Nat × Failure)} (fails : s.failures i = p :: rest) :
    p.1 = (s.failing i).headD 0 ∧ p.2.1 = s.curW.address i.fields (memOf i).space p.1 ∧
      s.laneFails i (s.linePaths i (s.trueLanes i.fields)).1 p.1 = some p.2.2 := by
  obtain ⟨-, va, fail⟩ := (mem_memFailures s i ..).1 (show p ∈ s.failures i from fails ▸ List.mem_cons_self ..)
  refine ⟨?_, va, fail⟩
  rw [← failures_lanes, fails]
  rfl

/-- A misaligned lane makes the trap MISALIGN. -/
theorem failTrap_misaligned {l : Nat} (hl : l ∈ s.trueLanes i.fields)
    (skew : s.curW.address i.fields (memOf i).space l % (memOf i).size ≠ 0 ∨ s.skewed i l = true) :
    failTrap s.curPc (s.failures i) = some
      { cause := 5, detail := 0, pc := s.curPc, va := BitVec.ofNat 80 (s.curW.address i.fields (memOf i).space ((s.failing i).headD 0))
        mask := maskOf (s.failing i) } := by
  have here : (l, s.curW.address i.fields (memOf i).space l, (⟨1, 5, 0⟩ : Failure)) ∈ s.failures i :=
    (mem_memFailures ..).2 ⟨hl, rfl, laneFails_misaligned s i skew⟩
  have step (x : Nat × Nat × Failure) (hx : x ∈ s.failures i) : x.2.2 = ⟨1, 5, 0⟩ ∨ x.2.2.step = 2 :=
    (laneFails_cases s i ((mem_memFailures ..).1 hx).2.2).imp_right fun h => h.2.2.1
  rw [failTrap_first (d := (0, 0, ⟨1, 5, 0⟩)) (cause := 5) (detail := 0) here rfl (fun x hx => ?_) fun x hx first => ?_]
  · obtain ⟨p, rest, fails⟩ := List.exists_cons_of_ne_nil (List.ne_nil_of_mem here)
    obtain ⟨lowest, va, -⟩ := failing_head fails
    rw [failures_lanes, fails, ← lowest, List.headD_cons, va]
  · rcases step x hx with one | two
    · rw [one]
    · omega
  · rcases step x hx with one | two
    · rw [one]; exact ⟨rfl, rfl⟩
    · omega

/-- Where every lane is aligned, the lowest that fails says why. -/
theorem failTrap_aligned (aligned : ∀ l ∈ s.trueLanes i.fields, s.curW.address i.fields (memOf i).space l % (memOf i).size = 0 ∧ s.skewed i l = false)
    (fails : s.failing i ≠ []) : ∃ x : Failure, x.cause = 7 ∧
      s.laneFails i (s.linePaths i (s.trueLanes i.fields)).1 ((s.failing i).headD 0) = some x ∧ failTrap s.curPc (s.failures i) = some
      { cause := 7, detail := x.detail, pc := s.curPc, va := BitVec.ofNat 80 (s.curW.address i.fields (memOf i).space ((s.failing i).headD 0))
        mask := maskOf (s.failing i) } := by
  have step (x : Nat × Nat × Failure) (hx : x ∈ s.failures i) : x.2.2.step = 2 ∧ x.2.2.cause = 7 := by
    obtain ⟨hl, -, fail⟩ := (mem_memFailures ..).1 hx
    rcases laneFails_cases s i fail with one | ⟨-, -, two⟩
    · obtain ⟨straight, unskewed⟩ := aligned _ hl
      rw [laneFails_eq, unskewed, if_neg Bool.false_ne_true] at fail
      rw [one] at fail ⊢
      exact absurd (laneCheck_fails fail straight).1 (by decide)
    · exact two
  have some_ : s.failures i ≠ [] := fun none => fails (by rw [← failures_lanes, none]; rfl)
  obtain ⟨p, rest, all⟩ := List.exists_cons_of_ne_nil some_
  obtain ⟨lowest, va, fail⟩ := failing_head all
  obtain ⟨two, prot⟩ := step p (all ▸ List.mem_cons_self ..)
  refine ⟨p.2.2, prot, lowest ▸ fail, ?_⟩
  have trap := failTrap_lowest (pc := s.curPc) (x := p) (rest := rest) (n := 2) fun y hy => (step y (all ▸ hy)).1
  rw [← all, failures_lanes, prot, va, lowest] at trap
  exact trap

end

/-- Settles O35: by whether a lane is guard-true, and then by whether one fails its checks. -/
theorem memoryInstructionsSend : Obligations.MemoryInstructionsSend := by
  unfold Obligations.MemoryInstructionsSend
  intro i f s listed
  obtain rfl := fields_of_mem listed
  have mem : sendsRequests i := listed
  intro m ls va skewed check bad waits loads
  have skew (l : Nat) : skewed l = s.skewed i l := (skewed_access mem l).symm
  have failsAt (l : Nat) : s.laneFails i (s.linePaths i ls).1 l = if skewed l then some ⟨1, 5, 0⟩ else check l := by rw [skew]; exact laneFails_eq s i l
  have badIs : bad = s.failing i := List.filter_congr fun l _ => by
    rw [failsAt]
    cases skewed l <;> rfl
  refine ⟨fun none runs => ?_, fun some space pass runs => ?_, fun may runs => ?_⟩
  · refine ⟨_, access_runs mem runs, ?_⟩
    rw [access_eq, if_pos (List.isEmpty_iff.2 none)]
    exact advance_executed s i.fields
  · have resident : s.curG.status = .resident := by
      have can := runs.can
      simp only [State.canIssue, Bool.and_eq_true, decide_eq_true_eq] at can
      exact can.1.1
    have passed : s.failures i = [] := by
      have no : (s.failures i).map Prod.fst = [] := by
        rw [failures_lanes, ← badIs]
        exact List.filter_eq_nil_iff.2 fun l hl => by simp [pass l hl]
      exact List.map_eq_nil_iff.1 no
    have awaits : waits ↔ s.awaits i = true := (awaits_iff s i).symm
    have hn : ls.Nodup := trueLanes_nodup ..
    have hs : ∀ l ∈ ls, l ∈ s.group := trueLanes_sub s i.fields
    obtain ⟨load, store⟩ := counterOf_access mem
    refine ⟨s.updCur fun w => w.issued s i ls, _, outgoing_sent s i ls _ rfl, ?_, fun l w => ?_, fun l w => ?_, fun l w => ?_, fun l w => ?_⟩
    · rw [access_runs mem runs, access_eq, passed, if_neg (by simpa using some)]
      dsimp only
      rw [failTrap_none]
      dsimp only
      rw [if_neg space]
      exact congrArg _ (sends s i ls resident)
    · have executed := issued_waits s i hn hs (awaits.1 w)
      rw [load l] at executed
      exact executed
    · have executed := issued_goes s i hn hs (mt awaits.2 w)
      rw [load l] at executed
      exact executed
    · have executed := issued_waits s i hn hs (awaits.1 w)
      rw [store l] at executed
      exact executed
    · have executed := issued_goes s i hn hs (mt awaits.2 w)
      rw [store l] at executed
      exact executed
  · rw [badIs]
    intro trapped
    refine ⟨fun ⟨l, hl, misaligned⟩ => ?_, fun aligned fails => ?_⟩
    · exact access_traps mem may runs (by decide) (failTrap_misaligned hl (by rw [← skew]; exact misaligned))
    · obtain ⟨x, prot, why, trap⟩ := failTrap_aligned (fun l hl => by rw [← skew]; exact aligned l hl) fails
      refine ⟨x, ?_, prot, access_traps mem may runs (by decide) trap⟩
      have lowest : (s.failing i).headD 0 ∈ ls := by
        obtain ⟨l, rest, head⟩ := List.exists_cons_of_ne_nil fails
        rw [head]
        exact List.mem_of_mem_filter (show l ∈ s.failing i from head ▸ List.mem_cons_self ..)
      have given := failsAt ((s.failing i).headD 0)
      rw [(aligned _ lowest).2, if_neg Bool.false_ne_true] at given
      exact given.symm.trans why

end Sys2Proof.Machine
end

section

/-!
# The section of a saved workgroup (R106, R398)
-/

namespace Sys2Proof.Machine

/-! ### Bytes written one after another -/

/-- The canonical address of each byte of a range is its own. -/
def State.plainRange (s : State) (g n : Nat) : Prop := ∀ i, i < n → s.canon (g + i) = g + i

theorem plainRange_low (s : State) {g n : Nat} (low : g + n ≤ stripedBase) : s.plainRange g n := fun i hi =>
  canon_elsewhere s (by unfold inStriped stripedBase pkgSpan at *; omega)

theorem canon_memWrite (s : State) (g n v : Nat) : (s.memWrite g n v).canon = s.canon := canon_eq fun _ => rfl

theorem plainRange_tail {s : State} {g n : Nat} (plain : s.plainRange g (n + 1)) (v : Nat) : (s.memWrite g 1 v).plainRange (g + 1) n := fun i hi => by
  rw [canon_memWrite, Nat.add_assoc, Nat.add_comm 1]
  exact plain (i + 1) (by omega)

theorem memWriteBytes_below {s : State} {g : Nat} {bs : List Byte} (plain : s.plainRange g bs.length) {a : Nat} (below : a < g) :
    (s.memWriteBytes g bs).mem.byte a = s.mem.byte a := by
  induction bs generalizing s g with
  | nil => rfl
  | cons b bs ih =>
    have here : s.canon g = g := plain 0 (by simp)
    rw [State.memWriteBytes, ih (plainRange_tail plain _) (by omega), memWrite_bytes, here]
    exact Memory.byte_write_outside _ _ _ _ _ (.inl below)

/-- What is written byte by byte is read byte by byte. -/
theorem memWriteBytes_byte {s : State} {g : Nat} {bs : List Byte} (plain : s.plainRange g bs.length) {i : Nat} {b : Byte} (at_ : bs[i]? = some b) :
    (s.memWriteBytes g bs).mem.byte (g + i) = b := by
  induction bs generalizing s g i with
  | nil => cases at_
  | cons c bs ih =>
    rw [State.memWriteBytes]
    cases i with
    | zero =>
      have here : s.canon g = g := plain 0 (by simp)
      obtain rfl : c = b := by simpa using at_
      show ((s.memWrite g 1 c.toNat).memWriteBytes (g + 1) bs).mem.byte g = c
      rw [memWriteBytes_below (plainRange_tail plain _) (Nat.lt_succ_self g), memWrite_bytes, here]
      have byte := Memory.byte_write_inside s.mem g 1 c.toNat 0 Nat.one_pos
      simpa using byte
    | succ i =>
      have rest := ih (plainRange_tail plain c.toNat) (i := i) (by simpa using at_)
      rwa [Nat.add_right_comm, Nat.add_assoc] at rest

/-! ### The completion of one save -/

/-- The first `n` warps of a workgroup have left the active sets. -/
def State.leftActive (s : State) (k n : Nat) : State := (List.range n).foldl (fun s w => s.leaveActive (k, w)) s

/-- The bytes of a workgroup's section. -/
def State.savedBytes (s : State) (k : Nat) : List Byte :=
  (s.wg k).sectionBytes (s.packet k) (s.ctxNo k) (s.ctx (s.ctxNo k)).scopechk (s.copiesOf k)

theorem saveAt_mem {s : State} (settled : s.late = []) (k at_ : Nat) :
    (s.saveAt k at_).1.mem = ((s.leftActive k (s.warpCount k)).memWriteBytes ((s.leftActive k (s.warpCount k)).own at_)
      ((s.leftActive k (s.warpCount k)).savedBytes k)).mem := by
  have paid : s.payAt k none = s := by rw [State.payAt, settled]; rfl
  unfold State.saveAt State.savedBytes State.leftActive
  dsimp only
  rw [freeEngine_mem, paid]

theorem event_next {name : String} {ok : Bool} {s t : State} (next : event name ok s = .next t) : t = s := by
  unfold event at next
  split at next
  · exact (Host.Outcome.next.inj next).symm
  · cases next

/-- The memory that the completion of one save leaves. -/
theorem preemptComplete_mem {s t : State} {quad k : Nat} {p : Preempt} (preempted : (s.quad quad).preempt = some p)
    (one : ((s.wgsOnQuad quad).filter fun j => s.ctxNo j == p.ctx) = [k]) (saves : s.saving k = true) (running : (s.wg k).status = .resident)
    (next : exec (.preemptComplete quad) s = .next t) : t.mem = (s.saveAt k (s.pointer (preemptBlock quad + 0x20))).1.mem := by
  have going : ((s.wg k).status == .ending && s.discarding k) = false := by rw [running]; rfl
  have run : execPreemptComplete quad s = .next t := next
  unfold execPreemptComplete at run
  rw [preempted] at run
  dsimp only at run
  rw [one] at run
  simp only [List.filter_cons, List.filter_nil, saves, going, if_true, Bool.false_eq_true, if_false, List.foldl_cons, List.foldl_nil] at run
  rw [event_next run, updQuad_mem, setCreg_mem, ite_mem, scrub_mem, ite_self]

end Sys2Proof.Machine
end

section

/-!
# The lengths of a section's parts (R398)
-/

namespace Sys2Proof.Machine

/-! ### The lengths of the lists of bytes -/

@[simp] theorem bytesOf_length (n v : Nat) : (bytesOf n v).length = n := by
  induction n generalizing v with
  | zero => rfl
  | succ n ih => rw [bytesOf, List.length_cons, ih]

@[simp] theorem padTo_length (n : Nat) (l : List Byte) : (padTo n l).length = max n l.length := by
  rw [padTo, List.length_append, List.length_replicate]
  omega

theorem length_flatMap_const {α β : Type} {l : List α} {f : α → List β} {n : Nat} (each : ∀ x ∈ l, (f x).length = n) :
    (l.flatMap f).length = l.length * n := by
  rw [List.length_flatMap, List.map_congr_left each, List.map_const', List.sum_replicate, smul_eq_mul]

@[simp] theorem flatMap_bytesOf_length {α : Type} (l : List α) (n : Nat) (h : α → Nat) : (l.flatMap fun x => bytesOf n (h x)).length = l.length * n :=
  length_flatMap_const fun x _ => bytesOf_length n (h x)

@[simp] theorem flatMap_bytesOf_id_length (l : List Nat) (n : Nat) : (l.flatMap (bytesOf n)).length = l.length * n :=
  length_flatMap_const fun x _ => bytesOf_length n x

@[simp] theorem wordBytes_length (n : Nat) (h : Nat → Word) : (wordBytes n h).length = n * 4 := by
  rw [wordBytes, flatMap_bytesOf_length, List.length_range]

@[simp] theorem flatMap_wordBytes_length {α : Type} (l : List α) (n : Nat) (h : α → Nat → Word) :
    (l.flatMap fun x => wordBytes n (h x)).length = l.length * (n * 4) :=
  length_flatMap_const fun x _ => wordBytes_length n (h x)

/-- Each part of a section is filled to the next multiple of 256. -/
theorem part_length {l : List Byte} {n : Nat} (length : l.length = n) : (padTo (up256 n) l).length = up256 n := by
  rw [padTo_length, length, up256]
  omega

/-! ### The lengths of the parts -/

theorem record_length (w : Warp) (role : Nat) : (w.record role).length = 4096 := by
  simp [Warp.record, Function.comp_def]

theorem registerBytes_length (g : Workgroup) (p : Packet) : (g.registerBytes p).length = p.warps * (p.home + p.travel) * 256 := by
  rw [Workgroup.registerBytes, length_flatMap_const (n := (p.home + p.travel) * 256) fun _ _ => by
    rw [flatMap_wordBytes_length, List.length_range], List.length_range, Nat.mul_assoc]

theorem syncBytes_length (g : Workgroup) (p : Packet) (cs : List Copy) : (g.syncBytes p cs).length = 1024 := by
  simp [Workgroup.syncBytes, Function.comp_def]

theorem slotBytes_length (m : Message) : m.slotBytes.length = 272 := by
  simp [Message.slotBytes]

/-- A queue of at most 16 messages has 16 slots. -/
theorem queueBytes_length {g : Workgroup} (short : ∀ q, (g.queue q).length ≤ 16) : g.queueBytes.length = 17408 := by
  rw [Workgroup.queueBytes, length_flatMap_const (n := 16 * 272) fun q _ => by
    rw [padTo_length, length_flatMap_const fun m _ => slotBytes_length m]
    have := short q
    omega, List.length_range]

theorem feBytes_length (g : Workgroup) (p : Packet) : (g.feBytes p).length = p.scratch / 32 := by
  rw [Workgroup.feBytes, List.length_map, List.length_range]

theorem tileBytes_length (g : Workgroup) (p : Packet) : (g.tileBytes p).length = p.nacc * 16896 := by
  simp only [Workgroup.tileBytes, List.length_append, flatMap_wordBytes_length, List.length_range]
  omega

theorem solveBytes_length (g : Workgroup) : g.solveBytes.length = 65792 := by
  simp [Workgroup.solveBytes]

theorem heldBytes_length (m : MatOp) : m.heldBytes.length = 64 := by
  simp [MatOp.heldBytes]

/-- The abroad section begins where the parts before it end: at the sum of their sizes, each filled. -/
theorem sectionBytes_split {g : Workgroup} (short : ∀ q, (g.queue q).length ≤ 16) (p : Packet) (ctx : Nat) (scopechk : Word) (cs : List Copy) :
    ∃ before, g.sectionBytes p ctx scopechk cs = before ++ abroadBytes g.recs cs ∧
      before.length = ((imgSizes p g.open_ g.held.length).map up256).sum := by
  refine ⟨_, rfl, ?_⟩
  have slots : ((List.range p.nwb).flatMap fun n => (List.range 65536).map (g.wbAt n)).length = p.nwb * 65536 := by
    rw [length_flatMap_const fun _ _ => by rw [List.length_map], List.length_range, List.length_range]
  have history : ((List.range p.nhist).flatMap fun n => wordBytes 8192 (g.hsAt n)).length = p.nhist * 32768 := by
    rw [flatMap_wordBytes_length, List.length_range]
  have warps (role : Nat → Nat) : ((List.range p.warps).flatMap fun w => (g.warp w).record (role w)).length = p.warps * 4096 := by
    rw [length_flatMap_const fun _ _ => record_length _ _, List.length_range]
  have region : (if g.open_ then g.solveBytes else []).length = if g.open_ then 65792 else 0 := by
    split
    · exact solveBytes_length g
    · rfl
  have held : (g.held.flatMap MatOp.heldBytes).length = 64 * g.held.length := by
    rw [length_flatMap_const fun m _ => heldBytes_length m, Nat.mul_comm]
  have offsets : (g.offsets p).length = 13 := rfl
  have decl : p.declBytes.length = 24 := by simp [Packet.declBytes]
  have header : up256 104 = up256 256 := rfl
  simp only [List.length_append, part_length, warps, registerBytes_length, syncBytes_length, queueBytes_length short, List.length_map,
    List.length_range, feBytes_length, tileBytes_length, slots, history, region, held, bytesOf_length, decl, flatMap_bytesOf_id_length,
    offsets, imgSizes, List.map_cons, List.map_nil, List.sum_cons, List.sum_nil, Nat.add_assoc,
    Nat.reduceMul, Nat.reduceAdd, Nat.add_zero]
  rw [header]

end Sys2Proof.Machine
end

section

/-!
# A load that L1 answered is recorded at STATE 1
-/

namespace Sys2Proof.Machine

/-- A load of one lane that L1 has answered, recorded before its reply. -/
def answeredLoad : Req :=
  { id := 1, group := 1, wg := 0, warp := 0, core := 0, insn := .ld plainFields, pc := 0x40, space := 0, slots := [{ lane := 0, addr := 0 }]
    phase := .performed, noEsc := true, fromL1 := true }

/-- A stopped workgroup of one warp, whose save is due, with that load among its records. -/
def savesAnswered : State :=
  let p : Packet := { nx := 1, ny := 1, nz := 1, warps := 1, nvec := 1, home := 2, qgroup := 1 }
  let s := { Tests.preemptDemo 0 2 0 0 with launches := [(0, { packet := p, ctx := 1, nextWg := 1 })] }.updCur fun w => { w with stopped := true }
  s.updCurG fun g => { g with recs := [.inl answeredLoad] }

/-- The hypotheses hold of it: its save is ready, and its section lies at physical address 0. -/
theorem savesAnswered_due : (savesAnswered.quad 0).preempt = some { ctx := 1, deadline := 0, started := 0, choice := 2 } ∧
    ((savesAnswered.wgsOnQuad 0).filter fun j => savesAnswered.ctxNo j == 1) = [0] ∧ savesAnswered.saving 0 = true ∧
    savesAnswered.saveReady 0 = true ∧ savesAnswered.late = [] ∧ (savesAnswered.wg 0).queues = [] ∧ (savesAnswered.wg 0).status = .resident ∧
    savesAnswered.pointer (preemptBlock 0 + 0x20) = 0 := by
  decide +kernel

/-- Where the first record of its section begins. -/
theorem savesAnswered_sizes : (imgOffsets (savesAnswered.packet 0) ((savesAnswered.wg 0).svstat.getLsbD 0) (savesAnswered.wg 0).held.length).getD 12 0 = 23296 ∧
    ((imgSizes (savesAnswered.packet 0) (savesAnswered.wg 0).open_ (savesAnswered.wg 0).held.length).map up256).sum = 23296 := by
  decide +kernel

/-- Its records: 96 bytes, of which the first is STATE 1, and 4 for an instruction without an escort. -/
theorem savesAnswered_abroad : (abroadBytes [.inl answeredLoad] []).length = 96 ∧ (abroadBytes [.inl answeredLoad] [])[0]? = some 5 := by
  decide +kernel

/-- The length of a section with that record alone, and the record's first byte. -/
theorem savedBytes_answered {s : State} (recs : (s.wg 0).recs = [.inl answeredLoad]) (copies : s.copiesOf 0 = []) (queues : (s.wg 0).queues = [])
    (sizes : ((imgSizes (s.packet 0) (s.wg 0).open_ (s.wg 0).held.length).map up256).sum = 23296) :
    (s.savedBytes 0).length = 23392 ∧ (s.savedBytes 0)[23296]? = some 5 := by
  obtain ⟨length, state⟩ := savesAnswered_abroad
  obtain ⟨before, split, starts⟩ := sectionBytes_split (g := s.wg 0) (fun q => by rw [Workgroup.queue, queues]; exact Nat.zero_le 16)
    (s.packet 0) (s.ctxNo 0) (s.ctx (s.ctxNo 0)).scopechk (s.copiesOf 0)
  rw [recs, copies] at split
  rw [sizes] at starts
  rw [State.savedBytes, copies, split]
  constructor
  · rw [List.length_append, starts, length]
  · rw [← starts, List.getElem?_append_right (Nat.le_refl _), Nat.sub_self, state]

theorem savesAnswered_length : (savesAnswered.savedBytes 0).length = 23392 :=
  (savedBytes_answered rfl rfl rfl savesAnswered_sizes.2).1

/-- The section is written when the warp has left the active sets. -/
theorem savesAnsweredLeft_bytes : let t := savesAnswered.leftActive 0 (savesAnswered.warpCount 0)
    (t.savedBytes 0).length = 23392 ∧ (t.savedBytes 0)[23296]? = some 5 :=
  savedBytes_answered rfl rfl rfl (by decide +kernel)

theorem savesAnswered_own (s : State) (pkg : s.pkg = 0) (pa : Nat) : s.own pa = pa := by
  rw [State.own, pkg, Nat.zero_mul, Nat.zero_add]

/-- The byte in memory once the save is complete. -/
theorem savesAnswered_byte {t : State} (next : exec (.preemptComplete 0) savesAnswered = .next t) : t.mem.byte 23296 = 5 := by
  obtain ⟨preempted, one, saving, -, settled, -, running, at_⟩ := savesAnswered_due
  obtain ⟨length, state⟩ := savesAnsweredLeft_bytes
  rw [preemptComplete_mem preempted one saving running next, at_, saveAt_mem settled, savesAnswered_own _ (by decide +kernel)]
  have byte := memWriteBytes_byte (s := savesAnswered.leftActive 0 (savesAnswered.warpCount 0)) (g := 0)
    (plainRange_low _ (by rw [length]; decide)) state
  rwa [Nat.zero_add] at byte

/-- Refutes O5: a load without an escort that L1 has answered was not performed at its home and is issued afresh (R105), so its record holds
STATE 1 with the bit of the escort, 5; the statement demands STATE 2 of every load in phase `performed`, 6. -/
theorem not_savedSectionsHoldTheWorkgroup : ¬ Obligations.SavedSectionsHoldTheWorkgroup := by
  unfold Obligations.SavedSectionsHoldTheWorkgroup
  intro h
  obtain ⟨preempted, one, saving, ready, settled, queues, -, at_⟩ := savesAnswered_due
  obtain ⟨t, next, saved⟩ := h savesAnswered 0 0 _ (by decide) preempted rfl one saving ready settled
    (fun q => by rw [queues]; exact Nat.zero_le 16) (by rw [at_, ← State.savedBytes, savesAnswered_length]; omega)
  have said := (saved.abroad.2 answeredLoad [] rfl (by decide) (by decide)).1
  rw [at_, savesAnswered_own _ rfl, savesAnswered_sizes.1] at said
  have plain : t.canon (0 + 23296) = 23296 := canon_elsewhere t (by unfold inStriped stripedBase pkgSpan; omega)
  rw [State.memRead, plain, read_succ, savesAnswered_byte next] at said
  have six : (if answeredLoad.phase = .performed then 2 else 1) + (if answeredLoad.noEsc || answeredLoad.escCount == 0 then 4 else 0) = 6 := rfl
  rw [six] at said
  have five : (5 : Byte).toNat = 5 := rfl
  omega

end Sys2Proof.Machine
end
